-- ==== Sys2Proof/Word.lean ====
section
/-! DEFINITION. The machine's word types and the identifiers that name its units. -/

namespace Sys2Proof

/-- One byte of memory (R4). -/
abbrev Byte := BitVec 8

/-- A 32-bit register value (R27). -/
abbrev Word := BitVec 32

/-- A 64-bit value held in a register pair (R5). -/
abbrev DWord := BitVec 64

/-- A virtual address, as vpc and register pairs hold it (R16). -/
abbrev Addr := BitVec 64

/-- A per-lane mask: bit `l` stands for lane `l` (R10). -/
abbrev Mask := BitVec 64

/-- A context tag (R362). -/
abbrev Tag := BitVec 16

/-- A compute unit: `48·y + x` in the logical mesh, `768 + d` for the curator CU of die `d` (R12, R15). -/
abbrev CuId := Nat

/-- A resident group: `32·cu + slot` (R291). -/
abbrev GroupId := Nat

/-- A firmware image (R437): a header with its kind, its version and both public keys, its body, and two signatures over header
and body, of 384 and 16,224 bytes. -/
structure Firmware where
  kind : Nat
  version : BitVec 16
  rsaKey : List Byte
  slhKey : List Byte
  body : List Byte
  rsaSig : BitVec 3072
  slhSig : BitVec 129792
deriving DecidableEq, Repr, Inhabited

/-- A resident warp: `16·group + index in the group` (R9). -/
abbrev WarpId := Nat

end Sys2Proof
end

