-- ==== Sys2Proof/Config.lean ====
section
/-! DEFINITION. What an implementation fixes and the free values: constants with no body, so that nothing can be
proved of their value. Each is named in a log entry. -/

namespace Sys2Proof.Config

/-- FREE VALUE (log 3). What an unwritten scratchpad byte reads as; first the group's draw, then the offset (R29). -/
opaque freeByte : Nat → Nat → Byte

/-- FREE VALUE (log 3). What an unwritten tile element reads as; the group's draw, then tile and element (R29). -/
opaque freeElem : Nat → Nat → Word

/-- FREE VALUE (log 2). How many front-end cycles beyond one a step takes. -/
opaque stepFc : Nat → Nat

/-- FREE VALUES (log 19). The pattern a special-function unit delivers before it is held to the bound of R129. -/
opaque rcp : Word → Word
/-- See `rcp`. -/
opaque rsqrt : Word → Word
/-- See `rcp`. -/
opaque exp2 : Word → Word
/-- See `rcp`. -/
opaque log2 : Word → Word
/-- See `rcp`. -/
opaque sin : Word → Word
/-- See `rcp`. -/
opaque cos : Word → Word
/-- See `rcp`. -/
opaque tanh : Word → Word

/-- FREE VALUE (log 17). SHA-384 of a byte string: 48 bytes, the first lowest (R437, R440). -/
opaque sha384 : List Byte → BitVec 384

/-- FREE VALUES (log 17). Whether an RSASSA-PSS signature of some bytes verifies under a public key (R437, R438). -/
opaque rsaVerifies : List Byte → List Byte → BitVec 3072 → Bool

/-- FREE VALUE (log 17). The same for an SLH-DSA-SHA2-192s signature. -/
opaque slhVerifies : List Byte → List Byte → BitVec 129792 → Bool

/-- FREE VALUES (log 17). The fused digests of the vendor's two public keys (R437). -/
opaque rsaDigest : BitVec 384
/-- See `rsaDigest`. -/
opaque slhDigest : BitVec 384

/-- FREE VALUES (log 17). The identity keys' two signatures of some bytes: 384 and 16,224 bytes (R439, R440). -/
opaque rsaSign : List Byte → BitVec 3072
/-- See `rsaSign`. -/
opaque slhSign : List Byte → BitVec 129792

/-- FREE VALUE (log 17). Both vendor certificates (R439). -/
opaque certificates : List Byte

/-- FREE VALUE (log 17). The bytes of an image's header, from its kind, version and keys: the manual gives no layout (R437). -/
opaque imageHeader : Nat → BitVec 16 → List Byte → List Byte → List Byte

/-- FREE VALUE (log 17). The firmware images the registrar finds at reset, by kind (R438). -/
opaque bootImage : Nat → Firmware

/-- FREE VALUE (log 17). The fused security version counter of an image kind (R437). -/
opaque fusedVersion : Nat → BitVec 16

/-- FREE VALUE (log 17). Where the curator image keeps the event queue of a context: the register's BASE and SZ (R433). -/
opaque eventQueue : Tag → DWord

/-- FREE VALUE (log 17). The fuse state as it is measured (R440). -/
opaque fuseState : List Byte

/-- FREE VALUE (log 17). Where the management controller keeps its report (R440). -/
opaque reportAddr : DWord

/-- FREE VALUE (log 20). The hardware random source of a plinth's neighbour refresh: `k` bits, all zero or not (R334). -/
opaque refreshDraw : Nat → Nat → Bool

/-- FREE VALUE (log 29). The status that a frame instruction gives where the manual names none. -/
opaque freeStatus : Nat → Word

/-- What the implementation fixes (log 30). Records that the command processor's queue holds,
beyond one. -/
opaque cpDepth : Nat

end Sys2Proof.Config
end

