-- ==== Sys2Proof/Machine/Bits.lean ====
section
/-! DEFINITION. Bit fields, sign extension, byte order and masks (R3 to R5, R67). -/

namespace Sys2Proof.Machine

/-- Field `hi:lo` of a number, both ends included (R3). -/
def field (x hi lo : Nat) : Nat := x / 2 ^ lo % 2 ^ (hi + 1 - lo)

/-- Field `hi:lo` of a bit pattern, as a number. -/
def bits {w : Nat} (x : BitVec w) (hi lo : Nat) : Nat := field x.toNat hi lo

/-- Bit `i` of a bit pattern. -/
def bit {w : Nat} (x : BitVec w) (i : Nat) : Bool := x.getLsbD i

/-- `SExt(x, m)` of R67: the low `m` bits read as two's complement. -/
def sExt {w : Nat} (x : BitVec w) (m : Nat) : Int := (BitVec.ofNat m x.toNat).toInt

/-- `ZExt(x, m)` of R67: the low `m` bits read as unsigned. -/
def zExt {w : Nat} (x : BitVec w) (m : Nat) : Int := (x.toNat % 2 ^ m : Nat)

/-- `Trunc(v, m)` of R67. -/
def trunc (v : Int) (m : Nat) : BitVec m := BitVec.ofInt m v

/-- `SatS(v, m)` of R67 with whether it clamped. -/
def satS (v : Int) (m : Nat) : BitVec m × Bool :=
  let hi : Int := 2 ^ (m - 1) - 1
  let lo : Int := -(2 ^ (m - 1))
  if v > hi then (BitVec.ofInt m hi, true)
  else if v < lo then (BitVec.ofInt m lo, true) else (BitVec.ofInt m v, false)

/-- `SatU(v, m)` of R67 with whether it clamped. -/
def satU (v : Int) (m : Nat) : BitVec m × Bool :=
  let hi : Int := 2 ^ m - 1
  if v > hi then (BitVec.ofInt m hi, true)
  else if v < 0 then (0, true) else (BitVec.ofInt m v, false)

/-- The lanes of a mask, ascending (R8, R10). -/
def lanesOf (m : Mask) : List Nat := (List.range 64).filter fun l => bit m l

/-- The mask with exactly the lanes of a list. -/
def maskOf (ls : List Nat) : Mask := ls.foldl (fun m l => m ||| ((1 : Mask) <<< l)) 0

/-- The mask of lanes `0` to `w - 1` (R10). -/
def fullMask (w : Nat) : Mask := BitVec.ofNat 64 (2 ^ w - 1)

/-- Set or clear bit `l` of a mask. -/
def setBit (m : Mask) (l : Nat) (b : Bool) : Mask :=
  if b then m ||| ((1 : Mask) <<< l) else m &&& ~~~((1 : Mask) <<< l)

/-- Byte `i` of a number, byte 0 least significant (R4). -/
def byteOf (x i : Nat) : Byte := BitVec.ofNat 8 (x / 2 ^ (8 * i))

/-- The `n` little-endian bytes of a number (R4). -/
def bytesOf (x n : Nat) : List Byte := (List.range n).map (byteOf x)

/-- What the signatures of an image cover (R437). -/
def signedBytes (f : Firmware) : List Byte := Config.imageHeader f.kind f.version f.rsaKey f.slhKey ++ f.body

/-- An image, byte by byte (R437). -/
def firmwareBytes (f : Firmware) : List Byte := signedBytes f ++ bytesOf f.rsaSig.toNat 384 ++ bytesOf f.slhSig.toNat 16224

/-- The number whose little-endian bytes are given (R4). -/
def ofBytes : List Byte → Nat
  | [] => 0
  | b :: bs => b.toNat + 256 * ofBytes bs

/-- The pair value with the given even and odd halves (R5). -/
def pairVal (lo hi : Word) : DWord := hi ++ lo

/-- The even half of a pair value (R5). -/
def loWord (x : DWord) : Word := BitVec.ofNat 32 x.toNat

/-- The odd half of a pair value (R5). -/
def hiWord (x : DWord) : Word := BitVec.ofNat 32 (x.toNat / 2 ^ 32)

/-- A virtual address is legal when bits 63:57 equal bit 56 (R16, R339). -/
def legalVa (a : Addr) : Bool := bits a 63 57 == (if bit a 56 then 127 else 0)

/-- An address with bits 63:57 made equal to bit 56, as a vpc always has them (R16). -/
def canon (a : Addr) : Addr := (a.extractLsb' 0 57).signExtend 64

/-- The address past an instruction of `len` bytes (R43), in the form of a vpc (R16). -/
def after (a : Addr) (len : Nat) : Addr :=
  let e := a + BitVec.ofNat 64 len
  canon (if bits e 4 0 == 28 then e + 4 else e)

/-- Replace the byte at index `i` of a word (a store by byte mask, R145). -/
def setByteOf (x : Word) (i : Nat) (b : Byte) : Word :=
  (x &&& ~~~((255 : Word) <<< (8 * i))) ||| ((b.zeroExtend 32) <<< (8 * i))

end Sys2Proof.Machine
end

