-- ==== Sys2Proof/Machine/Store.lean ====
section
/-! DEFINITION. Sparse tables as sorted lists of key and value: the one representation of memory, register
files, caches and tables in State. Keys rise strictly; a table with a default lists no entry equal to it. -/

namespace Sys2Proof.Machine

/-- A table from numbers to values, as a list whose keys rise. -/
abbrev Store (α : Type) := List (Nat × α)

/-- The value listed at a key, if any. -/
def sFind? {α : Type} : Store α → Nat → Option α
  | [], _ => none
  | (k, v) :: m, a => if k = a then some v else sFind? m a

/-- The value at a key; an unlisted key reads as the default. -/
def sGet {α : Type} (d : α) (m : Store α) (a : Nat) : α := (sFind? m a).getD d

/-- List a value at a key, keeping the keys in order. -/
def sInsert {α : Type} : Store α → Nat → α → Store α
  | [], a, v => [(a, v)]
  | (k, w) :: m, a, v =>
    if a < k then (a, v) :: (k, w) :: m
    else if a = k then (a, v) :: m else (k, w) :: sInsert m a v

/-- Unlist a key. -/
def sErase {α : Type} : Store α → Nat → Store α
  | [], _ => []
  | (k, w) :: m, a => if k = a then sErase m a else (k, w) :: sErase m a

/-- Write a value in a table with a default: writing the default unlists the key. -/
def sSet {α : Type} [DecidableEq α] (d : α) (m : Store α) (a : Nat) (v : α) : Store α :=
  if v = d then sErase m a else sInsert m a v

/-- Every key is above `a` and the keys rise. -/
def sSortedFrom {α : Type} (a : Nat) : Store α → Bool
  | [] => true
  | (k, _) :: m => a ≤ k && sSortedFrom (k + 1) m

/-- The canonical form: keys rise strictly and no entry equals the default. -/
def sWf {α : Type} [DecidableEq α] (d : α) (m : Store α) : Bool :=
  sSortedFrom 0 m && m.all fun e => e.2 ≠ d

/-- Change the value at a listed key. -/
def sAdjust {α : Type} (m : Store α) (a : Nat) (f : α → α) : Store α :=
  match sFind? m a with
  | some v => sInsert m a (f v)
  | none => m

/-- Keep the entries a test accepts. -/
def sFilter {α : Type} (m : Store α) (p : Nat → α → Bool) : Store α := m.filter fun e => p e.1 e.2

end Sys2Proof.Machine
end

