-- ==== Sys2Proof/Syntax.lean ====
section
/-! DEFINITION. The instructions of the Kwazon (R60) and the remaining steps of its table of operations, as one
inductive. Operand fields are kept as the manual gives them; which operand a field may hold is WellFormed's matter. -/

namespace Sys2Proof

/-- The special operand sources (R14). -/
inductive Special | zero | lane | warp | group | cux | cuy | die | clk
deriving DecidableEq, Repr

/-- What one operand field names (R45, R46). -/
inductive Operand
  | v (n : Fin 128)
  | s (n : Fin 64)
  | p (n : Fin 8)
  | sp (x : Special)
  | imm
  | ch (n : Fin 16) (peek : Bool)
deriving DecidableEq, Repr

/-- PRED and PNEG (R51). -/
structure Pr where
  pred : Fin 8
  neg : Bool
deriving DecidableEq, Repr

/-- PRED, PNEG and, in the 96-bit form, the immediate (R41, R47, R61). -/
structure Hdr where
  pr : Pr
  imm : Option Word
deriving DecidableEq, Repr

/-- Result mode M of R82. -/
inductive SatMode | wrap | sats | satn
deriving DecidableEq, Repr

/-- Integer conditions (R88). -/
inductive ICond | eq | ne | lt | le | gt | ge
deriving DecidableEq, Repr

/-- Source width of sext and zext (R90). -/
inductive ExtW | b8 | b16 | b32
deriving DecidableEq, Repr

/-- The three ways of mul64 (R92). -/
inductive Mul64Mode
  | full (m : SatMode)
  | wideN
  | wideS
deriving DecidableEq, Repr

/-- Rounding modes (R101). -/
inductive RMode | rne | rtz | rup | rdn
deriving DecidableEq, Repr

/-- Element type TY of R116. -/
inductive FTy | f32 | f16 | bf16
deriving DecidableEq, Repr

/-- Sign modifier SM (R113). -/
inductive SMod | none | neg | abs | nabs
deriving DecidableEq, Repr

/-- Floating-point conditions (R119). -/
inductive FCond | eq | ne | lt | le | gt | ge | un | ord
deriving DecidableEq, Repr

/-- Formats FMT of pack and unpack (R125). -/
inductive PackFmt | f16 | bf16 | f8e4 | f8e5 | s8 | s4
deriving DecidableEq, Repr

/-- Segment sizes of shfl (R132). -/
inductive Seg | w | s4 | s8 | s16 | s32
deriving DecidableEq, Repr

/-- Modes of shfl (R132). -/
inductive ShflMode | idx | up | down | xor
deriving DecidableEq, Repr

/-- Modes of vote (R133). -/
inductive VoteMode | any | all | ballot | eq
deriving DecidableEq, Repr

/-- Operations of redux and scan (R135). -/
inductive ReduxOp | add | minS | minN | maxS | maxN | and | or | xor | fadd | fmin | fmax | add64
deriving DecidableEq, Repr

/-- Request types (R144). -/
inductive ReqType | own | wt | si | unc
deriving DecidableEq, Repr

/-- Orders (R56). -/
inductive Order | rlx | acq | rel | ar
deriving DecidableEq, Repr

/-- Scopes (R252). -/
inductive Scope | cu | cl | die | pkg | gal | sys
deriving DecidableEq, Repr

/-- Access widths (R56). -/
inductive Wid | b1 | b2 | b4 | b8 | b16
deriving DecidableEq, Repr

/-- The memory extension (R56). -/
structure MemExt where
  opx : BitVec 8
  pv : Bool
  peer : BitVec 6
  tol : BitVec 5
  scp : Scope
  ord : Order
  rt : ReqType
  wid : Wid
  off : Word
deriving DecidableEq, Repr

/-- Fence kinds (R179). -/
inductive FenceKind | acq | rel | ar | sc
deriving DecidableEq, Repr

/-- Matrix element formats (R193). -/
inductive MFmt | bf16 | f16 | f8e4 | f8e5 | s8 | s4 | n8 | n4
deriving DecidableEq, Repr

/-- The matrix extension (R193). -/
structure MatExt where
  za : Bool
  gs : Fin 3
  ns : Fin 3
  fb : MFmt
  fa : MFmt
  ru : Bool
  cv : Fin 8
  dt : Fin 8
deriving DecidableEq, Repr

/-- The engine extension of xcopy (R212). -/
structure EngExt where
  doff : Word
  dsp : Bool
  arr : BitVec 20
deriving DecidableEq, Repr

/-- The multicast extension (R217). -/
structure McExt where
  sstr : BitVec 24
  rb : BitVec 12
  rows : BitVec 8
  arr : BitVec 20
deriving DecidableEq, Repr

/-- The gather extension of csrg (R218): format, slabs and arrival word. -/
structure GatherExt where
  fmt : MFmt
  ns : Fin 3
  arr : BitVec 20
deriving DecidableEq, Repr

/-- Index modifiers of accrd and accwr (R206). -/
structure TileIdx where
  lane : Bool
  col : Bool
  tile : Fin 8
deriving DecidableEq, Repr

/-- The error that another package answers for a lane: a view range, poison, or any other refusal (R150, R151, R422). -/
inductive ExtErr | view | poison | refused
deriving DecidableEq, Repr

/-- What another package answers for one lane: the bytes, the release tag that came with them, an error, whether a red or
an atomic there set NV (R168, R266), and the granule where a write met the cascade limit (R391). -/
structure ExtVal where
  bytes : List Byte
  tag : BitVec 3
  err : Option ExtErr
  nv : Bool
  casc : Option Addr
deriving DecidableEq, Repr

/-- A word that another package hands to a proxy: its value, release tag and poison mark (R313, R319). -/
structure ExtWord where
  data : Word
  tag : BitVec 3
  poison : Bool
deriving DecidableEq, Repr

/-- What the outside answers to a request that left the package: values lane by lane, words that a proxy may hold in a
state, the limit of a region line that a proxy now holds (R376), or an error. -/
inductive ExtReply
  | none
  | vals (vs : List ExtVal)
  | fill (grant : ReqType) (ws : List ExtWord)
  | limit (lambda : Nat)
  | error
deriving DecidableEq, Repr

/-- A request, or a push, of this package with what the outside answers to it. -/
structure Answer where
  key : Nat
  reply : ExtReply
deriving DecidableEq, Repr

/-- A region line with the limit that its holder gets (R375, R376). -/
structure LineLimit where
  line : Nat
  limit : Nat
deriving DecidableEq, Repr

/-- A remote request as a far package sends it (R404, R420). `rt` is the request type of a read or write; a read other than .unc
asks for its words for the package's proxy (R313), and one of a region element has a tolerance (R374, R376). Kinds 5 to 7 are
combines of a proxy: a push, an acc with which it becomes a holder, and a push with which it answers a limit, a full drain or a
recall (R376). Kind 8 writes back and gives up words that its proxy owns. `prior` are the numbers of the latest earlier requests
of its stream to its blocks, which R421 puts before it (log 15). -/
structure UalReq where
  srcPkg : BitVec 8
  srcDie : BitVec 3
  agent : BitVec 21
  seq : BitVec 24
  release : Bool
  scope : Scope
  depth : Nat
  pa : Nat
  kind : Nat                -- 0 read, 1 write, 2 red, 3 atom, 4 cas, 5 push, 6 join, 7 answer, 8 write-back
  rt : ReqType
  aop : BitVec 4
  width : Nat               -- bytes that a read or write spans, or those of an atomic's word
  bytes : List Byte         -- write data from `pa`, or operand; of a write-back, data of the block
  mask : List Bool
  swap : List Byte
  exp : Int                 -- EXP of the sender's entry (R377)
  deltas : List Int         -- of the 16 elements of a combine
  tol : Nat                 -- tolerance of a read of a region element
  prior : List (BitVec 24)
  tags : List (BitVec 3)    -- release tags of the words of a write-back (R319)
deriving DecidableEq, Repr

/-- A program image as birfdb places it (R281, R380): the file it comes from, bytes at virtual addresses, task types,
regions. -/
structure Image where
  file : Nat
  textVa : Addr
  text : List Byte
  dataVa : Addr
  data : List Byte
  taskTypes : List (BitVec 128)
  regions : List (Addr × Nat × Int × Nat)      -- start, length, E, J (R380)
deriving DecidableEq, Repr

/-- A register the debugger prints (R281, R365). -/
inductive DbgReg
  | scalar (n : Nat)
  | pair (n : Nat)
  | vector (n lo hi : Nat)
  | vpair (n lo hi : Nat)
  | fstat
  | flm
  | rptc
  | wstat
  | ctxt
deriving DecidableEq, Repr

/-- Where an array error fell (R441). -/
inductive ErrSite
  | memory (pa : Nat)
  | copy (cu : CuId) (word : Nat)
  | tile (g : GroupId) (tile e : Nat)
  | scratch (g : GroupId) (off : Nat)
  | register (w : WarpId) (num lane : Nat)
  | control (die : Nat)
deriving DecidableEq, Repr

/-- An instruction (R60), or another step of the machine, one constructor for each row of the table. -/
inductive Instr
  -- control (R70 to R80)
  | nop (h : Hdr)
  | bra (p : Pr) (disp : Word)
  | brx (p : Pr) (a : Operand)
  | call (p : Pr) (ind : Bool) (d a : Operand) (disp : Word)
  | ret (p : Pr) (a : Operand)
  | exit (p : Pr)
  | rpt (cnt : Fin 64) (sd sa sb sc : BitVec 2)
  | yield (p : Pr)
  | idle (p : Pr)
  -- system (R226 to R250)
  | trap (h : Hdr) (a : Operand)
  | brk (p : Pr)
  | eretReplay (p : Pr)
  | eretSkip (p : Pr)
  | eretFill (p : Pr)
  | eretAbort (p : Pr)
  | mfs (p : Pr) (d : Operand) (num : BitVec 12) (idx : BitVec 8)
  | mts (p : Pr) (a : Operand) (num : BitVec 12) (idx : BitVec 8)
  | pgctlWrite (p : Pr) (a : Operand) (idx : BitVec 8)
  | acctabWrite (p : Pr) (a : Operand) (idx : BitVec 8)
  | watchtabWrite (p : Pr) (a : Operand) (idx : BitVec 8)
  | launch (p : Pr) (d a : Operand)
  | enq (h : Hdr) (d a b c : Operand)
  | tlbiVa (h : Hdr) (a c : Operand)
  | tlbiRange (h : Hdr) (a b c : Operand)
  | tlbiCtx (h : Hdr) (c : Operand)
  | tlbiAll (h : Hdr)
  | tlbsync (p : Pr)
  | pgref (p : Pr) (free : Bool) (d a b : Operand)
  | pgcow (p : Pr) (d a b c : Operand)
  | pgtwin (p : Pr) (d a b c : Operand)
  | pgmig (p : Pr) (d a : Operand)
  | ctxsave (p : Pr) (d a b : Operand)
  | ctxload (p : Pr) (d a b : Operand)
  | evt (h : Hdr) (a b : Operand)
  -- integer and logic (R82)
  | iadd (h : Hdr) (m : SatMode) (d a b : Operand)
  | isub (h : Hdr) (m : SatMode) (d a b : Operand)
  | imul (h : Hdr) (m : SatMode) (d a b : Operand)
  | imulh (h : Hdr) (sg : Bool) (d a b : Operand)
  | imad (h : Hdr) (m : SatMode) (d a b c : Operand)
  | iabs (h : Hdr) (m : SatMode) (d a : Operand)
  | imin (h : Hdr) (sg : Bool) (d a b : Operand)
  | imax (h : Hdr) (sg : Bool) (d a b : Operand)
  | and (h : Hdr) (d a b : Operand)
  | or (h : Hdr) (d a b : Operand)
  | xor (h : Hdr) (d a b : Operand)
  | andn (h : Hdr) (d a b : Operand)
  | shl (h : Hdr) (d a b : Operand)
  | shr (h : Hdr) (d a b : Operand)
  | sar (h : Hdr) (d a b : Operand)
  | rot (h : Hdr) (d a b : Operand)
  | popc (h : Hdr) (d a : Operand)
  | clz (h : Hdr) (d a : Operand)
  | brev (h : Hdr) (d a : Operand)
  | bfe (h : Hdr) (sg : Bool) (d a b : Operand)
  | bfi (h : Hdr) (d a b c : Operand)
  | sel (h : Hdr) (d a b c : Operand)
  | mov (h : Hdr) (d a : Operand)
  | icmp (h : Hdr) (sg : Bool) (cc : ICond) (d a b : Operand)
  | plog (h : Hdr) (tt : BitVec 4) (d a b : Operand)
  | sext (h : Hdr) (w : Bool) (wd : ExtW) (d a : Operand)
  | zext (h : Hdr) (w : Bool) (wd : ExtW) (d a : Operand)
  | lea (h : Hdr) (sg : Bool) (sh : Fin 5) (d a b : Operand)
  | add64 (h : Hdr) (m : SatMode) (d a b : Operand)
  | sub64 (h : Hdr) (m : SatMode) (d a b : Operand)
  | mul64 (h : Hdr) (m : Mul64Mode) (d a b : Operand)
  -- floating point (R116)
  | fadd (h : Hdr) (sm : SMod) (ty : FTy) (rm : RMode) (d a b : Operand)
  | fsub (h : Hdr) (sm : SMod) (ty : FTy) (rm : RMode) (d a b : Operand)
  | fmul (h : Hdr) (sm : SMod) (ty : FTy) (rm : RMode) (d a b : Operand)
  | ffma (h : Hdr) (sm : SMod) (ty : FTy) (rm : RMode) (d a b c : Operand)
  | fmin (h : Hdr) (sm : SMod) (ty : FTy) (nanp : Bool) (d a b : Operand)
  | fmax (h : Hdr) (sm : SMod) (ty : FTy) (nanp : Bool) (d a b : Operand)
  | fcmp (h : Hdr) (hi : Bool) (ty : FTy) (cc : FCond) (d a b : Operand)
  | fclass (h : Hdr) (ty : Option FTy) (d a : Operand)          -- none: .f64
  | frnd (h : Hdr) (x : Bool) (ty : FTy) (rm : RMode) (d a : Operand)
  | fdot2 (h : Hdr) (sm : SMod) (ty : FTy) (rm : RMode) (d a b c : Operand)
  | dadd (h : Hdr) (sm : SMod) (rm : RMode) (d a b : Operand)
  | dmul (h : Hdr) (sm : SMod) (rm : RMode) (d a b : Operand)
  | dfma (h : Hdr) (sm : SMod) (rm : RMode) (d a b c : Operand)
  | dcmp (h : Hdr) (cc : FCond) (d a b : Operand)
  | dmin (h : Hdr) (sm : SMod) (nanp : Bool) (d a b : Operand)
  | dmax (h : Hdr) (sm : SMod) (nanp : Bool) (d a b : Operand)
  -- conversions and special functions (R116)
  | cvt (h : Hdr) (cv : BitVec 4) (rm : RMode) (d a : Operand)
  | pack (h : Hdr) (f : PackFmt) (sat : Bool) (rm : RMode) (d a b : Operand)
  | unpack (h : Hdr) (f : PackFmt) (idx : Fin 8) (d a : Operand)
  | qpack (h : Hdr) (n4 : Bool) (rm : RMode) (d a b c : Operand)
  | qunpack (h : Hdr) (n4 : Bool) (idx : Fin 8) (d a c : Operand)
  | rcp (h : Hdr) (ty : FTy) (d a : Operand)
  | rsqrt (h : Hdr) (ty : FTy) (d a : Operand)
  | sqrt (h : Hdr) (ty : FTy) (rm : RMode) (d a : Operand)
  | exp2 (h : Hdr) (ty : FTy) (d a : Operand)
  | log2 (h : Hdr) (ty : FTy) (d a : Operand)
  | sin (h : Hdr) (ty : FTy) (d a : Operand)
  | cos (h : Hdr) (ty : FTy) (d a : Operand)
  | tanh (h : Hdr) (ty : FTy) (d a : Operand)
  -- cross-lane (R131 to R137)
  | shfl (h : Hdr) (seg : Seg) (mode : ShflMode) (d a b : Operand)
  | vote (h : Hdr) (vm : VoteMode) (d a : Operand)
  | bcast (h : Hdr) (d a : Operand) (b : Option Operand)        -- none: .first
  | redux (h : Hdr) (rm : RMode) (o : ReduxOp) (d a : Operand)
  | scan (h : Hdr) (excl : Bool) (o : ReduxOp) (d a : Operand)
  -- memory (R141)
  | ld (p : Pr) (sx : Bool) (d a : Operand) (x : MemExt)
  | st (p : Pr) (a b : Operand) (x : MemExt)
  | ldu (p : Pr) (sx : Bool) (d a : Operand) (x : MemExt)
  | stu (p : Pr) (a b : Operand) (x : MemExt)
  | lds (p : Pr) (sx : Bool) (d a : Operand) (x : MemExt)
  | sts (p : Pr) (a b : Operand) (x : MemExt)
  | ldfe (p : Pr) (d a : Operand) (x : MemExt)
  | ldff (p : Pr) (d a : Operand) (x : MemExt)
  | stfe (p : Pr) (a b : Operand) (x : MemExt)
  | stff (p : Pr) (a b : Operand) (x : MemExt)
  | feset (p : Pr) (v : Bool) (a b : Operand) (x : MemExt)
  | pref (p : Pr) (a : Operand) (x : MemExt)
  | wbr (p : Pr) (a b : Operand) (x : MemExt)
  | invr (p : Pr) (a b : Operand) (x : MemExt)
  | flr (p : Pr) (a b : Operand) (x : MemExt)
  | icinv (p : Pr) (a b : Operand) (x : MemExt)
  | fetchb (x : MemExt)
  -- atomics and synchronisation (R166)
  | atom (p : Pr) (sp : Bool) (d a b : Operand) (x : MemExt)
  | red (p : Pr) (sp : Bool) (a b : Operand) (x : MemExt)
  | cas (p : Pr) (sp : Bool) (d a b c : Operand) (x : MemExt)
  | acc (p : Pr) (a b : Operand) (x : MemExt)
  | accdrain (p : Pr) (a b : Operand) (x : MemExt)
  | fence (p : Pr) (scp : Scope) (kind : FenceKind)
  | arrive (h : Hdr) (cl : Bool) (a : Operand)
  | wait (h : Hdr) (cl : Bool) (a : Operand)
  | bar (h : Hdr) (cl : Bool) (a : Operand)
  | bmask (h : Hdr) (cl : Bool) (a b : Operand)
  | cvdef (p : Pr) (cv : Fin 8) (a : Option Operand)            -- some: .mask
  | watch (p : Pr) (d a : Operand)
  | unwatch (p : Pr) (d a : Operand)
  | publish (h : Hdr) (a : Operand)
  | chset (h : Hdr) (d a b : Operand)
  -- matrix and engines (R192)
  | mma (p : Pr) (a b : Operand) (x : MatExt)
  | mmaq (p : Pr) (a b : Operand) (x : MatExt)
  | mmas (p : Pr) (a b : Operand) (x : MatExt)
  | accz (p : Pr) (tile : Fin 8)
  | accld (p : Pr) (sp : Bool) (tile : Fin 8) (a b : Operand) (x : MemExt)
  | accst (p : Pr) (sp : Bool) (tile : Fin 8) (a b : Operand) (x : MemExt)
  | accrd (h : Hdr) (t : TileIdx) (d a : Operand)
  | accwr (h : Hdr) (t : TileIdx) (a b : Operand)
  | xcopy (p : Pr) (a : Operand) (x : EngExt)
  | mcast (p : Pr) (a b c : Operand) (x : McExt)
  | csrg (p : Pr) (a b c : Operand) (x : GatherExt)
  | estat (p : Pr) (d : Operand) (a : Option Operand)           -- none: .all
  | ecancel (p : Pr) (a : Option Operand)                       -- none: .all
  -- steps of the warps and their units
  | spinExcursion (w : WarpId)
  | excursionLimit (w : WarpId)
  | loadReply (r : Nat) (x : ExtReply)
  | storeAcceptance (r : Answer)
  | storeErrorResponse (r : Answer)
  | queueCompletion (w : WarpId) (sf : Bool)
  | rangeOpComplete (r : Nat)
  | accdrainComplete (r : Nat)
  | untrackedRetest (w : WarpId) (lane : Nat)
  | deferredMatrixIssue (w : WarpId) (cv : Fin 8)
  | matrixOpComplete (cu : CuId)
  | engineElementDelivery (e : Nat) (x : ExtReply)
  | enginePageStage (e : Nat) (bytes : List Byte)
  | asyncTrap (w : WarpId)
  | trapEnqueue (w : WarpId)
  | handlerStart (die : Nat)
  | preemption (g : GroupId)
  | contextSwitch (out into : Tag)
  | deadlineOverrun (t : Tag)
  | partitionHalt (t : Tag) (cause : Nat)
  | launchRecord
  | stagingComplete (l : Nat) (flash : List (Addr × List Byte))
  | groupStart (cu : CuId)
  | balanceExchange
  | groupRetire (g : GroupId)
  | launchCompletion (l : Nat)
  | flushByTag (cu : CuId) (t : Tag)
  -- steps of the homes, caches and plinths
  | homeOwnRequest (r : Nat)
  | homeWtLoad (r : Nat)
  | homeSiLoad (r : Nat)
  | homeWtSiStore (r : Nat)
  | homeUncLoad (r : Nat)
  | homeUncStoreAtomic (r : Nat)
  | recall (cu : CuId) (word : Nat) (clean : Bool)
  | invalidate (cu : CuId) (word : Nat)
  | writeBack (cu : CuId) (line : Nat)
  | l1Eviction (cu : CuId) (line : Nat)
  | l2Eviction (line : Nat)
  | plinthRd (pa size : Nat) (activates : Bool)
  | plinthWr (line : Nat) (activates : Bool)
  | plinthAt (r : Nat)
  -- steps of accumulation regions
  | join (r : Nat)
  | combine (c : Answer)
  | combineAck (c : Nat)
  | regionLoad (r : Nat)
  | tighten (cu : CuId) (line : LineLimit)
  | tightenAck (r : Nat)
  | fullDrain (line : Nat)
  | regionRecall (line : Nat)
  -- steps of watched regions
  | triggerDispatch (k : Nat)
  | triggerReoffer (k : Nat)
  | spillScan (unit region : Nat)
  | pendRunChange
  | groupCountOut (k : Nat)
  -- steps of translation
  | copyOnWriteBreak (w : WarpId)
  | cowReplay (w : WarpId)
  | migrationComplete (m : Nat) (bytes : List Byte)
  | migrationError (m : Nat)
  | publishFlip
  -- steps of the port groups
  | switchQuiesceDone (g : Fin 16)
  | switchDrainDone (g : Fin 16)
  | retrainLock (g : Fin 16)
  | retrainTimeout (g : Fin 16)
  | announceDone (g : Fin 16)
  | linkLoss (g : Fin 16)
  | wavelengthRetire (g : Fin 16) (pair wave : Nat)
  | ualRequest (q : UalReq)
  | relayForward (g : Fin 16) (dst : BitVec 8) (q : UalReq)
  | freeze (pkg : BitVec 8) (die : BitVec 3) (agent : BitVec 21)
  | resume (pkg : BitVec 8) (die : BitVec 3) (agent : BitVec 21)
  | storeLogReplay
  | busyResend (r : Nat)
  | backInvalidate (line : Nat)
  | dynamicCapacityRelease (base len : Nat)
  | forcedRevocation (base len : Nat)
  -- completions and far ends
  | tlbiComplete (k : Nat)
  | icinvComplete (r : Nat)
  | farEndQuiesce (g : Fin 16)
  | announceFailure (g : Fin 16) (code : Fin 2)
  | drainFailure (g : Fin 16)
  | inboundRmaRequest
  | dbgBreakpointStop (w : WarpId)
  -- the host, the mailbox and service
  | qtail (q : Fin 64) (v : Word)
  | qcfg (q : Fin 64) (v : Word)
  | queueEntry (q : Fin 64)
  | pkgset (n : Nat)
  | quantum (us : Nat)
  | dumpset (t : Tag) (base size : Nat)
  | vlogset (base : Nat)
  | prove (nonce : List Byte)
  | record (t : Tag) (base size : Nat)
  | recordSnapshot (t : Tag)
  | recstop (t : Tag)
  | powercap (watts : Nat)
  | svcclr (mask : Word)
  | dumprun (t : Tag) (base : Nat) (remain : BitVec 48)
  | pseudoChannelRetire (frames : List Nat)
  | newManagementImage (image : Firmware)
  | rerunImport (area : Nat × Nat) (dst : Tag) (frame : Nat)
  | reset
  | uncorrectableError (site : ErrSite)
  | correctableError (above : Bool)
  | spareCu (die : Nat) (available : Bool)
  | powerCap (engaged : Bool)
  | decodeWindow (plinth : Fin 16) (n : Fin 16) (value : BitVec 512)
  | nrctl (plinth : Fin 16) (value : DWord)
  | registerWrite (offset : Nat) (value : DWord)
  -- the debugger
  | dbgAttach (t : Option Tag)
  | dbgLoad (im : Image)
  | dbgArgs (ws : List (DWord × Bool))           -- true: written with more than eight hexadecimal digits
  | dbgLaunch (x y w h : Nat) (side dl : Option Nat)
  | dbgPrint (rs : List DbgReg)
  | dbgDelete (ns : List Nat)
  | dbgHoldStore (cu : CuId) (addr : Addr)
  | dbgUnhold (n : Nat)
  | dbgBreak (addr : Addr) (cu : CuId)
  | dbgStep (n : Nat) (cu : Option CuId)
  | dbgContinue (cu : Option CuId)
  | dbgPromptReturn
  | dbgXW (addrs : List Addr)
  | dbgCache (cu : CuId) (addrs : List Addr)
  | dbgPteSm (addr : Addr) (n : Nat) (v : Bool)
  | dbgPte (t : Option Tag) (va : Addr)
  | dbgFrame (t : Option Tag) (va : Addr)
  | dbgFreelist (d : Nat)
  | dbgCatch (cause : Nat)
  | dbgAcc (addr : Addr)
  | dbgPreempt (cu : CuId) (dest : Option CuId)
  | dbgHoldTriggers
  | dbgRelease (addr : Addr)
  | dbgTraceTriggers
  | dbgUntrace (n : Nat)
  | dbgPending (region : Nat)
deriving DecidableEq, Repr

end Sys2Proof
end

