-- ==== Sys2Proof/WellFormed.lean ====
section
/-! DEFINITION. Which instructions are legal in themselves (R45 to R63): what each operand field may hold, the
allowed codes of each form, the immediate, scalar form. The limits of R28 depend on the group's task type and are
judged when the instruction issues. -/

namespace Sys2Proof

/-- One used operand field: its operand, how many 32-bit registers it names, and whether its kind is legal. -/
structure Use where
  o : Operand
  n : Nat
  ok : Bool
deriving DecidableEq, Repr

/-- The static form of an instruction: predicate, immediate, used fields, and the form's own further conditions.
`dRead` marks a destination that is also a source; `mix` a form that may write a scalar from vector sources (R52). -/
structure Shape where
  pr : Pr := ⟨7, false⟩
  imm : Option Word := none
  d : Option Use := none
  a : Option Use := none
  b : Option Use := none
  c : Option Use := none
  dRead : Bool := false
  mix : Bool := false
  extra : Bool := true
  isa : Bool := true
deriving DecidableEq, Repr

namespace Operand

def isVec : Operand → Bool
  | .v _ | .sp .lane => true
  | _ => false

def isScalarReg : Operand → Bool
  | .s _ => true
  | _ => false

def isChan : Operand → Bool
  | .ch .. => true
  | _ => false

def isPred : Operand → Bool
  | .p _ => true
  | _ => false

/-- `n` consecutive vector registers, aligned to `n` (R48, R140). -/
def vReg (n : Nat) : Operand → Bool
  | .v k => k.val % n == 0
  | _ => false

/-- `n` consecutive scalar registers, aligned to `n` (R48, R140). -/
def sReg (n : Nat) : Operand → Bool
  | .s k => k.val % n == 0
  | _ => false

/-- A vector or scalar register, pair or quad. -/
def reg (n : Nat) (o : Operand) : Bool := o.vReg n || o.sReg n

/-- A 32-bit source (R46), a channel only where `ch` (R54). -/
def src (ch : Bool) : Operand → Bool
  | .v _ | .s _ | .sp _ | .imm => true
  | .ch .. => ch
  | .p _ => false

/-- A 64-bit source (R47, R48). -/
def src64 : Operand → Bool
  | .sp _ | .imm => true
  | o => o.reg 2

/-- A 32-bit destination (R14, R46), a channel push only where `ch`. -/
def dst (ch : Bool) : Operand → Bool
  | .v _ | .s _ => true
  | .ch _ pk => ch && !pk
  | _ => false

/-- A scalar 32-bit source: a scalar register, a special other than lane, the immediate (R166, R192, R226). -/
def sc : Operand → Bool
  | .s _ | .imm => true
  | .sp x => x != .lane
  | _ => false

/-- A scalar 64-bit source (R141, R226; log 21 on specials). -/
def sc64 : Operand → Bool
  | .imm => true
  | .sp x => x != .lane
  | o => o.sReg 2

end Operand

/-- Bytes of an access (R56). -/
def Wid.bytes : Wid → Nat
  | .b1 => 1 | .b2 => 2 | .b4 => 4 | .b8 => 8 | .b16 => 16

/-- Registers an access of this width moves (R140). -/
def Wid.regs : Wid → Nat
  | .b8 => 2 | .b16 => 4 | _ => 1

namespace Use

def src (o : Operand) : Option Use := some ⟨o, 1, o.src true⟩
def src64 (o : Operand) : Option Use := some ⟨o, 2, o.src64⟩
def dst (o : Operand) : Option Use := some ⟨o, 1, o.dst true⟩
def dst64 (o : Operand) : Option Use := some ⟨o, 2, o.reg 2⟩
def pred (o : Operand) : Option Use := some ⟨o, 0, o.isPred⟩
def sc (o : Operand) : Option Use := some ⟨o, 1, o.sc⟩
def sc64 (o : Operand) : Option Use := some ⟨o, 2, o.sc64⟩
def sreg (o : Operand) : Option Use := some ⟨o, 1, o.sReg 1⟩

/-- A 32-bit source outside opcodes 0x20 to 0x7F: no channel (R54). -/
def src32 (o : Operand) : Option Use := some ⟨o, 1, o.src false⟩

/-- Destination data of a memory access (R140); a channel where the row says ch and the width is 4 (R141). -/
def data (w : Wid) (ch : Bool) (o : Operand) : Option Use :=
  some ⟨o, w.regs, o.reg w.regs || (ch && w == .b4 && o.dst true)⟩

/-- Source data of a memory access: a register, pair or quad, or a channel where the row says ch and the width is 4 (R140,
R141, R166). -/
def srcData (w : Wid) (ch : Bool) (o : Operand) : Option Use :=
  some ⟨o, w.regs, o.reg w.regs || (ch && w == .b4 && o.isChan)⟩

/-- A scalar pair (R166, R192). -/
def scPair (o : Operand) : Option Use := some ⟨o, 2, o.sReg 2⟩

/-- A memory address: 64-bit global, or 32-bit scratchpad offset (R138). -/
def addr (sp : Bool) (o : Operand) : Option Use := if sp then src32 o else src64 o

/-- An address that the instruction writes: a register pair (R141). -/
def addrW (o : Operand) : Option Use := some ⟨o, 2, o.reg 2⟩

/-- A 64-bit scalar address (R141, "addr, scalar"). -/
def addrS (o : Operand) : Option Use := some ⟨o, 2, o.sc64⟩

end Use

/-- Formats whose A and B widths agree in the pairs of R194. -/
def matSlab (q : Bool) (fa fb : MFmt) : Option Nat :=
  match q, fa, fb with
  | false, .bf16, .bf16 | false, .f16, .f16 => some 32
  | false, .f8e4, .f8e4 | false, .f8e4, .f8e5 | false, .f8e5, .f8e4 | false, .f8e5, .f8e5 => some 64
  | false, .s8, .s8 => some 64
  | false, .s4, .s4 => some 128
  | true, .bf16, .n8 | true, .bf16, .n4 | true, .f16, .n8 | true, .f16, .n4 => some 32
  | true, .f8e4, .n8 | true, .f8e4, .n4 | true, .f8e5, .n8 | true, .f8e5, .n4 => some 64
  | true, .s8, .n8 | true, .s8, .n4 | true, .n8, .n8 | true, .n8, .n4 => some 64
  | true, .n4, .n8 | true, .n4, .n4 => some 128
  | _, _, _ => none

/-- Slabs of one operation: 1, 2 or 4 (R193). -/
def slabs (ns : Fin 3) : Nat := 2 ^ ns.val

/-- Group size of mmaq: 32, 64 or 128 (R193). -/
def groupSize (gs : Fin 3) : Nat := 32 * 2 ^ gs.val

/-- The pair of formats is allowed and, for mmaq, K′ is a multiple of G (R194); GS is zero otherwise (R193). -/
def MatExt.ok (q : Bool) (x : MatExt) : Bool :=
  match matSlab q x.fa x.fb with
  | none => false
  | some s => if q then (slabs x.ns * s) % groupSize x.gs == 0 else x.gs == 0

/-- Extension fields of one row of R141 or R166. -/
structure MemRow where
  opx : Nat → Bool := fun n => n == 0
  wid : Wid → Bool := fun w => w == .b1
  rt : ReqType → Bool := fun r => r == .own
  ord : Order → Bool := fun o => o == .rlx
  scp : Scope → Bool := fun s => s == .cu
  pv : Bool := false
  tol : Bool := false
  off : Bool := true

/-- The extension holds only what its row allows (R56, R141, R166). `range` marks the forms whose SCP needs no order. A row
that names PV and PEER admits any PEER with PV at 0, where it has no meaning (log 21). -/
def MemExt.ok (x : MemExt) (r : MemRow) (range : Bool := false) : Bool :=
  r.opx x.opx.toNat && r.wid x.wid && r.rt x.rt && r.ord x.ord && r.scp x.scp
    && (range || x.ord != .rlx || x.scp == .cu)
    && (r.pv || (!x.pv && x.peer == 0)) && (r.tol || x.tol == 0) && (r.off || x.off == 0)

/-- Row of a global load or store (R141). -/
def rowMem (o : Order) : MemRow :=
  { wid := fun _ => true, rt := fun _ => true, ord := fun q => q == .rlx || q == o, scp := fun _ => true }

/-- Row of a scratchpad load or store (R141). -/
def rowSp (o : Order) : MemRow :=
  { wid := fun _ => true, ord := fun q => q == .rlx || q == o, scp := fun s => s == .cu || s == .cl, pv := true }

/-- Row of ldfe, ldff, stfe and stff (R141). -/
def rowFe : MemRow := { wid := fun w => w == .b4, pv := true }

/-- Row of wbr and flr (with HOME), invr and accdrain (R141, R166). -/
def rowRange (home : Bool) : MemRow :=
  { opx := fun n => n == 0 || (home && n == 1), scp := fun s => s == .pkg || s == .gal || s == .sys }

/-- Row of atom, red and cas (R166). -/
def rowAtom (sp : Bool) (opx : Nat → Bool) (red : Bool) : MemRow :=
  { opx := opx, wid := fun w => w == .b4 || w == .b8,
    rt := fun r => if sp then r == .own else r == .unc,
    ord := fun o => !red || o == .rlx || o == .rel,
    scp := fun s => !sp || s == .cu || s == .cl, pv := sp }

/-- Row of acc: AT 0b00 f32, 0b01 f64, 0b10 i32, 0b11 i64, and the width follows the type (R166, R174). -/
def rowAcc (x : MemExt) : MemRow :=
  { opx := fun n => n < 4, wid := fun w => w == if x.opx.toNat % 2 == 1 then .b8 else .b4 }

/-- Row of accld and accst (R207). -/
def rowTile (sp : Bool) (x : MemExt) (o : Order) : MemRow :=
  { opx := fun n => n == 0 || (n == 1 && x.wid == .b2), wid := fun w => w == .b2 || w == .b4,
    rt := fun r => !sp || r == .own, ord := fun q => q == .rlx || q == o,
    scp := fun s => !sp || s == .cu || s == .cl, pv := sp }

/-- A row of the system-register table (R237). -/
structure SysReg where
  count : Nat := 1
  wide : Bool
  perLane : Bool := false
  userR : Bool := false
  userW : Bool := false
  write : Bool
deriving DecidableEq, Repr

/-- The system registers by NUMBER (R237). -/
def sysReg : Nat → Option SysReg
  | 0x000 => some { wide := false, userR := true, write := false }
  | 0x001 => some { wide := false, userR := true, userW := true, write := true }
  | 0x002 => some { wide := true, userR := true, write := true }
  | 0x003 => some { wide := false, userR := true, write := false }
  | 0x004 => some { wide := false, userR := true, write := false }
  | 0x005 => some { wide := true, perLane := true, userR := true, write := false }
  | 0x040 => some { wide := true, write := true }
  | 0x041 => some { wide := false, write := false }
  | 0x042 => some { wide := true, write := false }
  | 0x043 => some { wide := false, write := false }
  | 0x044 => some { wide := false, write := false }
  | 0x045 => some { wide := false, write := false }
  | 0x046 => some { wide := true, write := true }
  | 0x047 => some { count := 4, wide := false, perLane := true, write := true }
  | 0x080 => some { wide := false, write := true }
  | 0x081 => some { wide := true, write := true }
  | 0x082 => some { wide := true, write := true }
  | 0x083 => some { wide := true, write := true }
  | 0x084 => some { wide := true, write := true }
  | 0x085 => some { wide := true, write := true }
  | 0x086 => some { wide := true, write := true }
  | 0x087 => some { wide := true, write := true }
  | 0x088 => some { count := 8, wide := true, write := true }
  | 0x089 => some { wide := false, write := true }
  | 0x0A0 => some { count := 16, wide := true, write := true }
  | _ => none

/-- The D field of mfs (R237): a pair for 64 bits, a vector register for a per-lane register. -/
def mfsUse (num : BitVec 12) (d : Operand) : Option Use :=
  match sysReg num.toNat with
  | none => some ⟨d, 0, false⟩
  | some r =>
    let n := if r.wide then 2 else 1
    some ⟨d, n, if r.perLane then d.vReg n else d.reg n⟩

/-- The A field of mts (R237), which the immediate may not be: that form's own third word holds NUMBER and INDEX (log 21). -/
def mtsUse (num : BitVec 12) (a : Operand) : Option Use :=
  match sysReg num.toNat with
  | none => some ⟨a, 0, false⟩
  | some r =>
    let n := if r.wide then 2 else 1
    some ⟨a, n, if r.perLane then a.vReg n else a != .imm && (if r.wide then a.sc64 else a.sc)⟩

/-- NUMBER and INDEX name a register, writable where `w` (R237). -/
def sysOk (num : BitVec 12) (idx : BitVec 8) (w : Bool) : Bool :=
  match sysReg num.toNat with
  | none => false
  | some r => idx.toNat < r.count && (!w || r.write)

/-- Rows of an integer form: D, A and B of 32 bits. -/
def shape3 (h : Hdr) (d a b : Operand) : Shape :=
  { pr := h.pr, imm := h.imm, d := Use.dst d, a := Use.src a, b := Use.src b }

/-- D and A of 32 bits. -/
def shape2 (h : Hdr) (d a : Operand) : Shape :=
  { pr := h.pr, imm := h.imm, d := Use.dst d, a := Use.src a }

/-- D, A, B and C of 32 bits. -/
def shape4 (h : Hdr) (d a b c : Operand) : Shape := { shape3 h d a b with c := Use.src c }

/-- D, A and B pairs. -/
def shapeP3 (h : Hdr) (d a b : Operand) : Shape :=
  { pr := h.pr, imm := h.imm, d := Use.dst64 d, a := Use.src64 a, b := Use.src64 b }

/-- Element widths of pack (R125). -/
def PackFmt.width : PackFmt → Nat
  | .f16 | .bf16 => 16
  | .f8e4 | .f8e5 | .s8 => 8
  | .s4 => 4

/-- cvt writes a pair (R124). -/
def cvtD64 (cv : BitVec 4) : Bool := [1, 4, 5, 12, 13, 14, 15].contains cv.toNat

/-- cvt reads a pair (R124). -/
def cvtA64 (cv : BitVec 4) : Bool := [0, 8, 9, 10, 11, 12, 13, 14, 15].contains cv.toNat

/-- Two register spans of one file overlap. -/
def overlap : Operand → Nat → Operand → Nat → Bool
  | .v i, n, .v j, m => decide (i.val < j.val + m ∧ j.val < i.val + n)
  | .s i, n, .s j, m => decide (i.val < j.val + m ∧ j.val < i.val + n)
  | _, _, _, _ => false

/-- The static form of each instruction (R70 to R80, R82, R116, R131 to R136, R141, R166, R192, R226). The immediate may not
stand in A of call.ind, whose third word is its displacement (log 21). -/
def shape : Instr → Shape
  | .nop h => { pr := h.pr, imm := h.imm, extra := h.imm == none || h.imm == some 0 }
  | .bra p disp => { pr := p, extra := disp.toNat % 4 == 0 }
  | .brx p a => { pr := p, a := Use.src64 a }
  | .call p ind d a disp =>
    { pr := p, d := some ⟨d, 2, d.vReg 2⟩,
      a := if ind then some ⟨a, 2, a.src64 && a != .imm⟩ else none,
      extra := if ind then disp == 0 else disp.toNat % 4 == 0 && a == .v 0 }
  | .ret p a => { pr := p, a := Use.src64 a }
  | .exit p | .yield p | .idle p | .brk p => { pr := p }
  | .rpt .. => {}
  | .trap h a => { pr := h.pr, imm := h.imm, a := Use.sc a }
  | .eretReplay p | .eretSkip p | .eretFill p | .eretAbort p => { pr := p }
  | .mfs p d num idx => { pr := p, d := mfsUse num d, mix := true, extra := sysOk num idx false }
  | .mts p a num idx =>
    { pr := p, a := mtsUse num a, mix := true,
      extra := sysOk num idx true && num != 0x0A0 && num != 0x087 && num != 0x086 }
  | .pgctlWrite p a idx => { pr := p, a := mtsUse 0x0A0 a, extra := sysOk 0x0A0 idx true }
  | .acctabWrite p a idx => { pr := p, a := mtsUse 0x087 a, extra := sysOk 0x087 idx true }
  | .watchtabWrite p a idx => { pr := p, a := mtsUse 0x086 a, extra := sysOk 0x086 idx true }
  | .launch p d a => { pr := p, d := Use.sreg d, a := Use.sc64 a }
  | .enq h d a b c =>
    { pr := h.pr, imm := h.imm, d := Use.sreg d, a := Use.sc a, b := Use.sc b, c := Use.sc64 c }
  | .tlbiVa h a c => { pr := h.pr, imm := h.imm, a := Use.sc64 a, c := Use.sc c }
  | .tlbiRange h a b c => { pr := h.pr, imm := h.imm, a := Use.sc64 a, b := Use.sc b, c := Use.sc c }
  | .tlbiCtx h c => { pr := h.pr, imm := h.imm, c := Use.sc c }
  | .tlbiAll h => { pr := h.pr, imm := h.imm }
  | .tlbsync p => { pr := p }
  | .pgref p _ d a b => { pr := p, d := Use.sreg d, a := Use.sc64 a, b := Use.sc b }
  | .pgcow p d a b c => { pr := p, d := Use.sreg d, a := Use.sc64 a, b := Use.sc b, c := Use.sc c }
  | .pgtwin p d a b c => { pr := p, d := Use.sreg d, a := Use.sc64 a, b := Use.sc64 b, c := Use.sc c }
  | .pgmig p d a => { pr := p, d := Use.sreg d, a := Use.sc64 a }
  | .ctxsave p d a b | .ctxload p d a b => { pr := p, d := Use.sreg d, a := Use.sc64 a, b := Use.sc b }
  | .evt h a b => { pr := h.pr, imm := h.imm, a := Use.sc a, b := Use.sc b }
  | .iadd h _ d a b | .isub h _ d a b | .imul h _ d a b | .imulh h _ d a b | .imin h _ d a b | .imax h _ d a b
  | .and h d a b | .or h d a b | .xor h d a b | .andn h d a b | .shl h d a b | .shr h d a b | .sar h d a b
  | .rot h d a b | .bfe h _ d a b => shape3 h d a b
  | .imad h _ d a b c | .bfi h d a b c => shape4 h d a b c
  | .iabs h m d a => { shape2 h d a with extra := m != .satn }
  | .popc h d a | .clz h d a | .brev h d a => shape2 h d a
  | .sel h d a b c => { shape3 h d a b with c := Use.pred c, extra := !d.isScalarReg }
  | .mov h d a =>
    { pr := h.pr, imm := h.imm, d := some ⟨d, if d.isPred then 0 else 1, d.dst true || d.isPred⟩,
      a := some ⟨a, if a.isPred then 0 else 1, a.src true || a.isPred⟩ }
  | .icmp h _ _ d a b => { shape3 h d a b with d := Use.pred d }
  | .plog h _ d a b => { pr := h.pr, imm := h.imm, d := Use.pred d, a := Use.pred a, b := Use.pred b }
  | .sext h w wd d a | .zext h w wd d a =>
    { pr := h.pr, imm := h.imm, d := if w then Use.dst64 d else Use.dst d, a := Use.src a,
      extra := w || wd != .b32 }
  | .lea h _ _ d a b => { pr := h.pr, imm := h.imm, d := Use.dst64 d, a := Use.src64 a, b := Use.src b }
  | .add64 h _ d a b | .sub64 h _ d a b => shapeP3 h d a b
  | .mul64 h m d a b =>
    match m with
    | .full _ => shapeP3 h d a b
    | _ => { shape3 h d a b with d := Use.dst64 d }
  | .fadd h _ _ _ d a b | .fsub h _ _ _ d a b | .fmul h _ _ _ d a b
  | .fmin h _ _ _ d a b | .fmax h _ _ _ d a b => shape3 h d a b
  | .ffma h _ _ _ d a b c => shape4 h d a b c
  | .fcmp h hi ty _ d a b => { shape3 h d a b with d := Use.pred d, extra := !hi || ty != .f32 }
  | .fclass h ty d a => { shape2 h d a with a := if ty == none then Use.src64 a else Use.src a }
  | .frnd h _ _ _ d a => shape2 h d a
  | .fdot2 h _ ty _ d a b c => { shape4 h d a b c with extra := ty != .f32 }
  | .dadd h _ _ d a b | .dmul h _ _ d a b | .dmin h _ _ d a b | .dmax h _ _ d a b => shapeP3 h d a b
  | .dfma h _ _ d a b c => { shapeP3 h d a b with c := Use.src64 c }
  | .dcmp h _ d a b => { shapeP3 h d a b with d := Use.pred d }
  | .cvt h cv rm d a =>
    { pr := h.pr, imm := h.imm, d := if cvtD64 cv then Use.dst64 d else Use.dst d,
      a := if cvtA64 cv then Use.src64 a else Use.src a,
      extra := rm == .rne || (cv != 1 && cv != 4 && cv != 5) }
  | .pack h f _ _ d a b =>
    { shape3 h d a b with d := some ⟨d, 1, d.dst (f.width == 16)⟩, dRead := f.width != 16 }
  | .unpack h f idx d a => { shape2 h d a with extra := decide (idx.val * f.width < 32) }
  | .qpack h _ _ d a b c => { shape4 h d a b c with d := some ⟨d, 1, d.dst false⟩, dRead := true }
  | .qunpack h n4 idx d a c => { shape2 h d a with c := Use.src c, extra := n4 || idx.val < 4 }
  | .rcp h _ d a | .rsqrt h _ d a | .exp2 h _ d a | .log2 h _ d a | .sin h _ d a | .cos h _ d a
  | .tanh h _ d a => shape2 h d a
  | .sqrt h _ _ d a => shape2 h d a
  | .shfl h _ _ d a b =>
    { pr := h.pr, imm := h.imm, d := some ⟨d, 1, d.vReg 1 || (d.isChan && d.dst true)⟩,
      a := some ⟨a, 1, a.isVec || a.isChan⟩, b := Use.src b }
  | .vote h vm d a =>
    { pr := h.pr, imm := h.imm, a := Use.pred a, mix := true,
      d := if vm == .ballot then Use.dst64 d
           else some ⟨d, if d.isPred then 0 else 1, d.isPred || d.isScalarReg⟩ }
  | .bcast h d a b =>
    { pr := h.pr, imm := h.imm, d := Use.dst d, a := some ⟨a, 1, a.isVec⟩, b := b.bind Use.sc, mix := true }
  | .redux h rm o d a =>
    { pr := h.pr, imm := h.imm, mix := true, extra := rm == .rne || o == .fadd,
      d := if o == .add64 then Use.dst64 d else some ⟨d, 1, d.dst false⟩,
      a := if o == .add64 then some ⟨a, 2, a.vReg 2⟩ else some ⟨a, 1, a.isVec⟩ }
  | .scan h _ o d a =>
    { pr := h.pr, imm := h.imm,
      d := if o == .add64 then some ⟨d, 2, d.vReg 2⟩ else some ⟨d, 1, d.vReg 1 || (d.isChan && d.dst true)⟩,
      a := if o == .add64 then Use.src64 a else Use.src a }
  | .ld p sx d a x =>
    { pr := p, d := Use.data x.wid false d, a := Use.addr false a,
      extra := (!sx || x.wid == .b1 || x.wid == .b2)
        && (let acv := x.opx.toNat
            x.ok { rowMem .acq with opx := fun n => n < 4, tol := acv != 0 }
            && (acv == 0 || (x.rt == .unc && x.wid == if acv == 1 then .b4 else .b8))) }
  | .st p a b x =>
    { pr := p, a := Use.addr false a, b := Use.srcData x.wid true b, extra := x.ok (rowMem .rel) }
  | .ldu p sx d a x =>
    { pr := p, d := Use.data x.wid false d, a := Use.addrW a,
      extra := (!sx || x.wid == .b1 || x.wid == .b2) && x.ok (rowMem .acq)
        && !overlap d x.wid.regs a 2 }
  | .stu p a b x =>
    { pr := p, a := Use.addrW a, b := Use.srcData x.wid false b, extra := x.ok (rowMem .rel) }
  | .lds p sx d a x =>
    { pr := p, d := Use.data x.wid (!x.pv) d, a := Use.addr true a,
      extra := (!sx || x.wid == .b1 || x.wid == .b2) && x.ok (rowSp .acq) }
  | .sts p a b x =>
    { pr := p, a := Use.addr true a, b := Use.srcData x.wid true b, extra := x.ok (rowSp .rel) }
  | .ldfe p d a x | .ldff p d a x =>
    { pr := p, d := Use.data x.wid false d, a := Use.addr true a, extra := x.ok rowFe }
  | .stfe p a b x | .stff p a b x =>
    { pr := p, a := Use.addr true a, b := Use.src32 b, extra := x.ok rowFe }
  | .feset p _ a b x =>
    { pr := p, a := Use.addr true a, b := Use.src32 b, extra := x.ok { pv := true } }
  | .pref p a x => { pr := p, a := Use.addr false a, extra := x.ok { opx := fun n => n < 2 } }
  | .wbr p a b x | .flr p a b x =>
    { pr := p, a := Use.addrS a, b := Use.sc b, extra := x.ok (rowRange true) true }
  | .invr p a b x =>
    { pr := p, a := Use.addrS a, b := Use.sc b, extra := x.ok (rowRange false) true }
  | .icinv p a b x =>
    { pr := p, a := Use.addrS a, b := Use.sc b,
      extra := x.ok { scp := fun s => s == .cu || s == .die || s == .pkg } true }
  | .fetchb x => { extra := x.ok { off := false } }
  | .atom p sp d a b x =>
    { pr := p, d := Use.data x.wid false d, a := Use.addr sp a, b := Use.srcData x.wid false b,
      extra := x.ok (rowAtom sp (fun n => n ≤ 10) false) }
  | .red p sp a b x =>
    { pr := p, a := Use.addr sp a, b := Use.srcData x.wid false b,
      extra := x.ok (rowAtom sp (fun n => n ≤ 10 && n != 8) true) }
  | .cas p sp d a b c x =>
    { pr := p, d := Use.data x.wid false d, a := Use.addr sp a, b := Use.srcData x.wid false b,
      c := Use.srcData x.wid false c, extra := x.ok (rowAtom sp (fun n => n == 0) false) }
  | .acc p a b x =>
    { pr := p, a := Use.addr false a, b := Use.srcData x.wid false b, extra := x.ok (rowAcc x) }
  | .accdrain p a b x =>
    { pr := p, a := Use.scPair a, b := Use.sc b, extra := x.ok (rowRange false) true }
  | .fence p .. => { pr := p }
  | .arrive h _ a | .wait h _ a | .bar h _ a => { pr := h.pr, imm := h.imm, a := Use.sc a }
  | .bmask h _ a b => { pr := h.pr, imm := h.imm, a := Use.sc a, b := Use.sc b }
  | .cvdef p _ a => { pr := p, a := a.bind Use.scPair }
  | .watch p d a => { pr := p, d := Use.sreg d, a := Use.scPair a }
  | .unwatch p d a => { pr := p, d := Use.sreg d, a := Use.sc a }
  | .publish h a => { pr := h.pr, imm := h.imm, a := Use.sc a }
  | .chset h d a b =>
    { pr := h.pr, imm := h.imm, d := some ⟨d, 1, d.isChan && d.dst true⟩, a := Use.sc a, b := Use.sc b }
  | .mma p a b x =>
    { pr := p, a := some ⟨a, 1, a.vReg 16⟩, b := some ⟨b, 1, b.sc || (b.isChan && b.dst true)⟩,
      extra := x.ok false }
  | .mmaq p a b x =>
    { pr := p, a := some ⟨a, 1, a.vReg 16⟩, b := some ⟨b, 1, b.sc || (b.isChan && b.dst true)⟩,
      extra := x.ok true }
  | .mmas p a b x => { pr := p, a := some ⟨a, 1, a.vReg 16⟩, b := Use.sc b, extra := x.ok false }
  | .accz p _ => { pr := p }
  | .accld p sp _ a b x =>
    { pr := p, a := if sp then Use.sc a else Use.scPair a, b := Use.sc b, extra := x.ok (rowTile sp x .acq) }
  | .accst p sp _ a b x =>
    { pr := p, a := if sp then Use.sc a else Use.scPair a, b := Use.sc b, extra := x.ok (rowTile sp x .rel) }
  | .accrd h _ d a => { pr := h.pr, imm := h.imm, d := Use.dst d, a := Use.src32 a, mix := true }
  | .accwr h _ a b => { pr := h.pr, imm := h.imm, a := Use.src a, b := Use.src32 b }
  | .xcopy p a x => { pr := p, a := if x.dsp then Use.sc a else Use.scPair a }
  | .mcast p a b c _ => { pr := p, a := Use.scPair a, b := Use.sc b, c := Use.scPair c }
  | .csrg p a b c x =>
    { pr := p, a := Use.scPair a, b := Use.sc b, c := Use.sc c,
      extra := [MFmt.bf16, .f16, .f8e4, .f8e5, .s8, .s4].contains x.fmt }
  | .estat p d a => { pr := p, d := Use.sreg d, a := a.bind Use.sc }
  | .ecancel p a => { pr := p, a := a.bind Use.sc }
  | _ => { isa := false }

/-- The used fields in the order D, A, B, C. -/
def Shape.uses (s : Shape) : List Use := [s.d, s.a, s.b, s.c].filterMap id

/-- The source fields in the order A, B, C, with D after them where it is read. -/
def Shape.sources (s : Shape) : List Use := ([s.a, s.b, s.c] ++ [if s.dRead then s.d else none]).filterMap id

/-- An immediate operand needs the 96-bit form, and a 96-bit form whose fields do not name it holds zero (R42, R47). -/
def Shape.immOk (s : Shape) : Bool :=
  match s.imm with
  | none => s.uses.all fun u => u.o != .imm
  | some w => w == 0 || s.uses.any fun u => u.o == .imm

/-- Scalar form (R52). -/
def Shape.scalar (s : Shape) : Bool :=
  match s.d.map Use.o with
  | some (.s _) => true
  | some (.v _) | some (.p _) => false
  | _ => s.sources.all fun u => !(u.o.isVec || u.o.isPred)

/-- A scalar destination takes no vector source and no predicate, unless the form defines it (R52, R87). -/
def Shape.formOk (s : Shape) : Bool :=
  s.mix || match s.d.map Use.o with
    | some (.s _) => s.sources.all fun u => !(u.o.isVec || u.o.isPred)
    | _ => true

/-- Executed by a warp, rather than a step of another unit. -/
def Instr.isIsa (i : Instr) : Bool := (shape i).isa

/-- Legal in itself (R63, but for the limits of R28). -/
def Instr.wellFormed (i : Instr) : Bool :=
  let s := shape i
  s.isa && s.extra && s.immOk && s.formOk && s.uses.all Use.ok

end Sys2Proof
end

