-- ==== Sys2Proof/Machine/State.lean ====
section
/-! DEFINITION. The state of a Kwazon package, as plain data: every register, table, queue and memory that the manual
names, and the state after reset. Tables are sorted lists (Store); a register file lists only nonzero registers. -/

namespace Sys2Proof.Machine

/-! ### Lanes and warps -/

/-- Lane states (R17). -/
inductive LaneSt | eligible | ld | fe | exited
deriving DecidableEq, Repr

/-- A lane: its vpc and state (R16, R17), and while it is parked on a load the registers it waits for, by NUM. -/
structure Lane where
  vpc : Addr
  st : LaneSt
  wait : List Nat
deriving DecidableEq, Repr

/-- A convergence register (R27): expected and signed masks, the instruction of the first signature and the A words
captured from signed lanes, keyed by 128·lane + register offset (R197, R198, R225). -/
structure Cv where
  expected : Mask
  signed : Mask
  ins : Option Instr
  cap : Store Word
deriving DecidableEq, Repr

/-- A repeat in progress or past (R34, R76): `only` limits a replayed repetition to some lanes (R77). -/
structure Rep where
  act : Bool
  total : Nat
  done : Nat
  set : Mask
  only : Option Mask
deriving DecidableEq, Repr

/-- A recorded trap of a halted warp (R229, R232). `addr0` is the instruction, `next` the address past it. -/
structure Trap where
  cause : Nat
  addr : Addr
  code : Word
  lanes : Mask
  async : Bool
  inrep : Bool
  brk : Bool
  defl : Option (Wid × Nat)
  data : Store Word
  addr0 : Addr
  next : Option Addr
  queued : Bool
deriving DecidableEq, Repr

/-- An asynchronous trap that waits for the warp's next boundary (R228). -/
structure Async where
  cause : Nat
  addr : Addr
  lanes : Mask
deriving DecidableEq, Repr

/-- A register marked faulted by an error reply (R151): first register of the destination, its width, the lane,
the cause and the access's address, and the load that marked it, by the tick of its issue (R228). -/
structure Bad where
  lane : Nat
  num : Nat
  wid : Wid
  cause : Nat
  addr : Addr
  load : Nat
deriving DecidableEq, Repr

/-- A write that a queued instruction makes at its completion (R130): a vector, scalar or predicate register, or a
reserved ring slot given by the scratchpad word it fills. -/
inductive QDest
  | vec (n lane : Nat) (x : Word)
  | sca (n : Nat) (x : Word)
  | slot (off : Nat) (x : Word)
deriving DecidableEq, Repr

/-- An entry of a special-function or conversion queue (R130). -/
structure QOp where
  dests : List QDest
  flags : Word
deriving DecidableEq, Repr

/-- Why a warp's issue slot is held, as WSTAT shows it (R31); `parked`: a cross-lane instruction waits for lanes (R131). -/
inductive Hold | none | chan | bar | idle | parked | other
deriving DecidableEq, Repr

/-- A page whose break a warp waits for (R348): the lowest lane's address in it, the entry as the walk read it (R344), and, once
the break has ended, whether it could proceed. -/
structure CowPage where
  va : Addr
  pte : BitVec 64
  ends : Option Bool
deriving DecidableEq, Repr

/-- The copy-on-write breaks that a warp waits for (R348), with the lanes concerned, the instruction's address and the address past
it. -/
structure Cow where
  pc : Addr
  next : Addr
  lanes : Mask
  pages : List CowPage
deriving DecidableEq, Repr

/-- The collector latch: vA, FA, NS, GS and the held A words (R201). -/
structure LatchA where
  va : Nat
  fa : MFmt
  ns : Fin 3
  gs : Fin 3
  n : Nat                        -- registers held, from vA
  cap : Store Word
deriving DecidableEq, Repr

/-- A 128-byte block of another package that an instruction has asked for as an .unc load and that has arrived: its
bytes, whether a release tag came with it, and the error instead, or 0. -/
structure FarRead where
  blk : Nat
  bytes : List Byte
  tagged : Bool
  cause : Nat
deriving DecidableEq, Repr

/-- Bytes of another package that birfdb (place 34) or a snapshot (place 35) has asked for as an .unc load and that have arrived:
their address, their release tag, and the error instead, or 0 (R284, R445). -/
structure FarBytes where
  place : Nat
  pa : Nat
  bytes : List Byte
  tag : BitVec 3
  cause : Nat
deriving DecidableEq, Repr

/-- A warp (R9, R27, R31 to R35). -/
structure Warp where
  lanes : List Lane
  vr : Store Word                -- 64·register + lane
  sr : Store Word
  pr : Store Mask                -- p0 to p6
  cv : Store Cv
  fstat : Word
  flm : Mask
  rep : Rep
  tag : Tag
  hold : Hold
  heldSet : Mask                 -- the issue set of the instruction that holds the slot (R20), or the lanes of `parked`
  spin : Nat
  lastBack : Option Addr
  exc : Mask                     -- lanes of an excursion; zero outside one
  excCount : Nat
  latch : Bool
  halt : Option Trap
  asyncs : List Async
  bads : List Bad
  sfq : List QOp
  cvq : List QOp
  cow : Option Cow
  barWait : Option Nat           -- a bar that has arrived and waits, by key of the barrier
  latchA : Option LatchA
  sawTag : Bool                  -- a tagged value returned since the last drop (R179, R267)
  relScope : Option Scope        -- widest rel, ar or sc fence so far (R257)
  acqReq : List Nat              -- acquire requests that later memory instructions wait for
  noIssueUntil : Nat             -- yield: no issue before this fc
  lastIssue : Nat                -- one more than the fc of its latest issue; 0: none (R298)
  ibuf : Option (Nat × List Byte)   -- the fetch block it fetched last, by physical block (R163)
  fetchBad : Option (Nat × Nat)  -- a fetch block that came with an error: block and cause (R311)
  farRead : List FarRead         -- blocks of other packages that its instruction has read (R186, R212, R239)
  place : Nat                    -- resident warp place, 0 to 31
  quad : Nat
  cancelled : Bool               -- its ecancel has marked the operations it stops (R222)
  stopped : Bool                 -- by birfdb
  preempt : Bool                 -- to be saved at its next boundary
  exitNow : Bool                 -- its group suffered a fatal fault (R358)
  noMem : Bool                   -- waits for a flush-by-tag (R363)
  serves : Option WarpId         -- a handler's bound warp (R230)
deriving DecidableEq, Repr

/-! ### Groups, compute units, launches -/

/-- A task-type entry (R285). -/
structure TaskType where
  nwarp : Nat
  width : Nat      -- slices minus 1
  nreg : Nat       -- registers divided by 8, minus 1
  tiles : Nat
  chan : Nat
  scr : Nat        -- window in 256-byte units
  entry : Addr
deriving DecidableEq, Repr

/-- A channel entry (R30). -/
structure Chan where
  tail : Nat
  head : Nat
  depth : Nat
  base : Nat
deriving DecidableEq, Repr

/-- A watched granule's trigger as the group keeps it: region, trigger depth, and the granule's offset in the region (R389,
R391, R401). -/
structure TrigTag where
  region : Nat
  depth : Nat
  off : Nat
deriving DecidableEq, Repr

/-- An item of a save area's progress section (R224, R225, R249): its kind, a number, its bytes. -/
structure Prog where
  kind : Nat
  num : Nat
  data : List Byte
deriving DecidableEq, Repr

/-- A group (R9, R291). Window bytes and tile elements that are not listed have not been written (R29): they read as
free values of the group's draw. -/
structure Group where
  launch : Nat
  index : Nat
  tt : Nat
  ty : TaskType
  tag : Tag
  seed : Nat
  scr : Store Byte
  padPoison : Store Bool         -- poisoned words of the window, by offset / 4 (R441)
  full : Store Bool
  tiles : Store Word             -- 4096·tile + element
  poison : Store Bool            -- poisoned tile elements
  chans : Store Chan
  reserved : Store Bool          -- ring slots of queued instructions, by word (R159)
  held : List (Nat × Nat × Nat)  -- B of queued matrix operations: number, offset, bytes (R223)
  slot : Nat
  vrBase : Nat
  scrBase : Nat
  tileBase : Nat
  chanBase : Nat
  places : List Nat
  trig : Option TrigTag
  failed : Bool
  abortTaken : Bool
  cluster : Option Nat           -- key of its cluster
  peer : Nat
  waitPeers : Bool               -- loaded, but the rest of its cluster is not (R248)
  errs : Store Bool              -- sets with an operation that ended with ERR since the last estat on the set (R221)
  home : CuId                    -- where it was last saved (R363)
  retired : Bool                 -- a cluster member whose window stays allotted (R11)
  progress : List Prog           -- progress registers still to be taken up again (R224)
  out : Bool                     -- its record has been written; it waits for the rest of its cluster (R247)
deriving DecidableEq, Repr

/-- A cluster with its barriers (R12, R180). -/
structure Cluster where
  launch : Nat
  side : Nat
  x0 : Nat
  y0 : Nat
  groups : List GroupId
deriving DecidableEq, Repr

/-- One word of an L1 (R308). -/
inductive L1St | wt | si | own
deriving DecidableEq, Repr

structure L1Word where
  st : L1St
  data : Word
  dirty : BitVec 4
  rel : BitVec 3
  poison : Bool
  sm : Bool
  ctx : Tag
  depth : Nat                    -- greatest depth of the writers of its dirty bytes (R390)
deriving DecidableEq, Repr

/-- An update-only line of an L1 (R371, R372): deltas of its 16 elements, tracker, limit, context. -/
structure UpdLine where
  deltas : Store Int
  tags : Store (BitVec 3)        -- release tags of the elements whose deltas came by release writes (R257, R266)
  withheld : Nat                 -- magnitude withheld
  tracker : Nat                  -- withheld and unacknowledged magnitude
  limit : Nat
  depth : Nat                    -- greatest depth of the deltas (R379)
  ctx : Tag
deriving DecidableEq, Repr

/-- A task-queue entry (R290): launch, task type, arguments for s0 upward, and how it was made. -/
inductive TaskKind | initial | linked (cluster : Nat) | enq | trigger (k : Nat)
deriving DecidableEq, Repr

structure Task where
  launch : Nat
  tt : Nat
  args : List Word
  index : Nat
  kind : TaskKind
  member : Bool                  -- of the launch's barriers (R288)
deriving DecidableEq, Repr

/-- A waiter of a full/empty word (R156, R157). -/
structure Waiter where
  wid : WarpId
  lane : Nat
  word : Nat                     -- group·2^20 + offset
  full : Bool
  served : Bool
  tracked : Bool
  next : Nat                     -- untracked: fc of the next test
  gap : Nat
deriving DecidableEq, Repr

/-- A tile operation in the queue of a CU (R198, R203, R204): its instruction, warp, captured A, and B as it stood; for
accwr, `a` holds the elements it writes. -/
structure MatOp where
  wid : WarpId
  gid : GroupId
  ins : Instr
  a : Store Word
  b : List Byte
  seq : Nat
deriving DecidableEq, Repr

/-- A convergence set completed by exit that waits for room or a ring (R199). -/
structure DefMat where
  wid : WarpId
  cv : Fin 8
deriving DecidableEq, Repr

/-- A compute unit (R307, R308). -/
structure CU where
  spl : Nat
  l1 : Store L1Word              -- by word of the physical address
  ic : Store (List Byte)         -- instruction cache: fetch blocks, by physical address / 32 (R163)
  upd : Store UpdLine            -- by 128-byte line
  queue : List Task
  aside : List Task              -- entries of switched-out contexts
  waiters : List Waiter
  matq : List MatOp
  defMat : List DefMat
deriving DecidableEq, Repr

/-- A launch (R285 to R289). -/
structure Launch where
  tag : Tag
  x0 : Nat
  y0 : Nat
  w : Nat
  h : Nat
  side : Nat
  spl : Nat
  types : List TaskType
  inittt : Nat
  args : List Word
  barreq : BitVec 64
  cwaddr : Addr
  ws : List (Addr × Nat × Bool)
  staged : Bool
  record : List Byte             -- as the command processor accepted it (R434)
  toQueue : List (List (CuId × Task))  -- initial entries not yet queued, in order; linked ones together
  counter : Nat                  -- group indices of later groups
  regions : List Nat             -- regions its groups watched
  halted : Bool                  -- it ends in a partition halt (R289)
  savedOut : List (Nat × List Nat)  -- its groups in save areas, by index, with the warps that have not exited (R184, R247)
deriving DecidableEq, Repr

/-- A command-processor entry: a submitted launch record (R285, R287). -/
structure Submit where
  tag : Tag
  bytes : List Byte
  reply : Option WarpId          -- the warp whose launch it is
  result : Option Nat            -- what the warp's D receives, once it has been handled
deriving DecidableEq, Repr

/-- A group as the armature names it: launch and group index (R184). -/
structure GName where
  launch : Nat
  index : Nat
deriving DecidableEq, Repr

/-- A warp's arrival at a barrier: group, warp index, generation (R181, R182, R184). -/
structure Arrival where
  group : GName
  warp : Nat
  gen : Nat
deriving DecidableEq, Repr

/-- A package or cluster barrier (R180 to R184): owner and launches it is allotted to, generation, member groups, and
the latest arrival of each warp that it has not waited for, or that belongs to the current generation. -/
structure Barrier where
  owner : Option Tag
  launches : List Nat
  gen : Nat
  members : List GName
  arrived : List Arrival
  waits : List Arrival
deriving DecidableEq, Repr

/-! ### Memory -/

/-- Owner and wt sharers that the home keeps of a word (R314). -/
structure Dir where
  owner : Option CuId
  sharers : List CuId
deriving DecidableEq, Repr

/-- A word of another package that a proxy slice holds: its state and the context that filled it (R313, R362). -/
structure ProxyWord where
  st : L1St
  ctx : Tag
deriving DecidableEq, Repr

/-- A region line that a proxy slice holds update-only toward the remote home (R376): deltas, the magnitude withheld, the
tracker, the limit that the remote home gave it, and the depth of the deltas. -/
structure ProxyLine where
  deltas : Store Int
  withheld : Nat
  tracker : Nat
  limit : Nat
  depth : Nat
deriving DecidableEq, Repr

/-- Memory behind the homes: bytes of DRAM and of devices, bytes dirty in a memory-side cache (R324), bytes dirty in L2,
release tags, poison marks of 32-byte sectors, the directory, the dies marked whole for a line (R314), view bytes that home
slices and memory-side caches hold with their marks (R324, R331), and what the proxies hold, whose clean bytes stand in
`bytes` and whose dirty ones in `l2` (R313). An unlisted byte of DRAM reads 0 (log 4). -/
structure Mem where
  bytes : Store Byte
  msc : Store Byte
  l2 : Store Byte
  rel : Store (BitVec 3)
  poison : Store Bool
  dir : Store Dir
  wide : Store (BitVec 8)
  views : Store (Byte × Bool)
  prox : Store ProxyWord
  accProx : Store ProxyLine
  dev : Store Byte               -- bytes of the CXL devices: (4·group + PORT)·2^64 + device address (R409, R425)
deriving DecidableEq, Repr

/-- What one lane of a request does: address, and for stores and atomics its operands. -/
structure Acc where
  lane : Nat
  va : Addr
  pa : Nat
  data : List Byte
  swap : List Byte
  regs : Nat                     -- registers of the destination per lane
  cow : Bool                     -- a cas whose page was copy-on-write at its issue (R176)
deriving DecidableEq, Repr

/-- Kinds of requests that leave an L1 (R320). -/
inductive ReqKind
  | load (rt : ReqType)
  | store (rt : ReqType)
  | atom (aop : Nat)
  | red (aop : Nat)
  | cas
  | accLoad (acv : Nat) (tol : Nat)
  | acc                          -- an addend on its way to its holder or home (R371)
  | range (op : Nat) (home : Bool)   -- 0 wbr, 1 invr, 2 flr
  | drain
  | icinv
  | fetch                        -- of a fetch block homed in another package
  | read                         -- of a block of another package, by an instruction that reads a record there
  | wback                        -- of bytes dirty in a proxy (R313, R319)
  | pref (msc : Bool)            -- into the L1, or into the memory-side cache (R161)
  | tileLd (rt : ReqType)
  | tileSt (rt : ReqType)
deriving DecidableEq, Repr

/-- Where a request stands: at the home, on its way back with the values of its lanes, or refused. -/
inductive Stage | home | ext | reply | refused
deriving DecidableEq, Repr

/-- One lane's value in a reply: bytes, the release tag that came with it, an error, flags. -/
structure RepVal where
  lane : Nat
  va : Addr
  bytes : List Byte
  tag : BitVec 3
  cause : Nat                    -- 0, or the error the reply carries
  flags : Word
deriving DecidableEq, Repr

/-- A request in flight (R145, R320). -/
structure Req where
  wid : WarpId
  cu : CuId
  place : Nat
  kind : ReqKind
  blk : Nat                      -- 128-byte block, or the start of a range
  accs : List Acc
  wid' : Wid
  sx : Bool
  dst : Option Operand
  ctx : Tag
  sm : Bool
  ord : Order
  scp : Scope
  rel : BitVec 3                 -- tag a release write sets (R266)
  depth : Nat                    -- depth of the writer's trigger chain (R390)
  stage : Stage
  vals : List RepVal
  span : Nat × Nat               -- range of virtual addresses of a range operation
  issued : Nat                   -- model's own: the tick of its instruction's issue, by which loads differ (R228)
  plane : Option Nat             -- the port group on which it left its die (R418)
  num : Nat                      -- its number in its outbound stream (R420)
  dbgHold : Bool
  wasHeld : Bool                 -- a hold has kept it: after it, the L1 keeps no dirty byte of its words (R282)
deriving DecidableEq, Repr

/-! ### Accumulation regions -/

/-- Fields of an ACCTAB entry that every unit holds (R368, R369). -/
structure AccEnt where
  start : Nat
  len : Nat
  e : Int
  j : Nat
  idx : Nat
deriving DecidableEq, Repr

/-- Holder record of a region line at its home: holders, line limit, and the unbounded mark (R370, R373); the proxies of other
packages that owe an answer to a limit or a drain, and whether a drain has been asked for (R374 to R376). -/
structure Holders where
  list : List CuId
  limit : Nat
  unbounded : Bool
  owing : List CuId
  asked : Bool
deriving DecidableEq, Repr

/-- A combine on its way to its home (R372). -/
structure Combine where
  cu : CuId
  line : Nat
  deltas : Store Int
  tags : Store (BitVec 3)
  mag : Nat                      -- magnitude that stays in the tracker until the acknowledgement
  depth : Nat
  acked : Bool                   -- applied; the acknowledgement is on its way
  plane : Option Nat             -- of a proxy's: the port group on which it left its die (R418)
  num : Nat                      -- of a proxy's: its number in its outbound stream (R420)
deriving DecidableEq, Repr

/-! ### Watched regions -/

/-- Spill count, spill depth and where the last scan stopped, of one trigger unit for one region (R393). -/
structure SpillRec where
  count : Nat
  depth : Nat
  scan : Nat
deriving DecidableEq, Repr

/-- A watched region as the trigger units hold it (R384 to R397). -/
structure Region where
  tag : Tag
  base : Addr
  len : Nat
  entry : Addr
  qaddr : Addr
  spill : Addr
  glog : Nat
  tt : Nat
  casc : Nat
  hev : Bool
  launch : Nat
  live : Bool                    -- not unwatched
  pend : Int
  run : Int
  changes : List (Int × Int)     -- changes of PEND and RUN under way, oldest first
  spills : Store SpillRec        -- by trigger unit
deriving DecidableEq, Repr

/-- A pending trigger of a granule (R389). -/
structure Trigger where
  region : Nat
  granule : Addr
  gpa : Nat
  depth : Nat
  index : Nat
  launch : Nat
  refused : Bool                 -- a full task queue turned it away (R394)
  queued : Bool                  -- it stands in a task queue
  spilled : Bool                 -- it stands in the spill bitmap
  unit : Nat
deriving DecidableEq, Repr

/-! ### Engines -/

/-- Kinds of engine operations (R212 to R219) and of the moves engines make for the curator. -/
inductive EngKind | xcopy | mcast | csrg
deriving DecidableEq, Repr

/-- A place an element is read from or written to. -/
inductive EPlace
  | global (va : Addr)
  | pad (g : GroupId) (off : Nat)
  | ring (g : GroupId) (off : Nat)
  | far (pkg : Nat) (va : Addr)
  | ep (index : Nat) (off : Nat)
deriving DecidableEq, Repr

/-- One element still to be moved; `val` is set once it has been read. -/
structure Elem where
  src : EPlace
  dst : List EPlace
  size : Nat
  val : Option (List Byte)
  poison : Bool
deriving DecidableEq, Repr

/-- An outstanding engine operation (R209 to R222). `elems` are the elements not yet delivered, in linear order. -/
structure EngOp where
  kind : EngKind
  wid : WarpId                    -- the warp that issued it (R391)
  gid : GroupId
  cu : CuId
  tag : Tag
  arr : Nat
  arrs : List GroupId            -- groups whose windows hold the arrival word
  elems : List Elem
  readFirst : Bool
  desc : List Byte               -- descriptor, or the fields of an mcast
  k0 : Nat
  fmt : MFmt
  ns : Nat
  dst : Nat
  row : Nat
  mask : Nat
  block : Store Byte             -- dense block under way
  total : Nat
  stopping : Bool
  bads : List Nat                -- words of the block that came from poisoned bytes (R216)
  overran : Bool                 -- it has overrun an arrival word (R211, R221)
  ended : Bool                   -- it has failed; its undelivered bytes are still to be credited (R216, R223)
  after : List Nat               -- requests that must complete first (R209)
  depth : Nat
deriving DecidableEq, Repr

/-! ### Translation -/

/-- A TLB entry of a CU, or of a die (unit 1024 + die) (R345). -/
structure Tlb where
  unit : Nat
  ctx : Tag
  page : Nat
  size : Nat
  pte : BitVec 64
deriving DecidableEq, Repr

/-- What a posted tlbi removes (R241). -/
inductive TlbiKind
  | range (ctx : Tag) (va : Addr) (pages : Nat)
  | ctx (c : Tag)
  | all
deriving DecidableEq, Repr

/-- A posted tlbi (R242). -/
structure Tlbi where
  wid : WarpId
  kind : TlbiKind
  reqs : List Nat                -- requests in flight at its removal
  done : Bool
deriving DecidableEq, Repr

/-- A migration in progress (R246, R355). -/
structure Mig where
  tag : Tag
  va : Addr
  oldPte : BitVec 64
  tier : Nat
  frame : Nat
  shadow : Nat
  lba : Nat
  nvq : Nat
  twin : Option Nat              -- TWINTAB index
  src : Nat
  srcShadow : Nat
  arr : Option (WarpId × Nat)    -- the warp that asked for it, and its arrival word
  launch : Option Nat            -- staged for a launch
deriving DecidableEq, Repr

/-- A publish whose flip waits (R353). -/
structure Publish where
  wid : WarpId
  tag : Tag
  set : Nat
  reqs : List Nat
deriving DecidableEq, Repr

/-! ### Contexts and the curators -/

/-- A group that the curator has saved at a context switch, whole (R306). -/
structure Saved where
  gid : GroupId
  group : Group
  warps : List (WarpId × Warp)
  defs : List DefMat
deriving DecidableEq, Repr

/-- A retired triggered group that has not been counted out: its region, CU and the mark of its requests (R396). -/
structure CountOut where
  region : Nat
  off : Nat
  cu : CuId
  mark : Nat
deriving DecidableEq, Repr


/-- A context (R304, R306, R340, R434, R445). -/
structure Ctx where
  ptbase : DWord
  deadline : DWord
  evtq : DWord
  out : Bool
  dumpBase : Nat
  dumpSize : Nat
  recBase : Nat
  recSize : Nat
  recording : Bool
  recPut : Nat
  armed : Bool                   -- recording waits for its snapshot (R445)
  halting : Nat                  -- cause of a partition halt under way (R305); 0: none
  turn : Nat                     -- fc at which its turn began (R306)
deriving DecidableEq, Repr

/-- A violation-log entry (R442): kind, cause, tag, address. -/
structure Viol where
  kind : Nat
  cause : Nat
  tag : Tag
  addr : Nat
  src : Nat                      -- 13 bits: die, x, y; all ones for none
  fc : Nat
deriving DecidableEq, Repr

/-- Supervisor registers and queues (R229, R230, R237, R442, R443). -/
structure Sup where
  trapbase : Store DWord         -- by die
  ctxsel : Tag
  frametab : DWord
  twintab : DWord
  watchtab : DWord
  acctab : DWord
  freelist : Store DWord
  svcreq : Word
  pgctl : Store DWord
  traps : Store (List WarpId)    -- trap queue of each die's curator
  vlog : List Viol
  vput : Nat
  vlogBase : Option Nat          -- the mirror of the violation log
  vmir : Nat                     -- entries that the mirror has
  switching : Option (Tag × Tag) -- a context switch under way: who leaves, who comes (R306)
deriving DecidableEq, Repr

/-! ### Port groups -/

/-- Tables a group loads at REMAP: relay entries by package, circuit entries by circuit, HDM decoders (R408, R409,
R411); and, until it is ACTIVE again, the decoders it had before, whose requests wait (R413). -/
structure PgTab where
  relay : Store Nat
  circ : Store Nat
  hdm : List (BitVec 256)
  was : List (BitVec 256)
deriving DecidableEq, Repr

/-- An ordering stream at its target (R420, R421, R423, R424, R428): the lowest number not applied, later ones that are, whether
it is frozen, requests in the store log, requests that wait, the atomic for which the stream waits, and the values of atomics that
may have to be sent again. -/
structure Stream where
  next : Nat
  applied : List Nat
  frozen : Bool
  logged : List UalReq
  held : List UalReq
  waits : Option UalReq
  kept : List (Nat × List Byte)
deriving DecidableEq, Repr

/-- How a response ends a remote request (R422, R424). -/
inductive UalStatus | done | view | poison | refused | busy
deriving DecidableEq, Repr

/-- A response to a remote request: its stream and number, the bytes of a read or an atomic with their release tag, and the granule
where a write met the cascade limit (R391, R420). -/
structure UalReply where
  stream : Nat
  seq : BitVec 24
  status : UalStatus
  bytes : List Byte
  tag : BitVec 3
  casc : Option Addr
deriving DecidableEq, Repr

/-- Port groups and remote streams (R402 to R428). -/
structure Fabric where
  pkg : Nat
  map : Nat                      -- the fabric map, as the latest REMAP took it up (R405, R407)
  gallery : List Nat             -- member packages as last loaded (R408)
  eps : Store (BitVec 256)       -- endpoint table as last loaded (R410)
  tabs : Store PgTab
  streams : Store Stream         -- inbound, by source package, die and agent
  reply : Option UalReply        -- the response sent last
  sent : Store Nat               -- outbound streams: numbers given so far, by target package, die and agent (R420)
  frozenOut : Store Bool         -- outbound streams that their target froze, by target package, die and agent
  notices : Nat                  -- notices of store-log entries that the curator of die 0 has not taken up (R424)
  retired : List (Nat × Nat × Nat)  -- wavelengths: group, fibre pair, wavelength
  loss : Store Bool              -- groups that a lost link takes to OFF (R416)
  dark : Store Bool              -- groups whose link is lost while they switch (R414)
  quiet : Store Bool             -- groups whose far end has quiesced (R412)
  switched : Bool                -- a switch has begun since reset (R405)
  releasing : List (Nat × Nat)   -- pool extents whose release is under way (R335)
  gone : List (Nat × Nat)        -- pool extents released or revoked (R335, R336)
  spray : Store Nat              -- by die: the UAL group that its latest request took (R418)
deriving DecidableEq, Repr

/-! ### Plinths, host, service -/

/-- The reply to a read packet: the endpoint's tag, the address, the data, and the marks that come with it (R323). -/
structure PlinthReply where
  tag : BitVec 8
  pa : Nat
  data : List Byte
  rel : List (BitVec 3)          -- by word
  poison : List Bool             -- by sector
deriving DecidableEq, Repr

/-- A plinth's control registers (R327 to R334), and the reply to the latest read packet (R323). -/
structure Plinth where
  windows : Store (BitVec 512)
  nrctl : DWord
  nrcnt : Nat
  seq : Nat                      -- state of the test mode
  reply : Option PlinthReply
deriving DecidableEq, Repr

/-- A host queue (R430). -/
structure HostQ where
  base : DWord
  cfg : DWord
  tail : Nat
  head : Nat
deriving DecidableEq, Repr

/-- The host link, the registrar and service (R429 to R447). -/
structure HostIf where
  mbcmd : DWord
  mbstat : DWord
  mbarg : Store DWord
  mbres : Store DWord
  queues : Store HostQ
  quantum : Nat                  -- microseconds
  power : Nat                    -- watts
  capped : Bool
  dead : List Nat                -- fenced dies
  spares : List Nat
  images : Store Firmware
  measures : Store (BitVec 384)
  verified : Bool                -- false: the module holds in recovery (R438)
  off : List Nat                 -- image kinds whose units stay off
  retiredFrames : List Nat
  nextq : Nat                    -- the queue whose turn is next (R431)
  report : List Byte             -- the latest provenance report (R440)
  corrected : Nat                -- correctable errors so far (R441)
  farRead : List FarRead         -- blocks of other packages that the command processor has read (R431)
  farBytes : List FarBytes       -- what birfdb and snapshots have read of other packages (R284, R445)
  busy : Option (Nat × HostQ)    -- the queue entry being handled: its queue, and the registers it was read with (R432)
deriving DecidableEq, Repr

/-! ### The debugger -/

/-- A group that birfdb pre-empts: the group, the CU it is loaded on, and once it has been loaded, the CUs of its context whose
flush-by-tag has not been acknowledged (R363, R383). -/
structure Moving where
  gid : GroupId
  dest : CuId
  tag : Tag
  flush : Option (List CuId)
deriving DecidableEq, Repr

/-- birfdb (R281 to R284, R337, R338, R365, R366, R381 to R383, R400, R401). -/
structure Dbg where
  tag : Option Tag
  images : List (Tag × Image × List Nat)  -- loads, the latest first, with the ACCTAB entries that each installed
  args : List DWord
  breaks : List (Nat × Addr × CuId × Tag)
  catches : List (Nat × Nat × Tag)
  holds : List (Nat × CuId × Addr × Tag)
  trigHolds : List (Nat × Tag)
  released : List (Nat × Tag)       -- triggers that release sends under a hold (R400)
  traces : List (Nat × Tag)
  next : Nat
  out : List Nat
  stop : Bool
  selected : Option WarpId
  passing : List (WarpId × Addr)    -- warps that go on from a stop, until they have left its address
  stepping : List (WarpId × Nat)    -- warps that execute steps, with those still to issue
  letGo : List WarpId               -- warps whose caught trap may enter its queue (R366)
  resumed : List WarpId             -- warps that a command resumed, whose exits it prints (R456)
  launched : Option Nat
  told : List (Nat × Nat)           -- launches and the holds that keep them, as printed
  lastEvt : Nat                     -- fc of the latest stop, exit or completion in the context
  moving : Option Moving            -- a pre-emption under way (R383)
  submitted : Option (Nat × Nat)    -- the queue and index of the entry of its launch (R281, R430)
  awaits : Option (Nat × Nat × Nat) -- a released trigger, its region and offset, until its group is counted out (R400)
deriving DecidableEq, Repr

/-! ### The machine -/

/-- One move of the schedule (log 1): a warp issues, another step of the table happens, or the host writes memory. -/
inductive Move
  | issue (w : WarpId)
  | event (i : Instr)
  | hostWrite (pa : Nat) (bytes : List Byte)
deriving DecidableEq, Repr

/-- The instruction that is being issued: warp, issue set, its address, the address past it, and in a repeat the
address past the target. -/
structure Cur where
  w : WarpId
  set : Mask
  pc : Addr
  next : Addr
  len3 : Bool
deriving DecidableEq, Repr

/-- The state of the package. -/
structure State where
  agenda : List Move             -- model's own: the schedule (log 1)
  cur : Option Cur               -- model's own: the instruction under issue
  order : List WarpId            -- model's own: rotation of the issue ports
  tick : Nat                     -- model's own: draws of free values
  seq : Nat                      -- model's own: next message number
  fc : Nat                       -- package cycle counter (R15)
  exch : Nat                     -- exchanges of the task queues that are due (R295)
  warps : Store Warp
  groups : Store Group
  clusters : Store Cluster
  cus : Store CU
  launches : Store Launch
  launchId : Nat
  cpq : List Submit
  bars : Store Barrier           -- package barriers 0 to 63; cluster k: 64 + 16·k + b
  mem : Mem
  reqs : Store Req
  accCopy : List AccEnt
  holders : Store Holders        -- of region lines, by line
  combines : Store Combine
  regions : Store Region
  trigs : Store Trigger
  engs : Store EngOp
  tlbs : List Tlb
  tlbis : Store Tlbi
  migs : Store Mig
  pubs : List Publish
  saved : List Saved
  outs : Store CountOut
  ctxs : Store Ctx
  sup : Sup
  fab : Fabric
  plinths : Store Plinth
  host : HostIf
  dbg : Dbg
deriving DecidableEq, Repr

/-- Why the machine stops. -/
inductive Fault
  /-- Raised by the meaning of an instruction when no warp is issuing it (`cur` is none): `exec` was called outside a
  step. Safe: the machine stops where the hardware has no such situation. -/
  | noIssuingWarp
deriving DecidableEq, Repr

/-- Why the model gives no next state. -/
inductive Refusal
  /-- The dispatcher answers it for an instruction without a meaning. Safe: the model stops. -/
  | notModelled (mnemonic : String)
deriving DecidableEq, Repr

/-! ### Values at start and reset -/

/-- A lane at an entry PC (R29). -/
def Lane.start (pc : Addr) : Lane := ⟨pc, .eligible, []⟩

/-- An inactive convergence register. -/
def Cv.zero : Cv := ⟨0, 0, none, []⟩

/-- RPTC at zero. -/
def Rep.zero : Rep := ⟨false, 0, 0, 0, none⟩

/-- A new warp of `w` lanes at `pc` (R29). -/
def Warp.start (w : Nat) (pc : Addr) (tag : Tag) (place quad : Nat) : Warp :=
  { lanes := List.replicate w (Lane.start pc), vr := [], sr := [], pr := [], cv := [], fstat := 0, flm := 0,
    rep := Rep.zero, tag := tag, hold := .none, heldSet := 0, spin := 0, lastBack := none, exc := 0, excCount := 0, latch := false,
    halt := none, asyncs := [], bads := [], sfq := [], cvq := [], cow := none, barWait := none,
    latchA := none, sawTag := false, relScope := none, acqReq := [], noIssueUntil := 0, lastIssue := 0, ibuf := none,
    fetchBad := none, farRead := [], place := place, quad := quad,
    cancelled := false, stopped := false, preempt := false, exitNow := false, noMem := false, serves := none }

/-- A CU after reset (R307; SPL and queues: log 10). -/
def CU.zero : CU :=
  { spl := 0, l1 := [], ic := [], upd := [], queue := [], aside := [], waiters := [], matq := [], defMat := [] }

/-- A context of which nothing has been set (R304, R340). -/
def Ctx.zero : Ctx :=
  { ptbase := 0, deadline := 0, evtq := 0, out := false, dumpBase := 0, dumpSize := 0, recBase := 0, recSize := 0,
    recording := false, recPut := 0, armed := false, halting := 0, turn := 0 }

/-- A plinth after reset: NRCTL.K is 9 (R333). -/
def Plinth.zero : Plinth := { windows := [], nrctl := 9, nrcnt := 0, seq := 1, reply := none }

/-- A host queue after reset (R430). -/
def HostQ.zero : HostQ := { base := 0, cfg := 0, tail := 0, head := 0 }

/-- A free barrier. -/
def Barrier.free : Barrier := { owner := none, launches := [], gen := 0, members := [], arrived := [], waits := [] }

/-- Memory with nothing listed. -/
def Mem.empty : Mem :=
  { bytes := [], msc := [], l2 := [], rel := [], poison := [], dir := [], wide := [], views := [], prox := [], accProx := [],
    dev := [] }

/-- Supervisor registers after reset (R237; TRAPBASE and CTXSEL: log 10). -/
def Sup.reset : Sup :=
  { trapbase := [], ctxsel := 0, frametab := 0, twintab := 0, watchtab := 0, acctab := 0, freelist := [], svcreq := 0,
    pgctl := [], traps := [], vlog := [], vput := 0, vlogBase := none, vmir := 0, switching := none }

/-- Port groups after reset: package number 0, every group idle (R405; log 10). -/
def Fabric.reset : Fabric :=
  { pkg := 0, map := 0, gallery := [], eps := [], tabs := [], streams := [], reply := none, sent := [], frozenOut := [],
    notices := 0, retired := [], loss := [], dark := [], quiet := [], switched := false, releasing := [], gone := [], spray := [] }

/-- Host link and service after reset (R429, R430, R436; log 10, log 17). -/
def HostIf.reset : HostIf :=
  { mbcmd := 0, mbstat := 0, mbarg := [], mbres := [], queues := [], quantum := 2000, power := 3600, capped := false,
    dead := [], spares := [], images := (List.range 4).map fun k => (k, Config.bootImage k),
    measures := (List.range 4).map fun k => (k, Config.sha384 (firmwareBytes (Config.bootImage k))), verified := true, off := [],
    retiredFrames := [], nextq := 0, report := [], corrected := 0,
    farRead := [], farBytes := [], busy := none }

/-- No debugger session. -/
def Dbg.reset : Dbg :=
  { tag := none, images := [], args := [], breaks := [], catches := [], holds := [], trigHolds := [],
    released := [], traces := [], next := 1, out := [], stop := false, selected := none, passing := [], stepping := [], letGo := [],
    resumed := [], launched := none, told := [], lastEvt := 0, moving := none, submitted := none, awaits := none }

/-- The package right after reset (R15, R29, R237, R333, R405, R430). -/
def State.reset : State :=
  { agenda := [], cur := none, order := [], tick := 0, seq := 0, fc := 0, exch := 0, warps := [], groups := [], clusters := [],
    cus := [], launches := [], launchId := 0, cpq := [], bars := [], mem := Mem.empty, reqs := [], accCopy := [],
    holders := [], combines := [], regions := [], trigs := [], engs := [], tlbs := [], tlbis := [], migs := [],
    pubs := [], saved := [], outs := [], ctxs := [], sup := Sup.reset, fab := Fabric.reset, plinths := [], host := HostIf.reset,
    dbg := Dbg.reset }

end Sys2Proof.Machine
end

