-- ==== Sys2Proof/Machine/Table.lean ====
section
/-! DEFINITION. Identifiers of the units and access to the tables of the state. -/

namespace Sys2Proof.Machine

open Sys2Proof

/-! ### Identifiers (R9, R12, R14, R15) -/

/-- The group of a warp. -/
def gidOf (w : WarpId) : GroupId := w / 16

/-- The warp's index in its group. -/
def warpIndex (w : WarpId) : Nat := w % 16

/-- The CU of a group. -/
def cuOf (g : GroupId) : CuId := g / 32

/-- A curator CU, whose warps run supervisor code (R36). -/
def isCurator (c : CuId) : Bool := 768 ≤ c

/-- Logical x and y of a mesh CU. -/
def cuX (c : CuId) : Nat := c % 48
def cuY (c : CuId) : Nat := c / 48

/-- The CU at x and y. -/
def cuAt (x y : Nat) : CuId := 48 * y + x

/-- The die of a CU (R14, R15). -/
def dieOf (c : CuId) : Nat := if isCurator c then c - 768 else cuX c / 12 + 4 * (cuY c / 8)

/-- Supervisor level of a warp (R36). -/
def isSup (w : WarpId) : Bool := isCurator (cuOf (gidOf w))

/-! ### Access to the tables of the state -/

namespace State

def warp? (s : State) (w : WarpId) : Option Warp := sFind? s.warps w
def group? (s : State) (g : GroupId) : Option Group := sFind? s.groups g
def cu (s : State) (c : CuId) : CU := (sFind? s.cus c).getD CU.zero
def ctx (s : State) (t : Tag) : Ctx := (sFind? s.ctxs t.toNat).getD Ctx.zero

def setWarp (s : State) (w : WarpId) (x : Warp) : State := { s with warps := sInsert s.warps w x }
def modWarp (s : State) (w : WarpId) (f : Warp → Warp) : State := { s with warps := sAdjust s.warps w f }
def setGroup (s : State) (g : GroupId) (x : Group) : State := { s with groups := sInsert s.groups g x }
def modGroup (s : State) (g : GroupId) (f : Group → Group) : State := { s with groups := sAdjust s.groups g f }
def setCu (s : State) (c : CuId) (x : CU) : State := { s with cus := sSet CU.zero s.cus c x }
def modCu (s : State) (c : CuId) (f : CU → CU) : State := s.setCu c (f (s.cu c))
def setCtx (s : State) (t : Tag) (x : Ctx) : State := { s with ctxs := sSet Ctx.zero s.ctxs t.toNat x }
def modCtx (s : State) (t : Tag) (f : Ctx → Ctx) : State := s.setCtx t (f (s.ctx t))

/-- Put an event before everything else that the schedule holds. -/
def push (s : State) (i : Instr) : State := { s with agenda := .event i :: s.agenda }

/-- The next draw of a free value (log 3). -/
def draw (s : State) : Nat × State := (s.tick, { s with tick := s.tick + 1 })

/-- A fresh message number. -/
def fresh (s : State) : Nat × State := (s.seq, { s with seq := s.seq + 1 })

end State

/-- The warps of a group that are resident. -/
def State.warpsOf (s : State) (g : GroupId) : List WarpId :=
  ((List.range 16).map fun i => 16 * g + i).filter fun w => (s.warp? w).isSome

/-- The source field of a violation-log entry: die, x and y of a CU (R442). -/
def srcOf (c : CuId) : Nat := 1024 * dieOf c + (if isCurator c then 1023 else 16 * cuX c + cuY c)

/-- No unit is the source. -/
def noSrc : Nat := 8191

/-- Enter an address in the violation log; it keeps the last 4,096 entries (R442). -/
def violate (s : State) (kind cause : Nat) (tag : Tag) (addr src : Nat) : State :=
  { s with sup := { s.sup with
      vlog := (s.sup.vlog ++ [(⟨kind, cause, tag, addr, src, s.fc⟩ : Viol)]).drop (s.sup.vlog.length + 1 - 4096),
      vput := s.sup.vput + 1 } }

/-- birfdb prints numbers (log 11). -/
def note (s : State) (ws : List Nat) : State := { s with dbg := { s.dbg with out := s.dbg.out ++ ws } }

/-- A stop, an exit or a completion in the context of the session is printed, at this fc (R456). -/
def noteEvt (s : State) (ws : List Nat) : State :=
  let s := note s ws
  { s with dbg := { s.dbg with lastEvt := s.fc } }

/-- When a step completes a load, birfdb prints the tag that the value carried (R284). -/
def noteTag (s : State) (w : WarpId) (num : Nat) (tag : BitVec 3) : State :=
  if s.dbg.stepping.any fun p => p.1 == w then note s [21, w, num, tag.toNat] else s

/-- The widest of the tags of some words. -/
def widestTag (f : Nat → BitVec 3) (ws : List Nat) : BitVec 3 := ws.foldl (fun t w => if t.toNat < (f w).toNat then f w else t) 0

/-- birfdb traces the triggers of a context (R401). -/
def tracing (s : State) (t : Tag) : Bool := s.dbg.traces.any fun p => p.2 == t

/-- The greater of two addresses enters the violation log where two traps of a cause merge, unless its refusal or the cascade
log has put it down already (R228, R311, R391). -/
def logMerged (s : State) (w : WarpId) (a : Async) : State :=
  if [0x13, 0x15, 0x20].contains a.cause then s
  else
    match s.warp? w with
    | none => s
    | some x =>
      match x.asyncs.find? fun b => b.cause == a.cause with
      | some b => violate s 1 a.cause x.tag (max a.addr.toNat b.addr.toNat) (srcOf (cuOf (gidOf w)))
      | none => s

/-- Add an asynchronous trap; traps of one cause merge (R228). -/
def addAsync (s : State) (w : WarpId) (a : Async) : State :=
  (logMerged s w a).modWarp w fun x =>
    { x with asyncs :=
        if x.asyncs.any fun b => b.cause == a.cause then
          x.asyncs.map fun b =>
            if b.cause == a.cause then
              { b with lanes := b.lanes ||| a.lanes, addr := if a.addr.toNat < b.addr.toNat then a.addr else b.addr }
            else b
        else x.asyncs ++ [a] }

end Sys2Proof.Machine
end

