-- ==== Sys2Proof/Machine/Memory.lean ====
section
/-! DEFINITION. Memory behind the homes: address spaces, decode-window views, homes and directory, recalls,
invalidations and write-backs, page-table walks, commits with their release tags and triggers, accumulation
regions. -/

namespace Sys2Proof.Machine

open Sys2Proof

/-! ### Physical addresses (R311, R312) -/

/-- Spaces of a physical address. -/
inductive Space | hbm | view | ctl | none | host | pool | far
deriving DecidableEq, Repr

/-- The space of a 52-bit address as this package sees it. -/
def spaceOf (s : State) (pa : Nat) : Space :=
  if field pa 51 44 != s.fab.pkg then .far
  else
    let k := field pa 43 40
    if k == 0 then .hbm else if k == 1 then .view else if k == 2 then .ctl else if k == 3 then .none
    else if k < 8 then .host else .pool

/-- The home die of a local address. -/
def dieOfPa (pa : Nat) : Nat := if field pa 43 40 < 4 then field pa 39 37 else field pa 15 13

/-- The plinth of a local address: two for each die, chosen by bit 12. -/
def plinthOf (pa : Nat) : Nat := 2 * dieOfPa pa + field pa 12 12

/-- The home slice within the die (R312). -/
def sliceOf (pa : Nat) : Nat :=
  (field pa 12 8) ^^^ (field pa 17 13) ^^^ (field pa 22 18) ^^^ (field pa 27 23) ^^^ (field pa 32 28)
    ^^^ (field pa 36 33)

/-- The trigger unit and home slice of an address, over the package. -/
def unitOf (pa : Nat) : Nat := 32 * dieOfPa pa + sliceOf pa

/-- The frame index of an HBM address (R346). -/
def frameOf (pa : Nat) : Nat := field pa 39 16

/-! ### Port groups: what PGCTL says, and decoders (R405, R409, R425) -/

def pgctl (s : State) (n : Nat) : Nat := (sGet 0 s.sup.pgctl n).toNat

/-- PERS and STATE of a group. -/
def pgPers (s : State) (n : Nat) : Nat := field (pgctl s n) 61 60
def pgState (s : State) (n : Nat) : Nat := field (pgctl s n) 59 57
def pgReq (s : State) (n : Nat) : Nat := field (pgctl s n) 63 62

/-- A group carries traffic in a personality. -/
def pgActive (s : State) (n pers : Nat) : Bool := pgPers s n == pers && pgState s n == 1 && !sGet false s.fab.quiet n

/-- A decoder covers an address. -/
def hdmCovers (d : BitVec 256) (pa : Nat) : Bool :=
  bit d 192 && bits d 63 0 ≤ pa && pa < bits d 63 0 + bits d 191 160 * 2 ^ 28

/-- The decoder of an address, with its group (R425). -/
def decoderOf (s : State) (pa : Nat) : Option (Nat × BitVec 256) :=
  s.fab.tabs.findSome? fun e => (e.2.hdm.find? fun d => hdmCovers d pa).map fun d => (e.1, d)

/-- The device byte of a pool address: DPA + (address - BASE) on fibre pair PORT of the decoder's group, as `Mem.dev` numbers it
(R425). -/
def devKey (s : State) (pa : Nat) : Option Nat :=
  (decoderOf s pa).map fun p => (4 * p.1 + bits p.2 129 128) * 2 ^ 64 + (bits p.2 127 64 + pa - bits p.2 63 0)

/-- What becomes of a pool access: carried, waiting for its group, or refused (R311, R335, R413, R425; log 88). -/
inductive PoolWay | carried | waits | refused
deriving DecidableEq, Repr

def poolWay (s : State) (pa : Nat) : PoolWay :=
  match decoderOf s pa with
  | none => if s.fab.tabs.any fun e => e.2.was.any fun d => hdmCovers d pa then .waits else .refused
  | some (n, _) =>
    if s.fab.gone.any fun g => g.1 ≤ pa && pa < g.1 + g.2 then .refused
    else if pgActive s n 2 && !(s.fab.releasing.any fun g => g.1 ≤ pa && pa < g.1 + g.2) then .carried else .waits

/-- Some group satisfies a test. -/
def anyGroup (f : Nat → Bool) : Bool := (List.range 16).any f

/-- A group carries requests to a package: it is a UAL group in ACTIVE whose relay entry for the package is valid (R418,
R419). -/
def planeOpen (s : State) (pkg n : Nat) : Bool :=
  pgActive s n 1 && match sFind? s.fab.tabs n with | some t => 128 ≤ sGet 0 t.relay pkg | none => false

/-- What becomes of a request to another package: carried, waiting for a group, or refused (R413, R417, R419). -/
def farWay (s : State) (pkg : Nat) : PoolWay :=
  if !s.fab.gallery.contains pkg then .refused
  else if anyGroup (planeOpen s pkg) then .carried
  else if anyGroup fun n => pgReq s n == 1 then .waits else .refused

/-- The group that the next request to a package takes from a die: the next after the die's pointer, in ascending order
and round again (R418). -/
def nextPlane (s : State) (die pkg : Nat) : Option Nat :=
  let ns := (List.range 16).filter (planeOpen s pkg)
  match (sFind? s.fab.spray die).bind fun p => ns.find? fun n => p < n with
  | some n => some n
  | none => ns.head?

/-- A request leaves a die for a package: the group that it takes, and the pointer moved on; none where it waits. -/
def leaveDie (s : State) (die pkg : Nat) : Option Nat × State :=
  match nextPlane s die pkg with
  | some n => (some n, { s with fab := { s.fab with spray := sInsert s.fab.spray die n } })
  | none => (none, s)

/-- An outbound stream: target package, and die and agent of the source (R420). -/
def outKey (pkg die agent : Nat) : Nat := 2 ^ 24 * pkg + 2 ^ 21 * die + agent

/-- The agent that an L2 slice, the proxy of an address, is (R420; log 15). -/
def proxAgent (pa : Nat) : Nat := 2 ^ 20 + 2 ^ 19 + sliceOf pa

/-- The stream of a request: a write-back is its proxy's, any other its warp place's (R420). -/
def Req.out (r : Req) : Nat :=
  match r.accs with
  | a :: _ =>
    if r.kind == .wback then outKey (field a.pa 51 44) (field a.pa 39 37) (proxAgent a.pa)
    else outKey (field a.pa 51 44) (dieOf r.cu) (64 * r.cu + r.place)
  | [] => 0

/-- The stream of a proxy's push. -/
def Combine.out (c : Combine) : Nat := outKey (field (128 * c.line) 51 44) (field (128 * c.line) 39 37) (proxAgent (128 * c.line))

/-- A stream has 1,024 requests without a response, so that further ones wait (R420). -/
def outFull (s : State) (key : Nat) : Bool :=
  1024 ≤ s.reqs.length + s.combines.length
    && 1024 ≤ (s.reqs.filter fun e => e.2.stage == .ext && e.2.plane.isSome && e.2.out == key).length
      + (s.combines.filter fun e => e.2.plane.isSome && e.2.out == key).length

/-- Send a request of a stream to a package: the group that it takes and its number; none where it waits, for a group, for a
stream that the target has frozen, or for a response (R413, R418, R420, R423). -/
def sendOut (s : State) (key pkg die : Nat) : Option (Nat × Nat) × State :=
  if sGet false s.fab.frozenOut key || outFull s key then (none, s)
  else
    match leaveDie s die pkg with
    | (some n, s) =>
      (some (n, sGet 0 s.fab.sent key),
        { s with fab := { s.fab with sent := sSet 0 s.fab.sent key ((sGet 0 s.fab.sent key + 1) % 2 ^ 24) } })
    | (none, s) => (none, s)

/-- What has left on a group can be answered: where the group has lost its link, on another, on which it is sent again (R414). -/
def farSent (s : State) (plane : Option Nat) (pkg : Nat) : Bool :=
  match plane with
  | some n => !sGet false s.fab.dark n || farWay s pkg == .carried
  | none => false

/-- What becomes of traffic to an endpoint (R413). -/
def epWay (s : State) (i : Nat) : PoolWay :=
  let m := bits (sGet 0 s.fab.eps i) 255 240
  if anyGroup fun n => field m n n == 1 && pgActive s n 3 then .carried
  else if anyGroup fun n => field m n n == 1 && pgReq s n == 3 then .waits else .refused

/-- The registers of a plinth. -/
def State.plinth (s : State) (p : Nat) : Plinth := (sFind? s.plinths p).getD Plinth.zero

/-! ### Decode-window views (R328 to R330) -/

/-- Bytes of codes in one group of a window. -/
def winCG (d : BitVec 512) : Nat := 32 * 2 ^ bits d 229 228 * (if bits d 227 224 == 7 then 4 else 8) / 8

/-- A base lies in a space of a die of this package. -/
def baseIn (s : State) (base space die : Nat) : Bool :=
  field base 63 44 == s.fab.pkg && field base 43 40 == space && field base 39 37 == die

/-- The window's fields are within the table (R328). -/
def winOk (s : State) (d : BitVec 512) (die : Nat) : Bool :=
  bits d 511 232 == 0 && !bit d 230 && bits d 229 228 < 3 && [2, 3, 6, 7].contains (bits d 227 224)
    && 1 ≤ bits d 223 192 && bits d 223 192 ≤ 2 ^ 28
    && bits d 191 128 % 65536 == 0 && baseIn s (bits d 191 128) 1 die
    && bits d 127 64 % 4 == 0 && baseIn s (bits d 127 64) 0 die
    && bits d 63 0 % 256 == 0 && baseIn s (bits d 63 0) 0 die

/-- Bytes of a window's view range (R329). -/
def winLen (d : BitVec 512) : Nat := (bits d 223 192 * (winCG d + 4) + 65535) / 65536 * 65536

/-- An enabled window claims a view byte. -/
def winClaims (d : BitVec 512) (pa : Nat) : Bool :=
  bit d 231 && bits d 191 128 ≤ pa && pa < bits d 191 128 + winLen d

/-- A byte as the plinths hold it: in the memory-side cache, or in DRAM or a device (R324). -/
def plinthByte (s : State) (pa : Nat) : Byte :=
  match sFind? s.mem.msc pa with
  | some b => b
  | none =>
    match devKey s pa with
    | some k => sGet 0 s.mem.dev k
    | none => sGet 0 s.mem.bytes pa

/-- Write a byte behind the memory-side caches: to DRAM, or to its CXL device. -/
def setStoreByte (s : State) (pa : Nat) (b : Byte) : State :=
  match devKey s pa with
  | some k => { s with mem := { s.mem with dev := sSet 0 s.mem.dev k b } }
  | none => { s with mem := { s.mem with bytes := sSet 0 s.mem.bytes pa b } }

/-- Where a byte of a view comes from: none where no window serves it, some none where it reads 0, else the byte at an
address. The lowest window that claims it answers (R329, R330). -/
def viewSrc (s : State) (pa : Nat) : Option (Option Nat) :=
  match (s.plinth (plinthOf pa)).windows.find? fun e => winClaims e.2 pa with
  | none => none
  | some (_, d) =>
    if !winOk s d (dieOfPa pa) then none
    else
      let v := pa - bits d 191 128
      let cg := winCG d
      let g := v / (cg + 4)
      let o := v % (cg + 4)
      if v ≥ bits d 223 192 * (cg + 4) then some none
      else if o < cg then some (some (bits d 63 0 + g * cg + o))
      else if o == cg + 3 then some none
      else some (some (bits d 127 64 + 4 * g + (o - cg)))

/-- A byte of a view as its plinth computes it, with the poison mark of the sector it comes from (R326, R331). -/
def viewByte (s : State) (pa : Nat) : Option (Byte × Bool) :=
  (viewSrc s pa).map fun a =>
    match a with
    | none => (0, false)
    | some a => (plinthByte s a, sGet false s.mem.poison (a / 32))

/-- A byte of a view as its home holds it, or finds it at the plinth. -/
def viewHeld (s : State) (pa : Nat) : Option (Byte × Bool) :=
  match sFind? s.mem.views pa with
  | some b => some b
  | none => viewByte s pa

/-- The home and the memory-side cache keep the sectors of a view that an access has read (R324, log 73). -/
def keepView (s : State) (pa n : Nat) : State :=
  if spaceOf s pa != .view then s
  else
    { s with mem := { s.mem with
        views := (List.range (32 * ((pa % 32 + n + 31) / 32))).foldl (fun m i =>
          match viewHeld s (pa / 32 * 32 + i) with
          | some b => sInsert m (pa / 32 * 32 + i) b
          | none => m) s.mem.views } }

/-- View bytes leave the homes and the memory-side caches. -/
def dropViews (s : State) (f : Nat → Bool) : State :=
  { s with mem := { s.mem with views := sFilter s.mem.views fun a _ => !f a } }

/-! ### Bytes at the home -/

/-- A byte dirty in L2, or as the plinth holds it. -/
def sliceByte (s : State) (pa : Nat) : Byte :=
  match sFind? s.mem.l2 pa with
  | some b => b
  | none => plinthByte s pa

/-- What a proxy holds of a word of another package (R313). -/
def proxOf (s : State) (word : Nat) : Option L1St := (sFind? s.mem.prox word).map ProxyWord.st

/-- The byte the home holds or finds at its plinth; none is an error response (R311). Host memory, pool memory and HBM
read alike; views are computed; of another package's memory, a proxy acts as the home of the words it holds (R313). -/
def homeByte? (s : State) (pa : Nat) : Option Byte :=
  match spaceOf s pa with
  | .hbm | .host => some (sliceByte s pa)
  | .pool => if poolWay s pa == .refused then none else some (sliceByte s pa)
  | .view => (viewHeld s pa).map fun b => b.1
  | .far => if (proxOf s (pa / 4)).isSome then some (sliceByte s pa) else none
  | _ => none

/-- As `homeByte?`, with 0 for a byte that has no home. -/
def homeByte (s : State) (pa : Nat) : Byte := (homeByte? s pa).getD 0

/-- Write a byte at its home: dirty in L2, or straight to host memory. -/
def setHomeByte (s : State) (pa : Nat) (b : Byte) : State :=
  match spaceOf s pa with
  | .host => { s with mem := { s.mem with bytes := sSet 0 s.mem.bytes pa b } }
  | _ => { s with mem := { s.mem with l2 := sInsert s.mem.l2 pa b } }

def State.dir (s : State) (word : Nat) : Dir := (sFind? s.mem.dir word).getD ⟨none, []⟩

def State.setDir (s : State) (word : Nat) (d : Dir) : State :=
  { s with mem := { s.mem with dir := sSet ⟨none, []⟩ s.mem.dir word d } }

/-- The release tag of a word at its home (R266, R319). -/
def State.relTag (s : State) (word : Nat) : BitVec 3 := sGet 0 s.mem.rel word

def State.setRelTag (s : State) (word : Nat) (t : BitVec 3) : State :=
  { s with mem := { s.mem with rel := sSet 0 s.mem.rel word t } }

/-- The poison mark of the word of an address: that of its sector, or of the sectors a view's bytes come from (R324,
R326). -/
def State.poisoned (s : State) (pa : Nat) : Bool :=
  if spaceOf s pa == .view then (List.range 4).any fun i => ((viewHeld s (pa / 4 * 4 + i)).map fun b => b.2) == some true
  else sGet false s.mem.poison (pa / 32)

def State.setPoison (s : State) (sector : Nat) (b : Bool) : State :=
  { s with mem := { s.mem with poison := sSet false s.mem.poison sector b } }

def State.l1 (s : State) (c : CuId) (word : Nat) : Option L1Word := sFind? (s.cu c).l1 word

def State.setL1 (s : State) (c : CuId) (word : Nat) (x : L1Word) : State :=
  s.modCu c fun u => { u with l1 := sInsert u.l1 word x }

def State.dropL1 (s : State) (c : CuId) (word : Nat) : State :=
  s.modCu c fun u => { u with l1 := sErase u.l1 word }

/-- The value of a byte in coherence order: the owner's where an L1 owns the word (R310), else the home's. -/
def coherentByte (s : State) (pa : Nat) : Byte :=
  match (s.dir (pa / 4)).owner.bind fun c => s.l1 c (pa / 4) with
  | some x => byteOf x.data.toNat (pa % 4)
  | none => homeByte s pa

/-- Consecutive bytes in coherence order, as an unc load returns them. -/
def coherentBytes (s : State) (pa n : Nat) : List Byte := (List.range n).map fun i => coherentByte s (pa + i)

def coherentNat (s : State) (pa n : Nat) : Nat := ofBytes (coherentBytes s pa n)

/-! ### Page-table walks (R339 to R342) -/

/-- A table page: HBM space of this package. -/
def inHbm (s : State) (pa : Nat) : Bool := spaceOf s pa == .hbm

/-- What a walk finds: nothing usable, a malformed entry, or a leaf with the entry's address and level. -/
inductive Walk
  | absent
  | malformed
  | leaf (pte : BitVec 64) (addr level : Nat)
deriving DecidableEq, Repr

/-- The index of a virtual address at a level (R339). -/
def vaIndex (va : Addr) : Nat → Nat
  | 0 => bits va 56 48
  | 1 => bits va 47 39
  | 2 => bits va 38 30
  | 3 => bits va 29 21
  | _ => bits va 20 16

/-- Bytes that a leaf of a level maps. -/
def pageSize (level : Nat) : Nat := if level == 2 then 2 ^ 30 else if level == 3 then 2 ^ 21 else 2 ^ 16

def ptePa (e : BitVec 64) : Nat := bits e 51 8 * 256
def pteTier (e : BitVec 64) : Nat := bits e 53 52
def pteLeaf (e : BitVec 64) : Bool := bit e 1 || bit e 2 || bit e 3

/-- A leaf is well formed at its level (R341, R342). -/
def leafOk (s : State) (e : BitVec 64) (level : Nat) : Bool :=
  2 ≤ level
    && (!bit e 7 || (level == 4 && bit s.sup.twintab 0 && bits e 51 24 == 0))
    && (bit e 7 || pteTier e ≥ 2 || ptePa e % pageSize level == 0)

/-- Walk from a table at a level. -/
def walkFrom (s : State) (va : Addr) : Nat → Nat → Nat → Walk
  | 0, _, _ => .malformed
  | fuel + 1, level, table =>
    let addr := table + 8 * vaIndex va level
    let e := BitVec.ofNat 64 (coherentNat s addr 8)
    if !bit e 0 then .absent
    else if bits e 63 54 != 0 then .malformed
    else if pteLeaf e then if leafOk s e level then .leaf e addr level else .malformed
    else if level ≥ 4 || bit e 7 then .malformed
    else if !inHbm s (ptePa e) || ptePa e % (if level == 3 then 256 else 4096) != 0 then .malformed
    else walkFrom s va fuel (level + 1) (ptePa e)

/-- The walk of an address in a context (R339, R340). -/
def walk (s : State) (t : Tag) (va : Addr) : Walk :=
  let r := (s.ctx t).ptbase
  if !legalVa va || !bit r 0 then .absent
  else if !inHbm s (bits r 51 12 * 4096) then .malformed
  else walkFrom s va 5 0 (bits r 51 12 * 4096)

/-- A TWINTAB entry's address (R351). -/
def twinAddr (s : State) (i : Nat) : Nat := bits s.sup.twintab 51 12 * 4096 + 32 * i

/-- The frame a leaf names: for a twin page the selected one, or its shadow (R351, R352). -/
def leafFrame (s : State) (e : BitVec 64) (shadow : Bool) : Nat :=
  if bit e 7 then
    let a := twinAddr s (bits e 23 8)
    let sel := field (coherentNat s a 1) 1 1 == 1
    if sel == shadow then coherentNat s (a + 16) 8 else coherentNat s (a + 24) 8
  else ptePa e

/-- The physical address of a virtual address under a leaf. -/
def leafPa (s : State) (e : BitVec 64) (level : Nat) (va : Addr) (shadow : Bool) : Nat :=
  leafFrame s e shadow + va.toNat % pageSize level

/-- A quick physical address for the hardware's own accesses in a context; none where nothing is mapped. -/
def physOf (s : State) (t : Tag) (va : Addr) : Option Nat :=
  match walk s t va with
  | .leaf e _ level => if pteTier e < 2 then some (leafPa s e level va false) else none
  | _ => none

/-! ### Watched granules (R384 to R393) -/

/-- Who writes: the depth the commit carries, the warp an error goes back to, whether it goes back to another package, and the
CU that the write comes from (R390, R391, R401). -/
structure Writer where
  depth : Nat
  warp : Option WarpId
  far : Bool
  cu : CuId
deriving DecidableEq, Repr

/-- A write by nobody whose trap could be raised, at depth 0 (R390). -/
def Writer.plain : Writer := ⟨0, none, false, noSrc⟩

/-- Physical base of the watch area. -/
def watchBase (s : State) : Nat := bits s.sup.watchtab 51 16 * 65536

/-- The frame-map entry of an address: region and page (R386). -/
def frameMap (s : State) (pa : Nat) : Option (Nat × Nat) :=
  if bit s.sup.watchtab 0 && spaceOf s pa == .hbm then
    let e := ofBytes ((List.range 4).map fun i => homeByte s (watchBase s + 0x10000 + 4 * frameOf pa + i))
    if field e 31 31 == 1 then some (field e 27 20, field e 19 0) else none
  else none

/-- A region's granule in bytes. -/
def Region.gran (r : Region) : Nat := 4 * 2 ^ r.glog

/-- The copies of a word go, dirty bytes to their home. -/
def rawRecall (s : State) (w : Nat) : State :=
  let d := s.dir w
  let s := match d.owner.bind fun c => (s.l1 c w).map fun x => (c, x) with
    | some (c, x) =>
      ((List.range 4).foldl (fun s i =>
        if bit x.dirty i then setHomeByte s (4 * w + i) (byteOf x.data.toNat i) else s) s).dropL1 c w
    | none => s
  let s := d.sharers.foldl (fun s c => s.dropL1 c w) s
  if d == ⟨none, []⟩ then s else s.setDir w ⟨none, []⟩

/-- A plain write of bytes at their homes, with copies dropped first: what the hardware itself writes into its own
tables (frame map, region table, logs, queues, flags). Release tags are emptied (R266). -/
def rawWrite (s : State) (pa : Nat) (bs : List Byte) : State :=
  bs.zipIdx.foldl (fun s e =>
    (setHomeByte (rawRecall s ((pa + e.2) / 4)) (pa + e.2) e.1).setRelTag ((pa + e.2) / 4) 0) s

def rawWriteNat (s : State) (pa x n : Nat) : State := rawWrite s pa (bytesOf x n)

/-- Add a change of PEND and RUN to those on their way to the region's counts (R396). -/
def addChange (s : State) (r : Nat) (p q : Int) : State :=
  { s with regions := sAdjust s.regions r fun g => { g with changes := g.changes ++ [(p, q)] } }

/-- The physical address of a unit's own access in a context, through the TLB of its die (R345, R393). -/
def unitPhys (s : State) (die : Nat) (t : Tag) (va : Addr) : Option Nat :=
  match s.tlbs.find? fun e => e.unit == 1024 + die && e.ctx == t && e.page == va.toNat / e.size with
  | some e => some (leafFrame s e.pte false + va.toNat % e.size)
  | none => physOf s t va

/-- The bitmap byte and bit of a granule that a trigger unit homes, in physical memory (R393). -/
def spillBit (s : State) (r : Region) (gran : Addr) (unit : Nat) : Option (Nat × Nat) :=
  let k := (gran - r.base).toNat / r.gran
  (unitPhys s (unit / 32) r.tag (r.spill + BitVec.ofNat 64 (k / 8))).map fun pa => (pa, k % 8)

/-- Set or clear one bit of the bitmap, as a red.or or an atom.and at its home, which keeps the word's release tag (R266,
R393). -/
def setSpillBit (s : State) (r : Region) (gran : Addr) (unit : Nat) (b : Bool) : State :=
  match spillBit s r gran unit with
  | none => s
  | some (pa, k) =>
    let s := rawRecall s (pa / 4)
    let x := (homeByte s pa).toNat
    let x := if field x k k == 1 then x - 2 ^ k else x
    setHomeByte s pa (BitVec.ofNat 8 (if b then x + 2 ^ k else x))

/-- The cascade log's entry, and its count (R392). -/
def cascadeLog (s : State) (gran : Addr) (depth : Nat) (notrap : Bool) : State :=
  let h := watchBase s + 0x4000
  let n := ofBytes ((List.range 8).map fun i => homeByte s (h + i))
  let s := rawWriteNat s (h + 16 + 16 * (n % 3071)) (gran.toNat + 2 ^ 64 * depth + (if notrap then 2 ^ 71 else 0)) 16
  rawWriteNat s h (n + 1) 8

/-- The pending trigger of a granule. -/
def pendingTrig (s : State) (r : Nat) (gran : Addr) : Option (Nat × Trigger) :=
  s.trigs.find? fun e => e.2.region == r && e.2.granule == gran

/-- A changing commit to a granule of region `r`: refuse it past CASC, join the pending trigger, or create one, queued
or spilled (R389, R391, R393). -/
def changed (s : State) (r : Nat) (g : Region) (gran : Addr) (gpa : Nat) (wr : Writer) : State :=
  if g.casc < wr.depth then
    let notrap := !wr.far && (wr.warp.bind s.warp?).isNone
    let s := cascadeLog s gran wr.depth notrap
    match wr.warp with
    | some w => addAsync s w ⟨0x20, gran, 0⟩
    | none => s
  else
    let u := unitOf gpa
    let sp := (sFind? g.spills u).getD ⟨0, 0, 0⟩
    match pendingTrig s r gran with
    | some (k, t) =>
      if t.spilled then
        { s with regions := sInsert s.regions r { g with spills := sInsert g.spills u { sp with depth := max sp.depth wr.depth } } }
      else { s with trigs := sInsert s.trigs k { t with depth := max t.depth wr.depth } }
    | none =>
      let spill := 128 ≤ (s.trigs.filter fun e => e.2.unit == u && !e.2.spilled && !e.2.queued).length
      let t : Trigger :=
        { region := r, granule := gran, gpa := gpa, depth := wr.depth, index := 0, launch := g.launch, refused := false,
          queued := false, spilled := spill, unit := u }
      let (k, s) := s.fresh
      let s := addChange { s with trigs := sInsert s.trigs k t } r 1 0
      if spill then
        let s := { s with regions := sAdjust s.regions r fun g =>
          { g with spills := sInsert g.spills u { sp with count := sp.count + 1, depth := max sp.depth wr.depth } } }
        setSpillBit s g gran u true
      else s

/-! ### Commits (R266, R387, R388) -/

/-- The bytes of one block that a commit writes, by address. -/
abbrev Bytes := List (Nat × Byte)

/-- The sectors that some bytes cover whole (R326). -/
def wholeSectors (bs : Bytes) : List Nat :=
  ((bs.map fun e => e.1 / 32).eraseDups).filter fun k => (bs.filter fun e => e.1 / 32 == k).length == 32

/-- Write bytes and release tags at their homes, clearing the poison mark of each sector written whole (R326). -/
def homeWrite (s : State) (bs : Bytes) (tag : Option (BitVec 3)) : State :=
  let s := bs.foldl (fun s e => setHomeByte s e.1 e.2) s
  let s := match tag with
    | none => s
    | some t => ((bs.map fun e => e.1 / 4).eraseDups).foldl (fun s w => s.setRelTag w t) s
  (wholeSectors bs).foldl (fun s k => s.setPoison k false) s

/-- birfdb's lines of a commit (R401), once for each watched granule it touches: region, the granule's offset in it, CU of the
writer, depth, the word before and after (the first that changes, else the first touched), what became of it (0 silent,
1 created, 2 joined, 3 refused), and the trigger's depth after it. -/
def traceCommit (s : State) (bs : Bytes) (wr : Writer) (s' : State) : State :=
  if s.dbg.traces.isEmpty then s'
  else
    let seen := bs.filterMap fun e =>
      match frameMap s e.1 with
      | none => none
      | some (r, page) =>
        match sFind? s.regions r with
        | none => none
        | some g =>
          if !g.live || !tracing s g.tag then none
          else some (r, g, g.base + BitVec.ofNat 64 (65536 * page + e.1 % 65536 / g.gran * g.gran), e)
    let grans := (seen.map fun h => (h.1, h.2.2.1)).eraseDups
    grans.foldl (fun t q =>
      let mine := seen.filter fun h => h.1 == q.1 && h.2.2.1 == q.2
      match mine with
      | [] => t
      | h :: _ =>
        let changed := mine.any fun m => homeByte s m.2.2.2.1 != m.2.2.2.2
        let what := if !changed then 0 else if h.2.1.casc < wr.depth then 3 else if (pendingTrig s q.1 q.2).isSome then 2 else 1
        let e := ((mine.find? fun m => homeByte s m.2.2.2.1 != m.2.2.2.2).getD h).2.2.2
        let wordAt (s : State) : Nat := ofBytes ((List.range 4).map fun i => homeByte s (e.1 / 4 * 4 + i))
        let depth := match pendingTrig s' q.1 q.2 with
          | some (_, p) => p.depth
          | none => 0
        note t [1, q.1, (q.2 - h.2.1.base).toNat, wr.cu, wr.depth, wordAt s, wordAt s', what, depth]) s'

/-- The watched granules in which some bytes, one commit's, differ from what stood there: region, granule, its address in
memory (R388). -/
def changedGrans (s : State) (bs : Bytes) : List (Nat × Addr × Nat) :=
  (bs.filterMap fun e =>
    if homeByte s e.1 == e.2 then none
    else
      match frameMap s e.1 with
      | none => none
      | some (r, page) =>
        match sFind? s.regions r with
        | none => none
        | some g =>
          if !g.live then none
          else
            let off := e.1 % 65536 / g.gran * g.gran
            some (r, g.base + BitVec.ofNat 64 (65536 * page + off), e.1 / 65536 * 65536 + off)).eraseDups

/-- The triggers of one commit whose bytes stand at their homes in `s`; `old` is the state before it. Where a trigger spills, the
unit's red.or of its bit is a commit as well, at depth 0 (R387, R393); `fuel` bounds how far bitmaps that are watched themselves
go on (log 84). -/
def commitOver : Nat → State → State → Bytes → Writer → State
  | 0, _, s, _, _ => s
  | fuel + 1, old, s, bs, wr =>
    traceCommit old bs wr ((changedGrans old bs).foldl (fun s h =>
      match sFind? s.regions h.1 with
      | some g =>
        let t := changed s h.1 g h.2.1 h.2.2 wr
        if t.trigs.any fun e => e.2.region == h.1 && e.2.granule == h.2.1 && e.2.spilled then
          match spillBit s g h.2.1 (unitOf h.2.2) with
          | some (pa, _) => commitOver fuel s t [(pa, homeByte t pa)] Writer.plain
          | none => t
        else t
      | none => s) s)

/-- ONE COMMIT: bytes applied at their homes, tags set to `tag` or kept when none, and a trigger for each watched
granule with a changed byte (R387 to R389). -/
def commit (s : State) (bs : Bytes) (tag : Option (BitVec 3)) (wr : Writer) : State :=
  commitOver 8 s (homeWrite s bs tag) bs wr

/-- A trigger unit clears a bit of the bitmap, which is a commit (R387, R393). -/
def clearSpillBit (s : State) (r : Region) (gran : Addr) (unit : Nat) : State :=
  let t := setSpillBit s r gran unit false
  match spillBit s r gran unit with
  | some (pa, _) => commitOver 8 s t [(pa, homeByte t pa)] Writer.plain
  | none => t

/-! ### Recalls, invalidations, write-backs (R309, R310, R315) -/

/-- The dirty bytes of an L1 word. -/
def dirtyBytes (word : Nat) (x : L1Word) : Bytes :=
  ((List.range 4).filter fun i => bit x.dirty i).map fun i => (4 * word + i, byteOf x.data.toNat i)

/-- An L1 holds every byte of a word's sector dirty and none of it poisoned: the sector has been written whole there. -/
def wholeHere (s : State) (c : CuId) (word : Nat) : Bool :=
  (List.range 8).all fun i =>
    match s.l1 c (word / 8 * 8 + i) with
    | some x => x.dirty == 15 && !x.poison
    | none => false

/-- A word's mark goes home with its write-back: a poisoned word marks the sector, a sector written whole loses its mark
(R326). -/
def carryMark (s : State) (c : CuId) (word : Nat) (x : L1Word) : State :=
  if x.poison then s.setPoison (word / 8) true else if wholeHere s c word then s.setPoison (word / 8) false else s

/-- Write a word's dirty bytes back to its home, with its tag and its mark; the copy stays, clean (R310, R319, R326). -/
def writeBackWord (s : State) (c : CuId) (word : Nat) : State :=
  match s.l1 c word with
  | none => s
  | some x =>
    if x.dirty == 0 then s
    else (commit (carryMark s c word x) (dirtyBytes word x) (some x.rel) ⟨x.depth, none, false, c⟩).setL1 c word
      { x with dirty := 0, depth := 0 }

/-- Sharers of a line, over its words (R314). -/
def lineSharers (s : State) (line : Nat) : List CuId :=
  ((s.mem.dir.filter fun e => e.1 / 32 == line).flatMap fun e => e.2.sharers).eraseDups

/-- Add a wt sharer. A ninth sharer of the line makes the slice mark whole dies instead of naming CUs (R314). -/
def addSharer (s : State) (word : Nat) (c : CuId) : State :=
  let d := s.dir word
  let s := s.setDir word ⟨d.owner, if d.sharers.contains c then d.sharers else d.sharers ++ [c]⟩
  let line := word / 32
  let all := (lineSharers s line).filter fun c => c < 1024
  if all.length ≤ 8 then s
  else
    let m := all.foldl (fun (m : BitVec 8) c => m ||| ((1 : BitVec 8) <<< dieOf c)) (sGet 0 s.mem.wide line)
    { s with mem := { s.mem with wide := sSet 0 s.mem.wide line m } }

/-- Recall a word from its owner: dirty bytes go home; the owner drops the word, or keeps a clean copy and becomes a
sharer (R315). One that a proxy of another package owns stays until the proxy has written it back (log 75). -/
def recallWord (s : State) (word : Nat) (clean : Bool) : State :=
  let d := s.dir word
  match d.owner with
  | none => s
  | some c =>
    if 2048 ≤ c then s
    else
    let s := writeBackWord s c word
    if clean then
      let s := match s.l1 c word with
        | some x => s.setL1 c word { x with st := .wt }
        | none => s
      addSharer (s.setDir word ⟨none, d.sharers⟩) word c
    else (s.dropL1 c word).setDir word ⟨none, d.sharers⟩

/-- CUs that an invalidation of a word goes to: its sharers, and every CU of a die that is marked for the line; the owner
is recalled instead (R314). -/
def sharersOf (s : State) (word : Nat) : List CuId :=
  let d := s.dir word
  let m := sGet 0 s.mem.wide (word / 32)
  let all : List CuId :=
    if m == 0 then []
    else (s.cus.map fun e => e.1).filter fun c => bit m (dieOf c) && !d.sharers.contains c && d.owner != some c
      && match s.l1 c word with | some x => !x.sm | none => false
  d.sharers ++ all

/-- Invalidate the wt sharers of a word, all but one (R315). -/
def invalidateWord (s : State) (word : Nat) (keep : Option CuId) : State :=
  let d := s.dir word
  let s := ((sharersOf s word).filter fun c => some c != keep).foldl (fun s c => s.dropL1 c word) s
  s.setDir word ⟨d.owner, d.sharers.filter fun c => some c == keep⟩

/-- Drop a copy of a word, telling the home (evictions drop wt and si copies without a message; the sharer entry that
stays behind costs one needless invalidation and changes no value, so the model removes it). -/
def dropWord (s : State) (c : CuId) (word : Nat) : State :=
  let d := s.dir word
  (s.dropL1 c word).setDir word
    ⟨if d.owner == some c then none else d.owner, d.sharers.filter fun e => e != c⟩

/-- Write back a word's dirty bytes and drop the copy, whoever holds it. -/
def flushWord (s : State) (c : CuId) (word : Nat) : State := dropWord (writeBackWord s c word) c word

/-- The words of an L1, as the CU holds them now. -/
def l1Words (s : State) (c : CuId) : List Nat := (s.cu c).l1.map fun e => e.1

/-- Write back every dirty byte of tracked words of a CU (R310). -/
def flushDirty (s : State) (c : CuId) : State :=
  (l1Words s c).foldl (fun s w =>
    match s.l1 c w with
    | some x => if x.sm then s else writeBackWord s c w
    | none => s) s

/-- Write back every dirty byte of a CU, on software-managed pages as well, as evictions may at any time (R309, R318). -/
def flushAll (s : State) (c : CuId) : State := (l1Words s c).foldl (fun s w => writeBackWord s c w) s

/-- All copies of a word, tracked or not, are written back and dropped in every CU. -/
def purgeWord (s : State) (word : Nat) : State :=
  (s.cus.map fun e => e.1).foldl (fun s c => if (s.l1 c word).isSome then flushWord s c word else s) s

/-! ### Accumulation regions (R110, R111, R367 to R375) -/

/-- The region of an address (R368, R369). -/
def accEnt (s : State) (pa : Nat) : Option AccEnt := s.accCopy.find? fun e => e.start ≤ pa && pa < e.start + e.len

/-- A region homed in this package. -/
def accLocal (s : State) (e : AccEnt) : Bool := field e.start 51 44 == s.fab.pkg

/-- Set OVF in a region's entry: byte 20 in memory (R370). -/
def setOvf (s : State) (idx : Nat) : State :=
  let pa := bits s.sup.acctab 51 11 * 2048 + 32 * idx + 20
  let x := (coherentByte s pa).toNat
  if field x 1 1 == 1 then s else rawWrite s pa [BitVec.ofNat 8 (x + 2)]

/-- The element at an address as an integer. -/
def elemAt (s : State) (pa : Nat) : Int := (BitVec.ofNat 64 (ofBytes ((List.range 8).map fun i => homeByte s (pa + i)))).toInt

/-- Add to a delta of a line. -/
def addDelta (ds : Store Int) (i : Nat) (n : Int) : Store Int := sInsert ds i (sGet 0 ds i + n)

/-- The number under which the proxy of another package stands among the owners, sharers and holders of a line homed here
(R313, R314, R376; log 75). -/
def farUnit (pkg : BitVec 8) : CuId := 2048 + pkg.toNat

/-- Proxies of other packages among the holders of a line. -/
def Holders.far (h : Holders) : List CuId := h.list.filter fun c => 2048 ≤ c

/-- A word is owned by a proxy of another package, which has to give it back before the home serves it (R315). -/
def farOwns (s : State) (word : Nat) : Bool := match (s.dir word).owner with | some c => 2048 ≤ c | none => false

/-- The holders of a line in other packages, if any, have answered its drain (R375, R376). -/
def farDrained (s : State) (line : Nat) : Bool :=
  match sFind? s.holders line with
  | some h => h.far.isEmpty || (h.asked && h.owing.isEmpty)
  | none => true

/-- The number under which a proxy slice stands among the holders of a line (R313). -/
def proxyUnit (pa : Nat) : CuId := 1024 + 32 * field pa 39 37 + sliceOf pa

/-- The tag of a release write joins those of a line's elements; the wider scope stays (R266, R319, log 74). -/
def addTag (ts : Store (BitVec 3)) (i : Nat) (t : BitVec 3) : Store (BitVec 3) :=
  if t.toNat ≤ (sGet 0 ts i).toNat then ts else sInsert ts i t

/-- A proxy sends home everything that it withholds of a line, with some deltas more (R372, R376). -/
def pushProxy (s : State) (line : Nat) (more : Store Int) (depth : Nat) : State :=
  let p := (sFind? s.mem.accProx line).getD ⟨[], 0, 0, 0, 0⟩
  let ds := more.foldl (fun m d => addDelta m d.1 d.2) p.deltas
  if ds.isEmpty then s
  else
    let (k, s) := s.fresh
    let c : Combine := ⟨proxyUnit (128 * line), line, ds, [], p.withheld, max p.depth depth, false, none, 0⟩
    let (q, s) := sendOut s c.out (field (128 * line) 51 44) (field (128 * line) 39 37)
    let c := match q with | some q => { c with plane := some q.1, num := q.2 } | none => c
    { s with
      combines := sInsert s.combines k c
      mem := { s.mem with accProx := sAdjust s.mem.accProx line fun q => { q with deltas := [], withheld := 0, depth := 0 } } }

/-- A proxy merges deltas of the package's L1s into its own, within half of the limit that the remote home gave it, or
pushes them home with all that it withholds (R376). -/
def mergeProxy (s : State) (line : Nat) (deltas : Store Int) (depth : Nat) : State :=
  let mag := deltas.foldl (fun n d => n + d.2.natAbs) 0
  match sFind? s.mem.accProx line with
  | none => pushProxy s line deltas depth
  | some p =>
    if p.tracker + mag ≤ p.limit / 2 then
      let q : ProxyLine :=
        { p with
          deltas := deltas.foldl (fun m d => addDelta m d.1 d.2) p.deltas
          withheld := p.withheld + mag
          tracker := p.tracker + mag
          depth := max p.depth depth }
      { s with mem := { s.mem with accProx := sInsert s.mem.accProx line q } }
    else pushProxy s line deltas depth

/-- The home adds deltas to the elements of a line, exactly, as one commit; a sum outside 64 bits saturates and sets
OVF (R111, R372, R378, R379). The deltas of a line of another package meet its proxy (R376). -/
def combineAt (s : State) (line : Nat) (deltas : Store Int) (tags : Store (BitVec 3)) (depth : Nat) (cu : CuId) : State :=
  match accEnt s (128 * line) with
  | none => violate s 1 0x14 0 (128 * line) noSrc
  | some e =>
    if !accLocal s e then mergeProxy s line deltas depth
    else
    let r := deltas.map fun d => (128 * line + 8 * d.1, satS (elemAt s (128 * line + 8 * d.1) + d.2) 64)
    let bs := r.flatMap fun x => (bytesOf x.2.1.toNat 8).zipIdx.map fun b => (x.1 + b.2, b.1)
    let s := commit s bs (some 0) ⟨depth, none, false, cu⟩
    let s := tags.foldl (fun s t => (s.setRelTag (32 * line + 2 * t.1) t.2).setRelTag (32 * line + 2 * t.1 + 1) t.2) s
    if r.any fun x => x.2.2 then setOvf s e.idx else s

/-- The withholding limit L of a line's region; toward the package's own L1s, a proxy gives a part of the limit that
the remote home gave it (R376). -/
def lineL (s : State) (line : Nat) : Nat :=
  match accEnt s (128 * line) with
  | some e => if accLocal s e then 2 ^ e.j else ((sFind? s.mem.accProx line).map fun p => p.limit / 128).getD 0
  | none => 0

def State.holder (s : State) (line : Nat) : Holders := (sFind? s.holders line).getD ⟨[], lineL s line, false, [], false⟩

/-- A proxy lists 64 holders of a line; any beyond them has the limit 0 (R376). -/
def unlisted (s : State) (line : Nat) (c : CuId) : Bool := spaceOf s (128 * line) == .far && !(s.holder line).list.contains c

/-- An L1's update-only line pushes every withheld delta home at once; the line stays, or is dropped. -/
def pushLine (s : State) (c : CuId) (line : Nat) (drop : Bool) : State :=
  match sFind? (s.cu c).upd line with
  | none => s
  | some u =>
    let s := if u.deltas.isEmpty then s else combineAt s line u.deltas u.tags u.depth c
    let v := { u with deltas := [], tags := [], withheld := 0, tracker := 0, depth := 0, limit := if unlisted s line c then 0 else lineL s line }
    s.modCu c fun x => { x with upd := if drop then sErase x.upd line else sInsert x.upd line v }

/-- A holder's tracker falls by the magnitude of an acknowledged push (R372). -/
def lowerTracker (s : State) (c : CuId) (line mag : Nat) : State :=
  if 1024 ≤ c then
    { s with mem := { s.mem with accProx := sAdjust s.mem.accProx line fun p => { p with tracker := p.tracker - mag } } }
  else s.modCu c fun x => { x with upd := sAdjust x.upd line fun u => { u with tracker := u.tracker - mag } }

/-- Enter an L1 in the holder record of a line; a 65th holder marks it unbounded (R373). -/
def enterHolder (h : Holders) (c : CuId) : Holders :=
  if h.list.contains c then h
  else if 64 ≤ h.list.length then { h with unbounded := true }
  else { h with list := h.list ++ [c] }

/-- The limit that a line's home gives a holder: the line's, or 0 to one beyond the 64 that a proxy lists (R376). -/
def holderLimit (s : State) (line : Nat) (c : CuId) : Nat :=
  if unlisted s line c then 0 else (s.holder line).limit

/-- A JOIN at the home: it combines the addends, enters the L1 as a holder and gives it the limit (R371). On a
software-managed page it only performs the addition (R317). -/
def joinAt (s : State) (k : Nat) (r : Req) : State :=
  let ds : Store Int := r.accs.foldl (fun m a =>
    addDelta m (a.pa % 128 / 8) (BitVec.ofNat 64 (ofBytes a.data)).toInt) []
  let ts : Store (BitVec 3) := r.accs.foldl (fun m a => addTag m (a.pa % 128 / 8) r.rel) []
  let s := combineAt s r.blk ds ts r.depth r.cu
  let s :=
    if r.sm then s
    else
      let s := { s with holders := sInsert s.holders r.blk (enterHolder (s.holder r.blk) r.cu) }
      if (sFind? (s.cu r.cu).upd r.blk).isSome then s
      else s.modCu r.cu fun x => { x with upd := sInsert x.upd r.blk ⟨[], [], 0, 0, holderLimit s r.blk r.cu, 0, r.ctx⟩ }
  { s with reqs := sInsert s.reqs k { r with stage := .reply } }

/-- A join of a CU to a line that was sent before message `k` and has nothing earlier of its warp before it (R143, R372). -/
def sentJoins (s : State) (line : Nat) (c : CuId) (k : Nat) : List (Nat × Req) :=
  s.reqs.filter fun e => e.1 < k && e.2.kind == .acc && e.2.blk == line && e.2.cu == c && e.2.stage == .home && !e.2.dbgHold
    && !(s.reqs.any fun f => f.1 < e.1 && f.2.wid == e.2.wid && f.2.kind != .acc && (f.2.stage == .home || f.2.stage == .ext)
      && f.2.accs.any fun a => a.pa / 128 == line)

/-- The joins of a CU to a line that were sent before message `k` arrive (R372). -/
def joinFirst (s : State) (line : Nat) (c : CuId) (k : Nat) : State :=
  (sentJoins s line c k).foldl (fun s e => joinAt s e.1 e.2) s

/-- Combines of a line still on their way from L1s arrive, in the order in which each holder sent its messages, and their
acknowledgements return (R372). -/
def settle (s : State) (line : Nat) : State :=
  let mine := s.combines.filter fun e => e.2.line == line && e.2.cu < 1024
  let s := mine.foldl (fun s e =>
    lowerTracker (if e.2.acked then s
      else combineAt (joinFirst s line e.2.cu e.1) line e.2.deltas e.2.tags e.2.depth e.2.cu) e.2.cu line e.2.mag) s
  { s with combines := sFilter s.combines fun _ e => e.line != line || 1024 ≤ e.cu }

/-- A full drain of a line, or a recall, which also drops the lines and empties the list; λ returns to L (R375). -/
def drainLine (s : State) (line : Nat) (gone : Bool) : State :=
  let s := settle s line
  let first := s.holder line
  let s := (if first.unbounded then s.cus.map fun e => e.1 else first.list).foldl (fun s c => joinFirst s line c s.seq) s
  let h := s.holder line
  let units := if h.unbounded then s.cus.map fun e => e.1 else h.list
  let s := units.foldl (fun s c => pushLine s c line gone) s
  { s with holders :=
      if gone then sErase s.holders line
      else sInsert s.holders line { h with limit := lineL s line, owing := [], asked := false } }

/-- One holder leaves with a combine (R309, R363). -/
def leaveLine (s : State) (c : CuId) (line : Nat) : State :=
  let s := pushLine (joinFirst (settle s line) line c s.seq) c line true
  { s with holders := sAdjust s.holders line fun h => { h with list := h.list.filter fun x => x != c } }

/-- A proxy's update-only line leaves: its holders in the package push to it and drop theirs, and everything that it
withholds goes to the remote home (R309, R376). -/
def proxLeave (s : State) (line : Nat) : State :=
  let s := pushProxy (drainLine s line true) line [] 0
  { s with mem := { s.mem with accProx := sErase s.mem.accProx line } }

/-- A full drain of a proxy's line, which the remote home asks for: its limit returns to L, its holders in the package push to
it, and it pushes (R375, R376). -/
def proxDrain (s : State) (line l : Nat) : State :=
  let s := { s with mem := { s.mem with accProx := sAdjust s.mem.accProx line fun p => { p with limit := l } } }
  pushProxy (drainLine s line false) line [] 0

/-- Tighten one holder's line: it takes the limit and pushes everything where it withholds more (R374). -/
def tightenLine (s : State) (c : CuId) (line limit : Nat) : State :=
  match sFind? (s.cu c).upd line with
  | none => s
  | some u =>
    let s := if u.withheld > limit then pushLine (settle s line) c line false else s
    s.modCu c fun x => { x with upd := sAdjust x.upd line fun u => { u with limit := limit } }

/-- The remote home tightens a proxy's line: first the holders of the package, then the proxy, which pushes where it would
withhold more than half of the limit (R376). -/
def proxTighten (s : State) (line limit : Nat) : State :=
  let s := { s with
    mem := { s.mem with accProx := sAdjust s.mem.accProx line fun p => { p with limit := limit } }
    holders := sAdjust s.holders line fun h => { h with limit := limit / 128 } }
  let h := s.holder line
  let units := if h.unbounded then s.cus.map fun e => e.1 else h.list
  let s := units.foldl (fun s c => tightenLine (settle s line) c line (if h.list.contains c then limit / 128 else 0)) s
  match sFind? s.mem.accProx line with
  | some p => if limit / 2 < p.withheld then pushProxy s line [] 0 else s
  | none => s

/-! ### Proxies (R313, R319, R376) -/

/-- A proxy's word is written back: the remote home has accepted its bytes. -/
def proxClean (s : State) (word : Nat) : State :=
  (List.range 4).foldl (fun s i =>
    match sFind? s.mem.l2 (4 * word + i) with
    | some b =>
      { s with mem := { s.mem with bytes := sSet 0 s.mem.bytes (4 * word + i) b, l2 := sErase s.mem.l2 (4 * word + i) } }
    | none => s) s

/-- A proxy loses a word: the copies of the package's L1s go first, then its own. Requests that it would have served go to
the remote home. -/
def proxDrop (s : State) (word : Nat) : State :=
  if (proxOf s word).isNone then s
  else
    let s := invalidateWord (recallWord s word false) word none
    let keep {α : Type} (m : Store α) : Store α := sFilter m fun a _ => a / 4 != word
    { s with
      mem := { s.mem with
        bytes := keep s.mem.bytes
        l2 := keep s.mem.l2
        rel := sErase s.mem.rel word
        poison := if s.mem.prox.any fun e => e.1 / 8 == word / 8 && e.1 != word then s.mem.poison else sErase s.mem.poison (word / 8)
        prox := sErase s.mem.prox word }
      reqs := s.reqs.map fun e =>
        if e.2.stage == .home && e.2.accs.any fun a => a.pa / 128 == word / 32 then (e.1, { e.2 with stage := .ext }) else e }

/-- Drop the si copies of a CU on tracked pages, and those of the proxies, so that a later read of the CU meets neither (R255,
R267, R313, R317). -/
def dropSi (s : State) (c : CuId) : State :=
  let s := s.modCu c fun u => { u with l1 := sFilter u.l1 fun _ x => x.st != .si || x.sm }
  ((s.mem.prox.filter fun e => e.2.st == .si).map fun e => e.1).foldl proxDrop s

/-- A remote home takes a word back from the proxy that owns it: its owner here writes back; the proxy drops the word, or
keeps a clean copy as a sharer (R313, R315). -/
def proxRecall (s : State) (word : Nat) (clean : Bool) : State :=
  if proxOf s word != some .own then s
  else if !clean then proxDrop s word
  else
    let s := proxClean (recallWord s word true) word
    { s with mem := { s.mem with prox := sAdjust s.mem.prox word fun p => { p with st := .wt } } }

/-- Put a word that a remote home has granted into the proxy. -/
def proxFill (s : State) (word : Nat) (st : L1St) (ctx : Tag) (x : ExtWord) : State :=
  let s := proxDrop s word
  let s := { s with mem := { s.mem with
    bytes := (List.range 4).foldl (fun m i => sSet 0 m (4 * word + i) (byteOf x.data.toNat i)) s.mem.bytes
    prox := sInsert s.mem.prox word ⟨st, ctx⟩ } }
  let s := s.setRelTag word x.tag
  if x.poison then s.setPoison (word / 8) true else s

/-- Two halves of an aligned 8 bytes that a proxy has not been granted together are not kept together while one of them is an
si copy, so that no load finds parts of one write in them (R254). -/
def proxHalf (s : State) (word : Nat) (ws : List Nat) : State :=
  let other := word / 2 * 2 + (1 - word % 2)
  if ws.contains other || proxOf s other != some .si then s else proxDrop s other

/-! ### What a range of copies does: flushes, by word and line -/

/-- Proxies of other packages own words of a physical range, or withhold deltas of its lines, which have to come back before the
range's bytes are all here (R315, R375; log 75). -/
def farHolds (s : State) (pa n : Nat) : Bool :=
  (s.mem.dir.any fun e => pa ≤ 4 * e.1 && 4 * e.1 < pa + n && farOwns s e.1)
    || s.holders.any fun e => pa ≤ 128 * e.1 && 128 * e.1 < pa + n && !farDrained s e.1

/-- The proxies of other packages that hold lines of a physical range are asked to push and to let go (R375, R376). -/
def farAsk (s : State) (pa n : Nat) : State :=
  (s.holders.filter fun e => pa ≤ 128 * e.1 && 128 * e.1 < pa + n && !e.2.far.isEmpty && !e.2.asked).foldl (fun s e =>
    { s with holders := sAdjust s.holders e.1 fun h => { h with owing := h.far, asked := true } }) s

/-- Write back and drop every copy of a physical range in every CU and in the proxies, software-managed ones included, and those
that proxies of other packages share; update-only lines combine (R335, R355). -/
def purgeRange (s : State) (pa n : Nat) : State :=
  let words := (s.cus.flatMap fun e => (e.2.l1.map fun x => x.1).filter fun w => pa ≤ 4 * w && 4 * w < pa + n).eraseDups
  let lines := (s.holders.map fun e => e.1).filter fun l => pa ≤ 128 * l && 128 * l < pa + n
  let s := words.foldl purgeWord s
  let s := ((s.mem.dir.filter fun e => pa ≤ 4 * e.1 && 4 * e.1 < pa + n && !farOwns s e.1).map fun e => e.1).foldl
    (fun s w => invalidateWord s w none) s
  let s := ((s.mem.prox.map fun e => e.1).filter fun w => pa ≤ 4 * w && 4 * w < pa + n).foldl proxDrop s
  let s := lines.foldl (fun s l => drainLine s l true) s
  ((s.mem.accProx.map fun e => e.1).filter fun l => pa ≤ 128 * l && 128 * l < pa + n).foldl proxLeave s

/-- Fetch blocks leave an instruction cache (R163). -/
def icDrop (s : State) (c : CuId) (f : Nat → Bool) : State :=
  if (s.cu c).ic.isEmpty then s else s.modCu c fun u => { u with ic := sFilter u.ic fun k _ => !f k }

/-- A frame receives other bytes: no instruction cache keeps what it held (R349, R355). -/
def icForget (s : State) (pa n : Nat) : State :=
  (s.cus.map fun e => e.1).foldl (fun s c => icDrop s c fun b => pa ≤ 32 * b && 32 * b < pa + n) s

/-- A CU writes back and drops its lines of a context, and its update-only lines leave (R363). -/
def flushTag (s : State) (c : CuId) (t : Tag) : State :=
  let ws := ((s.cu c).l1.filter fun e => e.2.ctx == t).map fun e => e.1
  let ls := ((s.cu c).upd.filter fun e => e.2.ctx == t).map fun e => e.1
  let s := ws.foldl (fun s w => flushWord s c w) s
  ls.foldl (fun s l => leaveLine s c l) s

/-- A CU writes back its dirty bytes and empties its L1 (R292). -/
def emptyL1 (s : State) (c : CuId) : State :=
  let s := (l1Words s c).foldl (fun s w => flushWord s c w) s
  ((s.cu c).upd.map fun e => e.1).foldl (fun s l => leaveLine s c l) s

end Sys2Proof.Machine
end

