-- ==== Sys2Proof/Machine/Ops.lean ====
section
/-! DEFINITION. Named operations over the state: warps and their registers, groups and their scratchpads, full/empty
words and rings, host events, taking a trap and returning from one. -/

namespace Sys2Proof.Machine

open Sys2Proof

/-! ### Warps: lanes, issue address, registers -/

namespace Warp

def width (x : Warp) : Nat := x.lanes.length

/-- Lanes in a given state. -/
def inState (x : Warp) (t : LaneSt) : Mask :=
  maskOf ((List.range x.width).filter fun l => (x.lanes[l]?.map Lane.st) == some t)

def eligible (x : Warp) : Mask := x.inState .eligible

/-- Lanes that have not exited. -/
def alive (x : Warp) : Mask :=
  maskOf ((List.range x.width).filter fun l => (x.lanes[l]?.map Lane.st) != some .exited)

def exited (x : Warp) : Bool := x.lanes.all fun l => l.st == .exited

def vpc (x : Warp) (l : Nat) : Addr := (x.lanes[l]?.map Lane.vpc).getD 0

/-- The lowest vpc of some lanes. -/
def minVpc (x : Warp) (m : Mask) : Option Addr :=
  (lanesOf m).foldl (fun a l =>
    match a with
    | none => some (x.vpc l)
    | some v => some (if (x.vpc l).toNat < v.toNat then x.vpc l else v)) none

/-- The lanes that count for issue: all eligible ones, or those of an excursion (R18, R23). -/
def counted (x : Warp) : Mask := if x.exc == 0 then x.eligible else x.eligible &&& x.exc

/-- The issue address (R18). -/
def issueAddr (x : Warp) : Option Addr := x.minVpc x.counted

/-- The issue set at an address (R18). -/
def issueSet (x : Warp) (pc : Addr) : Mask :=
  maskOf ((lanesOf x.counted).filter fun l => x.vpc l == pc)

/-- Change the lanes of a mask. -/
def modLanes (x : Warp) (m : Mask) (f : Lane → Lane) : Warp :=
  { x with lanes := x.lanes.mapIdx fun i l => if bit m i then f l else l }

def setVpc (x : Warp) (m : Mask) (pc : Addr) : Warp := x.modLanes m fun l => { l with vpc := pc }
def setSt (x : Warp) (m : Mask) (t : LaneSt) : Warp := x.modLanes m fun l => { l with st := t }

/-- Vector register `n`, lane `l`. -/
def v (x : Warp) (n l : Nat) : Word := sGet 0 x.vr (64 * n + l)

/-- Write one lane of a vector register; a write to the latched range releases the collector latch (R201). -/
def setV (x : Warp) (n l : Nat) (a : Word) : Warp :=
  { x with vr := sSet 0 x.vr (64 * n + l) a,
           latchA := x.latchA.filter fun h => !(h.va ≤ n && n < h.va + h.n) }

/-- Scalar register `n`. -/
def s (x : Warp) (n : Nat) : Word := sGet 0 x.sr n

def setS (x : Warp) (n : Nat) (a : Word) : Warp := { x with sr := sSet 0 x.sr n a }

/-- Predicate register `n` as a mask; p7 reads 1 (R27). -/
def pMask (x : Warp) (n : Nat) : Mask := if n == 7 then fullMask x.width else sGet 0 x.pr n

def p (x : Warp) (n l : Nat) : Bool := bit (x.pMask n) l

/-- Write one lane's bit; a write to p7 is discarded (R49). -/
def setP (x : Warp) (n l : Nat) (b : Bool) : Warp :=
  if n == 7 then x else { x with pr := sSet 0 x.pr n (setBit (x.pMask n) l b) }

def cvReg (x : Warp) (n : Nat) : Cv := (sFind? x.cv n).getD Cv.zero

def setCv (x : Warp) (n : Nat) (c : Cv) : Warp := { x with cv := sSet Cv.zero x.cv n c }

/-- The lanes the predicate allows (R51). -/
def allowed (x : Warp) (p : Pr) : Mask :=
  (if p.neg then ~~~(x.pMask p.pred.val) else x.pMask p.pred.val) &&& fullMask x.width

/-- Set flags in FSTAT (R32). -/
def orFlags (x : Warp) (f : Word) : Warp := { x with fstat := x.fstat ||| f }

/-- RPTC (R34). -/
def rptc (x : Warp) : Word :=
  BitVec.ofNat 32 ((if x.rep.act then 2 ^ 31 else 0) + 2 ^ 8 * x.rep.total + x.rep.done)

end Warp

/-- WSTAT (R31); `own` reads it as the warp itself does. -/
def wstat (w : WarpId) (x : Warp) (own : Bool) : Word :=
  BitVec.ofNat 32
    ((if isSup w then 2 ^ 25 else 0) + (if x.exc != 0 then 2 ^ 24 else 0) + 2 ^ 16 * (x.spin % 256)
      + (if !own && x.hold == .chan then 2 ^ 15 else 0) + (if !own && x.hold == .bar then 2 ^ 14 else 0)
      + (if !own && x.hold == .idle then 2 ^ 13 else 0) + (if x.inState .ld != 0 then 2 ^ 12 else 0)
      + (if x.inState .fe != 0 then 2 ^ 11 else 0) + 16 * (x.width / 4 - 1))

/-- CTXT (R35). -/
def Warp.ctxt (x : Warp) : Word := x.tag.zeroExtend 32

/-! ### Host events and service requests (R433, R443, R444) -/

/-- Post an event of a context: entry, then PUT, as a release at scope sys; a full queue drops it and counts it (R250,
R433). -/
def postEvent (s : State) (q : DWord) (tag : Tag) (code word : Word) : State :=
  if !bit q 0 then s
  else
    let base := bits q 63 12 * 4096
    let n := 64 * 2 ^ bits q 11 8
    let put := coherentNat s base 4
    let get := coherentNat s (base + 4) 4
    if (put + 2 ^ 32 - get) % 2 ^ 32 == n then rawWriteNat s (base + 8) (coherentNat s (base + 8) 8 + 1) 8
    else
      let s := rawWriteNat s (base + 64 + 16 * (put % n))
        (tag.toNat + 2 ^ 32 * code.toNat + 2 ^ 64 * word.toNat + 2 ^ 96 * (s.fc % 2 ^ 32)) 16
      (rawWriteNat s base ((put + 1) % 2 ^ 32) 4).setRelTag (base / 4) 5

/-- Set bits of SVCREQ and SR with them; each rise of SR posts an event in every queue that is enabled (R443, R444). -/
def raiseSvc (s : State) (mask : Word) : State :=
  let was := bit s.sup.svcreq 31
  let v := s.sup.svcreq ||| mask ||| 0x80000000
  let s := { s with sup := { s.sup with svcreq := v } }
  if was then s else s.ctxs.foldl (fun s e => postEvent s e.2.evtq 0 0xFFFF0003 v) s

/-- The contexts with an incomplete launch whose rectangle has a CU on a die. -/
def State.tagsOnDie (s : State) (d : Nat) : List Tag :=
  ((s.launches.filter fun e =>
    ((List.range (e.2.w * e.2.h)).any fun k =>
      dieOf (cuAt (e.2.x0 + k % e.2.w) (e.2.y0 + k / e.2.w)) == d)).map fun e => e.2.tag).eraseDups

/-- A halt of a context's partition begins: its warps stop at their next boundaries (R305). Causes: 1 overrun, 2 eret.abort,
3 supervisor fault (R434). -/
def startHalt (s : State) (t : Tag) (cause : Nat) : State :=
  if (s.ctx t).halting != 0 || !(s.launches.any fun e => e.2.tag == t) then s
  else
    let s := s.modCtx t fun c => { c with halting := cause }
    { s with warps := s.warps.map fun e => if e.2.tag == t && !isSup e.1 then (e.1, { e.2 with preempt := true }) else e }

/-- The answer to a launch of a warp that is no more goes nowhere. -/
def dropReply (s : State) (w : WarpId) : State :=
  { s with cpq := (s.cpq.filter fun q => !(q.reply == some w && q.result.isSome)).map fun q =>
      if q.reply == some w then { q with reply := none } else q }

/-- A fault raised by a supervisor warp (R231): log, SVCREQ.SFLT, and a halt of each partition of the die. The warp
itself runs no further, and its place is free for another handler (log 22). -/
def supervisorFault (s : State) (w : WarpId) (cause : Nat) (addr : Addr) : State :=
  let c := cuOf (gidOf w)
  let s := violate s 8 cause 0 addr.toNat (srcOf c)
  let s := raiseSvc s 4
  let s := dropReply { s with warps := sErase s.warps w, order := s.order.filter fun v => v != w } w
  (s.tagsOnDie (dieOf c)).foldl (fun s t => startHalt s t 3) s

/-! ### Taking a trap and returning from one (R228 to R236) -/

/-- The hold that a trap leaves: a warp that waits in idle goes on waiting once it is resumed (R80). -/
def Hold.trapped (h : Hold) : Hold := if h == .idle then .idle else .none

/-- TAKING A TRAP: the one shared operation. The warp halts and the trap is recorded; a supervisor warp's fault is
handled under R231. FLM receives the lanes (R33, R232). -/
def takeTrap (s : State) (w : WarpId) (t : Trap) : State :=
  if isSup w then supervisorFault s w t.cause t.addr
  else s.modWarp w fun x => { x with halt := some t, flm := t.lanes, hold := x.hold.trapped, heldSet := 0, farRead := [] }

/-- A synchronous trap of the instruction under issue. -/
def syncTrap (c : Cur) (cause : Nat) (addr : Addr) (lanes : Mask) (inrep : Bool) : Trap :=
  { cause := cause, addr := addr, code := 0, lanes := lanes, async := false, inrep := inrep, brk := false,
    defl := none, data := [], addr0 := c.pc, next := if c.len3 then none else some c.next, queued := false }

/-- Take the pending asynchronous trap with the lowest cause (R228). -/
def takeAsync (s : State) (w : WarpId) : State :=
  match s.warp? w with
  | none => s
  | some x =>
    match x.asyncs.foldl (fun (m : Option Async) a =>
        match m with
        | none => some a
        | some b => if a.cause < b.cause then some a else some b) none with
    | none => s
    | some a =>
      let s := s.setWarp w { x with asyncs := x.asyncs.filter fun b => b.cause != a.cause }
      takeTrap s w
        { cause := a.cause, addr := a.addr, code := 0, lanes := a.lanes, async := true, inrep := x.rep.act,
          brk := false, defl := none, data := [], addr0 := 0, next := none, queued := false }

/-- A repetition is done for some lanes: when none is left, count it; past TOTAL the repeat ends and its lanes move on
(R34, R76). -/
def repDone (x : Warp) (rest : Mask) (next : Addr) : Warp :=
  if rest != 0 then { x with rep := { x.rep with only := some rest } }
  else if x.rep.done < x.rep.total then { x with rep := { x.rep with done := x.rep.done + 1, only := none } }
  else { x.setVpc x.rep.set next with rep := { x.rep with act := false, only := none } }

/-- RETURN FROM A TRAP: resume the halted warp (R234, R235). `skip` lanes of TRAPFLM pass the instruction; otherwise
they run it again and the lanes removed from TRAPFLM pass it. -/
def resume (x : Warp) (t : Trap) (skip : Bool) : Warp :=
  let live := x.alive
  let flm := x.flm &&& t.lanes &&& live
  let pass := if skip then flm else (t.lanes &&& live) &&& ~~~flm
  let x := { x with halt := none }
  if t.async then x
  else
    match t.next with
    | none => x
    | some n => if t.inrep then repDone x ((x.rep.only.getD x.rep.set &&& live) &&& ~~~pass) n else x.setVpc pass n

/-! ### Scratchpad windows (R29, R152) -/

namespace Group

/-- Bytes of the window. -/
def winSize (g : Group) : Nat := 256 * g.ty.scr

/-- A byte of the window; one that nothing has written is a free value (log 3). -/
def byte (g : Group) (off : Nat) : Byte :=
  match sFind? g.scr off with
  | some b => b
  | none => Config.freeByte g.seed off

def bytes (g : Group) (off n : Nat) : List Byte := (List.range n).map fun i => g.byte (off + i)

/-- A 32-bit word of the window. -/
def word (g : Group) (off : Nat) : Word := BitVec.ofNat 32 (ofBytes (g.bytes off 4))

/-- Write consecutive bytes; a word that is written whole loses its poison mark (R441). -/
def setBytes (g : Group) (off : Nat) (bs : List Byte) : Group :=
  { g with scr := bs.zipIdx.foldl (fun m e => sInsert m (off + e.2) e.1) g.scr,
           padPoison := sFilter g.padPoison fun k _ => !(off ≤ 4 * k && 4 * k + 4 ≤ off + bs.length) }

/-- A poison mark on some bytes of the window. -/
def padBad (g : Group) (off n : Nat) : Bool := g.padPoison.any fun e => e.2 && 4 * e.1 < off + n && off < 4 * e.1 + 4

def setWord (g : Group) (off : Nat) (x : Word) : Group := g.setBytes off (bytesOf x.toNat 4)

/-- The full/empty bit of the word at a byte offset (R155). -/
def isFull (g : Group) (off : Nat) : Bool := sGet false g.full (off / 4)

/-- A ring slot that a queued instruction has reserved (R159). -/
def isReserved (g : Group) (off : Nat) : Bool := sGet false g.reserved (off / 4)

/-- Bytes of a queued matrix operation's B, which writes wait for (R223). -/
def isHeld (g : Group) (off n : Nat) : Bool := g.held.any fun h => h.2.1 < off + n && off < h.2.1 + h.2.2

/-- An element of a tile; one that nothing has written is a free value (log 3). -/
def tileElem (g : Group) (t e : Nat) : Word :=
  match sFind? g.tiles (4096 * t + e) with
  | some x => x
  | none => Config.freeElem g.seed (4096 * t + e)

def setTileElem (g : Group) (t e : Nat) (x : Word) (poison : Bool) : Group :=
  { g with tiles := sInsert g.tiles (4096 * t + e) x, poison := sSet false g.poison (4096 * t + e) poison }

def tilePoisoned (g : Group) (t e : Nat) : Bool := sGet false g.poison (4096 * t + e)

def chan (g : Group) (n : Nat) : Chan := (sFind? g.chans n).getD ⟨0, 0, 0, 0⟩

def setChan (g : Group) (n : Nat) (c : Chan) : Group := { g with chans := sSet ⟨0, 0, 0, 0⟩ g.chans n c }

/-- Limits of the task type (R27, R28). -/
def nreg (g : Group) : Nat := 8 * (g.ty.nreg + 1)

end Group

/-- A channel entry as 64 bits (R30). -/
def Chan.pattern (c : Chan) : Nat := 2 ^ 44 * c.tail + 2 ^ 32 * c.head + 2 ^ 20 * c.depth + c.base

/-- The byte offset of slot `i` of a ring (R159). -/
def Chan.slotOff (c : Chan) (i : Nat) : Nat := c.base + 4 * (i % c.depth)

/-! ### Full/empty words and their waiters (R155 to R157) -/

/-- The key under which a CU tracks a word of a window. -/
def wordKey (g : GroupId) (off : Nat) : Nat := g * 2 ^ 20 + off / 4 * 4

/-- The waiter for which a word is reserved in the state in which it stands (R156). A mark that stands for the other
state reserves nothing until the word comes back to it. -/
def reservedFor (c : CU) (key : Nat) (full : Bool) : Option Waiter :=
  c.waiters.find? fun x => x.word == key && x.served && x.full == full

/-- A lane that is parked on a full/empty word becomes eligible (R17). -/
def Warp.wake (x : Warp) (l : Nat) : Warp :=
  if x.inState .fe &&& ((1 : Mask) <<< l) == 0 then x else x.setSt ((1 : Mask) <<< l) .eligible

/-- Serve the oldest tracked waiter for the state in which a word stands, where the word is not reserved in that state
(R156). -/
def serve (s : State) (g : GroupId) (off : Nat) : State :=
  match s.group? g with
  | none => s
  | some gr =>
    let c := s.cu (cuOf g)
    let key := wordKey g off
    if (reservedFor c key (gr.isFull off)).isSome then s
    else
      match c.waiters.find? fun x => x.tracked && x.word == key && x.full == gr.isFull off with
      | none => s
      | some x =>
        let s := s.setCu (cuOf g) { c with waiters := c.waiters.map fun y =>
          if y.wid == x.wid && y.lane == x.lane then { y with served := true } else y }
        s.modWarp x.wid fun w => w.wake x.lane

/-- Waiters leave their queues; a word that was reserved for one of them serves the next (R156). -/
def dropWaiters (s : State) (f : Waiter → Bool) : State :=
  s.cus.foldl (fun s e =>
    let gone := (s.cu e.1).waiters.filter f
    if gone.isEmpty then s
    else
      let s := s.modCu e.1 fun u => { u with waiters := u.waiters.filter fun x => !f x }
      gone.foldl (fun s x => if x.served then serve s (x.word / 2 ^ 20) (x.word % 2 ^ 20) else s) s) s

/-- An event of a group: a warp that waits in idle consumes it and waits no more; in every other warp it sets the latch
(R80). -/
def eventOf (s : State) (g : GroupId) : State :=
  (s.warpsOf g).foldl (fun s w => s.modWarp w fun x =>
    if x.hold == .idle then { x with hold := .none } else { x with latch := true }) s

/-- Change the full/empty bit of a word: latch on empty to full (R80), then serve waiters (R156). -/
def setFull (s : State) (g : GroupId) (off : Nat) (b : Bool) : State :=
  match s.group? g with
  | none => s
  | some gr =>
    let was := gr.isFull off
    let s := s.setGroup g { gr with full := sSet false gr.full (off / 4) b }
    let s := if b && !was then eventOf s g else s
    serve s g off

/-- Write bytes of a window. -/
def padWrite (s : State) (g : GroupId) (off : Nat) (bs : List Byte) : State :=
  s.modGroup g fun x => x.setBytes off bs

/-! ### Rings (R55, R67, R159) -/

/-- Full slots that a pop or peek may count: consecutive full, unreserved words from HEAD. -/
def fullCount (g : Group) (c : Chan) : Nat :=
  ((List.range c.depth).takeWhile fun i =>
    let o := c.slotOff (c.head + i); g.isFull o && !g.isReserved o).length

/-- Empty slots that a push may count: consecutive empty, unreserved words from TAIL, which no matrix operation holds
(R223). -/
def emptyCount (g : Group) (c : Chan) : Nat :=
  ((List.range c.depth).takeWhile fun i =>
    let o := c.slotOff (c.tail + i); !g.isFull o && !g.isReserved o && !g.isHeld o 4).length

/-- Take `n` elements from the head of a ring (Pop of R67). -/
def popN (s : State) (g : GroupId) (ch : Nat) : Nat → List Word × State
  | 0 => ([], s)
  | n + 1 =>
    match s.group? g with
    | none => ([], s)
    | some gr =>
      let c := gr.chan ch
      let o := c.slotOff c.head
      let x := gr.word o
      let s := s.setGroup g (gr.setChan ch { c with head := (c.head + 1) % c.depth })
      let s := setFull s g o false
      let (xs, s) := popN s g ch n
      (x :: xs, s)

/-- Read `n` elements from the head without taking them (Peek of R67), `skip` elements on. -/
def peekN (g : Group) (ch skip n : Nat) : List Word :=
  let c := g.chan ch
  (List.range n).map fun i => g.word (c.slotOff (c.head + skip + i))

/-- Push one element (Push of R67). -/
def pushOne (s : State) (g : GroupId) (ch : Nat) (x : Word) : State :=
  match s.group? g with
  | none => s
  | some gr =>
    let c := gr.chan ch
    let o := c.slotOff c.tail
    let s := s.setGroup g ((gr.setWord o x).setChan ch { c with tail := (c.tail + 1) % c.depth })
    setFull s g o true

/-- Push one element that may be poisoned: its slot is then marked, so that no pop delivers it (R151, R441). -/
def pushMarked (s : State) (g : GroupId) (ch : Nat) (x : Word) (bad : Bool) : State :=
  let o := ((s.group? g).map fun gr => (gr.chan ch).slotOff (gr.chan ch).tail).getD 0
  let s := pushOne s g ch x
  if bad then s.modGroup g fun gr => { gr with padPoison := sSet false gr.padPoison (o / 4) true } else s

/-- Reserve the slot at TAIL for a queued instruction: TAIL advances, the word stays empty (R130). -/
def reserveOne (s : State) (g : GroupId) (ch : Nat) : Nat × State :=
  match s.group? g with
  | none => (0, s)
  | some gr =>
    let c := gr.chan ch
    let o := c.slotOff c.tail
    (o, s.setGroup g { gr.setChan ch { c with tail := (c.tail + 1) % c.depth } with
      reserved := sSet false gr.reserved (o / 4) true })

/-- Fill a reserved slot (R130). -/
def fillSlot (s : State) (g : GroupId) (off : Nat) (x : Word) : State :=
  match s.group? g with
  | none => s
  | some gr =>
    let gr := gr.setWord off x
    setFull (s.setGroup g { gr with reserved := sSet false gr.reserved (off / 4) false }) g off true

/-! ### Special operands (R14, R15) -/

/-- The 32-bit value of a special for a lane. -/
def special (s : State) (w : WarpId) (x : Special) (l : Nat) : Word :=
  let c := cuOf (gidOf w)
  match x with
  | .zero => 0
  | .lane => BitVec.ofNat 32 l
  | .warp => BitVec.ofNat 32 (warpIndex w)
  | .group => BitVec.ofNat 32 ((s.group? (gidOf w)).map Group.index |>.getD 0)
  | .cux => if isCurator c then 0xFFFFFFFF else BitVec.ofNat 32 (cuX c)
  | .cuy => if isCurator c then 0xFFFFFFFF else BitVec.ofNat 32 (cuY c)
  | .die => BitVec.ofNat 32 (dieOf c)
  | .clk => BitVec.ofNat 32 s.fc

/-- The 64-bit value of a special (R48): clk reads the whole counter. -/
def special64 (s : State) (w : WarpId) (x : Special) (l : Nat) : DWord :=
  match x with
  | .clk => BitVec.ofNat 64 s.fc
  | _ => (special s w x l).zeroExtend 64

end Sys2Proof.Machine
end

