-- ==== Sys2Proof/Machine/Flags.lean ====
section
/-! DEFINITION. The flags of FSTAT (R32) and the result modes that set SAT (R67, R83, R92). -/

namespace Sys2Proof.Machine

open Sys2Proof

/-- Flag bits of FSTAT (R32). -/
def fNV : Word := 0x01
def fDZ : Word := 0x02
def fOF : Word := 0x04
def fUF : Word := 0x08
def fNX : Word := 0x10
def fAUF : Word := 0x20
def fSAT : Word := 0x40

/-- A flag where a condition holds. -/
def flagIf (c : Bool) (f : Word) : Word := if c then f else 0

/-- Deliver an exact integer at `m` bits under result mode M: wrapped, or clamped with SAT (R83, R92). -/
def deliver (md : SatMode) (v : Int) (m : Nat) : BitVec m × Word :=
  match md with
  | .wrap => (trunc v m, 0)
  | .sats => let r := satS v m; (r.1, flagIf r.2 fSAT)
  | .satn => let r := satU v m; (r.1, flagIf r.2 fSAT)

/-- A source as the mode reads it: signed under .sats, else unsigned (R83, R92). -/
def readAs {m : Nat} (sg : Bool) (x : BitVec m) : Int := if sg then x.toInt else (x.toNat : Int)

/-- The OR of the flags of all lanes (R32). -/
def orAll (fs : List Word) : Word := fs.foldl (· ||| ·) 0

end Sys2Proof.Machine
end

