-- ==== Sys2Proof/Machine/Operands.lean ====
section
/-! DEFINITION. Reading source fields and writing destination fields, in vector and scalar form, rings included (R46 to
R55, R67). A field's values are a list with one entry for each executing lane, ascending. -/

namespace Sys2Proof.Machine

open Sys2Proof

/-- An instruction under issue after the checks that come before its effect: its warp, group, the issue set, the
lanes the predicate allows, the lanes that execute, and whether it is in scalar form. -/
structure Issue where
  cur : Cur
  gid : GroupId
  set : Mask
  allow : Mask
  exec : Mask
  scalar : Bool
  rep : Bool
  imm : Word
deriving DecidableEq, Repr

namespace Issue

/-- The lanes the body runs for: every executing lane, or in scalar form the lowest (R52, R67). -/
def act (x : Issue) : List Nat := if x.scalar then (lanesOf x.exec).take 1 else lanesOf x.exec

def w (x : Issue) : WarpId := x.cur.w

end Issue

/-- A 32-bit immediate as a 64-bit source: bit 31 copied upward (R47). -/
def imm64 (x : Word) : DWord := x.signExtend 64

/-- A register, special or immediate operand for one lane, as 32 bits in a 64-bit value, or as 64 bits when `n` is 2
(R46 to R49). A quad is read by `srcQuad`. -/
def srcLane (s : State) (x : Issue) (wp : Warp) (o : Operand) (n l : Nat) : DWord :=
  match o with
  | .v k => if n == 2 then pairVal (wp.v k.val l) (wp.v (k.val + 1) l) else (wp.v k.val l).zeroExtend 64
  | .s k => if n == 2 then pairVal (wp.s k.val) (wp.s (k.val + 1)) else (wp.s k.val).zeroExtend 64
  | .p k => if wp.p k.val l then 1 else 0
  | .sp q => if n == 2 then special64 s x.w q l else (special s x.w q l).zeroExtend 64
  | .imm => if n == 2 then imm64 x.imm else x.imm.zeroExtend 64
  | .ch .. => 0

/-- The values of a source field for the executing lanes. A pop takes one element per lane from the head; a peek reads
the elements that a pop in its place would take (R53, R55). Either is an acquire, which may find an engine's write
(R256). -/
def gather (s : State) (x : Issue) (u : Option Use) : List DWord × State :=
  match u with
  | none => (x.act.map fun _ => 0, s)
  | some u =>
    match u.o, s.warp? x.w, s.group? x.gid with
    | .ch c pk, _, some g =>
      let n := x.act.length
      let s := dropSi s (cuOf x.gid)
      if pk then ((peekN g c.val 0 n).map fun e => e.zeroExtend 64, s)
      else
        let (es, s) := popN s x.gid c.val n
        (es.map fun e => e.zeroExtend 64, s)
    | o, some wp, _ => (x.act.map fun l => srcLane s x wp o u.n l, s)
    | _, _, _ => (x.act.map fun _ => 0, s)

/-- The values of fields A, B and C, taken in that order (R55). -/
def gather3 (s : State) (x : Issue) (h : Shape) : List DWord × List DWord × List DWord × State :=
  let (a, s) := gather s x h.a
  let (b, s) := gather s x h.b
  let (c, s) := gather s x h.c
  (a, b, c, s)

/-- Write one register operand for one lane: a vector lane, a scalar, or a predicate bit; `n` registers upward. -/
def putLane (wp : Warp) (o : Operand) (n l : Nat) (v : DWord) : Warp :=
  match o with
  | .v k => if n == 2 then (wp.setV k.val l (loWord v)).setV (k.val + 1) l (hiWord v) else wp.setV k.val l (loWord v)
  | .s k => if n == 2 then (wp.setS k.val (loWord v)).setS (k.val + 1) (hiWord v) else wp.setS k.val (loWord v)
  | .p k => wp.setP k.val l (v != 0)
  | _ => wp

/-- Write the destination field: one value for each executing lane, ascending; a ring takes one push for each (R49,
R53). -/
def scatter (s : State) (x : Issue) (u : Option Use) (vs : List DWord) : State :=
  match u with
  | none => s
  | some u =>
    match u.o with
    | .ch c _ => vs.foldl (fun s v => pushOne s x.gid c.val (loWord v)) s
    | o => s.modWarp x.w fun wp => (x.act.zip vs).foldl (fun wp e => putLane wp o u.n e.1 e.2) wp

/-- A scalar value of a field that has one value for the warp. -/
def scalarOf (s : State) (x : Issue) (u : Option Use) : DWord :=
  match u, s.warp? x.w with
  | some u, some wp => srcLane s x wp u.o u.n ((lanesOf x.exec).head?.getD 0)
  | _, _ => 0

/-- Four registers of a quad for a lane, lowest first (R140). -/
def srcQuad (wp : Warp) (o : Operand) (l : Nat) : List Word :=
  match o with
  | .v k => (List.range 4).map fun i => wp.v (k.val + i) l
  | .s k => (List.range 4).map fun i => wp.s (k.val + i)
  | _ => [0, 0, 0, 0]

/-- Write the registers of a destination from bytes: one register for up to 4 bytes, a pair for 8, a quad for 16. -/
def putBytes (wp : Warp) (o : Operand) (l : Nat) (bs : List Byte) : Warp :=
  let x := ofBytes bs
  (List.range ((bs.length + 3) / 4)).foldl (fun wp i =>
    let v := BitVec.ofNat 32 (x / 2 ^ (32 * i))
    match o with
    | .v k => wp.setV (k.val + i) l v
    | .s k => wp.setS (k.val + i) v
    | _ => wp) wp

/-- NUM of the first register of an operand (R46). -/
def regNum : Operand → Option Nat
  | .v k => some k.val
  | .s k => some (128 + k.val)
  | _ => none

/-- The operand with a NUM. -/
def regOperand (n : Nat) : Operand :=
  if h : n < 128 then .v ⟨n, h⟩ else if h : n - 128 < 64 then .s ⟨n - 128, h⟩ else .imm

end Sys2Proof.Machine
end

