-- ==== Sys2Proof/Machine/Front.lean ====
section
/-! DEFINITION. What every instruction of a warp shares: the checks before its effect, in the order of R64 (limits,
privilege, channel misuse), holds and parking (R19 to R21, R130, R131, R151), and what follows it (lanes advance, faulted
lanes trap, repeats count, spin rotation). -/

namespace Sys2Proof.Machine

open Sys2Proof

/-! ### Static questions about an instruction -/

/-- A matrix operation's operands: A's first register, extension, and whether it is mmaq. -/
def matArgs : Instr → Option (Nat × MatExt × Bool)
  | .mma _ (.v a) _ x | .mmas _ (.v a) _ x => some (a.val, x, false)
  | .mmaq _ (.v a) _ x => some (a.val, x, true)
  | _ => none

/-- Rows of A held by one lane: 64/W, rounded up where W does not divide 64 (R195, log 23). -/
def rowsPerLane (w : Nat) : Nat := (63 + w) / w

/-- Registers of A and, where A is asymmetric, of its headers (R195). -/
def matRegs (x : MatExt) (q : Bool) (w : Nat) : Nat :=
  let n := 16 * slabs x.ns * rowsPerLane w
  if q && (x.fa == .n8 || x.fa == .n4) then
    n + (slabs x.ns * (matSlab q x.fa x.fb).getD 0) / groupSize x.gs * rowsPerLane w
  else n

/-- Bytes of one column of B of mmaq (R196). -/
def colBytes (x : MatExt) : Nat :=
  (slabs x.ns * (matSlab true x.fa x.fb).getD 0) / groupSize x.gs
    * (groupSize x.gs * (if x.fb == .n4 then 4 else 8) / 8 + 4)

/-- Elements that a ring B pops (R196). -/
def matPops (x : MatExt) (q : Bool) : Nat := if q then 16 * colBytes x else 1024 * slabs x.ns

/-- The tile an instruction names (R204). -/
def tileOf : Instr → Option Nat
  | .mma _ _ _ x | .mmaq _ _ _ x | .mmas _ _ _ x => some x.dt.val
  | .accz _ t | .accld _ _ t _ _ _ | .accst _ _ t _ _ _ => some t.val
  | .accrd _ t _ _ | .accwr _ t _ _ => some t.tile.val
  | _ => none

/-- Supervisor-only (R37, R226, R237). -/
def needsSup : Instr → Bool
  | .eretReplay _ | .eretSkip _ | .eretFill _ | .eretAbort _ | .pgctlWrite .. | .acctabWrite .. | .watchtabWrite ..
  | .tlbiVa .. | .tlbiRange .. | .tlbiCtx .. | .tlbiAll _ | .tlbsync _ | .pgref .. | .pgcow .. | .pgtwin ..
  | .pgmig .. | .ctxsave .. | .ctxload .. => true
  | .mfs _ _ num _ => match sysReg num.toNat with | some r => !r.userR | none => false
  | .mts _ _ num _ => match sysReg num.toNat with | some r => !r.userW | none => false
  | _ => false

/-- Cross-lane instructions (R131). -/
def isCross : Instr → Bool
  | .shfl .. | .vote .. | .bcast .. | .redux .. | .scan .. => true
  | _ => false

/-- Instructions that write a value to memory, scratchpad or a channel, which set the spin counter to 0 (R22). -/
def resetsSpin (i : Instr) : Bool :=
  (match i with
    | .st .. | .stu .. | .sts .. | .stfe .. | .stff .. | .feset .. | .atom .. | .red .. | .cas .. | .acc .. | .accst ..
    | .xcopy .. | .mcast .. | .csrg .. => true
    | .chset .. => false
    | _ => match (shape i).d with | some u => u.o.isChan | none => false)

/-- A source field that pops or peeks, which is an acquire (R256). -/
def popsRing (i : Instr) : Bool :=
  [(shape i).a, (shape i).b, (shape i).c].any fun u => u.any fun u => u.o.isChan

/-- Acquires and fences raise every deferred error of their lanes, as exit does (R151, R182, R256, R258). -/
def raisesAll (i : Instr) : Bool :=
  match i with
  | .exit _ | .fence .. | .ldfe .. | .ldff .. | .wait .. | .bar .. => true
  | .ld _ _ _ _ x | .ldu _ _ _ _ x | .lds _ _ _ _ x | .accld _ _ _ _ _ x => x.ord == .acq
  | .atom _ _ _ _ _ x | .cas _ _ _ _ _ _ x => x.ord == .acq || x.ord == .ar
  | i => popsRing i

/-- Register numbers that an instruction names, by NUM (R19). -/
def namedRegs (i : Instr) (w : Nat) : List Nat :=
  let h := shape i
  (h.uses.flatMap fun u =>
    match regNum u.o with
    | some n => (List.range u.n).map fun k => n + k
    | none => [])
  ++ match matArgs i with
    | some (a, x, q) => (List.range (matRegs x q w)).map fun k => a + k
    | none => []

/-- The limits of R28: vector registers, tiles and channels of the task type; the last register of A or of its headers
lies below the register count (R195). -/
def limitsOk (i : Instr) (g : Group) (w : Nat) : Bool :=
  ((namedRegs i w).all fun n => n < g.nreg || 128 ≤ n)
    && (match matArgs i with | some (a, x, q) => a + matRegs x q w ≤ g.nreg | none => true)
    && ((shape i).uses.all fun u => match u.o with | .ch n _ => n.val < g.ty.chan | _ => true)
    && (match tileOf i with | some t => t < g.ty.tiles | none => true)

/-! ### Channel operands (R55) -/

/-- Channel fields in acting order: channel, push or source, peek. chset only configures its entry (R30, R190). -/
def chanFields (i : Instr) : List (Nat × Bool × Bool) :=
  match i with
  | .chset .. => []
  | _ =>
    let h := shape i
    let src := [h.a, h.b, h.c].filterMap fun u => u.bind fun u =>
      match u.o with | .ch n pk => some (n.val, false, pk) | _ => none
    let dst := match h.d with
      | some ⟨.ch n _, _, _⟩ => [(n.val, true, false)]
      | _ => []
    src ++ dst

/-- bcast, whose channel destination receives one element (R134, log 24). -/
def isBcast : Instr → Bool
  | .bcast .. => true
  | _ => false

/-- Forms that move one element for each executing lane whatever the kinds of their other operands: shfl and scan
(R132, R136), and accrd to a ring (R206). -/
def perLane : Instr → Bool
  | .shfl .. | .scan .. => true
  | .accrd _ _ d _ => d.isChan
  | _ => false

/-- Elements one channel field moves when `n` lanes execute (R53, R132, R134, R136, R196, R206). -/
def fieldNeed (i : Instr) (scalar : Bool) (n : Nat) : Nat :=
  match matArgs i with
  | some (_, x, q) => matPops x q
  | none => if isBcast i || (scalar && !perLane i) then 1 else n

/-- Channel misuse: an unconfigured entry, or more elements of one ring than its DEPTH (R30, R55). -/
def chanMisuse (i : Instr) (g : Group) (scalar : Bool) (n : Nat) : Bool :=
  let fs := chanFields i
  fs.any fun f =>
    (g.chan f.1).depth == 0
      || (g.chan f.1).depth < (fs.filter fun e => e.1 == f.1).length * fieldNeed i scalar n

/-- Source fields that read from ring `ch`, as multiples of one field's elements from its head, taken in order: a pop
moves on, and a peek reads what a pop in its place would take (R55). -/
def ringReads (ch : Nat) (fs : List (Nat × Bool × Bool)) : Nat :=
  let mine := fs.filter fun f => f.1 == ch && !f.2.1
  (mine.foldl (fun (r : Nat × Nat) f => (if f.2.2 then r.1 else r.1 + 1, max r.2 (r.1 + 1))) (0, 0)).2

/-- The rings hold the elements, and the room, that the executing lanes need (R20, R55). -/
def chanReady (i : Instr) (g : Group) (scalar : Bool) (n : Nat) : Bool :=
  let need := fieldNeed i scalar n
  let fs := chanFields i
  fs.all fun f =>
    if f.2.1 then need ≤ emptyCount g (g.chan f.1) else ringReads f.1 fs * need ≤ fullCount g (g.chan f.1)

/-- A slot that a channel source pops or reads holds poisoned data (R441). -/
def chanPoison (i : Instr) (g : Group) (scalar : Bool) (n : Nat) : Bool :=
  let fs := chanFields i
  !g.padPoison.isEmpty && fs.any fun f =>
    let c := g.chan f.1
    !f.2.1 && (List.range (ringReads f.1 fs * fieldNeed i scalar n)).any fun k => g.padBad (c.slotOff (c.head + k)) 4

/-! ### Registers in flight (R19, R130, R151) -/

/-- A load or atomic of the warp has yet to write this register for this lane; a scalar counts for every lane. -/
def inFlight (s : State) (w : WarpId) (n l : Nat) : Bool :=
  s.reqs.any fun e =>
    e.2.wid == w
      && match e.2.dst.bind regNum with
        | none => false
        | some b => e.2.accs.any fun a => b ≤ n && n < b + a.regs && (128 ≤ n || a.lane == l)

/-! ### Accesses not performed yet (R143, R256, R257) -/

/-- A push of deltas of the CU has not reached its home; an addend that it carries is not complete (R270, R372). -/
def pushing (s : State) (w : WarpId) : Bool :=
  s.combines.any fun e => e.2.cu == cuOf (gidOf w) && !e.2.acked

/-- A publish of the warp has not flipped its set yet; a release covers it (R271). -/
def publishOpen (s : State) (w : WarpId) : Bool := s.pubs.any fun p => p.wid == w

/-- A push of the warp stands in one of its queues, not filled yet (R130); a release covers it (R257). -/
def pushQueued (s : State) (w : WarpId) : Bool :=
  (s.warp? w).any fun x => (x.sfq ++ x.cvq).any fun q => q.dests.any fun d => match d with | .slot .. => true | _ => false

/-- A memory instruction of the warp has not been performed yet (R143, R257). -/
def openReq (s : State) (w : WarpId) : Bool :=
  (s.reqs.any fun e => e.2.wid == w && (e.2.stage == .home || e.2.stage == .ext)) || pushing s w || publishOpen s w
    || pushQueued s w

/-- Any access of the warp is outstanding. -/
def anyReq (s : State) (w : WarpId) : Bool :=
  (s.reqs.any fun e => e.2.wid == w) || pushing s w || publishOpen s w || pushQueued s w

/-- An acquire read has not returned: later accesses wait for it (R258). -/
def acquirePending (s : State) (w : WarpId) : Bool := (s.warp? w).any fun x => !x.acqReq.isEmpty

/-- Instructions that access a ring or a tile, beside those that memory bodies hold back themselves (R251, R258). -/
def touchesGroup (i : Instr) : Bool :=
  !(chanFields i).isEmpty || (tileOf i).isSome || (match i with | .chset .. => true | _ => false)

/-! ### Queued instructions and faulted marks -/

/-- A queued instruction of the warp has yet to write this register. -/
def queuedWrite (x : Warp) (n : Nat) : Bool :=
  (x.sfq ++ x.cvq).any fun q => q.dests.any fun d =>
    match d with
    | .vec k _ _ => k == n
    | .sca k _ => 128 + k == n
    | .slot .. => false

/-- Registers of a faulted mark, by NUM. -/
def Bad.regs (b : Bad) : List Nat := (List.range b.wid.regs).map fun k => b.num + k

/-- The faulted mark a lane meets at an instruction naming some registers: the one with the lowest NUM; a mark on a
scalar register meets every lane (R151, R228). -/
def badOf (x : Warp) (regs : List Nat) (all : Bool) (l : Nat) : Option Bad :=
  (x.bads.filter fun b => (b.lane == l || 128 ≤ b.num) && (all || b.regs.any fun n => regs.contains n)).foldl
    (fun m b => match m with | none => some b | some a => if b.num < a.num then some b else some a) none

/-! ### Faults of lanes and outcomes of a body -/

/-- A lane's fault: cause, address, and for a deferred error its width and register (R151). -/
structure LFault where
  lane : Nat
  cause : Nat
  addr : Addr
  defl : Option (Wid × Nat)
deriving DecidableEq, Repr

/-- What the effect of an instruction comes to: done (with faulted lanes, lanes that met a copy-on-write break, and lanes
whose vpc it has already placed), held without moving, or a trap of the whole issue set. -/
inductive Res
  | ok (s : State) (faults : List LFault) (cows : List (Nat × Addr)) (keep : Mask)
  | hold (h : Hold) (s : State)
  | trap (cause : Nat) (addr : Addr) (code : Word) (brk : Bool)

/-- An effect that changes the state and raises nothing. -/
def Res.done (s : State) : Res := .ok s [] [] 0

/-- What the shared checks come to: over, or the effect may run. -/
inductive Front
  | stop (s : State)
  | go (x : Issue) (stay : Mask) (pre : List LFault) (s : State)

/-- Mark the warp as waiting; its issue address is computed again next time. -/
def holdWarp (s : State) (w : WarpId) (h : Hold) : State := s.modWarp w fun x => { x with hold := h, heldSet := 0 }

/-- Hold the warp's issue slot for an instruction: nothing else issues until it can (R20). -/
def holdAt (s : State) (w : WarpId) (h : Hold) (set : Mask) : State :=
  s.modWarp w fun x => { x with hold := h, heldSet := set }

/-- End a spin excursion (R23). -/
def endExcursion (x : Warp) : Warp := { x with exc := 0, excCount := 0, spin := 0 }

/-- A queue that an instruction enters: the special-function queue or the conversion queue (R130). -/
inductive OpQueue | sf | cv
deriving DecidableEq, Repr

def queueOf : Instr → Option OpQueue
  | .rcp .. | .rsqrt .. | .sqrt .. | .exp2 .. | .log2 .. | .sin .. | .cos .. | .tanh .. => some .sf
  | .cvt .. | .pack .. | .unpack .. | .qpack .. | .qunpack .. => some .cv
  | _ => none

/-- The queue that an instruction enters holds 8 operations (R130). -/
def queueFull (i : Instr) (x : Warp) : Bool :=
  match queueOf i with
  | some .sf => 8 ≤ x.sfq.length
  | some .cv => 8 ≤ x.cvq.length
  | none => false

/-- pref neither parks nor faults (R161). -/
def neverParks : Instr → Bool
  | .pref .. => true
  | _ => false

/-- The faulted marks that the lanes of an instruction meet, with the lane that meets each (R151). -/
def marksMet (i : Instr) (x : Warp) (m : Mask) : List (Nat × Bad) :=
  if neverParks i then []
  else (lanesOf m).filterMap fun l => (badOf x (namedRegs i x.width) (raisesAll i) l).map fun b => (l, b)

/-- Of the marks met, those that trap now: the register of the lowest NUM, marked by one load with one cause (R228). -/
def marksTaken (bs : List (Nat × Bad)) : List LFault :=
  let first := bs.foldl (fun (m : Option Bad) e =>
    match m with
    | none => some e.2
    | some a => if e.2.num < a.num then some e.2 else some a) none
  match first with
  | none => []
  | some b => (bs.filter fun e => e.2.num == b.num && e.2.cause == b.cause && e.2.load == b.load).map fun e =>
      { lane := e.1, cause := e.2.cause, addr := e.2.addr, defl := some (e.2.wid, e.2.num) : LFault }

/-- Lanes of a warp that are parked at an address or below it (R131). -/
def parkedBelow (x : Warp) (pc : Addr) : Mask :=
  maskOf ((List.range x.width).filter fun l =>
    ((x.inState .ld) ||| (x.inState .fe)).getLsbD l && (x.vpc l).toNat ≤ pc.toNat)

/-- The lowest of some addresses. -/
def lowestAddr (a : Addr) (as : List Addr) : Addr := as.foldl (fun m e => if e.toNat < m.toNat then e else m) a

/-- The trap of faulted lanes: cause and address of the lowest (R149). Deferred errors alone carry DEFLD, and their
address is the lowest concerned (R151, R231). -/
def laneTrap (c : Cur) (fs : List LFault) (inrep : Bool) : Trap :=
  let m := maskOf (fs.map fun f => f.lane)
  let low := (lanesOf m).head?.bind fun l => fs.find? fun f => f.lane == l
  match low with
  | some f =>
    let a := if f.defl.isSome then lowestAddr f.addr (fs.map fun g => g.addr) else f.addr
    { syncTrap c f.cause a m inrep with defl := f.defl }
  | none => syncTrap c 0 0 m inrep

/-- Park lanes on loads; a parked excursion lane ends the excursion (R19, R23). -/
def parkLoad (s : State) (w : WarpId) (m : Mask) (regs : Nat → List Nat) : State :=
  s.modWarp w fun x =>
    let y := { x with lanes := x.lanes.mapIdx fun l e => if bit m l then { e with st := .ld, wait := regs l } else e }
    if x.exc &&& m != 0 then endExcursion y else y

/-- THE CHECKS BEFORE THE EFFECT, in the order of R64: illegal encoding and limits (0x01), privilege (0x02), channel
misuse (0x16); then the waits of R131 and R130, deferred errors, which a cross-lane instruction takes whole (R137, log 72), the
holds of R131 and R21, parking (R19), the channel stall (R20), and the waits of a push, which is a release, and of any
access behind an acquire (R256, R258). A lane that the predicate does not allow moves on even where every other parks.
Channel misuse is counted on the issue set as it stands, before any of those waits, and for a ring B at every signature
(log 81). -/
def front (i : Instr) (s : State) (c : Cur) : Front :=
  match s.warp? c.w, s.group? (gidOf c.w) with
  | some x, some g =>
    let h := shape i
    let trap (cause : Nat) : Front := .stop (takeTrap s c.w (syncTrap c cause c.pc c.set x.rep.act))
    if !i.wellFormed || !limitsOk i g x.width then trap 0x01
    else if needsSup i && !isSup c.w then trap 0x02
    else
      let allow := x.allowed h.pr &&& c.set
      let n := (lanesOf allow).length
      let below := parkedBelow x c.pc
      if n != 0 && chanMisuse i g h.scalar n then trap 0x16
      else if isCross i && below != 0 then .stop (holdAt s c.w .parked below)
      else
        let regs := namedRegs i x.width
        let issue (exec : Mask) : Issue :=
          { cur := c, gid := gidOf c.w, set := c.set, allow := allow, exec := exec, scalar := h.scalar,
            rep := x.rep.act, imm := h.imm.getD 0 }
        if n == 0 then .go (issue 0) 0 [] s
        else if regs.any (queuedWrite x) || queueFull i x then .stop (holdAt s c.w .other c.set)
        else
          let bads := marksMet i x allow
          let pre := marksTaken bads
          let badm := maskOf (bads.map fun b => b.1)
          let waits (l : Nat) : List Nat := if neverParks i then [] else regs.filter fun n => inFlight s c.w n l
          let park := maskOf ((lanesOf (allow &&& ~~~badm)).filter fun l => !(waits l).isEmpty)
          if isCross i && !pre.isEmpty then .stop (takeTrap s c.w (laneTrap c pre x.rep.act))
          else if isCross i && park != 0 then .stop (holdAt s c.w .other c.set)
          else if x.rep.act && park != 0 then .stop (holdWarp s c.w .other)
          else
            let exec := allow &&& ~~~badm &&& ~~~park
            if exec != 0 && matArgs i == none && !chanReady i g h.scalar (lanesOf exec).length then
              .stop (holdAt s c.w .chan c.set)
            else if exec != 0 && ((openReq s c.w && (chanFields i).any fun f => f.2.1)
                || (acquirePending s c.w && touchesGroup i)) then
              .stop (holdAt s c.w .other c.set)
            else if exec != 0 && matArgs i == none && chanPoison i g h.scalar (lanesOf exec).length then
              .stop (takeTrap s c.w (syncTrap c 0x30 c.pc exec x.rep.act))
            else
              let s := if park == 0 then s else parkLoad s c.w park waits
              .go (issue exec) (park ||| badm) pre s
  | _, _ => .stop s

/-- The pages on which some lanes have met a break, with their entries as the walks read them (R344, R348). -/
def cowPages (s : State) (t : Tag) (cows : List (Nat × Addr)) : List CowPage :=
  cows.foldl (fun ps e =>
    if ps.any fun p => p.va.toNat / 65536 == e.2.toNat / 65536 then ps
    else ps ++ [⟨e.2, match walk s t e.2 with | .leaf x _ _ => x | _ => 0, none⟩]) []

/-- The lanes that met a break wait for it, and enter FLM, beside lanes of the instruction that trap (R348). -/
def waitBreak (s : State) (c : Cur) (cows : List (Nat × Addr)) (trapped : Bool) : State :=
  if cows.isEmpty then s
  else
    let cm := maskOf (cows.map fun e => e.1)
    let ps := cowPages s (((s.warp? c.w).map Warp.tag).getD 0) cows
    s.modWarp c.w fun w =>
      { w with cow := some ⟨c.pc, c.next, cm, ps⟩, flm := if trapped then w.flm ||| cm else cm, hold := .other }

/-- AFTER THE EFFECT: lanes advance (R18), faulted lanes trap (R149), lanes that met a break wait for it (R348), a repeat
counts (R76, R77). -/
def finish (i : Instr) (x : Issue) (stay : Mask) (pre : List LFault) (s : State) (faults : List LFault)
    (cows : List (Nat × Addr)) (keep : Mask) : State :=
  let c := x.cur
  let fm := maskOf (pre.map fun f => f.lane) ||| maskOf (faults.map fun f => f.lane)
  let cm := maskOf (cows.map fun e => e.1)
  let rest := x.set &&& (fm ||| cm ||| stay)
  let s := s.modWarp c.w fun w =>
    let w := { w with hold := w.hold.trapped, heldSet := 0,
                      excCount := if w.exc == 0 then 0 else w.excCount + 1,
                      spin := if resetsSpin i && (x.exec &&& ~~~keep) != 0 then 0 else w.spin }
    if x.rep then
      repDone w (fm ||| cm ||| stay) c.next
    else w.setVpc (x.set &&& ~~~rest &&& ~~~keep) c.next
  if !pre.isEmpty then waitBreak (takeTrap s c.w (laneTrap c pre x.rep)) c cows true
  else if !faults.isEmpty then waitBreak (takeTrap s c.w (laneTrap c faults x.rep)) c cows true
  else waitBreak s c cows false

/-- Put the outcome of a body together with what the checks found. -/
def close (i : Instr) (x : Issue) (stay : Mask) (pre : List LFault) (s : State) : Res → State
  | .ok s' faults cows keep => finish i x stay pre s' faults cows keep
  | .hold h s' => holdAt s' x.w h x.set
  | .trap cause addr code brk =>
    takeTrap s x.w { syncTrap x.cur cause addr x.set x.rep with code := code, brk := brk }

/-- THE MEANING OF AN INSTRUCTION THAT A WARP ISSUES: the shared checks, its own effect, and what follows. -/
def run (i : Instr) (s : State) (body : Issue → State → Res) : Host.Outcome State Fault Refusal :=
  match s.cur with
  | none => .fault .noIssuingWarp
  | some c =>
    match front i s c with
    | .stop s' => .next s'
    | .go x stay pre s' =>
      .next (close i x stay pre s' (if x.exec == 0 then .done s' else body x s'))

/-- Merge flags into FSTAT (R32). -/
def orFstat (s : State) (w : WarpId) (f : Word) : State :=
  if f == 0 then s else s.modWarp w fun x => x.orFlags f

/-- The body of a form that maps its sources to its destination lane by lane (R67): `f` gives a lane's result and
flags from its values of A, B and C. -/
def mapBody (i : Instr) (f : DWord → DWord → DWord → DWord × Word) (x : Issue) (s : State) : Res :=
  let h := shape i
  let (a, b, c, s) := gather3 s x h
  let rs := (a.zip (b.zip c)).map fun e => f e.1 e.2.1 e.2.2
  let s := orFstat s x.w (orAll (rs.map fun r => r.2))
  .done (scatter s x h.d (rs.map fun r => r.1))

/-- An instruction that maps its sources to its destination lane by lane. -/
def mapLanes (i : Instr) (s : State) (f : DWord → DWord → DWord → DWord × Word) : Host.Outcome State Fault Refusal :=
  run i s (mapBody i f)

end Sys2Proof.Machine
end

