-- ==== Sys2Proof/Machine/Signing.lean ====
section
/-! DEFINITION. Convergence signing and the issue of matrix operations (R197 to R201), and the order of tile operations
(R204): what waits for what. -/

namespace Sys2Proof.Machine

open Sys2Proof

/-! ### Matrix instructions as one kind -/

/-- B's operand and the extension of a matrix instruction. -/
def matOf : Instr → Option (Nat × Operand × MatExt)
  | .mma _ (.v a) b x | .mmaq _ (.v a) b x | .mmas _ (.v a) b x => some (a.val, b, x)
  | _ => none

/-- The registers from vA that an operation reads, A and headers. -/
def matCount (i : Instr) (w : Nat) : Nat :=
  match matArgs i with
  | some (_, x, q) => matRegs x q w
  | none => 0

/-- Bytes of a scratchpad B (R196, R218). -/
def matBBytes : Instr → Nat
  | .mma _ _ _ x => 4096 * slabs x.ns
  | .mmaq _ _ _ x => 64 * colBytes x
  | .mmas _ _ _ x => 128 + 4096 * slabs x.ns
  | _ => 0

/-- The instruction with its predicate taken away, as signatures are compared (R197). -/
def noPred : Instr → Instr
  | .mma _ a b x => .mma ⟨0, false⟩ a b x
  | .mmaq _ a b x => .mmaq ⟨0, false⟩ a b x
  | .mmas _ a b x => .mmas ⟨0, false⟩ a b x
  | i => i

/-! ### The order of tile operations (R204) -/

/-- An accld of the group on a tile is under way. -/
def tileLoading (s : State) (g : GroupId) (t : Nat) : Bool :=
  s.reqs.any fun e => (match e.2.kind with | .tileLd _ => true | _ => false) && gidOf e.2.wid == g && e.2.blk == t

/-- A tile operation of the group on a tile has been issued and is not complete. -/
def tilePending (s : State) (g : GroupId) (t : Nat) : Bool :=
  ((s.cu (cuOf g)).matq.any fun q => q.gid == g && tileOf q.ins == some t)
    || tileLoading s g t

/-- An element of a tile carries a poison mark (R208). -/
def tileHasPoison (g : Group) (t : Nat) : Bool := g.poison.any fun e => e.1 / 4096 == t && e.2

/-! ### Issue (R198, R199) -/

/-- A of every lane at the issue: captured where signed, else read now. Keys are 128·lane + register offset. -/
def matA (x : Warp) (va n : Nat) (c : Cv) : Store Word :=
  (List.range x.width).foldl (fun m l =>
    (List.range n).foldl (fun m k =>
      sSet 0 m (128 * l + k) (if bit c.signed l then sGet 0 c.cap (128 * l + k) else x.v (va + k) l)) m) []

/-- Capture the A words of signing lanes (R198). -/
def capture (x : Warp) (va n : Nat) (m : Mask) (c : Cv) : Cv :=
  { c with cap := (lanesOf m).foldl (fun cap l =>
      (List.range n).foldl (fun cap k => sSet 0 cap (128 * l + k) (x.v (va + k) l)) cap) c.cap }

/-- Whether a complete set may issue: now; after a wait for queue, ring or a pending acquire; or not, with a cause and an
address (R199, R208, R258). -/
inductive MatGo
  | go
  | wait
  | bad (cause : Nat) (addr : Addr)
deriving DecidableEq, Repr

/-- The checks on a set that is complete (R196, R199). A tile that holds a poisoned element stops an operation that
reads it (R208), and so does a poisoned element of B (R441); `pc` is the address of the operation. -/
def matGo (s : State) (w : WarpId) (i : Instr) (pc : Addr) : MatGo :=
  match s.warp? w, s.group? (gidOf w), matOf i with
  | some x, some g, some (_, b, e) =>
    let full := 8 ≤ ((s.cu (cuOf (gidOf w))).matq.filter fun q => (matOf q.ins).isSome).length || acquirePending s w
    let next (poisoned : Bool) : MatGo :=
      if full then .wait
      else if !e.za && (tileHasPoison g e.dt.val || tileLoading s (gidOf w) e.dt.val) then
        if tilePending s (gidOf w) e.dt.val then .wait else .bad 0x30 pc
      else if poisoned then .bad 0x30 pc
      else .go
    match b with
    | .ch c _ =>
      if (matArgs i).any fun a => fullCount g (g.chan c.val) < matPops a.2.1 a.2.2 then .wait
      else next (chanPoison i g false 0)
    | o =>
      let off := (srcLane s ⟨⟨w, 0, 0, 0, false⟩, gidOf w, 0, 0, 0, true, false, 0⟩ x o 1 0).toNat
      if off % 128 != 0 then .bad 0x04 (BitVec.ofNat 64 off)
      else if g.winSize < off + matBBytes i then .bad 0x11 (BitVec.ofNat 64 off)
      else next (g.padBad off (matBBytes i))
  | _, _, _ => .wait

/-- The ring of a set's B lacks elements: a stall on a channel operand, and no other wait of matGo (R31). -/
def ringShort (s : State) (w : WarpId) (i : Instr) : Bool :=
  match s.group? (gidOf w), matOf i with
  | some g, some (_, .ch c _, _) => (matArgs i).any fun a => fullCount g (g.chan c.val) < matPops a.2.1 a.2.2
  | _, _ => false

/-- MATRIX_OP_ISSUE: the operation issues once, with A as captured, and B taken now (R198). A scratchpad B stays held
until the operation is complete (R223). -/
def matIssue (s : State) (w : WarpId) (cv : Nat) : State :=
  match s.warp? w, s.group? (gidOf w) with
  | some x, some g =>
    let c := x.cvReg cv
    match c.ins.bind fun i => (matOf i).map fun m => (i, m) with
    | none => s
    | some (i, va, b, e) =>
      let n := matCount i x.width
      let a := matA x va n c
      let (k, s) := s.fresh
      let (bs, s) : List Byte × State := match b with
        | .ch ch _ =>
          let (es, s) := popN (dropSi s (cuOf (gidOf w))) (gidOf w) ch.val ((matArgs i).elim 0 fun a => matPops a.2.1 a.2.2)
          (es.flatMap fun q => bytesOf q.toNat 4, s)
        | o =>
          let off := (srcLane s ⟨⟨w, 0, 0, 0, false⟩, gidOf w, 0, 0, 0, true, false, 0⟩ x o 1 0).toNat
          (g.bytes off (matBBytes i), s.modGroup (gidOf w) fun g => { g with held := (k, off, matBBytes i) :: g.held })
      let latch : Option LatchA := if e.ru then some ⟨va, e.fa, e.ns, e.gs, n, a⟩ else none
      let s := s.modWarp w fun x => { x.setCv cv { c with signed := 0, ins := none, cap := [] } with latchA := latch }
      s.modCu (cuOf (gidOf w)) fun u => { u with matq := u.matq ++ [⟨w, gidOf w, i, a, bs, k⟩] }
  | _, _ => s

/-- A set is complete when every expected lane has signed (R26, R198). -/
def Cv.complete (c : Cv) : Bool := c.ins.isSome && c.expected &&& ~~~c.signed == 0

/-- mma, mmaq and mmas: the signing lanes sign together; the last signature issues the operation (R197 to R199). -/
def signBody (i : Instr) (x : Issue) (s : State) : Res :=
  match s.warp? x.w, matArgs i with
  | some wp, some (va, e, _) =>
    let c := wp.cvReg e.cv.val
    let bad := c.expected == 0 || x.exec &&& ~~~c.expected != 0 || x.exec &&& c.signed != 0
      || (c.signed != 0 && c.ins.map noPred != some (noPred i))
    if bad then .trap 0x16 x.cur.pc 0 false
    else
      let n := matCount i wp.width
      let c' := { capture wp va n x.exec c with signed := c.signed ||| x.exec, ins := if c.signed == 0 then some i else c.ins }
      let sign (s : State) : State := s.modWarp x.w fun wp => wp.setCv e.cv.val c'
      if !c'.complete then .done (sign s)
      else
        match matGo s x.w i x.cur.pc with
        | .bad cause addr => .ok s ((lanesOf x.exec).map fun l => ⟨l, cause, addr, none⟩) [] 0
        | .wait => .hold (if ringShort s x.w i then .chan else .other) s
        | .go => .done (matIssue (sign s) x.w e.cv.val)
  | _, _ => .done s

/-- Remove exiting lanes from the expected masks; a set that this completes issues, waits, or fails (R26, R199). -/
def exitSets (s : State) (w : WarpId) (m : Mask) (pc : Addr) : State :=
  (List.range 8).foldl (fun s k =>
    match s.warp? w with
    | none => s
    | some x =>
      let c := x.cvReg k
      if c.expected &&& m == 0 then s
      else
        let c := { c with expected := c.expected &&& ~~~m }
        let s := s.modWarp w fun x => x.setCv k c
        if !c.complete then s
        else
          match c.ins.map fun i => matGo s w i pc with
          | some .go => matIssue s w k
          | some .wait =>
            s.modCu (cuOf (gidOf w)) fun u =>
              { u with defMat := u.defMat ++ [⟨w, ⟨k % 8, Nat.mod_lt _ (by decide)⟩⟩] }
          | some (.bad cause addr) =>
            let s := s.modWarp w fun x => x.setCv k { c with signed := 0, ins := none, cap := [] }
            if x.exited then violate s 1 cause x.tag addr.toNat (srcOf (cuOf (gidOf w)))
            else addAsync s w ⟨cause, addr, 0⟩
          | none => s) s

end Sys2Proof.Machine
end

