-- ==== Sys2Proof/Machine/Barrier.lean ====
section
/-! DEFINITION. The armature's barriers (R180 to R184), lanes that exit (R26, R75), and fatal faults with cluster abort
(R358, R359). -/

namespace Sys2Proof.Machine

open Sys2Proof

/-! ### Barriers -/

/-- A group's name at the armature. -/
def Group.gname (g : Group) : GName := ⟨g.launch, g.index⟩

/-- The resident group with a name. -/
def groupNamed (s : State) (n : GName) : Option (GroupId × Group) := s.groups.find? fun e => e.2.gname == n

/-- The key of barrier `n`: a package barrier, or one of the group's cluster (R180). -/
def barKey (g : Group) (cl : Bool) (n : Nat) : Option Nat :=
  if cl then if n < 16 then g.cluster.map fun c => 64 + 16 * c + n else none
  else if n < 64 then some n else none

def State.bar (s : State) (k : Nat) : Barrier := (sFind? s.bars k).getD Barrier.free
def State.setBar (s : State) (k : Nat) (b : Barrier) : State := { s with bars := sSet Barrier.free s.bars k b }

/-- A barrier that the group's warps may use: in range, and a package barrier allotted to its context (R180). -/
def barUsable (s : State) (g : Group) (cl : Bool) (n : Nat) : Option Nat :=
  (barKey g cl n).bind fun k => if cl || (s.bar k).owner == some g.tag then some k else none

/-- A warp of a member group has arrived or exited; the warps of a group that suffered a fatal fault count (R359). -/
def barCounts (s : State) (b : Barrier) (gr : Group) (w : WarpId) : Bool :=
  gr.failed || (b.arrived.any fun a => a.group == gr.gname && a.warp == warpIndex w)
    || ((s.warp? w).map Warp.exited).getD true

/-- The warps of a saved group that have not exited (R184). -/
def savedLive (s : State) (n : GName) : Option (List Nat) :=
  match s.saved.find? fun e => e.group.gname == n with
  | some e => some ((e.warps.filter fun w => !w.2.exited && !e.group.failed).map fun w => warpIndex w.1)
  | none => ((sFind? s.launches n.launch).bind fun l => l.savedOut.find? fun o => o.1 == n.index).map fun o => o.2

/-- Every warp of every member group has arrived or exited (R181), the warps of saved groups too (R184). -/
def barComplete (s : State) (b : Barrier) : Bool :=
  !b.arrived.isEmpty && b.members.all fun n =>
    match groupNamed s n with
    | some (g, gr) => (s.warpsOf g).all fun w => barCounts s b gr w
    | none =>
      match savedLive s n with
      | some ws => ws.all fun w => b.arrived.any fun a => a.group == n && a.warp == w
      | none => false

/-- BARRIER_GENERATION: a complete generation advances, and every warp of every member gets its event (R181, R80). -/
def barAdvance (s : State) (k : Nat) : State :=
  let b := s.bar k
  if barComplete s b then
    let s := s.setBar k { b with gen := b.gen + 1, arrived := [] }
    b.members.foldl (fun s n => match groupNamed s n with | some (g, _) => eventOf s g | none => s) s
  else s

/-- Test every barrier in which a group is a member. -/
def barAdvanceOf (s : State) (n : GName) : State :=
  ((s.bars.filter fun e => e.2.members.contains n).map fun e => e.1).foldl barAdvance s

/-- A group that retires leaves every barrier (R183). -/
def barLeave (s : State) (n : GName) : State :=
  ((s.bars.filter fun e => e.2.members.contains n).map fun e => e.1).foldl (fun s k =>
    let b := s.bar k
    barAdvance (s.setBar k { b with members := b.members.filter fun m => m != n,
                                    waits := b.waits.filter fun a => a.group != n }) k) s

/-! ### Lanes that exit (R26, R75) -/

/-- birfdb prints the exit of a warp that a command resumed (R456). -/
def noteExit (s : State) (w : WarpId) (x : Warp) : State :=
  if s.dbg.tag != some x.tag then s
  else
    let s := if s.dbg.resumed.contains w then note s [9, w] else s
    { s with dbg := { s.dbg with
        resumed := s.dbg.resumed.filter fun v => v != w, lastEvt := s.fc,
        stepping := s.dbg.stepping.filter fun p => p.1 != w } }

/-- Lanes of a warp exit: their states, their convergence registers, the excursion, the words they waited for, their
barriers. -/
def exitLanes (s : State) (w : WarpId) (m : Mask) (pc : Addr) : State :=
  let s := s.modWarp w fun x =>
    let x := x.setSt m .exited
    if x.exc != 0 && x.exc &&& x.alive == 0 then endExcursion x else x
  let s := dropWaiters (exitSets s w m pc) fun q => q.wid == w && bit m q.lane
  match s.warp? w, s.group? (gidOf w) with
  | some x, some g => if x.exited then noteExit (barAdvanceOf s g.gname) w x else s
  | _, _ => s

/-! ### Fatal faults (R358, R359) -/

/-- Peer index of a group in its cluster, in row-major order from its origin (R153). -/
def peerIndex (c : Cluster) (g : GroupId) : Nat := (cuY (cuOf g) - c.y0) * c.side + (cuX (cuOf g) - c.x0)

/-- Lanes that wait for a word of a failed window from outside are released to meet the error response (R359). -/
def releaseWaiters (s : State) (g : GroupId) : State :=
  let c := s.cu (cuOf g)
  let out := c.waiters.filter fun x => x.word / 2 ^ 20 == g && gidOf x.wid != g
  let s := s.setCu (cuOf g) { c with waiters := c.waiters.filter fun x => !out.contains x }
  out.foldl (fun s x => s.modWarp x.wid fun w => w.wake x.lane) s

/-- A group has suffered a fatal fault: its warps exit at their next boundary, and the other groups of its cluster take
cluster abort, each at most once (R358, R359). -/
def fatalFault (s : State) (g : GroupId) : State :=
  match s.group? g with
  | none => s
  | some gr =>
    if gr.failed then s
    else
      let s := s.setGroup g { gr with failed := true }
      let s := (s.warpsOf g).foldl (fun s w => s.modWarp w fun x => { x with exitNow := true }) s
      let s := barAdvanceOf s gr.gname
      match gr.cluster.bind fun k => sFind? s.clusters k with
      | none => s
      | some c =>
        if c.side ≤ 1 then s
        else
          let s := releaseWaiters s g
          (c.groups.filter fun h => h != g).foldl (fun s h =>
            match s.group? h with
            | none => s
            | some o =>
              if o.failed || o.abortTaken then s
              else
                let s := s.setGroup h { o with abortTaken := true }
                (s.warpsOf h).foldl (fun s w =>
                  addAsync s w ⟨0x21, BitVec.ofNat 64 (peerIndex c g * 2 ^ 20), 0⟩) s) s

end Sys2Proof.Machine
end

