-- ==== Sys2Proof/Decode.lean ====
section
/-! DEFINITION. Instruction words (R40 to R63): the common fields, the decoder, which is total and refuses by name,
and the encoder, both written from the encoding tables R57, R82, R116, R141, R166, R192, R193, R212, R217, R218,
R226 and R237. -/

namespace Sys2Proof

open Machine (bits bit field bytesOf ofBytes)

/-- The fields of an instruction (R40): the common 64 bits and what follows them. `hi` holds bits 95:64 of a 96-bit
instruction or 127:64 of a 128-bit one, and is zero otherwise. -/
structure Raw where
  len : BitVec 2
  op : BitVec 8
  pred : BitVec 3
  pneg : Bool
  mod : BitVec 6
  d : BitVec 11
  a : BitVec 11
  b : BitVec 11
  c : BitVec 11
  hi : BitVec 64
deriving DecidableEq, Repr

/-- Why a word is no instruction. -/
inductive Reject
  | truncated         -- fewer bytes than the length asks for
  | length            -- LEN is 0b11 or not accepted by the opcode (R41, R61)
  | opcode            -- unassigned (R60)
  | field             -- an operand, modifier or extension code the form does not define (R46, R62)
  | reserved          -- a reserved bit or unused field is not zero (R42, R50)
  | illFormed         -- an operand kind, pairing or limit of the form is broken (R47 to R54)
deriving DecidableEq, Repr

/-- Bytes of an instruction by LEN (R41). -/
def lenBytes (len : BitVec 2) : Nat := if len == 0 then 8 else if len == 1 then 12 else 16

/-- The first 64 bits (R40). -/
def Raw.low (r : Raw) : BitVec 64 :=
  r.c ++ r.b ++ r.a ++ r.d ++ r.mod ++ BitVec.ofBool r.pneg ++ r.pred ++ r.op ++ r.len

/-- The instruction as bytes, lowest address first (R40). -/
def Raw.bytes (r : Raw) : List Byte :=
  bytesOf r.low.toNat 8 ++ bytesOf r.hi.toNat (lenBytes r.len - 8)

/-- The fields of the instruction at the head of some bytes. -/
def Raw.read (bs : List Byte) : Except Reject Raw :=
  match bs with
  | [] => .error .truncated
  | b0 :: _ =>
    let len := b0.extractLsb' 0 2
    if len == 3 then .error .length
    else if bs.length < lenBytes len then .error .truncated
    else
      let x := BitVec.ofNat 64 (ofBytes (bs.take 8))
      .ok { len := x.extractLsb' 0 2, op := x.extractLsb' 2 8, pred := x.extractLsb' 10 3, pneg := bit x 13,
            mod := x.extractLsb' 14 6, d := x.extractLsb' 20 11, a := x.extractLsb' 31 11,
            b := x.extractLsb' 42 11, c := x.extractLsb' 53 11,
            hi := BitVec.ofNat 64 (ofBytes ((bs.take (lenBytes len)).drop 8)) }

/-- Lengths an opcode accepts, as LEN codes; none where it is unassigned (R60, R61). -/
def opLengths (op : Nat) : List Nat :=
  if op == 0x00 then [0, 1]
  else if op == 0x01 || op == 0x03 then [1]
  else if op == 0x02 || (0x04 ≤ op && op ≤ 0x08) then [0]
  else if op == 0x10 || op == 0x16 || op == 0x17 || op == 0x1F then [0, 1]
  else if op == 0x13 || op == 0x14 then [1]
  else if 0x11 ≤ op && op ≤ 0x1E then [0]
  else if 0x20 ≤ op && op ≤ 0x3E then [0, 1]
  else if (0x40 ≤ op && op ≤ 0x49) || (0x50 ≤ op && op ≤ 0x55) || (0x60 ≤ op && op ≤ 0x64)
    || (0x68 ≤ op && op ≤ 0x6F) || (0x70 ≤ op && op ≤ 0x74) then [0, 1]
  else if 0x80 ≤ op && op ≤ 0x90 then [2]
  else if 0xA0 ≤ op && op ≤ 0xA4 then [2]
  else if op == 0xA5 || (0xAA ≤ op && op ≤ 0xAC) then [0]
  else if 0xA6 ≤ op && op ≤ 0xAE then [0, 1]
  else if op == 0xC3 || op == 0xCB || op == 0xCC then [0]
  else if op == 0xC6 || op == 0xC7 then [0, 1]
  else if 0xC0 ≤ op && op ≤ 0xCA then [2]
  else []

/-! ### Codes of the modifiers -/

/-- The value with a given code in a list of values in code order. -/
def ofCode {α : Type} (l : List α) (n : Nat) : Option α := l[n]?

def SatMode.codes : List SatMode := [.wrap, .sats, .satn]
def ICond.codes : List ICond := [.eq, .ne, .lt, .le, .gt, .ge]
def ExtW.codes : List ExtW := [.b8, .b16, .b32]
def RMode.codes : List RMode := [.rne, .rtz, .rup, .rdn]
def FTy.codes : List FTy := [.f32, .f16, .bf16]
def SMod.codes : List SMod := [.none, .neg, .abs, .nabs]
def FCond.codes : List FCond := [.eq, .ne, .lt, .le, .gt, .ge, .un, .ord]
def PackFmt.codes : List PackFmt := [.f16, .bf16, .f8e4, .f8e5, .s8, .s4]
def Seg.codes : List Seg := [.w, .s4, .s8, .s16, .s32]
def ShflMode.codes : List ShflMode := [.idx, .up, .down, .xor]
def VoteMode.codes : List VoteMode := [.any, .all, .ballot, .eq]
def ReduxOp.codes : List ReduxOp :=
  [.add, .minS, .minN, .maxS, .maxN, .and, .or, .xor, .fadd, .fmin, .fmax, .add64]
def ReqType.codes : List ReqType := [.own, .wt, .si, .unc]
def Order.codes : List Order := [.rlx, .acq, .rel, .ar]
def Scope.codes : List Scope := [.cu, .cl, .die, .pkg, .gal, .sys]
def Wid.codes : List Wid := [.b1, .b2, .b4, .b8, .b16]
def FenceKind.codes : List FenceKind := [.acq, .rel, .ar, .sc]
def MFmt.codes : List MFmt := [.bf16, .f16, .f8e4, .f8e5, .s8, .s4, .n8, .n4]
def Special.codes : List Special := [.zero, .lane, .warp, .group, .cux, .cuy, .die, .clk]

/-- The code of a value: its place in the list. -/
def codeOf {α : Type} [DecidableEq α] (l : List α) (x : α) : Nat := l.idxOf x

/-- WIDE and M of mul64 (R92). -/
def Mul64Mode.codes : List (Nat × Mul64Mode) :=
  [(0, .full .wrap), (1, .full .sats), (2, .full .satn), (4, .wideN), (8, .wideS)]

/-! ### Operand fields (R45, R46) -/

/-- The 11 bits of an operand field. -/
def Operand.enc : Operand → BitVec 11
  | .v n => BitVec.ofNat 11 n.val
  | .s n => BitVec.ofNat 11 (128 + n.val)
  | .p n => BitVec.ofNat 11 (192 + n.val)
  | .sp x => BitVec.ofNat 11 (200 + codeOf Special.codes x)
  | .imm => 255
  | .ch n pk => BitVec.ofNat 11 (1024 + (if pk then 512 else 0) + n.val)

/-- The operand a field names, where it names one. -/
def Operand.dec (f : BitVec 11) : Option Operand :=
  let n := f.toNat
  if h : n < 128 then some (.v ⟨n, h⟩)
  else if h : n - 128 < 64 then some (.s ⟨n - 128, h⟩)
  else if h : n - 192 < 8 then some (.p ⟨n - 192, h⟩)
  else if n < 208 then (ofCode Special.codes (n - 200)).map .sp
  else if n == 255 then some .imm
  else if n < 1024 then none
  else if h : n - 1024 < 16 then some (.ch ⟨n - 1024, h⟩ false)
  else if h : n - 1536 < 16 then if 1536 ≤ n then some (.ch ⟨n - 1536, h⟩ true) else none
  else none

/-! ### Extensions -/

/-- The memory extension (R56). -/
def MemExt.enc (x : MemExt) : BitVec 64 :=
  x.opx ++ BitVec.ofBool x.pv ++ x.peer ++ (0 : BitVec 2) ++ x.tol ++ BitVec.ofNat 3 (codeOf Scope.codes x.scp)
    ++ BitVec.ofNat 2 (codeOf Order.codes x.ord) ++ BitVec.ofNat 2 (codeOf ReqType.codes x.rt)
    ++ BitVec.ofNat 3 (codeOf Wid.codes x.wid) ++ x.off

/-- The memory extension of bits 127:64. -/
def MemExt.dec (h : BitVec 64) : Option MemExt := do
  let scp ← ofCode Scope.codes (bits h 41 39)
  let ord ← ofCode Order.codes (bits h 38 37)
  let rt ← ofCode ReqType.codes (bits h 36 35)
  let wid ← ofCode Wid.codes (bits h 34 32)
  some { opx := h.extractLsb' 56 8, pv := bit h 55, peer := h.extractLsb' 49 6, tol := h.extractLsb' 42 5,
         scp := scp, ord := ord, rt := rt, wid := wid, off := h.extractLsb' 0 32 }

/-- The matrix extension (R193). -/
def MatExt.enc (x : MatExt) : BitVec 64 :=
  (0 : BitVec 43) ++ BitVec.ofBool x.za ++ BitVec.ofNat 2 x.gs.val ++ BitVec.ofNat 2 x.ns.val
    ++ BitVec.ofNat 4 (codeOf MFmt.codes x.fb) ++ BitVec.ofNat 4 (codeOf MFmt.codes x.fa) ++ BitVec.ofBool x.ru
    ++ BitVec.ofNat 3 x.cv.val ++ (0 : BitVec 1) ++ BitVec.ofNat 3 x.dt.val

/-- A number below `n`, where it is. -/
def finOf (n k : Nat) : Option (Fin n) := if h : k < n then some ⟨k, h⟩ else none

/-- The matrix extension of bits 127:64. -/
def MatExt.dec (h : BitVec 64) : Option MatExt := do
  let gs ← finOf 3 (bits h 19 18)
  let ns ← finOf 3 (bits h 17 16)
  let fb ← ofCode MFmt.codes (bits h 15 12)
  let fa ← ofCode MFmt.codes (bits h 11 8)
  let cv ← finOf 8 (bits h 6 4)
  let dt ← finOf 8 (bits h 2 0)
  some { za := bit h 20, gs := gs, ns := ns, fb := fb, fa := fa, ru := bit h 7, cv := cv, dt := dt }

/-- The engine extension of xcopy (R212). -/
def EngExt.enc (x : EngExt) : BitVec 64 :=
  x.doff ++ (0 : BitVec 7) ++ BitVec.ofBool x.dsp ++ (0 : BitVec 4) ++ x.arr

/-- The engine extension of bits 127:64. -/
def EngExt.dec (h : BitVec 64) : EngExt :=
  { doff := h.extractLsb' 32 32, dsp := bit h 24, arr := h.extractLsb' 0 20 }

/-- The multicast extension (R217). -/
def McExt.enc (x : McExt) : BitVec 64 := x.sstr ++ x.rb ++ x.rows ++ x.arr

/-- The multicast extension of bits 127:64. -/
def McExt.dec (h : BitVec 64) : McExt :=
  { sstr := h.extractLsb' 40 24, rb := h.extractLsb' 28 12, rows := h.extractLsb' 20 8, arr := h.extractLsb' 0 20 }

/-- The gather extension of csrg (R218). -/
def GatherExt.enc (x : GatherExt) : BitVec 64 :=
  (0 : BitVec 38) ++ BitVec.ofNat 4 (codeOf MFmt.codes x.fmt) ++ BitVec.ofNat 2 x.ns.val ++ x.arr

/-- The gather extension of bits 127:64. -/
def GatherExt.dec (h : BitVec 64) : Option GatherExt := do
  let fmt ← ofCode MFmt.codes (bits h 25 22)
  let ns ← finOf 3 (bits h 21 20)
  some { fmt := fmt, ns := ns, arr := h.extractLsb' 0 20 }

/-! ### The encoder -/

/-- The common fields of a 64-bit form. -/
def rawP (op mod : Nat) (p : Pr) (d a b c : BitVec 11) : Raw :=
  { len := 0, op := BitVec.ofNat 8 op, pred := BitVec.ofNat 3 p.pred.val, pneg := p.neg, mod := BitVec.ofNat 6 mod,
    d := d, a := a, b := b, c := c, hi := 0 }

/-- A 64-bit or, with an immediate, 96-bit form (R61). -/
def rawH (op mod : Nat) (h : Hdr) (d a b c : BitVec 11) : Raw :=
  match h.imm with
  | none => rawP op mod h.pr d a b c
  | some w => { rawP op mod h.pr d a b c with len := 1, hi := w.zeroExtend 64 }

/-- A 96-bit form whose immediate is its own (R61). -/
def rawI (op mod : Nat) (p : Pr) (d a : BitVec 11) (w : Word) : Raw :=
  { rawP op mod p d a 0 0 with len := 1, hi := w.zeroExtend 64 }

/-- A 128-bit form with an extension. -/
def rawX (op mod : Nat) (p : Pr) (d a b c : BitVec 11) (x : BitVec 64) : Raw :=
  { rawP op mod p d a b c with len := 2, hi := x }

/-- MOD of the floating-point forms: SM, TY, RM (R116). -/
def fMod (sm : SMod) (ty : FTy) (low : Nat) : Nat := 16 * codeOf SMod.codes sm + 4 * codeOf FTy.codes ty + low

/-- The always-true predicate (R51). -/
def Pr.always : Pr := ⟨7, false⟩

/-- TILE, COL and LANE of accrd and accwr (R192). -/
def TileIdx.code (t : TileIdx) : Nat := 16 * t.lane.toNat + 8 * t.col.toNat + t.tile.val

/-- NUMBER and INDEX of a system register (R237). -/
def sysImm (num : BitVec 12) (idx : BitVec 8) : Word := (0 : BitVec 12) ++ idx ++ num

/-- The fields of an instruction, by the encoding tables; none for a step of another unit. -/
def toRaw : Instr → Option Raw
  | .nop h => some (rawH 0x00 0 h 0 0 0 0)
  | .bra p disp => some (rawI 0x01 0 p 0 0 disp)
  | .brx p a => some (rawP 0x02 0 p 0 a.enc 0 0)
  | .call p ind d a disp => some (rawI 0x03 ind.toNat p d.enc a.enc disp)
  | .ret p a => some (rawP 0x04 0 p 0 a.enc 0 0)
  | .exit p => some (rawP 0x05 0 p 0 0 0 0)
  | .rpt cnt sd sa sb sc =>
    some (rawP 0x06 0 Pr.always ((0 : BitVec 5) ++ BitVec.ofNat 6 cnt.val)
      ((0 : BitVec 3) ++ sc ++ sb ++ sa ++ sd) 0 0)
  | .yield p => some (rawP 0x07 0 p 0 0 0 0)
  | .idle p => some (rawP 0x08 0 p 0 0 0 0)
  | .trap h a => some (rawH 0x10 0 h 0 a.enc 0 0)
  | .brk p => some (rawP 0x11 0 p 0 0 0 0)
  | .eretReplay p => some (rawP 0x12 0 p 0 0 0 0)
  | .eretSkip p => some (rawP 0x12 1 p 0 0 0 0)
  | .eretFill p => some (rawP 0x12 2 p 0 0 0 0)
  | .eretAbort p => some (rawP 0x12 3 p 0 0 0 0)
  | .mfs p d num idx => some (rawI 0x13 0 p d.enc 0 (sysImm num idx))
  | .mts p a num idx => some (rawI 0x14 0 p 0 a.enc (sysImm num idx))
  | .pgctlWrite p a idx => some (rawI 0x14 0 p 0 a.enc (sysImm 0x0A0 idx))
  | .acctabWrite p a idx => some (rawI 0x14 0 p 0 a.enc (sysImm 0x087 idx))
  | .watchtabWrite p a idx => some (rawI 0x14 0 p 0 a.enc (sysImm 0x086 idx))
  | .launch p d a => some (rawP 0x15 0 p d.enc a.enc 0 0)
  | .enq h d a b c => some (rawH 0x16 0 h d.enc a.enc b.enc c.enc)
  | .tlbiVa h a c => some (rawH 0x17 0 h 0 a.enc 0 c.enc)
  | .tlbiRange h a b c => some (rawH 0x17 1 h 0 a.enc b.enc c.enc)
  | .tlbiCtx h c => some (rawH 0x17 2 h 0 0 0 c.enc)
  | .tlbiAll h => some (rawH 0x17 3 h 0 0 0 0)
  | .tlbsync p => some (rawP 0x18 0 p 0 0 0 0)
  | .pgref p free d a b => some (rawP 0x19 free.toNat p d.enc a.enc b.enc 0)
  | .pgcow p d a b c => some (rawP 0x1A 0 p d.enc a.enc b.enc c.enc)
  | .pgtwin p d a b c => some (rawP 0x1B 0 p d.enc a.enc b.enc c.enc)
  | .pgmig p d a => some (rawP 0x1C 0 p d.enc a.enc 0 0)
  | .ctxsave p d a b => some (rawP 0x1D 0 p d.enc a.enc b.enc 0)
  | .ctxload p d a b => some (rawP 0x1E 0 p d.enc a.enc b.enc 0)
  | .evt h a b => some (rawH 0x1F 0 h 0 a.enc b.enc 0)
  | .iadd h m d a b => some (rawH 0x20 (codeOf SatMode.codes m) h d.enc a.enc b.enc 0)
  | .isub h m d a b => some (rawH 0x21 (codeOf SatMode.codes m) h d.enc a.enc b.enc 0)
  | .imul h m d a b => some (rawH 0x22 (codeOf SatMode.codes m) h d.enc a.enc b.enc 0)
  | .imulh h sg d a b => some (rawH 0x23 sg.toNat h d.enc a.enc b.enc 0)
  | .imad h m d a b c => some (rawH 0x24 (codeOf SatMode.codes m) h d.enc a.enc b.enc c.enc)
  | .iabs h m d a => some (rawH 0x25 (codeOf SatMode.codes m) h d.enc a.enc 0 0)
  | .imin h sg d a b => some (rawH 0x26 sg.toNat h d.enc a.enc b.enc 0)
  | .imax h sg d a b => some (rawH 0x27 sg.toNat h d.enc a.enc b.enc 0)
  | .and h d a b => some (rawH 0x28 0 h d.enc a.enc b.enc 0)
  | .or h d a b => some (rawH 0x29 0 h d.enc a.enc b.enc 0)
  | .xor h d a b => some (rawH 0x2A 0 h d.enc a.enc b.enc 0)
  | .andn h d a b => some (rawH 0x2B 0 h d.enc a.enc b.enc 0)
  | .shl h d a b => some (rawH 0x2C 0 h d.enc a.enc b.enc 0)
  | .shr h d a b => some (rawH 0x2D 0 h d.enc a.enc b.enc 0)
  | .sar h d a b => some (rawH 0x2E 0 h d.enc a.enc b.enc 0)
  | .rot h d a b => some (rawH 0x2F 0 h d.enc a.enc b.enc 0)
  | .popc h d a => some (rawH 0x30 0 h d.enc a.enc 0 0)
  | .clz h d a => some (rawH 0x31 0 h d.enc a.enc 0 0)
  | .brev h d a => some (rawH 0x32 0 h d.enc a.enc 0 0)
  | .bfe h sg d a b => some (rawH 0x33 sg.toNat h d.enc a.enc b.enc 0)
  | .bfi h d a b c => some (rawH 0x34 0 h d.enc a.enc b.enc c.enc)
  | .sel h d a b c => some (rawH 0x35 0 h d.enc a.enc b.enc c.enc)
  | .mov h d a => some (rawH 0x36 0 h d.enc a.enc 0 0)
  | .icmp h sg cc d a b => some (rawH 0x37 (8 * sg.toNat + codeOf ICond.codes cc) h d.enc a.enc b.enc 0)
  | .plog h tt d a b => some (rawH 0x38 tt.toNat h d.enc a.enc b.enc 0)
  | .sext h w wd d a => some (rawH 0x39 (4 * w.toNat + codeOf ExtW.codes wd) h d.enc a.enc 0 0)
  | .zext h w wd d a => some (rawH 0x3A (4 * w.toNat + codeOf ExtW.codes wd) h d.enc a.enc 0 0)
  | .lea h sg sh d a b => some (rawH 0x3B (8 * sg.toNat + sh.val) h d.enc a.enc b.enc 0)
  | .add64 h m d a b => some (rawH 0x3C (codeOf SatMode.codes m) h d.enc a.enc b.enc 0)
  | .sub64 h m d a b => some (rawH 0x3D (codeOf SatMode.codes m) h d.enc a.enc b.enc 0)
  | .mul64 h m d a b =>
    some (rawH 0x3E (match m with | .full q => codeOf SatMode.codes q | .wideN => 4 | .wideS => 8) h d.enc a.enc b.enc 0)
  | .fadd h sm ty rm d a b => some (rawH 0x40 (fMod sm ty (codeOf RMode.codes rm)) h d.enc a.enc b.enc 0)
  | .fsub h sm ty rm d a b => some (rawH 0x41 (fMod sm ty (codeOf RMode.codes rm)) h d.enc a.enc b.enc 0)
  | .fmul h sm ty rm d a b => some (rawH 0x42 (fMod sm ty (codeOf RMode.codes rm)) h d.enc a.enc b.enc 0)
  | .ffma h sm ty rm d a b c => some (rawH 0x43 (fMod sm ty (codeOf RMode.codes rm)) h d.enc a.enc b.enc c.enc)
  | .fmin h sm ty nanp d a b => some (rawH 0x44 (fMod sm ty nanp.toNat) h d.enc a.enc b.enc 0)
  | .fmax h sm ty nanp d a b => some (rawH 0x45 (fMod sm ty nanp.toNat) h d.enc a.enc b.enc 0)
  | .fcmp h hi ty cc d a b =>
    some (rawH 0x46 (32 * hi.toNat + 8 * codeOf FTy.codes ty + codeOf FCond.codes cc) h d.enc a.enc b.enc 0)
  | .fclass h ty d a =>
    some (rawH 0x47 (4 * (match ty with | some t => codeOf FTy.codes t | none => 3)) h d.enc a.enc 0 0)
  | .frnd h x ty rm d a =>
    some (rawH 0x48 (16 * x.toNat + 4 * codeOf FTy.codes ty + codeOf RMode.codes rm) h d.enc a.enc 0 0)
  | .fdot2 h sm ty rm d a b c => some (rawH 0x49 (fMod sm ty (codeOf RMode.codes rm)) h d.enc a.enc b.enc c.enc)
  | .dadd h sm rm d a b => some (rawH 0x50 (16 * codeOf SMod.codes sm + codeOf RMode.codes rm) h d.enc a.enc b.enc 0)
  | .dmul h sm rm d a b => some (rawH 0x51 (16 * codeOf SMod.codes sm + codeOf RMode.codes rm) h d.enc a.enc b.enc 0)
  | .dfma h sm rm d a b c =>
    some (rawH 0x52 (16 * codeOf SMod.codes sm + codeOf RMode.codes rm) h d.enc a.enc b.enc c.enc)
  | .dcmp h cc d a b => some (rawH 0x53 (codeOf FCond.codes cc) h d.enc a.enc b.enc 0)
  | .dmin h sm nanp d a b => some (rawH 0x54 (16 * codeOf SMod.codes sm + nanp.toNat) h d.enc a.enc b.enc 0)
  | .dmax h sm nanp d a b => some (rawH 0x55 (16 * codeOf SMod.codes sm + nanp.toNat) h d.enc a.enc b.enc 0)
  | .cvt h cv rm d a => some (rawH 0x60 (4 * cv.toNat + codeOf RMode.codes rm) h d.enc a.enc 0 0)
  | .pack h f sat rm d a b =>
    some (rawH 0x61 (8 * codeOf PackFmt.codes f + 4 * sat.toNat + codeOf RMode.codes rm) h d.enc a.enc b.enc 0)
  | .unpack h f idx d a => some (rawH 0x62 (8 * codeOf PackFmt.codes f + idx.val) h d.enc a.enc 0 0)
  | .qpack h n4 rm d a b c => some (rawH 0x63 (8 * n4.toNat + codeOf RMode.codes rm) h d.enc a.enc b.enc c.enc)
  | .qunpack h n4 idx d a c => some (rawH 0x64 (8 * n4.toNat + idx.val) h d.enc a.enc 0 c.enc)
  | .rcp h ty d a => some (rawH 0x68 (4 * codeOf FTy.codes ty) h d.enc a.enc 0 0)
  | .rsqrt h ty d a => some (rawH 0x69 (4 * codeOf FTy.codes ty) h d.enc a.enc 0 0)
  | .sqrt h ty rm d a => some (rawH 0x6A (4 * codeOf FTy.codes ty + codeOf RMode.codes rm) h d.enc a.enc 0 0)
  | .exp2 h ty d a => some (rawH 0x6B (4 * codeOf FTy.codes ty) h d.enc a.enc 0 0)
  | .log2 h ty d a => some (rawH 0x6C (4 * codeOf FTy.codes ty) h d.enc a.enc 0 0)
  | .sin h ty d a => some (rawH 0x6D (4 * codeOf FTy.codes ty) h d.enc a.enc 0 0)
  | .cos h ty d a => some (rawH 0x6E (4 * codeOf FTy.codes ty) h d.enc a.enc 0 0)
  | .tanh h ty d a => some (rawH 0x6F (4 * codeOf FTy.codes ty) h d.enc a.enc 0 0)
  | .shfl h seg mode d a b =>
    some (rawH 0x70 (4 * codeOf Seg.codes seg + codeOf ShflMode.codes mode) h d.enc a.enc b.enc 0)
  | .vote h vm d a => some (rawH 0x71 (codeOf VoteMode.codes vm) h d.enc a.enc 0 0)
  | .bcast h d a b =>
    some (rawH 0x72 (if b.isSome then 0 else 1) h d.enc a.enc (match b with | some o => o.enc | none => 0) 0)
  | .redux h rm o d a => some (rawH 0x73 (16 * codeOf RMode.codes rm + codeOf ReduxOp.codes o) h d.enc a.enc 0 0)
  | .scan h excl o d a => some (rawH 0x74 (16 * excl.toNat + codeOf ReduxOp.codes o) h d.enc a.enc 0 0)
  | .ld p sx d a x => some (rawX 0x80 sx.toNat p d.enc a.enc 0 0 x.enc)
  | .st p a b x => some (rawX 0x81 0 p 0 a.enc b.enc 0 x.enc)
  | .ldu p sx d a x => some (rawX 0x82 sx.toNat p d.enc a.enc 0 0 x.enc)
  | .stu p a b x => some (rawX 0x83 0 p 0 a.enc b.enc 0 x.enc)
  | .lds p sx d a x => some (rawX 0x84 sx.toNat p d.enc a.enc 0 0 x.enc)
  | .sts p a b x => some (rawX 0x85 0 p 0 a.enc b.enc 0 x.enc)
  | .ldfe p d a x => some (rawX 0x86 0 p d.enc a.enc 0 0 x.enc)
  | .ldff p d a x => some (rawX 0x87 0 p d.enc a.enc 0 0 x.enc)
  | .stfe p a b x => some (rawX 0x88 0 p 0 a.enc b.enc 0 x.enc)
  | .stff p a b x => some (rawX 0x89 0 p 0 a.enc b.enc 0 x.enc)
  | .feset p v a b x => some (rawX 0x8A v.toNat p 0 a.enc b.enc 0 x.enc)
  | .pref p a x => some (rawX 0x8B 0 p 0 a.enc 0 0 x.enc)
  | .wbr p a b x => some (rawX 0x8C 0 p 0 a.enc b.enc 0 x.enc)
  | .invr p a b x => some (rawX 0x8D 0 p 0 a.enc b.enc 0 x.enc)
  | .flr p a b x => some (rawX 0x8E 0 p 0 a.enc b.enc 0 x.enc)
  | .icinv p a b x => some (rawX 0x8F 0 p 0 a.enc b.enc 0 x.enc)
  | .fetchb x => some (rawX 0x90 0 Pr.always 0 0 0 0 x.enc)
  | .atom p sp d a b x => some (rawX 0xA0 sp.toNat p d.enc a.enc b.enc 0 x.enc)
  | .red p sp a b x => some (rawX 0xA1 sp.toNat p 0 a.enc b.enc 0 x.enc)
  | .cas p sp d a b c x => some (rawX 0xA2 sp.toNat p d.enc a.enc b.enc c.enc x.enc)
  | .acc p a b x => some (rawX 0xA3 0 p 0 a.enc b.enc 0 x.enc)
  | .accdrain p a b x => some (rawX 0xA4 0 p 0 a.enc b.enc 0 x.enc)
  | .fence p scp kind => some (rawP 0xA5 (4 * codeOf Scope.codes scp + codeOf FenceKind.codes kind) p 0 0 0 0)
  | .arrive h cl a => some (rawH 0xA6 cl.toNat h 0 a.enc 0 0)
  | .wait h cl a => some (rawH 0xA7 cl.toNat h 0 a.enc 0 0)
  | .bar h cl a => some (rawH 0xA8 cl.toNat h 0 a.enc 0 0)
  | .bmask h cl a b => some (rawH 0xA9 cl.toNat h 0 a.enc b.enc 0)
  | .cvdef p cv a =>
    some (rawP 0xAA ((if a.isSome then 8 else 0) + cv.val) p 0 (match a with | some o => o.enc | none => 0) 0 0)
  | .watch p d a => some (rawP 0xAB 0 p d.enc a.enc 0 0)
  | .unwatch p d a => some (rawP 0xAC 0 p d.enc a.enc 0 0)
  | .publish h a => some (rawH 0xAD 0 h 0 a.enc 0 0)
  | .chset h d a b => some (rawH 0xAE 0 h d.enc a.enc b.enc 0)
  | .mma p a b x => some (rawX 0xC0 0 p 0 a.enc b.enc 0 x.enc)
  | .mmaq p a b x => some (rawX 0xC1 0 p 0 a.enc b.enc 0 x.enc)
  | .mmas p a b x => some (rawX 0xC2 0 p 0 a.enc b.enc 0 x.enc)
  | .accz p t => some (rawP 0xC3 t.val p 0 0 0 0)
  | .accld p sp t a b x => some (rawX 0xC4 (8 * sp.toNat + t.val) p 0 a.enc b.enc 0 x.enc)
  | .accst p sp t a b x => some (rawX 0xC5 (8 * sp.toNat + t.val) p 0 a.enc b.enc 0 x.enc)
  | .accrd h t d a => some (rawH 0xC6 t.code h d.enc a.enc 0 0)
  | .accwr h t a b => some (rawH 0xC7 t.code h 0 a.enc b.enc 0)
  | .xcopy p a x => some (rawX 0xC8 0 p 0 a.enc 0 0 x.enc)
  | .mcast p a b c x => some (rawX 0xC9 0 p 0 a.enc b.enc c.enc x.enc)
  | .csrg p a b c x => some (rawX 0xCA 0 p 0 a.enc b.enc c.enc x.enc)
  | .estat p d a =>
    some (rawP 0xCB (if a.isSome then 0 else 1) p d.enc (match a with | some o => o.enc | none => 0) 0 0)
  | .ecancel p a => some (rawP 0xCC (if a.isSome then 0 else 1) p 0 (match a with | some o => o.enc | none => 0) 0 0)
  | _ => none

/-! ### The decoder -/

namespace Raw

/-- PRED and PNEG. -/
def pr (r : Raw) : Pr := ⟨⟨r.pred.toNat, r.pred.isLt⟩, r.pneg⟩

/-- PRED, PNEG and the immediate of a 96-bit instruction. -/
def hdr (r : Raw) : Hdr := ⟨r.pr, if r.len == 1 then some (r.hi.extractLsb' 0 32) else none⟩

def oD (r : Raw) : Option Operand := Operand.dec r.d
def oA (r : Raw) : Option Operand := Operand.dec r.a
def oB (r : Raw) : Option Operand := Operand.dec r.b
def oC (r : Raw) : Option Operand := Operand.dec r.c

/-- Bits of MOD as a number. -/
def m (r : Raw) (hi lo : Nat) : Nat := bits r.mod hi lo

/-- One bit of MOD. -/
def mb (r : Raw) (i : Nat) : Bool := bit r.mod i

def sat (r : Raw) : Option SatMode := ofCode SatMode.codes (r.m 1 0)
def rm (r : Raw) : Option RMode := ofCode RMode.codes (r.m 1 0)
def ty (r : Raw) : Option FTy := ofCode FTy.codes (r.m 3 2)
def sm (r : Raw) : Option SMod := ofCode SMod.codes (r.m 5 4)
def mem (r : Raw) : Option MemExt := MemExt.dec r.hi
def imm32 (r : Raw) : Word := r.hi.extractLsb' 0 32

def f2 (r : Raw) (k : Hdr → Operand → Operand → Instr) : Option Instr := do
  some (k r.hdr (← r.oD) (← r.oA))
def f3 (r : Raw) (k : Hdr → Operand → Operand → Operand → Instr) : Option Instr := do
  some (k r.hdr (← r.oD) (← r.oA) (← r.oB))
def f4 (r : Raw) (k : Hdr → Operand → Operand → Operand → Operand → Instr) : Option Instr := do
  some (k r.hdr (← r.oD) (← r.oA) (← r.oB) (← r.oC))

/-- The control forms 0x00 to 0x08 (R57, R70 to R80). -/
def control (r : Raw) : Nat → Option Instr
  | 0 => some (.nop r.hdr)
  | 1 => some (.bra r.pr r.imm32)
  | 2 => do some (.brx r.pr (← r.oA))
  | 3 => do some (.call r.pr (r.mb 0) (← r.oD) (← r.oA) r.imm32)
  | 4 => do some (.ret r.pr (← r.oA))
  | 5 => some (.exit r.pr)
  | 6 => do
    some (.rpt (← finOf 64 (bits r.d 5 0)) (r.a.extractLsb' 0 2) (r.a.extractLsb' 2 2) (r.a.extractLsb' 4 2)
      (r.a.extractLsb' 6 2))
  | 7 => some (.yield r.pr)
  | 8 => some (.idle r.pr)
  | _ => none

/-- The system forms 0x10 to 0x1F (R226). -/
def system (r : Raw) : Nat → Option Instr
  | 0 => do some (.trap r.hdr (← r.oA))
  | 1 => some (.brk r.pr)
  | 2 =>
    match r.m 1 0 with
    | 0 => some (.eretReplay r.pr)
    | 1 => some (.eretSkip r.pr)
    | 2 => some (.eretFill r.pr)
    | _ => some (.eretAbort r.pr)
  | 3 => do some (.mfs r.pr (← r.oD) (r.imm32.extractLsb' 0 12) (r.imm32.extractLsb' 12 8))
  | 4 => do
    let a ← r.oA
    let idx := r.imm32.extractLsb' 12 8
    let num : BitVec 12 := r.imm32.extractLsb' 0 12
    some (if num == 0x0A0 then .pgctlWrite r.pr a idx else if num == 0x087 then .acctabWrite r.pr a idx
      else if num == 0x086 then .watchtabWrite r.pr a idx else .mts r.pr a num idx)
  | 5 => do some (.launch r.pr (← r.oD) (← r.oA))
  | 6 => r.f4 .enq
  | 7 =>
    match r.m 1 0 with
    | 0 => do some (.tlbiVa r.hdr (← r.oA) (← r.oC))
    | 1 => do some (.tlbiRange r.hdr (← r.oA) (← r.oB) (← r.oC))
    | 2 => do some (.tlbiCtx r.hdr (← r.oC))
    | _ => some (.tlbiAll r.hdr)
  | 8 => some (.tlbsync r.pr)
  | 9 => do some (.pgref r.pr (r.mb 0) (← r.oD) (← r.oA) (← r.oB))
  | 10 => do some (.pgcow r.pr (← r.oD) (← r.oA) (← r.oB) (← r.oC))
  | 11 => do some (.pgtwin r.pr (← r.oD) (← r.oA) (← r.oB) (← r.oC))
  | 12 => do some (.pgmig r.pr (← r.oD) (← r.oA))
  | 13 => do some (.ctxsave r.pr (← r.oD) (← r.oA) (← r.oB))
  | 14 => do some (.ctxload r.pr (← r.oD) (← r.oA) (← r.oB))
  | 15 => do some (.evt r.hdr (← r.oA) (← r.oB))
  | _ => none

/-- The integer forms 0x20 to 0x2F (R82). -/
def integer (r : Raw) : Nat → Option Instr
  | 0 => do let m ← r.sat; r.f3 fun h => .iadd h m
  | 1 => do let m ← r.sat; r.f3 fun h => .isub h m
  | 2 => do let m ← r.sat; r.f3 fun h => .imul h m
  | 3 => r.f3 fun h => .imulh h (r.mb 0)
  | 4 => do let m ← r.sat; r.f4 fun h => .imad h m
  | 5 => do let m ← r.sat; r.f2 fun h => .iabs h m
  | 6 => r.f3 fun h => .imin h (r.mb 0)
  | 7 => r.f3 fun h => .imax h (r.mb 0)
  | 8 => r.f3 .and
  | 9 => r.f3 .or
  | 10 => r.f3 .xor
  | 11 => r.f3 .andn
  | 12 => r.f3 .shl
  | 13 => r.f3 .shr
  | 14 => r.f3 .sar
  | 15 => r.f3 .rot
  | _ => none

/-- The integer forms 0x30 to 0x3E (R82). -/
def integer2 (r : Raw) : Nat → Option Instr
  | 0 => r.f2 .popc
  | 1 => r.f2 .clz
  | 2 => r.f2 .brev
  | 3 => r.f3 fun h => .bfe h (r.mb 0)
  | 4 => r.f4 .bfi
  | 5 => r.f4 .sel
  | 6 => r.f2 .mov
  | 7 => do let cc ← ofCode ICond.codes (r.m 2 0); r.f3 fun h => .icmp h (r.mb 3) cc
  | 8 => r.f3 fun h => .plog h (r.mod.extractLsb' 0 4)
  | 9 => do let wd ← ofCode ExtW.codes (r.m 1 0); r.f2 fun h => .sext h (r.mb 2) wd
  | 10 => do let wd ← ofCode ExtW.codes (r.m 1 0); r.f2 fun h => .zext h (r.mb 2) wd
  | 11 => do let sh ← finOf 5 (r.m 2 0); r.f3 fun h => .lea h (r.mb 3) sh
  | 12 => do let m ← r.sat; r.f3 fun h => .add64 h m
  | 13 => do let m ← r.sat; r.f3 fun h => .sub64 h m
  | 14 => do let m ← Mul64Mode.codes.lookup (r.m 3 0); r.f3 fun h => .mul64 h m
  | _ => none

/-- The floating-point forms 0x40 to 0x49 (R116). -/
def float (r : Raw) : Nat → Option Instr
  | 0 => do let sm ← r.sm; let ty ← r.ty; let rm ← r.rm; r.f3 fun h => .fadd h sm ty rm
  | 1 => do let sm ← r.sm; let ty ← r.ty; let rm ← r.rm; r.f3 fun h => .fsub h sm ty rm
  | 2 => do let sm ← r.sm; let ty ← r.ty; let rm ← r.rm; r.f3 fun h => .fmul h sm ty rm
  | 3 => do let sm ← r.sm; let ty ← r.ty; let rm ← r.rm; r.f4 fun h => .ffma h sm ty rm
  | 4 => do let sm ← r.sm; let ty ← r.ty; r.f3 fun h => .fmin h sm ty (r.mb 0)
  | 5 => do let sm ← r.sm; let ty ← r.ty; r.f3 fun h => .fmax h sm ty (r.mb 0)
  | 6 => do
    let ty ← ofCode FTy.codes (r.m 4 3)
    let cc ← ofCode FCond.codes (r.m 2 0)
    r.f3 fun h => .fcmp h (r.mb 5) ty cc
  | 7 => r.f2 fun h => .fclass h r.ty
  | 8 => do let ty ← r.ty; let rm ← r.rm; r.f2 fun h => .frnd h (r.mb 4) ty rm
  | 9 => do let sm ← r.sm; let ty ← r.ty; let rm ← r.rm; r.f4 fun h => .fdot2 h sm ty rm
  | _ => none

/-- The FP64 forms 0x50 to 0x55 (R116). -/
def double (r : Raw) : Nat → Option Instr
  | 0 => do let sm ← r.sm; let rm ← r.rm; r.f3 fun h => .dadd h sm rm
  | 1 => do let sm ← r.sm; let rm ← r.rm; r.f3 fun h => .dmul h sm rm
  | 2 => do let sm ← r.sm; let rm ← r.rm; r.f4 fun h => .dfma h sm rm
  | 3 => do let cc ← ofCode FCond.codes (r.m 2 0); r.f3 fun h => .dcmp h cc
  | 4 => do let sm ← r.sm; r.f3 fun h => .dmin h sm (r.mb 0)
  | 5 => do let sm ← r.sm; r.f3 fun h => .dmax h sm (r.mb 0)
  | _ => none

/-- Conversions and special functions 0x60 to 0x6F (R116). -/
def convert (r : Raw) : Nat → Option Instr
  | 0 => do let rm ← r.rm; r.f2 fun h => .cvt h (r.mod.extractLsb' 2 4) rm
  | 1 => do let f ← ofCode PackFmt.codes (r.m 5 3); let rm ← r.rm; r.f3 fun h => .pack h f (r.mb 2) rm
  | 2 => do
    let f ← ofCode PackFmt.codes (r.m 5 3)
    let idx ← finOf 8 (r.m 2 0)
    r.f2 fun h => .unpack h f idx
  | 3 => do let rm ← r.rm; r.f4 fun h => .qpack h (r.mb 3) rm
  | 4 => do
    let idx ← finOf 8 (r.m 2 0)
    some (.qunpack r.hdr (r.mb 3) idx (← r.oD) (← r.oA) (← r.oC))
  | 8 => do let ty ← r.ty; r.f2 fun h => .rcp h ty
  | 9 => do let ty ← r.ty; r.f2 fun h => .rsqrt h ty
  | 10 => do let ty ← r.ty; let rm ← r.rm; r.f2 fun h => .sqrt h ty rm
  | 11 => do let ty ← r.ty; r.f2 fun h => .exp2 h ty
  | 12 => do let ty ← r.ty; r.f2 fun h => .log2 h ty
  | 13 => do let ty ← r.ty; r.f2 fun h => .sin h ty
  | 14 => do let ty ← r.ty; r.f2 fun h => .cos h ty
  | 15 => do let ty ← r.ty; r.f2 fun h => .tanh h ty
  | _ => none

/-- The cross-lane forms 0x70 to 0x74 (R116). -/
def cross (r : Raw) : Nat → Option Instr
  | 0 => do
    let seg ← ofCode Seg.codes (r.m 5 2)
    let mode ← ofCode ShflMode.codes (r.m 1 0)
    r.f3 fun h => .shfl h seg mode
  | 1 => do let vm ← ofCode VoteMode.codes (r.m 1 0); r.f2 fun h => .vote h vm
  | 2 => do
    let b ← r.oB
    some (.bcast r.hdr (← r.oD) (← r.oA) (if r.mb 0 then none else some b))
  | 3 => do
    let rm ← ofCode RMode.codes (r.m 5 4)
    let o ← ofCode ReduxOp.codes (r.m 3 0)
    r.f2 fun h => .redux h rm o
  | 4 => do let o ← ofCode ReduxOp.codes (r.m 3 0); r.f2 fun h => .scan h (r.mb 4) o
  | _ => none

/-- The memory forms 0x80 to 0x8F (R141). -/
def memory (r : Raw) (n : Nat) : Option Instr := do
  let x ← r.mem
  let d ← r.oD
  let a ← r.oA
  let b ← r.oB
  match n with
  | 0 => some (.ld r.pr (r.mb 0) d a x)
  | 1 => some (.st r.pr a b x)
  | 2 => some (.ldu r.pr (r.mb 0) d a x)
  | 3 => some (.stu r.pr a b x)
  | 4 => some (.lds r.pr (r.mb 0) d a x)
  | 5 => some (.sts r.pr a b x)
  | 6 => some (.ldfe r.pr d a x)
  | 7 => some (.ldff r.pr d a x)
  | 8 => some (.stfe r.pr a b x)
  | 9 => some (.stff r.pr a b x)
  | 10 => some (.feset r.pr (r.mb 0) a b x)
  | 11 => some (.pref r.pr a x)
  | 12 => some (.wbr r.pr a b x)
  | 13 => some (.invr r.pr a b x)
  | 14 => some (.flr r.pr a b x)
  | 15 => some (.icinv r.pr a b x)
  | _ => none

/-- The atomic and synchronisation forms 0xA0 to 0xAE (R166). -/
def atomic (r : Raw) : Nat → Option Instr
  | 0 => do some (.atom r.pr (r.mb 0) (← r.oD) (← r.oA) (← r.oB) (← r.mem))
  | 1 => do some (.red r.pr (r.mb 0) (← r.oA) (← r.oB) (← r.mem))
  | 2 => do some (.cas r.pr (r.mb 0) (← r.oD) (← r.oA) (← r.oB) (← r.oC) (← r.mem))
  | 3 => do some (.acc r.pr (← r.oA) (← r.oB) (← r.mem))
  | 4 => do some (.accdrain r.pr (← r.oA) (← r.oB) (← r.mem))
  | 5 => do
    let scp ← ofCode Scope.codes (r.m 4 2)
    let k ← ofCode FenceKind.codes (r.m 1 0)
    some (.fence r.pr scp k)
  | 6 => do some (.arrive r.hdr (r.mb 0) (← r.oA))
  | 7 => do some (.wait r.hdr (r.mb 0) (← r.oA))
  | 8 => do some (.bar r.hdr (r.mb 0) (← r.oA))
  | 9 => do some (.bmask r.hdr (r.mb 0) (← r.oA) (← r.oB))
  | 10 => do
    let a ← r.oA
    some (.cvdef r.pr (← finOf 8 (r.m 2 0)) (if r.mb 3 then some a else none))
  | 11 => do some (.watch r.pr (← r.oD) (← r.oA))
  | 12 => do some (.unwatch r.pr (← r.oD) (← r.oA))
  | 13 => do some (.publish r.hdr (← r.oA))
  | 14 => r.f3 .chset
  | _ => none

/-- The tile index modifiers (R192). -/
def tileIdx (r : Raw) : Option TileIdx := do some ⟨r.mb 4, r.mb 3, ← finOf 8 (r.m 2 0)⟩

/-- The matrix and engine forms 0xC0 to 0xCC (R192). -/
def matrix (r : Raw) : Nat → Option Instr
  | 0 => do some (.mma r.pr (← r.oA) (← r.oB) (← MatExt.dec r.hi))
  | 1 => do some (.mmaq r.pr (← r.oA) (← r.oB) (← MatExt.dec r.hi))
  | 2 => do some (.mmas r.pr (← r.oA) (← r.oB) (← MatExt.dec r.hi))
  | 3 => do some (.accz r.pr (← finOf 8 (r.m 2 0)))
  | 4 => do some (.accld r.pr (r.mb 3) (← finOf 8 (r.m 2 0)) (← r.oA) (← r.oB) (← r.mem))
  | 5 => do some (.accst r.pr (r.mb 3) (← finOf 8 (r.m 2 0)) (← r.oA) (← r.oB) (← r.mem))
  | 6 => do some (.accrd r.hdr (← r.tileIdx) (← r.oD) (← r.oA))
  | 7 => do some (.accwr r.hdr (← r.tileIdx) (← r.oA) (← r.oB))
  | 8 => do some (.xcopy r.pr (← r.oA) (EngExt.dec r.hi))
  | 9 => do some (.mcast r.pr (← r.oA) (← r.oB) (← r.oC) (McExt.dec r.hi))
  | 10 => do some (.csrg r.pr (← r.oA) (← r.oB) (← r.oC) (← GatherExt.dec r.hi))
  | 11 => do
    let a ← r.oA
    some (.estat r.pr (← r.oD) (if r.mb 0 then none else some a))
  | 12 => do
    let a ← r.oA
    some (.ecancel r.pr (if r.mb 0 then none else some a))
  | _ => none

/-- The instruction the fields name, before the checks of unused fields. -/
def toInstr (r : Raw) : Option Instr :=
  let lo := bits r.op 3 0
  match bits r.op 7 4 with
  | 0x0 => r.control lo
  | 0x1 => r.system lo
  | 0x2 => r.integer lo
  | 0x3 => r.integer2 lo
  | 0x4 => r.float lo
  | 0x5 => r.double lo
  | 0x6 => r.convert lo
  | 0x7 => r.cross lo
  | 0x8 => r.memory lo
  | 0x9 => if lo == 0 then r.mem.map .fetchb else none
  | 0xA => r.atomic lo
  | 0xC => r.matrix lo
  | _ => none

end Raw

/-- The instruction that fields encode, or why there is none (R63). Every bit the form does not use must be as the
encoder writes it, so unused fields, reserved bits and undefined codes are refused. -/
def decodeRaw (r : Raw) : Except Reject Instr :=
  match opLengths r.op.toNat with
  | [] => .error .opcode
  | ls =>
    if ls.contains r.len.toNat then
      match r.toInstr with
      | none => .error .field
      | some i =>
        if toRaw i = some r then if i.wellFormed then .ok i else .error .illFormed else .error .reserved
    else .error .length

/-- The instruction at the head of some bytes, with its length in bytes. Total. -/
def decode (bs : List Byte) : Except Reject (Instr × Nat) := do
  let r ← Raw.read bs
  let i ← decodeRaw r
  .ok (i, lenBytes r.len)

/-- The bytes of an instruction; none for a step of another unit. -/
def encode (i : Instr) : List Byte :=
  match toRaw i with
  | some r => r.bytes
  | none => []

/-- The instruction whose bits, numbered from bit 0 of its first byte, are `w`; bits at and above `nbits` are zero. -/
def decodeTableWord (nbits w : Nat) : Option Instr :=
  match decode (bytesOf (w % 2 ^ nbits) 16) with
  | .ok (i, _) => some i
  | .error _ => none

end Sys2Proof
end

