-- ==== Sys2Proof/Machine/Access.lean ====
section
/-! DEFINITION. Translation of a virtual address with its checks (R339 to R345), and the checks of a repeat (R58, R59). -/

namespace Sys2Proof.Machine

open Sys2Proof

/-- Kinds of access (R343). -/
inductive AccKind | read | write | rmw | exec
deriving DecidableEq, Repr

/-- What Translate gives: an address with its software-managed bit, a copy-on-write break, a cause, or a wait for a
publish in progress (R353). -/
inductive Tr
  | ok (pa : Nat) (sm : Bool)
  | cow
  | fault (cause : Nat)
  | wait
deriving DecidableEq, Repr

/-- The leaf's permissions allow the access (R343, check 3). -/
def permits (e : BitVec 64) : AccKind → Bool
  | .read => bit e 1
  | .write => bit e 2
  | .rmw => bit e 1 && bit e 2
  | .exec => bit e 3

/-- A TLB entry for an address in a unit (R345). -/
def tlbFind (s : State) (u : Nat) (t : Tag) (va : Addr) : Option Tlb :=
  s.tlbs.find? fun e => e.unit == u && e.ctx == t && e.page == va.toNat / e.size

/-- Enter a translation in a unit that holds `n` entries; the oldest makes room. -/
def tlbAdd (s : State) (e : Tlb) (n : Nat) : State :=
  let mine := s.tlbs.filter fun x => x.unit == e.unit
  let old := if n ≤ mine.length then mine.head? else none
  { s with tlbs := (s.tlbs.filter fun x => some x != old) ++ [e] }

/-- A publish is under way for the page's set in the context (R353). -/
def publishing (s : State) (t : Tag) (e : BitVec 64) : Bool :=
  bit e 7 && s.pubs.any fun p => p.tag == t && p.set == field (coherentNat s (twinAddr s (bits e 23 8)) 2) 9 4

/-- Checks 2 to 5 of R343 on a leaf. Of a twin page, an access reaches the selected frame, or its shadow (R352). -/
def leafChecks (s : State) (t : Tag) (sup : Bool) (k : AccKind) (e : BitVec 64) (size : Nat) (va : Addr) (shadow : Bool) : Tr :=
  if publishing s t e then .wait
  else if !sup && !bit e 4 then .fault 0x11
  else if !permits e k then .fault 0x11
  else if (k == .write || k == .rmw) && bit e 6 then .cow
  else .ok (leafFrame s e shadow + va.toNat % size) (bit e 5)

/-- What a TLB's leaf gives: a twin leaf is malformed while TWINTAB.EN is 0 (R343, check 1; R351). -/
def heldLeaf (s : State) (c : CuId) (t : Tag) (sup : Bool) (k : AccKind) (e : Tlb) (va : Addr) (shadow : Bool) : Tr × State :=
  if bit e.pte 7 && !bit s.sup.twintab 0 then (.fault 0x10, violate s 3 0x10 t va.toNat (srcOf c))
  else (leafChecks s t sup k e.pte e.size va shadow, s)

/-- Translate(va, k, l) of R343 for a warp of CU `c` and context `t`, through the CU's and the die's TLBs (R345); `shadow` asks for
the shadow frame of a twin page (R352). -/
def translateTo (shadow : Bool) (s : State) (c : CuId) (t : Tag) (sup : Bool) (k : AccKind) (va : Addr) : Tr × State :=
  if !legalVa va || !bit (s.ctx t).ptbase 0 then (.fault 0x10, s)
  else
    match tlbFind s c t va with
    | some e => heldLeaf s c t sup k e va shadow
    | none =>
      match tlbFind s (1024 + dieOf c) t va with
      | some e => let r := heldLeaf s c t sup k e va shadow; (r.1, tlbAdd r.2 { e with unit := c } 96)
      | none =>
        match walk s t va with
        | .absent => (.fault 0x10, s)
        | .malformed => (.fault 0x10, violate s 3 0x10 t va.toNat (srcOf c))
        | .leaf e _ level =>
          if 2 ≤ pteTier e then (.fault 0x10, s)
          else
            let size := pageSize level
            let s' :=
              if bit e 6 then s
              else
                let x : Tlb := ⟨c, t, va.toNat / size, size, e⟩
                tlbAdd (tlbAdd s { x with unit := 1024 + dieOf c } 16384) x 96
            (leafChecks s t sup k e size va shadow, s')

/-- Translate(va, k, l) of R343. -/
def translate (s : State) (c : CuId) (t : Tag) (sup : Bool) (k : AccKind) (va : Addr) : Tr × State :=
  translateTo false s c t sup k va

/-- Remove the translations that a test names, in every unit (R241). -/
def tlbDrop (s : State) (f : Tlb → Bool) : State := { s with tlbs := s.tlbs.filter fun e => !f e }

/-- Remove the translations of a page of a context (R349, R355). -/
def tlbDropPage (s : State) (t : Tag) (va : Addr) : State :=
  tlbDrop s fun e => e.ctx == t && e.page == va.toNat / e.size

/-! ### Repeats (R57 to R59) -/

/-- Registers a step code advances by (R57). -/
def stepOf (c : BitVec 2) : Nat := if c == 0 then 0 else if c == 1 then 1 else if c == 2 then 2 else 4

/-- A field advanced by some registers: none when it leaves its kind or names no v or s register (R58, R59). -/
def stepField (f : BitVec 11) (n : Nat) : Option (BitVec 11) :=
  if n == 0 then some f
  else
    let x := f.toNat
    if x < 128 then if x + n < 128 then some (BitVec.ofNat 11 (x + n)) else none
    else if x < 192 then if x + n < 192 then some (BitVec.ofNat 11 (x + n)) else none
    else none

/-- The fields of repetition `k` of a target (R58). -/
def stepRaw (r : Raw) (sd sa sb sc : BitVec 2) (k : Nat) : Option Raw := do
  let d ← stepField r.d (k * stepOf sd)
  let a ← stepField r.a (k * stepOf sa)
  let b ← stepField r.b (k * stepOf sb)
  let c ← stepField r.c (k * stepOf sc)
  some { r with d := d, a := a, b := b, c := c }

/-- Opcodes that rpt may not repeat (R59). -/
def noRepeat (op : Nat) : Bool :=
  op < 0x20 || op == 0xA5 || (0xA6 ≤ op && op ≤ 0xAE) || op == 0xC0 || op == 0xC1 || op == 0xC2
    || (0xC8 ≤ op && op ≤ 0xCC)

/-- A stepped field names a v or s register and is a used field of the form (R59). -/
def stepsOk (r : Raw) (i : Instr) (sd sa sb sc : BitVec 2) : Bool :=
  let h := shape i
  let reg (f : BitVec 11) : Bool := f.toNat < 192
  (sd == 0 || (h.d.isSome && reg r.d)) && (sa == 0 || (h.a.isSome && reg r.a))
    && (sb == 0 || (h.b.isSome && reg r.b)) && (sc == 0 || (h.c.isSome && reg r.c))

/-- Every repetition of a target is legal for the group (R59). A repetition that stepping makes illegal in a way that R59's list
does not name refuses the whole repeat at the rpt as well (log 82). -/
def repeatOk (r : Raw) (cnt : Nat) (sd sa sb sc : BitVec 2) (g : Group) (w : Nat) : Bool :=
  !noRepeat r.op.toNat
    && (match decodeRaw r with | .ok i => stepsOk r i sd sa sb sc | .error _ => false)
    && (List.range (cnt + 1)).all fun k =>
      match (stepRaw r sd sa sb sc k).map decodeRaw with
      | some (.ok i) => limitsOk i g w
      | _ => false

end Sys2Proof.Machine
end

