-- ==== Sys2Proof/Machine/Pages.lean ====
section
/-! DEFINITION. Frames, free lists, the copy-on-write break and twin entries (R344 to R352). -/

namespace Sys2Proof.Machine

open Sys2Proof

/-- Replace field `hi:lo` of a number. -/
def setField (x hi lo v : Nat) : Nat := x - field x hi lo * 2 ^ lo + v % 2 ^ (hi + 1 - lo) * 2 ^ lo

/-! ### FRAMETAB and the free lists (R346, R347) -/

def ftOn (s : State) : Bool := bit s.sup.frametab 0
def ftAddr (s : State) (i : Nat) : Nat := bits s.sup.frametab 51 16 * 65536 + 16 * i

/-- The entry of a frame, as 128 bits; its reserved bits are ignored (log 66). -/
def ftGet (s : State) (i : Nat) : Nat := coherentNat s (ftAddr s i) 16
def ftPut (s : State) (i x : Nat) : State := rawWriteNat s (ftAddr s i) x 16

def ftCount (e : Nat) : Nat := field e 23 0
def ftFree (e : Nat) : Bool := field e 31 31 == 1

/-- The die of a frame index. -/
def frameDie (i : Nat) : Nat := i / 2 ^ 21

def freeList (s : State) (d : Nat) : Nat := (sGet 0 s.sup.freelist d).toNat
def setFreeList (s : State) (d count head : Nat) : State :=
  { s with sup := { s.sup with freelist := sSet 0 s.sup.freelist d (BitVec.ofNat 64 (count % 2 ^ 24 * 2 ^ 24 + head % 2 ^ 24)) } }

/-- Frames on a die's list. -/
def freeCount (s : State) (d : Nat) : Nat := field (freeList s d) 47 24

/-- Take the head frame of a die's list (R347). -/
def takeFrame (s : State) (d : Nat) : Option (Nat × State) :=
  if freeCount s d == 0 then none
  else
    let i := field (freeList s d) 23 0
    let e := ftGet s i
    let s := setFreeList s d (freeCount s d - 1) (field e 87 64)
    some (i, ftPut s i (setField e 31 31 0))

/-- Push a frame at the head of its die's list (R347); a retired frame stays off it (R443). -/
def pushFrame (s : State) (i : Nat) : State :=
  if s.host.retiredFrames.contains i then s else
  let d := frameDie i
  let e := setField (setField (ftGet s i) 31 31 1) 87 64 (field (freeList s d) 23 0)
  setFreeList (ftPut s i e) d (freeCount s d + 1) i

/-- The frame index of a physical frame, where FRAMETAB has an entry for it. -/
def frameIdx (s : State) (pa : Nat) : Option Nat :=
  if ftOn s && spaceOf s pa == .hbm && pa % 65536 == 0 then some (frameOf pa) else none

def framePa (s : State) (i : Nat) : Nat := s.fab.pkg * 2 ^ 44 + i * 65536

/-! ### Moving the bytes of a page -/

/-- Offsets within a 64 KiB frame at which its CXL device lists a byte; decoders are aligned to 256 MiB (R409). -/
def devIn (s : State) (pa : Nat) : List Nat :=
  match devKey s pa with
  | some k => (s.mem.dev.filter fun e => k ≤ e.1 && e.1 < k + 65536).map fun e => e.1 - k
  | none => []

/-- Offsets within a 64 KiB frame at which anything is listed. -/
def listedIn (s : State) (pa : Nat) : List Nat :=
  let f (ks : List Nat) : List Nat := (ks.filter fun k => pa ≤ k && k < pa + 65536).map fun k => k - pa
  (f (s.mem.bytes.map fun e => e.1) ++ devIn s pa ++ f (s.mem.msc.map fun e => e.1) ++ f (s.mem.l2.map fun e => e.1)
    ++ (s.mem.dir.flatMap fun e => f (if e.2.owner.isSome then (List.range 4).map fun i => 4 * e.1 + i else []))).eraseDups

/-- Keys of a table, in units of `unit` bytes, moved from one frame to another. -/
def movedKeys {α : Type} (m : Store α) (unit src dst : Nat) : Store α :=
  (m.filter fun e => src ≤ unit * e.1 && unit * e.1 < src + 65536).map fun e => ((unit * e.1 - src + dst) / unit, e.2)

/-- Entries of a table outside a frame. -/
def outsideFrame {α : Type} (m : Store α) (unit dst : Nat) : Store α :=
  sFilter m fun k _ => !(dst ≤ unit * k && unit * k < dst + 65536)

/-- Copy the 65,536 bytes of one frame to another, as the homes order them, with poison marks and release tags, those of
words that an L1 owns or holds dirty among them: a move changes no value that any party can read (R276, R349, R355;
log 25). -/
def copyPage (s : State) (src dst : Nat) : State :=
  let owned := s.mem.dir.filter fun e => e.2.owner.isSome && src ≤ 4 * e.1 && 4 * e.1 < src + 65536
  let s := owned.foldl (fun s e => recallWord s e.1 true) s
  let s := (s.cus.map fun e => e.1).foldl (fun s c =>
    ((l1Words s c).filter fun w => src ≤ 4 * w && 4 * w < src + 65536).foldl (fun s w => writeBackWord s c w) s) s
  let s := purgeRange (icForget s dst 65536) dst 65536
  let vals := ((listedIn s src ++ listedIn s dst).eraseDups).map fun o => (dst + o, coherentByte s (src + o))
  let s := vals.foldl (fun s e => setHomeByte s e.1 e.2) s
  { s with mem := { s.mem with
      rel := (movedKeys s.mem.rel 4 src dst).foldl (fun m e => sInsert m e.1 e.2) (outsideFrame s.mem.rel 4 dst)
      poison := (movedKeys s.mem.poison 32 src dst).foldl (fun m e => sInsert m e.1 e.2)
        (outsideFrame s.mem.poison 32 dst) } }

/-- Fill a frame with bytes; missing ones are zero. -/
def fillPage (s : State) (dst : Nat) (bs : List Byte) : State :=
  let s := purgeRange (icForget s dst 65536) dst 65536
  let s := (listedIn s dst).foldl (fun s o => setHomeByte s (dst + o) 0) s
  let s := (bs.zipIdx.filter fun e => e.1 != 0).foldl (fun s e => setHomeByte s (dst + e.2) e.1) s
  { s with mem := { s.mem with poison := outsideFrame s.mem.poison 32 dst, rel := outsideFrame s.mem.rel 4 dst } }

/-- Up to one frame of bytes from `pa` become zero, with empty release tags and no poison marks (R326); no copy of them stays. -/
def clearRange (s : State) (pa n : Nat) : State :=
  let s := purgeRange (icForget s pa n) pa n
  let s := ((listedIn s pa).filter fun o => o < n).foldl (fun s o => setHomeByte s (pa + o) 0) s
  { s with mem := { s.mem with
      rel := sFilter s.mem.rel fun k _ => !(pa ≤ 4 * k && 4 * k < pa + n)
      poison := sFilter s.mem.poison fun k _ => !(pa ≤ 32 * k && 32 * k + 32 ≤ pa + n) } }

/-! ### Writing page-table entries (R344) -/

def putPte (s : State) (addr e : Nat) : State := rawWriteNat s addr e 8

/-- A request carries translated addresses that its home, here or in another package, has still to act on (R242). -/
def Req.underWay (r : Req) : Bool :=
  (r.stage == .home || r.stage == .ext) && r.kind != .fetch && r.kind != .read && r.kind != .wback

/-- A request has been translated and not yet performed at its home, on a page of a context; `skip` leaves one out. A cas
that met a copy-on-write page is translated again at its home, so that a break does not wait for it (R176); `all` counts it
as well. -/
def openOnPage (s : State) (t : Tag) (va : Addr) (skip : Option Nat) (all : Bool) : Bool :=
  s.reqs.any fun e => some e.1 != skip && e.2.ctx == t && e.2.underWay
    && e.2.accs.any fun a => (all || !a.cow) && a.va.toNat / 65536 == va.toNat / 65536

/-! ### The copy-on-write break (R348 to R350) -/

/-- What a break comes to: done, not possible, or to be judged again after the accesses that hold it up. -/
inductive BreakRes
  | done (s : State)
  | noFrame
  | wait

/-- THE BREAK of the page of an address in a context (R349). It is abandoned where the entry is no longer the one that the walk
read, `seen` (R344); a page that is not copy-on-write, or no longer mapped, needs none. It waits until proxies of other packages
have given back what they own of the frame. -/
def breakPage (s : State) (t : Tag) (va : Addr) (skip : Option Nat) (seen : Option (BitVec 64)) : BreakRes :=
  match walk s t va with
  | .leaf e addr level =>
    if !bit e 6 || 2 ≤ pteTier e || (seen.any fun x => x != e) then .done s
    else
      match frameIdx s (ptePa e) with
      | none => .noFrame
      | some f =>
        let n := ftCount (ftGet s f)
        if level != 4 || n == 0 then .noFrame
        else if openOnPage s t va skip false || farHolds s (framePa s f) 65536 then .wait
        else if n == 1 then .done (tlbDropPage (putPte s addr (setField e.toNat 6 6 0)) t va)
        else
          match takeFrame s (frameDie f) with
          | none => .noFrame
          | some (i, s) =>
            let s := copyPage s (framePa s f) (framePa s i)
            let s := ftPut s i (setField (setField (ftGet s i) 23 0 1) 63 48 t.toNat)
            let s := ftPut s f (setField (ftGet s f) 23 0 (n - 1))
            let x := setField (setField e.toNat 51 8 (framePa s i / 256)) 6 6 0
            .done (tlbDropPage (putPte s addr x) t va)
  | _ => .done s

/-! ### TWINTAB (R351) -/

/-- Set or clear a flag of the FRAMETAB entry of a frame, where it has one. -/
def ftFlag (s : State) (pa b : Nat) (on : Bool) : State :=
  match frameIdx s pa with
  | some i => ftPut s i (setField (ftGet s i) b b (if on then 1 else 0))
  | none => s

def twinCount (s : State) : Nat := 256 * (bits s.sup.twintab 59 52 + 1)
/-- An entry of TWINTAB, as 256 bits; its reserved bits are ignored (log 66). -/
def twinGet (s : State) (i : Nat) : Nat := coherentNat s (twinAddr s i) 32
def twinPut (s : State) (i x : Nat) : State := rawWriteNat s (twinAddr s i) x 32

/-- Indices of the valid entries of a context and set. -/
def twinsOf (s : State) (t : Tag) (set : Nat) : List Nat :=
  if !bit s.sup.twintab 0 then []
  else (List.range (twinCount s)).filter fun i =>
    let e := coherentNat s (twinAddr s i) 4
    field e 0 0 == 1 && field e 9 4 == set && field e 31 16 == t.toNat

/-- FRAMETAB marks the frame that SEL does not select, and no longer the other (R351). -/
def markShadow (s : State) (e : Nat) : State :=
  let a := field e 191 128
  let b := field e 255 192
  if field e 1 1 == 0 then ftFlag (ftFlag s a 29 false) b 29 true else ftFlag (ftFlag s b 29 false) a 29 true

/-- PUBLISH: the selector of every entry of the set is inverted, as a release write at scope pkg, FRAMETAB marks the new shadows,
and the set's translations are removed (R271, R351, R353). -/
def flipSet (s : State) (t : Tag) (set : Nat) : State :=
  (twinsOf s t set).foldl (fun s i =>
    let e := twinGet s i
    let x := setField e 1 1 (1 - field e 1 1)
    let s := markShadow ((twinPut s i x).setRelTag (twinAddr s i / 4) 3) x
    tlbDropPage s t (BitVec.ofNat 64 (field e 127 64))) s

end Sys2Proof.Machine
end

