-- ==== Sys2Proof/Machine/Request.lean ====
section
/-! DEFINITION. Judging the lanes of a memory instruction (R149 to R154), the windows of cluster peers, requests and the
outstanding-transaction table (R145, R320, R321), releases and acquires (R257, R258, R267), and copies in the L1 (R308,
R310). -/

namespace Sys2Proof.Machine

open Sys2Proof

/-! ### Judged lanes -/

/-- A lane that may act: lane, virtual address (or offset), physical address, software-managed, and whether a cas
met a copy-on-write page (R176). -/
structure Good where
  lane : Nat
  va : Addr
  pa : Nat
  sm : Bool
  cow : Bool
deriving DecidableEq, Repr

/-- What judging the lanes gives. -/
structure Judged where
  good : List Good
  faults : List LFault
  cows : List (Nat × Addr)
  wait : Bool
deriving DecidableEq, Repr

def Judged.none : Judged := ⟨[], [], [], false⟩

/-- The physical address a walk finds behind a copy-on-write page (R176). -/
def cowPa (s : State) (t : Tag) (va : Addr) : Nat × Bool :=
  match walk s t va with
  | .leaf e _ level => (leafPa s e level va false, bit e 5)
  | _ => (0, false)

/-- The context of a warp. -/
def tagOf (s : State) (w : WarpId) : Tag := ((s.warp? w).map Warp.tag).getD 0

/-- Judge one global address: alignment, translation, then the conditions on the physical address (R149). -/
def judgeOne (s : State) (w : WarpId) (k : AccKind) (align : Nat) (cas : Bool) (post : Nat → Option Nat)
    (l : Nat) (va : Addr) (j : Judged) : Judged × State :=
  if va.toNat % align != 0 then ({ j with faults := j.faults ++ [⟨l, 0x04, va, none⟩] }, s)
  else
    let ok (pa : Nat) (sm cow : Bool) : Judged :=
      match post pa with
      | some c => { j with faults := j.faults ++ [⟨l, c, va, none⟩] }
      | none => { j with good := j.good ++ [⟨l, va, pa, sm, cow⟩] }
    match translate s (cuOf (gidOf w)) (tagOf s w) (isSup w) k va with
    | (.ok pa sm, s) => (ok pa sm false, s)
    | (.fault c, s) => ({ j with faults := j.faults ++ [⟨l, c, va, none⟩] }, s)
    | (.cow, s) =>
      if cas then let p := cowPa s (tagOf s w) va; (ok p.1 p.2 true, s)
      else ({ j with cows := j.cows ++ [(l, va)] }, s)
    | (.wait, s) => ({ j with wait := true }, s)

/-- Judge the addresses of all lanes, ascending. -/
def judge (s : State) (w : WarpId) (k : AccKind) (align : Nat) (cas : Bool) (post : Nat → Option Nat)
    (vas : List (Nat × Addr)) : Judged × State :=
  vas.foldl (fun js e => judgeOne js.2 w k align cas post e.1 e.2 js.1) (Judged.none, s)

/-- A fault of cause 0x14 puts its address in the violation log (R177). -/
def logRegion (s : State) (w : WarpId) (fs : List LFault) : State :=
  (fs.filter fun f => f.cause == 0x14).foldl (fun s f =>
    violate s 1 0x14 (tagOf s w) f.addr.toNat (srcOf (cuOf (gidOf w)))) s

/-- Conditions on a physical address: a write to a local view (0x13), a region accessed other than as it allows (0x14)
(R148, R150). -/
def postPlain (s : State) (store unc : Bool) (pa : Nat) : Option Nat :=
  if store && spaceOf s pa == .view then some 0x13
  else if !unc && (accEnt s pa).isSome then some 0x14 else none

/-- Every lane faults with the first fault of the list, as where a channel operand is named (R154), or a tile operation
is refused whole (R208). -/
def faultAll (exec : Mask) (fs : List LFault) : List LFault :=
  match fs with
  | [] => []
  | f :: _ => (lanesOf exec).map fun l => (fs.find? fun g => g.lane == l).getD { f with lane := l }

/-- The addresses of a 64-bit source plus an offset, for the acting lanes. -/
def addrs (s : State) (x : Issue) (a : Operand) (off : Word) : List (Nat × Addr) :=
  match s.warp? x.w with
  | some wp => x.act.map fun l => (l, srcLane s x wp a 2 l + off.signExtend 64)
  | none => []

/-- The scratchpad offsets of a 32-bit source plus an offset (R152). -/
def offs (s : State) (x : Issue) (a : Operand) (off : Word) : List (Nat × Nat) :=
  match s.warp? x.w with
  | some wp => x.act.map fun l => (l, (loWord (srcLane s x wp a 1 l) + off).toNat)
  | none => []

/-! ### Windows of cluster peers (R152, R153) -/

/-- The group whose window an access names: none where PEER names no member. -/
def windowOf (s : State) (g : GroupId) (pv : Bool) (peer : Nat) : Option GroupId :=
  if !pv then some g
  else
    match (s.group? g).bind fun gr => gr.cluster.bind fun k => sFind? s.clusters k with
    | some c => c.groups.find? fun h => peerIndex c h == peer
    | none => if peer == 0 then some g else none

/-- Judge scratchpad offsets of `n` bytes in a window (R152, R153). -/
def judgePad (s : State) (tgt : Option GroupId) (n : Nat) (os : List (Nat × Nat)) : Judged :=
  let size := match tgt.bind s.group? with | some g => g.winSize | none => 0
  os.foldl (fun j e =>
    if e.2 % n != 0 then { j with faults := j.faults ++ [⟨e.1, 0x04, BitVec.ofNat 64 e.2, none⟩] }
    else if tgt.isNone || size ≤ e.2 then { j with faults := j.faults ++ [⟨e.1, 0x11, BitVec.ofNat 64 e.2, none⟩] }
    else { j with good := j.good ++ [⟨e.1, BitVec.ofNat 64 e.2, e.2, false, false⟩] }) Judged.none

/-- The window belongs to a cluster peer that suffered a fatal fault (R359). -/
def windowDead (s : State) (g h : GroupId) : Bool := g != h && ((s.group? h).map Group.failed).getD false

/-- The address of an error in a scratchpad window: the offset, and for a peer's window PEER·2^20 + offset, as R359 has it for a
failed one (log 82). -/
def padTrapAddr (m : MemExt) (off : Addr) : Addr := if m.pv then BitVec.ofNat 64 (m.peer.toNat * 2 ^ 20) + off else off

/-- An access to a failed window: each address enters the violation log (R359). -/
def deadPeer (s : State) (w : WarpId) (m : MemExt) (gs : List Good) : State :=
  gs.foldl (fun s g => violate s 1 0x15 (tagOf s w) (padTrapAddr m g.va).toNat (srcOf (cuOf (gidOf w)))) s

/-- Mark a load's destination faulted in its lanes (R151); `load` is the tick of the load's issue. -/
def markBad (s : State) (w : WarpId) (d : Operand) (wid : Wid) (cause load : Nat) (gs : List (Nat × Addr)) : State :=
  match regNum d with
  | none => s
  | some n => s.modWarp w fun x => { x with bads := x.bads ++ gs.map fun g => ⟨g.1, n, wid, cause, g.2, load⟩ }

/-! ### Order: releases and acquires -/

/-- The code of a scope as a release tag; cl counts as pkg (R266, R319). -/
def scopeTag : Scope → BitVec 3
  | .cu => 1 | .cl => 3 | .die => 2 | .pkg => 3 | .gal => 4 | .sys => 5

/-- The wider of two scopes, by the table of R252. -/
def wider (a b : Scope) : Scope :=
  let rank : Scope → Nat
    | .cu => 0 | .die => 1 | .cl => 2 | .pkg => 2 | .gal => 3 | .sys => 4
  if rank a < rank b then b else a

/-- The tag a write of the warp sets: that of its own order, and of its widest fence so far (R257, R266). -/
def relTagOf (x : Warp) (ord : Order) (scp : Scope) : BitVec 3 :=
  let own : Option Scope := if ord == .rel || ord == .ar then some scp else none
  match own, x.relScope with
  | none, none => 0
  | some a, none | none, some a => scopeTag a
  | some a, some b => scopeTag (wider a b)

/-- Pool bytes that are dirty in L2 or in a memory-side cache pass to their devices, where their groups carry traffic
(R275, R425). -/
def poolOut (s : State) : State :=
  let ks := ((s.mem.l2 ++ s.mem.msc).filter fun e => spaceOf s e.1 == .pool && poolWay s e.1 == .carried).map fun e => e.1
  ks.foldl (fun s k =>
    let s := setStoreByte s k (sliceByte s k)
    { s with mem := { s.mem with l2 := sErase s.mem.l2 k, msc := sErase s.mem.msc k } }) s

/-- What a release covers has to be accepted at its scope: the CU's dirty bytes go home, except at scope cu, and what is
dirty of the pools goes to the devices (R275, R310). -/
def releaseAt (s : State) (w : WarpId) (scp : Scope) : State :=
  if scp == .cu then s else poolOut (flushDirty s (cuOf (gidOf w)))

/-- Blocks of other packages with bytes that are dirty in a proxy, or in the CU's L1. -/
def farDirty (s : State) (c : CuId) : List Nat :=
  let ls : List Nat := (s.mem.l2.map fun e => e.1 / 128)
    ++ ((s.cu c).l1.filter fun e => e.2.dirty != 0 && !e.2.sm).map fun e => e.1 / 32
  (ls.filter fun b => spaceOf s (128 * b) == .far).eraseDups

/-- A byte dirty here belongs to a pool whose group is out of ACTIVE, so that its device cannot complete it (R413, R425). -/
def poolStuck (s : State) (c : CuId) : Bool :=
  ((s.mem.l2 ++ s.mem.msc).any fun e => spaceOf s e.1 == .pool && poolWay s e.1 == .waits)
    || (s.cu c).l1.any fun e => e.2.dirty != 0 && spaceOf s (4 * e.1) == .pool && poolWay s (4 * e.1) == .waits

/-- Everything that a release of a CU covers can be accepted now: nothing of it stands in a proxy, or waits for a device
(R275). -/
def cuReady (s : State) (c : CuId) : Bool := (farDirty s c).isEmpty && !poolStuck s c

def releaseReady (s : State) (w : WarpId) (scp : Scope) : Bool := scp == .cu || cuReady s (cuOf (gidOf w))

/-- The CU's si copies go, and what the warp has seen counts no more (R267). -/
def dropAt (s : State) (w : WarpId) : State :=
  (dropSi s (cuOf (gidOf w))).modWarp w fun x => { x with sawTag := false }

/-- The warp's accesses may not begin: it waits for a flush-by-tag (R363), or an acquire is pending (R258). -/
def heldBack (s : State) (w : WarpId) (global : Bool) : Bool :=
  acquirePending s w || (global && ((s.warp? w).map Warp.noMem).getD false)

/-- The depth of a triggered group, which its accs carry (R379); 0 for any other. -/
def groupDepth (s : State) (g : GroupId) : Nat := (((s.group? g).bind fun x => x.trig).map TrigTag.depth).getD 0

/-- The depth a write of a group carries (R390). -/
def writeDepth (s : State) (g : GroupId) : Nat :=
  match (s.group? g).bind fun x => x.trig with
  | some t => t.depth + 1
  | none => 0

/-! ### The outstanding-transaction table (R320, R321) -/

/-- Entries of a warp place that are taken. -/
def tableUsed (s : State) (c : CuId) (place : Nat) : Nat :=
  (s.reqs.filter fun e => e.2.cu == c && e.2.place == place).length

/-- `n` entries are free for a warp. -/
def tableRoom (s : State) (w : WarpId) (n : Nat) : Bool :=
  tableUsed s (cuOf (gidOf w)) (((s.warp? w).map Warp.place).getD 0) + n ≤ 64

/-- birfdb keeps stores of a CU and a context to some bytes (R282). -/
def holdsStore (s : State) (c : CuId) (t : Tag) (va : Addr) (n : Nat) : Bool :=
  s.dbg.holds.any fun h => h.2.1 == c && h.2.2.2 == t && h.2.2.1.toNat < va.toNat + n && va.toNat < h.2.2.1.toNat + 4

/-- A store request that a hold keeps; it goes as a wt store, whatever its request type (R282). -/
def heldStore (s : State) (r : Req) : Req :=
  if r.accs.any fun a => holdsStore s r.cu r.ctx a.va a.data.length then
    match r.kind with
    | .store _ => { r with kind := .store .wt, dbgHold := true, wasHeld := true }
    | .tileSt _ => { r with kind := .tileSt .wt, dbgHold := true, wasHeld := true }
    | _ => r
  else { r with dbgHold := false }

/-- The words of an access. -/
def wordsOf (pa n : Nat) : List Nat := (List.range ((pa % 4 + n + 3) / 4)).map fun i => pa / 4 + i

/-- Bytes of one access. -/
def Req.accBytes (r : Req) (a : Acc) : Nat := if a.data.isEmpty then r.wid'.bytes else a.data.length

/-- Words from the lowest to the highest that some lanes touch in a block (R145). -/
def spanWords (r : Req) (as : List Acc) : List Nat :=
  let ws := as.flatMap fun a => wordsOf a.pa (r.accBytes a)
  match ws with
  | [] => []
  | w :: rest =>
    let lo := rest.foldl min w
    let hi := rest.foldl max w
    (List.range (hi + 1 - lo)).map fun i => lo + i

/-- Words that a byte mask touches (R315). -/
def maskWords (as : List Acc) : List Nat := (as.flatMap fun a => wordsOf a.pa a.data.length).eraseDups

/-- The words on which a home, or a proxy, acts for a request (R315). -/
def reqWords (r : Req) : List Nat :=
  match r.kind with
  | .load _ | .pref _ => spanWords r r.accs
  | .tileLd _ => ((r.accs.map fun a => a.pa / 128).eraseDups).flatMap fun b => spanWords r (r.accs.filter fun a => a.pa / 128 == b)
  | _ => maskWords r.accs

/-- The state in which a proxy has to hold a word to serve a request itself (R313). -/
def proxNeeds (r : Req) (st : L1St) : Bool :=
  match r.kind with
  | .load .own | .store .own | .tileLd .own | .tileSt .own => st == .own
  | .load .wt | .tileLd .wt => st == .own || st == .wt
  | .load .si | .tileLd .si => st != .si || (r.ord != .acq && r.ord != .ar)
  | _ => false

/-- The proxy serves a request: it holds its words, or for an acc its line, so that it acts as their home (R313, R376). -/
def proxServes (s : State) (r : Req) : Bool :=
  if r.kind == .acc then (sFind? s.mem.accProx r.blk).isSome
  else !r.sm && !r.accs.isEmpty && (reqWords r).all fun w => match proxOf s w with | some st => proxNeeds r st | none => false

/-- A request that waits at its source leaves its proxy's die by the next group of the die's rotation, where it may be sent, with
the next number of its stream (R413, R418, R420, R423). -/
def depart (s : State) (r : Req) : Req × State :=
  match r.accs with
  | a :: _ =>
    if r.plane.isSome || r.dbgHold then (r, s)
    else
      match sendOut s r.out (field a.pa 51 44) (field a.pa 39 37) with
      | (some p, s) => ({ r with plane := some p.1, num := p.2 }, s)
      | (none, s) => (r, s)
  | [] => (r, s)

/-- Where a request to another package goes: to the proxy that can serve it, else out of the package (R313). -/
def sendReq (s : State) (r : Req) : Req × State :=
  if r.stage != .ext || r.dbgHold then (r, s) else if proxServes s r then ({ r with stage := .home }, s) else depart s r

/-- Add a request of a warp. -/
def addReq (s : State) (r : Req) : Nat × State :=
  let (k, s) := s.fresh
  let (r, s) := sendReq s (if s.dbg.holds.isEmpty then r else heldStore s r)
  (k, { s with reqs := sInsert s.reqs k r })

/-- A request for a warp with nothing in it. -/
def Req.blank (s : State) (w : WarpId) (kind : ReqKind) : Req :=
  { wid := w, cu := cuOf (gidOf w), place := ((s.warp? w).map Warp.place).getD 0, kind := kind, blk := 0, accs := [],
    wid' := .b4, sx := false, dst := none, ctx := tagOf s w, sm := false, ord := .rlx, scp := .cu, rel := 0,
    depth := writeDepth s (gidOf w), stage := .home, vals := [], span := (0, 0), issued := s.tick, plane := none, num := 0, dbgHold := false, wasHeld := false }

/-- Where a request goes first: to a home of this package, or outside (R313, R411). -/
def stageOf (s : State) (pa : Nat) : Stage := if spaceOf s pa == .far then .ext else .home

/-- The dirty bytes of a block of another package go from the proxies to the remote home, each with the release tag of its word
(R313, R319). -/
def sendBlock (s : State) (w : WarpId) (c : CuId) (b : Nat) : State :=
  let bs := s.mem.l2.filter fun e => e.1 / 128 == b
  (addReq s { Req.blank s w .wback with
    cu := c, blk := b, place := 32, stage := .ext, accs := bs.map fun e => ⟨0, 0, e.1, [e.2], [(s.relTag (e.1 / 4)).setWidth 8], 0, false⟩ }).2

/-- A release of a CU begins, for a warp or a unit: its dirty bytes go to their homes and proxies, and the proxies write
back to the remote homes, each byte with the release tag of its word, which the release waits for (R275, R313, R319, log 67). -/
def releaseBy (s : State) (w : WarpId) (c : CuId) : State :=
  let s := poolOut (flushDirty s c)
  (farDirty s c).foldl (fun s b => sendBlock s w c b) s

def releaseBegin (s : State) (w : WarpId) : State := releaseBy s w (cuOf (gidOf w))

/-- The 128-byte blocks of some lanes, in order of first use. -/
def blocksOf (gs : List Good) : List Nat := (gs.map fun g => g.pa / 128).eraseDups

/-! ### Copies in the L1 (R308 to R310, R362) -/

/-- Lines of another context are written back and dropped before they are used (R362). -/
def ctxClean (s : State) (c : CuId) (t : Tag) (blk : Nat) : State :=
  ((s.cu c).l1.filter fun e => e.1 / 32 == blk && e.2.ctx != t).foldl (fun s e => flushWord s c e.1) s

/-- A byte of a store that birfdb holds in a CU, with the tag that the store sets; the latest such store counts (R261, R282). -/
def heldByte (s : State) (c : CuId) (pa : Nat) : Option (Byte × BitVec 3) :=
  if s.dbg.holds.isEmpty then none
  else
    ((s.reqs.filter fun e => e.2.dbgHold && e.2.cu == c).foldl (fun (b : Option (Byte × BitVec 3)) e =>
      match e.2.accs.findSome? fun a => if a.pa ≤ pa && pa < a.pa + a.data.length then a.data[pa - a.pa]? else none with
      | some x => some (x, e.2.rel)
      | none => b) none)

/-- A held store covers a byte of an access. -/
def heldHere (s : State) (c : CuId) (pa n : Nat) : Bool := (List.range n).any fun i => (heldByte s c (pa + i)).isSome

/-- A load of a request type is answered from the L1 (R144, R309, R310, R317). -/
def loadHit (s : State) (c : CuId) (rt : ReqType) (acq : Bool) (pa n : Nat) : Bool :=
  (wordsOf pa n).all fun w =>
    match s.l1 c w with
    | none => false
    | some x =>
      match rt with
      | .unc => false
      | .own => x.st == .own || x.sm
      | .wt => x.st == .own || x.st == .wt || x.sm
      | .si => !acq || x.st == .own || x.st == .wt || x.sm

/-- A load is answered in its CU where a held store covers some of its bytes and the L1 answers the others (R261, R282). -/
def heldHit (s : State) (c : CuId) (rt : ReqType) (acq : Bool) (pa n : Nat) : Bool :=
  heldHere s c pa n && (List.range n).all fun i => (heldByte s c (pa + i)).isSome || loadHit s c rt acq (pa + i) 1

/-- An own store is accepted in the L1 (R310, R317), unless birfdb holds it (R282). -/
def storeHit (s : State) (c : CuId) (t : Tag) (va : Addr) (pa n : Nat) : Bool :=
  !holdsStore s c t va n && (wordsOf pa n).all fun w => match s.l1 c w with | none => false | some x => x.st == .own || x.sm

/-- Bytes as a CU holds them: in its L1, or in a held store. -/
def l1Bytes (s : State) (c : CuId) (pa n : Nat) : List Byte :=
  (List.range n).map fun i =>
    match heldByte s c (pa + i) with
    | some b => b.1
    | none =>
      match s.l1 c ((pa + i) / 4) with
      | some x => byteOf x.data.toNat ((pa + i) % 4)
      | none => 0

/-- The release tag of an access, as the CU holds it. -/
def l1Tag (s : State) (c : CuId) (pa n : Nat) : BitVec 3 :=
  let t := widestTag (fun w => match s.l1 c w with | some x => x.rel | none => 0) (wordsOf pa n)
  if !heldHere s c pa n then t
  else widestTag (fun i => if i == n then t else ((heldByte s c (pa + i)).map fun b => b.2).getD 0) (List.range (n + 1))

def l1Poison (s : State) (c : CuId) (pa n : Nat) : Bool :=
  (wordsOf pa n).any fun w => match s.l1 c w with
    | some x => x.poison && (List.range 4).any fun i => pa ≤ 4 * w + i && 4 * w + i < pa + n && (heldByte s c (4 * w + i)).isNone
    | none => false

/-- Words that some bytes write whole. -/
def wholeWords (bs : Bytes) : List Nat :=
  ((bs.map fun e => e.1 / 4).eraseDups).filter fun w => (List.range 4).all fun i => bs.any fun e => e.1 == 4 * w + i

/-- Write bytes into copies that the L1 holds; `dirty` for an own store of a writer's depth, which sets the words' tags. A copy
that is written whole loses its poison mark (R326, R441, log 85). -/
def l1Write (s : State) (c : CuId) (bs : Bytes) (dirty : Bool) (tag : BitVec 3) (depth : Nat) : State :=
  let s := bs.foldl (fun s e =>
    match s.l1 c (e.1 / 4) with
    | none => s
    | some x =>
      let y := { x with data := setByteOf x.data (e.1 % 4) e.2, rel := tag }
      s.setL1 c (e.1 / 4)
        (if dirty then { y with dirty := y.dirty ||| ((1 : BitVec 4) <<< (e.1 % 4)), st := .own, depth := max y.depth depth } else y)) s
  (wholeWords bs).foldl (fun s w =>
    match s.l1 c w with
    | some x => if x.poison then s.setL1 c w { x with poison := false } else s
    | none => s) s

/-- Two halves of an aligned 8 bytes that an L1 has not filled together are not kept together while one of them is an si
copy, so that no load finds parts of one write in them (R254). -/
def dropHalf (s : State) (c : CuId) (word : Nat) (ws : List Nat) : State :=
  let other := word / 2 * 2 + (1 - word % 2)
  if ws.contains other then s
  else
    match s.l1 c other with
    | some x => if x.st == .si && !x.sm then s.dropL1 c other else s
    | none => s

/-- The bytes a lane writes, by address. -/
def bytesAt (pa : Nat) (bs : List Byte) : Bytes := bs.zipIdx.map fun e => (pa + e.2, e.1)

/-- The value a load writes for its bytes (R142). -/
def extBytes (n : Nat) (sx : Bool) (bs : List Byte) : List Byte :=
  if n < 4 then
    let x := ofBytes bs
    bytesOf (trunc (if sx then sExt (BitVec.ofNat 32 x) (8 * n) else zExt (BitVec.ofNat 32 x) (8 * n)) 32 : Word).toNat 4
  else bs

/-- Write a loaded value to a lane of D. -/
def putLoaded (s : State) (w : WarpId) (d : Operand) (l n : Nat) (sx : Bool) (bs : List Byte) : State :=
  s.modWarp w fun x => putBytes x d l (extBytes n sx bs)

/-- A warp has seen a value with a release tag; an acquire drops the si copies at once (R267). -/
def sawValue (s : State) (w : WarpId) (tagged acq : Bool) : State :=
  if !tagged then s
  else if acq then dropAt s w
  else s.modWarp w fun x => { x with sawTag := true }

end Sys2Proof.Machine
end

