-- ==== Sys2Proof/Machine/Mem.lean ====
section
/-! DEFINITION. Loads and stores of global memory and scratchpad (R142 to R154), full/empty words (R155 to R158) and
prefetch (R161). -/

namespace Sys2Proof.Machine

open Sys2Proof

/-! ### Loads of global memory (R142 to R144) -/

/-- A request for the lanes of one block. -/
def loadReq (s : State) (x : Issue) (kind : ReqKind) (m : MemExt) (sx : Bool) (d : Operand) (gs : List Good) (blk : Nat) :
    Req :=
  let mine := gs.filter fun g => g.pa / 128 == blk
  { Req.blank s x.w kind with
    blk := blk, wid' := m.wid, sx := sx, dst := some d, sm := mine.any fun g => g.sm, ord := m.ord, scp := m.scp,
    stage := stageOf s (128 * blk),
    accs := mine.map fun g => ⟨g.lane, g.va, g.pa, [], [], m.wid.regs, false⟩ }

/-- An earlier request of the warp to a block is not performed yet, so that its L1 may not answer in its place (R143). -/
def blockBusy (s : State) (w : WarpId) (blk : Nat) : Bool :=
  s.reqs.any fun e => e.2.wid == w && (e.2.stage == .home || e.2.stage == .ext)
    && e.2.accs.any fun a => a.pa / 128 == blk

/-- As `blockBusy`, but for stores that birfdb holds, which the CU's warps may read (R282). -/
def blockOpen (s : State) (w : WarpId) (blk : Nat) : Bool :=
  s.reqs.any fun e => e.2.wid == w && !e.2.dbgHold && (e.2.stage == .home || e.2.stage == .ext)
    && e.2.accs.any fun a => a.pa / 128 == blk

/-- The L1, or a store that birfdb holds there, answers the lanes of a block. -/
def blockHit (s : State) (x : Issue) (m : MemExt) (gs : List Good) (blk : Nat) : Bool :=
  let mine := gs.filter fun g => g.pa / 128 == blk
  if s.dbg.holds.isEmpty then
    !blockBusy s x.w blk && mine.all fun g => loadHit s (cuOf x.gid) m.rt (m.ord == .acq) g.pa m.wid.bytes
  else
    !blockOpen s x.w blk && mine.all fun g => heldHit s (cuOf x.gid) m.rt (m.ord == .acq) g.pa m.wid.bytes
      || (!blockBusy s x.w blk && loadHit s (cuOf x.gid) m.rt (m.ord == .acq) g.pa m.wid.bytes)

/-- Answer the lanes of a block from the L1. -/
def answerHit (s : State) (x : Issue) (m : MemExt) (sx : Bool) (d : Operand) (gs : List Good) (blk : Nat) : State :=
  let c := cuOf x.gid
  (gs.filter fun g => g.pa / 128 == blk).foldl (fun s g =>
    let n := m.wid.bytes
    if l1Poison s c g.pa n then markBad s x.w d m.wid 0x30 s.tick [(g.lane, g.va)]
    else
      let s := putLoaded s x.w d g.lane n sx (l1Bytes s c g.pa n)
      let tag := l1Tag s c g.pa n
      noteTag (s.modWarp x.w fun w => { w with sawTag := w.sawTag || tag != 0 }) x.w ((regNum d).getD 0) tag) s

/-- Issue the request of a block, and note an acquire that later instructions wait for. -/
def askBlock (s : State) (x : Issue) (r : Req) : State :=
  let (k, s) := addReq s r
  if r.ord == .acq || r.ord == .ar then s.modWarp x.w fun w => { w with acqReq := w.acqReq ++ [k] } else s

/-- The lines of some lanes that another context filled leave the L1 (R362). -/
def cleanBlocks (s : State) (x : Issue) (gs : List Good) : State :=
  (blocksOf gs).foldl (fun s b => ctxClean s (cuOf x.gid) (tagOf s x.w) b) s

/-- A load of lanes that may act: blocks that the L1 holds are answered, the others asked for. -/
def loadGood (s : State) (x : Issue) (kind : ReqKind) (m : MemExt) (sx : Bool) (d : Operand) (gs : List Good) : State :=
  let s := (blocksOf gs).foldl (fun s b =>
    if kind == .load m.rt && blockHit s x m gs b then answerHit s x m sx d gs b
    else askBlock s x (loadReq s x kind m sx d gs b)) s
  if m.ord == .acq && ((s.warp? x.w).map Warp.sawTag).getD false then dropAt s x.w else s

/-- Blocks that need an entry of the table. -/
def loadNeeds (s : State) (x : Issue) (kind : ReqKind) (m : MemExt) (gs : List Good) : Nat :=
  ((blocksOf gs).filter fun b => !(kind == .load m.rt && blockHit s x m gs b)).length

/-- Write the advanced addresses of ldu and stu, in the lanes that did not fault (R142). -/
def advance (s : State) (x : Issue) (a : Operand) (off : Word) (gs : List Good) : State :=
  s.modWarp x.w fun w => gs.foldl (fun w g => putLane w a 2 g.lane (g.va + off.signExtend 64)) w

/-- ld and ldu (R142, R147, R148). -/
def loadBody (upd : Bool) (sx : Bool) (d a : Operand) (m : MemExt) (x : Issue) (s : State) : Res :=
  if heldBack s x.w true then .hold .other s
  else
    let acv := m.opx.toNat
    let post (pa : Nat) : Option Nat :=
      if acv != 0 then if (accEnt s pa).isNone then some 0x14 else none
      else postPlain s false (m.rt == .unc) pa
    let (j, s) := judge s x.w .read (if acv != 0 then 8 else m.wid.bytes) false post
      (addrs s x a (if upd then 0 else m.off))
    let kind : ReqKind := if acv != 0 then .accLoad acv m.tol.toNat else .load m.rt
    let s := cleanBlocks s x j.good
    if j.wait || !tableRoom s x.w (loadNeeds s x kind m j.good) then .hold .other s
    else
      let s := loadGood s x kind m sx d j.good
      let s := if upd then advance s x a m.off j.good else s
      .ok (logRegion s x.w j.faults) j.faults j.cows 0

/-- ld (R142, R147). -/
def execLd (p : Pr) (sx : Bool) (d a : Operand) (x : MemExt) (s : State) : Host.Outcome State Fault Refusal :=
  run (.ld p sx d a x) s (loadBody false sx d a x)

/-- ldu (R142). -/
def execLdu (p : Pr) (sx : Bool) (d a : Operand) (x : MemExt) (s : State) : Host.Outcome State Fault Refusal :=
  run (.ldu p sx d a x) s (loadBody true sx d a x)

/-! ### Stores of global memory (R142 to R145) -/

/-- The data a store takes from B for its acting lanes: a channel's elements, else its registers. -/
def storeData (s : State) (x : Issue) (b : Operand) (n : Nat) : List (List Byte) × State :=
  match b, s.warp? x.w with
  | .ch .., _ =>
    let (vs, s) := gather s x (some ⟨b, 1, true⟩)
    (vs.map fun v => bytesOf v.toNat 4, s)
  | o, some wp =>
    (x.act.map fun l =>
      if n == 16 then (srcQuad wp o l).flatMap fun q => bytesOf q.toNat 4
      else bytesOf (srcLane s x wp o (if n == 8 then 2 else 1) l).toNat n, s)
  | _, _ => ([], s)

/-- A store request for the lanes of one block; `data` pairs lanes with their bytes. -/
def storeReq (s : State) (x : Issue) (m : MemExt) (gs : List (Good × List Byte)) (blk : Nat) : Req :=
  let mine := gs.filter fun g => g.1.pa / 128 == blk
  { Req.blank s x.w (.store m.rt) with
    blk := blk, wid' := m.wid, sm := mine.any fun g => g.1.sm, ord := m.ord, scp := m.scp,
    rel := ((s.warp? x.w).map fun w => relTagOf w m.ord m.scp).getD 0, stage := stageOf s (128 * blk),
    accs := mine.map fun g => ⟨g.1.lane, g.1.va, g.1.pa, g.2, [], 0, false⟩ }

/-- An own store to a block that the L1 owns is accepted there (R310). -/
def ownHit (s : State) (x : Issue) (m : MemExt) (gs : List Good) (blk : Nat) : Bool :=
  m.rt == .own && !blockBusy s x.w blk
    && (gs.filter fun g => g.pa / 128 == blk).all fun g => storeHit s (cuOf x.gid) (tagOf s x.w) g.va g.pa m.wid.bytes

/-- The stores of the lanes that may act. -/
def storeGood (s : State) (x : Issue) (m : MemExt) (gs : List (Good × List Byte)) : State :=
  let goods := gs.map fun g => g.1
  (blocksOf goods).foldl (fun s b =>
    if ownHit s x m goods b then
      l1Write s (cuOf x.gid) ((gs.filter fun g => g.1.pa / 128 == b).flatMap fun g => bytesAt g.1.pa g.2) true
        (((s.warp? x.w).map fun w => relTagOf w m.ord m.scp).getD 0) (writeDepth s x.gid)
    else (addReq s (storeReq s x m gs b)).2) s

/-- st and stu (R142, R148, R150, R154). -/
def storeBody (upd : Bool) (a b : Operand) (m : MemExt) (x : Issue) (s : State) : Res :=
  if heldBack s x.w true || (m.ord == .rel && anyReq s x.w) then .hold .other s
  else if m.ord == .rel && !releaseReady s x.w m.scp then .hold .other (releaseBegin s x.w)
  else
    let (j, s) := judge s x.w .write m.wid.bytes false (postPlain s true (m.rt == .unc))
      (addrs s x a (if upd then 0 else m.off))
    let s := cleanBlocks s x j.good
    if j.wait then .hold .other s
    else if b.isChan && !j.faults.isEmpty then .ok (logRegion s x.w j.faults) (faultAll x.exec j.faults) [] 0
    else if b.isChan && !j.cows.isEmpty then
      .ok s [] (match j.cows with | c :: _ => (lanesOf x.exec).map fun l => (l, c.2) | [] => []) 0
    else if !tableRoom s x.w ((blocksOf j.good).filter fun k => !ownHit s x m j.good k).length then .hold .other s
    else
      let s := if m.ord == .rel then releaseAt s x.w m.scp else s
      let (ds, s) := storeData s x b m.wid.bytes
      let gs := (x.act.zip ds).filterMap fun e => (j.good.find? fun g => g.lane == e.1).map fun g => (g, e.2)
      let s := storeGood s x m gs
      let s := if upd then advance s x a m.off j.good else s
      .ok (logRegion s x.w j.faults) j.faults j.cows 0

/-- st (R142). -/
def execSt (p : Pr) (a b : Operand) (x : MemExt) (s : State) : Host.Outcome State Fault Refusal :=
  run (.st p a b x) s (storeBody false a b x)

/-- stu (R142). -/
def execStu (p : Pr) (a b : Operand) (x : MemExt) (s : State) : Host.Outcome State Fault Refusal :=
  run (.stu p a b x) s (storeBody true a b x)

/-! ### Scratchpad loads and stores (R152 to R154) -/

/-- The scope at which an order on a scratchpad acts: cl for the window of a peer (R153). -/
def padScope (m : MemExt) : Scope := if m.pv then .cl else m.scp

/-- lds: reads are made at once. -/
def ldsBody (sx : Bool) (d a : Operand) (m : MemExt) (x : Issue) (s : State) : Res :=
  if heldBack s x.w false then .hold .other s
  else
    let tgt := windowOf s x.gid m.pv m.peer.toNat
    let j := judgePad s tgt m.wid.bytes (offs s x a m.off)
    match tgt with
    | none => .ok s (faultAll x.exec j.faults) [] 0
    | some h =>
      if d.isChan && !j.faults.isEmpty then .ok s (faultAll x.exec j.faults) [] 0
      else if windowDead s x.gid h then
        let s := deadPeer s x.w m j.good
        .ok (markBad s x.w d m.wid 0x15 s.tick (j.good.map fun g => (g.lane, padTrapAddr m g.va)))
          j.faults [] 0
      else
        let s := if m.ord == .acq && padScope m == .cl then dropAt s x.w else s
        let s := j.good.foldl (fun s g =>
          match s.group? h with
          | none => s
          | some gr =>
            let bs := gr.bytes g.pa m.wid.bytes
            let bad := gr.padBad g.pa m.wid.bytes
            match d with
            | .ch c _ => pushMarked s x.gid c.val (BitVec.ofNat 32 (ofBytes (extBytes m.wid.bytes sx bs))) bad
            | o =>
              if bad then markBad s x.w o m.wid 0x30 s.tick [(g.lane, padTrapAddr m g.va)]
              else putLoaded s x.w o g.lane m.wid.bytes sx bs) s
        .ok s j.faults [] 0

/-- lds (R152). -/
def execLds (p : Pr) (sx : Bool) (d a : Operand) (x : MemExt) (s : State) : Host.Outcome State Fault Refusal :=
  run (.lds p sx d a x) s (ldsBody sx d a x)

/-- Bytes of a window that a queued matrix operation holds (R223). -/
def anyHeld (s : State) (h : GroupId) (n : Nat) (gs : List Good) : Bool :=
  match s.group? h with
  | some g => gs.any fun e => g.isHeld e.pa n
  | none => false

/-- A store refused with an error response is a trap at the next boundary, of all its refused lanes (R150, R228). -/
def storeRefused (s : State) (w : WarpId) (cause : Nat) (gs : List (Nat × Addr)) : State :=
  gs.foldl (fun s g => addAsync s w ⟨cause, g.2, (1 : Mask) <<< g.1⟩) s

/-- sts. -/
def stsBody (a b : Operand) (m : MemExt) (x : Issue) (s : State) : Res :=
  if heldBack s x.w false || (m.ord == .rel && openReq s x.w) then .hold .other s
  else if m.ord == .rel && !releaseReady s x.w (padScope m) then .hold .other (releaseBegin s x.w)
  else
    let tgt := windowOf s x.gid m.pv m.peer.toNat
    let j := judgePad s tgt m.wid.bytes (offs s x a m.off)
    match tgt with
    | none => .ok s (faultAll x.exec j.faults) [] 0
    | some h =>
      if b.isChan && !j.faults.isEmpty then .ok s (faultAll x.exec j.faults) [] 0
      else if anyHeld s h m.wid.bytes j.good then .hold .other s
      else
        let s := if m.ord == .rel then releaseAt s x.w (padScope m) else s
        let (ds, s) := storeData s x b m.wid.bytes
        let gs := (x.act.zip ds).filterMap fun e => (j.good.find? fun g => g.lane == e.1).map fun g => (g, e.2)
        if windowDead s x.gid h then
          let s := deadPeer s x.w m j.good
          .ok (storeRefused s x.w 0x15 (j.good.map fun g => (g.lane, padTrapAddr m g.va)))
            j.faults [] 0
        else .ok (gs.foldl (fun s g => padWrite s h g.1.pa g.2) s) j.faults [] 0

/-- sts (R152). -/
def execSts (p : Pr) (a b : Operand) (x : MemExt) (s : State) : Host.Outcome State Fault Refusal :=
  run (.sts p a b x) s (stsBody a b x)

/-! ### Full/empty words (R155 to R158) -/

/-- The four forms. -/
inductive FeOp | ldfe | ldff | stfe | stff
deriving DecidableEq, Repr

/-- The state an operation waits for: full, empty, or none. -/
def FeOp.waits : FeOp → Option Bool
  | .ldfe | .ldff => some true
  | .stfe => some false
  | .stff => none

def FeOp.isLoad : FeOp → Bool
  | .ldfe | .ldff => true
  | _ => false

/-- The waiter entry of a lane. -/
def waiterOf (c : CU) (w : WarpId) (l : Nat) : Option Waiter := c.waiters.find? fun x => x.wid == w && x.lane == l

/-- A lane that acts leaves its queue; a word that was reserved for it and that it did not act on serves the next. -/
def leaveQueue (s : State) (w : WarpId) (l key : Nat) : State :=
  let s := dropWaiters s fun x => x.wid == w && x.lane == l && x.word != key
  s.modCu (cuOf (key / 2 ^ 20)) fun u => { u with waiters := u.waiters.filter fun x => !(x.wid == w && x.lane == l) }

/-- A lane may act on a word now: the word is in the awaited state, and either it is reserved for this lane, or it is
not reserved and no tracked waiter awaits that state (R156, R157). -/
def feReady (c : CU) (g : Group) (w : WarpId) (l key off : Nat) (want : Option Bool) : Bool :=
  match want with
  | none => true
  | some f =>
    g.isFull off == f
      && match reservedFor c key f with
        | some x => x.wid == w && x.lane == l
        | none => !(c.waiters.any fun x => x.word == key && x.tracked && x.full == f && !(x.wid == w && x.lane == l))

/-- Park a lane on a word: it keeps its place, or takes one of the 64, or parks untracked (R156, R157); a lane that waited
for another word, or another state, leaves that queue. A parked lane ends an excursion (R23). -/
def parkFe (s : State) (c : CuId) (w : WarpId) (l key : Nat) (f : Bool) : State :=
  let s := dropWaiters s fun x => x.wid == w && x.lane == l && !(x.word == key && x.full == f)
  let u : CU := s.cu c
  let s : State :=
    match waiterOf u w l with
    | some x =>
      let mine : Waiter :=
        if x.tracked then { x with served := false } else { x with next := s.fc + min (2 * x.gap) 4096, gap := min (2 * x.gap) 4096 }
      if x.served then
        s.setCu c { u with waiters := mine :: u.waiters.filter fun (y : Waiter) => !(y.wid == w && y.lane == l) }
      else s.setCu c { u with waiters := u.waiters.map fun (y : Waiter) => if y.wid == w && y.lane == l then mine else y }
    | none =>
      let room := decide ((u.waiters.filter fun (x : Waiter) => x.tracked).length < 64)
      s.setCu c { u with waiters := u.waiters ++ [(⟨w, l, key, f, false, room, s.fc + 64, 64⟩ : Waiter)] }
  s.modWarp w fun x =>
    let x := x.setSt ((1 : Mask) <<< l) .fe
    if bit x.exc l then endExcursion x else x

/-- One lane of a full/empty instruction: it acts, or parks (R155). -/
def feLane (op : FeOp) (w : WarpId) (h : GroupId) (d : Option Operand) (s : State) (g : Good) (at_ : Addr) (data : Word) :
    State × Bool :=
  match s.group? h with
  | none => (s, false)
  | some gr =>
    let c := cuOf h
    let key := wordKey h g.pa
    if feReady (s.cu c) gr w g.lane key g.pa op.waits then
      let s := leaveQueue s w g.lane key
      let s := if op.isLoad then
          match d with
          | some o =>
            if gr.padBad g.pa 4 then markBad s w o .b4 0x30 s.tick [(g.lane, at_)]
            else putLoaded s w o g.lane 4 false (gr.bytes g.pa 4)
          | none => s
        else padWrite s h g.pa (bytesOf data.toNat 4)
      (setFull s h g.pa (op != .ldfe), false)
    else (parkFe s c w g.lane key ((op.waits).getD true), true)

/-- A lane of a full/empty instruction finds its word ready. -/
def feLaneReady (s : State) (op : FeOp) (w : WarpId) (h : GroupId) (g : Good) : Bool :=
  match s.group? h with
  | some gr => feReady (s.cu (cuOf h)) gr w g.lane (wordKey h g.pa) g.pa op.waits
  | none => true

/-- A scalar form acts once for the lanes that find the word ready; the others park (R52, R155). -/
def feScalar (op : FeOp) (w : WarpId) (h : GroupId) (d : Option Operand) (s : State) (gs : List Good) (at_ : Addr) (data : Word) :
    State × List Nat :=
  let ready := gs.filter fun g => feLaneReady s op w h g
  let rest := gs.filter fun g => !feLaneReady s op w h g
  let s := match ready with
    | [] => s
    | g :: more => (feLane op w h d (more.foldl (fun s e => leaveQueue s w e.lane (wordKey h g.pa)) s) g at_ data).1
  rest.foldl (fun (r : State × List Nat) g =>
    (parkFe r.1 (cuOf h) w g.lane (wordKey h g.pa) ((op.waits).getD true), g.lane :: r.2)) (s, [])

/-- The body of ldfe, ldff, stfe and stff. A load that only empties the bit of a word that a matrix operation holds does not wait
for it (log 82). In a repeat no lane parks: the warp is held (R21). -/
def feBody (op : FeOp) (d : Option Operand) (a : Operand) (b : Option Operand) (m : MemExt) (x : Issue) (s : State) : Res :=
  if heldBack s x.w false || (!op.isLoad && openReq s x.w) then .hold .other s
  else if !op.isLoad && !releaseReady s x.w (if m.pv then .cl else .cu) then .hold .other (releaseBegin s x.w)
  else
    let tgt := windowOf s x.gid m.pv m.peer.toNat
    let j := judgePad s tgt 4 (offs s x a m.off)
    match tgt with
    | none => .ok s (faultAll x.exec j.faults) [] 0
    | some h =>
      let dead := windowDead s x.gid h
      let errs := j.good.map fun g => (g.lane, padTrapAddr m g.va)
      if dead && op.isLoad then
        let s := deadPeer s x.w m j.good
        .ok (markBad s x.w (d.getD .imm) .b4 0x15 s.tick errs) j.faults [] 0
      else if dead then .ok (storeRefused (deadPeer s x.w m j.good) x.w 0x15 errs) j.faults [] 0
      else if !op.isLoad && anyHeld s h 4 j.good then .hold .other s
      else if x.rep && j.good.any (fun g => !feLaneReady s op x.w h g) then .hold .other s
      else
        let s := if op.isLoad then dropAt s x.w else releaseAt s x.w (if m.pv then .cl else .cu)
        let data (s : State) (l : Nat) : Word :=
          match b, s.warp? x.w with
          | some o, some wp => loWord (srcLane s x wp o 1 l)
          | _, _ => 0
        let vals := j.good.map fun g => (g, data s g.lane)
        let r :=
          if x.scalar then
            match vals with
            | [] => (s, [])
            | (g, v) :: _ => feScalar op x.w h d s ((lanesOf x.exec).map fun l => { g with lane := l }) (padTrapAddr m g.va) v
          else vals.foldl (fun (r : State × List Nat) e =>
            let q := feLane op x.w h d r.1 e.1 (padTrapAddr m e.1.va) e.2
            (q.1, if q.2 then e.1.lane :: r.2 else r.2)) (s, [])
        .ok r.1 j.faults [] (maskOf r.2)

/-- ldfe (R155). -/
def execLdfe (p : Pr) (d a : Operand) (x : MemExt) (s : State) : Host.Outcome State Fault Refusal :=
  run (.ldfe p d a x) s (feBody .ldfe (some d) a none x)

/-- ldff (R155). -/
def execLdff (p : Pr) (d a : Operand) (x : MemExt) (s : State) : Host.Outcome State Fault Refusal :=
  run (.ldff p d a x) s (feBody .ldff (some d) a none x)

/-- stfe (R155). -/
def execStfe (p : Pr) (a b : Operand) (x : MemExt) (s : State) : Host.Outcome State Fault Refusal :=
  run (.stfe p a b x) s (feBody .stfe none a (some b) x)

/-- stff (R155). -/
def execStff (p : Pr) (a b : Operand) (x : MemExt) (s : State) : Host.Outcome State Fault Refusal :=
  run (.stff p a b x) s (feBody .stff none a (some b) x)

/-- UNTRACKED_RETEST: an untracked waiter tests its word again when its time has come (R157). -/
def execUntrackedRetest (w : WarpId) (lane : Nat) (s : State) : Host.Outcome State Fault Refusal :=
  match s.cus.findSome? fun e => (waiterOf e.2 w lane).map fun x => (e.1, x) with
  | none => .next s
  | some (c, x) =>
    if x.tracked || s.fc < x.next then .next s
    else
      match s.group? (x.word / 2 ^ 20) with
      | none => .next s
      | some g =>
        if feReady (s.cu c) g w lane x.word (x.word % 2 ^ 20) (some x.full) then
          .next (s.modWarp w fun y => y.wake lane)
        else
          let gap := min (2 * x.gap) 4096
          .next (s.modCu c fun u => { u with waiters := u.waiters.map fun y =>
            if y.wid == w && y.lane == lane then { y with next := s.fc + gap, gap := gap } else y })

/-- feset (R158). A lane with count 0 still faults for a misaligned offset or a PEER that names no member (log 69). -/
def fesetBody (v : Bool) (a b : Operand) (m : MemExt) (x : Issue) (s : State) : Res :=
  if heldBack s x.w false then .hold .other s
  else
    let tgt := windowOf s x.gid m.pv m.peer.toNat
    let size := match tgt.bind s.group? with | some g => g.winSize | none => 0
    let cnt (l : Nat) : Nat := match s.warp? x.w with | some wp => (loWord (srcLane s x wp b 1 l)).toNat | none => 0
    let os := (offs s x a m.off).filter fun e => cnt e.1 != 0 || e.2 % 4 != 0 || tgt.isNone
    let bad := os.filterMap fun e =>
      if e.2 % 4 != 0 then some (⟨e.1, 0x04, BitVec.ofNat 64 e.2, none⟩ : LFault)
      else if tgt.isNone || size < e.2 + 4 * cnt e.1 then some ⟨e.1, 0x11, BitVec.ofNat 64 e.2, none⟩ else none
    let good := os.filter fun e => !(bad.any fun f => f.lane == e.1)
    match tgt with
    | none => .ok s (faultAll x.exec bad) [] 0
    | some h =>
      if windowDead s x.gid h then
        let gs := good.map fun e => (⟨e.1, BitVec.ofNat 64 e.2, e.2, false, false⟩ : Good)
        .ok (storeRefused (deadPeer s x.w m gs) x.w 0x15
          (gs.map fun g => (g.lane, padTrapAddr m g.va))) bad [] 0
      else if match s.group? h with | some g => good.any fun e => g.isHeld e.2 (4 * cnt e.1) | none => false then
        .hold .other s
      else
        .ok (good.foldl (fun s e => (List.range (cnt e.1)).foldl (fun s i => setFull s h (e.2 + 4 * i) v) s) s) bad [] 0

/-- feset (R158). -/
def execFeset (p : Pr) (v : Bool) (a b : Operand) (x : MemExt) (s : State) : Host.Outcome State Fault Refusal :=
  run (.feset p v a b x) s (fesetBody v a b x)

/-- The 128-byte block that a pref asks for at an address; none where the lane is dropped: it would fault, or the page or the
address is such that copies of it could be told from the value at its home (log 74). -/
def prefBlock (s : State) (w : WarpId) (va : Addr) : Option Nat × State :=
  match translate s (cuOf (gidOf w)) (tagOf s w) (isSup w) .read va with
  | (.ok pa sm, s) =>
    let plain := match spaceOf s pa with | .hbm | .host | .pool | .far => true | _ => false
    (if plain && !sm && (accEnt s pa).isNone then some (pa / 128) else none, s)
  | (_, s) => (none, s)

/-- The L1 holds every word of a block own or wt. -/
def prefHeld (s : State) (c : CuId) (blk : Nat) : Bool :=
  (List.range 32).all fun i => match s.l1 c (32 * blk + i) with | some x => x.st != .si | none => false

/-- pref (R161): it asks for the block of each lane and goes on; without room in the table it is dropped whole (R320,
R321). -/
def prefBody (a : Operand) (m : MemExt) (x : Issue) (s : State) : Res :=
  let r := (addrs s x a m.off).foldl (fun (r : List (Nat × Addr) × State) e =>
    let q := prefBlock r.2 x.w e.2
    match q.1 with
    | some b => (if r.1.any fun p => p.1 == b then r.1 else r.1 ++ [(b, e.2)], q.2)
    | none => (r.1, q.2)) ([], s)
  let s := r.2
  let msc := m.opx != 0
  let blks := r.1.filter fun p => msc || !prefHeld s (cuOf x.gid) p.1
  if !tableRoom s x.w blks.length then .done s
  else
    .done (blks.foldl (fun s p =>
      (addReq s { Req.blank s x.w (.pref msc) with
        blk := p.1, wid' := .b16, stage := stageOf s (128 * p.1),
        accs := (List.range 8).map fun i => ⟨0, p.2, 128 * p.1 + 16 * i, [], [], 0, false⟩ }).2) s)

/-- pref (R161). -/
def execPref (p : Pr) (a : Operand) (x : MemExt) (s : State) : Host.Outcome State Fault Refusal :=
  run (.pref p a x) s (prefBody a x)

end Sys2Proof.Machine
end

