-- ==== Sys2Proof/Machine/Real.lean ====
section
/-! DEFINITION. Exact reals, the number formats, Value and Round (R66, R94 to R104), and exact sums and products. -/

namespace Sys2Proof.Machine

open Sys2Proof

/-! ### Exact reals (R66, R100) -/

/-- A real of R66: NaN, an infinity, or ± m · 2^e / d with d positive; a zero carries its sign. -/
inductive Ex
  | nan
  | inf (neg : Bool)
  | fin (neg : Bool) (m : Nat) (e : Int) (d : Nat)
deriving DecidableEq, Repr

namespace Ex

def isNan : Ex → Bool
  | .nan => true
  | _ => false

def isInf : Ex → Bool
  | .inf _ => true
  | _ => false

def isZero : Ex → Bool
  | .fin _ m _ _ => m == 0
  | _ => false

def neg : Ex → Bool
  | .nan => false
  | .inf n => n
  | .fin n _ _ _ => n

/-- An integer as a real; zero is +0. -/
def ofInt (v : Int) : Ex := .fin (decide (v < 0)) v.natAbs 0 1

/-- Numerator and denominator of the magnitude. -/
def frac (m : Nat) (e : Int) (d : Nat) : Nat × Nat :=
  if 0 ≤ e then (m * 2 ^ e.toNat, d) else (m, d * 2 ^ (-e).toNat)

/-- The signed numerator at exponent `e0` of a finite value, for the denominator `d0`. -/
def scaled (n : Bool) (m : Nat) (e : Int) (k : Nat) (e0 : Int) : Int :=
  let x : Int := m * 2 ^ (e - e0).toNat * k
  if n then -x else x

/-- A finite value from a signed numerator; zero takes the sign given. -/
def ofScaled (v : Int) (e : Int) (d : Nat) (zneg : Bool) : Ex :=
  if v == 0 then .fin zneg 0 0 1 else .fin (decide (v < 0)) v.natAbs e d

/-- Exact product, and whether it is 0 · ∞ (R100, R104). -/
def mul : Ex → Ex → Ex × Bool
  | .nan, _ | _, .nan => (.nan, false)
  | .inf a, .inf b => (.inf (a ^^ b), false)
  | .inf a, .fin b m _ _ | .fin b m _ _, .inf a => if m == 0 then (.nan, true) else (.inf (a ^^ b), false)
  | .fin a m e d, .fin b n f c => (if m * n == 0 then .fin (a ^^ b) 0 0 1 else .fin (a ^^ b) (m * n) (e + f) (d * c), false)

/-- Exact sum of two finite values; a cancellation has the sign of `rm` (R100). -/
def addFin (rm : RMode) (x y : Ex) : Ex :=
  match x, y with
  | .fin a m e d, .fin b n f c =>
    if m == 0 && n == 0 then .fin (if a == b then a else rm == .rdn) 0 0 1
    else if m == 0 then .fin b n f c
    else if n == 0 then .fin a m e d
    else
      let e0 := min e f
      ofScaled (scaled a m e c e0 + scaled b n f d e0) e0 (d * c) (rm == .rdn)
  | x, _ => x

/-- One exact sum of several values: a NaN gives NaN; infinities of both signs give NaN and are invalid when no value is
NaN (R104). -/
def sum (rm : RMode) (xs : List Ex) : Ex × Bool :=
  if xs.any isNan then (.nan, false)
  else
    let infs := xs.filter isInf
    match infs with
    | [] =>
      match xs with
      | [] => (.fin false 0 0 1, false)
      | x :: rest => (rest.foldl (addFin rm) x, false)
    | i :: rest => if rest.any fun j => j.neg != i.neg then (.nan, true) else (.inf i.neg, false)

/-- Exact quotient by a finite nonzero value (R127). -/
def div : Ex → Ex → Ex
  | .fin a m e d, .fin b n f c => if m == 0 then .fin (a ^^ b) 0 0 1 else .fin (a ^^ b) (m * c) (e - f) (d * n)
  | .inf a, .fin b _ _ _ => .inf (a ^^ b)
  | _, _ => .nan

/-- The negation. -/
def negate : Ex → Ex
  | .nan => .nan
  | .inf a => .inf (!a)
  | .fin a m e d => .fin (!a) m e d

/-- `x < y` for values that are not NaN. -/
def lt (x y : Ex) : Bool :=
  match x, y with
  | .inf a, .inf b => a && !b
  | .inf a, .fin .. => a
  | .fin .., .inf b => !b
  | .fin a m e d, .fin b n f c =>
    let e0 := min e f
    decide (scaled a m e c e0 < scaled b n f d e0)
  | _, _ => false

/-- Equal as numbers. -/
def eqv (x y : Ex) : Bool := !x.isNan && !y.isNan && !lt x y && !lt y x

end Ex

/-! ### Formats (R95 to R99, R104) -/

/-- A floating-point format: bits of exponent and fraction, bias, and whether it is F8E4, which has no infinity. -/
structure Fmt where
  w : Nat
  f : Nat
  bias : Nat
  e4 : Bool
deriving DecidableEq, Repr

def FP64 : Fmt := ⟨11, 52, 1023, false⟩
def FP32 : Fmt := ⟨8, 23, 127, false⟩
def FP16 : Fmt := ⟨5, 10, 15, false⟩
def BF16 : Fmt := ⟨8, 7, 127, false⟩
def F8E5 : Fmt := ⟨5, 2, 15, false⟩
def F8E4 : Fmt := ⟨4, 3, 7, true⟩

namespace Fmt

/-- Bits of a pattern. -/
def width (F : Fmt) : Nat := 1 + F.w + F.f

/-- The magnitude part of the pattern of infinity, or in F8E4 of NaN. -/
def top (F : Fmt) : Nat := if F.e4 then 0x7F else (2 ^ F.w - 1) * 2 ^ F.f

/-- The magnitude part of MaxF. -/
def maxPat (F : Fmt) : Nat := F.top - 1

def emin (F : Fmt) : Int := 1 - F.bias

def signOf (F : Fmt) (x : Nat) : Bool := field x (F.w + F.f) (F.w + F.f) == 1
def magOf (F : Fmt) (x : Nat) : Nat := x % 2 ^ (F.w + F.f)

def isNan (F : Fmt) (x : Nat) : Bool := if F.e4 then F.magOf x == 0x7F else F.top < F.magOf x

/-- A signalling NaN: its highest fraction bit is 0 (R96); F8E4 has none (R97). -/
def isSnan (F : Fmt) (x : Nat) : Bool := F.isNan x && !F.e4 && field x (F.f - 1) (F.f - 1) == 0

/-- The canonical quiet NaN (R104). -/
def qnan (F : Fmt) : Nat := if F.e4 then 0x7F else F.top + 2 ^ (F.f - 1)

/-- A pattern from sign and magnitude. -/
def pat (F : Fmt) (neg : Bool) (mag : Nat) : Nat := (if neg then 2 ^ (F.w + F.f) else 0) + mag

/-- Value(x, F) (R96, R97). -/
def value (F : Fmt) (x : Nat) : Ex :=
  let m := F.magOf x
  if F.isNan x then .nan
  else if !F.e4 && m == F.top then .inf (F.signOf x)
  else
    let ex := m / 2 ^ F.f
    let fr := m % 2 ^ F.f
    if ex == 0 then if fr == 0 then .fin (F.signOf x) 0 0 1 else .fin (F.signOf x) fr (F.emin - F.f) 1
    else .fin (F.signOf x) (2 ^ F.f + fr) ((ex : Int) - F.bias - F.f) 1

end Fmt

/-! ### Rounding (R101 to R103) -/

/-- `num / den` rounded to an integer for a value of the given sign, and whether it was exact. -/
def roundDiv (rm : RMode) (neg : Bool) (num den : Nat) : Nat × Bool :=
  let q := num / den
  let r := num % den
  let up : Bool :=
    match rm with
    | .rne => den < 2 * r || (2 * r == den && q % 2 == 1)
    | .rtz => false
    | .rup => r != 0 && !neg
    | .rdn => r != 0 && neg
  (if up then q + 1 else q, r == 0)

/-- `floor(log2(num / den))` of a positive fraction. -/
def log2Frac (num den : Nat) : Int :=
  let k : Int := (Nat.log2 num : Int) - Nat.log2 den
  let below := if 0 ≤ k then num < den * 2 ^ k.toNat else num * 2 ^ (-k).toNat < den
  if below then k - 1 else k

/-- Round(v, F, rm, sat) for a floating-point format: pattern and flags (R102). -/
def roundF (F : Fmt) (rm : RMode) (sat : Bool) (v : Ex) : Nat × Word :=
  match v with
  | .nan => (F.qnan, 0)
  | .inf n =>
    if sat then (F.pat n F.maxPat, fSAT)
    else if F.e4 then (F.qnan, fNV)
    else (F.pat n F.top, 0)
  | .fin n m e d =>
    if m == 0 then (F.pat n 0, 0)
    else
      let (num, den) := Ex.frac m e d
      let ex := max (log2Frac num den) F.emin
      let sh := ex - F.f
      let (k, exact) := if 0 ≤ sh then roundDiv rm n num (den * 2 ^ sh.toNat) else roundDiv rm n (num * 2 ^ (-sh).toNat) den
      let mag := (ex - F.emin).toNat * 2 ^ F.f + k
      let nx := flagIf (!exact) fNX
      if F.maxPat < mag then
        if sat then (F.pat n F.maxPat, nx ||| fSAT)
        else if rm == .rne || (rm == .rup && !n) || (rm == .rdn && n) then
          (if F.e4 then F.qnan else F.pat n F.top, nx ||| fOF)
        else (F.pat n F.maxPat, nx ||| fOF)
      else (F.pat n mag, nx ||| flagIf (!exact && mag < 2 ^ F.f) fUF)

/-- A finite value rounded to an integer under `rm`, and whether it was exact. -/
def roundToInt (rm : RMode) (n : Bool) (m : Nat) (e : Int) (d : Nat) : Int × Bool :=
  let (num, den) := Ex.frac m e d
  let (k, exact) := roundDiv rm n num den
  (if n then -(k : Int) else k, exact)

/-- Round(v, F, rm, sat) for an integer format of width `m` (R103). -/
def roundI (m : Nat) (sg : Bool) (rm : RMode) (sat : Bool) (v : Ex) : BitVec m × Word :=
  let lo : Int := if sg then -(2 ^ (m - 1)) else 0
  let hi : Int := if sg then 2 ^ (m - 1) - 1 else 2 ^ m - 1
  match v with
  | .nan => (0, fNV)
  | .inf n => if sat then (BitVec.ofInt m (if n then lo else hi), fSAT) else (0, fNV)
  | .fin n k e d =>
    let (i, exact) := roundToInt rm n k e d
    let nx := flagIf (!exact) fNX
    if lo ≤ i ∧ i ≤ hi then (BitVec.ofInt m i, nx)
    else if sat then (BitVec.ofInt m (if i < lo then lo else hi), nx ||| fSAT)
    else (BitVec.ofInt m i, nx ||| fNV)

/-! ### Arithmetic on patterns (R104, R117) -/

/-- NV where some operand is a signalling NaN. -/
def snanFlag (F : Fmt) (xs : List Nat) : Word := flagIf (xs.any F.isSnan) fNV

/-- Round a sum of products, with the flags of its special values: each product's 0 · ∞ and the sum's ∞ − ∞ (R104). -/
def roundSum (F : Fmt) (rm : RMode) (terms : List (Ex × Bool)) : Nat × Word :=
  let (v, bad) := Ex.sum rm (terms.map fun t => t.1)
  let (x, f) := roundF F rm false v
  (x, f ||| flagIf (bad || terms.any fun t => t.2) fNV)

/-- a + b, a · b, a · b + c of one format (R117, R123). -/
def fAdd (F : Fmt) (rm : RMode) (a b : Nat) : Nat × Word :=
  let r := roundSum F rm [(F.value a, false), (F.value b, false)]
  (r.1, r.2 ||| snanFlag F [a, b])
def fSub (F : Fmt) (rm : RMode) (a b : Nat) : Nat × Word :=
  let r := roundSum F rm [(F.value a, false), ((F.value b).negate, false)]
  (r.1, r.2 ||| snanFlag F [a, b])
def fMul (F : Fmt) (rm : RMode) (a b : Nat) : Nat × Word :=
  let r := roundSum F rm [Ex.mul (F.value a) (F.value b)]
  (r.1, r.2 ||| snanFlag F [a, b])
def fFma (F : Fmt) (rm : RMode) (a b c : Nat) : Nat × Word :=
  let r := roundSum F rm [Ex.mul (F.value a) (F.value b), (F.value c, false)]
  (r.1, r.2 ||| snanFlag F [a, b, c])

/-- Order of patterns that are not NaN, −0 below +0 (R118). -/
def Fmt.key (F : Fmt) (x : Nat) : Int := if F.signOf x then -(F.magOf x : Int) - 1 else F.magOf x

/-- fmin and fmax on patterns (R118). -/
def fMinMax (F : Fmt) (mx nanp : Bool) (a b : Nat) : Nat × Word :=
  let nv := snanFlag F [a, b]
  if F.isNan a && F.isNan b then (F.qnan, nv)
  else if F.isNan a || F.isNan b then
    (if nanp then F.qnan else if F.isNan a then b else a, nv)
  else if mx then (if F.key a < F.key b then b else a, nv)
  else (if F.key b < F.key a then b else a, nv)

/-- fcmp and dcmp (R119). -/
def fCmp (F : Fmt) (cc : FCond) (a b : Nat) : Bool × Word :=
  let un := F.isNan a || F.isNan b
  let lt := !un && (F.value a).lt (F.value b)
  let gt := !un && (F.value b).lt (F.value a)
  let eq := !un && !lt && !gt
  let sn := snanFlag F [a, b]
  let any := flagIf un fNV
  match cc with
  | .eq => (eq, sn)
  | .ne => (!eq, sn)
  | .lt => (lt, any)
  | .le => (lt || eq, any)
  | .gt => (gt, any)
  | .ge => (gt || eq, any)
  | .un => (un, sn)
  | .ord => (!un, sn)

/-- The class bit of a pattern (R120). -/
def fClass (F : Fmt) (x : Nat) : Nat :=
  let n := F.signOf x
  let m := F.magOf x
  if F.isNan x then if F.isSnan x then 2 ^ 8 else 2 ^ 9
  else if m == F.top then if n then 1 else 2 ^ 7
  else if m == 0 then if n then 2 ^ 3 else 2 ^ 4
  else if m < 2 ^ F.f then if n then 2 ^ 2 else 2 ^ 5
  else if n then 2 else 2 ^ 6

/-- frnd (R121). -/
def fRnd (F : Fmt) (rm : RMode) (exactFlag : Bool) (x : Nat) : Nat × Word :=
  match F.value x with
  | .nan => (F.qnan, snanFlag F [x])
  | .inf _ => (x, 0)
  | .fin n m e d =>
    let (i, exact) := roundToInt rm n m e d
    let r := roundF F rm false (.fin n i.natAbs 0 1)
    (r.1, flagIf (exactFlag && !exact) fNX)

/-- Modify of R113 on a pattern: only the sign bit changes. -/
def signMod (F : Fmt) (sm : SMod) (x : Nat) : Nat :=
  match sm with
  | .none => x
  | .neg => F.pat (!F.signOf x) (F.magOf x)
  | .abs => F.magOf x
  | .nabs => F.pat true (F.magOf x)

/-! ### Packed elements (R114) -/

/-- The format TY names. -/
def tyFmt : FTy → Fmt
  | .f32 => FP32
  | .f16 => FP16
  | .bf16 => BF16

/-- Apply an operation to each element of 32-bit operands. -/
def packed (ty : FTy) (f : Nat → Nat → Nat → Nat × Word) (a b c : DWord) : DWord × Word :=
  match ty with
  | .f32 => let r := f (bits a 31 0) (bits b 31 0) (bits c 31 0); (BitVec.ofNat 64 r.1, r.2)
  | _ =>
    let lo := f (bits a 15 0) (bits b 15 0) (bits c 15 0)
    let hi := f (bits a 31 16) (bits b 31 16) (bits c 31 16)
    (BitVec.ofNat 64 (lo.1 + 2 ^ 16 * hi.1), lo.2 ||| hi.2)

/-- Apply an operation to FP64 operands. -/
def dbl (f : Nat → Nat → Nat → Nat × Word) (a b c : DWord) : DWord × Word :=
  let r := f a.toNat b.toNat c.toNat
  (BitVec.ofNat 64 r.1, r.2)

end Sys2Proof.Machine
end

