-- ==== Sys2Proof/Machine/Home.lean ====
section
/-! DEFINITION. The homes: what they do with each request (R314 to R319), atomics (R168 to R176), plinth control space
(R327 to R334), and the replies (R150, R151, R320). -/

namespace Sys2Proof.Machine

open Sys2Proof

/-! ### Plinth control space (R327, R331, R333, R334) -/

def State.modPlinth (s : State) (p : Nat) (f : Plinth → Plinth) : State :=
  { s with plinths := sSet Plinth.zero s.plinths p (f (s.plinth p)) }

/-- A decode window as it reads: the reserved bits 511:232 and 230 are zero (R6, R328). A window keeps what was written
there only because it then serves nothing. -/
def winRead (d : BitVec 512) : Nat := bits d 229 0 + if bit d 231 then 2 ^ 231 else 0

/-- The 64-bit register at an offset of a control page; an unlisted offset reads zero. -/
def ctlRead (s : State) (pa : Nat) : Nat :=
  let p := s.plinth (plinthOf pa)
  let o := field pa 11 0
  if o < 0x400 then field (winRead (sGet 0 p.windows (o / 64))) (8 * (o % 64) + 63) (8 * (o % 64))
  else if o == 0x400 then p.nrctl.toNat
  else if o == 0x408 then p.nrcnt
  else 0

/-- Set a decode window; the lines of its view, as it was and as it is, leave the home slices of the die and the
memory-side caches of both its plinths first (R331). -/
def setWindow (s : State) (p n : Nat) (v : BitVec 512) : State :=
  let old := sGet 0 (s.plinth p).windows n
  let s := if s.mem.views.isEmpty then s else dropViews s fun a => winClaims old a || winClaims v a
  s.modPlinth p fun x => { x with windows := sSet 0 x.windows n v }

/-- What a written NRCTL holds: K held within 6 to 12 (R333). -/
def nrctlHeld (v : DWord) : DWord :=
  let k := bits v 3 0
  BitVec.ofNat 64 (bits v 63 32 * 2 ^ 32 + (if bit v 8 then 256 else 0) + (if k < 6 then 6 else if 12 < k then 12 else k))

/-- Write NRCTL: the test state is loaded from SEED when TEST goes from 0 to 1 (R334). -/
def setNrctl (s : State) (p : Nat) (v : DWord) : State :=
  s.modPlinth p fun x =>
    { x with nrctl := nrctlHeld v,
             seq := if bit v 8 && !bit x.nrctl 8 then (if bits v 63 32 == 0 then 1 else bits v 63 32) else x.seq }

/-- A store to a control page (R327). -/
def ctlWrite (s : State) (pa v : Nat) : State :=
  let p := plinthOf pa
  let o := field pa 11 0
  if o < 0x400 then
    let w := (sGet 0 (s.plinth p).windows (o / 64)).toNat
    setWindow s p (o / 64) (BitVec.ofNat 512 (setField w (8 * (o % 64) + 63) (8 * (o % 64)) v))
  else if o == 0x400 then setNrctl s p (BitVec.ofNat 64 v)
  else s

/-! ### Requests a home may serve -/

/-- A line whose holders have not all taken its limit: a load is tightening it, and every other request waits (R374). -/
def tightening (s : State) (line : Nat) : Bool :=
  match sFind? s.holders line with
  | none => false
  | some h => !h.owing.isEmpty || (!h.unbounded && h.list.any fun c =>
      match sFind? (s.cu c).upd line with
      | some u => h.limit < u.limit
      | none => false)

/-- Lines that an L2 slice holds: with dirty bytes, or words that an L1 or a proxy holds, or view bytes (R314). -/
def l2Lines (s : State) : List Nat :=
  let ls : List Nat := (s.mem.l2.map fun e => e.1 / 128) ++ (s.mem.dir.map fun e => e.1 / 32)
    ++ (s.mem.views.map fun e => e.1 / 128) ++ s.mem.prox.map fun e => e.1 / 32
  ls.eraseDups

/-- The slice of a line has room for it: it holds at most 2 MiB, 16,384 lines (R314). -/
def l2Room (s : State) (line : Nat) : Bool :=
  s.mem.l2.length + s.mem.dir.length + s.mem.views.length + s.mem.prox.length < 16384
    || (l2Lines s).contains line
    || ((l2Lines s).filter fun l => unitOf (128 * l) == unitOf (128 * line)).length < 16384

/-- A request needs what a proxy of another package still owns or withholds (R148, R313, R375). -/
def farHeld (s : State) (r : Req) : Bool :=
  (reqWords r).any (farOwns s)
    || match r.kind with
      | .acc | .accLoad .. => false
      | _ => r.accs.any fun a => !farDrained s (a.pa / 128)

/-- A request that its home may serve now: oldest of its warp to its block, not kept back, and, for a pool address, its
group carries traffic, no atomic of another package is before it, and the slice has room (R143, R314, R316, R413, R428). -/
def homeReady (s : State) (k : Nat) : Option Req :=
  match sFind? s.reqs k with
  | none => none
  | some r =>
    let older := s.reqs.any fun e => e.1 < k && e.2.wid == r.wid && (e.2.stage == .home || e.2.stage == .ext)
      && e.2.accs.any fun x => r.accs.any fun y => x.pa / 128 == y.pa / 128
    let waits := r.accs.any fun a => (spaceOf s a.pa == .pool && poolWay s a.pa == .waits)
      || s.fab.streams.any fun e => e.2.waits.any fun q => q.pa / 128 == a.pa / 128
    if r.stage == .home && !r.dbgHold && !s.host.off.contains 2 && !older && !waits && !r.accs.isEmpty
      && (r.accs.all fun a => l2Room s (a.pa / 128)) && !farHeld s r then some r else none

/-- A plain .unc load or store of 8 bytes by supervisor code, which alone may reach a control page (R327). -/
def ctlOk (r : Req) (a : Acc) : Bool :=
  isCurator r.cu && r.accBytes a == 8 && field a.pa 36 13 == 0
    && (match r.kind with | .load .unc | .store .unc => true | _ => false)

/-- The error response that an access meets (R311, R327, R328, R332). -/
def accErr (s : State) (r : Req) (write : Bool) (a : Acc) : Option Nat :=
  match spaceOf s a.pa with
  | .hbm | .host => none
  | .pool => if poolWay s a.pa == .refused then some 0x15 else none
  | .view => if write then some 0x13 else if (homeByte? s a.pa).isNone then some 0x15 else none
  | .ctl => if ctlOk r a then none else some 0x15
  | .far => if (homeByte? s a.pa).isNone then some 0x15 else none
  | .none => some 0x15

/-- The error answers of a request, with each address in the violation log (R311). -/
def errVals (s : State) (r : Req) (write : Bool) : List RepVal × State :=
  r.accs.foldl (fun (p : List RepVal × State) a =>
    match accErr p.2 r write a with
    | some c => (p.1 ++ [⟨a.lane, a.va, [], 0, c, 0⟩], violate p.2 1 c r.ctx a.pa (srcOf r.cu))
    | none => p) ([], s)

def goodAccs (s : State) (r : Req) (write : Bool) : List Acc := r.accs.filter fun a => (accErr s r write a).isNone

/-! ### Filling L1 words (R308, R315, R317) -/

/-- Put the home's value of a word into an L1. -/
def fillWord (s : State) (c : CuId) (word : Nat) (st : L1St) (sm : Bool) (ctx : Tag) : State :=
  let d : Word := BitVec.ofNat 32 (ofBytes ((List.range 4).map fun i => homeByte s (4 * word + i)))
  s.setL1 c word ⟨st, d, 0, s.relTag word, s.poisoned (4 * word), sm, ctx, 0⟩

/-- A wt load's effect on one word. -/
def wtWord (s : State) (r : Req) (word : Nat) : State :=
  if (s.dir word).owner == some r.cu then s
  else addSharer (fillWord (recallWord s word true) r.cu word .wt false r.ctx) word r.cu

/-- The words of a watched region are served as wt (R387). -/
def watched (s : State) (word : Nat) : Bool := (frameMap s (4 * word)).isSome

/-- Take a word own. -/
def ownWord (s : State) (r : Req) (word : Nat) : State :=
  if (s.dir word).owner == some r.cu then s
  else
    let s := fillWord (invalidateWord (recallWord s word false) word none) r.cu word .own false r.ctx
    s.setDir word ⟨some r.cu, []⟩

/-- Drop an si copy that the requester holds, so that its later loads see no older value (R255). -/
def dropOwnSi (s : State) (c : CuId) (word : Nat) : State :=
  match s.l1 c word with
  | some x => if x.st == .si && !x.sm then s.dropL1 c word else s
  | none => s

/-- Drop an si copy that a proxy holds, for the same reason. -/
def dropFarSi (s : State) (word : Nat) : State := if proxOf s word == some .si then proxDrop s word else s

/-- What a load does to one word of its span (R315). -/
def loadWord (s : State) (r : Req) (rt : ReqType) (word : Nat) : State :=
  if r.sm then
    if rt == .unc || (s.l1 r.cu word).isSome then s
    else fillWord s r.cu word (match rt with | .own => .own | .wt => .wt | _ => .si) true r.ctx
  else
    match rt with
    | .own => if watched s word then wtWord s r word else ownWord s r word
    | .wt => wtWord s r word
    | .si =>
      if (s.dir word).owner == some r.cu then s
      else
        let s := recallWord s word true
        if (s.dir word).sharers.contains r.cu then s else fillWord s r.cu word .si false r.ctx
    | .unc => dropOwnSi (recallWord s word true) r.cu word

/-! ### Values that a home returns -/

/-- The tag of a word at this moment, at its owner or its home (R266). -/
def coherentTag (s : State) (word : Nat) : BitVec 3 :=
  match (s.dir word).owner.bind fun c => s.l1 c word with
  | some x => x.rel
  | none => s.relTag word

/-- Bytes of an access as a load of the request returns them. -/
def readBytes (s : State) (r : Req) (rt : ReqType) (pa n : Nat) : List Byte :=
  (List.range n).map fun i =>
    if r.sm then
      match (if rt == .unc then none else s.l1 r.cu ((pa + i) / 4)) with
      | some x => byteOf x.data.toNat ((pa + i) % 4)
      | none => homeByte s (pa + i)
    else coherentByte s (pa + i)

/-- A mark of poison on the bytes of an access. -/
def poisonedAt (s : State) (pa n : Nat) : Bool :=
  (wordsOf pa n).any fun w =>
    match (s.dir w).owner.bind fun c => s.l1 c w with
    | some x => x.poison
    | none => s.poisoned (4 * w)

/-- The value one lane's load receives. -/
def loadVal (s : State) (r : Req) (rt : ReqType) (a : Acc) : RepVal :=
  let n := r.wid'.bytes
  if spaceOf s a.pa == .ctl then ⟨a.lane, a.va, bytesOf (ctlRead s a.pa) 8, 0, 0, 0⟩
  else if poisonedAt s a.pa n then ⟨a.lane, a.va, [], 0, 0x30, 0⟩
  else ⟨a.lane, a.va, readBytes s r rt a.pa n, widestTag (coherentTag s) (wordsOf a.pa n), 0, 0⟩

def putReq (s : State) (k : Nat) (r : Req) : State := { s with reqs := sInsert s.reqs k r }

/-- SERVE A LOAD: copies are recalled, the span is filled, and the values go back (R315, R317). A plain .unc load of a
region line first makes every holder combine (R148). -/
def serveLoad (s : State) (k : Nat) (r : Req) (rt : ReqType) : State :=
  let (bad, s) := errVals s r false
  let good := goodAccs s r false
  let plain := good.filter fun a => spaceOf s a.pa != .ctl
  let words := ((plain.map fun a => a.pa / 128).eraseDups).flatMap fun b => spanWords r (plain.filter fun a => a.pa / 128 == b)
  let lines := (good.map fun a => a.pa / 128).eraseDups.filter fun l => (accEnt s (128 * l)).isSome
  let s := lines.foldl (fun s l => drainLine s l false) s
  let s := plain.foldl (fun s a => keepView s a.pa r.wid'.bytes) s
  let s := words.foldl (fun s w => dropHalf (loadWord s r rt w) r.cu w words) s
  putReq s k { r with stage := .reply, vals := good.map (loadVal s r rt) ++ bad }

/-- A pref fills the L1 as a wt load does, and gives its warp nothing (R161). -/
def servePref (s : State) (k : Nat) (r : Req) (msc : Bool) : State :=
  let ws := spanWords r (goodAccs s r false)
  let s := if msc then s else ws.foldl (fun s w => dropHalf (wtWord s r w) r.cu w ws) s
  putReq s k { r with stage := .reply, vals := [] }

/-- A load that its home may serve, where the line is not being tightened. -/
def servable (s : State) (k : Nat) : Option Req :=
  match homeReady s k with
  | some r => if r.accs.any fun a => tightening s (a.pa / 128) then none else some r
  | none => none

/-! ### Bytes of virtual memory, as a unit reads them with .unc loads -/

/-- Who reads a record: a warp, or a unit of the package. -/
inductive Reader
  | warp (w : WarpId)
  | unit (c : CuId)
deriving DecidableEq, Repr

def Reader.cu : Reader → CuId
  | .warp w => cuOf (gidOf w)
  | .unit c => c

/-- The number under which a unit that is no warp sends a request. -/
def noWarp : WarpId := 2 ^ 40 - 1

/-- Blocks of other packages that have arrived for a reader. -/
def Reader.blocks (s : State) : Reader → List FarRead
  | .warp w => ((s.warp? w).map Warp.farRead).getD []
  | .unit _ => s.host.farRead

/-- An earlier access of the reader to a block is not performed yet (R143). -/
def Reader.busy (s : State) (r : Reader) (blk : Nat) : Bool :=
  match r with
  | .warp w => blockBusy s w blk
  | .unit _ => blockBusy s noWarp blk

/-- Ask for a block of another package (R313). -/
def Reader.ask (s : State) (r : Reader) (t : Tag) (blk : Nat) : State :=
  let w : WarpId := match r with | .warp w => w | .unit _ => noWarp
  (addReq s { Req.blank s w .read with
    cu := r.cu, ctx := t, blk := blk, stage := .ext, place := match r with | .warp _ => (Req.blank s w .read).place | .unit _ => 33, accs := [⟨0, 0, 128 * blk, [], [], 0, false⟩] }).2

/-- Ask for bytes of another package for birfdb or a snapshot, once (R284, R445). -/
def askBytes (s : State) (place : Nat) (pa : Nat) : State :=
  if s.reqs.any fun e => e.2.kind == .read && e.2.place == place && e.2.accs.any fun a => a.pa == pa then s
  else
    (addReq s { Req.blank s noWarp .read with
      cu := 768, blk := pa / 128, stage := .ext, place := place, accs := [⟨0, 0, pa, [], [], 0, false⟩] }).2

/-- Those bytes, once they have arrived. -/
def askedBytes (s : State) (place : Nat) (pa : Nat) : Option FarBytes := s.host.farBytes.find? fun b => b.place == place && b.pa == pa

/-- They are no longer needed. -/
def dropBytes (s : State) (place : Nat) : State :=
  { s with host := { s.host with farBytes := s.host.farBytes.filter fun b => b.place != place } }

/-- A warp has read a value with a release tag (R267). -/
def Reader.saw (s : State) (r : Reader) (tagged : Bool) : State :=
  match r with
  | .warp w => sawValue s w tagged false
  | .unit _ => s

/-- The reader is done with a record. -/
def Reader.finish (s : State) : Reader → State
  | .warp w => s.modWarp w fun x => { x with farRead := [] }
  | .unit _ => { s with host := { s.host with farRead := [] } }

/-- A warp's .unc read of a word: its CU keeps no si copy that is older (R255). -/
def Reader.keepNone (s : State) (r : Reader) (word : Nat) : State :=
  match r with
  | .warp w => dropOwnSi s (cuOf (gidOf w)) word
  | .unit _ => s

/-- Read one byte as an .unc load does; the cause of its fault, where 0 stands for a wait (R143, R148, R149, R239). -/
def readByte (s : State) (r : Reader) (t : Tag) (sup : Bool) (va : Addr) : Except Nat Byte × State :=
  match translate s r.cu t sup .read va with
  | (.fault f, s) => (.error f, s)
  | (.wait, s) | (.cow, s) => (.error 0, s)
  | (.ok pa _, s) =>
    if r.busy s (pa / 128) then (.error 0, s)
    else if spaceOf s pa == .far then
      match (r.blocks s).find? fun b => b.blk == pa / 128 with
      | some b =>
        if b.cause != 0 then (.error b.cause, s)
        else (.ok (b.bytes.getD (pa % 128) 0), r.saw (dropFarSi (r.keepNone s (pa / 4)) (pa / 4)) b.tagged)
      | none => (.error 0, r.ask s t (pa / 128))
    else if spaceOf s pa == .pool && poolWay s pa == .waits then (.error 0, s)
    else if (homeByte? s pa).isNone then (.error 0x15, violate s 1 0x15 t pa (srcOf r.cu))
    else if poisonedAt s pa 1 then (.error 0x30, s)
    else
      let s := if (accEnt s pa).isSome then drainLine s (pa / 128) false else s
      (.ok (coherentByte s pa), keepView (r.saw (r.keepNone s (pa / 4)) (coherentTag s (pa / 4) != 0)) pa 1)

/-- Read `n` bytes at an address of a context, or give the cause and the address of the first byte that faults; cause 0
stands for a wait (R149, R239). -/
def virtBytes (s : State) (r : Reader) (t : Tag) (sup : Bool) (va : Addr) : Nat → Except (Nat × Addr) (List Byte) × State
  | 0 => (.ok [], s)
  | n + 1 =>
    match readByte s r t sup va with
    | (.error f, s) => (.error (f, va), s)
    | (.ok b, s) =>
      match virtBytes s r t sup (va + 1) n with
      | (.ok bs, s) => (.ok (b :: bs), s)
      | e => e

/-- The end of reading a record, unless it waits: the blocks that were asked for are given up. -/
def readEnds {α : Type} (r : Reader) (p : Except (Nat × Addr) α × State) : Except (Nat × Addr) α × State :=
  match p.1 with
  | .error (0, _) => p
  | _ => (p.1, r.finish p.2)

/-- A record of a known length, read as .unc loads. -/
def readVirt (s : State) (r : Reader) (t : Tag) (sup : Bool) (va : Addr) (n : Nat) : Except (Nat × Addr) (List Byte) × State :=
  readEnds r (virtBytes s r t sup va n)

/-! ### Stores at the home -/

/-- The last value written to each byte (R142: the highest lane's). -/
def lastBytes (bs : Bytes) : Bytes := bs.foldl (fun m e => sInsert m e.1 e.2) []

/-- Who a request's writes come from (R390, R391). -/
def Req.writer (s : State) (r : Req) : Writer := ⟨r.depth, if (s.warp? r.wid).isSome then some r.wid else none, false, r.cu⟩

/-- Merge a request's bytes at their home in one commit, and into the copies the requester may keep (R310, R315). -/
def mergeStore (s : State) (r : Req) (bs : Bytes) (copies : Bool) : State :=
  let s := commit s bs (some r.rel) (r.writer s)
  if copies then
    let ws := (bs.map fun e => e.1 / 4).eraseDups
    ws.foldl (fun s w => dropHalf s r.cu w ws) (l1Write s r.cu bs false r.rel r.depth)
  else s

/-- What a store does to the copies of a word that it writes, before its bytes are accepted (R315). A requester that owns the word
keeps it, unless birfdb held the store (R282). -/
def storeWord (s : State) (r : Req) (rt : ReqType) (word : Nat) : State :=
  match rt with
  | .own => ownWord s r word
  | .wt | .si =>
    invalidateWord (if (s.dir word).owner != some r.cu then recallWord s word false else if r.wasHeld then recallWord s word true else s)
      word (some r.cu)
  | .unc => dropOwnSi (invalidateWord (recallWord s word false) word none) r.cu word

/-- SERVE A STORE (R315, R317, R387). -/
def serveStore (s : State) (k : Nat) (r : Req) (rt : ReqType) : State :=
  let (bad, s) := errVals s r true
  let good := goodAccs s r true
  let bs := lastBytes ((good.filter fun a => spaceOf s a.pa != .ctl).flatMap fun a => bytesAt a.pa a.data)
  let words := (bs.map fun e => e.1 / 4).eraseDups
  let s := (good.filter fun a => spaceOf s a.pa == .ctl).foldl (fun s a => ctlWrite s a.pa (ofBytes a.data)) s
  let lines := (words.map fun w => w / 32).eraseDups.filter fun l => (accEnt s (128 * l)).isSome
  let s := lines.foldl (fun s l => drainLine s l true) s
  let s :=
    if r.sm then
      match rt with
      | .own => l1Write (words.foldl (fun s w => loadWord s r .own w) s) r.cu bs true r.rel r.depth
      | .wt | .si => mergeStore s r bs true
      | .unc => mergeStore s r bs false
    else
      match rt with
      | .own =>
        if words.any (watched s) then
          mergeStore (words.foldl (fun s w => invalidateWord (recallWord s w false) w (some r.cu)) s) r bs true
        else l1Write (words.foldl (fun s w => dropHalf (storeWord s r .own w) r.cu w words) s) r.cu bs true r.rel r.depth
      | .wt | .si => mergeStore (words.foldl (fun s w => storeWord s r rt w) s) r bs true
      | .unc => mergeStore (words.foldl (fun s w => storeWord s r .unc w) s) r bs false
  putReq s k { r with stage := if bad.isEmpty then .reply else .refused, vals := r.vals ++ bad }

/-! ### Atomics (R168 to R176) -/

/-- The new value of an atomic operation of `n` bytes, with its flags (R168). -/
def atomOp (aop n old b : Nat) : Nat × Word :=
  let m := 8 * n
  let so := (BitVec.ofNat m old).toInt
  let sb := (BitVec.ofNat m b).toInt
  match aop with
  | 0 => ((old + b) % 2 ^ m, 0)
  | 1 => (if sb < so then b else old, 0)
  | 2 => (min old b, 0)
  | 3 => (if so < sb then b else old, 0)
  | 4 => (max old b, 0)
  | 5 => (old &&& b, 0)
  | 6 => (old ||| b, 0)
  | 7 => (old ^^^ b, 0)
  | 8 => (b, 0)
  | 9 => fMinMax (if n == 8 then FP64 else FP32) false false old b
  | _ => fMinMax (if n == 8 then FP64 else FP32) true false old b

/-- What one lane's atomic writes, if it writes, and its flags. -/
def atomNew (kind : ReqKind) (n : Nat) (a : Acc) (old : Nat) : Option Nat × Word :=
  match kind with
  | .atom aop | .red aop => ((some (atomOp aop n old (ofBytes a.data)).1), (atomOp aop n old (ofBytes a.data)).2)
  | .cas => (if old == ofBytes a.data then some (ofBytes a.swap) else none, 0)
  | _ => (none, 0)

/-- The frame on which a cas that met a copy-on-write page stands now, and whether the page is still copy-on-write
(R176). -/
def casPa (s : State) (r : Req) (a : Acc) : Nat × Bool :=
  if a.cow then
    match walk s r.ctx a.va with
    | .leaf e _ level => (leafPa s e level a.va false, bit e 6)
    | _ => (a.pa, false)
  else (a.pa, false)

/-- An atomic's location is made ready: a region line is recalled, and the copies of its words go (R173, R315). -/
def atomPrep (s : State) (r : Req) (pa n : Nat) : State :=
  let s := if (accEnt s pa).isSome then drainLine s (pa / 128) true else s
  if r.sm then s
  else (wordsOf pa n).foldl (fun s w => dropOwnSi (invalidateWord (recallWord s w false) w none) r.cu w) s

/-- What one lane's atomic gives: its reply, the bytes it writes, and the state. -/
structure AtomRes where
  val : RepVal
  bytes : Bytes
  st : State

/-- One lane's operation on a location that is ready. -/
def atomAct (s : State) (r : Req) (a : Acc) (pa : Nat) : AtomRes :=
  let n := a.data.length
  if poisonedAt s pa n then ⟨⟨a.lane, a.va, [], 0, 0x30, 0⟩, [], s⟩
  else
    let bs := (List.range n).map fun i => homeByte s (pa + i)
    let tag := widestTag s.relTag (wordsOf pa n)
    let x := atomNew r.kind n a (ofBytes bs)
    let out : Bytes := match x.1 with | some v => bytesAt pa (bytesOf v n) | none => []
    ⟨⟨a.lane, a.va, bs, tag, 0, x.2⟩, out, homeWrite s out (if r.rel == 0 then none else some r.rel)⟩

/-- One lane's atomic at the home. None: a break must wait for other accesses to the page. -/
def atomLane (s : State) (k : Nat) (r : Req) (a : Acc) : Option AtomRes :=
  match accErr s r true a with
  | some c => some ⟨⟨a.lane, a.va, [], 0, c, 0⟩, [], violate s 1 c r.ctx a.pa (srcOf r.cu)⟩
  | none =>
    let n := a.data.length
    let p := casPa s r a
    let s := atomPrep s r p.1 n
    if p.2 then
      let bs := (List.range n).map fun i => homeByte s (p.1 + i)
      if poisonedAt s p.1 n then some ⟨⟨a.lane, a.va, [], 0, 0x30, 0⟩, [], s⟩
      else if ofBytes bs != ofBytes a.data then
        some ⟨⟨a.lane, a.va, bs, widestTag s.relTag (wordsOf p.1 n), 0, 0⟩, [], s⟩
      else
        match breakPage s r.ctx a.va (some k) none with
        | .wait => none
        | .noFrame => some ⟨⟨a.lane, a.va, [], 0, 0x12, 0⟩, [], s⟩
        | .done s =>
          let pa := (casPa s r a).1
          some (atomAct (atomPrep s r pa n) r a pa)
    else some (atomAct s r a p.1)

/-- The lanes of an atomic one after another, ascending (R170). -/
def atomLanes (s : State) (k : Nat) (r : Req) : List Acc → Option (List RepVal × Bytes × State)
  | [] => some ([], [], s)
  | a :: as =>
    match atomLane s k r a with
    | none => none
    | some v =>
      match atomLanes v.st k r as with
      | none => none
      | some (vs, bs, s) => some (v.val :: vs, v.bytes ++ bs, s)

/-- Every location of an atomic is ready before its lanes act. -/
def atomReady (s : State) (r : Req) : State :=
  (r.accs.filter fun a => (accErr s r true a).isNone && !(casPa s r a).2).foldl (fun s a => atomPrep s r (casPa s r a).1 a.data.length) s

/-- SERVE AN ATOMIC at its home: what its lanes write to the block is one commit (R387). A red reports its errors as a store does
(R151). -/
def serveAtomic (s : State) (k : Nat) (r : Req) : State :=
  let old := atomReady s r
  match atomLanes old k r r.accs with
  | none => s
  | some (vs, bs, s') =>
    let red := match r.kind with | .red _ => true | _ => false
    putReq (commitOver 8 old s' (lastBytes bs) (r.writer s)) k
      { r with stage := if red && vs.any (fun v => v.cause != 0) then .refused else .reply, vals := vs }

/-! ### The events of the homes (R315) -/

/-- HOME_OWN_REQUEST. -/
def execHomeOwnRequest (k : Nat) (s : State) : Host.Outcome State Fault Refusal :=
  match servable s k with
  | some r =>
    match r.kind with
    | .load .own | .tileLd .own => .next (serveLoad s k r .own)
    | .store .own | .tileSt .own => .next (serveStore s k r .own)
    | _ => .next s
  | none => .next s

/-- HOME_WT_LOAD: a wt load, or the request of a pref. -/
def execHomeWtLoad (k : Nat) (s : State) : Host.Outcome State Fault Refusal :=
  match servable s k with
  | some r =>
    match r.kind with
    | .load .wt | .tileLd .wt => .next (serveLoad s k r .wt)
    | .pref msc => .next (servePref s k r msc)
    | _ => .next s
  | none => .next s

/-- HOME_SI_LOAD. -/
def execHomeSiLoad (k : Nat) (s : State) : Host.Outcome State Fault Refusal :=
  match servable s k with
  | some r => if r.kind == .load .si || r.kind == .tileLd .si then .next (serveLoad s k r .si) else .next s
  | none => .next s

/-- HOME_WT_SI_STORE. -/
def execHomeWtSiStore (k : Nat) (s : State) : Host.Outcome State Fault Refusal :=
  match servable s k with
  | some r =>
    match r.kind with
    | .store .wt | .tileSt .wt => .next (serveStore s k r .wt)
    | .store .si | .tileSt .si => .next (serveStore s k r .si)
    | _ => .next s
  | none => .next s

/-- HOME_UNC_LOAD. -/
def execHomeUncLoad (k : Nat) (s : State) : Host.Outcome State Fault Refusal :=
  match servable s k with
  | some r => if r.kind == .load .unc || r.kind == .tileLd .unc then .next (serveLoad s k r .unc) else .next s
  | none => .next s

/-- HOME_UNC_STORE_ATOMIC. -/
def execHomeUncStoreAtomic (k : Nat) (s : State) : Host.Outcome State Fault Refusal :=
  match servable s k with
  | some r =>
    match r.kind with
    | .store .unc | .tileSt .unc => .next (serveStore s k r .unc)
    | .atom _ | .red _ | .cas => .next (serveAtomic s k r)
    | _ => .next s
  | none => .next s

/-! ### Copies: recall, invalidation, write-back, eviction (R309, R314, R318) -/

/-- The number of a CU stands for the proxy slice of a word of another package (R313). -/
def namesProxy (s : State) (c : CuId) (pa : Nat) : Bool := spaceOf s pa == .far && c == proxyUnit pa

/-- RECALL: the owner, an L1 or a proxy, writes back and drops or cleans the word. -/
def execRecall (c : CuId) (word : Nat) (clean : Bool) (s : State) : Host.Outcome State Fault Refusal :=
  if namesProxy s c (4 * word) then .next (proxRecall s word clean)
  else if (s.dir word).owner == some c then .next (recallWord s word clean) else .next s

/-- INVALIDATE: a sharer, or a CU of a die that is marked whole for the line (R314), drops its copy; a proxy first those of
its L1s. -/
def execInvalidate (c : CuId) (word : Nat) (s : State) : Host.Outcome State Fault Refusal :=
  if namesProxy s c (4 * word) then .next (if proxOf s word == some .own then s else proxDrop s word)
  else if (sharersOf s word).contains c then .next (dropWord s c word) else .next s

/-- Words of a 128-byte line that a CU holds. -/
def lineWords (s : State) (c : CuId) (line : Nat) : List Nat := (l1Words s c).filter fun w => w / 32 == line

/-- Words of a line that a proxy holds. -/
def proxWords (s : State) (line : Nat) : List Nat := (s.mem.prox.map fun e => e.1).filter fun w => w / 32 == line

/-- WRITE_BACK: dirty bytes of a line merge at the home; the copies stay, clean. -/
def execWriteBack (c : CuId) (line : Nat) (s : State) : Host.Outcome State Fault Refusal :=
  if namesProxy s c (128 * line) then .next ((proxWords s line).foldl proxClean s)
  else .next ((lineWords s c line).foldl (fun s w => writeBackWord s c w) s)

/-- L1_EVICTION: dirty bytes go home and the line's copies go; an update-only line leaves with a combine (R309). -/
def execL1Eviction (c : CuId) (line : Nat) (s : State) : Host.Outcome State Fault Refusal :=
  let s := (lineWords s c line).foldl (fun s w => flushWord s c w) s
  if (sFind? (s.cu c).upd line).isSome then .next (leaveLine s c line) else .next s

/-- Bytes of a line that L2 holds dirty are accepted at the plinth, in its memory-side cache (R323, R324). -/
def lineToPlinth (s : State) (line : Nat) : State :=
  if spaceOf s (128 * line) == .far then s
  else
    let mine := s.mem.l2.filter fun e => e.1 / 128 == line
    { s with mem := { s.mem with
        msc := mine.foldl (fun m e => sInsert m e.1 e.2) s.mem.msc
        l2 := sFilter s.mem.l2 fun a _ => a / 128 != line } }

/-- A line leaves its memory-side cache: DRAM is written, or the CXL device (R324). -/
def lineToStore (s : State) (line : Nat) : State :=
  if spaceOf s (128 * line) == .pool && (devKey s (128 * line)).isNone then s
  else
    let s := (s.mem.msc.filter fun e => e.1 / 128 == line).foldl (fun s e => setStoreByte s e.1 e.2) s
    { s with mem := { s.mem with msc := sFilter s.mem.msc fun a _ => a / 128 != line } }

/-- L2_EVICTION: owners are recalled and sharers invalidated, then the line leaves for the plinth (R314); a line of another
package leaves its proxy, written back. -/
def execL2Eviction (line : Nat) (s : State) : Host.Outcome State Fault Refusal :=
  let ws := (s.mem.dir.map fun e => e.1).filter fun w => w / 32 == line
  let s := ws.foldl (fun s w => invalidateWord (recallWord s w false) w none) s
  let s := (proxWords s line).foldl proxDrop s
  let s := if (sFind? s.mem.accProx line).isSome then proxLeave s line else s
  let s := if s.mem.views.isEmpty then s else dropViews s fun a => a / 128 == line
  .next (lineToPlinth { s with mem := { s.mem with wide := sErase s.mem.wide line } } line)

/-! ### Packets at a plinth (R323, R325, R333, R334) -/

/-- One step of the test mode's sequence: the bit shifted out, and the next state. -/
def lfsrStep (x : Nat) : Bool × Nat := (x % 2 == 1, if x % 2 == 1 then (x / 2) ^^^ 0x80200003 else x / 2)

/-- `k` steps: whether every bit was zero, and the state after. -/
def lfsrRun : Nat → Nat → Bool × Nat
  | 0, x => (true, x)
  | k + 1, x =>
    let a := lfsrStep x
    let b := lfsrRun k a.2
    (!a.1 && b.1, b.2)

/-- A row is activated: its neighbours are refreshed on a draw of zeros (R333, R334; log 20). -/
def activate (s : State) (p : Nat) : State :=
  let x := s.plinth p
  let k := bits x.nrctl 3 0
  if bit x.nrctl 8 then
    let r := lfsrRun k x.seq
    s.modPlinth p fun x => { x with seq := r.2, nrcnt := if r.1 then x.nrcnt + 1 else x.nrcnt }
  else
    let (t, s) := s.draw
    if Config.refreshDraw t k then s.modPlinth p fun x => { x with nrcnt := x.nrcnt + 1 } else s

/-- A byte and the poison mark as a plinth answers them: its own, or a view's. -/
def plinthAnswer (s : State) (pa : Nat) : Byte × Bool :=
  if spaceOf s pa == .view then (viewByte s pa).getD (0, false)
  else (plinthByte s pa, sGet false s.mem.poison (pa / 32))

/-- RD of 32, 64, 128 or 256 bytes, aligned to the size: the data goes back as the plinth holds it, with its tags and poison
marks, under the next of the endpoint's 256 tags; an activate may refresh neighbours. -/
def execPlinthRd (pa size : Nat) (activates : Bool) (s : State) : Host.Outcome State Fault Refusal :=
  if !([32, 64, 128, 256].contains size) || pa % size != 0 then .next s
  else
    let bs := (List.range size).map fun i => plinthAnswer s (pa + i)
    let s := s.modPlinth (plinthOf pa) fun p =>
      let r : PlinthReply :=
        { tag := (match p.reply with | some r => r.tag + 1 | none => 0)
          pa := pa
          data := bs.map fun b => b.1
          rel := (List.range (size / 4)).map fun i => s.relTag (pa / 4 + i)
          poison := (List.range (size / 32)).map fun i => ((bs.drop (32 * i)).take 32).any fun b => b.2 }
      { p with reply := some r }
    .next (if activates then activate s (plinthOf pa) else s)

/-- WR: the dirty bytes of a line are accepted at the plinth. Where a row is activated for it, they are written there. -/
def execPlinthWr (line : Nat) (activates : Bool) (s : State) : Host.Outcome State Fault Refusal :=
  let s := lineToPlinth s line
  if activates then .next (activate (lineToStore s line) (plinthOf (128 * line))) else .next s

/-- A home holds a line, or an L1 holds a word of it, update-only ones among them (R325). -/
def lineHeld (s : State) (line : Nat) : Bool :=
  (s.mem.l2.any fun e => e.1 / 128 == line) || (s.mem.dir.any fun e => e.1 / 32 == line) || (sFind? s.holders line).isSome
    || s.cus.any fun e => (sFind? e.2.upd line).isSome

/-- AT: an atomic that the home sends to the plinth, where no L1 holds a word of its line and L2 holds nothing of it
(R325). -/
def execPlinthAt (k : Nat) (s : State) : Host.Outcome State Fault Refusal :=
  match servable s k with
  | some r =>
    match r.kind with
    | .atom _ | .red _ | .cas => if lineHeld s r.blk then .next s else .next (lineToPlinth (serveAtomic s k r) r.blk)
    | _ => .next s
  | none => .next s

/-! ### Replies (R150, R151, R320) -/

/-- Parked lanes of which every register has arrived are eligible again (R19). -/
def unpark (s : State) (w : WarpId) : State :=
  s.modWarp w fun x =>
    { x with lanes := x.lanes.mapIdx fun l e =>
        if e.st == .ld && !(e.wait.any fun n => inFlight s w n l) then { e with st := .eligible, wait := [] } else e }

/-- Take a request out of the table. -/
def freeReq (s : State) (k : Nat) : State := { s with reqs := sErase s.reqs k }

/-- The destination is a scalar register of the warp. -/
def isScalarReg (d : Operand) : Bool := match regNum d with | some n => 128 ≤ n | none => false

/-- One lane's value arrives, with its flags (R32): an exited lane's value is discarded, a scalar register is the warp's
(R75, R322); an error marks the register (R151), but a view range that refuses an atomic is a trap at the next boundary (R150,
R172). -/
def deliverVal (s : State) (r : Req) (v : RepVal) : State :=
  match r.dst, s.warp? r.wid with
  | some d, some x =>
    let s := orFstat s r.wid v.flags
    if x.exited || (!isScalarReg d && ((x.lanes[v.lane]?).map Lane.st).getD .exited == .exited) then s
    else if v.cause == 0x13 then storeRefused s r.wid 0x13 [(v.lane, v.va)]
    else if v.cause != 0 then markBad s r.wid d r.wid' v.cause r.issued [(v.lane, v.va)]
    else putLoaded s r.wid d v.lane r.wid'.bytes r.sx v.bytes
  | _, _ => s

/-- A reply reaches its warp: values, tags and acquires (R267), the entry, and the lanes that waited. -/
def deliverReply (s : State) (k : Nat) (r : Req) (vals : List RepVal) : State :=
  let s := vals.foldl (fun s v => deliverVal s r v) s
  let s := freeReq s k
  let s := match r.kind, r.dst.bind regNum with
    | .load _, some n | .accLoad .., some n => noteTag s r.wid n (widestTag (fun i => ((vals[i]?).map RepVal.tag).getD 0) (List.range vals.length))
    | _, _ => s
  let s := sawValue s r.wid (vals.any fun v => v.tag != 0) (r.ord == .acq || r.ord == .ar)
  let s := s.modWarp r.wid fun x => { x with acqReq := x.acqReq.filter fun e => e != k }
  unpark s r.wid

/-- An element's value in the form asked for, with the flags of its conversion (R112). -/
def accDeliver (acv : Nat) (e c : Int) : List Byte × Word :=
  let v : Ex := .fin (decide (c < 0)) c.natAbs e 1
  match acv with
  | 1 => let r := roundF FP32 .rne false v; (bytesOf r.1 4, r.2)
  | 2 => let r := roundF FP64 .rne false v; (bytesOf r.1 8, r.2)
  | _ => (bytesOf (BitVec.ofInt 64 c).toNat 8, 0)

/-- The cause of an error of another package: a refused store to a view is 0x13 (R150); a load raises 0x15 (R151). -/
def extCause (e : ExtErr) (write : Bool) : Nat :=
  match e with
  | .poison => 0x30
  | .view => if write then 0x13 else 0x15
  | .refused => 0x15

/-- The request writes. -/
def ReqKind.writes : ReqKind → Bool
  | .load _ | .accLoad .. | .tileLd _ | .fetch | .read | .pref _ => false
  | _ => true

/-- The value of one lane that another package gave, or its error. An atomic's flags follow from the old value (R168), a
region load's from its conversion here (R112); a cas that met a copy-on-write page and whose comparison succeeds finds that
its frame of another package cannot be broken, and raises 0x12 (R176). -/
def extVal (s : State) (r : Req) (a : Acc) (v : ExtVal) : RepVal :=
  let n := r.accBytes a
  match v.err with
  | some e => ⟨a.lane, a.va, [], 0, extCause e r.kind.writes, 0⟩
  | none =>
    match r.kind with
    | .accLoad acv _ =>
      let d := accDeliver acv ((accEnt s a.pa).map AccEnt.e |>.getD 0) (BitVec.ofNat 64 (ofBytes (v.bytes.take 8))).toInt
      ⟨a.lane, a.va, d.1, v.tag, 0, d.2⟩
    | .cas =>
      if a.cow && v.bytes.take n == a.data then ⟨a.lane, a.va, [], 0, 0x12, 0⟩
      else ⟨a.lane, a.va, v.bytes.take n, v.tag, 0, 0⟩
    | _ => ⟨a.lane, a.va, v.bytes.take n, v.tag, 0, (atomNew r.kind n a (ofBytes (v.bytes.take n))).2⟩

/-- Values of a request that another package answered, lane by lane; integer atomics of lanes that share a location were
combined, and are rebuilt from the first one's (R170). A lane without an answer meets an error. -/
def extVals (s : State) (r : Req) (vs : List ExtVal) : List RepVal :=
  (r.accs.zipIdx.foldl (fun (p : List RepVal × Store (Nat × BitVec 3)) e =>
    let a := e.1
    let given := (vs[e.2]?).getD ⟨[], 0, some .refused, false, none⟩
    match r.kind, given.err with
    | .atom aop, none =>
      let n := r.accBytes a
      if aop < 8 then
        let old := (sFind? p.2 a.pa).getD (ofBytes (given.bytes.take n), given.tag)
        (p.1 ++ [⟨a.lane, a.va, bytesOf old.1 n, old.2, 0, 0⟩], sInsert p.2 a.pa ((atomOp aop n old.1 (ofBytes a.data)).1, old.2))
      else (p.1 ++ [extVal s r a given], p.2)
    | _, _ => (p.1 ++ [extVal s r a given], p.2)) ([], [])).1

/-- Every lane of a request met an error. -/
def extErrs (r : Req) : List RepVal := r.accs.map fun a => ⟨a.lane, a.va, [], 0, 0x15, 0⟩

/-- The request returns a value to a register. -/
def returnsValue : ReqKind → Bool
  | .load _ | .atom _ | .cas | .accLoad .. | .tileLd _ => true
  | _ => false

/-- A remote home has performed an access of a warp: a store leaves the requester's copies as written and takes every other
one, an atomic or an unc store takes them all, an unc load takes back what a proxy owns (R313, R315). -/
def farDone (s : State) (r : Req) : State :=
  if r.sm then s
  else
    match r.kind with
    | .store .unc | .tileSt .unc | .atom _ | .red _ | .cas =>
      (maskWords r.accs).foldl (fun s w => dropOwnSi (proxDrop (invalidateWord s w none) w) r.cu w) s
    | .store _ | .tileSt _ =>
      let bs := lastBytes (r.accs.flatMap fun a => bytesAt a.pa a.data)
      let ws := (bs.map fun e => e.1 / 4).eraseDups
      let s := ws.foldl (fun s w =>
        let s := invalidateWord (if (s.dir w).owner == some r.cu then s else recallWord s w false) w (some r.cu)
        (bs.filter fun e => e.1 / 4 == w && (proxOf s w).isSome).foldl (fun s e =>
          { s with mem := { s.mem with bytes := sSet 0 s.mem.bytes e.1 e.2, l2 := sErase s.mem.l2 e.1 } }) s) s
      ws.foldl (fun s w => dropHalf s r.cu w ws) (l1Write s r.cu bs false r.rel r.depth)
    | .load .unc | .tileLd .unc => (reqWords r).foldl (fun s w => dropFarSi (dropOwnSi (proxRecall s w true) r.cu w) w) s
    | _ => s

/-- A request that waits at its source, or that has to be sent again from a group whose link is lost, has no group that can
carry it, nor one to wait for (R413, R414, R417). -/
def farRefused (s : State) (r : Req) : Bool :=
  r.stage == .ext && (match r.plane with | some n => sGet false s.fab.dark n | none => true)
    && match r.accs with | a :: _ => farWay s (field a.pa 51 44) == .refused | [] => false

/-- An answer from another package may arrive: the request has left, or can leave now; one whose group has lost its link needs
another group, on which it is sent again (R414). -/
def farAnswers (s : State) (r : Req) : Bool :=
  r.stage == .ext && !r.dbgHold
    && match r.plane with
      | some n => r.accs.head?.any fun a => farSent s (some n) (field a.pa 51 44)
      | none => (depart s r).1.plane.isSome

/-- Words that a remote home has granted enter the proxy, in the order of the request's words. -/
def grantWords (s : State) (r : Req) (g : ReqType) (ws : List ExtWord) : State :=
  match g with
  | .unc => s
  | g => ((reqWords r).zip ws).foldl (fun s e =>
      proxHalf (proxFill s e.1 (match g with | .own => .own | .wt => .wt | _ => .si) r.ctx e.2) e.1 (reqWords r)) s

/-- A proxy's write-back has been accepted: its bytes are clean, unless they have been written again since. -/
def wbackDone (s : State) (r : Req) : State :=
  r.accs.foldl (fun s a =>
    match sFind? s.mem.l2 a.pa with
    | some b => if [b] == a.data then
        { s with mem := { s.mem with bytes := sSet 0 s.mem.bytes a.pa b, l2 := sErase s.mem.l2 a.pa } } else s
    | none => s) s

/-- NV that a remote red set (R32, R168). -/
def extFlags (x : ExtReply) : Word :=
  match x with
  | .vals vs => if vs.any fun v => v.nv then fNV else 0
  | _ => 0

/-- The cascade limits that writes of a warp met in another package travel back with its answer (R391). -/
def extCascades (s : State) (w : WarpId) (x : ExtReply) : State :=
  match x with
  | .vals vs => (vs.filterMap fun v => v.casc).foldl (fun s g => addAsync s w ⟨0x20, g, 0⟩) s
  | _ => s

/-- A remote home has accepted a store, red, acc or write-back. It may have granted a proxy ownership of the words, where the
store is then accepted, or a limit for a region line, in which the proxy then merges the addends (R313, R376). -/
def acceptFar (s : State) (k : Nat) (r : Req) (x : ExtReply) : State :=
  match r.kind, x with
  | .store .own, .fill .own ws | .tileSt .own, .fill .own ws => serveStore (grantWords s r .own ws) k r .own
  | .acc, .limit l =>
    let p := (sFind? s.mem.accProx r.blk).getD ⟨[], 0, 0, l, 0⟩
    putReq { s with mem := { s.mem with accProx := sInsert s.mem.accProx r.blk { p with limit := l } } } k { r with stage := .home }
  | .wback, _ => freeReq (wbackDone s r) k
  | _, x => freeReq (orFstat (extCascades (farDone s r) r.wid x) r.wid (orAll (r.vals.map fun v => v.flags) ||| extFlags x)) k

/-- A remote home has refused some lanes of a store, red, acc or write-back (R150, R377): the addresses enter the violation
log, and the lanes become asynchronous traps, by cause. What a proxy wrote back is lost; deltas are lost, and set OVF. -/
def refuseFar (s : State) (k : Nat) (r : Req) (x : ExtReply) : State :=
  let vals : List RepVal := match x with
    | .vals vs => (extVals s r vs).filter fun v => v.cause != 0
    | _ => extErrs r
  let bad (a : Acc) : Bool := vals.any fun v => v.lane == a.lane && v.va == a.va
  let s := (r.accs.filter bad).foldl (fun s a =>
    violate s 1 (((vals.find? fun v => v.lane == a.lane && v.va == a.va).map fun v => v.cause).getD 0x15) r.ctx a.pa (srcOf r.cu)) s
  match r.kind with
  | .wback => freeReq (wbackDone s r) k
  | _ =>
    let s := if r.kind == .acc then (((r.accs.filter bad).filterMap fun a => (accEnt s a.pa).map AccEnt.idx).eraseDups).foldl setOvf s else s
    let s := farDone s { r with accs := r.accs.filter fun a => !bad a }
    let s := ((vals.map fun v => v.cause).eraseDups).foldl (fun s c =>
      storeRefused s r.wid c ((vals.filter fun v => v.cause == c).map fun v => (v.lane, v.va))) s
    freeReq (orFstat (extCascades s r.wid x) r.wid (orAll (r.vals.map fun v => v.flags) ||| extFlags x)) k

/-- The request ends with an acceptance, or with a store's error response. -/
def endsAccepted (r : Req) : Bool := r.kind.writes && !returnsValue r.kind && !r.accs.isEmpty

/-- STORE_ACCEPTANCE: the home, or the remote target, has accepted a store, red or acc; its entry is free. -/
def execStoreAcceptance (a : Answer) (s : State) : Host.Outcome State Fault Refusal :=
  let k := a.key
  let x := a.reply
  match sFind? s.reqs k with
  | some r =>
    if !endsAccepted r then .next s
    else if r.stage == .reply then .next (freeReq (orFstat s r.wid (orAll (r.vals.map fun v => v.flags))) k)
    else if farAnswers s r then .next (acceptFar (depart s r).2 k (depart s r).1 x)
    else .next s
  | none => .next s

/-- STORE_ERROR_RESPONSE: the refused lanes become an asynchronous trap, by cause (R150). -/
def execStoreErrorResponse (a : Answer) (s : State) : Host.Outcome State Fault Refusal :=
  let k := a.key
  let x := a.reply
  match sFind? s.reqs k with
  | some r =>
    if !endsAccepted r then .next s
    else if r.stage == .refused then
      let vals := r.vals.filter fun v => v.cause != 0
      let s := ((vals.map fun v => v.cause).eraseDups).foldl (fun s c =>
        storeRefused s r.wid c ((vals.filter fun v => v.cause == c).map fun v => (v.lane, v.va))) s
      .next (freeReq (orFstat s r.wid (orAll (r.vals.map fun v => v.flags))) k)
    else if farAnswers s r || farRefused s r then .next (refuseFar (depart s r).2 k (depart s r).1 x)
    else .next s
  | none => .next s

end Sys2Proof.Machine
end

