-- ==== Sys2Proof/Machine/Accum.lean ====
section
/-! DEFINITION. Accumulation regions: acc and accdrain (R177, R178), joins, combines, tightening, drains and recalls (R371
to R375), and the region table (R367 to R369). -/

namespace Sys2Proof.Machine

open Sys2Proof

/-! ### acc (R110, R177) -/

/-- The addend of one lane, its flags, and whether the region's overflow flag is set (R110). -/
def accAddend (atype : Nat) (e : Int) (b : DWord) : Int × Word × Bool :=
  let conv (F : Fmt) (x : Nat) : Int × Word × Bool :=
    match F.value x with
    | .nan => (0, fNV, true)
    | .inf n => let r := roundI 64 true .rne true (.inf n); (r.1.toInt, r.2, true)
    | .fin n m k d =>
      let r := roundI 64 true .rne true (.fin n m (k - e) d)
      (r.1.toInt, r.2, r.2 &&& fSAT != 0)
  match atype with
  | 0 => conv FP32 (loWord b).toNat
  | 1 => conv FP64 b.toNat
  | 2 => ((loWord b).toInt, 0, false)
  | _ => (b.toInt, 0, false)

/-- An addend meets a line that the L1 holds: it is withheld, or pushed with all the line withholds (R372). -/
def heldAcc (s : State) (c : CuId) (line i : Nat) (n : Int) (tag : BitVec 3) (depth : Nat) (u : UpdLine) : State :=
  if u.tracker + n.natAbs ≤ u.limit then
    let v : UpdLine := { u with
      deltas := addDelta u.deltas i n
      tags := addTag u.tags i tag
      withheld := u.withheld + n.natAbs
      tracker := u.tracker + n.natAbs
      depth := max u.depth depth }
    s.modCu c fun x => { x with upd := sInsert x.upd line v }
  else
    let (k, s) := s.fresh
    let e : Combine := ⟨c, line, addDelta u.deltas i n, addTag u.tags i tag, u.withheld, max u.depth depth, false, none, 0⟩
    let s := { s with combines := sInsert s.combines k e }
    s.modCu c fun x => { x with upd := sInsert x.upd line { u with deltas := [], tags := [], withheld := 0, depth := 0 } }

/-- A region line held for another context leaves before it is used (R362). -/
def updClean (s : State) (c : CuId) (t : Tag) (line : Nat) : State :=
  match sFind? (s.cu c).upd line with
  | some u => if u.ctx == t then s else leaveLine s c line
  | none => s

/-- Lines of an acc that its L1 does not hold update-only, which send a request (R371), and those of software-managed
pages, whose additions the home performs (R317). -/
def joinLines (s : State) (c : CuId) (gs : List Good) : List Nat :=
  (blocksOf gs).filter fun l => (sFind? (s.cu c).upd l).isNone || gs.any fun g => g.sm && g.pa / 128 == l

/-- A line of an acc that its L1 holds meets an earlier access of the warp that is not performed yet, which comes before it in
program order (R255, R270). -/
def heldBusy (s : State) (x : Issue) (c : CuId) (gs : List Good) : Bool :=
  (blocksOf gs).any fun l => !(joinLines s c gs).contains l && blockBusy s x.w l

/-- acc (R177). -/
def accBody (a b : Operand) (m : MemExt) (x : Issue) (s : State) : Res :=
  if heldBack s x.w true then .hold .other s
  else
    let post (pa : Nat) : Option Nat :=
      if spaceOf s pa == .view then some 0x13 else if (accEnt s pa).isNone then some 0x14 else none
    let (j, s) := judge s x.w .write 8 false post (addrs s x a m.off)
    let c := cuOf x.gid
    if j.wait then .hold .other s
    else
      let s := (blocksOf j.good).foldl (fun s l => updClean s c (tagOf s x.w) l) s
      let joins := joinLines s c j.good
      if !tableRoom s x.w joins.length || heldBusy s x c j.good then .hold .other s
      else
        let atype := m.opx.toNat % 4
        let n := if atype == 1 || atype == 3 then 2 else 1
        let vals : List (Good × Int × Word × Bool) := j.good.map fun g =>
          let v := match s.warp? x.w with | some wp => srcLane s x wp b n g.lane | none => 0
          (g, accAddend atype ((accEnt s g.pa).map AccEnt.e |>.getD 0) v)
        let s := orFstat s x.w (orAll (vals.map fun v => v.2.2.1))
        let s := (((vals.filter fun v => v.2.2.2).filterMap fun v => (accEnt s v.1.pa).map AccEnt.idx).eraseDups).foldl setOvf s
        let depth := groupDepth s x.gid
        let tag := ((s.warp? x.w).map fun w => relTagOf w .rlx .cu).getD 0
        let s := (vals.filter fun v => !joins.contains (v.1.pa / 128)).foldl (fun s v =>
          match sFind? (s.cu c).upd (v.1.pa / 128) with
          | some u => heldAcc s c (v.1.pa / 128) (v.1.pa % 128 / 8) v.2.1 tag depth u
          | none => s) s
        let s := joins.foldl (fun s l =>
          (addReq s { Req.blank s x.w .acc with
            blk := l, stage := stageOf s (128 * l), rel := tag, depth := depth,
            sm := vals.any fun v => v.1.pa / 128 == l && v.1.sm,
            accs := (vals.filter fun v => v.1.pa / 128 == l).map fun v =>
              ⟨v.1.lane, v.1.va, v.1.pa, bytesOf (BitVec.ofInt 64 v.2.1).toNat 8, [], 0, false⟩ }).2) s
        .ok (logRegion s x.w j.faults) j.faults j.cows 0

/-- acc (R177). -/
def execAcc (p : Pr) (a b : Operand) (x : MemExt) (s : State) : Host.Outcome State Fault Refusal :=
  run (.acc p a b x) s (accBody a b x)

/-! ### Joins and combines (R371 to R373) -/

/-- A push of a holder to a line is on its way and was sent before message `k` (R372). -/
def pushBefore (s : State) (c : CuId) (line k : Nat) : Bool :=
  s.combines.any fun e => e.1 < k && e.2.cu == c && e.2.line == line && !e.2.acked

/-- JOIN: an acc reaches the home of its line, in the order in which its CU sent its messages to it (R371, R372). -/
def execJoin (k : Nat) (s : State) : Host.Outcome State Fault Refusal :=
  match servable s k with
  | some r => if r.kind == .acc && !pushBefore s r.cu r.blk k then .next (joinAt s k r) else .next s
  | none => .next s

/-- The address of a refused combine enters the violation log, and OVF is set in the entry of the region here, if there is
one (R377). -/
def refuseCombine (s : State) (line : Nat) : State :=
  let s := violate s 1 0x14 0 (128 * line) noSrc
  match accEnt s (128 * line) with
  | some e => setOvf s e.idx
  | none => s

/-- A proxy's push that waits at its source leaves where it may be sent (R413, R418, R420, R423). -/
def departPush (s : State) (c : Combine) : Combine × State :=
  if c.plane.isSome then (c, s)
  else
    match sendOut s c.out (field (128 * c.line) 51 44) (field (128 * c.line) 39 37) with
    | (some p, s) => ({ c with plane := some p.1, num := p.2 }, s)
    | (none, s) => (c, s)

/-- The push can be answered by its remote home. -/
def pushSent (s : State) (c : Combine) : Bool := farSent s c.plane (field (128 * c.line) 51 44)

/-- No group carries the push, and there is none to wait for (R413, R417). -/
def pushLost (s : State) (c : Combine) : Bool := !pushSent s c && farWay s (field (128 * c.line) 51 44) == .refused

/-- A proxy's push meets its remote home: accepted, refused, so that its deltas are lost, or waiting for a group (R376,
R377, R413). -/
def farCombine (s : State) (k : Nat) (c : Combine) (x : ExtReply) : State :=
  let (c, s) := departPush s c
  if pushLost s c || (pushSent s c && x == .error) then
    lowerTracker (refuseCombine { s with combines := sErase s.combines k } c.line) c.cu c.line c.mag
  else { s with combines := sInsert s.combines k { c with acked := pushSent s c } }

/-- COMBINE: a holder's push reaches its home, in the order in which the holder sent it (R372). Of a proxy's, `x` says
whether the remote home refuses it (R377). -/
def execCombine (a : Answer) (s : State) : Host.Outcome State Fault Refusal :=
  let k := a.key
  let x := a.reply
  match sFind? s.combines k with
  | some c =>
    if c.acked || pushBefore s c.cu c.line k then .next s
    else if 1024 ≤ c.cu then .next (farCombine s k c x)
    else if !(sentJoins s c.line c.cu k).isEmpty then .next s
    else
      let s := combineAt s c.line c.deltas c.tags c.depth c.cu
      .next { s with combines := sInsert s.combines k { c with acked := true } }
  | none => .next s

/-- COMBINE_ACK: the holder's tracker falls (R372). -/
def execCombineAck (k : Nat) (s : State) : Host.Outcome State Fault Refusal :=
  match sFind? s.combines k with
  | some c =>
    if c.acked && (c.cu < 1024 || pushSent s c) then .next (lowerTracker { s with combines := sErase s.combines k } c.cu c.line c.mag) else .next s
  | none => .next s

/-! ### Loads of a region (R112, R374) -/

/-- The tolerance of a load, in LSB (R147). -/
def tauOf (tol : Nat) : Nat := if tol == 0 then 0 else 2 ^ (tol - 1)

/-- The home answers a region load from its own values. -/
def answerRegion (s : State) (k : Nat) (r : Req) (acv : Nat) : State :=
  let vals : List RepVal := r.accs.map fun a =>
    if poisonedAt s a.pa 8 then ⟨a.lane, a.va, [], 0, 0x30, 0⟩
    else
      let d := accDeliver acv ((accEnt s a.pa).map AccEnt.e |>.getD 0) (elemAt s a.pa)
      ⟨a.lane, a.va, d.1, widestTag s.relTag (wordsOf a.pa 8), 0, d.2⟩
  putReq s k { r with stage := .reply, vals := vals }

/-- REGION_LOAD: answered at once, by tightening, or by a full drain (R374). Pushes of the line that are on their way come
first: their addends are complete only at the home (R270). -/
def execRegionLoad (k : Nat) (s : State) : Host.Outcome State Fault Refusal :=
  match servable s k with
  | some r =>
    match r.kind with
    | .accLoad acv tol =>
      let h := s.holder r.blk
      let t := tauOf tol
      if 0 < t && !h.unbounded && h.list.length * h.limit ≤ t then .next (answerRegion (settle s r.blk) k r acv)
      else if 0 < t && !h.unbounded && 0 < t / h.list.length then
        .next { s with holders := sInsert s.holders r.blk { h with limit := t / h.list.length, owing := h.far } }
      else if !farDrained s r.blk then .next s
      else .next (answerRegion (drainLine s r.blk false) k r acv)
    | _ => .next s
  | none => .next s

/-- TIGHTEN: a holder takes the lower limit, pushing first where it withholds more (R374); a proxy takes the one that its
remote home gives it (R376). -/
def execTighten (c : CuId) (l : LineLimit) (s : State) : Host.Outcome State Fault Refusal :=
  let line := l.line
  let limit := l.limit
  if namesProxy s c (128 * line) then
    .next (if (sFind? s.mem.accProx line).any fun p => limit < p.limit then proxTighten s line limit else s)
  else
  match sFind? s.holders line, sFind? (s.cu c).upd line with
  | some h, some u =>
    if h.list.contains c && h.limit < u.limit then .next (tightenLine (settle s line) c line h.limit) else .next s
  | _, _ => .next s

/-- TIGHTEN_ACK: every holder has acknowledged, and the load that waited is answered (R374). -/
def execTightenAck (k : Nat) (s : State) : Host.Outcome State Fault Refusal :=
  match servable s k with
  | some r =>
    match r.kind with
    | .accLoad acv tol =>
      let h := s.holder r.blk
      if !h.unbounded && h.list.length * h.limit ≤ tauOf tol && 0 < tol then
        .next (answerRegion (settle s r.blk) k r acv)
      else .next s
    | _ => .next s
  | none => .next s

/-! ### Full drains and recalls (R375) -/

/-- Physical ranges of the pages of a range of addresses that a test admits: start and length, in order (R162). -/
def rangePages (s : State) (t : Tag) (va len : Nat) (ok : BitVec 64 → Bool) : List (Nat × Nat) :=
  let last := min (va + len) (2 ^ 64)
  (List.range (last / 65536 + 1 - va / 65536)).filterMap fun i =>
    let p := (va / 65536 + i) * 65536
    let lo := max va p
    let hi := min last (p + 65536)
    if hi ≤ lo then none
    else
      match walk s t (BitVec.ofNat 64 p) with
      | .leaf e _ level =>
        if pteTier e < 2 && ok e then some (leafPa s e level (BitVec.ofNat 64 lo) false, hi - lo) else none
      | _ => none

/-- A byte range meets one of some ranges. -/
def meets (rs : List (Nat × Nat)) (pa n : Nat) : Bool := rs.any fun r => r.1 < pa + n && pa < r.1 + r.2

/-- Lines that have holders or combines on their way. -/
def liveLines (s : State) : List Nat :=
  ((s.holders.map fun e => e.1) ++ (s.combines.map fun e => e.2.line) ++ s.mem.accProx.map fun e => e.1).eraseDups

/-- A tolerance cannot be split among a line's holders (R374). -/
def noSplit (h : Holders) (tol : Nat) : Bool := h.unbounded || tauOf tol / h.list.length == 0

/-- Requests of other packages that wait at a line's home. -/
def heldAt (s : State) (line : Nat) : List UalReq :=
  s.fab.streams.flatMap fun e => e.2.held.filter fun q => q.pa / 128 == line

/-- A request at its home asks for a full drain of a line (R375). -/
def wantsDrain (s : State) (line : Nat) : Bool :=
  (s.reqs.any fun e => e.2.stage == .home &&
    match e.2.kind with
    | .accLoad _ tol => e.2.blk == line && noSplit (s.holder line) tol
    | .load .unc => e.2.blk == line
    | .drain => meets (rangePages s e.2.ctx e.2.span.1 e.2.span.2 fun _ => true) (128 * line) 128
    | _ => false)
  || (heldAt s line).any fun q => q.kind == 0 && noSplit (s.holder line) q.tol

/-- A request at its home asks for a recall of a line: an atomic or a plain .unc store, of this package or another (R375, R428). -/
def wantsRecall (s : State) (line : Nat) : Bool :=
  (s.reqs.any fun e => e.2.stage == .home && e.2.blk == line &&
    match e.2.kind with
    | .atom _ | .red _ | .cas | .store .unc => true
    | _ => false)
  || (heldAt s line).any fun q => 1 ≤ q.kind && q.kind ≤ 4

/-- A line that a proxy of this package holds for a remote home. -/
def proxLine (s : State) (line : Nat) : Bool := (sFind? s.mem.accProx line).isSome && spaceOf s (128 * line) == .far

/-- L of a line's region, 2^J (R368). -/
def regionL (s : State) (line : Nat) : Nat := ((accEnt s (128 * line)).map fun e => 2 ^ e.j).getD 0

/-- The holders of a line are asked for a drain or a recall: those of the package answer at once, and proxies of other packages
owe an answer (R375, R376). -/
def askDrain (s : State) (line : Nat) (gone : Bool) : State :=
  let h := s.holder line
  if farDrained s line then drainLine s line gone
  else if h.asked then s
  else
    let s := drainLine s line false
    { s with holders := sAdjust s.holders line fun h => { h with owing := h.far, asked := true } }

/-- FULL_DRAIN; of a proxy's line it is the remote home that asks (R376). -/
def execFullDrain (line : Nat) (s : State) : Host.Outcome State Fault Refusal :=
  if proxLine s line then .next (proxDrain s line (regionL s line))
  else if (sFind? s.holders line).isSome && wantsDrain s line then .next (askDrain s line false) else .next s

/-- REGION_RECALL: asked for by an atomic or a plain .unc store to the line; of a proxy's line by the remote home (R376). -/
def execRegionRecall (line : Nat) (s : State) : Host.Outcome State Fault Refusal :=
  if proxLine s line then .next (proxLeave s line)
  else if (sFind? s.holders line).isSome && wantsRecall s line then .next (askDrain s line true) else .next s

/-! ### accdrain (R178) -/

/-- Issue a request that names a range of addresses. -/
def rangeReq (s : State) (x : Issue) (kind : ReqKind) (va len : Nat) (scp : Scope) : State :=
  (addReq s { Req.blank s x.w kind with span := (va, len), scp := scp }).2

/-- The range an instruction names: start and length. -/
def rangeOf (s : State) (x : Issue) (a b : Operand) (off : Word) : Nat × Nat :=
  match s.warp? x.w, (lanesOf x.exec).head? with
  | some wp, some l =>
    ((srcLane s x wp a 2 l + off.signExtend 64).toNat, (loWord (srcLane s x wp b 1 l)).toNat)
  | _, _ => (0, 0)

/-- An instruction that posts one range request. -/
def rangeBody (kind : ReqKind) (a b : Operand) (m : MemExt) (x : Issue) (s : State) : Res :=
  if heldBack s x.w true then .hold .other s
  else
    let r := rangeOf s x a b m.off
    if r.2 == 0 then .done s
    else if !tableRoom s x.w 1 then .hold .other s
    else .done (rangeReq s x kind r.1 r.2 m.scp)

/-- accdrain. -/
def execAccdrain (p : Pr) (a b : Operand) (x : MemExt) (s : State) : Host.Outcome State Fault Refusal :=
  run (.accdrain p a b x) s (rangeBody .drain a b x)

/-- An earlier request of the warp has not been performed. -/
def earlierOpen (s : State) (k : Nat) (r : Req) : Bool :=
  s.reqs.any fun e => e.1 < k && e.2.wid == r.wid && !e.2.accs.isEmpty && (e.2.stage == .home || e.2.stage == .ext)

/-- Every holder of some lines pushes, and under .gal and .sys a proxy after the holders of its package (R178, R375, R376). -/
def drainLines (s : State) (ls : List Nat) (far : Bool) : State :=
  ls.foldl (fun s l => if far && proxLine s l then pushProxy (drainLine s l false) l [] 0 else drainLine s l false) s

/-- ACCDRAIN_COMPLETE: every holder of a line of the range has combined at its home: at the package home under .pkg, where the
proxy stands for a remote one, and at the remote home as well under .gal and .sys (R178). -/
def execAccdrainComplete (k : Nat) (s : State) : Host.Outcome State Fault Refusal :=
  match sFind? s.reqs k with
  | some r =>
    if r.kind == .drain && !earlierOpen s k r then
      let rs := rangePages s r.ctx r.span.1 r.span.2 fun _ => true
      let ls := (liveLines s).filter fun l => meets rs (128 * l) 128
      let far := r.scp == .gal || r.scp == .sys
      if ls.any fun l => !farDrained s l then .next s
      else
      let s := drainLines s ls far
      .next (if s.combines.any fun e => ls.contains e.2.line && (far || e.2.cu < 1024) then s else freeReq s k)
    else .next s
  | none => .next s

/-! ### The region table (R367 to R369) -/

/-- Table pages below a table: base and size. -/
def tablesFrom (s : State) : Nat → Nat → Nat → List (Nat × Nat)
  | 0, _, _ => []
  | fuel + 1, level, table =>
    let n := if level == 4 then 32 else 512
    (table, 8 * n) :: (List.range n).flatMap fun i =>
      let e := BitVec.ofNat 64 (coherentNat s (table + 8 * i) 8)
      if bit e 0 && !pteLeaf e && level < 4 && inHbm s (ptePa e) then tablesFrom s fuel (level + 1) (ptePa e) else []

/-- Page-table pages of every context, and FRAMETAB (R369). -/
def tableRanges (s : State) : List (Nat × Nat) :=
  (s.ctxs.flatMap fun e => if bit e.2.ptbase 0 then tablesFrom s 5 0 (bits e.2.ptbase 51 12 * 4096) else [])
    ++ (if ftOn s then [(bits s.sup.frametab 51 16 * 65536, 2 ^ 28)] else [])

/-- A descriptor's fields are within R368, and its range is free. -/
def regionOk (s : State) (es : List AccEnt) (d : BitVec 256) : Bool :=
  let len := bits d 127 64
  let base := bits d 63 0
  let e := (d.extractLsb' 128 8).toInt
  bits d 255 162 == 0 && bits d 159 150 == 0 && bits d 143 136 == 0 && bits d 149 144 ≤ 62 && -126 ≤ e && e ≤ 64
    && len % 65536 == 0 && 65536 ≤ len && len ≤ 2 ^ 36 && base % 65536 == 0 && base < 2 ^ 52
    && (field base 51 44 != s.fab.pkg || (field base 43 40 == 0 && field (base + len - 1) 43 40 == 0))
    && !(es.any fun x => x.start < base + len && base < x.start + x.len)
    && !meets (tableRanges s) base len

/-- The entries of the table that are in use; an ignored one enters the violation log (R369). -/
def readRegions (s : State) (v : DWord) : List AccEnt × State :=
  if !bit v 0 then ([], s)
  else
    (List.range 64).foldl (fun (p : List AccEnt × State) i =>
      let d := BitVec.ofNat 256 (coherentNat s (bits v 51 11 * 2048 + 32 * i) 32)
      if !bit d 160 then p
      else if regionOk s p.1 d then
        (p.1 ++ [⟨bits d 63 0, bits d 127 64, (d.extractLsb' 128 8).toInt, bits d 149 144, i⟩], p.2)
      else (p.1, violate p.2 3 0 0 i noSrc)) ([], s)

/-- WRITE ACCTAB: every line of the old regions is recalled, then every unit takes up the new copy (R369). -/
def writeAcctab (s : State) (v : DWord) : State :=
  let s := (liveLines s).foldl (fun s l => if proxLine s l then proxLeave s l else drainLine s l true) s
  let (es, s) := readRegions s v
  { s with sup := { s.sup with acctab := v }, accCopy := es }

/-- Every region line of the package is recalled: holders in the package leave at once, those of other packages are asked to, and
a proxy's line goes home (R369, R375, R376). -/
def recallRegions (s : State) : State :=
  (liveLines s).foldl (fun s l => if proxLine s l then proxLeave s l else askDrain s l true) s

/-- No holder of a region line is left, nor a push on its way. -/
def regionsGone (s : State) : Bool := s.holders.isEmpty && s.combines.isEmpty && s.mem.accProx.isEmpty

/-- Region requests on their way, which a write of ACCTAB waits for. -/
def regionOpen (s : State) : Bool :=
  s.reqs.any fun e => e.2.stage == .home && match e.2.kind with | .acc | .accLoad .. => true | _ => false

end Sys2Proof.Machine
end

