-- ==== Sys2Proof/Machine/Alu.lean ====
section
/-! DEFINITION. The integer and logic instructions (R81 to R92). -/

namespace Sys2Proof.Machine

open Sys2Proof

/-- A 32-bit result. -/
def r32 (x : Word) : DWord := x.zeroExtend 64

/-- A 32-bit result and its flags. -/
def r32f (r : BitVec 32 × Word) : DWord × Word := (r32 r.1, r.2)

/-- A result without flags. -/
def pure32 (x : Word) : DWord × Word := (r32 x, 0)

/-- A 32-bit form of A, B and C that sets no flag. -/
def map32 (i : Instr) (s : State) (f : Word → Word → Word → Word) : Host.Outcome State Fault Refusal :=
  mapLanes i s fun a b c => pure32 (f (loWord a) (loWord b) (loWord c))

/-- iadd, isub, imul, imad and iabs: the exact integer under the mode (R83). `sgn` reads the sources signed. -/
def arith (m : SatMode) (sgn : Bool) (f : Int → Int → Int → Int) (a b c : DWord) : DWord × Word :=
  r32f (deliver m (f (readAs sgn (loWord a)) (readAs sgn (loWord b)) (readAs sgn (loWord c))) 32)

/-- add64 and sub64 (R92). -/
def arith64 (m : SatMode) (f : Int → Int → Int) (a b _c : DWord) : DWord × Word :=
  deliver m (f (readAs (m == .sats) a) (readAs (m == .sats) b)) 64

/-- The comparison of R88. -/
def icmpHolds (cc : ICond) (a b : Int) : Bool :=
  match cc with
  | .eq => a == b
  | .ne => a != b
  | .lt => a < b
  | .le => a ≤ b
  | .gt => a > b
  | .ge => a ≥ b

/-- Shifts by the whole 32-bit amount (R85). -/
def shlW (a b : Word) : Word := if b.toNat < 32 then a <<< b.toNat else 0
def shrW (a b : Word) : Word := if b.toNat < 32 then a >>> b.toNat else 0
def sarW (a b : Word) : Word := a.sshiftRight (min b.toNat 32)
def rotW (a b : Word) : Word := a.rotateLeft (b.toNat % 32)

/-- The 1 bits of a word (R85). -/
def popcW (a : Word) : Word := BitVec.ofNat 32 ((List.range 32).filter fun i => bit a i).length

/-- The zero bits above the highest 1 bit (R85). -/
def clzW (a : Word) : Word := BitVec.ofNat 32 ((List.range 32).takeWhile fun i => !bit a (31 - i)).length

/-- Bit `i` goes to bit 31 − `i` (R85). -/
def brevW (a : Word) : Word := a.reverse

/-- Position and width of a field specification; width 0 is an empty field (R86). -/
def fieldSpec (x : Word) : Nat × Nat :=
  let pos := bits x 7 0
  (pos, min (bits x 15 8) (32 - pos))

/-- bfe (R86). -/
def bfeW (sg : Bool) (a sp : Word) : Word :=
  let (pos, w) := fieldSpec sp
  if w == 0 then 0
  else if sg then trunc (sExt (a >>> pos) w) 32 else trunc (zExt (a >>> pos) w) 32

/-- bfi (R86). -/
def bfiW (a b sp : Word) : Word :=
  let (pos, w) := fieldSpec sp
  if w == 0 then a
  else
    let m : Word := BitVec.ofNat 32 ((2 ^ w - 1) * 2 ^ pos)
    (a &&& ~~~m) ||| ((b <<< pos) &&& m)

/-- Bits of the source that sext and zext take (R90). -/
def extBits : ExtW → Nat
  | .b8 => 8 | .b16 => 16 | .b32 => 32

/-! ### Arithmetic with wrap and saturation (R83, R84, R92) -/

/-- iadd (R83). -/
def execIadd (h : Hdr) (m : SatMode) (d a b : Operand) (s : State) : Host.Outcome State Fault Refusal :=
  mapLanes (.iadd h m d a b) s (arith m (m == .sats) fun x y _ => x + y)

/-- isub (R83). -/
def execIsub (h : Hdr) (m : SatMode) (d a b : Operand) (s : State) : Host.Outcome State Fault Refusal :=
  mapLanes (.isub h m d a b) s (arith m (m == .sats) fun x y _ => x - y)

/-- imul (R83). -/
def execImul (h : Hdr) (m : SatMode) (d a b : Operand) (s : State) : Host.Outcome State Fault Refusal :=
  mapLanes (.imul h m d a b) s (arith m (m == .sats) fun x y _ => x * y)

/-- imulh (R84). -/
def execImulh (h : Hdr) (sg : Bool) (d a b : Operand) (s : State) : Host.Outcome State Fault Refusal :=
  map32 (.imulh h sg d a b) s fun x y _ => trunc (readAs sg x * readAs sg y / 2 ^ 32) 32

/-- imad (R83). -/
def execImad (h : Hdr) (m : SatMode) (d a b c : Operand) (s : State) : Host.Outcome State Fault Refusal :=
  mapLanes (.imad h m d a b c) s (arith m (m == .sats) fun x y z => x * y + z)

/-- iabs (R83). -/
def execIabs (h : Hdr) (m : SatMode) (d a : Operand) (s : State) : Host.Outcome State Fault Refusal :=
  mapLanes (.iabs h m d a) s (arith m true fun x _ _ => if x < 0 then -x else x)

/-- imin (R84). -/
def execImin (h : Hdr) (sg : Bool) (d a b : Operand) (s : State) : Host.Outcome State Fault Refusal :=
  map32 (.imin h sg d a b) s fun x y _ => if readAs sg y < readAs sg x then y else x

/-- imax (R84). -/
def execImax (h : Hdr) (sg : Bool) (d a b : Operand) (s : State) : Host.Outcome State Fault Refusal :=
  map32 (.imax h sg d a b) s fun x y _ => if readAs sg x < readAs sg y then y else x

/-! ### Logic, shifts and counts (R85) -/

/-- and (R85). -/
def execAnd (h : Hdr) (d a b : Operand) (s : State) : Host.Outcome State Fault Refusal :=
  map32 (.and h d a b) s fun x y _ => x &&& y

/-- or (R85). -/
def execOr (h : Hdr) (d a b : Operand) (s : State) : Host.Outcome State Fault Refusal :=
  map32 (.or h d a b) s fun x y _ => x ||| y

/-- xor (R85). -/
def execXor (h : Hdr) (d a b : Operand) (s : State) : Host.Outcome State Fault Refusal :=
  map32 (.xor h d a b) s fun x y _ => x ^^^ y

/-- andn (R85). -/
def execAndn (h : Hdr) (d a b : Operand) (s : State) : Host.Outcome State Fault Refusal :=
  map32 (.andn h d a b) s fun x y _ => x &&& ~~~y

/-- shl (R85). -/
def execShl (h : Hdr) (d a b : Operand) (s : State) : Host.Outcome State Fault Refusal :=
  map32 (.shl h d a b) s fun x y _ => shlW x y

/-- shr (R85). -/
def execShr (h : Hdr) (d a b : Operand) (s : State) : Host.Outcome State Fault Refusal :=
  map32 (.shr h d a b) s fun x y _ => shrW x y

/-- sar (R85). -/
def execSar (h : Hdr) (d a b : Operand) (s : State) : Host.Outcome State Fault Refusal :=
  map32 (.sar h d a b) s fun x y _ => sarW x y

/-- rot (R85). -/
def execRot (h : Hdr) (d a b : Operand) (s : State) : Host.Outcome State Fault Refusal :=
  map32 (.rot h d a b) s fun x y _ => rotW x y

/-- popc (R85). -/
def execPopc (h : Hdr) (d a : Operand) (s : State) : Host.Outcome State Fault Refusal :=
  map32 (.popc h d a) s fun x _ _ => popcW x

/-- clz (R85). -/
def execClz (h : Hdr) (d a : Operand) (s : State) : Host.Outcome State Fault Refusal :=
  map32 (.clz h d a) s fun x _ _ => clzW x

/-- brev (R85). -/
def execBrev (h : Hdr) (d a : Operand) (s : State) : Host.Outcome State Fault Refusal :=
  map32 (.brev h d a) s fun x _ _ => brevW x

/-! ### Bit fields, select, move, compare (R86 to R89) -/

/-- bfe (R86). -/
def execBfe (h : Hdr) (sg : Bool) (d a b : Operand) (s : State) : Host.Outcome State Fault Refusal :=
  map32 (.bfe h sg d a b) s fun x y _ => bfeW sg x y

/-- bfi (R86). -/
def execBfi (h : Hdr) (d a b c : Operand) (s : State) : Host.Outcome State Fault Refusal :=
  map32 (.bfi h d a b c) s bfiW

/-- sel (R87). -/
def execSel (h : Hdr) (d a b c : Operand) (s : State) : Host.Outcome State Fault Refusal :=
  map32 (.sel h d a b c) s fun x y z => if z != 0 then x else y

/-- mov (R87). -/
def execMov (h : Hdr) (d a : Operand) (s : State) : Host.Outcome State Fault Refusal :=
  map32 (.mov h d a) s fun x _ _ => x

/-- icmp (R88). -/
def execIcmp (h : Hdr) (sg : Bool) (cc : ICond) (d a b : Operand) (s : State) : Host.Outcome State Fault Refusal :=
  map32 (.icmp h sg cc d a b) s fun x y _ => if icmpHolds cc (readAs sg x) (readAs sg y) then 1 else 0

/-- plog (R89). -/
def execPlog (h : Hdr) (tt : BitVec 4) (d a b : Operand) (s : State) : Host.Outcome State Fault Refusal :=
  map32 (.plog h tt d a b) s fun x y _ => if bit tt (2 * x.toNat + y.toNat) then 1 else 0

/-! ### Extension and addresses (R90 to R92) -/

/-- sext (R90). -/
def execSext (h : Hdr) (w : Bool) (wd : ExtW) (d a : Operand) (s : State) : Host.Outcome State Fault Refusal :=
  mapLanes (.sext h w wd d a) s fun x _ _ => (trunc (sExt x (extBits wd)) 64, 0)

/-- zext (R90). -/
def execZext (h : Hdr) (w : Bool) (wd : ExtW) (d a : Operand) (s : State) : Host.Outcome State Fault Refusal :=
  mapLanes (.zext h w wd d a) s fun x _ _ => (trunc (zExt x (extBits wd)) 64, 0)

/-- lea (R91). -/
def execLea (h : Hdr) (sg : Bool) (sh : Fin 5) (d a b : Operand) (s : State) : Host.Outcome State Fault Refusal :=
  mapLanes (.lea h sg sh d a b) s fun x y _ =>
    (trunc (x.toNat + readAs sg (loWord y) * 2 ^ sh.val) 64, 0)

/-- add64 (R92). -/
def execAdd64 (h : Hdr) (m : SatMode) (d a b : Operand) (s : State) : Host.Outcome State Fault Refusal :=
  mapLanes (.add64 h m d a b) s (arith64 m fun x y => x + y)

/-- sub64 (R92). -/
def execSub64 (h : Hdr) (m : SatMode) (d a b : Operand) (s : State) : Host.Outcome State Fault Refusal :=
  mapLanes (.sub64 h m d a b) s (arith64 m fun x y => x - y)

/-- mul64 (R92). -/
def execMul64 (h : Hdr) (m : Mul64Mode) (d a b : Operand) (s : State) : Host.Outcome State Fault Refusal :=
  mapLanes (.mul64 h m d a b) s
    (match m with
    | .full md => arith64 md fun x y => x * y
    | .wideN => fun x y _ => (trunc (readAs false (loWord x) * readAs false (loWord y)) 64, 0)
    | .wideS => fun x y _ => (trunc (readAs true (loWord x) * readAs true (loWord y)) 64, 0))

end Sys2Proof.Machine
end

