-- ==== Sys2Proof/Machine/Atomics.lean ====
section
/-! DEFINITION. Atomics as a warp issues them (R168 to R176): global ones become requests, scratchpad ones act at once. -/

namespace Sys2Proof.Machine

open Sys2Proof

/-- The value of a field for a lane, as the bytes of the access. -/
def laneBytes (s : State) (x : Issue) (o : Option Operand) (n l : Nat) : List Byte :=
  match o, s.warp? x.w with
  | some o, some wp => bytesOf (srcLane s x wp o (n / 4) l).toNat n
  | _, _ => []

/-- Conditions on the location of a global atomic: a local view (0x13), a region element under a type that it does not
allow (0x14) (R172, R173). -/
def atomPost (s : State) (kind : ReqKind) (n pa : Nat) : Option Nat :=
  let fl := match kind with | .atom k | .red k => k == 9 || k == 10 | _ => false
  if spaceOf s pa == .view then some 0x13
  else if (accEnt s pa).isSome && (n == 4 || fl) then some 0x14 else none

/-- The request of one block. -/
def atomReq (s : State) (x : Issue) (kind : ReqKind) (d : Option Operand) (m : MemExt) (as : List Acc) (sm : Bool)
    (blk : Nat) : Req :=
  { Req.blank s x.w kind with
    blk := blk, wid' := m.wid, dst := d, sm := sm, ord := m.ord, scp := m.scp,
    rel := ((s.warp? x.w).map fun w => relTagOf w m.ord m.scp).getD 0, stage := stageOf s (128 * blk), accs := as }

/-- An atomic releases before it acts. -/
def releases (m : MemExt) : Bool := m.ord == .rel || m.ord == .ar

/-- A global atomic (R169 to R173). -/
def globalAtom (kind : ReqKind) (d : Option Operand) (a b : Operand) (c : Option Operand) (m : MemExt) (x : Issue)
    (s : State) : Res :=
  if heldBack s x.w true || (releases m && anyReq s x.w) then .hold .other s
  else if releases m && !releaseReady s x.w m.scp then .hold .other (releaseBegin s x.w)
  else
    let n := m.wid.bytes
    let (j, s) := judge s x.w .rmw n (kind == .cas) (atomPost s kind n) (addrs s x a m.off)
    let blks := blocksOf j.good
    if j.wait || !tableRoom s x.w blks.length then .hold .other s
    else
      let s := if releases m then releaseAt s x.w m.scp else s
      let s := blks.foldl (fun s k =>
        let mine := j.good.filter fun g => g.pa / 128 == k
        let as : List Acc := mine.map fun g =>
          ⟨g.lane, g.va, g.pa, laneBytes s x (some b) n g.lane, laneBytes s x c n g.lane, m.wid.regs, g.cow⟩
        askBlock s x (atomReq s x kind d m as (mine.any fun g => g.sm) k)) s
      .ok (logRegion s x.w j.faults) j.faults j.cows 0

/-- One lane of a scratchpad atomic, with its flags. -/
def padAtomLane (kind : ReqKind) (b : Operand) (c : Option Operand) (n : Nat) (x : Issue)
    (h : GroupId) (s : State) (g : Good) : State :=
  match s.group? h with
  | none => s
  | some gr =>
    let old := gr.bytes g.pa n
    let acc : Acc := ⟨g.lane, g.va, g.pa, laneBytes s x (some b) n g.lane, laneBytes s x c n g.lane, 0, false⟩
    let r := atomNew kind n acc (ofBytes old)
    let s := match r.1 with
      | some v => padWrite s h g.pa (bytesOf v n)
      | none => s
    orFstat s x.w r.2

/-- A scratchpad atomic (R152, R153, R169). Sources are read at issue, so destinations are written after every lane has
acted. -/
def padAtom (kind : ReqKind) (d : Option Operand) (a b : Operand) (c : Option Operand) (m : MemExt) (x : Issue)
    (s : State) : Res :=
  if heldBack s x.w false || (releases m && openReq s x.w) then .hold .other s
  else if releases m && !releaseReady s x.w (padScope m) then .hold .other (releaseBegin s x.w)
  else
    let n := m.wid.bytes
    let tgt := windowOf s x.gid m.pv m.peer.toNat
    let j := judgePad s tgt n (offs s x a m.off)
    match tgt with
    | none => .ok s (faultAll x.exec j.faults) [] 0
    | some h =>
      let errs := j.good.map fun g => (g.lane, padTrapAddr m g.va)
      if windowDead s x.gid h then
        let s := deadPeer s x.w m j.good
        match d with
        | some o => .ok (markBad s x.w o m.wid 0x15 s.tick errs) j.faults [] 0
        | none => .ok (storeRefused s x.w 0x15 errs) j.faults [] 0
      else if anyHeld s h n j.good then .hold .other s
      else
        let s := if releases m then releaseAt s x.w (padScope m) else s
        let s := if (m.ord == .acq || m.ord == .ar) && padScope m == .cl then dropAt s x.w else s
        let marked (g : Good) : Bool := match s.group? h with | some gr => gr.padBad g.pa n | none => false
        let poison := (j.good.filter marked).map fun g => (g.lane, padTrapAddr m g.va)
        let s := match d with
          | some o => markBad s x.w o m.wid 0x30 s.tick poison
          | none => storeRefused s x.w 0x30 poison
        let r := (j.good.filter fun g => !marked g).foldl (fun (p : State × List (Nat × List Byte)) g =>
          let old := match p.1.group? h with | some gr => gr.bytes g.pa n | none => []
          (padAtomLane kind b c n x h p.1 g, p.2 ++ [(g.lane, old)])) (s, [])
        let s := match d with
          | some o => r.2.foldl (fun s e => putLoaded s x.w o e.1 n false e.2) r.1
          | none => r.1
        .ok s j.faults [] 0

/-- atom (R168 to R173). -/
def execAtom (p : Pr) (sp : Bool) (d a b : Operand) (x : MemExt) (s : State) : Host.Outcome State Fault Refusal :=
  run (.atom p sp d a b x) s
    (if sp then padAtom (.atom (x.opx.toNat % 16)) (some d) a b none x
     else globalAtom (.atom (x.opx.toNat % 16)) (some d) a b none x)

/-- red (R174). -/
def execRed (p : Pr) (sp : Bool) (a b : Operand) (x : MemExt) (s : State) : Host.Outcome State Fault Refusal :=
  run (.red p sp a b x) s
    (if sp then padAtom (.red (x.opx.toNat % 16)) none a b none x
     else globalAtom (.red (x.opx.toNat % 16)) none a b none x)

/-- cas (R175, R176). -/
def execCas (p : Pr) (sp : Bool) (d a b c : Operand) (x : MemExt) (s : State) : Host.Outcome State Fault Refusal :=
  run (.cas p sp d a b c x) s
    (if sp then padAtom .cas (some d) a b (some c) x else globalAtom .cas (some d) a b (some c) x)

end Sys2Proof.Machine
end

