-- ==== Sys2Proof/Machine/Fetch.lean ====
section
/-! DEFINITION. Fetching an instruction (R43, R44, R65, R163, R311): the warp's own fetch block, the instruction cache of
its CU, and the home behind them. -/

namespace Sys2Proof.Machine

open Sys2Proof

/-- What fetching at an address gives: the bytes up to the end of its fetch block, or a cause. -/
inductive Fetched
  | bytes (bs : List Byte)
  | fault (cause : Nat)
  | wait
deriving DecidableEq, Repr

/-- What a home answers to the fetch of a block: its bytes as the home holds them, an error, or a wait for a port group
(log 16, log 60). -/
def homeFetch (s : State) (blk : Nat) : Fetched :=
  let pa := 32 * blk
  if spaceOf s pa == .ctl then .fault 0x15
  else if spaceOf s pa == .pool && poolWay s pa == .waits then .wait
  else
    let bs := (List.range 32).map fun i => homeByte? s (pa + i)
    if bs.any fun b => b.isNone then .fault 0x15
    else if s.poisoned pa then .fault 0x30
    else .bytes (bs.map fun b => b.getD 0)

/-- A block of another package: it is asked for once, and the warp waits (R313). -/
def farFetch (s : State) (w : WarpId) (blk : Nat) : State :=
  if s.reqs.any fun e => e.2.kind == .fetch && e.2.cu == cuOf (gidOf w) && e.2.blk == blk then s
  else (addReq s { Req.blank s w .fetch with
    blk := blk, place := 32, stage := .ext, accs := [⟨0, 0, 32 * blk, [], [], 0, false⟩] }).2

/-- The bytes from an address to the end of its block enter the warp's fetch block. -/
def fetched (s : State) (w : WarpId) (pa : Nat) (bs : List Byte) : Fetched × State :=
  (.bytes (bs.drop (pa % 32)), s.modWarp w fun x => { x with ibuf := some (pa / 32, bs) })

/-- Fetch the bytes of a fetch block from a physical address on: those that the warp holds, those of the instruction
cache, or those of the home, which the cache then keeps until icinv (R65, R163). -/
def fetchPa (s : State) (w : WarpId) (pa : Nat) : Fetched × State :=
  let c := cuOf (gidOf w)
  let blk := pa / 32
  match (s.warp? w).bind fun x => x.ibuf.filter fun b => b.1 == blk with
  | some b => (.bytes (b.2.drop (pa % 32)), s)
  | none =>
    match (s.warp? w).bind fun x => x.fetchBad.filter fun b => b.1 == blk with
    | some b => (.fault b.2, s.modWarp w fun x => { x with fetchBad := none })
    | none =>
      match sFind? (s.cu c).ic blk with
      | some bs => fetched s w pa bs
      | none =>
        if spaceOf s pa == .far then (.wait, farFetch s w blk)
        else
          match homeFetch s blk with
          | .bytes bs => fetched ((keepView s (32 * blk) 32).modCu c fun u => { u with ic := sInsert u.ic blk bs }) w pa bs
          | .fault cause =>
            (.fault cause, if cause == 0x15 then violate s 1 0x15 (tagOf s w) pa (srcOf c) else s)
          | .wait => (.wait, s)

/-- Fetch at an address for a warp: translation, then the bytes up to the end of its fetch block (R43, R70). -/
def fetchAt (s : State) (w : WarpId) (pc : Addr) : Fetched × State :=
  match translate s (cuOf (gidOf w)) (tagOf s w) (isSup w) .exec pc with
  | (.ok pa _, s) => fetchPa s w pa
  | (.wait, s) => (.wait, s)
  | (.fault c, s) => (.fault c, s)
  | (.cow, s) => (.fault 0x11, s)

/-- A fetch block arrives from another package: it enters the instruction cache, or the warps that wait for it meet the
error (R311). -/
def fetchArrives (s : State) (r : Req) (bs : Except Nat (List Byte)) : State :=
  match bs with
  | .ok b => s.modCu r.cu fun u => { u with ic := sInsert u.ic r.blk b }
  | .error cause => s.modWarp r.wid fun x => { x with fetchBad := some (r.blk, cause) }

/-- The instruction at an address extends beyond its fetch block (R44). LEN 0b11 is judged from offset 28 alone: there
every length does. -/
def straddles (pc : Addr) (bs : List Byte) : Bool :=
  match bs with
  | [] => true
  | b :: _ =>
    let len := b.extractLsb' 0 2
    if bits pc 4 0 == 28 then true else len != 3 && bs.length < lenBytes len

end Sys2Proof.Machine
end

