-- ==== Sys2Proof/Machine/Control.lean ====
section
/-! DEFINITION. The control instructions (R70 to R80) and spin rotation (R22 to R24). -/

namespace Sys2Proof.Machine

open Sys2Proof

/-! ### Transfers -/

/-- A backward transfer to `t` counts (R22); one taken by an excursion lane ends the excursion (R23). A counter of 256
stands for a rotation that is due before the next issue. -/
def countBack (x : Warp) (t : Addr) (m : Mask) : Warp :=
  let y := { x with spin := if x.lastBack == some t then x.spin + 1 else 1, lastBack := some t }
  if x.exc &&& m != 0 then endExcursion y else y

/-- The cause of a target that a transfer cannot take (R70). -/
def targetFault (t : Addr) : Option Nat :=
  if bits t 1 0 != 0 then some 0x04 else if !legalVa t then some 0x10 else none

/-- Taken lanes go to their targets, writing a link first; lanes with a bad target fault (R70, R73). -/
def transfer (x : Issue) (s : State) (link : Option Operand) (ts : List (Nat × Addr)) : Res :=
  let bad := ts.filterMap fun e => (targetFault e.2).map fun c => (⟨e.1, c, e.2, none⟩ : LFault)
  let good := ts.filter fun e => (targetFault e.2).isNone
  let back := good.filter fun e => e.2.toNat ≤ x.cur.pc.toNat
  let s := s.modWarp x.w fun w =>
    let w := good.foldl (fun w e =>
      let w := match link with | some d => putLane w d 2 e.1 x.cur.next | none => w
      w.setVpc ((1 : Mask) <<< e.1) e.2) w
    match back with
    | [] => w
    | e :: es =>
      let t := es.foldl (fun (m : Addr) f => if f.2.toNat < m.toNat then f.2 else m) e.2
      countBack w t (maskOf (back.map fun f => f.1))
  .ok s bad [] (maskOf (good.map fun e => e.1))

/-- The targets of a 64-bit source for every executing lane. -/
def targetsOf (s : State) (x : Issue) (a : Operand) : List (Nat × Addr) :=
  match s.warp? x.w with
  | some w => (lanesOf x.exec).map fun l => (l, srcLane s x w a 2 l)
  | none => []

/-- One target for every executing lane: the instruction's address plus the displacement (R72). -/
def targetsAt (x : Issue) (disp : Word) : List (Nat × Addr) :=
  (lanesOf x.exec).map fun l => (l, x.cur.pc + disp.signExtend 64)

/-- nop (R71). -/
def execNop (h : Hdr) (s : State) : Host.Outcome State Fault Refusal :=
  run (.nop h) s fun _ s => .done s

/-- bra (R72). -/
def execBra (p : Pr) (disp : Word) (s : State) : Host.Outcome State Fault Refusal :=
  run (.bra p disp) s fun x s => transfer x s none (targetsAt x disp)

/-- brx (R74). -/
def execBrx (p : Pr) (a : Operand) (s : State) : Host.Outcome State Fault Refusal :=
  run (.brx p a) s fun x s => transfer x s none (targetsOf s x a)

/-- call (R73). -/
def execCall (p : Pr) (ind : Bool) (d a : Operand) (disp : Word) (s : State) : Host.Outcome State Fault Refusal :=
  run (.call p ind d a disp) s fun x s => transfer x s (some d) (if ind then targetsOf s x a else targetsAt x disp)

/-- ret (R74): the effect of brx. -/
def execRet (p : Pr) (a : Operand) (s : State) : Host.Outcome State Fault Refusal :=
  run (.ret p a) s fun x s => transfer x s none (targetsOf s x a)

/-- A handler warp ends by exit: its trap is fatal (R358), and its place is free again. -/
def handlerEnds (s : State) (w : WarpId) : State :=
  match s.warp? w with
  | some x =>
    match x.serves with
    | some t =>
      if x.exited then
        let s := dropReply { s with warps := sErase s.warps w } w
        let s := s.modWarp t fun y => { y with halt := none }
        let s := exitLanes s t (((s.warp? t).map Warp.alive).getD 0) 0
        fatalFault s (gidOf t)
      else s
    | none => if x.exited && isSup w then dropReply { s with warps := sErase s.warps w } w else s
  | none => s

/-- exit (R75, R26; R358 for a handler warp). -/
def execExit (p : Pr) (s : State) : Host.Outcome State Fault Refusal :=
  run (.exit p) s fun x s => .ok (handlerEnds (exitLanes s x.w x.exec x.cur.pc) x.w) [] [] x.exec

/-- rpt: the whole repeat is checked, then begins (R59, R76). -/
def execRpt (cnt : Fin 64) (sd sa sb sc : BitVec 2) (s : State) : Host.Outcome State Fault Refusal :=
  run (.rpt cnt sd sa sb sc) s fun x s =>
    match s.warp? x.w, s.group? x.gid, fetchAt s x.w x.cur.next with
    | some w, some g, (.bytes bs, s) =>
      match Raw.read bs with
      | .ok r =>
        if bits x.cur.next 63 5 == bits x.cur.pc 63 5 && repeatOk r cnt.val sd sa sb sc g w.width then
          .ok (s.modWarp x.w fun w => { w with rep := ⟨true, cnt.val, 0, x.set, none⟩ }) [] [] x.set
        else .trap 0x01 x.cur.pc 0 false
      | .error _ => .trap 0x01 x.cur.pc 0 false
    | _, _, (.wait, s) => .hold .other s
    | _, _, (_, _) => .trap 0x01 x.cur.pc 0 false

/-- yield (R79): youngest in its quadrant's rotation, and not selected in the next 8 fc while another warp of the
quadrant can run. -/
def execYield (p : Pr) (s : State) : Host.Outcome State Fault Refusal :=
  run (.yield p) s fun x s =>
    .done ({ s with order := (s.order.filter fun w => w != x.w) ++ [x.w] }.modWarp x.w fun w =>
      { w with noIssueUntil := s.fc + 9 })

/-- idle (R80): the issue set moves past it; a set latch is cleared, and otherwise the warp waits for the next event. -/
def execIdle (p : Pr) (s : State) : Host.Outcome State Fault Refusal :=
  run (.idle p) s fun x s =>
    .done (s.modWarp x.w fun w => if w.latch then { w with latch := false } else { w with hold := .idle })

/-! ### Spin rotation (R22 to R24) -/

/-- The lanes of an excursion that is due: those at the lowest vpc above the issue address (R23). -/
def excursionSet (x : Warp) : Mask :=
  match x.issueAddr with
  | none => 0
  | some a =>
    let up := maskOf ((lanesOf x.eligible).filter fun l => a.toNat < (x.vpc l).toNat)
    match x.minVpc up with
    | none => 0
    | some b => maskOf ((lanesOf up).filter fun l => x.vpc l == b)

/-- The counter has reached 256: it becomes 0 and an excursion begins where lanes stand above (R23). -/
def startExcursion (x : Warp) : Warp := { x with spin := 0, exc := excursionSet x, excCount := 0 }

/-- What spin rotation has due at a boundary, in the turn in which the warp then issues (R23, R302). -/
def spinTurn (x : Warp) : Warp :=
  if x.rep.act then x
  else if 256 ≤ x.spin then startExcursion x
  else if x.exc != 0 && 1024 ≤ x.excCount then endExcursion x else x

/-- SPIN_EXCURSION: an excursion that is due begins (R23). -/
def execSpinExcursion (w : WarpId) (s : State) : Host.Outcome State Fault Refusal :=
  match s.warp? w with
  | some x => if 256 ≤ x.spin && !x.rep.act then .next (s.setWarp w (startExcursion x)) else .next s
  | none => .next s

/-- EXCURSION_LIMIT: the excursion has issued 1,024 instructions and ends (R23). -/
def execExcursionLimit (w : WarpId) (s : State) : Host.Outcome State Fault Refusal :=
  match s.warp? w with
  | some x => if x.exc != 0 && 1024 ≤ x.excCount && !x.rep.act then .next (s.setWarp w (endExcursion x)) else .next s
  | none => .next s

end Sys2Proof.Machine
end

