-- ==== Sys2Proof/Machine/Special.lean ====
section
/-! DEFINITION. The special functions (R129): exact or closely approximated reals, the bounds of the accuracy table, and
the special operands. A result inside the bound is a free value of its operand's pattern (log 19). -/

namespace Sys2Proof.Machine

open Sys2Proof

/-! ### Integer roots and fixed point -/

/-- The integer square root of a number below 4^k, bit by bit. -/
def isqrtBits (x : Nat) : Nat → Nat → Nat
  | 0, r => r
  | k + 1, r => isqrtBits x k (if (r + 2 ^ k) * (r + 2 ^ k) ≤ x then r + 2 ^ k else r)

def isqrt (x : Nat) : Nat := isqrtBits x (Nat.log2 x / 2 + 1) 0

/-- Fraction bits of the fixed-point numbers below. -/
def fxP : Nat := 96

/-- A real that is known exactly, or lies within 2^-60 of itself relatively, or absolutely where the bound is absolute. -/
structure Approx where
  y : Ex
  exact : Bool
deriving DecidableEq, Repr

/-- The product of the factors 2^(2^-k) for the set bits of a 64-bit fraction, in fixed point. -/
def exp2Bits (f : Nat) : Nat → Nat → Nat → Nat
  | 0, _, acc => acc
  | k + 1, c, acc =>
    let c := isqrt (c * 2 ^ fxP)
    exp2Bits f k c (if field f k k == 1 then acc * c / 2 ^ fxP else acc)

/-- 2^x for a finite x; far outside the range of FP32 a value beyond it on the same side. -/
def exp2Real (n : Bool) (m : Nat) (e : Int) (d : Nat) : Approx :=
  let (num, den) := Ex.frac m e d
  if 1024 * den ≤ num then ⟨.fin false 1 (if n then -1024 else 1024) 1, false⟩
  else
    let fl := if n then -(((num + den - 1) / den : Nat) : Int) else ((num / den : Nat) : Int)
    let fr := if n then (-fl).toNat * den - num else num - fl.toNat * den
    if fr == 0 then ⟨.fin false 1 fl 1, true⟩
    else ⟨.fin false (exp2Bits (fr * 2 ^ 64 / den) 64 (2 ^ (fxP + 1)) (2 ^ fxP)) (fl - fxP) 1, false⟩

/-- Fraction bits of log2 of a number in [1, 2), by squaring. -/
def log2Bits : Nat → Nat → Nat → Nat
  | 0, _, acc => acc
  | k + 1, z, acc =>
    let z := z * z / 2 ^ 160
    if 2 ^ 161 ≤ z then log2Bits k (z / 2) (2 * acc + 1) else log2Bits k z (2 * acc)

/-- log2 of a positive dyadic value. -/
def log2Real (m : Nat) (e : Int) : Approx :=
  let k := Nat.log2 m
  let w : Int := k + e
  if m == 2 ^ k then ⟨Ex.ofInt w, true⟩
  else
    let fr : Int := log2Bits 64 (m * 2 ^ 160 / 2 ^ k) 0
    ⟨Ex.ofScaled (w * 2 ^ 64 + fr) (-64) 1 false, false⟩

/-- Terms of the sine or cosine series: `t` is the last term, `j` its order. -/
def trigTerms (x2 : Nat) : Nat → Nat → Nat → Int → Bool → Int
  | 0, _, _, acc, _ => acc
  | k + 1, j, t, acc, neg =>
    let t' := t * x2 / 2 ^ fxP / ((j + 1) * (j + 2))
    trigTerms x2 k (j + 2) t' (if neg then acc - t' else acc + t') (!neg)

/-- 2π in fixed point. -/
def twoPi : Nat := 497805226624462170461043889244

/-- sin and cos of 2π·t for a fraction t of a turn below a quarter, in fixed point. -/
def sinQ (t den : Nat) : Int :=
  let x := twoPi * t / den
  trigTerms (x * x / 2 ^ fxP) 14 1 x x true
def cosQ (t den : Nat) : Int :=
  let x := twoPi * t / den
  trigTerms (x * x / 2 ^ fxP) 14 0 (2 ^ fxP) (2 ^ fxP) true

/-- sin 2πx (or cos 2πx) of a finite x (R129). -/
def sinReal (cosine : Bool) (n : Bool) (m : Nat) (e : Int) : Approx :=
  let (num, den) := Ex.frac m e 1
  let r := num % den
  let r := if n && r != 0 then den - r else r
  let q := 4 * r / den
  let t := 4 * r - q * den
  let q := if cosine then q + 1 else q
  if t == 0 then
    ⟨if q % 2 == 0 then .fin (!cosine && n) 0 0 1 else Ex.ofInt (if q % 4 == 1 then 1 else -1), true⟩
  else
    let v := if q % 2 == 0 then sinQ t (4 * den) else cosQ t (4 * den)
    ⟨Ex.ofScaled (if q % 4 < 2 then v else -v) (-(fxP : Int)) 1 false, false⟩

/-- log2 e in fixed point. -/
def log2e : Nat := 114302077158074026402637675936

/-- tanh of a finite nonzero x, as 1 − 2/(e^(2|x|) + 1) with the sign of x. -/
def tanhReal (n : Bool) (m : Nat) (e : Int) : Approx :=
  match (exp2Real false (m * log2e) (e + 1 - fxP) 1).y with
  | .fin _ u k _ =>
    let (a, b) := Ex.frac u k 1
    ⟨.fin n (a - b) 0 (a + b), false⟩
  | x => ⟨x, false⟩

/-- 1/√x of a positive dyadic value. -/
def rsqrtReal (m : Nat) (e : Int) : Approx :=
  let k : Int := (e + Nat.log2 m + 132) / 2 + 1
  let y := isqrt (2 ^ (2 * k - e).toNat / m)
  ⟨.fin false y (-k) 1, y * y * m == 2 ^ (2 * k - e).toNat⟩

/-- √x of a positive dyadic value, with a last bit that says whether it is inexact. -/
def sqrtReal (m : Nat) (e : Int) : Approx :=
  let k : Int := (160 - e - Nat.log2 m) / 2 + 1
  let x := m * 2 ^ (2 * k + e).toNat
  let y := isqrt x
  let exact := y * y == x
  ⟨.fin false (2 * y + (if exact then 0 else 1)) (-k - 1) 1, exact⟩

/-! ### Bounds (R129) -/

/-- What a bound is multiplied by, in units of 2^-30: the bound itself for a real that is known exactly; for one that is
approximated a little less, so that a pattern within it lies within the bound of the real (log 19). -/
def Approx.margin (a : Approx) : Nat := if a.exact then 2 ^ 30 else 2 ^ 30 - 1

/-- The spacing of FP32 at a value, times `k`. -/
def ulpBound (a : Approx) (k : Nat) : Ex :=
  match a.y with
  | .fin _ m e d =>
    let (num, den) := Ex.frac m e d
    let ex := if num == 0 then FP32.emin else max (log2Frac num den) FP32.emin
    .fin false (k * a.margin) (ex - 53) 1
  | y => y

/-- 2^-22. -/
def absBound (a : Approx) : Ex := .fin false a.margin (-52) 1

/-- A pattern lies within a bound of a real. -/
def within (p : Nat) (y b : Ex) : Bool :=
  match FP32.value p with
  | .fin n m e d =>
    match Ex.addFin .rne (.fin n m e d) y.negate with
    | .fin _ m' e' d' => !Ex.lt b (.fin false m' e' d')
    | _ => false
  | _ => false

/-- The bound of a function at its operand (R129). -/
inductive SfFun | rcp | rsqrt | sqrt | exp2 | log2 | sin | cos | tanh
deriving DecidableEq, Repr

/-- The pattern a unit delivers, before it is held to the bound (log 19). -/
def sfRaw (f : SfFun) (x : Word) : Word :=
  match f with
  | .rcp => Config.rcp x
  | .rsqrt => Config.rsqrt x
  | .sqrt => 0
  | .exp2 => Config.exp2 x
  | .log2 => Config.log2 x
  | .sin => Config.sin x
  | .cos => Config.cos x
  | .tanh => Config.tanh x

/-- The bound on the error at a finite operand. -/
def sfBound (f : SfFun) (x : Ex) (a : Approx) : Ex :=
  let half : Ex := .fin false 1 (-1) 1
  let mag : Ex := match x with | .fin _ m e d => .fin false m e d | z => z
  match f with
  | .rcp | .rsqrt | .sqrt => ulpBound a 1
  | .exp2 => ulpBound a 2
  | .log2 => if Ex.lt mag half || Ex.lt (Ex.ofInt 2) mag then ulpBound a 2 else absBound a
  | .sin | .cos => absBound a
  | .tanh => if Ex.lt mag half then absBound a else ulpBound a 2

/-- What a function gives: a special result with its flags, or a real to be delivered. -/
inductive SfOut
  | special (x : Ex) (f : Word)
  | real (a : Approx)
deriving DecidableEq, Repr

/-- The special operands, and the real otherwise (R129). -/
def sfEval (f : SfFun) (x : Ex) : SfOut :=
  match f, x with
  | _, .nan => .special .nan 0
  | .rcp, .inf n => .special (.fin n 0 0 1) 0
  | .rcp, .fin n m e d => if m == 0 then .special (.inf n) fDZ else .real ⟨Ex.div (Ex.ofInt 1) (.fin n m e d), true⟩
  | .rsqrt, .inf n => if n then .special .nan fNV else .special (.fin false 0 0 1) 0
  | .rsqrt, .fin n m e _ =>
    if m == 0 then .special (.inf n) fDZ else if n then .special .nan fNV else .real (rsqrtReal m e)
  | .sqrt, .inf n => if n then .special .nan fNV else .special (.inf false) 0
  | .sqrt, .fin n m e d =>
    if m == 0 then .special (.fin n 0 e d) 0 else if n then .special .nan fNV else .real (sqrtReal m e)
  | .exp2, .inf n => .special (if n then .fin false 0 0 1 else .inf false) 0
  | .exp2, .fin n m e d => .real (exp2Real n m e d)
  | .log2, .inf n => if n then .special .nan fNV else .special (.inf false) 0
  | .log2, .fin n m e d =>
    if m == 0 then .special (.inf true) fDZ
    else if n then .special .nan fNV
    else if Ex.eqv (.fin n m e d) (Ex.ofInt 1) then .special (.fin false 0 0 1) 0
    else .real (log2Real m e)
  | .sin, .inf _ | .cos, .inf _ => .special .nan fNV
  | .sin, .fin n m e _ => if m == 0 then .special (.fin n 0 0 1) 0 else .real (sinReal false n m e)
  | .cos, .fin n m e _ => .real (sinReal true n m e)
  | .tanh, .inf n => .special (Ex.ofInt (if n then -1 else 1)) 0
  | .tanh, .fin n m e _ => if m == 0 then .special (.fin n 0 0 1) 0 else .real (tanhReal n m e)

/-- The results that are fixed: exact sines and cosines (R129); exp2 of an integer whose power FP32 holds, and rcp of a power of two,
where operand and result are normal numbers (R364). -/
def sfFixed (f : SfFun) (x : Word) (a : Approx) (near : Nat) : Bool :=
  a.exact && match f with
    | .sin | .cos => true
    | .exp2 => Ex.eqv (FP32.value near) a.y
    | .rcp => Ex.eqv (FP32.value near) a.y && 2 ^ 23 ≤ FP32.magOf near && 2 ^ 23 ≤ FP32.magOf x.toNat
    | _ => false

/-- The FP32 pattern for an FP32 operand pattern and a real: rounded where the bound leaves one value or the raw pattern
lies outside it, and where the result is fixed. A real that rounds to infinity gives infinity, where the bound would admit
the largest finite number as well (log 19). -/
def sfDeliver (f : SfFun) (x : Word) (a : Approx) : Nat :=
  let near := (roundF FP32 .rne false a.y).1
  let raw := (sfRaw f x).toNat
  if sfFixed f x a near then near
  else if (FP32.value near).isInf then near
  else if within raw a.y (sfBound f (FP32.value x.toNat) a) then raw
  else near

/-- Flags of a result against the exact real (R129). -/
def sfFlags (F : Fmt) (p : Nat) (a : Approx) : Word :=
  let v := F.value p
  let nx := !(a.exact && Ex.eqv v a.y)
  flagIf nx fNX ||| flagIf v.isInf fOF ||| flagIf (nx && F.magOf p < 2 ^ F.f) fUF

/-- One element of a special function (R129). -/
def sfElem (f : SfFun) (F : Fmt) (rm : RMode) (x : Nat) : Nat × Word :=
  let sn := snanFlag F [x]
  let v := F.value x
  match sfEval f v with
  | .special y fl => ((roundF F .rne false y).1, fl ||| sn)
  | .real a =>
    if f == .sqrt then roundF F rm false a.y
    else
      let x32 := BitVec.ofNat 32 (roundF FP32 .rne false v).1
      let p := sfDeliver f x32 a
      if F == FP32 then (p, sfFlags FP32 p a)
      else
        let r := (roundF F .rne false (FP32.value p)).1
        (r, sfFlags F r a)

end Sys2Proof.Machine
end

