-- ==== Sys2Proof/Machine/Convert.lean ====
section
/-! DEFINITION. Conversions and special functions, which run through the warp's two queues (R124 to R130). -/

namespace Sys2Proof.Machine

open Sys2Proof

/-! ### The queues (R130) -/

/-- The writes of one lane's value to a register destination. -/
def regDests (o : Operand) (n l : Nat) (v : DWord) : List QDest :=
  match o with
  | .v k => .vec k.val l (loWord v) :: (if n == 2 then [.vec (k.val + 1) l (hiWord v)] else [])
  | .s k => .sca k.val (loWord v) :: (if n == 2 then [.sca (k.val + 1) (hiWord v)] else [])
  | _ => []

/-- Reserve a ring slot for each value (R130). -/
def reserveAll (s : State) (g : GroupId) (ch : Nat) : List DWord → List QDest × State
  | [] => ([], s)
  | v :: vs =>
    let (o, s) := reserveOne s g ch
    let (ds, s) := reserveAll s g ch vs
    (.slot o (loWord v) :: ds, s)

/-- The operand D as it stands, for forms that read it (R125, R127). -/
def oldD (s : State) (x : Issue) (h : Shape) : List DWord :=
  match h.d, s.warp? x.w with
  | some u, some wp => x.act.map fun l => if h.dRead then srcLane s x wp u.o 1 l else 0
  | _, _ => x.act.map fun _ => 0

/-- Put an operation in its queue. -/
def postQueue (s : State) (w : WarpId) (sf : Bool) (q : QOp) : State :=
  s.modWarp w fun x => if sf then { x with sfq := x.sfq ++ [q] } else { x with cvq := x.cvq ++ [q] }

/-- The body of a queued form: sources and pops are taken and pushed slots reserved at issue; the operation enters its
queue, or the warp is held when the queue is full (R130). -/
def queueBody (sf : Bool) (i : Instr) (f : DWord → DWord → DWord → DWord → DWord × Word) (x : Issue) (s : State) : Res :=
  match s.warp? x.w with
  | none => .done s
  | some wp =>
    if 8 ≤ (if sf then wp.sfq else wp.cvq).length then .hold .other s
    else
      let h := shape i
      let old := oldD s x h
      let (a, b, c, s) := gather3 s x h
      let rs : List (DWord × Word) := (old.zip (a.zip (b.zip c))).map fun e => f e.2.1 e.2.2.1 e.2.2.2 e.1
      let vs := rs.map fun r => r.1
      let (ds, s) : List QDest × State := match h.d with
        | none => ([], s)
        | some u =>
          match u.o with
          | .ch c _ => reserveAll s x.gid c.val vs
          | o => ((x.act.zip vs).flatMap fun e => regDests o u.n e.1 e.2, s)
      .done (postQueue s x.w sf ⟨ds, orAll (rs.map fun r => r.2)⟩)

/-- A write of a queued operation at its completion: a lane that has exited writes no register, but every reserved slot
is filled (R75, R130); a scalar register is written while any lane of the warp lives (log 68). -/
def queueWrite (s : State) (w : WarpId) (d : QDest) : State :=
  match d with
  | .vec n l v => s.modWarp w fun x => if (x.lanes[l]?.map Lane.st) == some .exited then x else x.setV n l v
  | .sca n v => s.modWarp w fun x => if x.exited then x else x.setS n v
  | .slot off v => fillSlot s (gidOf w) off v

/-- A slot that the operation would fill is held by a queued matrix operation (R223). -/
def queueBlocked (s : State) (w : WarpId) (q : QOp) : Bool :=
  match s.group? (gidOf w) with
  | some g => q.dests.any fun d => match d with | .slot off _ => g.isHeld off 4 | _ => false
  | none => false

/-- QUEUE_COMPLETION: the oldest operation of a queue completes (R130, R32). -/
def execQueueCompletion (w : WarpId) (sf : Bool) (s : State) : Host.Outcome State Fault Refusal :=
  match s.warp? w with
  | none => .next s
  | some x =>
    match if sf then x.sfq else x.cvq with
    | [] => .next s
    | q :: rest =>
      if queueBlocked s w q then .next s
      else
        let s := s.setWarp w (if sf then { x with sfq := rest } else { x with cvq := rest })
        let s := q.dests.foldl (fun s d => queueWrite s w d) s
        .next (if x.exited then s else orFstat s w q.flags)

/-! ### Conversions (R124 to R128) -/

/-- A conversion of R124: source value and destination by CV. -/
def cvtElem (cv : BitVec 4) (rm : RMode) (a : DWord) : DWord × Word :=
  let s32 : Ex := Ex.ofInt (loWord a).toInt
  let n32 : Ex := Ex.ofInt (loWord a).toNat
  let s64 : Ex := Ex.ofInt a.toInt
  let n64 : Ex := Ex.ofInt a.toNat
  let f32 := FP32.value (bits a 31 0)
  let f64 := FP64.value a.toNat
  let sn32 := snanFlag FP32 [bits a 31 0]
  let sn64 := snanFlag FP64 [a.toNat]
  let toF (F : Fmt) (v : Ex) (sn : Word) : DWord × Word :=
    let r := roundF F rm false v
    (BitVec.ofNat 64 r.1, r.2 ||| sn)
  let toI (m : Nat) (sg : Bool) (v : Ex) : DWord × Word :=
    let r := roundI m sg rm true v
    (BitVec.ofNat 64 r.1.toNat, r.2)
  match cv.toNat with
  | 0x0 => toF FP32 f64 sn64
  | 0x1 => toF FP64 f32 sn32
  | 0x2 => toF FP32 s32 0
  | 0x3 => toF FP32 n32 0
  | 0x4 => toF FP64 s32 0
  | 0x5 => toF FP64 n32 0
  | 0x6 => toI 32 true f32
  | 0x7 => toI 32 false f32
  | 0x8 => toI 32 true f64
  | 0x9 => toI 32 false f64
  | 0xA => toF FP32 s64 0
  | 0xB => toF FP32 n64 0
  | 0xC => toF FP64 s64 0
  | 0xD => toF FP64 n64 0
  | 0xE => toI 64 true f64
  | _ => toI 64 false f64

/-- Two elements of width `m` enter the top of D, whose contents move down (R125). -/
def packInto (m e0 e1 : Nat) (old : DWord) : DWord :=
  let pair := e0 + e1 * 2 ^ m
  BitVec.ofNat 64 ((bits old 31 0 / 2 ^ (2 * m) + pair * 2 ^ (32 - 2 * m)) % 2 ^ 32)

/-- One narrowed element of pack (R125). -/
def packElem (f : PackFmt) (sat : Bool) (rm : RMode) (x : DWord) : Nat × Word :=
  let v := FP32.value (bits x 31 0)
  let sn := snanFlag FP32 [bits x 31 0]
  let fl (F : Fmt) : Nat × Word := let r := roundF F rm sat v; (r.1, r.2 ||| sn)
  let int (m : Nat) : Nat × Word := let r := roundI m true rm sat (Ex.ofInt (loWord x).toInt); (r.1.toNat, r.2)
  match f with
  | .f16 => fl FP16
  | .bf16 => fl BF16
  | .f8e4 => fl F8E4
  | .f8e5 => fl F8E5
  | .s8 => int 8
  | .s4 => int 4

/-- unpack of one lane (R126). -/
def unpackElem (f : PackFmt) (idx : Nat) (a : DWord) : DWord × Word :=
  let m := f.width
  let x := bits a (m * idx + m - 1) (m * idx)
  let fl (F : Fmt) : DWord × Word :=
    let r := roundF FP32 .rne false (F.value x)
    (BitVec.ofNat 64 r.1, snanFlag F [x])
  match f with
  | .f16 => fl FP16
  | .bf16 => fl BF16
  | .f8e4 => fl F8E4
  | .f8e5 => fl F8E5
  | .s8 | .s4 => ((trunc (sExt (BitVec.ofNat m x) m) 32 : Word).zeroExtend 64, 0)

/-- One code of qpack (R127). -/
def qpackCode (m : Nat) (rm : RMode) (x hdr : DWord) : Nat × Word :=
  let sc := FP16.value (bits hdr 15 0)
  let zp := bits hdr 23 16
  let v := FP32.value (bits x 31 0)
  if sc.isZero || sc.isInf || sc.isNan || v.isNan then
    let r := satU zp m
    (r.1.toNat, flagIf r.2 fSAT ||| fNV)
  else
    let r := roundI m false rm true (Ex.sum rm [Ex.div v sc, Ex.ofInt zp]).1
    (r.1.toNat, r.2)

/-- qunpack of one lane (R128). -/
def qunpackElem (m idx : Nat) (a hdr : DWord) : DWord × Word :=
  let code := bits a (m * idx + m - 1) (m * idx)
  let r := roundSum FP32 .rne [Ex.mul (FP16.value (bits hdr 15 0)) (Ex.ofInt ((code : Int) - bits hdr 23 16))]
  (BitVec.ofNat 64 r.1, r.2 ||| snanFlag FP16 [bits hdr 15 0])

/-- cvt (R124). -/
def execCvt (h : Hdr) (cv : BitVec 4) (rm : RMode) (d a : Operand) (s : State) : Host.Outcome State Fault Refusal :=
  run (.cvt h cv rm d a) s (queueBody false (.cvt h cv rm d a) fun x _ _ _ => cvtElem cv rm x)

/-- pack (R125). -/
def execPack (h : Hdr) (f : PackFmt) (sat : Bool) (rm : RMode) (d a b : Operand) (s : State) :
    Host.Outcome State Fault Refusal :=
  run (.pack h f sat rm d a b) s (queueBody false (.pack h f sat rm d a b) fun x y _ old =>
    let e0 := packElem f sat rm x
    let e1 := packElem f sat rm y
    (packInto f.width e0.1 e1.1 old, e0.2 ||| e1.2))

/-- unpack (R126). -/
def execUnpack (h : Hdr) (f : PackFmt) (idx : Fin 8) (d a : Operand) (s : State) : Host.Outcome State Fault Refusal :=
  run (.unpack h f idx d a) s (queueBody false (.unpack h f idx d a) fun x _ _ _ => unpackElem f idx.val x)

/-- qpack (R127). -/
def execQpack (h : Hdr) (n4 : Bool) (rm : RMode) (d a b c : Operand) (s : State) : Host.Outcome State Fault Refusal :=
  run (.qpack h n4 rm d a b c) s (queueBody false (.qpack h n4 rm d a b c) fun x y z old =>
    let m := if n4 then 4 else 8
    let e0 := qpackCode m rm x z
    let e1 := qpackCode m rm y z
    (packInto m e0.1 e1.1 old, e0.2 ||| e1.2))

/-- qunpack (R128). -/
def execQunpack (h : Hdr) (n4 : Bool) (idx : Fin 8) (d a c : Operand) (s : State) : Host.Outcome State Fault Refusal :=
  run (.qunpack h n4 idx d a c) s (queueBody false (.qunpack h n4 idx d a c) fun x _ z _ =>
    qunpackElem (if n4 then 4 else 8) idx.val x z)

/-! ### Special functions (R129) -/

/-- A special function through its queue. -/
def special1 (i : Instr) (f : SfFun) (ty : FTy) (rm : RMode) (s : State) : Host.Outcome State Fault Refusal :=
  run i s (queueBody true i fun x _ _ _ => packed ty (fun e _ _ => sfElem f (tyFmt ty) rm e) x 0 0)

/-- rcp (R129). -/
def execRcp (h : Hdr) (ty : FTy) (d a : Operand) (s : State) : Host.Outcome State Fault Refusal :=
  special1 (.rcp h ty d a) .rcp ty .rne s

/-- rsqrt (R129). -/
def execRsqrt (h : Hdr) (ty : FTy) (d a : Operand) (s : State) : Host.Outcome State Fault Refusal :=
  special1 (.rsqrt h ty d a) .rsqrt ty .rne s

/-- sqrt (R129). -/
def execSqrt (h : Hdr) (ty : FTy) (rm : RMode) (d a : Operand) (s : State) : Host.Outcome State Fault Refusal :=
  special1 (.sqrt h ty rm d a) .sqrt ty rm s

/-- exp2 (R129). -/
def execExp2 (h : Hdr) (ty : FTy) (d a : Operand) (s : State) : Host.Outcome State Fault Refusal :=
  special1 (.exp2 h ty d a) .exp2 ty .rne s

/-- log2 (R129). -/
def execLog2 (h : Hdr) (ty : FTy) (d a : Operand) (s : State) : Host.Outcome State Fault Refusal :=
  special1 (.log2 h ty d a) .log2 ty .rne s

/-- sin (R129). -/
def execSin (h : Hdr) (ty : FTy) (d a : Operand) (s : State) : Host.Outcome State Fault Refusal :=
  special1 (.sin h ty d a) .sin ty .rne s

/-- cos (R129). -/
def execCos (h : Hdr) (ty : FTy) (d a : Operand) (s : State) : Host.Outcome State Fault Refusal :=
  special1 (.cos h ty d a) .cos ty .rne s

/-- tanh (R129). -/
def execTanh (h : Hdr) (ty : FTy) (d a : Operand) (s : State) : Host.Outcome State Fault Refusal :=
  special1 (.tanh h ty d a) .tanh ty .rne s

end Sys2Proof.Machine
end

