-- ==== Sys2Proof/Machine/Cross.lean ====
section
/-! DEFINITION. The cross-lane instructions (R131 to R137). The wait for parked lanes of R131 is among the shared checks. -/

namespace Sys2Proof.Machine

open Sys2Proof

/-- The participating lanes with their values of a source, and the state after a ring's pops. -/
def laneVals (s : State) (x : Issue) (u : Option Use) : List (Nat × DWord) × State :=
  let y := { x with scalar := false }
  let (vs, s) := gather s y u
  (y.act.zip vs, s)

/-- Write a value to D for each participating lane. -/
def putLanes (s : State) (x : Issue) (u : Option Use) (vs : List DWord) : State := scatter s { x with scalar := false } u vs

/-- Write one value: to every participating lane of a vector or predicate D, once to a scalar, one element to a ring. -/
def putAll (s : State) (x : Issue) (u : Option Use) (v : DWord) : State :=
  match u.map Use.o with
  | some (.s _) | some (.ch ..) => scatter s { x with scalar := true } u [v]
  | _ => putLanes s x u ((lanesOf x.exec).map fun _ => v)

/-- The segment size of shfl in a warp of `w` lanes (R132). -/
def segSize (seg : Seg) (w : Nat) : Nat :=
  match seg with
  | .w => w
  | .s4 => min 4 w
  | .s8 => min 8 w
  | .s16 => min 16 w
  | .s32 => min 32 w

/-- The source lane of a lane, where it lies in the segment (R132). -/
def shflSrc (mode : ShflMode) (g l b : Nat) : Option Nat :=
  let base := l - l % g
  match mode with
  | .idx => some (base + b % g)
  | .up => if b ≤ l - base then some (l - b) else none
  | .down => if l + b < base + g then some (l + b) else none
  | .xor => let j := (l - base) ^^^ (b % g); if j < g then some (base + j) else none

/-- shfl (R132). -/
def execShfl (h : Hdr) (seg : Seg) (mode : ShflMode) (d a b : Operand) (s : State) : Host.Outcome State Fault Refusal :=
  run (.shfl h seg mode d a b) s fun x s =>
    let sh := shape (.shfl h seg mode d a b)
    let w := ((s.warp? x.w).map Warp.width).getD 0
    let (as, s) := laneVals s x sh.a
    let (bs, s) := laneVals s x sh.b
    let vs := (as.zip bs).map fun e =>
      match (shflSrc mode (segSize seg w) e.1.1 (bits e.2.2 31 0)).bind fun j => as.find? fun q => q.1 == j with
      | some q => q.2
      | none => e.1.2
    .done (putLanes s x sh.d vs)

/-- The result of a vote over the participating lanes' bits (R133). -/
def voteResult (vm : VoteMode) (ps : List (Nat × Bool)) : DWord :=
  match vm with
  | .any => if ps.any fun p => p.2 then 1 else 0
  | .all => if ps.all fun p => p.2 then 1 else 0
  | .ballot => maskOf ((ps.filter fun p => p.2).map fun p => p.1)
  | .eq => if (ps.all fun p => p.2) || (ps.all fun p => !p.2) then 1 else 0

/-- vote (R133). -/
def execVote (h : Hdr) (vm : VoteMode) (d a : Operand) (s : State) : Host.Outcome State Fault Refusal :=
  run (.vote h vm d a) s fun x s =>
    let sh := shape (.vote h vm d a)
    let (as, s) := laneVals s x sh.a
    .done (putAll s x sh.d (voteResult vm (as.map fun e => (e.1, e.2 != 0))))

/-- bcast (R134). -/
def execBcast (h : Hdr) (d a : Operand) (b : Option Operand) (s : State) : Host.Outcome State Fault Refusal :=
  run (.bcast h d a b) s fun x s =>
    let sh := shape (.bcast h d a b)
    let (as, s) := laneVals s x sh.a
    let j := (scalarOf s x sh.b).toNat
    let v := match if b.isSome then as.find? fun e => e.1 == j else none with
      | some e => e.2
      | none => (as.head?.map fun e => e.2).getD 0
    .done (putAll s x sh.d v)

/-- The identity of an operation (R136). -/
def reduxId : ReduxOp → DWord
  | .add | .add64 | .or | .xor | .maxN | .fadd => 0
  | .and | .minN => 0xFFFFFFFF
  | .minS => 0x7FFFFFFF
  | .maxS => 0x80000000
  | .fmin => 0x7F800000
  | .fmax => 0xFF800000

/-- The least (or greatest) pattern that is not NaN; QNaN when there is none (R135). -/
def fminList (mx : Bool) (xs : List Nat) : Nat :=
  match xs.filter fun x => !FP32.isNan x with
  | [] => FP32.qnan
  | y :: ys => ys.foldl (fun m z => if mx then (if FP32.key m < FP32.key z then z else m)
                                   else (if FP32.key z < FP32.key m then z else m)) y

/-- An operation over a nonempty list of values (R135). -/
def reduxOf (o : ReduxOp) (rm : RMode) (vs : List DWord) : DWord × Word :=
  let ws := vs.map loWord
  let fold (f : Word → Word → Word) : DWord × Word :=
    match ws with
    | [] => (reduxId o, 0)
    | y :: ys => ((ys.foldl f y).zeroExtend 64, 0)
  let ns := ws.map BitVec.toNat
  match o with
  | .add => fold fun a b => a + b
  | .minS => fold fun a b => if b.toInt < a.toInt then b else a
  | .minN => fold fun a b => if b.toNat < a.toNat then b else a
  | .maxS => fold fun a b => if a.toInt < b.toInt then b else a
  | .maxN => fold fun a b => if a.toNat < b.toNat then b else a
  | .and => fold fun a b => a &&& b
  | .or => fold fun a b => a ||| b
  | .xor => fold fun a b => a ^^^ b
  | .fadd =>
    let r := roundSum FP32 rm (ns.map fun n => (FP32.value n, false))
    (BitVec.ofNat 64 r.1, r.2 ||| snanFlag FP32 ns)
  | .fmin => (BitVec.ofNat 64 (fminList false ns), snanFlag FP32 ns)
  | .fmax => (BitVec.ofNat 64 (fminList true ns), snanFlag FP32 ns)
  | .add64 => (vs.foldl (· + ·) 0, 0)

/-- redux (R135). -/
def execRedux (h : Hdr) (rm : RMode) (o : ReduxOp) (d a : Operand) (s : State) : Host.Outcome State Fault Refusal :=
  run (.redux h rm o d a) s fun x s =>
    let sh := shape (.redux h rm o d a)
    let (as, s) := laneVals s x sh.a
    let r := reduxOf o rm (as.map fun e => e.2)
    .done (putAll (orFstat s x.w r.2) x sh.d r.1)

/-- scan (R136). -/
def execScan (h : Hdr) (excl : Bool) (o : ReduxOp) (d a : Operand) (s : State) : Host.Outcome State Fault Refusal :=
  run (.scan h excl o d a) s fun x s =>
    let sh := shape (.scan h excl o d a)
    let (as, s) := laneVals s x sh.a
    let rs : List (DWord × Word) := as.map fun e =>
      match as.filter fun q => if excl then q.1 < e.1 else q.1 ≤ e.1 with
      | [] => (reduxId o, (0 : Word))
      | qs => reduxOf o .rne (qs.map Prod.snd)
    .done (putLanes (orFstat s x.w (orAll (rs.map fun r => r.2))) x sh.d (rs.map fun r => r.1))

end Sys2Proof.Machine
end

