-- ==== Sys2Proof/Machine/Matrix.lean ====
section
/-! DEFINITION. Matrix and tile instructions (R191 to R208, R220, R223): the arithmetic of R106 to R109, tile loads, stores,
reads and writes, the completion of queued operations, and the replies of loads. -/

namespace Sys2Proof.Machine

open Sys2Proof

/-! ### Elements of A and B (R193, R195, R196) -/

/-- Width of an element. -/
def mfBits : MFmt → Nat
  | .bf16 | .f16 => 16
  | .f8e4 | .f8e5 | .s8 | .n8 => 8
  | .s4 | .n4 => 4

/-- The floating-point format of an element, where it has one. -/
def mfFmt : MFmt → Option Fmt
  | .bf16 => some BF16
  | .f16 => some FP16
  | .f8e4 => some F8E4
  | .f8e5 => some F8E5
  | _ => none

/-- The value of a code; an asymmetric code is read as unsigned. -/
def mfValue (f : MFmt) (x : Nat) : Ex :=
  match mfFmt f with
  | some F => F.value x
  | none => if f == .n8 || f == .n4 then .ofInt x else .ofInt (BitVec.ofNat (mfBits f) x).toInt

/-- A signalling NaN, which sets NV where it is read (R104). -/
def mfSnan (f : MFmt) (x : Nat) : Bool := match mfFmt f with | some F => F.isSnan x | none => false

/-- Where a matrix operation finds its operands: format of A, of B, slab depth, slabs, group size (0 unless mmaq), lanes,
whether a mask stands before B, and the words and bytes. -/
structure MatIn where
  fa : MFmt
  fb : MFmt
  s : Nat
  ns : Nat
  g : Nat
  w : Nat
  masked : Bool
  a : Store Word
  b : List Byte

/-- The code of A[i][k]. -/
def MatIn.codeA (m : MatIn) (i k : Nat) : Nat :=
  let q := i / m.w
  let t := k / m.s
  let bit := (k % m.s) * mfBits m.fa
  let reg := 16 * (q * m.ns + t) + bit / 32
  (sGet 0 m.a (128 * (i % m.w) + reg)).toNat / 2 ^ (bit % 32) % 2 ^ mfBits m.fa

/-- The header of group `h` of row `i` of A. -/
def MatIn.headA (m : MatIn) (i h : Nat) : Nat :=
  let r := rowsPerLane m.w
  (sGet 0 m.a (128 * (i % m.w) + 16 * m.ns * r + h * r + i / m.w)).toNat

/-- A code of `n` bits at a bit offset of B. -/
def MatIn.bitsB (m : MatIn) (off n : Nat) : Nat :=
  ofBytes [m.b[off / 8]?.getD 0, m.b[off / 8 + 1]?.getD 0] / 2 ^ (off % 8) % 2 ^ n

/-- The code of B[k][j] of mma and mmas; a slab whose mask bit is 0 holds +0 (R220). -/
def MatIn.codeB (m : MatIn) (k j : Nat) : Nat :=
  let t := k / m.s
  let base := if m.masked then 128 else 0
  if m.masked && field ((m.b[0]?.getD 0).toNat) t t == 0 then 0
  else m.bitsB (8 * (base + 4096 * t + (k % m.s) * (8 * mfBits m.fb)) + j * mfBits m.fb) (mfBits m.fb)

/-- Bits of one group of a column of mmaq's B, header included. -/
def MatIn.groupBits (m : MatIn) : Nat := m.g * mfBits m.fb + 32

/-- The offset in bits of a group of a column. -/
def MatIn.groupOff (m : MatIn) (h j : Nat) : Nat := (j * (m.ns * m.s / m.g) + h) * m.groupBits

def MatIn.codeQ (m : MatIn) (k j : Nat) : Nat := m.bitsB (m.groupOff (k / m.g) j + (k % m.g) * mfBits m.fb) (mfBits m.fb)

def MatIn.headB (m : MatIn) (h j : Nat) : Nat :=
  let o := (m.groupOff h j + m.g * mfBits m.fb) / 8
  ofBytes ((m.b.drop o).take 4)

/-! ### Sums (R106 to R109) -/

/-- The rounded sum of one slab, with its flags: exact products, one rounding. Where a NaN operand has already made the
element NaN (`nan`), infinities of both signs set no flag (R104, R108). -/
def MatIn.slabSum (m : MatIn) (i j t : Nat) (nan : Bool) : Nat × Word :=
  let ks := (List.range m.s).map fun k => t * m.s + k
  let bad := ks.any fun k => mfSnan m.fa (m.codeA i k) || mfSnan m.fb (m.codeB k j)
  let ps := ks.map fun k => Ex.mul (mfValue m.fa (m.codeA i k)) (mfValue m.fb (m.codeB k j))
  let sum := Ex.sum .rne (ps.map fun p => p.1)
  let r := roundF FP32 .rne false sum.1
  (r.1, r.2 ||| flagIf (bad || (sum.2 && !nan) || ps.any fun p => p.2) fNV)

/-- The scale of a header and its zero point (R99). -/
def headScale (x : Nat) : Ex := FP16.value (field x 15 0)
def headZero (x : Nat) : Int := field x 23 16

/-- The rounded sum of one group of mmaq (R109); a NaN scale is a NaN operand of the group. -/
def MatIn.groupSum (m : MatIn) (i j h : Nat) (nan : Bool) : Nat × Word :=
  let ks := (List.range m.g).map fun k => h * m.g + k
  let hb := m.headB h j
  let asym := m.fa == .n8 || m.fa == .n4
  let ha := m.headA i h
  let va (k : Nat) : Ex := if asym then .ofInt ((m.codeA i k : Int) - headZero ha) else mfValue m.fa (m.codeA i k)
  let terms := ks.map fun k => Ex.mul (va k) (.ofInt ((m.codeQ k j : Int) - headZero hb))
  let sum := Ex.sum .rne (terms.map fun t => t.1)
  let sc := if asym then Ex.mul (headScale ha) (headScale hb) else (headScale hb, false)
  let v := Ex.mul sc.1 sum.1
  let bad := (sum.2 && !nan && sc.1 != .nan) || sc.2 || v.2 || terms.any (fun t => t.2) || FP16.isSnan (field hb 15 0)
    || (asym && FP16.isSnan (field ha 15 0)) || ks.any fun k => mfSnan m.fa (m.codeA i k)
  let r := roundF FP32 .rne false v.1
  (r.1, r.2 ||| flagIf bad fNV)

/-- Add a rounded sum to the accumulator: one rounding, and a subnormal result becomes a zero of its sign (R106, R108). -/
def accAdd (d slab : Nat) : Nat × Word :=
  let r := roundSum FP32 .rne [(FP32.value d, false), (FP32.value slab, false)]
  let nv := flagIf (FP32.isSnan d) fNV
  if FP32.magOf r.1 != 0 && FP32.magOf r.1 < 2 ^ 23 then (FP32.pat (FP32.signOf r.1) 0, nv ||| fAUF)
  else (r.1, r.2 ||| nv)

/-- One element: slabs or groups in ascending order of K. The flags of a slab's own rounding stand where the addition of
the slab is flushed (log 64). -/
def MatIn.elem (m : MatIn) (i j d0 : Nat) : Nat × Word :=
  let parts := if m.g == 0 then m.ns else m.ns * m.s / m.g
  (List.range parts).foldl (fun (p : Nat × Word) t =>
    let x := if m.g == 0 then m.slabSum i j t (FP32.isNan p.1) else m.groupSum i j t (FP32.isNan p.1)
    let r := accAdd p.1 x.1
    (r.1, p.2 ||| x.2 ||| r.2)) (d0, 0)

/-- The operands of a queued operation. -/
def matIn (q : MatOp) (w : Nat) : Option MatIn :=
  match matArgs q.ins with
  | none => none
  | some (_, e, mq) =>
    some { fa := e.fa, fb := e.fb, s := (matSlab mq e.fa e.fb).getD 32, ns := slabs e.ns,
           g := if mq then groupSize e.gs else 0, w := w,
           masked := (match q.ins with | .mmas .. => true | _ => false), a := q.a, b := q.b }

/-- Warp width of a group's task type. -/
def Group.width (g : Group) : Nat := 4 * (g.ty.width + 1)

/-- Apply a matrix operation to its tile: 64 by 64 elements, and the flags of all. With ZA an element that was marked poisoned
loses its mark, as one that is overwritten (log 82). -/
def matApply (g : Group) (m : MatIn) (e : MatExt) : Group × Word :=
  (List.range 4096).foldl (fun (p : Group × Word) n =>
    let d0 := if e.za then 0 else (g.tileElem e.dt.val n).toNat
    let r := m.elem (n / 64) (n % 64) d0
    (p.1.setTileElem e.dt.val n (BitVec.ofNat 32 r.1) false, p.2 ||| r.2)) (g, 0)

/-! ### Completion of queued tile operations (R202 to R204) -/

/-- Apply the head of a CU's queue. -/
def applyTileOp (s : State) (q : MatOp) : State :=
  match s.group? q.gid with
  | none => s
  | some g =>
    match q.ins with
    | .accz _ t =>
      s.setGroup q.gid ((List.range 4096).foldl (fun g n => g.setTileElem t.val n 0 false) g)
    | .accwr _ t _ _ => s.setGroup q.gid (q.a.foldl (fun g e => g.setTileElem t.tile.val e.1 e.2 false) g)
    | _ =>
      match matIn q g.width, matArgs q.ins with
      | some m, some (_, e, _) =>
        let r := matApply g m e
        orFstat (s.setGroup q.gid { r.1 with held := r.1.held.filter fun h => h.1 != q.seq }) q.wid r.2
      | _, _ => s

/-- MATRIX_OP_COMPLETE: the oldest tile operation of a CU completes, once no accld of its tile is under way. -/
def execMatrixOpComplete (c : CuId) (s : State) : Host.Outcome State Fault Refusal :=
  match (s.cu c).matq with
  | [] => .next s
  | q :: rest =>
    if tileLoading s q.gid ((tileOf q.ins).getD 0) then .next s
    else .next ((applyTileOp s q).modCu c fun u => { u with matq := rest })

/-- DEFERRED_MATRIX_ISSUE: a set that an exit completed issues once its ring and the queue allow, or fails (R199). -/
def execDeferredMatrixIssue (w : WarpId) (cv : Fin 8) (s : State) : Host.Outcome State Fault Refusal :=
  let c := cuOf (gidOf w)
  if !(s.cu c).defMat.contains ⟨w, cv⟩ then .next s
  else
    match s.warp? w with
    | none => .next s
    | some x =>
      let r := x.cvReg cv.val
      let s' := s.modCu c fun u => { u with defMat := u.defMat.filter fun e => e != ⟨w, cv⟩ }
      match r.ins.map fun i => matGo s w i 0 with
      | some .go => .next (matIssue s' w cv.val)
      | some .wait => .next s
      | some (.bad cause addr) =>
        let s := s'.modWarp w fun x => x.setCv cv.val { r with signed := 0, ins := none, cap := [] }
        .next (if x.exited then violate s 1 cause x.tag addr.toNat (srcOf c) else addAsync s w ⟨cause, addr, 0⟩)
      | none => .next s'

/-! ### mma, mmaq, mmas (R197 to R201) -/

/-- mma. -/
def execMma (p : Pr) (a b : Operand) (x : MatExt) (s : State) : Host.Outcome State Fault Refusal :=
  run (.mma p a b x) s (signBody (.mma p a b x))

/-- mmaq. -/
def execMmaq (p : Pr) (a b : Operand) (x : MatExt) (s : State) : Host.Outcome State Fault Refusal :=
  run (.mmaq p a b x) s (signBody (.mmaq p a b x))

/-- mmas. -/
def execMmas (p : Pr) (a b : Operand) (x : MatExt) (s : State) : Host.Outcome State Fault Refusal :=
  run (.mmas p a b x) s (signBody (.mmas p a b x))

/-! ### accz, accrd, accwr (R205, R206) -/

/-- Queue a tile operation behind those on its tile, or carry it out where none is pending. -/
def tileOp (s : State) (x : Issue) (i : Instr) (t : Nat) (a : Store Word) : State :=
  let (k, s) := s.fresh
  let q : MatOp := ⟨x.w, x.gid, i, a, [], k⟩
  if tilePending s x.gid t then s.modCu (cuOf x.gid) fun u => { u with matq := u.matq ++ [q] } else applyTileOp s q

/-- accz. -/
def execAccz (p : Pr) (t : Fin 8) (s : State) : Host.Outcome State Fault Refusal :=
  run (.accz p t) s fun x s => .done (tileOp s x (.accz p t) t.val [])

/-- Element e of a tile for lane `l` (R206). -/
def tileIndex (t : TileIdx) (x : Word) (l : Nat) : Nat :=
  let e := (x.toNat + (if t.lane then l else 0)) % 4096
  if t.col then 64 * (e % 64) + e / 64 else e

/-- The lanes for which accrd reads: one for a scalar destination (R206). -/
def readLanes (x : Issue) (d : Operand) : List Nat :=
  match d with
  | .s _ => (lanesOf x.exec).take 1
  | _ => lanesOf x.exec

/-- accrd. -/
def execAccrd (h : Hdr) (t : TileIdx) (d a : Operand) (s : State) : Host.Outcome State Fault Refusal :=
  run (.accrd h t d a) s fun x s =>
    match s.warp? x.w, s.group? x.gid with
    | some wp, some g =>
      if tilePending s x.gid t.tile.val then .hold .other s
      else
        let es := (readLanes x d).map fun l => (l, tileIndex t (loWord (srcLane s x wp a 1 l)) l)
        let bad := es.filter fun e => g.tilePoisoned t.tile.val e.2
        let fs : List LFault := bad.map fun e => ⟨e.1, 0x30, x.cur.pc, none⟩
        if d.isChan && !fs.isEmpty then .ok s (faultAll x.exec fs) [] 0
        else
          let good := es.filter fun e => !g.tilePoisoned t.tile.val e.2
          let s := good.foldl (fun s e =>
            let v := g.tileElem t.tile.val e.2
            match d with
            | .ch c _ => pushOne s x.gid c.val v
            | o => s.modWarp x.w fun w => putLane w o 1 e.1 (v.zeroExtend 64)) s
          .ok s fs [] 0
    | _, _ => .done s

/-- accwr. With scalar sources alone it acts once, as the lowest executing lane (log 82). -/
def execAccwr (h : Hdr) (t : TileIdx) (a b : Operand) (s : State) : Host.Outcome State Fault Refusal :=
  run (.accwr h t a b) s fun x s =>
    let (ds, s) := gather s x (some ⟨a, 1, true⟩)
    match s.warp? x.w with
    | some wp =>
      let es := (x.act.zip ds).map fun e => (tileIndex t (loWord (srcLane s x wp b 1 e.1)) e.1, loWord e.2)
      let m : Store Word := es.foldl (fun m e => sInsert m e.1 e.2) []
      .done (tileOp s x (.accwr h t a b) t.tile.val m)
    | none => .done s

/-! ### accld and accst (R207, R208) -/

/-- The addresses of a tile's elements: element, address. -/
def tileAddrs (s : State) (x : Issue) (a b : Operand) (m : MemExt) : List (Nat × Addr) :=
  match s.warp? x.w with
  | some wp =>
    let base := srcLane s x wp a 2 0 + m.off.signExtend 64
    let stride := (loWord (srcLane s x wp b 1 0)).zeroExtend 64
    (List.range 4096).map fun n =>
      (n, base + BitVec.ofNat 64 (n / 64) * stride + BitVec.ofNat 64 (m.wid.bytes * (n % 64)))
  | none => []

/-- Scratchpad offsets of a tile's elements, modulo 2^32 (log 82). -/
def tileOffs (s : State) (x : Issue) (a b : Operand) (m : MemExt) : List (Nat × Nat) :=
  match s.warp? x.w with
  | some wp =>
    let base := loWord (srcLane s x wp a 1 0) + m.off
    let stride := loWord (srcLane s x wp b 1 0)
    (List.range 4096).map fun n =>
      (n, (base + BitVec.ofNat 32 (n / 64) * stride + BitVec.ofNat 32 (m.wid.bytes * (n % 64))).toNat)
  | none => []

/-- The whole instruction faults with the lowest failing address (R208). -/
def tileFault (x : Issue) (fs : List LFault) : List LFault :=
  match fs with
  | [] => []
  | f :: rest =>
    let low := rest.foldl (fun (m : LFault) g => if g.addr.toNat < m.addr.toNat then g else m) f
    (lanesOf x.exec).map fun l => { low with lane := l }

/-- Widen a loaded element to FP32, exactly; `f16` chooses between the two 16-bit formats. A signalling NaN becomes QNaN
without a flag (log 64). -/
def widen (n : Nat) (f16 : Bool) (bs : List Byte) : Word :=
  if n == 4 then BitVec.ofNat 32 (ofBytes bs)
  else BitVec.ofNat 32 (roundF FP32 .rne false ((if f16 then FP16 else BF16).value (ofBytes bs))).1

/-- Round a tile element for its store, with flags. -/
def narrow (n : Nat) (f16 : Bool) (x : Word) : List Byte × Word :=
  if n == 4 then (bytesOf x.toNat 4, 0)
  else
    let r := roundF (if f16 then FP16 else BF16) .rne false (FP32.value x.toNat)
    (bytesOf r.1 2, r.2 ||| snanFlag FP32 [x.toNat])

/-- Put one loaded element into a tile; an error poisons it (R208). -/
def putTile (s : State) (g : GroupId) (t n : Nat) (wid : Wid) (f16 : Bool) (cause : Nat) (bs : List Byte) : State :=
  s.modGroup g fun gr =>
    if cause != 0 then gr.setTileElem t n (gr.tileElem t n) true
    else gr.setTileElem t n (widen wid.bytes f16 bs) false

/-- The request of a tile load or store. -/
def tileReq (s : State) (x : Issue) (kind : ReqKind) (t : Nat) (m : MemExt) (as : List Acc) (sm : Bool) : Req :=
  { Req.blank s x.w kind with
    blk := t, wid' := m.wid, sx := bit m.opx 0, sm := sm, ord := m.ord, scp := m.scp,
    rel := ((s.warp? x.w).map fun w => relTagOf w m.ord m.scp).getD 0,
    stage := (match as with | a :: _ => stageOf s a.pa | [] => .home), accs := as }

/-- accld. -/
def accldBody (sp : Bool) (t : Nat) (a b : Operand) (m : MemExt) (x : Issue) (s : State) : Res :=
  if heldBack s x.w (!sp) || tilePending s x.gid t then .hold .other s
  else if sp then
    let tgt := windowOf s x.gid m.pv m.peer.toNat
    let j := judgePad s tgt m.wid.bytes (tileOffs s x a b m)
    match tgt with
    | none => .ok s (tileFault x j.faults) [] 0
    | some h =>
      if !j.faults.isEmpty then .ok s (tileFault x j.faults) [] 0
      else
        let dead := windowDead s x.gid h
        let s := if dead then deadPeer s x.w m j.good else s
        let s := if m.ord == .acq && padScope m == .cl then dropAt s x.w else s
        let src := s.group? h
        .done (j.good.foldl (fun s g =>
          let bs := match src with | some gr => gr.bytes g.pa m.wid.bytes | none => []
          let bad := match src with | some gr => gr.padBad g.pa m.wid.bytes | none => false
          putTile s x.gid t g.lane m.wid (bit m.opx 0) (if dead then 0x15 else if bad then 0x30 else 0) bs) s)
  else
    let (j, s) := judge s x.w .read m.wid.bytes false (postPlain s false (m.rt == .unc)) (tileAddrs s x a b m)
    if j.wait then .hold .other s
    else if !j.faults.isEmpty then .ok (logRegion s x.w ((tileFault x j.faults).take 1)) (tileFault x j.faults) [] 0
    else if !tableRoom s x.w 1 then .hold .other s
    else
      let as : List Acc := j.good.map fun g => ⟨g.lane, g.va, g.pa, [], [], 0, false⟩
      .done (askBlock (cleanBlocks s x j.good) x (tileReq s x (.tileLd m.rt) t m as (j.good.any fun g => g.sm)))

/-- accld. -/
def execAccld (p : Pr) (sp : Bool) (t : Fin 8) (a b : Operand) (x : MemExt) (s : State) : Host.Outcome State Fault Refusal :=
  run (.accld p sp t a b x) s (accldBody sp t.val a b x)

/-- accst. -/
def accstBody (sp : Bool) (t : Nat) (a b : Operand) (m : MemExt) (x : Issue) (s : State) : Res :=
  if heldBack s x.w (!sp) || tilePending s x.gid t || (m.ord == .rel && anyReq s x.w) then .hold .other s
  else if m.ord == .rel && !releaseReady s x.w (padScope m) then .hold .other (releaseBegin s x.w)
  else
    match s.group? x.gid with
    | none => .done s
    | some g =>
      let low := (lanesOf x.exec).head?.getD 0
      let poison : List LFault := (lanesOf x.exec).map fun l => ⟨l, 0x30, x.cur.pc, none⟩
      let data (n : Nat) : List Byte × Word := narrow m.wid.bytes (bit m.opx 0) (g.tileElem t n)
      let flags := orAll ((List.range 4096).map fun n => (data n).2)
      if sp then
        let tgt := windowOf s x.gid m.pv m.peer.toNat
        let j := judgePad s tgt m.wid.bytes (tileOffs s x a b m)
        match tgt with
        | none => .ok s (tileFault x j.faults) [] 0
        | some h =>
          if !j.faults.isEmpty then .ok s (tileFault x j.faults) [] 0
          else if tileHasPoison g t then .ok s poison [] 0
          else if anyHeld s h m.wid.bytes j.good then .hold .other s
          else
            let s := if m.ord == .rel then releaseAt s x.w (padScope m) else s
            if windowDead s x.gid h then
              let s := deadPeer s x.w m j.good
              .done (storeRefused s x.w 0x15 (j.good.map fun e => (low, padTrapAddr m e.va)))
            else .done (orFstat (j.good.foldl (fun s e => padWrite s h e.pa (data e.lane).1) s) x.w flags)
      else
        let (j, s) := judge s x.w .write m.wid.bytes false (postPlain s true (m.rt == .unc)) (tileAddrs s x a b m)
        if j.wait then .hold .other s
        else if !j.faults.isEmpty then .ok (logRegion s x.w ((tileFault x j.faults).take 1)) (tileFault x j.faults) [] 0
        else
          match j.cows with
          | c :: _ => .ok s [] ((lanesOf x.exec).map fun l => (l, c.2)) 0
          | [] =>
            if tileHasPoison g t then .ok s poison [] 0
            else if !tableRoom s x.w 1 then .hold .other s
            else
              let s := if m.ord == .rel then releaseAt s x.w m.scp else s
              let s := cleanBlocks s x j.good
              let as : List Acc := j.good.map fun e => ⟨low, e.va, e.pa, (data e.lane).1, [], 0, false⟩
              let r := tileReq s x (.tileSt m.rt) t m as (j.good.any fun e => e.sm)
              .done (addReq s { r with vals := [⟨low, 0, [], 0, 0, flags⟩] }).2

/-- accst. -/
def execAccst (p : Pr) (sp : Bool) (t : Fin 8) (a b : Operand) (x : MemExt) (s : State) : Host.Outcome State Fault Refusal :=
  run (.accst p sp t a b x) s (accstBody sp t.val a b x)

/-! ### LOAD_REPLY -/

/-- A reply of a tile load fills the tile (R207, R208). -/
def deliverTile (s : State) (k : Nat) (r : Req) (vals : List RepVal) : State :=
  deliverReply (vals.foldl (fun s v => putTile s (gidOf r.wid) r.blk v.lane r.wid' r.sx v.cause v.bytes) s) k r vals

/-- Words of another package arrive at their proxy, which serves the load from them: as asked for, or as the remote home
granted them (R313, R387). -/
def fillFar (s : State) (k : Nat) (r : Req) (g : ReqType) (ws : List ExtWord) : State :=
  match r.kind, g with
  | _, .unc => s
  | .load rt, g | .tileLd rt, g =>
    let s := grantWords s r g ws
    if rt == .unc then s else serveLoad s k r (if proxServes s r then rt else g)
  | _, _ => s

/-- What a block of another package comes to that a fetch, the read of a record, birfdb or a snapshot has asked for (R284,
R311, R313, R445). -/
def blockArrives (s : State) (k : Nat) (r : Req) (x : ExtReply) : State :=
  let v : ExtVal := match x with
    | .vals (v :: _) => v
    | _ => ⟨[], 0, some .refused, false, none⟩
  let cause := match v.err with | some e => extCause e false | none => 0
  let s := freeReq s k
  let s := if cause == 0x15 then violate s 1 0x15 r.ctx ((r.accs.head?.map Acc.pa).getD 0) (srcOf r.cu) else s
  if r.kind == .fetch then fetchArrives s r (if cause == 0 then .ok (v.bytes.take 32) else .error cause)
  else if 34 ≤ r.place then
    let b : FarBytes := ⟨r.place, (r.accs.head?.map Acc.pa).getD 0, v.bytes.take (if r.place == 34 then 4 else 128), v.tag, cause⟩
    { s with host := { s.host with farBytes := s.host.farBytes ++ [b] } }
  else
    let b : FarRead := ⟨r.blk, v.bytes.take 128, v.tag != 0, cause⟩
    let s := (List.range 32).foldl (fun s i => proxRecall s (32 * r.blk + i) true) s
    if r.wid == noWarp then { s with host := { s.host with farRead := s.host.farRead ++ [b] } }
    else s.modWarp r.wid fun y => { y with farRead := y.farRead ++ [b] }

/-- The request of a pref ends: its block has been filled, has come from another package, or has been refused. -/
def prefArrives (s : State) (k : Nat) (r : Req) (msc : Bool) (x : ExtReply) : State :=
  match r.stage, x with
  | .reply, _ => freeReq s k
  | .ext, .fill g ws =>
    if farAnswers s r then freeReq (servePref (grantWords (depart s r).2 r g ws) k r (msc || g == .unc || g == .si)) k else s
  | .ext, _ => if farAnswers s r || farRefused s r then freeReq (depart s r).2 k else s
  | _, _ => s

/-- LOAD_REPLY: the values of a request that its home has performed, or that another package answers with `x`. -/
def execLoadReply (k : Nat) (x : ExtReply) (s : State) : Host.Outcome State Fault Refusal :=
  match sFind? s.reqs k with
  | none => .next s
  | some r =>
    let give (s : State) (vals : List RepVal) : State :=
      match r.kind with
      | .tileLd _ => deliverTile s k r vals
      | _ => deliverReply s k r vals
    if r.kind == .fetch || r.kind == .read then
      if r.stage == .ext && (farAnswers s r && (match x with | .vals _ => true | _ => false) || (farAnswers s r || farRefused s r) && x == .error) then .next (blockArrives (depart s r).2 k r x) else .next s
    else if !returnsValue r.kind then
      match r.kind with
      | .pref msc => .next (prefArrives s k r msc x)
      | _ => .next s
    else
      match r.stage, x with
      | .reply, _ => .next (give s r.vals)
      | .ext, .vals vs =>
        if farAnswers s r then .next (extCascades (give (farDone (depart s r).2 r) (extVals s r vs)) r.wid x) else .next s
      | .ext, .fill g ws =>
        if farAnswers s r then .next (fillFar (depart s r).2 k (depart s r).1 g ws) else .next s
      | .ext, .error =>
        if !(farAnswers s r || farRefused s r) then .next s
        else
        .next (give (r.accs.foldl (fun s a => violate s 1 0x15 r.ctx a.pa (srcOf r.cu)) s) (extErrs r))
      | _, _ => .next s

end Sys2Proof.Machine
end

