-- ==== Sys2Proof/Machine/Watch.lean ====
section
/-! DEFINITION. Watched regions: watch and unwatch (R186 to R188), the watch area (R384 to R386), counting and quiescence
(R396). -/

namespace Sys2Proof.Machine

open Sys2Proof

/-! ### A write at its home by a unit that holds no copies -/

/-- Recall and invalidate the copies of some words, all CUs included. -/
def recallAll (s : State) (ws : List Nat) : State :=
  ws.foldl (fun s w => invalidateWord (recallWord s w false) w none) s

/-- One commit of bytes by a unit of the package: copies are recalled first (R315, R387). -/
def homeStore (s : State) (pa : Nat) (bs : List Byte) (tag : BitVec 3) (wr : Writer) : State :=
  commit (recallAll s (wordsOf pa bs.length)) (bytesAt pa bs) (some tag) wr

/-! ### The watch area (R384 to R386) -/

/-- A region table entry (R385). -/
def regionEntry (g : Region) : Nat :=
  g.base.toNat + 2 ^ 64 * g.len + 2 ^ 128 * g.entry.toNat + 2 ^ 192 * g.qaddr.toNat + 2 ^ 256 * g.spill.toNat
    + 2 ^ 320 * g.glog + 2 ^ 328 * g.tt + 2 ^ 336 * g.casc + (if g.hev then 2 ^ 344 else 0)
    + (if g.live then 2 ^ 345 else 0) + 2 ^ 408 * g.tag.toNat + 2 ^ 424 * (g.launch % 2 ^ 24)
    + 2 ^ 448 * (g.run.toNat % 2 ^ 32) + 2 ^ 480 * (g.pend.toNat % 2 ^ 32)

/-- Hardware writes the entry of a region. -/
def putRegion (s : State) (r : Nat) (g : Region) : State :=
  rawWriteNat { s with regions := sInsert s.regions r g } (watchBase s + 64 * r) (regionEntry g) 64

/-- Physical frames of the 64 KiB pages of a range of addresses of a context, with the leaf (R386). -/
def framesOf (s : State) (t : Tag) (va : Addr) (len : Nat) : List (Option (BitVec 64 × Nat)) :=
  (List.range ((len + 65535) / 65536)).map fun i =>
    let a := va + BitVec.ofNat 64 (65536 * i)
    match walk s t a with
    | .leaf e _ level => some (e, leafPa s e level a false / 65536 * 65536)
    | _ => none

/-- Write the frame-map entry of a frame. -/
def putFrameMap (s : State) (frame x : Nat) : State := rawWriteNat s (watchBase s + 0x10000 + 4 * frameOf frame) x 4

/-- Write the frame-map entries of a region. -/
def mapRegion (s : State) (r : Nat) (g : Region) : State :=
  ((framesOf s g.tag g.base g.len).zipIdx).foldl (fun s e =>
    match e.1 with
    | some (_, f) => putFrameMap s f (2 ^ 31 + 2 ^ 20 * r + e.2)
    | none => s) s

/-- Frames, by index, whose frame-map entries name a region (R386). -/
def mappedBy (s : State) (r : Nat) : List Nat :=
  let base := watchBase s + 0x10000
  let ks : List Nat := (s.mem.bytes ++ s.mem.msc ++ s.mem.l2).filterMap fun e =>
    if base ≤ e.1 && e.1 < base + 2 ^ 26 then some ((e.1 - base) / 4) else none
  ks.eraseDups.filter fun i =>
    let e := coherentNat s (base + 4 * i) 4
    field e 31 31 == 1 && field e 27 20 == r

/-- Clear the frame-map entries of a region (R386). -/
def unmapRegion (s : State) (r : Nat) : State :=
  (mappedBy s r).foldl (fun s i => rawWriteNat s (watchBase s + 0x10000 + 4 * i) 0 4) s

/-! ### Counting (R396) -/

/-- Write 1 to the quiescence word as a release at scope pkg, and post the event, whose TAG is 0 (R273, R396, R433). -/
def quiesce (s : State) (r : Nat) (g : Region) : State :=
  let s := match physOf s g.tag g.qaddr with
    | some pa => homeStore s pa [1, 0, 0, 0] 3 Writer.plain
    | none => s
  let s := if tracing s g.tag then note s [4, r] else s
  if g.hev then postEvent s (s.ctx g.tag).evtq 0 0xFFFF0001 (BitVec.ofNat 32 r) else s

/-- A region that is unwatched and whose counts are zero is forgotten. -/
def forgetRegion (s : State) (r : Nat) : State :=
  match sFind? s.regions r with
  | some g => if !g.live && g.pend == 0 && g.run == 0 && g.changes.isEmpty then { s with regions := sErase s.regions r } else s
  | none => s

/-- Apply one change of PEND and RUN at the home of the quiescence word. -/
def applyChange (s : State) (r : Nat) (g : Region) : State :=
  match g.changes with
  | [] => s
  | (p, q) :: rest =>
    let h := { g with pend := g.pend + p, run := g.run + q, changes := rest }
    let s := putRegion s r h
    let s := if h.pend == 0 && h.run == 0 && (g.pend != 0 || g.run != 0) then quiesce s r h else s
    forgetRegion s r

/-- PEND_RUN_CHANGE: the oldest change under way arrives. -/
def execPendRunChange (s : State) : Host.Outcome State Fault Refusal :=
  match s.regions.find? fun e => !e.2.changes.isEmpty with
  | some (r, g) => .next (applyChange s r g)
  | none => .next s

/-! ### unwatch (R188) -/

/-- Take a trigger's entry out of every task queue. -/
def dropTask (s : State) (k : Nat) : State :=
  (s.cus.map fun e => e.1).foldl (fun s c =>
    let u := s.cu c
    if (u.queue ++ u.aside).any fun t => t.kind == .trigger k then
      s.setCu c { u with
        queue := u.queue.filter fun t => t.kind != .trigger k
        aside := u.aside.filter fun t => t.kind != .trigger k }
    else s) s

/-- Discard a pending trigger. -/
def dropTrigger (s : State) (g : Region) (k : Nat) (t : Trigger) : State :=
  let s := if t.spilled then clearSpillBit s g t.granule t.unit else s
  let s := if t.queued then dropTask s k else s
  addChange { s with trigs := sErase s.trigs k } t.region (-1) 0

/-- Remove a region: frame map, entry, pending triggers. -/
def unwatchRegion (s : State) (r : Nat) : State :=
  match sFind? s.regions r with
  | none => s
  | some g =>
    if !g.live then s
    else
      let s := unmapRegion s r
      let s := putRegion s r { g with live := false, spills := [] }
      let s := (s.trigs.filter fun e => e.2.region == r).foldl (fun s e => dropTrigger s g e.1 e.2) s
      forgetRegion s r

/-- unwatch. -/
def execUnwatch (p : Pr) (d a : Operand) (s : State) : Host.Outcome State Fault Refusal :=
  run (.unwatch p d a) s fun x s =>
    let n := (loWord (scalarOf s x (some ⟨a, 1, true⟩))).toNat
    let mine := match sFind? s.regions n with
      | some g => g.live && g.tag == tagOf s x.w
      | none => false
    let s := if mine && n ≤ 255 then unwatchRegion s n else s
    .done (scatter s { x with scalar := true } (some ⟨d, 1, true⟩) [if mine && n ≤ 255 then 0 else 0x80000001])

/-! ### watch (R186, R187) -/

/-- The region a descriptor describes. -/
def regionOf (d : BitVec 512) (tag : Tag) (launch : Nat) : Region :=
  { tag := tag, base := d.extractLsb' 0 64, len := bits d 127 64, entry := d.extractLsb' 128 64,
    qaddr := d.extractLsb' 192 64, spill := d.extractLsb' 256 64, glog := bits d 322 320, tt := bits d 332 328,
    casc := bits d 341 336, hev := bit d 344, launch := launch, live := true, pend := 0, run := 0, changes := [],
    spills := [] }

/-- Bytes of the spill area (R186). -/
def Region.spillLen (g : Region) : Nat := max 65536 ((g.len / (8 * g.gran) + 65535) / 65536 * 65536)

/-- Two ranges of addresses meet. -/
def rangesMeet (a : Addr) (n : Nat) (b : Addr) (m : Nat) : Bool := a.toNat < b.toNat + m && b.toNat < a.toNat + n

/-- A page that a region, its spill area or its quiescence word may lie in. -/
def watchable (s : State) (p : Option (BitVec 64 × Nat)) : Bool :=
  match p with
  | some (e, f) => bit e 2 && pteTier e == 0 && inHbm s f && !bit e 6 && !bit e 7
  | none => false

/-- A page of a region that lies in a view range, which has a refusal of its own. -/
def inView (s : State) (p : Option (BitVec 64 × Nat)) : Bool := p.any fun e => spaceOf s e.2 == .view

/-- The refusal codes of R187, in order (log 77); 0 where the region may be installed. -/
def watchRefusal (s : State) (d : BitVec 512) (g : Region) : Nat :=
  let tt := (sFind? s.launches g.launch).bind fun l => l.types[g.tt]?
  let pages := framesOf s g.tag g.base g.len
  let others := framesOf s g.tag g.spill g.spillLen ++ framesOf s g.tag g.qaddr 4
  let frames := pages.filterMap fun p => p.map fun e => e.2
  if !bit s.sup.watchtab 0 || (List.range 256).all (fun r => (sFind? s.regions r).isSome) then 0x80000001
  else if bits d 511 345 != 0 || bits d 343 342 != 0 || bits d 335 333 != 0 || bits d 327 323 != 0 then 0x80000002
  else if g.casc == 0 || 6 < g.glog || g.base.toNat % 65536 != 0 || g.len % 65536 != 0 || g.len == 0 || 2 ^ 36 < g.len
      || g.spill.toNat % 65536 != 0 || g.qaddr.toNat % 4 != 0 || g.entry.toNat % 4 != 0
      || tt.all (fun t => t.entry != g.entry) then 0x80000003
  else if frames.any (fun f => (frameMap s f).isSome) then 0x80000004
  else if !((pages.filter fun p => !inView s p) ++ others).all (watchable s) then 0x80000005
  else if pages.any (inView s) || frames.any (fun f => s.accCopy.any fun e => e.start < f + 65536 && f < e.start + e.len)
      || rangesMeet g.base g.len g.spill g.spillLen || rangesMeet g.base g.len g.qaddr 4 then 0x80000006
  else 0

/-- Install a region: the quiescence word becomes 0, own copies are recalled, and the entry and frame map are written. -/
def installRegion (s : State) (r : Nat) (g : Region) : State :=
  let s := match physOf s g.tag g.qaddr with
    | some pa => homeStore s pa [0, 0, 0, 0] 0 Writer.plain
    | none => s
  let frames := (framesOf s g.tag g.base g.len).filterMap fun p => p.map fun e => e.2
  let owned := (s.mem.dir.filter fun e => e.2.owner.isSome && frames.contains (4 * e.1 / 65536 * 65536)).map fun e => e.1
  let s := owned.foldl (fun s w => recallWord s w false) s
  mapRegion (putRegion s r g) r g

/-- The number of the first free entry. -/
def freeRegion (s : State) : Nat := ((List.range 256).find? fun r => (sFind? s.regions r).isNone).getD 0

/-- Install a described region for a context and launch, or give the code of its refusal. -/
def watchInstall (s : State) (d : BitVec 512) (tag : Tag) (launch : Nat) : Nat × State :=
  let g := regionOf d tag launch
  let c := watchRefusal s d g
  if c != 0 then (c, s)
  else
    let r := freeRegion s
    let s := installRegion s r g
    (r, { s with launches := sAdjust s.launches launch fun l => { l with regions := l.regions ++ [r] } })

/-- A proxy of another package still owns a word of the region, and has to write it back first (R187). -/
def farWatched (s : State) (g : Region) : Bool :=
  let far := (s.mem.dir.filter fun e => farOwns s e.1).map fun e => 4 * e.1 / 65536 * 65536
  !far.isEmpty && (framesOf s g.tag g.base (min g.len (2 ^ 36))).any fun p => p.any fun e => far.contains e.2

/-- watch. -/
def execWatch (p : Pr) (d a : Operand) (s : State) : Host.Outcome State Fault Refusal :=
  run (.watch p d a) s fun x s =>
    let va := scalarOf s x (some ⟨a, 2, true⟩)
    let low := (lanesOf x.exec).head?.getD 0
    let bad (c : Nat) (s : State) : Res := .ok s [⟨low, c, va, none⟩] [] 0
    if heldBack s x.w true then .hold .other s
    else if va.toNat % 64 != 0 then bad 0x04 s
    else
      match readVirt s (.warp x.w) (tagOf s x.w) (isSup x.w) va 64 with
      | (.error (0, _), s) => .hold .other s
      | (.error (c, _), s) => bad c s
      | (.ok bs, s) =>
        let desc := BitVec.ofNat 512 (ofBytes bs)
        if farWatched s (regionOf desc (tagOf s x.w) 0) then .hold .other s
        else
        let (r, s) := watchInstall s desc (tagOf s x.w) ((s.group? x.gid).map Group.launch |>.getD 0)
        .done (scatter s { x with scalar := true } (some ⟨d, 1, true⟩) [BitVec.ofNat 64 r])

/-! ### WATCHTAB (R384) -/

/-- A write of WATCHTAB removes every valid entry first. -/
def writeWatchtab (s : State) (v : DWord) : State :=
  let s := (List.range 256).foldl unwatchRegion s
  { s with sup := { s.sup with watchtab := v } }

end Sys2Proof.Machine
end

