-- ==== Sys2Proof/Machine/Engine.lean ====
section
/-! DEFINITION. The copy engines and gather units: xcopy, mcast, csrg, estat, ecancel, arrival words, deliveries and pages
staged for them (R209 to R224). An operation moves element by element, in linear order. -/

namespace Sys2Proof.Machine

open Sys2Proof

/-! ### Arrival words (R210, R211) -/

/-- The number that stands for all of a group's operations among the sets of estat (R221). -/
def allArr : Nat := 2 ^ 32

/-- Note that an operation on an arrival word ended with ERR, for estat (R221). -/
def noteErr (s : State) (g : GroupId) (arr : Nat) : State :=
  s.modGroup g fun x => { x with errs := sSet false (sSet false x.errs arr true) allArr true }

/-- A credit of `c` bytes overruns the REMAIN of an arrival word (R211). -/
def overruns (s : State) (g : GroupId) (arr c : Nat) : Bool :=
  match s.group? g with
  | none => false
  | some gr => field (gr.word arr).toNat 29 0 < c

/-- A queued matrix operation holds an arrival word, so that a credit waits (R223). -/
def arrHeld (s : State) (g : GroupId) (arr : Nat) : Bool := ((s.group? g).map fun x => x.isHeld arr 4).getD false

/-- Credit `c` bytes to an arrival word, with ERR where the operation ends in error; the word goes full when REMAIN falls
to zero (R211). -/
def credit (s : State) (g : GroupId) (arr c : Nat) (err : Bool) : State :=
  match s.group? g with
  | none => s
  | some gr =>
    let x := (gr.word arr).toNat
    let rem := field x 29 0
    let past := rem < c
    let rem' := rem - c
    let fills := rem != 0 && rem' == 0
    let phase := if fills then 1 - field x 31 31 else field x 31 31
    let e := if past || err then 1 else field x 30 30
    let s := padWrite s g arr (bytesOf (2 ^ 31 * phase + 2 ^ 30 * e + rem') 4)
    if fills then setFull s g arr true else s

/-! ### Issue: the checks that every engine instruction shares -/

/-- Groups whose windows hold the arrival word: those of a peer mask, or the issuing group. -/
def peersOf (s : State) (g : GroupId) (mask : DWord) : List GroupId :=
  match (s.group? g).bind fun x => x.cluster.bind fun k => sFind? s.clusters k with
  | some c => c.groups.filter fun h => bit mask (peerIndex c h)
  | none => if bit mask 0 then [g] else []

/-- Peers of a group's cluster, n². -/
def peerCount (s : State) (g : GroupId) : Nat :=
  match (s.group? g).bind fun x => x.cluster.bind fun k => sFind? s.clusters k with
  | some c => c.side * c.side
  | none => 1

/-- The cause of an arrival-word offset (R210). -/
def arrFault (s : State) (gs : List GroupId) (arr : Nat) : Option Nat :=
  if arr % 4 != 0 then some 0x04
  else if gs.any fun h => match s.group? h with | some x => x.winSize < arr + 4 | none => true then some 0x11 else none

/-- Every executing lane faults. -/
def allFault (x : Issue) (c : Nat) (a : Addr) : List LFault := (lanesOf x.exec).map fun l => ⟨l, c, a, none⟩

/-- The CUs of a quad share a tile-walk engine and a gather unit. -/
def quadOf (c : CuId) : Nat := if isCurator c then c else 24 * (cuY c / 2) + cuX c / 2

/-- The unit that runs an operation: the gather unit for csrg. -/
def usesGather (k : EngKind) : Bool := k == .csrg

/-- The group or the unit has no room for another operation. -/
def engFull (s : State) (g : GroupId) (k : EngKind) : Bool :=
  32 ≤ (s.engs.filter fun e => e.2.gid == g).length
    || 16 ≤ (s.engs.filter fun e => quadOf e.2.cu == quadOf (cuOf g) && usesGather e.2.kind == usesGather k).length

/-- An operation of a warp with nothing in it. It waits for the warp's earlier memory instructions (R209). -/
def EngOp.blank (s : State) (x : Issue) (k : EngKind) (arr : Nat) : EngOp :=
  { kind := k, wid := x.w, gid := x.gid, cu := cuOf x.gid, tag := tagOf s x.w, arr := arr, arrs := [x.gid], elems := [],
    readFirst := false, desc := [], k0 := 0, fmt := .bf16, ns := 1, dst := 0, row := 0, mask := 0, block := [], total := 0,
    bads := [], overran := false, stopping := false, ended := false,
    after := (s.reqs.filter fun e => e.2.wid == x.w).map fun e => e.1, depth := writeDepth s x.gid }

/-- Queue an operation. -/
def addEng (s : State) (e : EngOp) : State :=
  let (k, s) := s.fresh
  { s with engs := sInsert s.engs k e }

/-- The bytes of a descriptor in global memory, read as .unc loads (R212). -/
def readDesc (s : State) (x : Issue) (va : Addr) (n : Nat) : Except (Nat × Addr) (List Byte) × State :=
  readVirt s (.warp x.w) (tagOf s x.w) (isSup x.w) va n

/-! ### xcopy (R212 to R215) -/

/-- A copy descriptor as a number. -/
abbrev Desc := BitVec 2048

def Desc.f (d : Desc) (hi lo : Nat) : Nat := bits d hi lo

/-- Extents and strides of dimension `i`: extent, source stride, destination stride. -/
def Desc.dim (d : Desc) (i : Nat) : Nat × DWord × DWord :=
  (bits d (256 + 192 * i + 23) (256 + 192 * i), d.extractLsb' (256 + 192 * i + 64) 64, d.extractLsb' (256 + 192 * i + 128) 64)

def Desc.ndim (d : Desc) : Nat := bits d 14 11
def Desc.esz (d : Desc) : Nat := 2 ^ bits d 10 8
def Desc.dstk (d : Desc) : Nat := bits d 7 4
def Desc.srck (d : Desc) : Nat := bits d 3 0
def Desc.ring (d : Desc) : Bool := bit d 16
def Desc.rdepth (d : Desc) : Nat := bits d 59 48
def Desc.rstart (d : Desc) : Nat := bits d 203 192
def Desc.srcBase (d : Desc) : DWord := d.extractLsb' 64 64
def Desc.dstBase (d : Desc) : DWord := d.extractLsb' 128 64
def Desc.dsel (d : Desc) : DWord := d.extractLsb' 192 64

/-- Offsets of every element from the bases, in linear order: the innermost dimension runs fastest (R214). -/
def walkDims : List (Nat × DWord × DWord) → List (DWord × DWord)
  | [] => [(0, 0)]
  | (n, ss, ds) :: outer =>
    (walkDims outer).flatMap fun o =>
      (List.range n).map fun i => (o.1 + BitVec.ofNat 64 i * ss, o.2 + BitVec.ofNat 64 i * ds)

def Desc.dims (d : Desc) : List (Nat × DWord × DWord) := (List.range d.ndim).map d.dim

/-- Elements in all. -/
def Desc.count (d : Desc) : Nat := (d.dims.map fun e => e.1).foldl (· * ·) 1

/-- Source and destination address of every element. -/
def Desc.walk (d : Desc) : List (DWord × DWord) :=
  (walkDims d.dims).map fun o => (d.srcBase + o.1, d.dstBase + o.2)

/-- The descriptor is within R213 and R214. `n` is the cluster's peer count. -/
def Desc.ok (d : Desc) (n : Nat) : Bool :=
  let far (k : Nat) : Bool := k == 3 || k == 4
  bits d 2047 1984 == 0 && bits d 63 60 == 0 && bits d 23 17 == 0 && !bit d 15
    && 1 ≤ d.ndim && d.ndim ≤ 9 && bits d 10 8 ≤ 4 && d.dstk ≤ 4 && d.srck ≤ 4
    && ((List.range 9).all fun i =>
      if i < d.ndim then 1 ≤ (d.dim i).1 && bits d (256 + 192 * i + 63) (256 + 192 * i + 24) == 0
      else bits d (256 + 192 * i + 191) (256 + 192 * i) == 0)
    && (if d.dstk == 2 then d.dsel != 0 && d.dsel.toNat < 2 ^ n
        else bits d 255 204 == 0 && (d.ring || d.rstart == 0))
    && (d.srck != 2 || bits d 31 24 < n)
    && !(far d.srck && far d.dstk)
    && (!d.ring || (d.dstk == 1 && (d.esz == 4 || d.esz == 16) && 1 ≤ d.rdepth && d.rstart < d.rdepth
        && d.dstBase.toNat % d.esz == 0 && (d.esz != 16 || (d.rdepth % 4 == 0 && d.rstart % 4 == 0))))
    && d.esz * d.count ≤ 1073741823
    && d.walk.all fun e => e.1.toNat % d.esz == 0 && (d.ring || e.2.toNat % d.esz == 0)

/-- Two sets of element addresses meet, judged by their bounds. -/
def boundsMeet (as bs : List Nat) (n : Nat) : Bool :=
  match as, bs with
  | a :: as, b :: bs =>
    let hi (x : Nat) (xs : List Nat) : Nat := xs.foldl max x
    let lo (x : Nat) (xs : List Nat) : Nat := xs.foldl min x
    lo a as < hi b bs + n && lo b bs < hi a as + n
  | _, _ => false

/-- A descriptor of kind 4 names an endpoint in use (R410). -/
def endpointOk (s : State) (d : Desc) : Bool :=
  (d.srck != 4 && d.dstk != 4) || (bits d 47 32 ≤ 1023 && bit (sGet 0 s.fab.eps (bits d 47 32)) 224)

/-- The ring slot that linear element `i` fills (R214). -/
def Desc.ringOff (d : Desc) (i : Nat) : Nat := d.dstBase.toNat + 4 * ((d.rstart + d.esz / 4 * i) % d.rdepth)

/-- Destination addresses of every element. -/
def Desc.dests (d : Desc) : List Nat :=
  if d.ring then (List.range d.count).map d.ringOff else d.walk.map fun e => e.2.toNat

/-- Source and destination of a copy may overlap, so that every element is read first (R214). -/
def Desc.meets (d : Desc) : Bool :=
  (d.srck == d.dstk || (d.srck == 2 && d.dstk == 1) || (d.srck == 1 && d.dstk == 2))
    && boundsMeet (d.walk.map fun e => e.1.toNat) d.dests d.esz

/-- The elements of a copy. -/
def Desc.elems (s : State) (d : Desc) (g : GroupId) : List Elem :=
  let peers := peersOf s g d.dsel
  let speer := ((peersOf s g ((1 : DWord) <<< (bits d 31 24))).head?).getD g
  d.walk.zipIdx.map fun e =>
    let src : EPlace := match d.srck with
      | 0 => .global e.1.1
      | 1 => .pad g e.1.1.toNat
      | 2 => .pad speer e.1.1.toNat
      | 3 => .far (bits d 39 32) e.1.1
      | _ => .ep (bits d 47 32) e.1.1.toNat
    let dst : List EPlace := match d.dstk with
      | 0 => [.global e.1.2]
      | 1 => if d.ring then [.ring g (d.ringOff e.2)] else [.pad g e.1.2.toNat]
      | 2 => peers.map fun h => .pad h e.1.2.toNat
      | 3 => [.far (bits d 39 32) e.1.2]
      | _ => [.ep (bits d 47 32) e.1.2.toNat]
    ⟨src, dst, d.esz, none, false⟩

/-- The first scratchpad destination that lies outside its window (R215). -/
def outside (s : State) (es : List Elem) : Option Nat :=
  es.findSome? fun e => e.dst.findSome? fun p =>
    match p with
    | .pad h o | .ring h o =>
      match s.group? h with
      | some gr => if gr.winSize < o + e.size then some o else none
      | none => some o
    | _ => none

/-- Start a copy whose elements are known, unless a destination lies outside or there is no room. -/
def startCopy (s : State) (x : Issue) (k : EngKind) (desc : List Byte) (arr : Nat) (arrs : List GroupId) (es : List Elem)
    (first : Bool) : Res :=
  match outside s es with
  | some o => .ok s (allFault x 0x11 (BitVec.ofNat 64 o)) [] 0
  | none =>
    if engFull s x.gid k then .hold .other s
    else .done (addEng s { EngOp.blank s x k arr with
      arrs := arrs, elems := es, desc := desc, readFirst := first, total := (es.map fun e => e.size).foldl (· + ·) 0 })

/-- xcopy. The arrival word of a delivery into peers is judged in the issuer's window before its descriptor is read, and then in
each receiving peer's (log 82). -/
def xcopyBody (a : Operand) (m : EngExt) (x : Issue) (s : State) : Res :=
  match s.warp? x.w, s.group? x.gid with
  | some wp, some gr =>
    let arr := m.arr.toNat
    match arrFault s [x.gid] arr with
    | some c => .ok s (allFault x c (BitVec.ofNat 64 arr)) [] 0
    | none =>
      let at_ : Addr := if m.dsp then ((loWord (srcLane s x wp a 1 0)) + m.doff).zeroExtend 64
        else srcLane s x wp a 2 0 + m.doff.signExtend 64
      if heldBack s x.w true then .hold .other s
      else if at_.toNat % 64 != 0 then .ok s (allFault x 0x04 at_) [] 0
      else if anyReq s x.w then .hold .other s
      else
        let (r, s) : Except (Nat × Addr) (List Byte) × State :=
          if m.dsp then
            if gr.winSize < at_.toNat + 256 then (.error (0x11, at_), s)
            else if gr.padBad at_.toNat 256 then (.error (0x30, at_), s)
            else (.ok (gr.bytes at_.toNat 256), s)
          else readDesc s x at_ 256
        match r with
        | .error (0, _) => .hold .other s
        | .error (c, v) => .ok s (allFault x c v) [] 0
        | .ok bs =>
          let d : Desc := BitVec.ofNat 2048 (ofBytes bs)
          if !d.ok (peerCount s x.gid) || !endpointOk s d then .trap 0x16 at_ 0 false
          else
            let arrs := if d.dstk == 2 then peersOf s x.gid d.dsel else [x.gid]
            match arrFault s arrs arr with
            | some c => .ok s (allFault x c (BitVec.ofNat 64 arr)) [] 0
            | none =>
              let es := d.elems s x.gid
              startCopy s x .xcopy bs arr arrs es (d.meets)
  | _, _ => .done s

/-- xcopy. -/
def execXcopy (p : Pr) (a : Operand) (x : EngExt) (s : State) : Host.Outcome State Fault Refusal :=
  run (.xcopy p a x) s (xcopyBody a x)

/-! ### mcast (R217) -/

/-- The fields of an mcast as a number: source, mask, offset, and the extension's fields. -/
def mcFields (src mask : DWord) (off : Nat) (m : McExt) : Nat :=
  src.toNat + 2 ^ 64 * mask.toNat + 2 ^ 128 * (off % 2 ^ 32) + 2 ^ 160 * (m.enc.toNat)

/-- The elements of an mcast: rows of 16-byte pieces, each to every peer of the mask. -/
def mcElems (s : State) (g : GroupId) (src mask : DWord) (off : Nat) (m : McExt) : List Elem :=
  let rb := 16 * (m.rb.toNat + 1)
  (List.range (m.rows.toNat + 1)).flatMap fun i =>
    (List.range (rb / 16)).map fun j =>
      ⟨.global (src + BitVec.ofNat 64 (i * m.sstr.toNat + 16 * j)),
        (peersOf s g mask).map fun h => .pad h (off + i * rb + 16 * j), 16, none, false⟩

/-- mcast: rows of 16-byte elements to every peer of the mask. -/
def mcastBody (a b c : Operand) (m : McExt) (x : Issue) (s : State) : Res :=
  match s.warp? x.w with
  | none => .done s
  | some wp =>
    let arr := m.arr.toNat
    let mask := srcLane s x wp c 2 0
    let src := srcLane s x wp a 2 0
    let off := (loWord (srcLane s x wp b 1 0)).toNat
    if heldBack s x.w true then .hold .other s
    else if mask == 0 || 2 ^ peerCount s x.gid ≤ mask.toNat then .trap 0x16 x.cur.pc 0 false
    else
      let peers := peersOf s x.gid mask
      match arrFault s peers arr with
      | some f => .ok s (allFault x f (BitVec.ofNat 64 arr)) [] 0
      | none =>
        if src.toNat % 16 != 0 || m.sstr.toNat % 16 != 0 || off % 16 != 0 then .trap 0x16 x.cur.pc 0 false
        else
          let es := mcElems s x.gid src mask off m
          startCopy s x .mcast (bytesOf (mcFields src mask off m) 28) arr peers es false

/-- mcast. -/
def execMcast (p : Pr) (a b c : Operand) (x : McExt) (s : State) : Host.Outcome State Fault Refusal :=
  run (.mcast p a b c x) s (mcastBody a b c x)

/-! ### csrg (R218) -/

/-- Depth of a slab of a format. -/
def slabDepth (f : MFmt) : Nat := match f with | .bf16 | .f16 => 32 | .s4 | .n4 => 128 | _ => 64

/-- csrg. -/
def csrgBody (a b c : Operand) (m : GatherExt) (x : Issue) (s : State) : Res :=
  match s.warp? x.w, s.group? x.gid with
  | some wp, some gr =>
    let arr := m.arr.toNat
    match arrFault s [x.gid] arr with
    | some f => .ok s (allFault x f (BitVec.ofNat 64 arr)) [] 0
    | none =>
      let at_ := srcLane s x wp a 2 0
      let off := (loWord (srcLane s x wp b 1 0)).toNat
      let k0 := (loWord (srcLane s x wp c 1 0)).toNat
      let size := 128 + 4096 * slabs m.ns
      if heldBack s x.w true then .hold .other s
      else if at_.toNat % 64 != 0 then .ok s (allFault x 0x04 at_) [] 0
      else if anyReq s x.w then .hold .other s
      else
        match readDesc s x at_ 64 with
        | (.error (0, _), s) => .hold .other s
        | (.error (f, v), s) => .ok s (allFault x f v) [] 0
        | (.ok bs, s) =>
          if field (ofBytes bs) 511 256 != 0 || k0 % slabDepth m.fmt != 0 || off % 128 != 0 then .trap 0x16 at_ 0 false
          else if gr.winSize < off + size then .ok s (allFault x 0x11 (BitVec.ofNat 64 off)) [] 0
          else if engFull s x.gid .csrg then .hold .other s
          else .done (addEng s { EngOp.blank s x .csrg arr with
            desc := bs, k0 := k0, fmt := m.fmt, ns := slabs m.ns, dst := off, total := size })
  | _, _ => .done s

/-- csrg. -/
def execCsrg (p : Pr) (a b c : Operand) (x : GatherExt) (s : State) : Host.Outcome State Fault Refusal :=
  run (.csrg p a b c x) s (csrgBody a b c x)

/-! ### How an operation ends (R216, R222) -/

/-- Bytes of an operation that have not been delivered to a group whose word it credits. -/
def EngOp.left (e : EngOp) (g : GroupId) : Nat :=
  if e.kind == .csrg then e.total
  else (e.elems.map fun x =>
    match x.dst with
    | [.global _] | [.ring ..] | [.far ..] | [.ep ..] => x.size
    | ds => x.size * (ds.filter fun p => match p with | .pad h _ => h == g || !e.arrs.contains h | _ => false).length).foldl
      (· + ·) 0

/-- END AN OPERATION IN ERROR: the undelivered bytes are credited at once with ERR (R216, R222), or once no matrix operation
holds an arrival word of it (R223). -/
def endErr (s : State) (k : Nat) (e : EngOp) : State :=
  if e.arrs.any fun g => arrHeld s g e.arr then { s with engs := sInsert s.engs k { e with ended := true } }
  else
    let s := { s with engs := sErase s.engs k }
    let s := noteErr s e.gid e.arr
    e.arrs.foldl (fun s g => credit s g e.arr (e.left g) true) s

/-- End it for a failure at an address, which enters the violation log. -/
def failEng (s : State) (k : Nat) (e : EngOp) (cause addr : Nat) : State :=
  endErr (violate s 6 cause e.tag addr (srcOf e.cu)) k e

/-! ### Reading and writing elements (R214 to R216) -/

/-- What an access of an engine comes to. -/
inductive EStep
  | data (bs : List Byte) (poison : Bool)
  | absent
  | fail (cause addr : Nat)
deriving DecidableEq, Repr

/-- What an access outside the package comes to: refused, waiting, or as the outside answers (R413). Poisoned data keeps its
mark (R216). -/
def farStep (w : PoolWay) (x : ExtReply) (addr n : Nat) (write : Bool) : EStep :=
  match w, x with
  | .refused, _ | .carried, .error => .fail 0x15 addr
  | .carried, .vals (v :: _) =>
    match v.err with
    | none => .data (v.bytes.take n) false
    | some .poison => .data (v.bytes.take n) true
    | some c => .fail (extCause c write) addr
  | _, _ => .absent

/-- An access of an engine to a package takes the next group of the die's rotation and the next number of the engine's stream, where
it may be sent (R418, R420, R423); a cascade limit there comes back to the warp that issued the operation (R391). -/
def farAccess (s : State) (e : EngOp) (pkg : Nat) (x : ExtReply) (addr n : Nat) (write : Bool) : EStep × State :=
  let r := farStep (farWay s pkg) x addr n write
  if r == .absent || farWay s pkg == .refused then (r, s)
  else
    match sendOut s (outKey pkg (dieOf e.cu) (2 ^ 20 + quadOf e.cu)) pkg (dieOf e.cu) with
    | (none, s) => (.absent, s)
    | (some _, s) => (r, match x with | .vals (v :: _) => extCascades s e.wid (.vals [v]) | _ => s)

/-- Read bytes of global memory for an engine. -/
def engLoad (s : State) (e : EngOp) (va : Addr) (n : Nat) (x : ExtReply) : EStep × State :=
  match translate s e.cu e.tag (isCurator e.cu) .read va with
  | (.ok pa _, s) =>
    if spaceOf s pa == .far then farAccess s e (field pa 51 44) x va.toNat n false
    else if (homeByte? s pa).isNone then (.fail 0x15 va.toNat, s)
    else if poolWay s pa == .waits && spaceOf s pa == .pool then (.absent, s)
    else if (accEnt s pa).isSome then (.fail 0x14 va.toNat, s)
    else (.data (coherentBytes s pa n) (poisonedAt s pa n), keepView s pa n)
  | (.fault c, s) => (if c == 0x10 then .absent else .fail c va.toNat, s)
  | (_, s) => (.absent, s)

/-- Read an element's source. -/
def engRead (s : State) (e : EngOp) (p : EPlace) (n : Nat) (x : ExtReply) : EStep × State :=
  match p with
  | .global va => engLoad s e va n x
  | .pad g o | .ring g o =>
    match s.group? g with
    | some gr =>
      if gr.failed && g != e.gid then (.fail 0x15 o, s)
      else if gr.winSize < o + n then (.fail 0x11 o, s)
      else (.data (gr.bytes o n) (gr.padBad o n), s)
    | none => (.fail 0x15 o, s)
  | .far p va => farAccess s e p x va.toNat n false
  | .ep i o => (farStep (epWay s i) x o n false, s)

/-- Mark the sectors of some bytes poisoned at their home. -/
def poisonBytes (s : State) (pa n : Nat) : State :=
  { s with mem := { s.mem with poison := sSet false (sSet false s.mem.poison (pa / 32) true) ((pa + n - 1) / 32) true } }

/-- Write bytes of global memory for an engine: a twin page's shadow frame, a copy-on-write break first (R348, R352). -/
def engStore (s : State) (e : EngOp) (va : Addr) (bs : List Byte) (poison : Bool) (x : ExtReply) : EStep × State :=
  match translateTo true s e.cu e.tag (isCurator e.cu) .write va with
  | (.ok pa sm, s) =>
    if spaceOf s pa == .view then (.fail 0x13 va.toNat, s)
    else if spaceOf s pa == .far then farAccess s e (field pa 51 44) x va.toNat 0 true
    else if (accEnt s pa).isSome then (.fail 0x14 va.toNat, s)
    else if (homeByte? s pa).isNone then (.fail 0x15 va.toNat, s)
    else if poolWay s pa == .waits && spaceOf s pa == .pool then (.absent, s)
    else
      let wr : Writer := ⟨e.depth, some e.wid, false, e.cu⟩
      let s := if sm then commit s (bytesAt pa bs) (some 0) wr else homeStore s pa bs 0 wr
      (.data [] false, if poison then poisonBytes s pa bs.length else s)
  | (.cow, s) =>
    match breakPage s e.tag va none none with
    | .done s => (.absent, s)
    | .wait => (.absent, s)
    | .noFrame => (.fail 0x12 va.toNat, s)
  | (.fault c, s) => (if c == 0x10 then .absent else .fail c va.toNat, s)
  | (.wait, s) => (.absent, s)

/-- Write scratchpad bytes for an engine, carrying a poison mark. -/
def engPad (s : State) (g : GroupId) (o : Nat) (bs : List Byte) (poison : Bool) : State :=
  let s := padWrite s g o bs
  if poison then s.modGroup g fun x =>
    { x with padPoison := (wordsOf o bs.length).foldl (fun m w => sSet false m w true) x.padPoison }
  else s

/-- A group of a cluster has suffered a fatal fault, so that a delivery into its window, its own too, ends (R216, R359). -/
def Group.windowFailed (g : Group) : Bool := g.failed && g.cluster.isSome

/-- Write one destination of an element. `absent` stands for a wait of any kind. -/
def engWrite (s : State) (e : EngOp) (p : EPlace) (bs : List Byte) (poison : Bool) (x : ExtReply) : EStep × State :=
  match p with
  | .global va => engStore s e va bs poison x
  | .pad g o =>
    match s.group? g with
    | some gr =>
      if gr.windowFailed then (.fail 0x15 o, s)
      else if gr.isHeld o bs.length then (.absent, s)
      else (.data [] false, engPad s g o bs poison)
    | none => (.fail 0x15 o, s)
  | .ring g o =>
    match s.group? g with
    | some gr =>
      let ws := (List.range (bs.length / 4)).map fun i => o + 4 * i
      if gr.windowFailed then (.fail 0x15 o, s)
      else if ws.any fun q => gr.isFull q || gr.isReserved q || gr.isHeld q 4 then (.absent, s)
      else (.data [] false, ws.foldl (fun s q => setFull s g q true) (engPad s g o bs poison))
    | none => (.fail 0x15 o, s)
  | .far p va => farAccess s e p x va.toNat 0 true
  | .ep i o => (farStep (epWay s i) x o 0 true, s)

/-- The group whose word a destination's bytes are credited to. -/
def creditGroup (e : EngOp) (p : EPlace) : GroupId :=
  match p with
  | .pad h _ => if e.arrs.contains h then h else e.gid
  | _ => e.gid

/-- A window destination of an element is held by a matrix operation, so that the whole element waits (R223). -/
def dstHeld (s : State) (el : Elem) (n : Nat) : Bool :=
  el.dst.any fun p => match p with
    | .pad h o => match s.group? h with | some g => g.isHeld o n | none => false
    | _ => false

/-- An operation ends with its last element; one that overran REMAIN is noted for estat (R221). -/
def endEng (s : State) (k : Nat) (e : EngOp) : State :=
  let s := { s with engs := sErase s.engs k }
  if e.overran then noteErr s e.gid e.arr else s

/-- Deliver an element that has been read to its destinations, one after another; one that must wait, for its place or for
the arrival word that it is credited to (R223), keeps the rest. -/
def deliverElem (s : State) (k : Nat) (e : EngOp) (el : Elem) (rest : List Elem) (bs : List Byte) (x : ExtReply) : List EPlace → State
  | [] =>
    if rest.isEmpty then endEng s k e else { s with engs := sInsert s.engs k { e with elems := rest } }
  | p :: ps =>
    let e' := { e with elems := { el with dst := p :: ps, val := some bs } :: rest }
    if arrHeld s (creditGroup e p) e.arr then { s with engs := sInsert s.engs k e' }
    else
    match engWrite s e p bs el.poison x with
    | (.data .., s) =>
      let g := creditGroup e p
      deliverElem (credit s g e.arr el.size false) k { e with overran := e.overran || overruns s g e.arr el.size } el rest bs x ps
    | (.absent, s) => { s with engs := sInsert s.engs k e' }
    | (.fail c a, s) => failEng s k e' c a

/-- Read the first element that has not been read, where every element is read before any is written (R214). -/
def readNext (s : State) (k : Nat) (e : EngOp) (x : ExtReply) : State :=
  match e.elems.findIdx? fun q => q.val.isNone with
  | none => s
  | some i =>
    match e.elems[i]? with
    | none => s
    | some q =>
      match engRead s e q.src q.size x with
      | (.data bs po, s) => { s with engs := sInsert s.engs k { e with elems := e.elems.set i { q with val := some bs, poison := po } } }
      | (.absent, s) => s
      | (.fail c a, s) => failEng s k e c a

/-- One step of a copy. -/
def copyStep (s : State) (k : Nat) (e : EngOp) (x : ExtReply) : State :=
  if e.readFirst && e.elems.any fun q => q.val.isNone then readNext s k e x
  else
    match e.elems with
    | [] => endEng s k e
    | q :: rest =>
      match q.val with
      | some bs => if dstHeld s q q.size then s else deliverElem s k e q rest bs x q.dst
      | none =>
        if dstHeld s q q.size then s else
        match engRead s e q.src q.size x with
        | (.data bs po, s) => deliverElem s k e { q with poison := po } rest bs x q.dst
        | (.absent, s) => s
        | (.fail c a, s) => failEng s k e c a

/-! ### A gather's rows (R218, R219) -/

/-- The rest of the outside's answers, after an access that used one. -/
def answersLeft (x : ExtReply) (used : Bool) : ExtReply :=
  match x with
  | .vals (_ :: vs) => if used then .vals vs else x
  | x => x

/-- An address lies in another package's memory. -/
def farVa (s : State) (e : EngOp) (va : Addr) : Bool :=
  match (translate s e.cu e.tag (isCurator e.cu) .read va).1 with
  | .ok pa _ => spaceOf s pa == .far
  | _ => false

/-- Several pieces of memory, read in turn: their bytes and their marks, or what stops them, and the answers left. -/
structure Pieces where
  stop : Option EStep
  got : List (List Byte × Bool)
  left : ExtReply
deriving DecidableEq, Repr

def Pieces.bytes (p : Pieces) : List Byte := p.got.flatMap fun g => g.1
def Pieces.bad (p : Pieces) : Bool := p.got.any fun g => g.2

/-- Read several pieces of memory in turn. -/
def loadAll (s : State) (e : EngOp) (n : Nat) (x : ExtReply) : List Addr → Pieces × State
  | [] => (⟨none, [], x⟩, s)
  | a :: as =>
    match engLoad s e a n x with
    | (.data bs p, t) =>
      let r := loadAll t e n (answersLeft x (farVa s e a)) as
      ({ r.1 with got := (bs, p) :: r.1.got }, r.2)
    | (r, t) => (⟨some r, [], x⟩, t)

/-- A code is a nonzero element. -/
def codeNonzero (f : MFmt) (x : Nat) : Bool := !(mfValue f x).isZero

/-- Put a code at row `kk` and column `j` of a slab block (R196). -/
def putCode (b : Store Byte) (f : MFmt) (t kk j x : Nat) : Store Byte :=
  let n := mfBits f
  let at_ := 128 + 4096 * t + kk * (8 * n) + j * n / 8
  if n == 4 then
    let old := (sGet 0 b at_).toNat
    let lo := j % 2 * 4
    sSet 0 b at_ (BitVec.ofNat 8 (old - field old (lo + 3) lo * 2 ^ lo + x * 2 ^ lo))
  else (List.range (n / 8)).foldl (fun b i => sSet 0 b (at_ + i) (byteOf x i)) b

/-- A descriptor's fields as a gather uses them (R218). -/
def gatherDesc (e : EngOp) : BitVec 512 := BitVec.ofNat 512 (ofBytes e.desc)

/-- The words of a block that a code at row `kk` and column `j` of slab `t` stands in. -/
def codeWord (f : MFmt) (t kk j : Nat) : Nat := (128 + 4096 * t + kk * (8 * mfBits f) + j * mfBits f / 8) / 4

/-- The words of row `kk` of slab `t`. -/
def rowWords (f : MFmt) (t kk : Nat) : List Nat := (List.range (2 * mfBits f)).map fun i => codeWord f t kk 0 + i

/-- An operation waits, or fails, as an access of it did. -/
def stopEng (s : State) (k : Nat) (e : EngOp) : EStep → State
  | .fail c a => failEng s k e c a
  | _ => s

/-- One row of a gather (R219). What comes from poisoned bytes is marked: a value in its word, an index in the whole row
(R216). -/
def gatherRow (s : State) (k : Nat) (e : EngOp) (x : ExtReply) : State :=
  let d := gatherDesc e
  let rowptr := d.extractLsb' 0 64
  let colidx := d.extractLsb' 64 64
  let vals := d.extractLsb' 128 64
  let n := mfBits e.fmt
  let kr := e.k0 + e.row
  let t := e.row / slabDepth e.fmt
  let kk := e.row % slabDepth e.fmt
  if bits d 223 192 ≤ kr then { s with engs := sInsert s.engs k { e with row := e.row + 1 } }
  else
    let (ptrs, s) := loadAll s e 4 x [rowptr + BitVec.ofNat 64 (4 * kr), rowptr + BitVec.ofNat 64 (4 * kr + 4)]
    match ptrs.stop with
    | some r => stopEng s k e r
    | none =>
      let lo := ofBytes (ptrs.bytes.take 4)
      let hi := ofBytes (ptrs.bytes.drop 4)
      let is := (List.range (hi - lo)).map fun i => lo + i
      let (cols, s) := loadAll s e 4 ptrs.left (is.map fun i => colidx + BitVec.ofNat 64 (4 * i))
      match cols.stop with
      | some r => stopEng s k e r
      | none =>
        let c0 := bits d 255 224
        let mine := (is.zip (cols.got.map fun g => ofBytes g.1)).filter fun q => c0 ≤ q.2 && q.2 < c0 + 64
        let (vs, s) := loadAll s e ((n + 7) / 8) cols.left (mine.map fun q => vals + BitVec.ofNat 64 (q.1 * n / 8))
        match vs.stop with
        | some r => stopEng s k e r
        | none =>
          let b := (mine.zip vs.got).foldl (fun (p : Store Byte) q =>
            let raw := ofBytes q.2.1
            putCode p e.fmt t kk (q.1.2 - c0) (if n == 4 then field raw (q.1.1 % 2 * 4 + 3) (q.1.1 % 2 * 4) else raw)) e.block
          let marks := if ptrs.bad || cols.bad then rowWords e.fmt t kk
            else ((mine.zip vs.got).filter fun q => q.2.2).map fun q => codeWord e.fmt t kk (q.1.2 - c0)
          { s with engs := sInsert s.engs k { e with row := e.row + 1, block := b, bads := (e.bads ++ marks).eraseDups } }

/-- A slab of a gather's block holds a nonzero element (R219). -/
def slabUsed (e : EngOp) (t : Nat) : Bool :=
  let n := mfBits e.fmt
  let code (kk j : Nat) : Nat :=
    let a := 128 + 4096 * t + kk * (8 * n) + j * n / 8
    if n == 4 then field (sGet 0 e.block a).toNat (j % 2 * 4 + 3) (j % 2 * 4)
    else ofBytes ((List.range (n / 8)).map fun i => sGet 0 e.block (a + i))
  (List.range (slabDepth e.fmt)).any fun kk => (List.range 64).any fun j => codeNonzero e.fmt (code kk j)

/-- The last step of a gather: the block is written, with its marks, and credited (R216, R219). -/
def gatherEnd (s : State) (k : Nat) (e : EngOp) : State :=
  match s.group? e.gid with
  | none => { s with engs := sErase s.engs k }
  | some gr =>
    let mask := ((List.range e.ns).map fun t => if slabUsed e t then 2 ^ t else 0).foldl (· + ·) 0
    if gr.windowFailed then failEng s k e 0x15 e.dst
    else if gr.isHeld e.dst e.total || arrHeld s e.gid e.arr then s
    else
      let s := padWrite s e.gid e.dst (bytesOf mask 128)
      let s := ((List.range e.ns).filter (slabUsed e)).foldl (fun s t =>
        let s := padWrite s e.gid (e.dst + 128 + 4096 * t) ((List.range 4096).map fun i => sGet 0 e.block (128 + 4096 * t + i))
        s.modGroup e.gid fun g => { g with padPoison := (e.bads.filter fun w => (4 * w - 128) / 4096 == t).foldl (fun m w =>
          sSet false m (e.dst / 4 + w) true) g.padPoison }) s
      credit (endEng s k { e with overran := overruns s e.gid e.arr e.total }) e.gid e.arr e.total false

/-- One row of a gather, or its last step; a poisoned index marks its whole row (log 76). -/
def gatherStep (s : State) (k : Nat) (e : EngOp) (x : ExtReply) : State :=
  if e.row < e.ns * slabDepth e.fmt then gatherRow s k e x else gatherEnd s k e

/-! ### The events -/

/-- The operation's earlier memory instructions are complete (R209). -/
def engReady (s : State) (e : EngOp) : Bool := e.after.all fun r => (sFind? s.reqs r).isNone

/-- ENGINE_ELEMENT_DELIVERY: one step of an operation; one that ecancel stops ends here. -/
def execEngineElementDelivery (k : Nat) (x : ExtReply) (s : State) : Host.Outcome State Fault Refusal :=
  match sFind? s.engs k with
  | none => .next s
  | some e =>
    if e.stopping || e.ended then .next (endErr s k e)
    else if !engReady s e then .next s
    else if e.kind == .csrg then .next (gatherStep s k e x)
    else .next (copyStep s k e x)

/-- Addresses that an operation touches next. -/
def engNext (e : EngOp) : List Addr :=
  if e.kind == .csrg then
    let d := ofBytes e.desc
    (List.range 3).map fun i => BitVec.ofNat 64 (field d (64 * i + 63) (64 * i))
  else
    match (e.elems.find? fun q => q.val.isNone).orElse (fun _ => e.elems.head?) with
    | none => []
    | some q => ((q.src :: q.dst).filterMap fun p => match p with | .global va => some va | _ => none)

/-- A page that the curator may stage: a leaf on the flash tier or absent, that no migration is moving. -/
def stageable (s : State) (t : Tag) (va : Addr) : Option (BitVec 64 × Nat) :=
  match walk s t va with
  | .leaf e addr level =>
    if level == 4 && 2 ≤ pteTier e && !bit e 7
        && !(s.migs.any fun m => m.2.tag == t && m.2.va.toNat / 65536 == va.toNat / 65536) then some (e, addr) else none
  | _ => none

/-- A frame leaves every L1, proxy and L2, written back (R355, step 3). -/
def flushFrame (s : State) (pa : Nat) : State :=
  let s := purgeRange s pa 65536
  (((s.mem.l2.map fun e => e.1 / 128).eraseDups).filter fun l => pa ≤ 128 * l && 128 * l < pa + 65536).foldl lineToPlinth s

/-- Stage one page into a frame of a die: bytes from flash, or zeros for a page that has none (R216, R355). Where flash gives no
65,536 bytes its command has failed: the page is left absent, and its address enters the violation log. Whether that happened. -/
def stagePage (s : State) (t : Tag) (va : Addr) (d : Nat) (bytes : Option (List Byte)) : State × Bool :=
  match stageable s t va with
  | none => (s, false)
  | some (e, addr) =>
    if freeCount s d == 0 then (s, false)
    else if pteTier e == 2 && !(bytes.any fun b => b.length == 65536) then
      (violate (tlbDropPage (putPte s addr (setField e.toNat 53 52 3)) t va) 6 0x15 t va.toNat noSrc, true)
    else
    match takeFrame s d with
    | none => (s, false)
    | some (i, s) =>
      let s := fillPage s (framePa s i) (if pteTier e == 2 then bytes.getD [] else [])
      let s := ftPut s i (setField (setField (ftGet s i) 23 0 1) 63 48 t.toNat)
      (tlbDropPage (putPte s addr (setField (setField e.toNat 51 8 (framePa s i / 256)) 53 52 0)) t va, false)

/-- The address of a csrg row's arrays that meets an absent page. -/
def csrgAbsent (s : State) (e : EngOp) : List Addr :=
  let d := ofBytes e.desc
  let a := BitVec.ofNat 64 (field d 63 0) + BitVec.ofNat 64 (4 * (e.k0 + e.row))
  let r := (loadAll s e 4 .none [a, a + 4]).1
  let lo := ofBytes (r.bytes.take 4)
  let more := if r.stop.isSome then [] else (List.range (ofBytes (r.bytes.drop 4) - lo)).flatMap fun i =>
    [BitVec.ofNat 64 (field d 127 64 + 4 * (lo + i)), BitVec.ofNat 64 (field d 191 128 + (lo + i) * mfBits e.fmt / 8)]
  [a, a + 4] ++ more

/-- ENGINE_PAGE_STAGE: the page that stops an operation is staged, or the operation ends with its flash read (R216). -/
def execEnginePageStage (k : Nat) (bytes : List Byte) (s : State) : Host.Outcome State Fault Refusal :=
  match sFind? s.engs k with
  | none => .next s
  | some e =>
    match ((if e.kind == .csrg then csrgAbsent s e else engNext e).find? fun va => (stageable s e.tag va).isSome) with
    | some va =>
      let r := stagePage s e.tag va (dieOf e.cu) (some bytes)
      .next (if r.2 then failEng r.1 k e 0x15 va.toNat else r.1)
    | none => .next s

/-! ### estat and ecancel (R221, R222) -/

/-- Operations of a group that credit an arrival word, or all. -/
def engsOf (s : State) (g : GroupId) (arr : Option Nat) : List (Nat × EngOp) :=
  s.engs.filter fun e => e.2.gid == g && (arr.all fun a => a == e.2.arr)

/-- The word an instruction names, none for .all. -/
def arrOf (s : State) (x : Issue) (a : Option Operand) : Option Nat :=
  a.map fun o => (loWord (scalarOf s x (some ⟨o, 1, true⟩))).toNat

/-- estat. -/
def execEstat (p : Pr) (d : Operand) (a : Option Operand) (s : State) : Host.Outcome State Fault Refusal :=
  run (.estat p d a) s fun x s =>
    let arr := arrOf s x a
    let ops := engsOf s x.gid arr
    let err := ((s.group? x.gid).map fun g => sGet false g.errs (arr.getD allArr)).getD false
    let v := ops.length % 65536 + (if ops.any fun e => e.2.stopping then 2 ^ 30 else 0) + (if err then 2 ^ 31 else 0)
    let s := s.modGroup x.gid fun g => { g with errs := sSet false g.errs (arr.getD allArr) false }
    .done (scatter s { x with scalar := true } (some ⟨d, 1, true⟩) [BitVec.ofNat 64 v])

/-- ecancel: it marks its operations, and holds the warp until every one has made its last write. -/
def execEcancel (p : Pr) (a : Option Operand) (s : State) : Host.Outcome State Fault Refusal :=
  run (.ecancel p a) s fun x s =>
    let ops := engsOf s x.gid (arrOf s x a)
    let marked := ((s.warp? x.w).map Warp.cancelled).getD false
    if marked then
      if ops.any fun e => e.2.stopping then .hold .other s
      else .done (s.modWarp x.w fun w => { w with cancelled := false })
    else if ops.isEmpty then .done s
    else
      let s := ops.foldl (fun s e => { s with engs := sInsert s.engs e.1 { e.2 with stopping := true } }) s
      .hold .other (s.modWarp x.w fun w => { w with cancelled := true })

end Sys2Proof.Machine
end

