-- ==== Sys2Proof/Machine/Range.lean ====
section
/-! DEFINITION. Range operations and code patching (R162 to R164). -/

namespace Sys2Proof.Machine

open Sys2Proof

/-- wbr. -/
def execWbr (p : Pr) (a b : Operand) (x : MemExt) (s : State) : Host.Outcome State Fault Refusal :=
  run (.wbr p a b x) s (rangeBody (.range 0 (bit x.opx 0)) a b x)

/-- invr. -/
def execInvr (p : Pr) (a b : Operand) (x : MemExt) (s : State) : Host.Outcome State Fault Refusal :=
  run (.invr p a b x) s (rangeBody (.range 1 false) a b x)

/-- flr. -/
def execFlr (p : Pr) (a b : Operand) (x : MemExt) (s : State) : Host.Outcome State Fault Refusal :=
  run (.flr p a b x) s (rangeBody (.range 2 (bit x.opx 0)) a b x)

/-- icinv (R163). -/
def execIcinv (p : Pr) (a b : Operand) (x : MemExt) (s : State) : Host.Outcome State Fault Refusal :=
  run (.icinv p a b x) s (rangeBody .icinv a b x)

/-- The warp forgets the block that it has fetched. -/
def forgetBlock (s : State) (w : WarpId) : State := s.modWarp w fun x => { x with ibuf := none, fetchBad := none }

/-- fetchb: what the warp has fetched is discarded; it waits for every earlier icinv of the warp, and the next fetch is
anew (R163). -/
def execFetchb (x : MemExt) (s : State) : Host.Outcome State Fault Refusal :=
  run (.fetchb x) s fun y s =>
    let s := forgetBlock s y.w
    if s.reqs.any fun e => e.2.wid == y.w && e.2.kind == .icinv then .hold .other s else .done s

/-- The pages a range operation reaches (R162). -/
def rangeAdmits (sup : Bool) (op : Nat) (e : BitVec 64) : Bool :=
  (sup || bit e 4) && bit e 1 && (op == 0 || bit e 2)

/-- Dirty bytes of a word that lie outside some ranges are written back. -/
def keepOutside (s : State) (c : CuId) (word : Nat) (rs : List (Nat × Nat)) : State :=
  match s.l1 c word with
  | none => s
  | some x =>
    let bs := (dirtyBytes word x).filter fun e => !meets rs e.1 1
    if bs.isEmpty then s else commit s bs (some x.rel) ⟨x.depth, none, false, c⟩

/-- The effect of a range operation on one word of the issuing CU's L1 (R162). -/
def rangeWord (s : State) (c : CuId) (op : Nat) (rs : List (Nat × Nat)) (word : Nat) : State :=
  match s.l1 c word with
  | none => s
  | some x =>
    if op == 0 then writeBackWord s c word
    else if op == 1 && x.sm then dropWord (keepOutside s c word rs) c word
    else flushWord s c word

/-- The effect of a range operation on the copies that the proxies hold of another package's words (R162): written back,
or dropped. -/
def rangeProxy (s : State) (op : Nat) (rs : List (Nat × Nat)) : State :=
  let ws := (s.mem.prox.map fun e => e.1).filter fun w => meets rs (4 * w) 4
  ws.foldl (fun s w => if op == 0 then proxClean s w else proxDrop s w) s

/-- Lines of some ranges with bytes that are dirty in L2 or in a memory-side cache. -/
def dirtyIn (s : State) (rs : List (Nat × Nat)) : List Nat :=
  (((s.mem.l2 ++ s.mem.msc).map fun e => e.1 / 128).eraseDups).filter fun l => meets rs (128 * l) 128

/-- A write-back of a range cannot be completed now: its package, or its device, is out of reach for the moment (R413). -/
def rangeStuck (s : State) (c : CuId) (scp : Scope) (rs : List (Nat × Nat)) : Bool :=
  let ls : List Nat := dirtyIn s rs ++ (((s.cu c).l1.filter fun e => e.2.dirty != 0).map fun e => e.1 / 32).filter fun l => meets rs (128 * l) 128
  ls.any fun l =>
    match spaceOf s (128 * l) with
    | .far => farWay s (field (128 * l) 51 44) == .waits
    | .pool => scp == .sys && poolWay s (128 * l) == .waits
    | _ => false

/-- RANGE_OP_COMPLETE: the copies in the range are written back or dropped; with .home the bytes reach the plinth, and under
.sys those of a pool reach their device. -/
def execRangeOpComplete (k : Nat) (s : State) : Host.Outcome State Fault Refusal :=
  match sFind? s.reqs k with
  | some r =>
    match r.kind with
    | .range op home =>
      let rs := rangePages s r.ctx r.span.1 r.span.2 (rangeAdmits (isCurator r.cu) op)
      if earlierOpen s k r || rangeStuck s r.cu r.scp rs then .next s
      else
        let ws := (l1Words s r.cu).filter fun w => meets rs (4 * w) 4
        let s := rangeProxy (ws.foldl (fun s w => rangeWord s r.cu op rs w) s) op rs
        let pools := if r.scp == .sys then (dirtyIn s rs).filter fun l => spaceOf s (128 * l) == .pool else []
        let s := if home then (dirtyIn s rs).foldl lineToPlinth s else s
        .next (freeReq (pools.foldl (fun s l => lineToStore (lineToPlinth s l) l) s) k)
    | _ => .next s
  | none => .next s

/-- The CUs of an icinv's scope (R163). -/
def icScope (s : State) (c : CuId) (scp : Scope) : List CuId :=
  match scp with
  | .cu => [c]
  | .die => (s.cus.map fun e => e.1).filter fun d => dieOf d == dieOf c
  | _ => s.cus.map fun e => e.1

/-- ICINV_COMPLETE: every cache of the scope has dropped the range's lines. A block of the range that is on its way from
another package arrives first. -/
def execIcinvComplete (k : Nat) (s : State) : Host.Outcome State Fault Refusal :=
  match sFind? s.reqs k with
  | some r =>
    let rs := rangePages s r.ctx r.span.1 r.span.2 fun _ => true
    let cs := icScope s r.cu r.scp
    let coming := s.reqs.any fun e => e.2.kind == .fetch && (cs.contains e.2.cu || e.2.cu == r.cu) && meets rs (32 * e.2.blk) 32
    if r.kind != .icinv || coming then .next s
    else .next (freeReq (cs.foldl (fun s c => icDrop s c fun b => meets rs (b / 4 * 128) 128) s) k)
  | none => .next s

end Sys2Proof.Machine
end

