-- ==== Sys2Proof/Machine/System.lean ====
section
/-! DEFINITION. Traps and their return (R228 to R236), the system registers (R237, R238), translations (R241, R242) and
host events (R250). -/

namespace Sys2Proof.Machine

open Sys2Proof

/-! ### What the forms of this chapter share (R227) -/

/-- Write a 32-bit status to D. -/
def status (s : State) (x : Issue) (d : Operand) (v : Nat) : State :=
  scatter s { x with scalar := true } (some ⟨d, 1, true⟩) [BitVec.ofNat 64 v]

/-- A 32-bit scalar source as a number. -/
def sc32 (s : State) (x : Issue) (o : Operand) : Nat := (loWord (scalarOf s x (some ⟨o, 1, true⟩))).toNat

/-- A 64-bit scalar source. -/
def sc64v (s : State) (x : Issue) (o : Operand) : DWord := scalarOf s x (some ⟨o, 2, true⟩)

/-- Each allowed lane faults at an address (R149, R239). -/
def laneFaults (x : Issue) (s : State) (c : Nat) (va : Addr) : Res := .ok s (allFault x c va) [] 0

/-! ### trap and brk (R233) -/

/-- trap. -/
def execTrap (h : Hdr) (a : Operand) (s : State) : Host.Outcome State Fault Refusal :=
  run (.trap h a) s fun x s => .trap 0x40 x.cur.pc (BitVec.ofNat 32 (sc32 s x a)) false

/-- brk. -/
def execBrk (p : Pr) (s : State) : Host.Outcome State Fault Refusal :=
  run (.brk p) s fun x _ => .trap 0x40 x.cur.pc 0 true

/-! ### eret (R234 to R236) -/

/-- The trap that a handler is bound to: the trapped warp and its record. -/
def boundTrap (s : State) (w : WarpId) : Option (WarpId × Warp × Trap) :=
  (s.warp? w).bind fun x => x.serves.bind fun t => (s.warp? t).bind fun y => y.halt.map fun h => (t, y, h)

/-- The four modes. -/
inductive EretMode | replay | skip | fill | abort
deriving DecidableEq, Repr

/-- The trap is of an asynchronous kind by the table of causes: it arose so, or it is a remote error or poison that an
instruction meets (R231; log 65). -/
def Trap.asyncKind (t : Trap) : Bool := t.async || t.cause == 0x15 || t.cause == 0x30

/-- The bound trap admits a mode (R234). -/
def EretMode.admits (m : EretMode) (t : Trap) : Bool :=
  match m with
  | .replay | .abort => true
  | .skip => !t.asyncKind && t.cause != 0x03 && !(t.cause == 0x01 && t.next.isNone)
  | .fill => t.defl.isSome

/-- The registers of a deferred load receive TRAPDATA, and their faulted mark is cleared (R236). A scalar register is the
warp's: its mark goes whatever lane it stands under, and of several TRAPFLM lanes the highest gives its value (log 80). -/
def fillRegs (y : Warp) (t : Trap) : Warp :=
  match t.defl with
  | none => y
  | some (wid, n) =>
    let ls := lanesOf (y.flm &&& t.lanes)
    let y := ls.foldl (fun (y : Warp) l =>
      (List.range wid.regs).foldl (fun (y : Warp) i =>
        putLane y (regOperand (n + i)) 1 l ((sGet 0 t.data (64 * i + l)).zeroExtend 64)) y) y
    { y with bads := y.bads.filter fun b => !(b.num == n && (if 128 ≤ n then !ls.isEmpty else ls.contains b.lane)) }

/-- Some lanes pass the faulted instruction: those of TRAPFLM under skip, those removed from it under replay and fill (R234,
R235). -/
def EretMode.passes (m : EretMode) (y : Warp) (t : Trap) : Bool :=
  match m with
  | .skip => true
  | .replay | .fill => t.lanes &&& y.alive &&& ~~~y.flm != 0
  | .abort => false

/-- The record with the address past the faulted instruction, where it does not hold it and lanes pass it: a fetch that
faulted is looked at again (log 27); in a repeat it was that of the rpt, whose target follows it. None: that fetch waits. -/
def pastTrap (s : State) (w : WarpId) (y : Warp) (m : EretMode) (t : Trap) : Option Trap × State :=
  if t.next.isSome || t.async || t.cause == 0x03 || t.cause == 0x01 || !m.passes y t then (some t, s)
  else
    match fetchAt s w t.addr0 with
    | (.bytes bs, s) =>
      let o := if t.inrep then 8 else 0
      match bs[o]? with
      | some b =>
        let len := b.extractLsb' 0 2
        (some (if len == 3 then t else { t with next := some (after t.addr0 (o + lenBytes len)) }), s)
      | none => (some t, s)
    | (.wait, s) => (none, s)
    | (_, s) => (some t, s)

/-- The handler's own work has completed at package scope: its accesses, and the credits of its engine operations and of the
migrations it started (R234). -/
def handlerDone (s : State) (w : WarpId) : Bool :=
  !anyReq s w && !(s.engs.any fun e => e.2.wid == w) && !(s.migs.any fun e => e.2.arr.any fun a => a.1 == w)

/-- End a handler warp. -/
def endHandler (s : State) (w : WarpId) : State := { s with warps := sErase s.warps w }

/-- THE RETURN FROM A TRAP. What the handler wrote happens before what the resumed warp executes, so that its CU's si copies go
(R234, R274). -/
def eretBody (m : EretMode) (x : Issue) (s : State) : Res :=
  match boundTrap s x.w with
  | none => if handlerDone s x.w then .ok (endHandler s x.w) [] [] x.set else .hold .other s
  | some (w, y, t) =>
    if !m.admits t then .trap 0x01 x.cur.pc 0 false
    else if !handlerDone s x.w then .hold .other s
    else if !releaseReady s x.w .pkg then .hold .other (releaseBegin s x.w)
    else
      match pastTrap (dropSi s (cuOf (gidOf w))) w y m t with
      | (none, s) => .hold .other s
      | (some t, s) =>
        let s := endHandler (releaseAt s x.w .pkg) x.w
        let y := (s.warp? w).getD y
        let s := match m with
          | .replay => s.setWarp w (resume y t false)
          | .skip => s.setWarp w (resume y t true)
          | .fill => s.setWarp w (resume (fillRegs y t) t false)
          | .abort => startHalt (s.setWarp w { y with halt := some { t with queued := true } }) y.tag 2
        .ok s [] [] x.set

/-- eret.replay. -/
def execEretReplay (p : Pr) (s : State) : Host.Outcome State Fault Refusal := run (.eretReplay p) s (eretBody .replay)

/-- eret.skip. -/
def execEretSkip (p : Pr) (s : State) : Host.Outcome State Fault Refusal := run (.eretSkip p) s (eretBody .skip)

/-- eret.fill. -/
def execEretFill (p : Pr) (s : State) : Host.Outcome State Fault Refusal := run (.eretFill p) s (eretBody .fill)

/-- eret.abort. -/
def execEretAbort (p : Pr) (s : State) : Host.Outcome State Fault Refusal := run (.eretAbort p) s (eretBody .abort)

/-! ### System registers (R237) -/

/-- The handle of a warp, or of a group (R232). -/
def handleOf (w : WarpId) : Nat :=
  let c := cuOf (gidOf w)
  (if isCurator c then 0 else 2 ^ 20 * cuX c + 2 ^ 16 * cuY c) + 2 ^ 11 * (gidOf w % 32) + 2 ^ 7 * warpIndex w

/-- TRAPINFO of a trap (R232). -/
def trapInfo (y : Warp) (t : Trap) : Nat :=
  (if t.asyncKind then 2 ^ 31 else 0) + (if t.inrep then 2 ^ 30 else 0) + (if t.brk then 2 ^ 29 else 0)
    + (match t.defl with
      | some (wid, n) => 2 ^ 28 + 2 ^ 25 * codeOf Wid.codes wid + 2 ^ 16 * n
      | none => 0)
    + y.tag.toNat

/-- The value a warp reads from a register that is not held per lane. -/
def sysRead (s : State) (x : Issue) (y : Warp) (num idx : Nat) : Nat :=
  let c := s.ctx s.sup.ctxsel
  let trap (f : WarpId → Warp → Trap → Nat) : Nat := match boundTrap s x.w with | some (w, v, t) => f w v t | none => 0
  match num with
  | 0x000 => (wstat x.w y true).toNat
  | 0x001 => y.fstat.toNat
  | 0x002 => y.flm.toNat
  | 0x003 => y.rptc.toNat
  | 0x004 => y.tag.toNat
  | 0x040 => (sGet 0 s.sup.trapbase (dieOf (cuOf x.gid))).toNat
  | 0x041 => trap fun _ _ t => t.cause % 256
  | 0x042 => trap fun _ _ t => t.addr.toNat
  | 0x043 => trap fun _ v t => trapInfo v t
  | 0x044 => trap fun _ _ t => t.code.toNat
  | 0x045 => trap fun w _ _ => handleOf w
  | 0x046 => trap fun _ v _ => v.flm.toNat
  | 0x080 => s.sup.ctxsel.toNat
  | 0x081 => c.ptbase.toNat
  | 0x082 => c.deadline.toNat
  | 0x083 => c.evtq.toNat
  | 0x084 => s.sup.frametab.toNat
  | 0x085 => s.sup.twintab.toNat
  | 0x086 => s.sup.watchtab.toNat
  | 0x087 => s.sup.acctab.toNat
  | 0x088 => (sGet 0 s.sup.freelist idx).toNat
  | 0x089 => s.sup.svcreq.toNat
  | 0x0A0 => pgctl s idx
  | _ => 0

/-- The value of a register held per lane: VPC, or TRAPDATA of the bound trap. -/
def sysLane (s : State) (x : Issue) (y : Warp) (num idx l : Nat) : DWord :=
  if num == 0x005 then y.vpc l
  else match boundTrap s x.w with
    | some (_, _, t) => (sGet 0 t.data (64 * idx + l)).zeroExtend 64
    | none => 0

/-- mfs: FSTAT waits for the special-function and conversion queues (R32, R238). -/
def execMfs (p : Pr) (d : Operand) (num : BitVec 12) (idx : BitVec 8) (s : State) : Host.Outcome State Fault Refusal :=
  run (.mfs p d num idx) s fun x s =>
    match s.warp? x.w with
    | none => .done s
    | some y =>
      let n := num.toNat
      if n == 0x001 && !(y.sfq.isEmpty && y.cvq.isEmpty) then .hold .other s
      else
        let vs : List DWord := x.act.map fun l =>
          if n == 0x005 || n == 0x047 then sysLane s x y n idx.toNat l
          else BitVec.ofNat 64 (sysRead s x y n idx.toNat)
        .done (scatter s x (mfsUse num d) vs)

/-- What a write of DEADLINE leaves: OVR is cleared by a 0 and never set (R304). -/
def deadlineHeld (old v : DWord) : DWord :=
  BitVec.ofNat 64 (field v.toNat 63 63 * 2 ^ 63 + (if bit v 62 && bit old 62 then 2 ^ 62 else 0) + bits v 47 0)

/-- What a write of SVCREQ leaves: a 0 clears its bit, and SR is the OR of the others (R443, R444; log 28). -/
def svcHeld (old v : Word) : Word :=
  let b := bits (old &&& v) 7 0
  BitVec.ofNat 32 (if b == 0 then 0 else b + 2 ^ 31)

/-- A number with some fields kept: pairs of high and low bit. -/
def keepFields (v : DWord) (fs : List (Nat × Nat)) : DWord :=
  BitVec.ofNat 64 ((fs.map fun f => bits v f.1 f.2 * 2 ^ f.2).foldl (· + ·) 0)

/-- A write of a register that is not held per lane; reserved bits are discarded. Every unit has the new value when the
step ends (R238). -/
def sysWrite (s : State) (x : Issue) (num idx : Nat) (v : DWord) : State :=
  let t := s.sup.ctxsel
  match num with
  | 0x001 => s.modWarp x.w fun y => { y with fstat := BitVec.ofNat 32 (bits v 6 0) }
  | 0x002 => s.modWarp x.w fun y => { y with flm := v &&& fullMask y.width }
  | 0x040 => { s with sup := { s.sup with
      trapbase := sSet 0 s.sup.trapbase (dieOf (cuOf x.gid)) (keepFields v [(63, 13)]) } }
  | 0x046 =>
    match boundTrap s x.w with
    | some (w, y, _) => s.setWarp w { y with flm := v &&& fullMask y.width }
    | none => s
  | 0x080 => { s with sup := { s.sup with ctxsel := BitVec.ofNat 16 (bits v 15 0) } }
  | 0x081 => s.modCtx t fun c => { c with ptbase := keepFields v [(51, 12), (0, 0)] }
  | 0x082 => s.modCtx t fun c => { c with deadline := deadlineHeld c.deadline v }
  | 0x083 => s.modCtx t fun c => { c with evtq := keepFields v [(63, 12), (11, 8), (0, 0)] }
  | 0x084 => { s with sup := { s.sup with frametab := keepFields v [(51, 16), (0, 0)] } }
  | 0x085 => { s with sup := { s.sup with twintab := keepFields v [(59, 52), (51, 12), (0, 0)] } }
  | 0x088 => { s with sup := { s.sup with freelist := sSet 0 s.sup.freelist idx (keepFields v [(47, 0)]) } }
  | 0x089 => { s with sup := { s.sup with svcreq := svcHeld s.sup.svcreq (loWord v) } }
  | _ => s

/-- A write of TRAPDATA of the bound trap, for one lane. -/
def trapDataWrite (s : State) (x : Issue) (idx l : Nat) (v : Word) : State :=
  match boundTrap s x.w with
  | some (w, y, t) => s.setWarp w { y with halt := some { t with data := sSet 0 t.data (64 * idx + l) v } }
  | none => s

/-- mts. -/
def execMts (p : Pr) (a : Operand) (num : BitVec 12) (idx : BitVec 8) (s : State) : Host.Outcome State Fault Refusal :=
  run (.mts p a num idx) s fun x s =>
    match s.warp? x.w with
    | none => .done s
    | some y =>
      if num == 0x047 then
        .done ((lanesOf x.exec).foldl (fun s l => trapDataWrite s x idx.toNat l (loWord (srcLane s x y a 1 l))) s)
      else .done (sysWrite s x num.toNat idx.toNat (scalarOf s x (mtsUse num a)))

/-- mts to ACCTAB: it waits for requests on their way to regions, and until the recall is complete, at the homes of other packages'
lines as well (R369, R375). -/
def execAcctabWrite (p : Pr) (a : Operand) (idx : BitVec 8) (s : State) : Host.Outcome State Fault Refusal :=
  run (.acctabWrite p a idx) s fun x s =>
    if regionOpen s then .hold .other s
    else if !regionsGone (recallRegions s) then .hold .other (recallRegions s)
    else .done (writeAcctab (recallRegions s) (keepFields (sc64v s x a) [(51, 11), (0, 0)]))

/-- mts to WATCHTAB (R384). -/
def execWatchtabWrite (p : Pr) (a : Operand) (idx : BitVec 8) (s : State) : Host.Outcome State Fault Refusal :=
  run (.watchtabWrite p a idx) s fun x s => .done (writeWatchtab s (keepFields (sc64v s x a) [(51, 16), (0, 0)]))

/-! ### Translations (R241, R242) -/

/-- Requests on their way that a removal must see completed: those of the contexts it names. -/
def tlbiReqs (s : State) (k : TlbiKind) : List Nat :=
  (s.reqs.filter fun e => !e.2.accs.isEmpty && (e.2.stage == .home || e.2.stage == .ext) &&
    match k with
    | .range c .. | .ctx c => e.2.ctx == c
    | .all => true).map fun e => e.1

/-- A translation that a removal names. -/
def TlbiKind.names (k : TlbiKind) (e : Tlb) : Bool :=
  match k with
  | .range c va n =>
    e.ctx == c && va.toNat / 65536 * 65536 < (e.page + 1) * e.size
      && e.page * e.size < (va.toNat / 65536 + n) * 65536
  | .ctx c => e.ctx == c
  | .all => true

/-- Post a removal. -/
def postTlbi (s : State) (x : Issue) (k : TlbiKind) : State :=
  let (n, s) := s.fresh
  { s with tlbis := sInsert s.tlbis n ⟨x.w, k, [], false⟩ }

/-- A context tag in a 32-bit source. -/
def tag32 (s : State) (x : Issue) (o : Operand) : Tag := BitVec.ofNat 16 (sc32 s x o)

/-- tlbi.va. -/
def execTlbiVa (h : Hdr) (a c : Operand) (s : State) : Host.Outcome State Fault Refusal :=
  run (.tlbiVa h a c) s fun x s => .done (postTlbi s x (.range (tag32 s x c) (sc64v s x a) 1))

/-- tlbi.range. -/
def execTlbiRange (h : Hdr) (a b c : Operand) (s : State) : Host.Outcome State Fault Refusal :=
  run (.tlbiRange h a b c) s fun x s => .done (postTlbi s x (.range (tag32 s x c) (sc64v s x a) (sc32 s x b)))

/-- tlbi.ctx. -/
def execTlbiCtx (h : Hdr) (c : Operand) (s : State) : Host.Outcome State Fault Refusal :=
  run (.tlbiCtx h c) s fun x s => .done (postTlbi s x (.ctx (tag32 s x c)))

/-- tlbi.all. -/
def execTlbiAll (h : Hdr) (s : State) : Host.Outcome State Fault Refusal :=
  run (.tlbiAll h) s fun x s => .done (postTlbi s x .all)

/-- TLBI_COMPLETE: the removal takes effect, and ends once the accesses that used what it removed are complete. -/
def execTlbiComplete (k : Nat) (s : State) : Host.Outcome State Fault Refusal :=
  match sFind? s.tlbis k with
  | none => .next s
  | some t =>
    if !t.done then
      let s := tlbDrop s t.kind.names
      .next { s with tlbis := sInsert s.tlbis k { t with done := true, reqs := tlbiReqs s t.kind } }
    else if t.reqs.any fun r => match sFind? s.reqs r with
        | some q => q.stage == .home || q.stage == .ext
        | none => false then .next s
    else .next { s with tlbis := sErase s.tlbis k }

/-- tlbsync. -/
def execTlbsync (p : Pr) (s : State) : Host.Outcome State Fault Refusal :=
  run (.tlbsync p) s fun x s => if s.tlbis.any fun e => e.2.wid == x.w then .hold .other s else .done s

/-! ### evt (R250) -/

/-- evt. -/
def execEvt (h : Hdr) (a b : Operand) (s : State) : Host.Outcome State Fault Refusal :=
  run (.evt h a b) s fun x s =>
    if anyReq s x.w then .hold .other s
    else if !releaseReady s x.w .sys then .hold .other (releaseBegin s x.w)
    else
      let s := releaseAt s x.w .sys
      let t := tagOf s x.w
      .done (postEvent s (s.ctx t).evtq t (BitVec.ofNat 32 (sc32 s x a)) (BitVec.ofNat 32 (sc32 s x b)))

end Sys2Proof.Machine
end

