-- ==== Sys2Proof/Machine/Frames.lean ====
section
/-! DEFINITION. Reference counts, copy-on-write marking, twins and migration (R243 to R246, R351, R355), and the
copy-on-write break of a warp (R348, R349). -/

namespace Sys2Proof.Machine

open Sys2Proof

/-! ### What a page may not be -/

/-- A physical frame backs the spill area of a live region. -/
def spillFrame (s : State) (f : Nat) : Bool :=
  s.regions.any fun e => e.2.live && (framesOf s e.2.tag e.2.spill e.2.spillLen).any fun p =>
    match p with
    | some (_, g) => g == f
    | none => false

/-- A frame is watched, or part of a spill area. -/
def watchedFrame (s : State) (f : Nat) : Bool := (frameMap s f).isSome || spillFrame s f

/-- A frame meets an accumulation region. -/
def regionFrame (s : State) (f n : Nat) : Bool := s.accCopy.any fun e => e.start < f + n && f < e.start + e.len

/-- Any 64 KiB frame of a page satisfies a test. -/
def anyFrame (pa size : Nat) (p : Nat → Bool) : Bool := (List.range (size / 65536)).any fun i => p (pa + 65536 * i)

/-- A status that the manual does not name, as a free value (log 29). -/
def freeStatus (s : State) (x : Issue) (d : Operand) : Res :=
  let (t, s) := s.draw
  .done (status s x d (Config.freeStatus t).toNat)

/-! ### pgref (R243, R347) -/

/-- pgref. -/
def execPgref (p : Pr) (free : Bool) (d a b : Operand) (s : State) : Host.Outcome State Fault Refusal :=
  run (.pgref p free d a b) s fun x s =>
    let pa := (sc64v s x a).toNat
    match (if pa < 2 ^ 52 then frameIdx s pa else none) with
    | none => .done (status s x d 0x80000002)
    | some i =>
      let e := ftGet s i
      let n : Int := ftCount e + (BitVec.ofNat 32 (sc32 s x b)).toInt
      if ftFree e then .done (status s x d 0x80000003)
      else if n < 0 || 16777215 < n then .done (status s x d 0x80000001)
      else
        let s := ftPut s i (setField e 23 0 n.toNat)
        .done (status (if free && n == 0 then pushFrame s i else s) x d n.toNat)

/-! ### pgcow (R244) -/

/-- A leaf that pgcow may mark, where it is covered whole. -/
def cowable (s : State) (e : BitVec 64) (level : Nat) : Bool :=
  !bit e 7 && (2 ≤ pteTier e ||
    (!anyFrame (ptePa e) (pageSize level) (watchedFrame s) && spaceOf s (ptePa e) != .view
      && !regionFrame s (ptePa e) (pageSize level)))

/-- Mark pages from an address: how many 64 KiB pages were marked, and whether marking stopped early. -/
def markCow (s : State) (t : Tag) : Nat → Addr → Nat → Nat → Nat × Bool × State
  | 0, _, _, done => (done, false, s)
  | fuel + 1, va, left, done =>
    if left == 0 then (done, false, s)
    else
      match walk s t va with
      | .leaf e addr level =>
        let n := pageSize level / 65536
        if va.toNat % pageSize level != 0 || left < n || !cowable s e level then (done, true, s)
        else
          let s := tlbDropPage (putPte s addr (setField e.toNat 6 6 1)) t va
          markCow s t fuel (va + BitVec.ofNat 64 (pageSize level)) (left - n) (done + n)
      | _ => (done, true, s)

/-- A request on its way to a page of a range. -/
def openInRange (s : State) (t : Tag) (va : Addr) (pages : Nat) : Bool :=
  s.reqs.any fun e => e.2.ctx == t && e.2.underWay && e.2.accs.any fun a =>
    va.toNat ≤ a.va.toNat && a.va.toNat < va.toNat + 65536 * pages

/-- pgcow: it waits for the accesses that translated before it (R242). -/
def execPgcow (p : Pr) (d a b c : Operand) (s : State) : Host.Outcome State Fault Refusal :=
  run (.pgcow p d a b c) s fun x s =>
    let va := sc64v s x a
    let n := sc32 s x b
    let t := tag32 s x c
    if openInRange s t va n then .hold .other s
    else
      let (k, early, s) := markCow s t n va n 0
      .done (status s x d (k % 2 ^ 31 + (if early then 2 ^ 31 else 0)))

/-! ### pgtwin (R245, R351) -/

/-- The lowest free entry of TWINTAB. -/
def freeTwin (s : State) : Option Nat :=
  if !bit s.sup.twintab 0 then none
  else (List.range (twinCount s)).find? fun i => coherentNat s (twinAddr s i) 1 % 2 == 0

/-- Make a page a twin. -/
def makeTwin (s : State) (t : Tag) (va : Addr) (e : BitVec 64) (addr i set shadow : Nat) : State :=
  let x := 1 + 2 ^ 4 * set + 2 ^ 16 * t.toNat + 2 ^ 64 * va.toNat + 2 ^ 128 * ptePa e + 2 ^ 192 * shadow
  let s := ftFlag (twinPut s i x) shadow 29 true
  tlbDropPage (putPte s addr (setField (setField e.toNat 51 8 i) 7 7 1)) t va

/-- Remove a twin, which keeps its selected frame. -/
def dropTwin (s : State) (t : Tag) (va : Addr) (e : BitVec 64) (addr : Nat) : State :=
  let i := bits e 23 8
  let f := leafFrame s e false
  let s := ftFlag (putPte s addr (setField (setField e.toNat 51 8 (f / 256)) 7 7 0)) (leafFrame s e true) 29 false
  tlbDropPage (twinPut s i (setField (twinGet s i) 0 0 0)) t va

/-- pgtwin. -/
def execPgtwin (p : Pr) (d a b c : Operand) (s : State) : Host.Outcome State Fault Refusal :=
  run (.pgtwin p d a b c) s fun x s =>
    let va := sc64v s x a
    let shadow := (sc64v s x b).toNat
    let set := sc32 s x c
    let t := s.sup.ctxsel
    if 63 < set then .done (status s x d 0x80000004)
    else
      match walk s t va with
      | .leaf e addr level =>
        let f := leafPa s e level va false / 65536 * 65536
        if bit e 6 then .done (status s x d 0x80000001)
        else if pteTier e < 2 && watchedFrame s f then .done (status s x d 0x80000002)
        else if level != 4 || pteTier e != 0 || !inHbm s f || va.toNat % 65536 != 0 then freeStatus s x d
        else if bit e 7 then
          if shadow == 0 then .done (status (dropTwin s t va e addr) x d 0) else freeStatus s x d
        else if shadow == 0 || shadow % 65536 != 0 || !inHbm s shadow then freeStatus s x d
        else
          match freeTwin s with
          | none => .done (status s x d 0x80000003)
          | some i =>
            if 512 ≤ (twinsOf s t set).length then .done (status s x d 0x80000003)
            else .done (status (makeTwin s t va e addr i set shadow) x d 0)
      | _ => freeStatus s x d

/-! ### pgmig (R246, R355) -/

/-- A migration descriptor. -/
abbrev MigDesc := BitVec 512

def MigDesc.va (d : MigDesc) : Addr := d.extractLsb' 0 64
def MigDesc.tag (d : MigDesc) : Tag := d.extractLsb' 64 16
def MigDesc.tier (d : MigDesc) : Nat := bits d 97 96
def MigDesc.nvq (d : MigDesc) : Nat := bits d 107 100
def MigDesc.arr (d : MigDesc) : Nat := bits d 127 108
def MigDesc.frame (d : MigDesc) : Nat := bits d 191 128
def MigDesc.lba (d : MigDesc) : Nat := bits d 255 192
def MigDesc.shadow (d : MigDesc) : Nat := bits d 319 256

/-- A migration of a page is under way. -/
def moving (s : State) (t : Tag) (va : Addr) : Bool :=
  s.migs.any fun e => e.2.tag == t && e.2.va.toNat / 65536 == va.toNat / 65536

/-- A malformed descriptor, as far as it shows by itself. -/
def MigDesc.bad (d : MigDesc) : Bool :=
  bits d 511 320 != 0 || bits d 99 98 != 0 || bits d 95 80 != 0 || d.tier == 3 || bits d 255 236 != 0
    || d.frame % 65536 != 0 || d.va.toNat % 65536 != 0

/-- Take `n` frames of a die's list, lowest first; none where it holds too few. -/
def takeFrames (s : State) (d : Nat) : Nat → Option (List Nat × State)
  | 0 => some ([], s)
  | n + 1 =>
    match takeFrame s d with
    | none => none
    | some (i, s) => (takeFrames s d n).map fun p => (framePa s i :: p.1, p.2)

/-- The frames that a move reads or writes; a page on flash, or absent, has none before it, nor has one that goes to flash
after it. -/
def Mig.frames (m : Mig) : List Nat :=
  (if pteTier m.oldPte < 2 then [m.src] else []) ++ (if m.tier < 2 then [m.frame] else [])
    ++ if m.twin.isSome then [m.srcShadow, m.shadow] else []

/-- Set or clear MOV of those that lie in HBM. -/
def markMov (s : State) (m : Mig) (on : Bool) : State :=
  m.frames.foldl (fun s f => if inHbm s f then ftFlag s f 30 on else s) s

/-- Start a migration: the entry reads absent, frames are marked, translations and copies go (steps 1 to 3). -/
def startMig (s : State) (m : Mig) (addr : Nat) : State :=
  let s := markMov (putPte s addr (setField m.oldPte.toNat 53 52 3)) m true
  let s := tlbDropPage s m.tag m.va
  let s := if pteTier m.oldPte < 2 then flushFrame s m.src else s
  let s := if m.twin.isSome then flushFrame s m.srcShadow else s
  let (k, s) := s.fresh
  { s with migs := sInsert s.migs k m }

/-- pgmig. -/
def execPgmig (p : Pr) (d a : Operand) (s : State) : Host.Outcome State Fault Refusal :=
  run (.pgmig p d a) s fun x s =>
    if heldBack s x.w true then .hold .other s else
    match readVirt s (.warp x.w) (tagOf s x.w) (isSup x.w) (sc64v s x a) 64 with
    | (.error (0, _), s) => .hold .other s
    | (.error (c, va), s) => laneFaults x s c va
    | (.ok bs, s) =>
      let g : MigDesc := BitVec.ofNat 512 (ofBytes bs)
      match arrFault s [x.gid] g.arr with
      | some c => laneFaults x s c (BitVec.ofNat 64 g.arr)
      | none =>
        if g.bad then .done (status s x d 0x80000005)
        else if moving s g.tag g.va then .done (status s x d 0x80000004)
        else
          match walk s g.tag g.va with
          | .leaf e addr level =>
            let twin := bit e 7
            let src := if pteTier e < 2 then leafPa s e level g.va false / 65536 * 65536 else 0
            let srcShadow := if twin then leafFrame s e true else 0
            let die := if pteTier e < 2 && inHbm s src then dieOfPa src else dieOf (cuOf x.gid)
            let counted (f : Nat) : Bool := match frameIdx s f with | some i => 1 < ftCount (ftGet s i) | none => false
            if twin && g.tier != 0 then .done (status s x d 0x80000005)
            else if pteTier e < 2 && watchedFrame s src then .done (status s x d 0x80000001)
            else if pteTier e < 2 && (counted src || (twin && counted srcShadow)) then .done (status s x d 0x80000002)
            else if level != 4 then freeStatus s x d
            else if openOnPage s g.tag g.va none true then .hold .other s
            else if pteTier e < 2 && (farHolds s src 65536 || (twin && farHolds s srcShadow 65536)) then
              .hold .other (farAsk (farAsk s src 65536) srcShadow 65536)
            else
              let first := g.tier == 0 && g.frame == 0
              let second := twin && g.shadow == 0
              match takeFrames s die ((if first then 1 else 0) + (if second then 1 else 0)) with
              | none => .done (status s x d 0x80000003)
              | some (fs, s) =>
                let frame := if first then fs.headD 0 else g.frame
                let shadow := if second then fs.getLastD 0 else g.shadow
                let m : Mig :=
                  { tag := g.tag, va := g.va, oldPte := e, tier := g.tier, frame := frame, shadow := shadow, lba := g.lba,
                    nvq := g.nvq, twin := if twin then some (bits e 23 8) else none, src := src, srcShadow := srcShadow,
                    arr := some (x.w, g.arr), launch := none }
                .done (status (startMig s m addr) x d 0)
          | _ => .done (status s x d 0x80000006)

/-- The bytes of a page reach its destination (step 4). -/
def moveBytes (s : State) (m : Mig) (bytes : List Byte) : State :=
  if m.tier == 2 then s
  else if pteTier m.oldPte == 3 then
    let s := fillPage s m.frame []
    if m.twin.isSome then fillPage s m.shadow [] else s
  else if pteTier m.oldPte == 2 then fillPage s m.frame bytes
  else
    let s := copyPage s m.src m.frame
    if m.twin.isSome then copyPage s m.srcShadow m.shadow else s

/-- The entry, or the TWINTAB entry, names the destination (step 5). -/
def installMig (s : State) (m : Mig) (addr : Nat) : State :=
  match m.twin with
  | some i =>
    let e := twinGet s i
    let (a, b) := if field e 1 1 == 0 then (m.frame, m.shadow) else (m.shadow, m.frame)
    let s := twinPut s i (setField (setField e 191 128 a) 255 192 b)
    putPte (ftFlag s m.shadow 29 true) addr (setField m.oldPte.toNat 53 52 0)
  | none =>
    putPte s addr (setField (setField m.oldPte.toNat 51 8 (if m.tier == 2 then m.lba else m.frame / 256)) 53 52 m.tier)

/-- Counts and lists after a move (step 6). -/
def settleFrames (s : State) (m : Mig) : State :=
  let dst := (if m.tier == 0 then [m.frame] else []) ++ (if m.twin.isSome then [m.shadow] else [])
  let src := (if pteTier m.oldPte < 2 then [m.src] else []) ++ (if m.twin.isSome then [m.srcShadow] else [])
  let s := dst.foldl (fun s f =>
    match frameIdx s f with
    | some i => ftPut s i (setField (setField (setField (ftGet s i) 23 0 1) 63 48 m.tag.toNat) 30 30 0)
    | none => s) s
  (src.filter fun f => inHbm s f).foldl (fun s f =>
    match frameIdx s f with
    | some i => pushFrame (ftPut s i (setField (setField (setField (ftGet s i) 23 0 0) 30 30 0) 29 29 0)) i
    | none => s) s

/-- Bytes that a move credits. -/
def Mig.size (m : Mig) : Nat := if m.twin.isSome then 131072 else 65536

/-- The credit of a move waits while a matrix operation holds the arrival word (R223). -/
def Mig.waits (s : State) (m : Mig) : Bool := match m.arr with | some (w, a) => arrHeld s (gidOf w) a | none => false

/-- A move ends without its bytes: no frame is marked any more, and the bytes are credited with ERR (R355). -/
def dropMig (s : State) (m : Mig) : State :=
  let s := markMov s m false
  match m.arr with
  | some (w, a) => credit s (gidOf w) a m.size true
  | none => s

/-- MIGRATION_COMPLETE: steps 4 to 7. One whose entry has been changed meanwhile is abandoned (R344, log 86). -/
def execMigrationComplete (k : Nat) (bytes : List Byte) (s : State) : Host.Outcome State Fault Refusal :=
  match sFind? s.migs k with
  | none => .next s
  | some m =>
    if m.waits s then .next s else
    let s := { s with migs := sErase s.migs k }
    match walk s m.tag m.va with
    | .leaf e addr _ =>
      if e.toNat != setField m.oldPte.toNat 53 52 3 then .next (dropMig s m)
      else
        let s := settleFrames (installMig (moveBytes s m bytes) m addr) m
        .next (match m.arr with | some (w, a) => credit s (gidOf w) a m.size false | none => s)
    | _ => .next (dropMig s m)

/-- MIGRATION_ERROR: the page stays absent, and the bytes are credited with ERR. -/
def execMigrationError (k : Nat) (s : State) : Host.Outcome State Fault Refusal :=
  match sFind? s.migs k with
  | none => .next s
  | some m =>
    if m.waits s then .next s else
    .next (dropMig (violate { s with migs := sErase s.migs k } 6 0x15 m.tag m.va.toNat noSrc) m)

/-! ### The copy-on-write break of a warp (R348, R349) -/

/-- The break of a page has ended. -/
def Cow.ended (c : Cow) (p : CowPage) (ok : Bool) : Cow :=
  { c with pages := c.pages.map fun q => if q == p then { q with ends := some ok } else q }

/-- COPY_ON_WRITE_BREAK: the break of the first page that a warp still waits for runs, or cannot. -/
def execCopyOnWriteBreak (w : WarpId) (s : State) : Host.Outcome State Fault Refusal :=
  match s.warp? w with
  | none => .next s
  | some x =>
    match x.cow.bind fun c => (c.pages.find? fun p => p.ends.isNone).map fun p => (c, p) with
    | none => .next s
    | some (c, p) =>
      match breakPage s x.tag p.va none (some p.pte) with
      | .wait => .next s
      | .done s => .next (s.modWarp w fun y => { y with cow := some (c.ended p true) })
      | .noFrame => .next (s.modWarp w fun y => { y with cow := some (c.ended p false) })

/-- No page of the lanes could be broken, so that cause 0x12 is raised in them. A page that could be lets its lanes go on first; the
others then meet their breaks again (R349). -/
def Cow.stuck (c : Cow) : Bool := !c.pages.isEmpty && c.pages.all fun p => p.ends == some false

/-- COW_REPLAY: the lanes execute their instruction again, or trap with cause 0x12, once a trap of other lanes has been handled. -/
def execCowReplay (w : WarpId) (s : State) : Host.Outcome State Fault Refusal :=
  match s.warp? w with
  | none => .next s
  | some x =>
    match x.cow with
    | none => .next s
    | some c =>
      if c.pages.any (fun p => p.ends.isNone) || (c.stuck && x.halt.isSome) then .next s
      else
        let s := s.setWarp w { x with cow := none, hold := .none, heldSet := 0 }
        if !c.stuck then .next s
        else
          .next (takeTrap s w
            { cause := 0x12, addr := (c.pages.head?.map CowPage.va).getD 0, code := 0, lanes := c.lanes, async := false, inrep := x.rep.act, brk := false,
              defl := none, data := [], addr0 := c.pc, next := some c.next, queued := false })

end Sys2Proof.Machine
end

