-- ==== Sys2Proof/Machine/Issue.lean ====
section
/-! DEFINITION. What happens before an instruction's meaning when a warp issues: rotation, pending traps, the issue
address and set (R18), fetching and decoding (R43, R44, R63), repeats under way (R34, R76), and the passing of time
(R15). -/

namespace Sys2Proof.Machine

open Sys2Proof

/-- What an issue comes to: over, or an instruction to execute with `cur` set. -/
inductive Prep
  | over (s : State)
  | run (i : Instr) (s : State)

/-- A warp may be chosen to issue (R79, R298): it did not issue in this fc or the one before, and a warp of its quadrant
that is halted for trap service counts as one without an eligible lane (log 61). -/
def canIssue (s : State) (w : WarpId) (x : Warp) : Bool :=
  !x.exited
    && (x.exitNow || (!x.asyncs.isEmpty && x.halt.isNone && x.cow.isNone)
      || ((x.lastIssue == 0 || x.lastIssue < s.fc) && x.halt.isNone && x.hold != .idle && x.cow.isNone && !x.stopped && x.counted != 0
        && (x.hold != .parked || (x.inState .ld ||| x.inState .fe) &&& x.heldSet == 0)
        && (!x.preempt || s.cpq.any fun q => q.reply == some w)
        && (x.noIssueUntil == 0 || x.noIssueUntil ≤ s.fc
          || s.order.all fun v => v == w || (s.warp? v).all fun y =>
              gidOf v / 32 != gidOf w / 32 || y.quad != x.quad || y.eligible == 0 || y.halt.isSome)))
    && !((s.group? (gidOf w)).all fun g => g.waitPeers)
    && (isSup w || !s.host.dead.contains (dieOf (cuOf (gidOf w))))

/-- A warp is held at an instruction that has not been issued: by R20, by wait or bar, by a full queue, or by another wait that
comes before an effect (R298). -/
def Warp.heldUp (x : Warp) : Bool := x.cow.isNone && (x.hold == .chan || x.hold == .bar || x.hold == .parked || x.hold == .other)

/-- After its turn a warp stands at the end of the rotation (R298). -/
def toEnd (s : State) (w : WarpId) : State :=
  { s with order := (s.order.filter fun v => v != w) ++ s.order.filter fun v => v == w }

/-- A warp's turn is over: where it issued, it stands at the end of the rotation and issues no more in the next fc; where it is
held, it did not issue (R298). -/
def turnOver (s : State) (w : WarpId) : State :=
  if (s.warp? w).any Warp.heldUp then s else toEnd (s.modWarp w fun x => { x with lastIssue := s.fc + 1 }) w

/-- Trap at the issue address, for the whole issue set (R44, R63, R70). -/
def trapAt (s : State) (c : Cur) (cause : Nat) (inrep : Bool) : Prep :=
  .over (takeTrap s c.w (syncTrap c cause c.pc c.set inrep))

/-- Decode the instruction whose fields have been read, and run it. -/
def decoded (s : State) (c : Cur) (r : Raw) (inrep : Bool) : Prep :=
  match decodeRaw r with
  | .ok i => .run i { s with cur := some c }
  | .error _ => trapAt s c 0x01 inrep

/-- A fetch that waits: a stalled instruction keeps its hold on the issue slot (R20). -/
def fetchHold (s : State) (w : WarpId) : State :=
  s.modWarp w fun x => if x.heldSet != 0 && x.hold != .parked then x else { x with hold := .other, heldSet := 0 }

/-- Issue at an address for a set of lanes. -/
def issueAt (s : State) (w : WarpId) (pc : Addr) (set : Mask) : Prep :=
  match fetchAt s w pc with
  | (.wait, s) => .over (fetchHold s w)
  | (.fault c, s) => trapAt s ⟨w, set, pc, pc, true⟩ c false
  | (.bytes bs, s) =>
    if straddles pc bs then trapAt s ⟨w, set, pc, pc, true⟩ 0x03 false
    else
      match Raw.read bs with
      | .error _ => trapAt s ⟨w, set, pc, pc, true⟩ 0x01 false
      | .ok r => decoded s ⟨w, set, pc, after pc (lenBytes r.len), false⟩ r false

/-- Go on with a repeat: the rpt and its target are fetched again, and repetition DONE is issued (R34, R76). -/
def issueRep (s : State) (w : WarpId) (x : Warp) : Prep :=
  let set := x.rep.only.getD x.rep.set
  let ra := ((lanesOf x.rep.set).head?.map x.vpc).getD 0
  let ta := after ra 8
  match fetchAt s w ra with
  | (.wait, s) => .over (fetchHold s w)
  | (.fault c, s) => trapAt s ⟨w, set, ra, ra, true⟩ c true
  | (.bytes bs, s) =>
    match (Raw.read bs).toOption.bind fun r => (decodeRaw r).toOption, (Raw.read (bs.drop 8)).toOption with
    | some (.rpt _ sd sa sb sc), some t =>
      let c : Cur := ⟨w, set, ta, after ta (lenBytes t.len), false⟩
      match stepRaw t sd sa sb sc x.rep.done with
      | some r => decoded s c r true
      | none => trapAt s c 0x01 true
    | _, _ => trapAt s ⟨w, set, ra, ra, true⟩ 0x01 true

/-- A warp stands at a breakpoint that it has not passed (R283). -/
def atBreak (s : State) (w : WarpId) (x : Warp) : Bool :=
  (s.dbg.breaks.any fun b => some b.2.1 == x.issueAddr && b.2.2 == (cuOf (gidOf w), x.tag))
    && !(s.dbg.passing.any fun p => p.1 == w && some p.2 == x.issueAddr)

/-- A warp that has left the address of its stop passes nothing any more. -/
def leaveStop (s : State) (w : WarpId) (x : Warp) : State :=
  if s.dbg.passing.isEmpty then s
  else { s with dbg := { s.dbg with passing := s.dbg.passing.filter fun p => p.1 != w || some p.2 == x.issueAddr } }

/-- The warp as it stands for its next issue: one that is held keeps its instruction, and spin rotation has its turn at any
other boundary (R23). -/
def Warp.atTurn (x : Warp) : Warp :=
  if x.hold != .none && x.hold != .parked && x.heldSet != 0 then x else spinTurn x

/-- AN ISSUE OF A WARP: what is due at its boundary first, else the instruction at its issue address (R18). -/
def prepare (s : State) (w : WarpId) : Prep :=
  match s.warp? w with
  | none => .over s
  | some x =>
    let s := leaveStop s w x
    if !canIssue s w x then .over s
    else
      let held := x.hold != .none && x.hold != .parked && x.heldSet != 0
      let y := x.atTurn
      if x.exitNow then .over (exitLanes (s.modWarp w fun x => { x with exitNow := false, halt := none }) w x.alive 0)
      else if !x.asyncs.isEmpty then .over (s.push (.asyncTrap w))
      else if atBreak s w y then .over (s.push (.dbgBreakpointStop w))
      else if x.rep.act then issueRep s w x
      else if held then issueAt s w (((lanesOf x.heldSet).head?.map x.vpc).getD 0) x.heldSet
      else
        let s := if y == x then s else s.setWarp w y
        match y.issueAddr with
        | none => .over s
        | some pc => issueAt s w pc (y.issueSet pc)

/-- birfdb keeps a context's deadline: a warp of it is stopped or steps (R283), or its triggers are held and none of its warps
can issue (R400). -/
def dbgPauses (s : State) (t : Tag) : Bool :=
  (s.warps.any fun e => e.2.tag == t && e.2.stopped)
    || (s.dbg.stepping.any fun p => (s.warp? p.1).any fun x => x.tag == t)
    || ((s.dbg.trigHolds.any fun h => h.2 == t) && !(s.warps.any fun e => e.2.tag == t && !e.2.heldUp && canIssue s e.1 e.2))

/-- A context's deadline counts: it has a launch that is not complete, it is switched in, and birfdb does not keep it
(R304). -/
def counting (s : State) (t : Tag) (c : Ctx) : Bool :=
  !c.out && (s.launches.any fun e => e.2.tag == t) && !dbgPauses s t

/-- The deadlines count down; one that reaches zero with EN set overruns (R304). -/
def countDown (s : State) (n : Nat) : State :=
  s.ctxs.foldl (fun s e =>
    let t : Tag := BitVec.ofNat 16 e.1
    let r := bits e.2.deadline 47 0
    if !counting s t e.2 || r == 0 then s
    else
      let d := BitVec.ofNat 64 (bits e.2.deadline 63 48 * 2 ^ 48 + (r - n))
      let s := s.setCtx t { e.2 with deadline := d }
      if r ≤ n && bit e.2.deadline 63 then s.push (.deadlineOverrun t) else s) s

/-- A violation-log entry as the mirror holds it (R442). -/
def violNat (v : Viol) : Nat :=
  v.src % 2 ^ 13 * 2 ^ 83 + v.kind % 2 ^ 8 * 2 ^ 96 + v.cause % 2 ^ 8 * 2 ^ 104 + v.tag.toNat * 2 ^ 112 + v.addr % 2 ^ 64 * 2 ^ 128
    + v.fc % 2 ^ 64 * 2 ^ 192

/-- New entries of the violation log enter the mirror, then its PUT (R442). -/
def mirrorLog (s : State) : State :=
  match s.sup.vlogBase with
  | none => s
  | some base =>
    if s.sup.vmir == s.sup.vput then s
    else
      let first := s.sup.vput - s.sup.vlog.length
      let s' := (s.sup.vlog.zipIdx).foldl (fun s e =>
        if s.sup.vmir ≤ first + e.2 then rawWriteNat s (base + 64 + 32 * ((first + e.2) % 4096)) (violNat e.1) 32 else s) s
      let s' := rawWriteNat s' base s.sup.vput 8
      { s' with sup := { s'.sup with vmir := s.sup.vput } }

/-- Exchanges of the task queues become due, and are the next moves (R295). -/
def dueExchanges : Nat → State → State
  | 0, s => s
  | k + 1, s => dueExchanges k ({ s with exch := s.exch + 1 }.push .balanceExchange)

/-- Time passes: a step takes one fc or more (R15, log 2). At every 256 fc the task queues are averaged (R295). -/
def passTime (s : State) : State :=
  let n := 1 + Config.stepFc s.tick
  let s' := countDown (mirrorLog { s with fc := s.fc + n, tick := s.tick + 1 }) n
  if s.cus.all fun e => e.2.queue.isEmpty then s' else dueExchanges ((s.fc + n) / 256 - s.fc / 256) s'

/-- The host writes memory directly, as an access of its own at the homes (R8, log 1). -/
def hostStore (s : State) (pa : Nat) (bs : List Byte) : State :=
  let s := purgeRange s (pa / 4 * 4) (bs.length + 4)
  commit s (bs.zipIdx.map fun e => (pa + e.2, e.1)) (some 0) Writer.plain

/-! ### Placing a program (log 8) -/

/-- A task type with every resource a group can have and one warp of 64 lanes. -/
def placedType : TaskType :=
  { nwarp := 1, width := 15, nreg := 15, tiles := 8, chan := 16, scr := 256, entry := 0x10000 }

/-- A group of that type on CU 0, of context 1. -/
def placedGroup : Group :=
  { launch := 0, index := 0, tt := 0, ty := placedType, tag := 1, seed := 0, scr := [], padPoison := [], full := [], tiles := [],
    poison := [], chans := [], reserved := [], held := [], slot := 0, vrBase := 0, scrBase := 0, tileBase := 0,
    chanBase := 0, places := [0], trig := none, failed := false, abortTaken := false, cluster := none, peer := 0,
    waitPeers := false, errs := [], home := 0,
    retired := false, progress := [], out := false }

/-- A state in which the next step issues the instruction whose bytes are given: a warp of context 1, whose translation is enabled,
stands at 0x10000, a page that its CU's TLB maps onto the frame at 0x10000, and the bytes lie there. -/
def placeInstr (s : State) (bs : List Byte) : State :=
  { s with
    agenda := [.issue 0], cur := none, order := [0],
    warps := sInsert s.warps 0 (Warp.start 64 0x10000 1 0 0),
    groups := sInsert s.groups 0 placedGroup,
    ctxs := sInsert s.ctxs 1 { s.ctx 1 with ptbase := (s.ctx 1).ptbase ||| 1 },
    cus := s.cus.map fun e => if e.1 == 0 then (0, { e.2 with ic := sErase e.2.ic 0x800 }) else e,
    tlbs := ⟨0, 1, 1, 65536, 0x1001F⟩ :: s.tlbs,
    mem := { s.mem with
      bytes := bs.zipIdx.foldl (fun m e => sSet 0 m (0x10000 + e.2) e.1) s.mem.bytes,
      msc := bs.zipIdx.foldl (fun m e => sErase m (0x10000 + e.2)) s.mem.msc,
      l2 := bs.zipIdx.foldl (fun m e => sErase m (0x10000 + e.2)) s.mem.l2,
      dir := bs.zipIdx.foldl (fun m e => sErase m ((0x10000 + e.2) / 4)) s.mem.dir } }

end Sys2Proof.Machine
end

