-- ==== Sys2Proof/Machine/Launch.lean ====
section
/-! DEFINITION. Launch records and the command processor (R239, R285 to R289), enq (R240), staging (R356), task queues
and dispatch (R290 to R297), retirement and completion (R11, R289), deadlines (R304), traps on their way to handlers (R229,
R230). -/

namespace Sys2Proof.Machine

open Sys2Proof

/-! ### Launch records (R285, R286) -/

/-- The header of a record. -/
abbrev RecHdr := BitVec 1024

def RecHdr.ntt (h : RecHdr) : Nat := bits h 26 22 + 1
def RecHdr.nws (h : RecHdr) : Nat := bits h 47 40
def RecHdr.side (h : RecHdr) : Nat := 2 ^ bits h 21 20
def RecHdr.w (h : RecHdr) : Nat := bits h 15 10 + 1
def RecHdr.h' (h : RecHdr) : Nat := bits h 19 16 + 1
def RecHdr.x0 (h : RecHdr) : Nat := bits h 5 0
def RecHdr.y0 (h : RecHdr) : Nat := bits h 9 6
def RecHdr.spl (h : RecHdr) : Nat := bits h 39 36
def RecHdr.argn (h : RecHdr) : Nat := bits h 35 32
def RecHdr.inittt (h : RecHdr) : Nat := bits h 31 27
def RecHdr.dlcyc (h : RecHdr) : Nat := bits h 175 128
def RecHdr.barreq (h : RecHdr) : BitVec 64 := h.extractLsb' 192 64
def RecHdr.cwaddr (h : RecHdr) : Addr := h.extractLsb' 512 64
def RecHdr.arg (h : RecHdr) (i : Nat) : Word := h.extractLsb' (256 + 32 * i) 32

/-- Bytes of the record. -/
def RecHdr.len (h : RecHdr) : Nat := 128 + 16 * h.ntt + 16 * h.nws

/-- The header at the head of some bytes. -/
def hdrOf (bs : List Byte) : RecHdr := BitVec.ofNat 1024 (ofBytes (bs.take 128))

/-- Entry `i` of 16 bytes after an offset. -/
def entryAt (bs : List Byte) (base i : Nat) : BitVec 128 := BitVec.ofNat 128 (ofBytes ((bs.drop (base + 16 * i)).take 16))

/-- A task-type entry. -/
def taskOf (e : BitVec 128) : TaskType :=
  { nwarp := bits e 96 93 + 1, width := bits e 92 89, nreg := bits e 88 85, tiles := bits e 84 81, chan := bits e 80 76,
    scr := bits e 75 64, entry := e.extractLsb' 0 64 }

/-- A task-type entry is within its ranges. -/
def taskOk (spl : Nat) (e : BitVec 128) : Bool :=
  let t := taskOf e
  bits e 127 97 == 0 && t.tiles ≤ 8 && t.chan ≤ 16 && t.scr ≤ 2816 && 256 * t.scr ≤ spl * 65536
    && t.entry.toNat % 4 == 0 && legalVa t.entry

/-- A working-set entry is well formed. -/
def wsOk (e : BitVec 128) : Bool := bits e 127 97 == 0 && bits e 63 0 % 65536 == 0 && bits e 95 64 != 0

/-- The CUs of a rectangle, in row-major order. -/
def rectCus (x0 y0 w h : Nat) : List CuId := (List.range (w * h)).map fun k => cuAt (x0 + k % w) (y0 + k / w)

/-- The record is accepted for a context (R286). -/
def recordOk (s : State) (tag : Tag) (bs : List Byte) : Bool :=
  let h := hdrOf bs
  bits h 1023 576 == 0 && bits h 191 176 == 0 && bits h 127 48 == 0
    && h.x0 + h.w ≤ 48 && h.y0 + h.h' ≤ 16
    && h.x0 % h.side == 0 && h.y0 % h.side == 0 && h.w % h.side == 0 && h.h' % h.side == 0
    && h.inittt < h.ntt && h.argn ≤ 8 && h.spl ≤ 11 && h.dlcyc != 0 && h.cwaddr.toNat % 4 == 0
    && !((rectCus h.x0 h.y0 h.w h.h').any fun c => s.host.dead.contains (dieOf c))
    && ((List.range h.ntt).all fun i => taskOk h.spl (entryAt bs 128 i))
    && ((List.range h.nws).all fun i => wsOk (entryAt bs (128 + 16 * h.ntt) i))
    && (List.range 64).all fun b => !bit h.barreq b || (match (s.bar b).owner with | none => true | some t => t == tag)

/-! ### Acceptance (R287, R288) -/

/-- The next launch identifier. -/
def nextLaunch (s : State) : Nat := if s.launchId == 0xFFFFFF then 1 else s.launchId + 1

/-- The context's deadline grows and can overrun (R287). -/
def addDeadline (s : State) (t : Tag) (n : Nat) : State :=
  s.modCtx t fun c =>
    { c with deadline := BitVec.ofNat 64 (2 ^ 63 + bits c.deadline 62 62 * 2 ^ 62 + min (bits c.deadline 47 0 + n) (2 ^ 48 - 1)) }

/-- Allot package barriers to a context, for a launch. -/
def allotBars (s : State) (t : Tag) (l : Nat) (req : BitVec 64) : State :=
  ((List.range 64).filter fun b => bit req b).foldl (fun s b =>
    s.setBar b { s.bar b with owner := some t, launches := (s.bar b).launches ++ [l] }) s

/-- A group is a member of a barrier from now on. -/
def joinBar (s : State) (n : GName) (k : Nat) : State :=
  if (s.bar k).members.contains n then s else s.setBar k { s.bar k with members := (s.bar k).members ++ [n] }

/-- Make a cluster. -/
def addCluster (s : State) (l side x y : Nat) : Nat × State :=
  let (k, s) := s.fresh
  (k, { s with clusters := sInsert s.clusters k ⟨l, side, x, y, []⟩ })

/-- The linked entries of one cluster, row-major from its origin, with the groups' barriers (R288, R293). -/
def clusterTasks (s : State) (l : Nat) (h : RecHdr) (x y : Nat) : List (CuId × Task) × State :=
  let n := h.side
  let (k, s) := addCluster s l n x y
  let args := (List.range h.argn).map h.arg
  let cs := rectCus x y n n
  let index (c : CuId) : Nat := (cuY c - h.y0) * h.w + (cuX c - h.x0)
  let ts := cs.map fun c => (c, ({ launch := l, tt := h.inittt, args := args, index := index c, kind := .linked k, member := true } : Task))
  let s := cs.foldl (fun s c =>
    let s := ((List.range 64).filter fun b => bit h.barreq b).foldl (fun s b => joinBar s ⟨l, index c⟩ b) s
    (List.range 16).foldl (fun s b => joinBar s ⟨l, index c⟩ (64 + 16 * k + b)) s) s
  (ts, s)

/-- The initial entries of a launch, cluster by cluster in row-major order. -/
def initialTasks (s : State) (l : Nat) (h : RecHdr) : List (List (CuId × Task)) × State :=
  let n := h.side
  (List.range (h.w / n * (h.h' / n))).foldl (fun (p : List (List (CuId × Task)) × State) i =>
    let r := clusterTasks p.2 l h (h.x0 + n * (i % (h.w / n))) (h.y0 + n * (i / (h.w / n)))
    (p.1 ++ [r.1], r.2)) ([], s)

/-- Two launches share CUs. -/
def Launch.meets (a b : Launch) : Bool :=
  a.x0 < b.x0 + b.w && b.x0 < a.x0 + a.w && a.y0 < b.y0 + b.h && b.y0 < a.y0 + a.h

/-- Two contexts share CUs through their incomplete launches. -/
def shareCus (s : State) (t u : Tag) : Bool :=
  t != u && s.launches.any fun e => e.2.tag == t && s.launches.any fun f => f.2.tag == u && e.2.meets f.2

/-- A context has an incomplete launch. -/
def hasLaunch (s : State) (t : Tag) : Bool := s.launches.any fun e => e.2.tag == t

/-- A context's first launch begins its turn, or waits for it where another context has its turn on shared CUs (R306; log
62). -/
def beginTurn (s : State) (t : Tag) : State :=
  let busy := s.launches.any fun e => shareCus s t e.2.tag && !(s.ctx e.2.tag).out
  s.modCtx t fun c => if busy then { c with out := true } else { c with out := false, turn := s.fc }

/-- Append an accepted record to the context's record area (R445). An area that is too small ends recording. -/
def recordLaunch (s : State) (t : Tag) (bs : List Byte) : State :=
  let c := s.ctx t
  if !c.recording then s
  else if c.recSize < c.recPut + 8 + bs.length then s.setCtx t { c with recording := false, recPut := c.recSize + 1 }
  else (rawWrite s (c.recBase + c.recPut) (bytesOf bs.length 8 ++ bs)).setCtx t { c with recPut := c.recPut + 8 + bs.length }

/-- THE COMMAND PROCESSOR HANDLES A RECORD: its identifier, or the refusal code. -/
def acceptLaunch (s : State) (tag : Tag) (bs : List Byte) : Nat × State :=
  if !recordOk s tag bs then (0x80000002, s)
  else
    let h := hdrOf bs
    let l := nextLaunch s
    let s := addDeadline (allotBars { s with launchId := l } tag l h.barreq) tag h.dlcyc
    let (ts, s) := initialTasks s l h
    let ws := (List.range h.nws).map fun i =>
      let e := entryAt bs (128 + 16 * h.ntt) i
      ((e.extractLsb' 0 64 : Addr), bits e 95 64, bit e 96)
    let x : Launch :=
      { tag := tag, x0 := h.x0, y0 := h.y0, w := h.w, h := h.h', side := h.side, spl := h.spl,
        types := (List.range h.ntt).map fun i => taskOf (entryAt bs 128 i)
        inittt := h.inittt, args := (List.range h.argn).map h.arg, barreq := h.barreq, cwaddr := h.cwaddr, ws := ws,
        staged := false, record := bs.take h.len, toQueue := ts, counter := h.w * h.h', regions := [], halted := false,
        savedOut := [] }
    let first := !hasLaunch s tag
    let s := { s with launches := sInsert s.launches l x }
    (l, recordLaunch (if first then beginTurn s tag else s) tag (bs.take h.len))

/-- The oldest record that waits for the command processor is handled. -/
def handleSubmit (s : State) : List Submit → List Submit × State
  | [] => ([], s)
  | e :: rest =>
    if e.result.isSome then
      let r := handleSubmit s rest
      (e :: r.1, r.2)
    else
      let (v, s) := acceptLaunch s e.tag e.bytes
      if e.reply.isSome then ({ e with result := some v } :: rest, s) else (rest, s)

/-- The bytes of a record at an address, read as .unc loads. -/
def readRecord (s : State) (r : Reader) (t : Tag) (sup : Bool) (va : Addr) : Except (Nat × Addr) (List Byte) × State :=
  readEnds r (match virtBytes s r t sup va 128 with
    | (.error e, s) => (.error e, s)
    | (.ok bs, s) =>
      match virtBytes s r t sup (va + 128) ((hdrOf bs).len - 128) with
      | (.error e, s) => (.error e, s)
      | (.ok more, s) => (.ok (bs ++ more), s))

/-- launch: it submits the record and holds the warp until the command processor has answered (R227, R239). -/
def execLaunch (p : Pr) (d a : Operand) (s : State) : Host.Outcome State Fault Refusal :=
  run (.launch p d a) s fun x s =>
    match s.cpq.find? fun e => e.reply == some x.w with
    | some e =>
      match e.result with
      | none => .hold .other s
      | some v => .done (status { s with cpq := s.cpq.filter fun q => q.reply != some x.w } x d v)
    | none =>
      let va := sc64v s x a
      let t := tagOf s x.w
      if anyReq s x.w then .hold .other s
      else if va.toNat % 64 != 0 then laneFaults x s 0x04 va
      else if !releaseReady s x.w .pkg then .hold .other (releaseBegin s x.w)
      else
        match readRecord (releaseAt s x.w .pkg) (.warp x.w) t (isSup x.w) va with
        | (.error (0, _), s) => .hold .other s
        | (.error (c, v), s) => laneFaults x s c v
        | (.ok bs, s) =>
          if Config.cpDepth < s.cpq.length then .done (status s x d 0x80000001)
          else .hold .other { s with cpq := s.cpq ++ [⟨t, bs, some x.w, none⟩] }

/-! ### Queues (R290, R294) -/

/-- Put an entry at the tail of a CU's queue, or aside while its context is switched out. -/
def enqueue (s : State) (c : CuId) (t : Task) : State :=
  let out := ((sFind? s.launches t.launch).map fun l => (s.ctx l.tag).out).getD false
  s.modCu c fun u => if out then { u with aside := u.aside ++ [t] } else { u with queue := u.queue ++ [t] }

/-- Room for an entry. -/
def queueRoom (s : State) (c : CuId) : Bool := (s.cu c).queue.length < 256

/-- Queue initial entries in order, linked ones together, while there is room. -/
def fillFrom (s : State) : List (List (CuId × Task)) → List (List (CuId × Task)) × State
  | [] => ([], s)
  | e :: rest =>
    if e.all fun q => queueRoom s q.1 then fillFrom (e.foldl (fun s q => enqueue s q.1 q.2) s) rest else (e :: rest, s)

/-- Queue what a launch still has to queue. While its context halts it queues nothing (R305). -/
def fillLaunch (s : State) (l : Nat) : State :=
  match sFind? s.launches l with
  | none => s
  | some x =>
    if !x.staged || (s.ctx x.tag).halting != 0 then s
    else
      let r := fillFrom s x.toQueue
      { r.2 with launches := sAdjust r.2.launches l fun y => { y with toQueue := r.1 } }

/-- The command processor queues initial groups that wait for room (R290). -/
def fillAll (s : State) : State := (s.launches.map fun e => e.1).foldl fillLaunch s

/-- LAUNCH_RECORD: the command processor handles the oldest record that waits, and queues what waits for room. -/
def execLaunchRecord (s : State) : Host.Outcome State Fault Refusal :=
  let r := handleSubmit s s.cpq
  .next (fillAll { r.2 with cpq := r.1 })

/-- enq (R240). -/
def execEnq (h : Hdr) (d a b c : Operand) (s : State) : Host.Outcome State Fault Refusal :=
  run (.enq h d a b c) s fun x s =>
    if anyReq s x.w then .hold .other s
    else if !releaseReady s x.w .pkg then .hold .other (releaseBegin s x.w)
    else
      let s := releaseAt s x.w .pkg
      let tt := sc32 s x a
      let k := sc32 s x b
      let v := sc64v s x c
      match (s.group? x.gid).bind fun g => (sFind? s.launches g.launch).map fun l => (g.launch, l) with
      | none => .done (status s x d 0x80000002)
      | some (n, l) =>
        let tx := if k == 0xFFFFFFFF then cuX (cuOf x.gid) else field k 25 20
        let ty := if k == 0xFFFFFFFF then cuY (cuOf x.gid) else field k 19 16
        if l.types.length ≤ tt then .done (status s x d 0x80000002)
        else if tx < l.x0 || l.x0 + l.w ≤ tx || ty < l.y0 || l.y0 + l.h ≤ ty then .done (status s x d 0x80000003)
        else if !queueRoom s (cuAt tx ty) then .done (status s x d 0x80000001)
        else
          let t : Task := { launch := n, tt := tt, args := [loWord v, hiWord v], index := l.counter, kind := .enq, member := false }
          let s := { s with launches := sAdjust s.launches n fun l => { l with counter := l.counter + 1 } }
          .done (status (enqueue s (cuAt tx ty) t) x d 0)

/-! ### Staging (R287, R356) -/

/-- The die with most CUs of a rectangle, the lowest on a tie. -/
def mainDie (l : Launch) : Nat :=
  let n (d : Nat) : Nat := ((rectCus l.x0 l.y0 l.w l.h).filter fun c => dieOf c == d).length
  (List.range 8).foldl (fun b d => if n b < n d then d else b) 0

/-- Move a CXL-tier page to an HBM frame of a die. -/
def promotePage (s : State) (t : Tag) (va : Addr) (d : Nat) : State :=
  match walk s t va with
  | .leaf e addr level =>
    if level != 4 || pteTier e != 1 || bit e 6 || bit e 7 || moving s t va then s
    else
      match takeFrame s d with
      | none => s
      | some (i, s) =>
        let s := copyPage (flushFrame s (ptePa e)) (ptePa e) (framePa s i)
        let s := ftPut s i (setField (setField (ftGet s i) 23 0 1) 63 48 t.toNat)
        tlbDropPage (putPte s addr (setField (setField e.toNat 51 8 (framePa s i / 256)) 53 52 0)) t va
  | _ => s

/-- Stage one page of a working set; `flash` gives the bytes of those whose read succeeds. Watched, twin and copy-on-write pages stay
as they are. -/
def stageOne (s : State) (l : Launch) (va : Addr) (promote : Bool) (flash : List (Addr × List Byte)) : State :=
  match stageable s l.tag va with
  | some (e, _) =>
    if bit e 6 then s
    else (stagePage s l.tag va (mainDie l) ((flash.find? fun f => f.1 == va).map fun f => f.2)).1
  | none => if promote then promotePage s l.tag va (mainDie l) else s

/-- An access to a CXL-tier page that staging is to promote has been translated and not yet performed (R242, R355). -/
def promoteOpen (s : State) (l : Launch) : Bool :=
  l.ws.any fun w => w.2.2 && s.reqs.any fun e => e.2.ctx == l.tag && e.2.underWay && e.2.accs.any fun a =>
    w.1.toNat ≤ a.va.toNat && a.va.toNat < w.1.toNat + 65536 * w.2.1
      && match walk s l.tag a.va with | .leaf e _ _ => pteTier e == 1 | _ => false

/-- A proxy of another package holds words of a page that staging is to promote. -/
def promoteFar (s : State) (l : Launch) : Bool :=
  l.ws.any fun w => w.2.2 && (List.range w.2.1).any fun i =>
    match walk s l.tag (w.1 + BitVec.ofNat 64 (65536 * i)) with
    | .leaf e _ _ => pteTier e == 1 && farHolds s (ptePa e) 65536
    | _ => false

/-- STAGING_COMPLETE: the working set has been staged, with the bytes that flash gave, and the initial groups are queued. -/
def execStagingComplete (k : Nat) (flash : List (Addr × List Byte)) (s : State) : Host.Outcome State Fault Refusal :=
  match sFind? s.launches k with
  | none => .next s
  | some l =>
    if l.staged || promoteOpen s l || promoteFar s l then .next s
    else
      let s := l.ws.foldl (fun s w =>
        (List.range w.2.1).foldl (fun s i => stageOne s l (w.1 + BitVec.ofNat 64 (65536 * i)) w.2.2 flash) s) s
      .next (fillLaunch { s with launches := sAdjust s.launches k fun x => { x with staged := true } } k)

/-! ### Resources of a CU (R291, R292) -/

/-- The lowest free range of `n` out of `total`, clear of the ranges in use. -/
def firstFit (used : List (Nat × Nat)) (n total : Nat) : Option Nat :=
  let starts := 0 :: used.map fun u => u.1 + u.2
  let ok := starts.filter fun b => b + n ≤ total && used.all fun u => u.2 == 0 || b + n ≤ u.1 || u.1 + u.2 ≤ b
  match (if n == 0 then [0] else ok) with
  | [] => none
  | b :: bs => some (bs.foldl min b)

/-- Vector-register blocks of a task type. -/
def TaskType.blocks (t : TaskType) : Nat := t.nwarp * (t.width + 1) * (t.nreg + 1)

/-- The groups on a CU. -/
def groupsOn (s : State) (c : CuId) : List (GroupId × Group) := s.groups.filter fun e => cuOf e.1 == c

/-- What a group gets. -/
structure Room where
  slot : Nat
  vr : Nat
  scr : Nat
  tile : Nat
  chan : Nat
  places : List Nat
deriving DecidableEq, Repr

/-- The room a task type finds on a CU. -/
def findRoom (s : State) (c : CuId) (t : TaskType) (spl : Nat) : Option Room := do
  let gs := groupsOn s c
  let live := gs.filter fun e => !e.2.retired
  let slot ← (List.range 32).find? fun i => gs.all fun e => e.1 % 32 != i
  let vr ← firstFit (live.map fun e => (e.2.vrBase, e.2.ty.blocks)) t.blocks 4096
  let scr ← firstFit (gs.map fun e => (e.2.scrBase, 256 * e.2.ty.scr)) (256 * t.scr) (spl * 65536)
  let tile ← firstFit (live.map fun e => (e.2.tileBase, e.2.ty.tiles)) t.tiles 8
  let chan ← firstFit (live.map fun e => (e.2.chanBase, e.2.ty.chan)) t.chan 16
  let free := (List.range 32).filter fun p => live.all fun e => !e.2.places.contains p
  if free.length < t.nwarp then none else some ⟨slot, vr, scr, tile, chan, free.take t.nwarp⟩

/-- The quadrant for a new warp: the one with fewest resident warps, the lowest on a tie (R297). -/
def quadFor (s : State) (c : CuId) : Nat :=
  let n (q : Nat) : Nat := (s.warps.filter fun e => cuOf (gidOf e.1) == c && e.2.quad == q && !e.2.exited).length
  (List.range 4).foldl (fun b q => if n q < n b then q else b) 0

/-- The warps of a new group start, in ascending order (R29, R297). -/
def startWarps (s : State) (g : GroupId) (t : TaskType) (tag : Tag) (args : List Word) : Nat → List Nat → State
  | _, [] => s
  | i, p :: ps =>
    let x := Warp.start (4 * (t.width + 1)) t.entry tag p (quadFor s (cuOf g))
    let x := args.zipIdx.foldl (fun (x : Warp) a => x.setS a.2 a.1) x
    let w := 16 * g + i
    startWarps { s with warps := sInsert s.warps w x, order := s.order ++ [w] } g t tag args (i + 1) ps

/-- A new group in some room. -/
def newGroup (l : Nat) (x : Launch) (t : Task) (ty : TaskType) (r : Room) (seed : Nat) (k : Nat) (trig : Option TrigTag) : Group :=
  { launch := l, index := t.index, tt := t.tt, ty := ty, tag := x.tag, seed := seed, scr := [], padPoison := [], full := [],
    tiles := [], poison := [], chans := [], reserved := [], held := [], slot := r.slot, vrBase := r.vr, scrBase := r.scr,
    tileBase := r.tile, chanBase := r.chan, places := r.places, trig := trig, failed := false, abortTaken := false,
    cluster := some k, peer := 0, waitPeers := false, errs := [], home := 0, retired := false, progress := [],
    out := false }

/-- Start a triggered group: the granule's pending mark is cleared, and the group receives its arguments (R389, R395). -/
def takeTrigger (s : State) (k : Nat) : List Word × Option TrigTag × State :=
  match sFind? s.trigs k with
  | none => ([], none, s)
  | some t =>
    let off := (t.granule - ((sFind? s.regions t.region).map Region.base).getD 0).toNat
    let s := addChange { s with trigs := sErase s.trigs k } t.region (-1) 1
    ([loWord t.granule, hiWord t.granule, BitVec.ofNat 32 t.region, BitVec.ofNat 32 t.depth], some ⟨t.region, t.depth, off⟩, s)

/-- Start a task on a CU, in room that has been found. The start is an acquire (R272, R274). -/
def startTask (s : State) (c : CuId) (t : Task) (r : Room) : State :=
  match sFind? s.launches t.launch with
  | none => s
  | some x =>
    match x.types[t.tt]? with
    | none => s
    | some ty =>
      let g := 32 * c + r.slot
      let (args, trig, s) : List Word × Option TrigTag × State := match t.kind with
        | .trigger k => takeTrigger s k
        | _ => (t.args, none, s)
      let s := match trig with
        | some p => if tracing s x.tag then note s [2, p.region, p.off, c, p.depth] else s
        | none => s
      let (k, s) : Nat × State := match t.kind with
        | .linked k => (k, s)
        | _ => addCluster s t.launch 1 (cuX c) (cuY c)
      let (seed, s) := s.draw
      let s := (dropSi s c).setGroup g (newGroup t.launch x t ty r seed k trig)
      let s := { s with clusters := sAdjust s.clusters k fun q => { q with groups := q.groups ++ [g] } }
      startWarps s g ty x.tag args 0 r.places

/-- The split that a task needs is in place, or can be put there now. -/
def splitOk (s : State) (c : CuId) (spl : Nat) : Bool := (s.cu c).spl == spl || (groupsOn s c).isEmpty

/-- Put a split in place (R292). -/
def setSplit (s : State) (c : CuId) (spl : Nat) : State :=
  if (s.cu c).spl == spl then s else (emptyL1 s c).modCu c fun u => { u with spl := spl }

/-- The head entry of a CU's queue, with the room it would get. -/
def headRoom (s : State) (c : CuId) : Option (Task × Launch × Room) :=
  match (s.cu c).queue with
  | [] => none
  | t :: _ =>
    match sFind? s.launches t.launch with
    | none => none
    | some x =>
      if (s.ctx x.tag).halting != 0 || (s.sup.switching.any fun p => p.1 == x.tag) || !splitOk s c x.spl then none
      else (x.types[t.tt]?).bind fun ty => (findRoom s c ty x.spl).map fun r => (t, x, r)

/-- Take the head entry of a queue. -/
def popTask (s : State) (c : CuId) : State := s.modCu c fun u => { u with queue := u.queue.drop 1 }

/-- The CUs on which the head entry of a CU starts, with their rooms; none where it cannot start. -/
def startable (s : State) (c : CuId) : Option (List (CuId × Task × Launch × Room)) :=
  match headRoom s c with
  | none => none
  | some (t, x, r) =>
    match t.kind with
    | .linked k =>
      match sFind? s.clusters k with
      | none => none
      | some q =>
        let all := (rectCus q.x0 q.y0 q.side q.side).map fun c => (headRoom s c).map fun e => (c, e)
        if all.all fun e => match e with | some (_, t', _, _) => t'.kind == .linked k | none => false then
          some (all.filterMap id)
        else none
    | _ => some [(c, t, x, r)]

/-- Start the head entries of some CUs. -/
def startEntries (s : State) (es : List (CuId × Task × Launch × Room)) : State :=
  es.foldl (fun s e => startTask (popTask (setSplit s e.1 e.2.2.1.spl) e.1) e.1 e.2.1 e.2.2.2) s

/-- GROUP_START. -/
def execGroupStart (c : CuId) (s : State) : Host.Outcome State Fault Refusal :=
  match startable s c with
  | none => .next s
  | some es => .next (fillAll (startEntries s es))

/-- The starts of one fc: every head entry that can start does, at most one a CU (R291, R295). `done`: CUs that have had
their start. -/
def startHeads (s : State) (done : List CuId) : List CuId → State
  | [] => s
  | c :: cs =>
    match startable s c with
    | some es =>
      if es.any fun e => done.contains e.1 then startHeads s done cs
      else startHeads (startEntries s es) (done ++ es.map fun e => e.1) cs
    | none => startHeads s done cs

/-! ### Neighbour averaging (R295) -/

/-- An entry that balancing may move: made by enq or a trigger, and not frozen by a halt (R305). -/
def movable (s : State) (t : Task) : Bool :=
  (match t.kind with | .enq | .trigger _ => true | _ => false)
    && !((sFind? s.launches t.launch).any fun l => (s.ctx l.tag).halting != 0)

/-- The neighbour of a mesh CU in a direction: −x, +x, −y, +y. -/
def neighbour (c : CuId) (dir : Nat) : Option CuId :=
  let x := cuX c
  let y := cuY c
  match dir with
  | 0 => if x == 0 then none else some (cuAt (x - 1) y)
  | 1 => if x == 47 then none else some (cuAt (x + 1) y)
  | 2 => if y == 0 then none else some (cuAt x (y - 1))
  | _ => if y == 15 then none else some (cuAt x (y + 1))

/-- A launch's rectangle holds a CU. -/
def inRect (s : State) (l : Nat) (c : CuId) : Bool :=
  match sFind? s.launches l with
  | some x => x.x0 ≤ cuX c && cuX c < x.x0 + x.w && x.y0 ≤ cuY c && cuY c < x.y0 + x.h
  | none => false

/-- Take up to `n` movable entries from the tail end (the list is reversed): what stays and what goes, both reversed. -/
def takeMovable (s : State) (d : CuId) : Nat → List Task → List Task × List Task
  | _, [] => ([], [])
  | 0, ts => (ts, [])
  | n + 1, t :: ts =>
    if movable s t && inRect s t.launch d then
      let r := takeMovable s d n ts
      (r.1, t :: r.2)
    else
      let r := takeMovable s d (n + 1) ts
      (t :: r.1, r.2)

/-- Movable entries of a CU. -/
def occupancy (s : State) (c : CuId) : Nat := ((s.cu c).queue.filter (movable s)).length

/-- Entries that a CU may send in a direction: by the reports, within what the neighbour has free after those who come
before it. -/
def quota (s : State) (c : CuId) (dir : Nat) : Nat :=
  match neighbour c dir with
  | none => 0
  | some d =>
    let free := 256 - (s.cu d).queue.length
    let want (e : CuId) : Nat := (occupancy s e - occupancy s d) / 8
    let before := (((List.range 4).takeWhile fun k => neighbour d k != some c).filterMap fun k => neighbour d k).map want
    min (want c) (free - before.foldl (· + ·) 0)

/-- What a CU keeps behind its head, which never moves, and what it sends in each direction. -/
def sends (s : State) (c : CuId) : List Task × List (CuId × List Task) :=
  (List.range 4).foldl (fun (p : List Task × List (CuId × List Task)) dir =>
    match neighbour c dir with
    | none => p
    | some d =>
      let r := takeMovable s d (quota s c dir) p.1.reverse
      (r.1.reverse, p.2 ++ [(d, r.2.reverse)])) ((s.cu c).queue.drop 1, [])

/-- One exchange between all CUs. -/
def exchange (s : State) : State :=
  let cs := (s.cus.filter fun e => !e.2.queue.isEmpty && !isCurator e.1).map fun e => e.1
  let plan := cs.map fun c => (c, sends s c)
  let s' := plan.foldl (fun s p => s.modCu p.1 fun u => { u with queue := u.queue.take 1 ++ p.2.1 }) s
  let targets := (plan.flatMap fun p => p.2.2.map fun q => q.1).eraseDups
  targets.foldl (fun s d =>
    let got := (List.range 4).flatMap fun dir =>
      match (neighbour d dir).bind fun c => plan.find? fun p => p.1 == c with
      | some p => p.2.2.flatMap fun q => if q.1 == d then q.2 else []
      | none => []
    s.modCu d fun u => { u with queue := u.queue ++ got }) s'

/-- BALANCE_EXCHANGE: an exchange that is due, after the starts of its fc; initial groups take the room it leaves. -/
def execBalanceExchange (s : State) : Host.Outcome State Fault Refusal :=
  if s.exch == 0 then .next s
  else
    let s := startHeads { s with exch := s.exch - 1 } [] ((s.cus.filter fun e => !e.2.queue.isEmpty).map fun e => e.1)
    .next (fillAll (exchange s))

/-! ### Retirement and completion (R11, R289, R396) -/

/-- The mark under which the requests of a launch's retired groups go on. -/
def deadMark (l : Nat) : Nat := 2 ^ 40 * (l + 1)

/-- A group's requests go on without a warp: their values are discarded. -/
def orphan (s : State) (g : GroupId) (l : Nat) : State :=
  { s with reqs := s.reqs.map fun e =>
      if gidOf e.2.wid == g then (e.1, { e.2 with wid := deadMark l + e.2.wid, dst := none }) else e }

/-- Every warp of a group has exited and its operations are complete. -/
def retirable (s : State) (g : GroupId) (gr : Group) : Bool :=
  !gr.retired && !gr.waitPeers && !isCurator (cuOf g) && gr.progress.isEmpty && !gr.out
    && ((s.warpsOf g).all fun w => ((s.warp? w).map fun x => !x.preempt).getD true)
    && ((s.warpsOf g).all fun w => ((s.warp? w).map fun x => x.exited && x.sfq.isEmpty && x.cvq.isEmpty).getD true)
    && !(s.engs.any fun e => e.2.gid == g)
    && !((s.cu (cuOf g)).matq.any fun q => q.gid == g) && !((s.cu (cuOf g)).defMat.any fun d => gidOf d.wid == g)

/-- Remove the warps of a group. -/
def dropWarps (s : State) (g : GroupId) : State :=
  let s := s.modCu (cuOf g) fun u => { u with waiters := u.waiters.filter fun q => gidOf q.wid != g }
  { s with
    warps := sFilter s.warps fun w _ => gidOf w != g
    order := s.order.filter fun w => gidOf w != g }

/-- A group's window and cluster go when every group of the cluster has retired (R11). -/
def freeGroup (s : State) (g : GroupId) (gr : Group) : State :=
  match gr.cluster.bind fun k => (sFind? s.clusters k).map fun c => (k, c) with
  | none => { s with groups := sErase s.groups g }
  | some (k, c) =>
    let others := c.groups.filter fun h => h != g
    let waits := c.groups.length < c.side * c.side || others.any fun h => match s.group? h with
      | some o => !o.retired
      | none => false
    if waits then s.setGroup g { gr with retired := true, places := [] }
    else
      { s with
        groups := sFilter s.groups fun h _ => !c.groups.contains h
        clusters := sErase s.clusters k
        bars := sFilter s.bars fun b _ => !(64 + 16 * k ≤ b && b < 80 + 16 * k) }

/-- A GROUP RETIRES: it leaves its barriers, and what it held is free. -/
def retireGroup (s : State) (g : GroupId) : State :=
  match s.group? g with
  | none => s
  | some gr =>
    if !retirable s g gr then s
    else
      let s := barLeave s gr.gname
      let s := orphan (dropWarps s g) g gr.launch
      let s := match gr.trig with
        | some t =>
          let (k, s) := s.fresh
          { s with outs := sInsert s.outs k ⟨t.region, t.off, cuOf g, deadMark gr.launch + 16 * g⟩ }
        | none => s
      freeGroup s g gr

/-- Everything that a group of a CU may have left dirty or withheld is on its way to its homes: dirty bytes, deltas of the CU's
lines, and what the proxies hold for other packages (R372, R376). -/
def sendAll (s : State) (c : CuId) (mark : WarpId) : State :=
  let s := releaseBy (flushAll s c) mark c
  let s := (((s.cu c).upd.filter fun e => !e.2.deltas.isEmpty).map fun e => e.1).foldl (fun s l => pushLine (settle s l) c l false) s
  ((s.mem.accProx.filter fun e => !e.2.deltas.isEmpty).map fun e => e.1).foldl (fun s l => pushProxy s l [] 0) s

/-- Nothing that a group of a CU may have written is still to commit at its home (R396). -/
def allCommitted (s : State) (c : CuId) : Bool :=
  (farDirty s c).isEmpty && ((s.cu c).l1.all fun e => e.2.dirty == 0) && ((s.cu c).upd.all fun e => e.2.deltas.isEmpty)
    && (s.mem.accProx.all fun e => e.2.deltas.isEmpty) && !(s.combines.any fun e => !e.2.acked && (e.2.cu == c || 1024 ≤ e.2.cu))

/-- GROUP_COUNT_OUT: everything a retired triggered group wrote has committed, its deltas too; what has not is sent first
(R396). -/
def execGroupCountOut (k : Nat) (s : State) : Host.Outcome State Fault Refusal :=
  match sFind? s.outs k with
  | none => .next s
  | some o =>
    if s.reqs.any fun e => e.2.wid / 16 == o.mark / 16 then .next s
    else if !allCommitted s o.cu then .next (sendAll s o.cu o.mark)
    else
      let s := addChange { s with outs := sErase s.outs k } o.region 0 (-1)
      let s := { s with dbg := { s.dbg with awaits := s.dbg.awaits.filter fun a => a.2 != (o.region, o.off) } }
      .next (if (sFind? s.regions o.region).any fun g => tracing s g.tag then note s [3, o.region, o.off, o.cu] else s)

/-- A launch has no group, entry or trigger left. -/
def launchOver (s : State) (l : Nat) (x : Launch) : Bool :=
  x.staged && x.toQueue.isEmpty && x.savedOut.isEmpty && !(s.groups.any fun e => e.2.launch == l) && !(s.saved.any fun e => e.group.launch == l)
    && !(s.cus.any fun e => (e.2.queue ++ e.2.aside).any fun t => t.launch == l)
    && !(s.trigs.any fun e => e.2.launch == l)
    && !(s.reqs.any fun e => e.2.wid / 2 ^ 40 == l + 1)

/-- Package barriers of a launch return to the free pool where no other launch asked for them. -/
def freeBars (s : State) (l : Nat) : State :=
  (List.range 64).foldl (fun s b =>
    let q := s.bar b
    if !q.launches.contains l then s
    else
      let rest := q.launches.filter fun k => k != l
      if rest.isEmpty then s.setBar b Barrier.free else s.setBar b { q with launches := rest }) s

/-- Write the completion word, a release at scope pkg; in another package as the command processor's own store. None: a
publish makes the write wait. -/
def completionWord (s : State) (l : Nat) (x : Launch) : Option State :=
  if x.cwaddr == 0 then some s
  else
    let word := bytesOf (l % 2 ^ 24 + (if x.halted then 2 ^ 31 else 0)) 4
    let fail (s : State) (c : Nat) : Option State := some (violate s 1 c x.tag x.cwaddr.toNat noSrc)
    let go (s : State) : Option State :=
      match translate s 768 x.tag false .write x.cwaddr with
      | (.ok pa _, s) =>
        if spaceOf s pa == .view then fail s 0x13
        else if (accEnt s pa).isSome then fail s 0x14
        else if spaceOf s pa == .far then
          if farWay s (field pa 51 44) == .refused then fail s 0x15
          else some (addReq s { Req.blank s noWarp (.store .unc) with
            cu := 768, blk := pa / 128, accs := [⟨0, x.cwaddr, pa, word, [], 0, false⟩], ctx := x.tag, ord := .rel, scp := .pkg,
            rel := 3, depth := 0, stage := .ext }).2
        else if (homeByte? s pa).isNone then fail s 0x15
        else some (homeStore s pa word 3 Writer.plain)
      | (.fault c, s) => fail s c
      | (_, _) => none
    match translate s 768 x.tag false .write x.cwaddr with
    | (.cow, s) =>
      match breakPage s x.tag x.cwaddr none none with
      | .done s => go s
      | .noFrame => fail s 0x12
      | .wait => none
    | _ => go s

/-- End a launch: its regions, its barriers, its completion word. The word's release covers what the launch's CUs and the
proxies hold dirty; until that is accepted the launch stays. -/
def endLaunch (s : State) (l : Nat) (x : Launch) : State :=
  let cs := rectCus x.x0 x.y0 x.w x.h
  if s.reqs.any fun e => e.2.wid == noWarp && e.2.kind == .wback then s
  else if cs.any fun c => !cuReady s c then cs.foldl (fun s c => releaseBy s noWarp c) s
  else
    let s' := x.regions.foldl (fun s r =>
      match sFind? s.regions r with
      | some g => if g.live && g.launch == l then unwatchRegion s r else s
      | none => s) s
    let s' := poolOut (cs.foldl flushDirty (freeBars s' l))
    match completionWord s' l x with
    | some s' =>
      let s' := { s' with launches := sErase s'.launches l }
      if s.dbg.tag == some x.tag then noteEvt s' [10, l] else s'
    | none => s

/-- Holds of birfdb that keep a launch of its context waiting, with the stores that each keeps (R282). -/
def launchHolds (s : State) (l : Nat) (x : Launch) : List (Nat × Nat) :=
  let hs := s.dbg.holds.filter fun h => h.2.2.2 == x.tag
  if hs.isEmpty || s.groups.any fun e => e.2.launch == l then []
  else
    (hs.map fun h => (h.1, (s.reqs.filter fun e =>
      e.2.dbgHold && e.2.wid / 2 ^ 40 == l + 1 && e.2.cu == h.2.1
        && e.2.accs.any fun a => h.2.2.1.toNat < a.va.toNat + a.data.length && a.va.toNat < h.2.2.1.toNat + 4).length)).filter
      fun p => p.2 != 0

/-- birfdb prints each of them once (R456). -/
def tellHolds (s : State) (l : Nat) (x : Launch) : State :=
  (launchHolds s l x).foldl (fun s p =>
    if s.dbg.told.contains (l, p.1) then s
    else note { s with dbg := { s.dbg with told := s.dbg.told ++ [(l, p.1)] } } [20, l, p.1, p.2]) s

/-- LAUNCH_COMPLETION. -/
def execLaunchCompletion (l : Nat) (s : State) : Host.Outcome State Fault Refusal :=
  match sFind? s.launches l with
  | none => .next s
  | some x => if launchOver s l x then .next (endLaunch s l x) else .next (tellHolds s l x)

/-! ### Triggers on their way to groups (R393, R394) -/

/-- The CU that a trigger is sent to. -/
def triggerCu (l : Launch) (r : Region) (t : Trigger) : CuId :=
  let all := rectCus l.x0 l.y0 l.w l.h
  let mine := all.filter fun c => dieOf c == dieOfPa t.gpa
  let cs := if mine.isEmpty then all else mine
  let k := (t.granule - r.base).toNat / r.gran
  (cs[k % cs.length]?).getD 0

/-- birfdb keeps this trigger at its unit (R400). -/
def trigHeld (s : State) (r : Region) (k : Nat) : Bool :=
  (s.dbg.trigHolds.any fun h => h.2 == r.tag) && !(s.dbg.released.any fun p => p.1 == k)

/-- A trigger in its unit's queue may be sent. -/
def sendable (s : State) (k : Nat) (t : Trigger) : Bool :=
  match sFind? s.regions t.region, sFind? s.launches t.launch with
  | some r, some l => !t.queued && !t.spilled && !trigHeld s r k && (s.ctx l.tag).halting == 0
  | _, _ => false

/-- An older trigger of the same unit that may be sent stands ahead in its queue (R393, R400); one that a full task queue turned
away is offered again later and keeps none back (R394). -/
def behindOlder (s : State) (k : Nat) (t : Trigger) : Bool :=
  s.trigs.any fun e => e.1 < k && e.2.unit == t.unit && !e.2.refused && sendable s e.1 e.2

/-- Offer a queued trigger to its CU. -/
def offer (s : State) (k : Nat) : State :=
  match sFind? s.trigs k with
  | none => s
  | some t =>
    match sFind? s.regions t.region, sFind? s.launches t.launch with
    | some r, some l =>
      if !sendable s k t then s
      else
        let c := triggerCu l r t
        if !queueRoom s c then { s with trigs := sInsert s.trigs k { t with refused := true } }
        else
          let q : Task := { launch := t.launch, tt := r.tt, args := [], index := l.counter, kind := .trigger k, member := false }
          let s := { s with launches := sAdjust s.launches t.launch fun l => { l with counter := l.counter + 1 } }
          enqueue { s with trigs := sInsert s.trigs k { t with queued := true, refused := false, index := l.counter } } c q
    | _, _ => s

/-- TRIGGER_DISPATCH: a unit's queue goes out in order. -/
def execTriggerDispatch (k : Nat) (s : State) : Host.Outcome State Fault Refusal :=
  match sFind? s.trigs k with
  | some t => if t.refused || behindOlder s k t then .next s else .next (offer s k)
  | none => .next s

/-- TRIGGER_REOFFER. -/
def execTriggerReoffer (k : Nat) (s : State) : Host.Outcome State Fault Refusal :=
  match sFind? s.trigs k with
  | some t => if t.refused then .next (offer s k) else .next s
  | none => .next s

/-- Entries of a trigger unit's queue. -/
def unitQueue (s : State) (u : Nat) : Nat := (s.trigs.filter fun e => e.2.unit == u && !e.2.spilled && !e.2.queued).length

/-- The next granule with its bit set that a unit homes, in scan order from where it stopped. -/
def scanNext (s : State) (u : Nat) (g : Region) (start : Nat) : Option (Nat × Addr × Nat) :=
  let n := g.len / g.gran
  (List.range n).findSome? fun i =>
    let k := (start + i) % n
    let va := g.base + BitVec.ofNat 64 (k * g.gran)
    match physOf s g.tag va, spillBit s g va u with
    | some pa, some (b, j) => if unitOf pa == u && field (coherentByte s b).toNat j j == 1 then some (k, va, pa) else none
    | _, _ => none

/-- SPILL_SCAN: a unit with room takes the next set bit of a region's bitmap back into its queue. -/
def execSpillScan (u r : Nat) (s : State) : Host.Outcome State Fault Refusal :=
  match sFind? s.regions r with
  | none => .next s
  | some g =>
    match sFind? g.spills u with
    | none => .next s
    | some sp =>
      if sp.count == 0 || 64 ≤ unitQueue s u then .next s
      else
        match scanNext s u g sp.scan with
        | none => .next s
        | some (k, va, pa) =>
          let s := clearSpillBit s g va u
          let c := sp.count - 1
          let sp' : SpillRec := ⟨c, if c == 0 then 0 else sp.depth, k + 1⟩
          let s := { s with regions := sAdjust s.regions r fun g => { g with spills := sInsert g.spills u sp' } }
          match pendingTrig s r va with
          | some (n, t) => .next { s with trigs := sInsert s.trigs n { t with spilled := false, depth := sp.depth } }
          | none =>
            let (n, s) := s.fresh
            let t : Trigger :=
              { region := r, granule := va, gpa := pa, depth := sp.depth, index := 0, launch := g.launch, refused := false,
                queued := false, spilled := false, unit := u }
            .next (addChange { s with trigs := sInsert s.trigs n t } r 1 0)

/-! ### Traps on their way to handlers (R228 to R230) -/

/-- ASYNC_TRAP: the pending trap of the lowest cause is taken, at a boundary. -/
def execAsyncTrap (w : WarpId) (s : State) : Host.Outcome State Fault Refusal :=
  match s.warp? w with
  | some x => if x.halt.isNone && x.cow.isNone && !x.exited then .next (takeAsync s w) else .next s
  | none => .next s

/-- A warp's trap, once birfdb has let it pass: a catch stops the warp first (R366), and so does brk in a session (R233). -/
def caught (s : State) (x : Warp) (t : Trap) : Bool :=
  (t.brk && s.dbg.tag == some x.tag) || s.dbg.catches.any fun c => c.2 == (t.cause, x.tag)

/-- Place a warp's trap in its curator's queue, where there is room. -/
def queueTrap (s : State) (w : WarpId) (x : Warp) (t : Trap) : State :=
  let d := dieOf (cuOf (gidOf w))
  let q := (sFind? s.sup.traps d).getD []
  if t.queued || 1024 ≤ q.length then s
  else
    let s := s.setWarp w { x with halt := some { t with queued := true } }
    { s with sup := { s.sup with traps := sInsert s.sup.traps d (q ++ [w]) },
             dbg := { s.dbg with letGo := s.dbg.letGo.filter fun v => v != w } }

/-- Every register that a warp's instructions name has been written (R283). -/
def destsWritten (s : State) (w : WarpId) (x : Warp) : Bool :=
  x.sfq.isEmpty && x.cvq.isEmpty && !(s.reqs.any fun e => e.2.wid == w && e.2.dst.isSome)

/-- What birfdb prints of a stop: warp, address of its line, FLM; TRAPADDR at a catch (R366); RPTC in a repeat (R382). -/
def stopLine (w : WarpId) (x : Warp) : List Nat :=
  let at_ : Addr := match x.halt with
    | some t => if t.async then x.issueAddr.getD 0 else t.addr0
    | none => x.issueAddr.getD 0
  [5, w, at_.toNat, x.flm.toNat] ++ (match x.halt with | some t => [1, t.addr.toNat] | none => [])
    ++ if x.rep.act then [2, x.rptc.toNat] else []

/-- birfdb stops a warp, selects it, and prints the stop (R366, R382, R456). A step of the warp ends there. -/
def stopWarp (s : State) (w : WarpId) (x : Warp) : State :=
  let s := s.setWarp w { x with stopped := true }
  noteEvt { s with dbg := { s.dbg with
    selected := some w, stop := true, stepping := s.dbg.stepping.filter fun p => p.1 != w } } (stopLine w x)

/-- TRAP_ENQUEUE. A caught trap waits, before the warp stops, for the registers that its instructions write (R366). -/
def execTrapEnqueue (w : WarpId) (s : State) : Host.Outcome State Fault Refusal :=
  match s.warp? w with
  | none => .next s
  | some x =>
    match x.halt with
    | none => .next s
    | some t =>
      if t.queued || x.stopped then .next s
      else if caught s x t && !s.dbg.letGo.contains w then .next (if destsWritten s w x then stopWarp s w x else s)
      else .next (queueTrap s w x t)

/-- The curator's group of a die: up to 16 handler warps and the curator's own window (log 31). -/
def curatorGroup (d : Nat) : Group :=
  { launch := 0, index := d, tt := 0, ty := ⟨16, 15, 15, 0, 0, 2816, 0⟩, tag := 0, seed := 0, scr := [], padPoison := [],
    full := [], tiles := [], poison := [], chans := [], reserved := [], held := [], slot := 0, vrBase := 0, scrBase := 0,
    tileBase := 0, chanBase := 0, places := List.range 16, trig := none, failed := false, abortTaken := false, cluster := none,
    peer := 0, waitPeers := false, errs := [], home := 768 + d, retired := false, progress := [],
    out := false }

/-- A handler's place is free: no warp has it, and nothing that an earlier one left under its name is still to come: a load, an
engine operation, a migration, the answer to a launch. -/
def placeFree (s : State) (w : WarpId) : Bool :=
  (s.warp? w).isNone && !(s.reqs.any fun e => e.2.wid == w) && !(s.engs.any fun e => e.2.wid == w)
    && !(s.migs.any fun e => e.2.arr.any fun a => a.1 == w) && !(s.cpq.any fun q => q.reply == some w)

/-- HANDLER_START: the oldest trap of a curator's queue gets a handler warp. Where its entry is no address of R16's form,
its first fetch is a supervisor's fault (R231; log 63). -/
def execHandlerStart (d : Nat) (s : State) : Host.Outcome State Fault Refusal :=
  let g := 32 * (768 + d)
  match (if s.host.off.contains 1 then [] else (sFind? s.sup.traps d).getD []),
      (List.range 16).find? fun i => placeFree s (16 * g + i) with
  | t :: rest, some i =>
    let s := { s with sup := { s.sup with traps := sSet [] s.sup.traps d rest } }
    match (s.warp? t).bind Warp.halt with
    | none => .next s
    | some h =>
      let (seed, s) := s.draw
      let s := if (s.group? g).isSome then s else s.setGroup g { curatorGroup d with seed := seed }
      let pc := sGet 0 s.sup.trapbase d + BitVec.ofNat 64 (64 * h.cause)
      let w := 16 * g + i
      let s := { s with
        warps := sInsert s.warps w { Warp.start 64 pc 0 i (i % 4) with serves := some t }
        order := s.order ++ [w] }
      .next (if legalVa pc then s else supervisorFault s w 0x10 pc)
  | _, _ => .next s

/-- DEADLINE_OVERRUN: REMAIN has reached zero with EN set; OVR is set and the partition halts (R304, R305). A context whose
last launch completes now does not overrun. -/
def execDeadlineOverrun (t : Tag) (s : State) : Host.Outcome State Fault Refusal :=
  let c := s.ctx t
  if bit c.deadline 63 && bits c.deadline 47 0 == 0 && counting s t c
      && !(s.launches.all fun e => e.2.tag != t || launchOver s e.1 e.2) then
    .next (startHalt (s.setCtx t { c with deadline := c.deadline ||| 0x4000000000000000 }) t 1)
  else .next s

end Sys2Proof.Machine
end

