-- ==== Sys2Proof/Machine/Save.lean ====
section
/-! DEFINITION. Pre-emption: the group state record and its form in a save area (R38, R39, R224, R225, R249), ctxsave and
ctxload (R247, R248), pre-emption and context switches (R306, R360, R361), flush-by-tag (R363). -/

namespace Sys2Proof.Machine

open Sys2Proof

/-! ### Bytes of a record -/

/-- Numbers as 8 bytes each. -/
def w8 (xs : List Nat) : List Byte := xs.flatMap fun x => bytesOf x 8

/-- The number in some bytes at an offset. -/
def rd (bs : List Byte) (off n : Nat) : Nat := ofBytes ((bs.drop off).take n)

/-- The 8-byte numbers of some bytes. -/
def nums (bs : List Byte) : List Nat := (List.range (bs.length / 8)).map fun i => rd bs (8 * i) 8

/-- The next multiple of `n`. -/
def roundUp (x n : Nat) : Nat := (x + n - 1) / n * n

/-- Bytes filled with zeros to a multiple of `n`. -/
def padTo (n : Nat) (bs : List Byte) : List Byte := bs ++ List.replicate (roundUp bs.length n - bs.length) 0

/-- A list of numbers preceded by its length. -/
def counted (xs : List Nat) : List Nat := xs.length :: xs

/-- Take a counted list off the front. -/
def takeCounted : List Nat → List Nat × List Nat
  | [] => ([], [])
  | n :: r => (r.take n, r.drop n)

/-- Pieces of `k` numbers. -/
def pieces (k : Nat) (xs : List Nat) : List (List Nat) := (List.range (xs.length / k)).map fun i => (xs.drop (k * i)).take k

/-- An optional number as two. -/
def optNums (o : Option Nat) : List Nat := [if o.isSome then 1 else 0, o.getD 0]

/-- And back. -/
def numsOpt (xs : List Nat) : Option Nat := match xs with | f :: v :: _ => if f == 1 then some v else none | _ => none

/-- The flag at a bit of a number. -/
def flagAt (x i : Nat) : Bool := field x i i == 1

/-- Flags as a number, the first in bit 0. -/
def flagsNum : List Bool → Nat
  | [] => 0
  | b :: bs => (if b then 1 else 0) + 2 * flagsNum bs

/-- Pairs of 32-bit key and value. -/
def pairBytes (m : Store Word) : List Byte := m.flatMap fun e => bytesOf e.1 4 ++ bytesOf e.2.toNat 4

def bytesPairs (bs : List Byte) : Store Word :=
  (List.range (bs.length / 8)).foldl (fun m i => sInsert m (rd bs (8 * i) 4) (BitVec.ofNat 32 (rd bs (8 * i + 4) 4))) []

/-- An item of the progress section: its 8-byte word, then its bytes. -/
def Prog.bytes (p : Prog) : List Byte := bytesOf (p.kind % 2 ^ 8 + 2 ^ 8 * (p.num % 2 ^ 24) + 2 ^ 32 * p.data.length) 8 ++ p.data

/-- The items of a progress section. -/
def progsOf : Nat → List Byte → List Prog
  | 0, _ => []
  | n + 1, bs =>
    if bs.length < 8 || rd bs 0 1 == 0 then []
    else ⟨rd bs 0 1, rd bs 1 3, (bs.drop 8).take (rd bs 4 4)⟩ :: progsOf n (bs.drop (8 + rd bs 4 4))

/-! ### Progress registers (R224, R225; log 18) -/

/-- Progress of an engine operation: 2 xcopy, 3 mcast, 4 csrg. A copy that has read all its elements before writing them keeps
those that are left behind the bytes that R224 names (log 71). -/
def engProg (e : EngOp) : Prog :=
  match e.kind with
  | .xcopy =>
    let d : Desc := BitVec.ofNat 2048 (ofBytes e.desc)
    let read := e.readFirst && e.elems.all fun q => q.val.isSome
    ⟨2, warpIndex e.wid, e.desc ++ w8 [d.count - e.elems.length, e.arr + if e.overran then 2 ^ 32 else 0]
      ++ if read then e.elems.flatMap fun q => q.val.getD [] ++ [if q.poison then 1 else 0] else []⟩
  | .mcast =>
    let m := McExt.dec (BitVec.ofNat 64 (rd e.desc 20 8))
    let per := m.rb.toNat + 1
    let n := per * (m.rows.toNat + 1) - e.elems.length
    ⟨3, warpIndex e.wid, e.desc ++ bytesOf (16 * (n % per)) 2 ++ bytesOf (n / per + if e.overran then 2 ^ 15 else 0) 2⟩
  | .csrg =>
    ⟨4, warpIndex e.wid, e.desc ++ bytesOf e.k0 4 ++ bytesOf e.dst 4 ++ bytesOf (e.ns + 2 ^ 8 * codeOf MFmt.codes e.fmt) 4
      ++ bytesOf 0 4 ++ bytesOf 0 4 ++ bytesOf 0 4 ++ bytesOf e.arr 4 ++ bytesOf 0 4⟩

/-- Words captured for every lane. -/
def denseA (w n : Nat) (a : Store Word) : List Byte :=
  (List.range w).flatMap fun l => (List.range n).flatMap fun k => bytesOf (sGet 0 a (128 * l + k)).toNat 4

def aDense (w n : Nat) (bs : List Byte) : Store Word :=
  (List.range w).foldl (fun m l => (List.range n).foldl (fun m k =>
    sSet 0 m (128 * l + k) (BitVec.ofNat 32 (rd bs (4 * (n * l + k)) 4))) m) []

/-- No scratchpad offset: a ring B, or a tile operation without B. -/
def noOff : Nat := 0xFFFFFFFF

/-- Progress of a queued tile operation, which has not begun: kind 1. -/
def matProg (gr : Group) (q : MatOp) : Prog :=
  let off := match gr.held.find? fun h => h.1 == q.seq with | some h => h.2.1 | none => noOff
  let a := if (matArgs q.ins).isSome then denseA gr.width (matCount q.ins gr.width) q.a else pairBytes q.a
  ⟨1, warpIndex q.wid, (padTo 16 (encode q.ins)).take 16 ++ bytesOf ((tileOf q.ins).getD 0 * 2 ^ 8) 4 ++ bytesOf off 4 ++ a
    ++ (if off == noOff then q.b else [])⟩

/-- A convergence set that has not issued: kind 5, its captured A in the form of a progress register (R225). -/
def cvProgs (w : WarpId) (x : Warp) : List Prog :=
  x.cv.filterMap fun e => e.2.ins.map fun i =>
    ⟨5, warpIndex w + 16 * e.1, (padTo 16 (encode i)).take 16 ++ denseA x.width (matCount i x.width) e.2.cap⟩

/-- The barrier that a warp waits in, by number: package barriers from 0, those of its cluster from 64. -/
def barRel (k : Nat) : Nat := if k < 64 then k else 64 + k % 16

def barAbs (cluster n : Nat) : Nat := if n < 64 then n else 64 + 16 * cluster + n % 16

/-- What else a warp carries: kind 6. -/
def warpProg (w : WarpId) (x : Warp) : Prog :=
  ⟨6, warpIndex w, w8 ([x.rep.set.toNat] ++ optNums (x.rep.only.map BitVec.toNat) ++ optNums (x.lastBack.map BitVec.toNat)
    ++ [x.exc.toNat, x.excCount, x.spin] ++ optNums (x.barWait.map barRel)
    ++ [flagsNum [x.sawTag, x.cancelled, x.exitNow, x.noMem]]
    ++ optNums (x.relScope.map fun c => codeOf Scope.codes c)
    ++ counted (x.asyncs.flatMap fun a => [a.cause, a.addr.toNat, a.lanes.toNat])
    ++ counted (x.bads.flatMap fun b => [b.lane, b.num, codeOf Wid.codes b.wid, b.cause, b.addr.toNat, b.load]))⟩

/-- The trap registers of a warp: kind 7 (R305). -/
def trapProg (w : WarpId) (t : Trap) : Prog :=
  ⟨7, warpIndex w, w8 ([t.cause, t.addr.toNat, t.code.toNat, t.lanes.toNat, flagsNum [t.async, t.inrep, t.brk]]
    ++ optNums (t.defl.map fun d => codeOf Wid.codes d.1 + 2 ^ 8 * d.2) ++ [t.addr0.toNat]
    ++ optNums (t.next.map BitVec.toNat) ++ counted (t.data.flatMap fun e => [e.1, e.2.toNat]))⟩

/-- The marks that the armature holds of a group: barrier, warp, whether it has arrived, whether it waits. -/
def barMarks (s : State) (gr : Group) : List Nat :=
  s.bars.flatMap fun e =>
    let mine (as : List Arrival) : List Nat := (as.filter fun a => a.group == gr.gname && a.gen == e.2.gen).map fun a => a.warp
    ((mine e.2.arrived ++ mine e.2.waits).eraseDups).flatMap fun w =>
      [barRel e.1, w, flagsNum [(mine e.2.arrived).contains w, (mine e.2.waits).contains w]]

/-- What else a group carries: kind 8. -/
def groupProg (s : State) (sv : Saved) : Prog :=
  let g := sv.group
  let c := g.cluster.bind fun k => (sFind? s.clusters k).map fun q => (k, q)
  ⟨8, 0, w8 ([g.launch] ++ optNums (g.trig.map fun t => t.region + 2 ^ 8 * t.depth + 2 ^ 24 * t.off)
    ++ [flagsNum [g.failed, g.abortTaken, g.retired], g.home]
    ++ optNums (c.map fun q => q.1)
    ++ counted (g.errs.map fun e => e.1) ++ counted (g.padPoison.map fun e => e.1) ++ counted (g.poison.map fun e => e.1)
    ++ counted (sv.defs.flatMap fun d => [warpIndex d.wid, d.cv.val]) ++ counted (barMarks s g))⟩

/-! ### The save area (R249; log 11) -/

/-- Code of a lane state (R38). -/
def LaneSt.code : LaneSt → Nat
  | .eligible => 0 | .ld => 1 | .fe => 2 | .exited => 3

/-- Bytes of a warp block. -/
def blockLen (w n : Nat) : Nat := roundUp (32 + 256 + 64 + 128 + 8 * w + 16 + 4 * n * w) 128

/-- A warp block. -/
def warpBlock (w : WarpId) (x : Warp) (n : Nat) : List Byte :=
  padTo 128 (bytesOf (wstat w x false).toNat 4 ++ bytesOf x.fstat.toNat 4 ++ bytesOf x.rptc.toNat 4 ++ bytesOf x.ctxt.toNat 4
    ++ bytesOf x.flm.toNat 8 ++ bytesOf 0 8
    ++ ((List.range 64).flatMap fun i => bytesOf (x.s i).toNat 4)
    ++ ((List.range 7).flatMap fun i => bytesOf (x.pMask i).toNat 8) ++ bytesOf 0 8
    ++ ((List.range 8).flatMap fun i => bytesOf (x.cvReg i).expected.toNat 8 ++ bytesOf (x.cvReg i).signed.toNat 8)
    ++ (x.lanes.flatMap fun l => bytesOf l.vpc.toNat 8)
    ++ bytesOf ((x.lanes.zipIdx.map fun l => l.1.st.code * 4 ^ l.2).foldl (· + ·) 0) 16
    ++ ((List.range n).flatMap fun r => (List.range x.width).flatMap fun l => bytesOf (x.v r l).toNat 4))

/-- Lengths of the sections between header and progress registers. -/
def sectionLens (ty : TaskType) (nw : Nat) : List Nat :=
  let w := 4 * (ty.width + 1)
  [nw * blockLen w (8 * (ty.nreg + 1)), 256 * ty.scr, 8 * ty.scr, 8 * ty.chan, 16384 * ty.tiles]

/-- Package barriers and cluster barriers of which a group is a member, as a mask of 80 bits. -/
def memberMask (s : State) (g : Group) : Nat :=
  ((s.bars.filter fun e => e.2.members.contains g.gname).map fun e => 2 ^ barRel e.1).foldl (· + ·) 0

/-- The handle of a group. -/
def groupHandle (g : GroupId) : Nat := 2 ^ 20 * cuX (cuOf g) + 2 ^ 16 * cuY (cuOf g) + 2 ^ 11 * (g % 32)

/-- The record of a saved group. -/
def saveBytes (s : State) (sv : Saved) : List Byte :=
  let g := sv.group
  let c := g.cluster.bind fun k => sFind? s.clusters k
  let n := g.nreg
  let items := g.progress ++ sv.warps.flatMap (fun e => cvProgs e.1 e.2) ++ sv.warps.map (fun e => warpProg e.1 e.2)
    ++ sv.warps.filterMap (fun e => e.2.halt.map fun t => trapProg e.1 t) ++ [groupProg s sv]
  let body :=
    padTo 128 (sv.warps.flatMap fun e => warpBlock e.1 e.2 n)
    ++ padTo 128 (g.bytes 0 g.winSize)
    ++ padTo 128 ((List.range (8 * g.ty.scr)).map fun i =>
      BitVec.ofNat 8 (flagsNum ((List.range 8).map fun j => g.isFull (4 * (8 * i + j)))))
    ++ padTo 128 ((List.range g.ty.chan).flatMap fun i => bytesOf (g.chan i).pattern 8)
    ++ ((List.range g.ty.tiles).flatMap fun t => (List.range 4096).flatMap fun e => bytesOf (g.tileElem t e).toNat 4)
    ++ padTo 128 (items.flatMap Prog.bytes)
  let head := bytesOf g.tag.toNat 2 ++ bytesOf g.tt 2 ++ bytesOf g.index 4 ++ bytesOf g.ty.entry.toNat 8
    ++ bytesOf sv.warps.length 2 ++ bytesOf g.width 2 ++ bytesOf n 2 ++ bytesOf g.ty.tiles 2 ++ bytesOf g.ty.chan 2
    ++ bytesOf g.ty.nwarp 2 ++ bytesOf g.winSize 4 ++ bytesOf ((c.map Cluster.side).getD 1) 2
    ++ bytesOf ((c.map fun q => peerIndex q sv.gid).getD 0) 2 ++ bytesOf 0 4 ++ bytesOf (memberMask s g) 16
    ++ bytesOf (128 + body.length) 8 ++ bytesOf (groupHandle sv.gid) 8
  padTo 128 head ++ body

/-! ### Reading a record back -/

/-- A mask from 8 bytes of a record; the bits of lanes that the warp does not have are ignored (R10). -/
def rdMask (bs : List Byte) (off w : Nat) : Mask := BitVec.ofNat 64 (rd bs off 8) &&& fullMask w

/-- A warp from its block. Lanes parked on full/empty words come back eligible (R39); reserved bits are ignored (R6). -/
def readWarp (bs : List Byte) (w n : Nat) (tag : Tag) : Warp :=
  let x := Warp.start w 0 tag 0 0
  let rp := rd bs 8 4
  let lst := rd bs (480 + 8 * w) 16
  let lane (l : Nat) : Lane :=
    ⟨BitVec.ofNat 64 (rd bs (480 + 8 * l) 8), if field lst (2 * l + 1) (2 * l) == 3 then .exited else .eligible, []⟩
  let cv (i : Nat) : Cv :=
    ⟨rdMask bs (352 + 16 * i) w, rdMask bs (352 + 16 * i + 8) w, none, []⟩
  { x with
    lanes := (List.range w).map lane
    fstat := BitVec.ofNat 32 (rd bs 4 4 % 2 ^ 7)
    flm := rdMask bs 16 w
    rep := ⟨flagAt rp 31, field rp 13 8, field rp 5 0, 0, none⟩
    spin := field (rd bs 0 4) 23 16
    hold := if flagAt (rd bs 0 4) 13 then .idle else .none
    sr := (List.range 64).foldl (fun m i => sSet 0 m i (BitVec.ofNat 32 (rd bs (32 + 4 * i) 4))) []
    pr := (List.range 7).foldl (fun m i => sSet 0 m i (rdMask bs (288 + 8 * i) w)) []
    cv := (List.range 8).foldl (fun m i => sSet Cv.zero m i (cv i)) []
    vr := (List.range n).foldl (fun m r => (List.range w).foldl (fun m l =>
      sSet 0 m (64 * r + l) (BitVec.ofNat 32 (rd bs (496 + 8 * w + 4 * (r * w + l)) 4))) m) [] }

/-- What item 6 gives back to a warp. -/
def readExtras (x : Warp) (cluster : Nat) (xs : List Nat) : Warp :=
  let at_ (i : Nat) : Nat := xs.getD i 0
  let asy := takeCounted (xs.drop 13)
  let bad := takeCounted asy.2
  let mask (n : Nat) : Mask := BitVec.ofNat 64 n &&& fullMask x.width
  { x with
    rep := { x.rep with set := mask (at_ 0), only := (numsOpt (xs.drop 1)).map mask }
    lastBack := (numsOpt (xs.drop 3)).map (BitVec.ofNat 64)
    exc := mask (at_ 5)
    excCount := at_ 6
    spin := at_ 7
    barWait := (numsOpt (xs.drop 8)).map (barAbs cluster)
    sawTag := flagAt (at_ 10) 0
    cancelled := flagAt (at_ 10) 1
    exitNow := flagAt (at_ 10) 2
    noMem := flagAt (at_ 10) 3
    relScope := (numsOpt (xs.drop 11)).bind fun c => ofCode Scope.codes c
    asyncs := (pieces 3 asy.1).map fun a => ⟨a.getD 0 0 % 256, BitVec.ofNat 64 (a.getD 1 0), mask (a.getD 2 0)⟩
    bads := (pieces 6 bad.1).map fun b =>
      ⟨b.getD 0 0, b.getD 1 0, (ofCode Wid.codes (b.getD 2 0)).getD .b4, b.getD 3 0 % 256, BitVec.ofNat 64 (b.getD 4 0), b.getD 5 0⟩ }

/-- What item 7 gives back: the trap of a warp. -/
def readTrap (xs : List Nat) : Trap :=
  let at_ (i : Nat) : Nat := xs.getD i 0
  { cause := at_ 0 % 256, addr := BitVec.ofNat 64 (at_ 1), code := BitVec.ofNat 32 (at_ 2), lanes := BitVec.ofNat 64 (at_ 3),
    async := flagAt (at_ 4) 0, inrep := flagAt (at_ 4) 1, brk := flagAt (at_ 4) 2,
    defl := (numsOpt (xs.drop 5)).map fun d => ((ofCode Wid.codes (d % 2 ^ 8)).getD .b4, d / 2 ^ 8),
    addr0 := BitVec.ofNat 64 (at_ 7), next := (numsOpt (xs.drop 8)).map (BitVec.ofNat 64),
    data := (pieces 2 (takeCounted (xs.drop 10)).1).foldl (fun m e => sSet 0 m (e.getD 0 0) (BitVec.ofNat 32 (e.getD 1 0))) [],
    queued := false }

/-- What item 5 gives back: the instruction and the captured words of a set. -/
def readCv (x : Warp) (n : Nat) (bs : List Byte) : Warp :=
  match decode (bs.take 16) with
  | .ok (i, _) => x.setCv n { x.cvReg n with ins := some i, cap := aDense x.width (matCount i x.width) (bs.drop 16) }
  | .error _ => x

/-- The task type that a header describes. -/
def headType (bs : List Byte) : TaskType :=
  { nwarp := rd bs 26 2, width := rd bs 18 2 / 4 - 1, nreg := rd bs 20 2 / 8 - 1, tiles := rd bs 22 2, chan := rd bs 24 2,
    scr := rd bs 28 4 / 256, entry := BitVec.ofNat 64 (rd bs 8 8) }

/-- Offsets of the sections after the header. -/
def sectionOffs (lens : List Nat) : List Nat :=
  (lens.foldl (fun (p : List Nat × Nat) n => (p.1 ++ [p.2], p.2 + roundUp n 128)) ([], 128)).1

/-- Marks of a barrier in a record: barrier number, warp, flags. -/
abbrev Marks := List (List Nat)

/-- A record as it is read: the group, its member mask, its marks, and its key of a cluster with side and peer. -/
structure Record where
  saved : Saved
  mask : Nat
  marks : Marks
  cluster : Option Nat
  side : Nat
  peer : Nat
deriving DecidableEq, Repr

/-- Every vpc of a warp block is one that a lane can hold (R16). -/
def vpcsOk (bs : List Byte) (w : Nat) : Bool :=
  (List.range w).all fun l => rd bs (480 + 8 * l) 8 % 4 == 0 && legalVa (BitVec.ofNat 64 (rd bs (480 + 8 * l) 8))

/-- READ A RECORD; none where it is malformed. `cluster` is the key that its cluster barriers get. -/
def readSaved (bs : List Byte) : Option Record :=
  let ty := headType bs
  let nw := rd bs 16 2
  let w := rd bs 18 2
  let n := rd bs 20 2
  let lens := sectionLens ty nw
  let offs := sectionOffs lens
  let last := (offs.getD 4 0) + 16384 * ty.tiles
  let items := progsOf bs.length (bs.drop last)
  match items.find? fun p => p.kind == 8 with
  | none => none
  | some gp =>
    if rd bs 56 8 != bs.length || bs.length < last || 16 < nw || 64 < w || w == 0 || w % 4 != 0 || 128 < n || n == 0 || n % 8 != 0
        || 8 < ty.tiles || 16 < ty.chan || 2816 < ty.scr || !((List.range nw).all fun i => vpcsOk (bs.drop ((offs.getD 0 0) + blockLen w n * i)) w)
        then none
    else
      let tag : Tag := BitVec.ofNat 16 (rd bs 0 2)
      let xs := nums gp.data
      let key := numsOpt (xs.drop 5)
      let errs := takeCounted (xs.drop 7)
      let pads := takeCounted errs.2
      let pois := takeCounted pads.2
      let defs := takeCounted pois.2
      let marks := takeCounted defs.2
      let h := rd bs 64 8
      let gid := 32 * cuAt (field h 25 20) (field h 19 16) + field h 15 11
      let bl := blockLen w n
      let block (i : Nat) : List Byte := (bs.drop (offs.getD 0 0 + bl * i)).take bl
      let warp (i : Nat) : Warp :=
        let x := readWarp (block i) w n tag
        let x := (items.filter fun p => p.kind == 5 && p.num % 16 == i).foldl (fun x p => readCv x (p.num / 16) p.data) x
        let x := match items.find? fun p => p.kind == 6 && p.num == i with
          | some p => readExtras x (key.getD 0) (nums p.data)
          | none => x
        { x with halt := (items.find? fun p => p.kind == 7 && p.num == i).map fun p => readTrap (nums p.data) }
      let o (i : Nat) : Nat := offs.getD i 0
      let marked (l : List Nat) : Store Bool := l.foldl (fun m k => sSet false m k true) []
      let g : Group :=
        { launch := xs.getD 0 0, index := rd bs 4 4, tt := rd bs 2 2, ty := ty, tag := tag, seed := 0,
          scr := (List.range (256 * ty.scr)).foldl (fun m i => sInsert m i (bs.getD (o 1 + i) 0)) [],
          padPoison := marked pads.1,
          full := (List.range (64 * ty.scr)).foldl (fun m i => sSet false m i (bit (bs.getD (o 2 + i / 8) 0) (i % 8))) [],
          tiles := (List.range (4096 * ty.tiles)).foldl (fun m i => sInsert m i (BitVec.ofNat 32 (rd bs (o 4 + 4 * i) 4))) [],
          poison := marked pois.1,
          chans := (List.range ty.chan).foldl (fun m i =>
            let v := rd bs (o 3 + 8 * i) 8
            sSet ⟨0, 0, 0, 0⟩ m i ⟨field v 55 44, field v 43 32, field v 31 20, field v 19 0⟩) [],
          reserved := [], held := [], slot := gid % 32, vrBase := 0, scrBase := 0, tileBase := 0, chanBase := 0, places := [],
          trig := (numsOpt (xs.drop 1)).map fun t => ⟨field t 7 0, field t 23 8, t / 2 ^ 24⟩,
          failed := flagAt (xs.getD 3 0) 0, abortTaken := flagAt (xs.getD 3 0) 1, cluster := key, peer := rd bs 34 2,
          waitPeers := false, errs := marked errs.1, home := xs.getD 4 0, retired := flagAt (xs.getD 3 0) 2,
          progress := items.filter fun p => p.kind ≤ 4, out := false }
      some
        { saved := ⟨gid, g, (List.range nw).map fun i => (16 * gid + i, warp i),
            (pieces 2 defs.1).map fun d => ⟨16 * gid + d.getD 0 0, ⟨d.getD 1 0 % 8, by omega⟩⟩⟩
          mask := rd bs 40 16, marks := pieces 3 marks.1, cluster := key, side := rd bs 32 2, peer := rd bs 34 2 }

/-! ### Stopping a group (R360, R361) -/

/-- The groups that are pre-empted with a group: its cluster. -/
def clusterOf (s : State) (g : GroupId) : List GroupId :=
  match (s.group? g).bind fun x => x.cluster.bind fun k => sFind? s.clusters k with
  | some c => c.groups
  | none => [g]

/-- A warp of a group stands where it can be pre-empted; `halt` for a partition halt, at which a warp may await trap
service. -/
def warpStands (s : State) (w : WarpId) (x : Warp) (halt : Bool) : Bool :=
  x.sfq.isEmpty && x.cvq.isEmpty
    && (x.exited || (!(s.reqs.any fun e => e.2.wid == w) && !publishOpen s w
      && !(s.cpq.any fun q => q.reply == some w) && x.cow.isNone && (halt || x.halt.isNone)))

/-- An element of a multicast has been delivered to some of the receiving windows only. -/
def EngOp.halfDone (e : EngOp) : Bool :=
  1 < e.arrs.length && e.elems.any fun q => q.val.isSome && q.dst.length < e.arrs.length

/-- THE CONDITIONS OF PRE-EMPTION of a group. An engine operation that is ending in error runs to its end first, and one that has
delivered an element to some windows delivers it to all (R224). -/
def stands (s : State) (g : GroupId) (halt : Bool) : Bool :=
  !(s.engs.any fun e => e.2.gid == g && (e.2.stopping || e.2.ended || e.2.halfDone)) && (s.warpsOf g).all fun w => (s.warp? w).all fun x => warpStands s w x halt
    && !(x.exited && s.reqs.any fun e => e.2.wid == w)

/-- Ask a group to stop at its next boundaries, or take that back. -/
def askStop (s : State) (g : GroupId) (on : Bool) : State :=
  (s.warpsOf g).foldl (fun s w => s.modWarp w fun x => { x with preempt := on }) s

/-- STOP A GROUP: engine and tile operations stop at a boundary and leave their progress, reservations and the collector
latch go. -/
def stopGroup (s : State) (g : GroupId) : State :=
  let s := dropWaiters s fun q => gidOf q.wid == g
  match s.group? g with
  | none => s
  | some gr =>
    let engs := (s.engs.filter fun e => e.2.gid == g).map fun e => engProg e.2
    let mats := ((s.cu (cuOf g)).matq.filter fun q => q.gid == g).map fun q => matProg gr q
    let s := s.setGroup g { gr with progress := gr.progress ++ engs ++ mats, held := [], home := cuOf g }
    let s := { s with engs := sFilter s.engs fun _ e => e.gid != g }
    let s := s.modCu (cuOf g) fun u => { u with matq := u.matq.filter fun q => q.gid != g }
    (s.warpsOf g).foldl (fun s w => s.modWarp w fun x => { x with latchA := none }) s

/-- A stopped group as a whole. -/
def snapshot (s : State) (g : GroupId) (gr : Group) : Saved :=
  ⟨g, gr, s.warps.filter fun e => gidOf e.1 == g, (s.cu (cuOf g)).defMat.filter fun d => gidOf d.wid == g⟩

/-- Free what a saved group holds. Its cluster stays, without it. -/
def removeGroup (s : State) (g : GroupId) : State :=
  let k := (s.group? g).bind Group.cluster
  let s := (dropWarps s g).modCu (cuOf g) fun u => { u with defMat := u.defMat.filter fun d => gidOf d.wid != g }
  { s with
    groups := sErase s.groups g
    clusters := match k with
      | some k => sAdjust s.clusters k fun c => { c with groups := c.groups.filter fun h => h != g }
      | none => s.clusters }

/-! ### Placing a saved group (R39, R248, R361, R363) -/

/-- A warp as it resumes: lanes parked on full/empty words run their instruction again, and its latch is set; where it waits
in idle, it consumes that event (R80, R361; log 58). -/
def resumed (x : Warp) (place quad : Nat) (moved : Bool) : Warp :=
  { x with
    lanes := x.lanes.map fun l => if l.st == .fe || l.st == .ld then { l with st := .eligible, wait := [] } else l
    latch := x.hold != .idle, latchA := none, hold := .none, heldSet := 0, preempt := false, acqReq := [], cow := none,
    noIssueUntil := 0, lastIssue := 0, ibuf := none, fetchBad := none, farRead := [], place := place, quad := quad, noMem := x.noMem || moved, serves := none }

/-- Take up an engine operation again. -/
def takeEng (s : State) (g : GroupId) (gr : Group) (p : Prog) : State :=
  let base : EngOp :=
    { kind := .xcopy, wid := 16 * g + p.num, gid := g, cu := cuOf g, tag := gr.tag, arr := 0, arrs := [g], elems := [],
      readFirst := false, desc := [], k0 := 0, fmt := .bf16, ns := 1, dst := 0, row := 0, mask := 0, block := [], total := 0,
      bads := [], overran := false, stopping := false, ended := false, after := [], depth := writeDepth s g }
  let size (es : List Elem) : Nat := (es.map fun e => e.size).foldl (· + ·) 0
  match p.kind with
  | 2 =>
    let d : Desc := BitVec.ofNat 2048 (rd p.data 0 256)
    let es := (d.elems s g).drop (rd p.data 256 8)
    let vals := p.data.drop 272
    let es := if vals.isEmpty then es else es.zipIdx.map fun e =>
      let o := (d.esz + 1) * e.2
      { e.1 with val := some ((vals.drop o).take d.esz), poison := rd vals (o + d.esz) 1 == 1 }
    addEng s { base with
      arr := rd p.data 264 4, overran := rd p.data 268 1 == 1, arrs := if d.dstk == 2 then peersOf s g d.dsel else [g], elems := es, readFirst := d.meets,
      desc := p.data.take 256, total := size es }
  | 3 =>
    let m := McExt.dec (BitVec.ofNat 64 (rd p.data 20 8))
    let mask : DWord := BitVec.ofNat 64 (rd p.data 8 8)
    let all := mcElems s g (BitVec.ofNat 64 (rd p.data 0 8)) mask (rd p.data 16 4) m
    let es := all.drop (rd p.data 30 2 % 2 ^ 15 * (m.rb.toNat + 1) + rd p.data 28 2 / 16)
    addEng s { base with
      kind := .mcast, overran := 2 ^ 15 ≤ rd p.data 30 2, arr := m.arr.toNat, arrs := peersOf s g mask, elems := es, desc := p.data.take 28, total := size es }
  | _ =>
    let ns := rd p.data 72 1
    addEng s { base with
      kind := .csrg, arr := rd p.data 88 4, desc := p.data.take 64, k0 := rd p.data 64 4, dst := rd p.data 68 4, ns := ns,
      fmt := (ofCode MFmt.codes (rd p.data 73 1)).getD .bf16, total := 128 + 4096 * ns }

/-- Take up a tile operation again; the interlock of R223 applies again to a scratchpad B. -/
def takeMat (s : State) (g : GroupId) (gr : Group) (p : Prog) : State :=
  match decode (p.data.take 16) with
  | .error _ => s
  | .ok (i, _) =>
    let n := matCount i gr.width
    let off := rd p.data 20 4
    let isMat := (matArgs i).isSome
    let a := if isMat then aDense gr.width n (p.data.drop 24) else bytesPairs (p.data.drop 24)
    let (k, s) := s.fresh
    let b := if off != noOff then gr.bytes off (matBBytes i) else if isMat then p.data.drop (24 + 4 * n * gr.width) else []
    let s := if off == noOff then s
      else s.modGroup g fun x => { x with held := x.held ++ [(k, off, matBBytes i)] }
    s.modCu (cuOf g) fun u => { u with matq := u.matq ++ [⟨16 * g + p.num, g, i, a, b, k⟩] }

/-- TAKE UP PROGRESS: the operations of a group go on from their recorded points (R224). -/
def takeUp (s : State) (g : GroupId) : State :=
  match s.group? g with
  | none => s
  | some gr =>
    let s := s.setGroup g { gr with progress := [], waitPeers := false }
    gr.progress.foldl (fun s p => if p.kind == 1 then takeMat s g gr p else takeEng s g gr p) s

/-- When every member of a cluster is loaded, its groups start (R248). -/
def startLoaded (s : State) (k : Nat) : State :=
  match sFind? s.clusters k with
  | some c => if c.groups.length < c.side * c.side then s else c.groups.foldl takeUp s
  | none => s

/-- birfdb's names of a group's warps follow the group. -/
def renameDbg (s : State) (old new : GroupId) : State :=
  if s.dbg.tag.isNone || old == new then s
  else
    let f (w : WarpId) : WarpId := if gidOf w == old then 16 * new + warpIndex w else w
    { s with dbg := { s.dbg with
        selected := s.dbg.selected.map f
        passing := s.dbg.passing.map fun p => (f p.1, p.2)
        letGo := s.dbg.letGo.map f
        resumed := s.dbg.resumed.map f
        stepping := s.dbg.stepping.map fun p => (f p.1, p.2) } }

/-- PLACE A SAVED GROUP in room that has been found on a CU. Its resumption is an acquire there: the CU's si copies go (R274,
R276, R277). -/
def placeSaved (s : State) (sv : Saved) (c : CuId) (spl : Nat) (r : Room) : State :=
  let s := dropSi (setSplit s c spl) c
  let g := 32 * c + r.slot
  let moved := c != sv.group.home
  let gr := { sv.group with
    slot := r.slot, vrBase := r.vr, scrBase := r.scr, tileBase := r.tile, chanBase := r.chan,
    places := if sv.group.retired then [] else r.places, waitPeers := true, out := false, held := [] }
  let s := renameDbg (s.setGroup g gr) sv.gid g
  let s := sv.warps.foldl (fun s e =>
    let i := warpIndex e.1
    let x := resumed e.2 (r.places.getD i 0) (quadFor s c) (moved && !e.2.exited)
    { s with warps := sInsert s.warps (16 * g + i) x, order := s.order ++ [16 * g + i] }) s
  let s := s.modCu c fun u => { u with defMat := u.defMat ++ sv.defs.map fun d => ⟨16 * g + warpIndex d.wid, d.cv⟩ }
  let s := if moved then s.push (.flushByTag sv.group.home sv.group.tag) else s
  match sv.group.cluster with
  | none => takeUp s g
  | some k =>
    let s := { s with clusters := sAdjust s.clusters k fun q =>
      { q with groups := q.groups ++ [g], x0 := cuX c - sv.group.peer % q.side, y0 := cuY c - sv.group.peer / q.side } }
    startLoaded s k

/-- Room for a saved group on a CU that is not fenced. On the CU where it was it gets its own slot again, where that is free
(R435; log 89). -/
def savedRoom (s : State) (sv : Saved) (c : CuId) (spl : Nat) : Option Room :=
  let ty := sv.group.ty
  let ty := if sv.group.retired then { ty with nwarp := 0, tiles := 0, chan := 0 } else ty
  if !splitOk s c spl || s.host.dead.contains (dieOf c) then none
  else
    (findRoom s c ty spl).map fun r =>
      if c == cuOf sv.gid && (s.group? sv.gid).isNone then { r with slot := sv.gid % 32 } else r

/-- Rooms for the members of a cluster, each on a CU of its own. -/
def roomsFor (s : State) (spl : Nat) : List (Saved × CuId) → Option (List (Saved × CuId × Room))
  | [] => some []
  | (sv, c) :: rest =>
    match savedRoom s sv c spl with
    | none => none
    | some r => (roomsFor s spl rest).map fun l => (sv, c, r) :: l

/-- Where the members of a cluster may be loaded: their own CUs first, then every aligned place of the rectangle. -/
def placesFor (l : Launch) (side : Nat) (ms : List Saved) : List (List (Saved × CuId)) :=
  let n := max side 1
  (ms.map fun m => (m, m.group.home)) ::
    (List.range (l.w / n * (l.h / n))).map fun i =>
      ms.map fun m => (m, cuAt (l.x0 + n * (i % (l.w / n)) + m.group.peer % n) (l.y0 + n * (i / (l.w / n)) + m.group.peer / n))

/-- Load the saved groups of a cluster where there is room for all of them. -/
def restoreCluster (s : State) (k : Option Nat) : State :=
  let ms := s.saved.filter fun e => e.group.cluster == k
  match ms with
  | [] => s
  | m :: _ =>
    match sFind? s.launches m.group.launch with
    | none => s
    | some l =>
      let side := ((k.bind fun k => sFind? s.clusters k).map Cluster.side).getD 1
      match (placesFor l side ms).findSome? (roomsFor s l.spl) with
      | none => s
      | some rs =>
        rs.foldl (fun s e => placeSaved s e.1 e.2.1 l.spl e.2.2) { s with saved := s.saved.filter fun e => e.group.cluster != k }

/-- Load every saved group whose context has its turn. -/
def restoreSaved (s : State) : State :=
  let here (t : Tag) : Bool := !(s.ctx t).out && (s.ctx t).halting == 0 && !(s.sup.switching.any fun p => p.1 == t)
  (((s.saved.filter fun e => here e.group.tag).map fun e => e.group.cluster).eraseDups).foldl restoreCluster s

/-! ### ctxsave and ctxload (R247, R248) -/

/-- The CU that a handle names; an x above 47 names none. -/
def handleCu (h : Nat) : Option CuId := if field h 25 20 < 48 then some (cuAt (field h 25 20) (field h 19 16)) else none

/-- The group that a handle names, in a context. -/
def handleGroup (s : State) (h : Nat) (t : Tag) : Option (GroupId × Group) :=
  (handleCu h).bind fun c =>
  let g := 32 * c + field h 15 11
  (s.group? g).bind fun gr => if gr.tag == t && !gr.out then some (g, gr) else none

/-- Physical addresses of bytes that a unit writes, or the cause and address of the first that faults; cause 0 stands for
a wait. -/
def virtPas (s : State) (c : CuId) (t : Tag) (sup : Bool) (va : Addr) : Nat → Except (Nat × Addr) (List Nat) × State
  | 0 => (.ok [], s)
  | n + 1 =>
    match translate s c t sup .write va with
    | (.fault f, s) => (.error (f, va), s)
    | (.wait, s) => (.error (0, va), s)
    | (.cow, s) =>
      match breakPage s t va none none with
      | .noFrame => (.error (0x12, va), s)
      | .done s => (.error (0, va), s)
      | .wait => (.error (0, va), s)
    | (.ok pa _, s) =>
      if spaceOf s pa == .view then (.error (0x13, va), s)
      else if (accEnt s pa).isSome then (.error (0x14, va), s)
      else if (homeByte? s pa).isNone then (.error (0x15, va), s)
      else
        match virtPas s c t sup (va + 1) n with
        | (.ok ps, s) => (.ok (pa :: ps), s)
        | r => r

/-- Write bytes at physical addresses. -/
def writePas (s : State) (ps : List Nat) (bs : List Byte) : State :=
  (ps.zip bs).foldl (fun s e => homeStore s e.1 [e.2] 0 Writer.plain) s

/-- A group's record has been written: it is out, and its cluster's resources go once all of it is. -/
def saveDone (s : State) (g : GroupId) (gr : Group) : State :=
  let s := s.modGroup g fun x => { x with out := true }
  let live := ((s.warpsOf g).filter fun w => ((s.warp? w).map fun x => !x.exited).getD false).map warpIndex
  let s := { s with launches := sAdjust s.launches gr.launch fun l => { l with savedOut := l.savedOut ++ [(gr.index, live)] } }
  let all := clusterOf s g
  if all.all fun h => ((s.group? h).map fun x => x.out).getD true then all.foldl removeGroup s else s

/-- ctxsave. -/
def execCtxsave (p : Pr) (d a b : Operand) (s : State) : Host.Outcome State Fault Refusal :=
  run (.ctxsave p d a b) s fun x s =>
    let va := sc64v s x a
    if heldBack s x.w true then .hold .other s else
    match handleGroup s (sc32 s x b) s.sup.ctxsel with
    | none => .done (status s x d 0x80000002)
    | some (g, gr) =>
      let all := clusterOf s g
      if va.toNat % 128 != 0 then laneFaults x s 0x04 va
      else if (s.warpsOf g).any fun w => ((s.warp? w).map fun y => y.halt.isSome).getD false then
        .done (status (all.foldl (fun s h => askStop s h false) s) x d 0x80000001)
      else
        let s := all.foldl (fun s h => askStop s h true) s
        if !(all.all fun h => stands s h false) then .hold .other s
        else
          let s := all.foldl stopGroup s
          let bs := saveBytes s (snapshot s g ((s.group? g).getD gr))
          match virtPas s (cuOf x.gid) (tagOf s x.w) (isSup x.w) va bs.length with
          | (.error (0, _), s) => .hold .other s
          | (.error (c, v), s) => laneFaults x s c v
          | (.ok ps, s) => .done (status (saveDone (writePas s ps bs) g gr) x d 0)

/-- A record names a group that its context has saved, of the launch and task type it describes, and a place in its
cluster. -/
def recordFits (s : State) (r : Record) : Bool :=
  let g := r.saved.group
  match sFind? s.launches g.launch with
  | none => false
  | some l =>
    l.tag == g.tag && l.types[g.tt]? == some g.ty && (l.savedOut.any fun o => o.1 == g.index)
      && (match g.cluster.bind fun k => sFind? s.clusters k with
        | some c => c.side == r.side && r.peer < r.side * r.side
        | none => false)

/-- The CU suits the members of the cluster that are loaded already: the origin that a member's CU gives is theirs. -/
def suits (s : State) (r : Record) (c : CuId) : Bool :=
  match r.cluster.bind fun k => sFind? s.clusters k with
  | some q =>
    r.peer % q.side ≤ cuX c && r.peer / q.side ≤ cuY c
      && (cuX c - r.peer % q.side) % q.side == 0 && (cuY c - r.peer / q.side) % q.side == 0
      && (q.groups.isEmpty || (q.x0 == cuX c - r.peer % q.side && q.y0 == cuY c - r.peer / q.side))
  | none => false

/-- The bytes of a saved group's record, read as .unc loads; none where the length it gives is out of range. -/
def savedBytes (s : State) (r : Reader) (t : Tag) (sup : Bool) (va : Addr) : Except (Nat × Addr) (Option (List Byte)) × State :=
  readEnds r (match virtBytes s r t sup va 128 with
    | (.error e, s) => (.error e, s)
    | (.ok hd, s) =>
      let n := rd hd 56 8
      if n < 128 || 2 ^ 24 ≤ n then (.ok none, s)
      else
        match virtBytes s r t sup (va + 128) (n - 128) with
        | (.error e, s) => (.error e, s)
        | (.ok more, s) => (.ok (some (hd ++ more)), s))

/-- ctxload. -/
def execCtxload (p : Pr) (d a b : Operand) (s : State) : Host.Outcome State Fault Refusal :=
  run (.ctxload p d a b) s fun x s =>
    let va := sc64v s x a
    let h := sc32 s x b
    let t := tagOf s x.w
    if heldBack s x.w true then .hold .other s
    else if va.toNat % 128 != 0 then laneFaults x s 0x04 va
    else
      match savedBytes s (.warp x.w) t (isSup x.w) va with
      | (.error (0, _), s) => .hold .other s
      | (.error (c, v), s) => laneFaults x s c v
      | (.ok none, s) => .done (status s x d 0x80000003)
      | (.ok (some bs), s) =>
        match (readSaved bs).filter (recordFits s) with
        | none => .done (status s x d 0x80000003)
        | some r =>
          let l := sFind? s.launches r.saved.group.launch
          let spl := (l.map Launch.spl).getD 0
          match (handleCu h).bind fun c => (savedRoom s r.saved c spl).map fun room => (c, room) with
          | none => .done (status s x d 0x80000004)
          | some (c, room) =>
            if (s.group? (32 * c + field h 15 11)).isSome || !suits s r c then .done (status s x d 0x80000004)
            else
              let gr := r.saved.group
              let s := { s with launches := sAdjust s.launches gr.launch fun l =>
                { l with savedOut := l.savedOut.filter fun o => o.1 != gr.index } }
              .done (status (placeSaved s r.saved c spl { room with slot := field h 15 11 }) x d 0)

/-- A flush-by-tag has been acknowledged: a pre-emption of birfdb that awaits it, and no other, is over (R383). -/
def movedFlush (s : State) (c : CuId) (t : Tag) : State :=
  match s.dbg.moving with
  | some m =>
    match m.flush with
    | some cs =>
      if m.tag != t || !cs.contains c then s
      else
        let cs := cs.filter fun d => d != c
        { s with dbg := { s.dbg with moving := if cs.isEmpty then none else some { m with flush := some cs } } }
    | none => s
  | none => s

/-- FLUSH_BY_TAG: the old CU flushes what it holds of a context, and the groups that came from it may use memory. -/
def execFlushByTag (c : CuId) (t : Tag) (s : State) : Host.Outcome State Fault Refusal :=
  let s := movedFlush (flushTag s c t) c t
  .next ((s.groups.filter fun e => e.2.tag == t && e.2.home == c).foldl (fun s e =>
    (s.warpsOf e.1).foldl (fun s w => s.modWarp w fun x => { x with noMem := false }) s) s)

/-- GROUP_RETIRE. Saved groups of contexts that have their turn take up the room. -/
def execGroupRetire (g : GroupId) (s : State) : Host.Outcome State Fault Refusal := .next (restoreSaved (retireGroup s g))

/-! ### Pre-emption and context switches (R306, R360) -/

/-- Save a cluster within the machine. -/
def saveCluster (s : State) (all : List GroupId) : State :=
  let s := all.foldl stopGroup s
  let svs := all.filterMap fun h => (s.group? h).map fun gr => snapshot s h gr
  all.foldl removeGroup { s with saved := s.saved ++ svs }

/-- Where the members of a cluster go when one of them goes to a CU: they keep their places around it, in the launch's
rectangle, from an origin that is aligned to the cluster's side (R12, R383). -/
def movedPlaces (l : Launch) (side : Nat) (ms : List Saved) (g : GroupId) (c : CuId) : Option (List (Saved × CuId)) :=
  let n := max side 1
  (ms.find? fun m => m.gid == g).bind fun m =>
    let p := m.group.peer
    let x := cuX c - p % n
    let y := cuY c - p / n
    if p % n ≤ cuX c && p / n ≤ cuY c && x % n == 0 && y % n == 0 && l.x0 ≤ x && l.y0 ≤ y && x + n ≤ l.x0 + l.w && y + n ≤ l.y0 + l.h
    then some (ms.map fun m => (m, cuAt (x + m.group.peer % n) (y + m.group.peer / n))) else none

/-- The rooms for the members of a cluster when one of them moves to a CU. -/
def movedRooms (s : State) (ms : List Saved) (g : GroupId) (c : CuId) : Option (Nat × List (Saved × CuId × Room)) :=
  match ms with
  | [] => none
  | m :: _ =>
    (sFind? s.launches m.group.launch).bind fun l =>
      let side := ((m.group.cluster.bind fun k => sFind? s.clusters k).map Cluster.side).getD 1
      (movedPlaces l side ms g c).bind fun ps => (roomsFor s l.spl ps).map fun rs => (l.spl, rs)

/-- Put a cluster that birfdb moved where it named; where there is no room it waits with the saved groups (R383). -/
def reload (s : State) (k : Option Nat) (g : GroupId) (c : CuId) : State :=
  match movedRooms s (s.saved.filter fun e => e.group.cluster == k) g c with
  | some (spl, rs) =>
    rs.foldl (fun s e => placeSaved s e.1 e.2.1 spl e.2.2) { s with saved := s.saved.filter fun e => e.group.cluster != k }
  | none => restoreCluster s k

/-- A pre-empted cluster has been loaded again: the command is over, or awaits the flushes of the CUs that its groups left. -/
def awaitFlush (s : State) (m : Moving) (k : Option Nat) (from_ : List CuId) : State :=
  let now := (s.groups.filter fun e => e.2.cluster == k).map fun e => cuOf e.1
  let left := if now.isEmpty then [] else from_.filter fun c => !now.contains c
  { s with dbg := { s.dbg with moving := if left.isEmpty then none else some { m with flush := some left } } }

/-- PREEMPTION: a group that has been asked to stop, for a context switch or by birfdb, stands and is saved with its
cluster. -/
def execPreemption (g : GroupId) (s : State) : Host.Outcome State Fault Refusal :=
  match s.group? g with
  | none => .next s
  | some gr =>
    let all := clusterOf s g
    let asked := all.all fun h => (s.warpsOf h).all fun w => ((s.warp? w).map Warp.preempt).getD true
    if !asked || !(all.all fun h => stands s h false) then .next s
    else if s.sup.switching.any fun p => p.1 == gr.tag then .next (saveCluster s all)
    else
      match s.dbg.moving with
      | some m =>
        if all.contains m.gid && m.flush.isNone then
          .next (awaitFlush (reload (saveCluster s all) gr.cluster m.gid m.dest) m gr.cluster (all.map cuOf))
        else .next s
      | none => .next s

/-- The groups of a context that are resident. -/
def groupsOf (s : State) (t : Tag) : List GroupId :=
  (s.groups.filter fun e => e.2.tag == t && !isCurator (cuOf e.1)).map fun e => e.1

/-- Entries of a context leave every queue for the list held aside (R294). -/
def setAside (s : State) (t : Tag) : State :=
  let mine (q : Task) : Bool := ((sFind? s.launches q.launch).map fun l => l.tag == t).getD false
  (s.cus.map fun e => e.1).foldl (fun s c => s.modCu c fun u =>
    { u with queue := u.queue.filter fun q => !mine q, aside := u.aside ++ u.queue.filter mine }) s

/-- Entries held aside return ahead of those that came meanwhile (R294). -/
def bringBack (s : State) (t : Tag) : State :=
  let mine (q : Task) : Bool := ((sFind? s.launches q.launch).map fun l => l.tag == t).getD false
  (s.cus.map fun e => e.1).foldl (fun s c => s.modCu c fun u =>
    { u with queue := u.aside.filter mine ++ u.queue, aside := u.aside.filter fun q => !mine q }) s

/-- The context that waits had its turn before another did: its turn comes first (R303). -/
def before (s : State) (v u : Tag) : Bool :=
  (s.ctx v).turn < (s.ctx u).turn || ((s.ctx v).turn == (s.ctx u).turn && v.toNat < u.toNat)

/-- Some context that is switched out waits for its turn on CUs that a context uses, and its turn comes before another's. -/
def waitsBefore (s : State) (t u : Tag) : Bool :=
  s.ctxs.any fun e => e.2.out && before s (BitVec.ofNat 16 e.1) u && shareCus s t (BitVec.ofNat 16 e.1)

/-- A context that is switched out may begin its turn: no context that has its turn shares its CUs, and none that shares them
waits before it (R303, R306). -/
def mayEnter (s : State) (u : Tag) : Bool :=
  (s.ctx u).out && !(s.launches.any fun e => !(s.ctx e.2.tag).out && shareCus s u e.2.tag) && !waitsBefore s u u

/-- A switch is due: a quantum has ended on CUs that two contexts share, where the one that comes has its turn already or is
next, or the one that has its turn has no launch. -/
def switchDue (s : State) (t u : Tag) : Bool :=
  match s.sup.switching with
  | some p => p == (t, u)
  | none =>
    t != u && (s.ctx t).halting == 0 && !(s.ctx t).out
      && if hasLaunch s t then
          shareCus s t u && (s.ctx t).turn + 1400 * s.host.quantum ≤ s.fc && (!(s.ctx u).out || !waitsBefore s t u)
        else mayEnter s u

/-- A context's turn begins. -/
def beginsTurn (s : State) (u : Tag) : State := bringBack (s.modCtx u fun c => { c with out := false, turn := s.fc }) u

/-- Contexts that may begin their turns do. -/
def admitWaiting (s : State) : State :=
  s.ctxs.foldl (fun s e => if mayEnter s (BitVec.ofNat 16 e.1) then beginsTurn s (BitVec.ofNat 16 e.1) else s) s

/-- CONTEXT_SWITCH: the groups of the context whose turn ends are asked to stop; once all are saved, the turns of those that
wait begin, and of one that shared the CUs with it. -/
def execContextSwitch (t u : Tag) (s : State) : Host.Outcome State Fault Refusal :=
  if !switchDue s t u then .next s
  else
    match groupsOf s t with
    | [] =>
      let s := setAside (s.modCtx t fun c => { c with out := hasLaunch s t }) t
      let s := admitWaiting (if (s.ctx u).out then s else s.modCtx u fun c => { c with turn := s.fc })
      .next (fillAll (restoreSaved { s with sup := { s.sup with switching := none } }))
    | gs => .next { gs.foldl (fun s g => askStop s g true) s with sup := { s.sup with switching := some (t, u) } }

end Sys2Proof.Machine
end

