-- ==== Sys2Proof/Machine/Halt.lean ====
section
/-! DEFINITION. The halt of a context's partition with its dump (R305, R434), and the resumption of a dump (R435). -/

namespace Sys2Proof.Machine

open Sys2Proof

/-! ### What a dump holds (R434; log 11) -/

/-- The incomplete launches of a context. -/
def launchesOf (s : State) (t : Tag) : List (Nat × Launch) := s.launches.filter fun e => e.2.tag == t

/-- A launch's record, after a word with its identifier. -/
def recordPart (e : Nat × Launch) : List Byte := bytesOf e.1 8 ++ e.2.record

/-- A frozen entry in 16 bytes: arguments, or the granule of the trigger that made it; launch, task type, CU, kind (0 from enq, 1
linked, 2 linked and not queued yet, 3 from a trigger), group index. -/
def entryPart (s : State) (c : CuId) (t : Task) (waiting : Bool) : List Byte :=
  let kind := match t.kind with | .linked _ => (if waiting then 2 else 1) | .trigger _ => 3 | _ => 0
  let first := match t.kind with
    | .trigger k => bytesOf (((sFind? s.trigs k).map fun x => x.granule.toNat).getD 0) 8
    | _ => bytesOf (t.args.getD 0 0).toNat 4 ++ bytesOf (t.args.getD 1 0).toNat 4
  first ++ bytesOf (t.launch % 2 ^ 24 + 2 ^ 24 * t.tt + 2 ^ 29 * c + 2 ^ 39 * kind + 2 ^ 41 * (t.index % 2 ^ 23)) 8

/-- The frozen entries of a context, queue by queue, then those not queued yet. -/
def entryParts (s : State) (ls : List (Nat × Launch)) : List (List Byte) :=
  let mine (q : Task) : Bool := ls.any fun l => l.1 == q.launch
  (s.cus.flatMap fun e => ((e.2.queue ++ e.2.aside).filter mine).map fun t => entryPart s e.1 t false)
    ++ ls.flatMap fun l => l.2.toQueue.flatMap fun g => g.map fun e => entryPart s e.1 e.2 true

/-- The pending granules of a context: address, region, depth. -/
def triggerParts (s : State) (ls : List (Nat × Launch)) : List (List Byte) :=
  (s.trigs.filter fun e => ls.any fun l => l.1 == e.2.launch).map fun e =>
    bytesOf e.2.granule.toNat 8 ++ bytesOf e.2.region 4 ++ bytesOf e.2.depth 4

/-- The parts that fit from an offset on, and whether one did not. -/
def fitParts (size : Nat) : List (List Byte) → Nat → List (List Byte) × Bool
  | [], _ => ([], false)
  | b :: bs, off =>
    if off + b.length ≤ size then
      let r := fitParts size bs (off + b.length)
      (b :: r.1, r.2)
    else ((fitParts size bs off).1, true)

/-- Groups in group order: by launch and group index. -/
def inOrder (svs : List Saved) : List Saved :=
  (svs.foldl (fun (m : Store Saved) v => sInsert m (2 ^ 40 * v.group.launch + v.group.index) v) []).map fun e => e.2

/-- THE DUMP of a context's partition, whose groups stand stopped. -/
def dumpBytes (s : State) (t : Tag) (cause size : Nat) (svs : List Saved) : List Byte :=
  let ls := launchesOf s t
  let recs := padTo 128 (ls.flatMap recordPart)
  let areas := fitParts size ((inOrder svs).map (saveBytes s)) (128 + recs.length)
  let o1 := 128 + recs.length + (areas.1.map List.length).foldl (· + ·) 0
  let entries := fitParts size (entryParts s ls) o1
  let o2 := o1 + 16 * entries.1.length
  let trigs := fitParts size (triggerParts s ls) o2
  let o3 := o2 + 16 * trigs.1.length
  let tail := fitParts size (ls.map fun l => bytesOf l.2.counter 8) o3
  let trunc := areas.2 || entries.2 || trigs.2 || tail.2 || size < 128 + recs.length
  let regions := ((s.regions.filter fun e => e.2.live && ls.any fun l => l.1 == e.2.launch).map fun e => 2 ^ e.1).foldl (· + ·) 0
  let head := bytesOf t.toNat 2 ++ bytesOf cause 2 ++ bytesOf ls.length 4 ++ bytesOf areas.1.length 4
    ++ bytesOf (if trunc then 1 else 0) 4 ++ bytesOf entries.1.length 4 ++ bytesOf trigs.1.length 4 ++ bytesOf 0 8
    ++ bytesOf regions 32
  (padTo 128 head ++ (if size < 128 + recs.length then [] else recs) ++ areas.1.flatten ++ entries.1.flatten
    ++ trigs.1.flatten ++ tail.1.flatten).take size

/-- Write bytes at a physical address, as the curator does. -/
def physWrite (s : State) (pa : Nat) (bs : List Byte) : State :=
  writePas s ((List.range bs.length).map fun i => pa + i) bs

/-! ### The halt (R305) -/

/-- Every group of a context stands, and what its retired groups wrote is accepted. -/
def haltReady (s : State) (t : Tag) : Bool :=
  ((groupsOf s t).all fun g => stands s g true)
    && !(s.reqs.any fun e => (launchesOf s t).any fun l => e.2.wid / 2 ^ 40 == l.1 + 1)

/-- The traps of a context's warps leave their queues, and handlers that serve them serve nothing any more. -/
def dropTraps (s : State) (t : Tag) : State :=
  let mine (w : WarpId) : Bool := ((s.warp? w).map fun x => x.tag == t && x.halt.isSome).getD false && !isSup w
  { s with
    sup := { s.sup with traps := s.sup.traps.map fun e => (e.1, e.2.filter fun w => !mine w) }
    warps := s.warps.map fun e => if e.2.serves.any mine then (e.1, { e.2 with serves := none }) else e }

/-- Everything of a context's launches leaves the CUs, the queues and the trigger units. -/
def clearPartition (s : State) (t : Tag) : State :=
  let ls := launchesOf s t
  let gone (l : Nat) : Bool := ls.any fun e => e.1 == l
  let ks := (s.clusters.filter fun e => gone e.2.launch).map fun e => e.1
  let s := (groupsOf s t).foldl removeGroup s
  let s := (s.cus.map fun e => e.1).foldl (fun s c => s.modCu c fun u =>
    { u with queue := u.queue.filter fun q => !gone q.launch, aside := u.aside.filter fun q => !gone q.launch }) s
  { s with
    saved := s.saved.filter fun e => !gone e.group.launch
    clusters := sFilter s.clusters fun k _ => !ks.contains k
    bars := sFilter s.bars fun b _ => b < 64 || !ks.contains ((b - 64) / 16)
    launches := s.launches.map fun e =>
      if e.2.tag == t then (e.1, { e.2 with halted := true, toQueue := [], staged := true, savedOut := [] }) else e
    sup := { s.sup with switching := s.sup.switching.filter fun p => p.1 != t && p.2 != t } }

/-- A region that a halted launch leaves: it is unwatched, with its pending triggers. -/
def leaveRegions (s : State) (t : Tag) : State :=
  let ls := launchesOf s t
  ((s.regions.filter fun e => ls.any fun l => l.1 == e.2.launch).map fun e => e.1).foldl unwatchRegion s

/-- Complete the launches of a context. -/
def endLaunches (s : State) (t : Tag) : State :=
  (launchesOf s t).foldl (fun s l => match sFind? s.launches l.1 with | some x => endLaunch s l.1 x | none => s) s

/-- THE HALT of a partition that stands. -/
def haltPartition (s : State) (t : Tag) : State :=
  let c := s.ctx t
  let low := ((launchesOf s t).head?.map fun l => l.1).getD 0
  let s := (groupsOf s t).foldl stopGroup s
  let here := (groupsOf s t).filterMap fun g => (s.group? g).map fun gr => snapshot s g gr
  let svs := here ++ s.saved.filter fun e => e.group.tag == t
  let s := if c.dumpSize < 128 then s else physWrite s c.dumpBase (dumpBytes s t c.halting c.dumpSize svs)
  let s := endLaunches (leaveRegions (clearPartition (dropTraps s t) t) t) t
  let s := fillAll (s.modCtx t fun c => { c with halting := 0, out := false })
  postEvent s (s.ctx t).evtq 0 0xFFFF0002 (BitVec.ofNat 32 low)

/-- PARTITION_HALT: a halt that has begun completes once every warp of the partition stands. -/
def execPartitionHalt (t : Tag) (cause : Nat) (s : State) : Host.Outcome State Fault Refusal :=
  if cause != 0 && (s.ctx t).halting == cause && haltReady s t then .next (haltPartition s t) else .next s

/-! ### DUMPRUN (R435) -/

/-- What resuming a dump builds up: the state, old and new launches, old and new clusters, old and new regions. -/
structure Rerun where
  s : State
  launches : List (Nat × Nat)
  clusters : List ((Nat × Nat) × Nat)
  regions : List (Nat × Nat)

/-- A new name for an old launch or region. -/
def renamed (m : List (Nat × Nat)) (n : Nat) : Nat := ((m.find? fun e => e.1 == n).map fun e => e.2).getD n

/-- The launch records of a dump: identifier and bytes, with the offset past them. -/
def dumpRecords (s : State) (base : Nat) : Nat → Nat → List (Nat × List Byte) × Nat
  | 0, o => ([], o)
  | n + 1, o =>
    let len := (hdrOf (coherentBytes s (base + o + 8) 128)).len
    let r := dumpRecords s base n (o + 8 + len)
    ((coherentNat s (base + o) 8, coherentBytes s (base + o + 8) len) :: r.1, r.2)

/-- The save areas of a dump, with the offset past them. -/
def dumpAreas (s : State) (base : Nat) : Nat → Nat → List (List Byte) × Nat
  | 0, o => ([], o)
  | n + 1, o =>
    let len := coherentNat s (base + o + 56) 8
    let r := dumpAreas s base n (o + len)
    (coherentBytes s (base + o) len :: r.1, r.2)

/-- Create a launch from its record: a new identifier, its barriers but for those of another context (log 32), no staging. -/
def rerunLaunch (t : Tag) (r : Rerun) (e : Nat × List Byte) (counter : Nat) : Rerun :=
  let h := hdrOf e.2
  let l := nextLaunch r.s
  let free (b : Nat) : Bool := ((r.s.bar b).owner).all fun o => o == t
  let s := allotBars { r.s with launchId := l } t l (BitVec.ofNat 64 (((List.range 64).filter fun b => bit h.barreq b && free b).map fun b => 2 ^ b).sum)
  let x : Launch :=
    { tag := t, x0 := h.x0, y0 := h.y0, w := h.w, h := h.h', side := h.side, spl := h.spl,
      types := (List.range h.ntt).map fun i => taskOf (entryAt e.2 128 i)
      inittt := h.inittt, args := (List.range h.argn).map h.arg, barreq := h.barreq, cwaddr := h.cwaddr, ws := [],
      staged := true, record := e.2, toQueue := [], counter := counter, regions := [], halted := false, savedOut := [] }
  { r with s := { s with launches := sInsert s.launches l x }, launches := r.launches ++ [(e.1, l)] }

/-- The new cluster for an old one, made at its first use. -/
def rerunCluster (r : Rerun) (l key side x y : Nat) : Nat × Rerun :=
  match r.clusters.find? fun e => e.1 == (l, key) with
  | some e => (e.2, r)
  | none =>
    let (k, s) := addCluster r.s (renamed r.launches l) side x y
    (k, { r with s := s, clusters := r.clusters ++ [((l, key), k)] })

/-- The region of an old number, as the watch area describes it. -/
def tableRegion (s : State) (t : Tag) (old launch run : Nat) : Region :=
  let e := BitVec.ofNat 512 (coherentNat s (watchBase s + 64 * old) 64)
  { regionOf e t launch with run := run }

/-- Watch a region of a dump again (log 32): its number stays, where no live region has taken it. -/
def rerunRegion (t : Tag) (svs : List Record) (r : Rerun) (old : Nat) : Rerun :=
  let e := BitVec.ofNat 512 (coherentNat r.s (watchBase r.s + 64 * old) 64)
  let l := renamed r.launches (bits e 447 424)
  let run := (svs.filter fun v => v.saved.group.trig.any fun g => g.region == old).length
  let g := tableRegion r.s t old l run
  let n := if ((sFind? r.s.regions old).map Region.live).getD false then freeRegion r.s else old
  let s := mapRegion (putRegion r.s n g) n g
  let s := { s with launches := sAdjust s.launches l fun x => { x with regions := x.regions ++ [n] } }
  { r with s := s, regions := r.regions ++ [(old, n)] }

/-- A record's group under its new names, among the saved groups, with its memberships and marks. -/
def rerunGroup (r : Rerun) (v : Record) : Rerun :=
  let g := v.saved.group
  let home := cuOf v.saved.gid
  let n := max v.side 1
  let (k, r) := rerunCluster r g.launch (v.cluster.getD 0) n (cuX home - v.peer % n) (cuY home - v.peer / n)
  let g' := { g with
    launch := renamed r.launches g.launch, cluster := some k, home := home,
    trig := g.trig.map fun t => { t with region := renamed r.regions t.region } }
  let warps := v.saved.warps.map fun e =>
    (e.1, { e.2 with barWait := e.2.barWait.map fun b => barAbs k (barRel b), noMem := false })
  let s := { r.s with saved := r.s.saved ++ [{ v.saved with group := g', warps := warps }] }
  let s := ((List.range 80).filter fun b => flagAt v.mask b).foldl (fun s b => joinBar s g'.gname (barAbs k b)) s
  let s := v.marks.foldl (fun s m =>
    let b := barAbs k (m.getD 0 0)
    let q := s.bar b
    let a : Arrival := ⟨g'.gname, m.getD 1 0, q.gen⟩
    s.setBar b { q with
      arrived := if flagAt (m.getD 2 0) 0 then q.arrived ++ [a] else q.arrived
      waits := if flagAt (m.getD 2 0) 1 then q.waits ++ [a] else q.waits }) s
  { r with s := s }

/-- An entry that a trigger made goes back to its queue, where there is room, with its trigger, which is pending again; else the
trigger stays at its unit. -/
def rerunTriggered (r : Rerun) (l : Nat) (c : CuId) (x : Nat) (va : Addr) : Rerun :=
  match r.s.trigs.find? fun e => e.2.launch == l && e.2.granule == va && !e.2.queued && !e.2.spilled with
  | none => r
  | some (k, t) =>
    if !queueRoom r.s c then r
    else
      let q : Task := { launch := l, tt := field x 28 24, args := [], index := field x 63 41, kind := .trigger k, member := false }
      { r with s := enqueue { r.s with trigs := sInsert r.s.trigs k { t with queued := true, index := field x 63 41 } } c q }

/-- An entry goes back to its queue; one for which there is no room, or that had not been queued, waits with its
launch. -/
def rerunEntry (r : Rerun) (bs : List Byte) : Rerun :=
  let x := rd bs 8 8
  let old := field x 23 0
  let c := field x 38 29
  let kind := field x 40 39
  let l := renamed r.launches old
  match sFind? r.s.launches l with
  | none => r
  | some la =>
    if kind == 3 then rerunTriggered r l c x (BitVec.ofNat 64 (rd bs 0 8)) else
    let n := max la.side 1
    let ox := la.x0 + (cuX c - la.x0) / n * n
    let oy := la.y0 + (cuY c - la.y0) / n * n
    let (k, r) : Nat × Rerun := if kind == 0 then (0, r) else rerunCluster r old (2 ^ 40 + cuAt ox oy) n ox oy
    let t : Task :=
      { launch := l, tt := field x 28 24,
        args := if kind == 0 then [BitVec.ofNat 32 (rd bs 0 4), BitVec.ofNat 32 (rd bs 4 4)] else la.args,
        index := field x 63 41, kind := if kind == 0 then .enq else .linked k, member := kind != 0 }
    let s := if kind == 0 then r.s
      else
        let s := ((List.range 64).filter fun b => bit la.barreq b).foldl (fun s b => joinBar s ⟨l, t.index⟩ b) r.s
        (List.range 16).foldl (fun s b => joinBar s ⟨l, t.index⟩ (64 + 16 * k + b)) s
    if kind != 2 && queueRoom s c then { r with s := enqueue s c t }
    else
      let more (q : List (List (CuId × Task))) : List (List (CuId × Task)) :=
        match q.getLast? with
        | some g => if kind == 2 && g.any (fun e => e.2.kind == t.kind) then q.dropLast ++ [g ++ [(c, t)]] else q ++ [[(c, t)]]
        | none => [[(c, t)]]
      { r with s := { s with launches := sAdjust s.launches l fun y => { y with toQueue := more y.toQueue } } }

/-- A pending granule goes back to its trigger unit. -/
def rerunTrigger (r : Rerun) (bs : List Byte) : Rerun :=
  let n := renamed r.regions (rd bs 8 4)
  let va : Addr := BitVec.ofNat 64 (rd bs 0 8)
  match sFind? r.s.regions n with
  | none => r
  | some g =>
    match physOf r.s g.tag va with
    | none => r
    | some pa => { r with s := changed r.s n { g with casc := 63 } va pa ⟨rd bs 12 4, none, false, noSrc⟩ }

/-- The traps of a context's warps stand in their curators' queues. -/
def queueTraps (s : State) (t : Tag) : State :=
  (s.warps.filter fun e => e.2.tag == t && !isSup e.1).foldl (fun s e =>
    match e.2.halt with
    | some h =>
      if h.queued then s
      else
        let d := dieOf (cuOf (gidOf e.1))
        let s := s.setWarp e.1 { e.2 with halt := some { h with queued := true } }
        { s with sup := { s.sup with traps := sInsert s.sup.traps d ((sFind? s.sup.traps d).getD [] ++ [e.1]) } }
    | none => s) s

/-- RESUME A DUMP: the new launch identifiers, or none where it is refused. -/
def dumpRun (s : State) (t : Tag) (base : Nat) (remain : BitVec 48) : Option (List Nat × State) :=
  let hd := coherentBytes s base 128
  if rd hd 0 2 != t.toNat || rd hd 12 4 != 0 || hasLaunch s t then none
  else
    let recs := dumpRecords s base (rd hd 4 4) 128
    let areas := dumpAreas s base (rd hd 8 4) (roundUp recs.2 128)
    let o2 := areas.2 + 16 * rd hd 16 4
    let o3 := o2 + 16 * rd hd 20 4
    let svs := areas.1.filterMap readSaved
    let r : Rerun := recs.1.zipIdx.foldl (fun r e => rerunLaunch t r e.1 (coherentNat s (base + o3 + 8 * e.2) 8)) ⟨s, [], [], []⟩
    let r := ((List.range 256).filter fun b => flagAt (rd hd 32 32) b).foldl (rerunRegion t svs) r
    let r := svs.foldl rerunGroup r
    let r := (List.range (rd hd 20 4)).foldl (fun r i => rerunTrigger r (coherentBytes s (base + o2 + 16 * i) 16)) r
    let r := (List.range (rd hd 16 4)).foldl (fun r i => rerunEntry r (coherentBytes s (base + areas.2 + 16 * i) 16)) r
    let s := fillAll (restoreSaved (beginTurn r.s t))
    let s := queueTraps s t
    let s := s.modCtx t fun c =>
      { c with deadline := BitVec.ofNat 64 (2 ^ 63 + bits c.deadline 62 62 * 2 ^ 62 + remain.toNat) }
    some (r.launches.map fun e => e.2, s)

end Sys2Proof.Machine
end

