-- ==== Sys2Proof/Machine/Fabric.lean ====
section
/-! DEFINITION. Port groups: PGCTL and the fabric map (R405 to R411), switching (R412 to R416), wavelengths (R403), remote
requests at their target (R420 to R424), the store log, relays (R419), and pools (R335, R336, R425, R426). -/

namespace Sys2Proof.Machine

open Sys2Proof

/-! ### PGCTL (R405, R406) -/

/-- Replace a field of PGCTL[n]. -/
def setPg (s : State) (n hi lo v : Nat) : State :=
  { s with sup := { s.sup with pgctl := sSet 0 s.sup.pgctl n (BitVec.ofNat 64 (setField (pgctl s n) hi lo v)) } }

/-- Replace a field that every index shows. -/
def setPgAll (s : State) (hi lo v : Nat) : State := (List.range 16).foldl (fun s n => setPg s n hi lo v) s

def setPgState (s : State) (n st : Nat) : State := setPg s n 59 57 st

/-- Physical address of the fabric map. -/
def mapBase (s : State) (n : Nat) : Nat := field (pgctl s n) 51 16 * 65536

/-! ### The fabric map (R407 to R411) -/

/-- A number read from the map. -/
def mapNat (s : State) (base off n : Nat) : Nat := coherentNat s (base + off) n

/-- Bytes of the map that are zero. -/
def mapZero (s : State) (base off n : Nat) : Bool := mapNat s base off n == 0

/-- Circuits of a group, as BW gives them; of one that is not in UAL, one for each fibre pair (R403, log 87). -/
def circuitCount (s : State) (n : Nat) : Nat := 4 * 2 ^ field (pgctl s n) 15 12

/-- A relay entry, a circuit entry, an HDM decoder of a group. -/
def relayEntry (s : State) (base n p : Nat) : Nat := mapNat s base (0x800 + 256 * n + p) 1
def circuitEntry (s : State) (base n c : Nat) : Nat := mapNat s base (0x1800 + 128 * n + 2 * c) 2
def hdmEntry (s : State) (base n i : Nat) : BitVec 256 := BitVec.ofNat 256 (mapNat s base (0x2000 + 256 * n + 32 * i) 32)
def endpointEntry (s : State) (base i : Nat) : BitVec 256 := BitVec.ofNat 256 (mapNat s base (0x4000 + 32 * i) 32)

/-- An HDM decoder is within R409. -/
def hdmOk (s : State) (d : BitVec 256) : Bool :=
  let base := bits d 63 0
  let size := bits d 191 160
  bits d 255 193 == 0 && bits d 159 130 == 0
    && (!bit d 192 || (1 ≤ size && size ≤ 32768 && base % 2 ^ 28 == 0 && bits d 127 64 % 2 ^ 28 == 0
      && field base 63 44 == s.fab.pkg && 8 ≤ field base 43 40 && field (base + size * 2 ^ 28 - 1) 63 44 == s.fab.pkg))

/-- Two decoders claim one address. -/
def hdmMeet (a b : BitVec 256) : Bool :=
  bit a 192 && bit b 192 && bits a 63 0 < bits b 63 0 + bits b 191 160 * 2 ^ 28
    && bits b 63 0 < bits a 63 0 + bits a 191 160 * 2 ^ 28

/-- Some two decoders of a list meet. -/
def anyMeet : List (BitVec 256) → Bool
  | [] => false
  | d :: ds => ds.any (hdmMeet d) || anyMeet ds

/-- The part of the map that a group loads is well formed (R411). Its decoders may not meet one that another group in CXL ACTIVE is
using, whose far end may have quiesced. -/
def mapOk (s : State) (n base : Nat) : Bool :=
  let count := circuitCount s n
  let hdms := (List.range 8).map (hdmEntry s base n)
  let others := s.fab.tabs.flatMap fun e => if e.1 != n && pgPers s e.1 == 2 && pgState s e.1 == 1 then e.2.hdm else []
  field base 51 44 == s.fab.pkg && field base 43 40 == 0
    && mapZero s base 0 256 && mapZero s base 0x200 1536 && mapZero s base 0x3000 4096
    && ((List.range 256).all fun p => mapNat s base (0x100 + p) 1 < 2)
    && ((List.range 256).all fun p =>
      let e := relayEntry s base n p
      field e 6 6 == 0 && (e < 128 || (field e 5 0 < count && 2 ^ 15 ≤ circuitEntry s base n (field e 5 0))))
    && ((List.range 64).all fun c =>
      let e := circuitEntry s base n c
      field e 14 8 == 0 && (e < 2 ^ 15 || c < count))
    && hdms.all (hdmOk s) && !anyMeet hdms && !(hdms.any fun d => others.any (hdmMeet d))
    && (List.range 1024).all fun i =>
      let e := endpointEntry s base i
      bits e 239 225 == 0 && bits e 199 192 == 0

/-- The tables of a group in a personality. Requests to what its decoders covered before wait until it is ACTIVE (R413). -/
def loadTab (s : State) (n pers base : Nat) : PgTab :=
  { relay := if pers != 1 then [] else (List.range 256).foldl (fun m p => sSet 0 m p (relayEntry s base n p)) []
    circ := if pers != 1 then [] else (List.range 64).foldl (fun m c => sSet 0 m c (circuitEntry s base n c)) []
    hdm := if pers != 2 then [] else ((List.range 8).map (hdmEntry s base n)).filter fun d => bit d 192
    was := ((sFind? s.fab.tabs n).map PgTab.hdm).getD [] }

def PgTab.empty : PgTab := ⟨[], [], [], []⟩

def setTab (s : State) (n : Nat) (t : PgTab) : State := { s with fab := { s.fab with tabs := sSet PgTab.empty s.fab.tabs n t } }

/-! ### Switching (R412 to R416) -/

/-- A switch ends: the group is OFF, with a cause where it failed; the failure enters the violation log. -/
def switchOff (s : State) (n cause : Nat) : State :=
  let s := setPg (setPgState (setTab s n PgTab.empty) n 0) n 61 60 0
  let s := { s with fab := { s.fab with
    loss := sErase s.fab.loss n, dark := sErase s.fab.dark n, quiet := sErase s.fab.quiet n } }
  if cause == 0 then s else violate (setPg s n 56 52 cause) 4 cause 0 n noSrc

/-- The map that a group's REMAP reads is good, and BW fits the personality (R411, R415). -/
def remapOk (s : State) (n : Nat) : Bool :=
  let bw := field (pgctl s n) 15 12
  bw ≤ 4 && (pgReq s n == 1 || bw == 0) && mapOk s n (mapBase s n)

/-- What REMAP takes up for the whole package: the map itself, gallery and endpoints (R405, R411). -/
def loadMap (s : State) (base : Nat) : State :=
  { s with fab := { s.fab with
    map := base
    gallery := (List.range 256).filter fun p => mapNat s base (0x100 + p) 1 == 1
    eps := (List.range 1024).foldl (fun m i => sSet 0 m i (endpointEntry s base i)) [] } }

/-- REMAP: the tables are installed, or the map is malformed; then RETRAIN, or OFF. After the loss of a link it runs as for
REQ = OFF (R416). -/
def remap (s : State) (n : Nat) : State :=
  let base := mapBase s n
  if sGet false s.fab.loss n then switchOff (if remapOk s n then loadMap s base else s) n 2
  else if !remapOk s n then switchOff s n 1
  else if pgReq s n == 0 then switchOff (loadMap s base) n 0
  else
    let s := setTab (loadMap s base) n (loadTab s n (pgReq s n) base)
    setPgState { s with fab := { s.fab with dark := sErase s.fab.dark n } } n 5

/-- mts to PGCTL: accepted in OFF or ACTIVE, when the switch starts (R406, R412). -/
def execPgctlWrite (p : Pr) (a : Operand) (idx : BitVec 8) (s : State) : Host.Outcome State Fault Refusal :=
  run (.pgctlWrite p a idx) s fun x s =>
    let n := idx.toNat
    let v := sc64v s x a
    if 2 ≤ pgState s n then .hold .other s
    else
      let s := setPgAll { s with fab := { s.fab with switched := true } } 51 16 (bits v 51 16)
      let s := setPg (setPg s n 63 62 (bits v 63 62)) n 15 12 (bits v 15 12)
      .done (if pgState s n == 0 then remap s n else setPgState s n 2)

/-- SWITCH_QUIESCE_DONE. -/
def execSwitchQuiesceDone (g : Fin 16) (s : State) : Host.Outcome State Fault Refusal :=
  if pgState s g.val == 2 then .next (setPgState s g.val 3) else .next s

/-- Every copy of a physical range goes home, and on through the memory-side caches to the device (R335, R414). -/
def drainRange (s : State) (base len : Nat) : State :=
  let s := purgeRange s base len
  let ls := (((s.mem.l2 ++ s.mem.msc).map fun e => e.1 / 128).eraseDups).filter fun l => base ≤ 128 * l && 128 * l < base + len
  ls.foldl (fun s l => lineToStore (lineToPlinth s l) l) s

/-- The ranges that a group's decoders cover. -/
def hdmRanges (s : State) (n : Nat) : List (Nat × Nat) :=
  ((sFind? s.fab.tabs n).getD PgTab.empty).hdm.map fun d => (bits d 63 0, bits d 191 160 * 2 ^ 28)

/-- Requests and pushes that went out on a group and have no response (R414). -/
def planeBusy (s : State) (n : Nat) : Bool :=
  (s.reqs.any fun e => e.2.stage == .ext && e.2.plane == some n) || s.combines.any fun e => e.2.plane == some n

/-- SWITCH_DRAIN_DONE: nothing of the group's own is outstanding, no proxy of another package owns a word of its pools any more, and
the group passes REMAP (R412, R414). -/
def execSwitchDrainDone (g : Fin 16) (s : State) : Host.Outcome State Fault Refusal :=
  let n := g.val
  if pgState s n != 3 || planeBusy s n then .next s
  else if pgPers s n == 2 && (hdmRanges s n).any (fun r => farHolds s r.1 r.2) then
    .next ((hdmRanges s n).foldl (fun s r => farAsk s r.1 r.2) s)
  else
    let s := if pgPers s n == 2 then (hdmRanges s n).foldl (fun s r => drainRange s r.1 r.2) s else s
    .next (remap s n)

/-- The words of a line with dirty bytes in an L1. -/
def dirtyWords (s : State) (line : Nat) : List (CuId × Nat) :=
  s.cus.flatMap fun e => (e.2.l1.filter fun w => w.1 / 32 == line && w.2.dirty != 0).map fun w => (e.1, w.1)

/-- Lines of a physical range that hold dirty bytes anywhere. -/
def dirtyLines (s : State) (base len : Nat) : List Nat :=
  let ls := ((s.mem.l2 ++ s.mem.msc).map fun e => e.1 / 128)
    ++ s.cus.flatMap fun e => (e.2.l1.filter fun w => w.2.dirty != 0).map fun w => w.1 / 32
  (ls.filter fun l => base ≤ 128 * l && 128 * l < base + len).foldl (fun m l => if m.contains l then m else m ++ [l]) []

/-- Drop a line's dirty bytes and copies everywhere; its address enters the violation log where bytes are lost (R336). -/
def dropLine (s : State) (line : Nat) : State :=
  let dirty := ((s.mem.l2 ++ s.mem.msc).any fun e => e.1 / 128 == line) || !(dirtyWords s line).isEmpty
  let s := (s.cus.map fun e => e.1).foldl (fun s c => s.modCu c fun u => { u with l1 := sFilter u.l1 fun w _ => w / 32 != line }) s
  let s := { s with mem := { s.mem with
    l2 := sFilter s.mem.l2 fun a _ => a / 128 != line
    msc := sFilter s.mem.msc fun a _ => a / 128 != line
    dir := sFilter s.mem.dir fun w _ => w / 32 != line
    wide := sErase s.mem.wide line } }
  if dirty then violate s 2 0 0 (128 * line) noSrc else s

/-- An endpoint whose traffic a group may carry. -/
def carries (s : State) (n i : Nat) : Bool := field (bits (sGet 0 s.fab.eps i) 255 240) n n == 1

/-- The endpoint of an operation's next element. -/
def epOf (e : EngOp) : Option Nat :=
  match e.elems with
  | q :: _ => (q.src :: q.dst).findSome? fun p => match p with | .ep i _ => some i | _ => none
  | [] => none

/-- DRAIN_FAILURE: a device refuses a write-back, whose line is dropped, or a far end resets its connections (R414, R415).
The line is the lowest that is dirty, since a drain writes lines in ascending order. -/
def execDrainFailure (g : Fin 16) (s : State) : Host.Outcome State Fault Refusal :=
  let n := g.val
  if pgState s n != 3 then .next s
  else if pgPers s n == 2 then
    let ls := (hdmRanges s n).flatMap fun r => dirtyLines s r.1 r.2
    let s := match ls with
      | [] => s
      | l :: rest => dropLine s (rest.foldl min l)
    .next (switchOff s n 5)
  else if pgPers s n == 3 then
    let ops := s.engs.filter fun e => match epOf e.2 with | some i => carries s n i | none => false
    .next (ops.foldl (fun s e => failEng s e.1 e.2 0x15 ((epOf e.2).getD 0)) (switchOff s n 5))
  else .next s

/-- Some wavelength of a band of a fibre pair is still in use (R403). -/
def bandLit (s : State) (n pair first count : Nat) : Bool :=
  (List.range count).any fun i => !s.fab.retired.contains (n, pair, first + i)

/-- Every circuit in use, or every fibre pair, has a wavelength on which it can lock (R403, R412, log 87). -/
def linksLit (s : State) (n : Nat) : Bool :=
  let w := 64 / 2 ^ field (pgctl s n) 15 12
  if pgReq s n == 1 then
    (((sFind? s.fab.tabs n).getD PgTab.empty).circ.filter fun e => 2 ^ 15 ≤ e.2).all fun e =>
      bandLit s n (e.1 / (64 / w)) (e.1 % (64 / w) * w) w
  else (List.range 4).all fun p => bandLit s n p 0 64

/-- RETRAIN_LOCK: every circuit or link has lock. -/
def execRetrainLock (g : Fin 16) (s : State) : Host.Outcome State Fault Refusal :=
  if pgState s g.val == 5 && linksLit s g.val && !s.host.off.contains 3 then .next (setPgState s g.val 6) else .next s

/-- RETRAIN_TIMEOUT. -/
def execRetrainTimeout (g : Fin 16) (s : State) : Host.Outcome State Fault Refusal :=
  if pgState s g.val == 5 then .next (switchOff s g.val 2) else .next s

/-- ANNOUNCE_DONE: every far end agrees, and PERS := REQ. -/
def execAnnounceDone (g : Fin 16) (s : State) : Host.Outcome State Fault Refusal :=
  let n := g.val
  if pgState s n == 6 then
    let s := { s with fab := { s.fab with
      quiet := sErase s.fab.quiet n, tabs := sAdjust s.fab.tabs n fun t => { t with was := [] } } }
    .next (setPgState (setPg s n 61 60 (pgReq s n)) n 1)
  else .next s

/-- ANNOUNCE_FAILURE: cause 0x03 or 0x04. -/
def execAnnounceFailure (g : Fin 16) (code : Fin 2) (s : State) : Host.Outcome State Fault Refusal :=
  if pgState s g.val == 6 then .next (switchOff s g.val (3 + code.val)) else .next s

/-- A link is lost: the group quiesces, drains and ends OFF with cause 0x02, and service is requested (R416). -/
def loseLink (s : State) (n : Nat) : State :=
  raiseSvc (setPgState { s with fab := { s.fab with
    loss := sSet false s.fab.loss n true, dark := sSet false s.fab.dark n true } } n 2) 8

/-- LINK_LOSS. In QUIESCE or DRAIN what the group has sent is resent on other groups, and the switch goes on (R412, R414). -/
def execLinkLoss (g : Fin 16) (s : State) : Host.Outcome State Fault Refusal :=
  if pgState s g.val == 1 then .next (loseLink s g.val)
  else if pgState s g.val == 2 || pgState s g.val == 3 then
    .next { s with fab := { s.fab with dark := sSet false s.fab.dark g.val true } }
  else .next s

/-- Wavelengths of the link that holds a wavelength (R403): first, count. -/
def linkBand (s : State) (n wave : Nat) : Nat × Nat :=
  let w := if pgReq s n == 1 then 64 / 2 ^ field (pgctl s n) 15 12 else 64
  (wave / w * w, w)

/-- WAVELENGTH_RETIRE: at RETRAIN or while ACTIVE. A link without wavelengths is lost. -/
def execWavelengthRetire (g : Fin 16) (pair wave : Nat) (s : State) : Host.Outcome State Fault Refusal :=
  let n := g.val
  if 4 ≤ pair || 64 ≤ wave || (pgState s n != 1 && pgState s n != 5) || s.fab.retired.contains (n, pair, wave) then .next s
  else
    let s := raiseSvc { s with fab := { s.fab with retired := s.fab.retired ++ [(n, pair, wave)] } } 8
    let b := linkBand s n wave
    .next (if !bandLit s n pair b.1 b.2 && pgState s n == 1 then loseLink s n else s)

/-- A far end enters QUIESCE: this group sends nothing on the link until it is announced again (R412). -/
def execFarEndQuiesce (g : Fin 16) (s : State) : Host.Outcome State Fault Refusal :=
  if pgState s g.val == 1 then .next { s with fab := { s.fab with quiet := sSet false s.fab.quiet g.val true } } else .next s

/-! ### Remote requests at their target (R420 to R424) -/

/-- The key of a stream: package, die, agent. -/
def streamKey (pkg : BitVec 8) (die : BitVec 3) (agent : BitVec 21) : Nat :=
  pkg.toNat * 2 ^ 24 + die.toNat * 2 ^ 21 + agent.toNat

def ualKey (q : UalReq) : Nat := streamKey q.srcPkg q.srcDie q.agent

/-- The block of a request; a read or write of up to 256 bytes reaches more of them (R404). -/
def ualBlock (q : UalReq) : Nat := q.pa / 128

/-- Blocks that a request touches. -/
def ualBlocks (q : UalReq) : List Nat :=
  if q.kind < 2 then (List.range ((q.pa % 128 + q.width + 127) / 128)).map fun i => q.pa / 128 + i else [q.pa / 128]

/-- The request is one that the personality supports (R404); any other changes nothing (log 15). -/
def ualFits (q : UalReq) : Bool :=
  if q.kind < 2 then 32 ≤ q.width && q.width ≤ 256
  else if q.kind < 5 then (q.width == 4 || q.width == 8) && q.pa % q.width == 0
  else q.kind < 9

def Stream.fresh : Stream := ⟨0, [], false, [], [], none, []⟩

def State.stream (s : State) (k : Nat) : Stream := (sFind? s.fab.streams k).getD Stream.fresh

def State.setStream (s : State) (k : Nat) (t : Stream) : State :=
  { s with fab := { s.fab with streams := sSet Stream.fresh s.fab.streams k t } }

/-- A sequence number counted from the stream's first number not applied, modulo 2^24. -/
def Stream.from' (t : Stream) (seq : BitVec 24) : Nat := (seq.toNat + 2 ^ 24 - t.next % 2 ^ 24) % 2 ^ 24

def Stream.ahead (t : Stream) (q : UalReq) : Nat := t.from' q.seq

/-- A number as the stream counts it. -/
def Stream.num (t : Stream) (q : UalReq) : Nat := t.next + t.ahead q

/-- A number has been applied. -/
def Stream.hasSeq (t : Stream) (seq : BitVec 24) : Bool := 2 ^ 23 ≤ t.from' seq || t.applied.contains (t.next + t.from' seq)

/-- The request has been applied, so that it is a duplicate. -/
def Stream.has (t : Stream) (q : UalReq) : Bool := t.hasSeq q.seq

/-- Two requests touch one block. -/
def ualMeet (a b : UalReq) : Bool := (ualBlocks a).any fun k => (ualBlocks b).contains k

/-- The request may be applied: every earlier one of its blocks has been, and none of them stands in the store log; for a release
every earlier one of its stream (R421, R424). Writes into the log are by then accepted, but not yet in place. -/
def Stream.may (t : Stream) (q : UalReq) : Bool :=
  let earlier := t.held.filter fun h => t.num h < t.num q
  if q.release then
    earlier.isEmpty && t.logged.isEmpty && (List.range (t.ahead q)).all fun i => t.applied.contains (t.next + i)
  else !(earlier.any (ualMeet q)) && q.prior.all t.hasSeq && !(t.logged.any (ualMeet q))

/-- Count a request as applied. -/
def closeGap (applied : List Nat) : Nat → Nat → Nat
  | 0, n => n
  | fuel + 1, n => if applied.contains n then closeGap applied fuel (n + 1) else n

/-- The request has been applied: its number counts, and it waits no more. Of an atomic the value it returned is kept, among the
last 1,024 (R420, log 15). -/
def Stream.mark (t : Stream) (q : UalReq) (value : List Byte) : Stream :=
  let all := t.applied ++ [t.num q]
  let n := closeGap all all.length t.next
  { t with
    next := n
    applied := all.filter fun a => n ≤ a
    held := t.held.filter fun h => h != q
    waits := if t.waits == some q then none else t.waits
    kept := if q.kind == 3 || q.kind == 4 then
        let k := t.kept ++ [(t.num q % 2 ^ 24, value)]
        k.drop (k.length - 1024)
      else t.kept }

/-- Hold a request at its home. -/
def Stream.hold (t : Stream) (q : UalReq) : Stream := { t with held := if t.held.contains q then t.held else t.held ++ [q] }

/-- The frame of an address is being migrated, or is free (R355, R347). -/
def frameFlag (s : State) (pa b : Nat) : Bool :=
  match frameIdx s (pa / 65536 * 65536) with
  | some i => field (ftGet s i) b b == 1
  | none => false

/-- A combine of another package's proxy. -/
def isCombine (q : UalReq) : Bool := 5 ≤ q.kind && q.kind ≤ 7

/-- A combine fits its region: it lies in one that is homed here, with the same EXP (R377). -/
def combineFits (s : State) (q : UalReq) : Bool :=
  match accEnt s q.pa with
  | some e => accLocal s e && e.e == q.exp
  | none => false

/-- The request meets an error response at the target (R377, R422): a freed frame, a view, an uncovered address, an access that
a region does not allow. -/
def ualRefused (s : State) (q : UalReq) : Bool :=
  (isCombine q && !combineFits s q)
    || (ualBlocks q).any fun b =>
      match spaceOf s (128 * b) with
      | .hbm => frameFlag s (128 * b) 31 || (q.kind < 2 && q.rt != .unc && (accEnt s (128 * b)).isSome)
      | .host => false
      | .pool => poolWay s (128 * b) == .refused
      | _ => true

/-- The target fault: the request reaches a frame that is being migrated (R422). -/
def ualMoves (s : State) (q : UalReq) : Bool := (ualBlocks q).any fun b => spaceOf s (128 * b) == .hbm && frameFlag s (128 * b) 30

/-- A gallery of at most 32 members is small. -/
def galleryBig (s : State) : Bool := 32 < s.fab.gallery.length

/-- Bytes and addresses that a write, or a write-back, covers. -/
def ualWrites (q : UalReq) : Bytes :=
  let base := if q.kind == 8 then q.pa / 128 * 128 else q.pa
  ((List.range (if q.kind == 8 then 128 else q.width)).filter fun i => q.mask.getD i false).map fun i => (base + i, q.bytes.getD i 0)

/-- The new value of the word that a red, atom or cas of the request gives, where it writes. -/
def ualResult (q : UalReq) (old : List Byte) : Option (List Byte) :=
  if q.kind == 4 then if old == q.bytes.take q.width then some (q.swap.take q.width) else none
  else some (bytesOf (atomOp q.aop.toNat q.width (ofBytes old) (ofBytes (q.bytes.take q.width))).1 q.width)

/-- The tag that a remote write sets (R266). -/
def ualTag (q : UalReq) : BitVec 3 := if q.release then scopeTag q.scope else 0

/-- A read of another package takes its words for the package's proxy (R313 to R315): own, as a wt sharer, or not at all; the
words of a watched region go no further than wt (R387). -/
def ualGrant (s : State) (q : UalReq) (word : Nat) : State :=
  match q.rt with
  | .own =>
    if watched s word then addSharer (recallWord s word true) word (farUnit q.srcPkg)
    else (invalidateWord (recallWord s word false) word none).setDir word ⟨some (farUnit q.srcPkg), []⟩
  | .wt => addSharer (recallWord s word true) word (farUnit q.srcPkg)
  | _ => recallWord s word true

/-- The home merges a combine of another package's proxy; the proxy becomes a holder, or owes no answer any more (R371, R375,
R376). -/
def ualCombine (s : State) (q : UalReq) : State :=
  let line := ualBlock q
  let ds : Store Int := q.deltas.zipIdx.foldl (fun m e => sSet 0 m e.2 e.1) []
  let ts : Store (BitVec 3) := ds.foldl (fun m e => addTag m e.1 (ualTag q)) []
  let s := if ds.isEmpty then s else combineAt s line ds ts q.depth noSrc
  if q.kind == 6 then { s with holders := sInsert s.holders line (enterHolder (s.holder line) (farUnit q.srcPkg)) }
  else if q.kind == 7 then
    { s with holders := sAdjust s.holders line fun h => { h with owing := h.owing.filter fun c => c != farUnit q.srcPkg } }
  else s

/-- Bytes of another package's write take effect at their homes, each word with its tag, where one is given (R266, R319, R397). -/
def ualPut (s : State) (q : UalReq) (bs : Bytes) (tag : Nat → Option (BitVec 3)) : State :=
  let wr : Writer := ⟨q.depth, none, true, noSrc⟩
  ((bs.map fun e => e.1 / 128).eraseDups).foldl (fun s b =>
    let mine := bs.filter fun e => e.1 / 128 == b
    let s := commit s mine none wr
    ((mine.map fun e => e.1 / 4).eraseDups).foldl (fun s w => match tag w with | some t => s.setRelTag w t | none => s) s) s

/-- The words of a write-back's block that the proxy owns. -/
def ualOwned (s : State) (q : UalReq) : List Nat :=
  ((List.range 32).map fun i => 32 * ualBlock q + i).filter fun w => (s.dir w).owner == some (farUnit q.srcPkg)

/-- The bytes of a write-back that count: those of the words that the proxy owns. -/
def ualBack (s : State) (q : UalReq) : Bytes := (ualWrites q).filter fun e => (ualOwned s q).contains (e.1 / 4)

/-- A proxy of another package gives up the words of a block that it owns (R313). -/
def ualDisown (s : State) (q : UalReq) : State := (ualOwned s q).foldl (fun s w => s.setDir w ⟨none, []⟩) s

/-- It writes them back first, with their release tags (R313, R319). -/
def ualGiveUp (s : State) (q : UalReq) : State :=
  ualDisown (ualPut s q (ualBack s q) fun w => some (q.tags.getD (w % 32) 0)) q

/-- What a remote read, or an atomic, touches. -/
def ualWords (q : UalReq) : List Nat := if q.kind == 8 then [] else wordsOf q.pa q.width

/-- A remote read of a region element is answered at once, or else first lowers the limit of the line's holders (R374, R376). -/
def ualTolerant (s : State) (q : UalReq) : Bool :=
  let h := s.holder (ualBlock q)
  q.kind == 0 && 0 < tauOf q.tol && !h.unbounded && h.list.length * h.limit ≤ tauOf q.tol

/-- A read of a region element asks for a lower limit, which can be split among the holders (R374). -/
def ualTightens (s : State) (q : UalReq) : Bool :=
  q.kind == 0 && (accEnt s q.pa).isSome && !ualTolerant s q && !noSplit (s.holder (ualBlock q)) q.tol

/-- A remote request waits at its home: for another package's proxy (R315, R375), for holders to take a limit (R374), for an
atomic that came first (R428), or for a group that is not ACTIVE (R413). What a proxy gives back waits for none of these. -/
def ualWaits (s : State) (q : UalReq) : Bool :=
  q.kind < 5
    && ((ualWords q).any (farOwns s)
      || (ualBlocks q).any (fun b => tightening s b || (!farDrained s b && !ualTolerant s q)
        || (spaceOf s (128 * b) == .pool && poolWay s (128 * b) == .waits)
        || s.fab.streams.any fun e => e.2.waits.any fun a => a != q && (ualBlocks a).contains b)
      || ualTightens s q)

/-- A remote request that waits asks for what it needs: a lower limit of the line (R374). -/
def ualAsk (s : State) (q : UalReq) : State :=
  if !ualTightens s q then s
  else
    let h := s.holder (ualBlock q)
    { s with holders := sInsert s.holders (ualBlock q) { h with limit := tauOf q.tol / h.list.length, owing := h.far } }

/-- The bytes of a remote read or atomic as its home returns them, with their tag. -/
def ualBytes (s : State) (q : UalReq) : List Byte := (List.range q.width).map fun i => coherentByte s (q.pa + i)

/-- What a remote request finds at its home: region lines have combined, as far as it needs them to, and the words that it writes have
been recalled (R374, R375, R428). -/
def ualReady (s : State) (q : UalReq) : State :=
  let regions := (ualBlocks q).filter fun b => (accEnt s (128 * b)).isSome
  if q.kind == 0 then regions.foldl (fun s l => if ualTolerant s q then settle s l else drainLine s l false) s
  else if 5 ≤ q.kind then s
  else recallAll (regions.foldl (fun s l => drainLine s l true) s)
    (if q.kind == 1 then ((ualWrites q).map fun e => e.1 / 4).eraseDups else ualWords q)

/-- APPLY A REMOTE REQUEST that its home is ready for; a write commits (R316, R397, R428). -/
def ualApply (s : State) (q : UalReq) : State :=
  if q.kind == 0 then (ualWords q).foldl (fun s w => ualGrant s q w) s
  else if q.kind == 1 then ualPut s q (ualWrites q) fun _ => some (ualTag q)
  else if isCombine q then ualCombine s q
  else if q.kind == 8 then ualGiveUp s q
  else if poisonedAt s q.pa q.width then s
  else
    match ualResult q (ualBytes s q) with
    | some bs => ualPut s q (bytesAt q.pa bs) fun _ => if q.release then some (ualTag q) else none
    | none => s

/-- The request returns bytes. -/
def ualReturns (q : UalReq) : Bool := q.kind == 0 || q.kind == 3 || q.kind == 4

/-- The granule at which a write of the request meets the cascade limit (R391). -/
def ualCascade (s : State) (q : UalReq) : Option Addr :=
  let bs : Bytes := if q.kind == 1 || q.kind == 8 then ualWrites q
    else if 2 ≤ q.kind && q.kind ≤ 4 then ((ualResult q (ualBytes s q)).map (bytesAt q.pa)).getD [] else []
  ((changedGrans s bs).find? fun h => (sFind? s.regions h.1).any fun g => g.casc < q.depth).map fun h => h.2.1

/-- The response to a request that is applied to a home that is ready for it. -/
def ualAnswer (s : State) (q : UalReq) : UalReply :=
  let bad := (q.kind == 0 || (2 ≤ q.kind && q.kind ≤ 4)) && poisonedAt s q.pa q.width
  { stream := ualKey q
    seq := q.seq
    status := if bad then .poison else .done
    bytes := if ualReturns q && !bad then ualBytes s q else []
    tag := if ualReturns q then widestTag (coherentTag s) (ualWords q) else 0
    casc := ualCascade s q }

/-- A response without a value. -/
def ualPlain (q : UalReq) (st : UalStatus) : UalReply := ⟨ualKey q, q.seq, st, [], 0, none⟩

/-- The package sends a response. -/
def respond (s : State) (r : UalReply) : State := { s with fab := { s.fab with reply := some r } }

/-! ### The store log (R424) -/

def logBase (s : State) : Nat := s.fab.map + 0xC000
def logPut (s : State) : Nat := coherentNat s (logBase s) 4
def logGet (s : State) : Nat := coherentNat s (logBase s + 4) 4

/-- Entry `k` of the log. -/
def logAddr (s : State) (k : Nat) : Nat := s.fab.map + 0xC100 + 256 * (k % 63)

/-- The bytes of a block that a faulted store or red leaves in the log: a red's are those that it would leave now (log 43). -/
def ualLogBytes (s : State) (q : UalReq) : Bytes :=
  if q.kind == 1 then ualWrites q
  else if q.kind == 8 then ualBack s q
  else
    match ualResult q (ualBytes s q) with
    | some bs => bytesAt q.pa bs
    | none => []

/-- Write the entry of one block, then PUT; the curator of die 0 has a notice. -/
def logBlock (s : State) (q : UalReq) (bs : Bytes) (b : Nat) : State :=
  let k := logPut s
  let at_ (i : Nat) : Option Byte := (bs.find? fun e => e.1 == 128 * b + i).map fun e => e.2
  let entry := 128 * b + 2 ^ 72 * ualKey q + 2 ^ 104 * q.seq.toNat + 2 ^ 896 * flagsNum ((List.range 128).map fun i => (at_ i).isSome)
    + 2 ^ 1024 * ofBytes ((List.range 128).map fun i => (at_ i).getD 0)
  let s := rawWriteNat (rawWriteNat s (logAddr s k) entry 256) (logBase s) ((k + 1) % 2 ^ 32) 4
  { s with fab := { s.fab with notices := s.fab.notices + 1 } }

/-- A faulted store, red or write-back enters the log, one entry for each of its blocks. -/
def logStore (s : State) (q : UalReq) : State := (ualBlocks q).foldl (fun s b => logBlock s q (ualLogBytes s q) b) s

/-- The log has no room for a request. -/
def logFull (s : State) (q : UalReq) : Bool := 63 < (logPut s + 2 ^ 32 - logGet s) % 2 ^ 32 + (ualBlocks q).length

/-! ### A remote request at its home -/

/-- A request whose turn has come: applied, refused, held, or logged (R422 to R424). -/
def ualServe (s : State) (q : UalReq) : State :=
  let t := s.stream (ualKey q)
  let mark (s : State) (t : Stream) (r : UalReply) : State := respond (s.setStream (ualKey q) (t.mark q r.bytes)) r
  if ualRefused s q then
    mark (if isCombine q then refuseCombine s (ualBlock q) else violate s 1 0x15 0 q.pa noSrc) { t with frozen := false }
      (ualPlain q (if spaceOf s q.pa == .view && 0 < q.kind then .view else .refused))
  else if !ualMoves s q then
    mark (ualApply (ualReady s q) q) { t with frozen := false } (ualAnswer (ualReady s q) q)
  else if !galleryBig s || isCombine q then s.setStream (ualKey q) { t with frozen := true, held := if t.held.contains q then t.held else q :: t.held }
  else if q.kind == 1 || q.kind == 2 || q.kind == 8 then
    if logFull s q then respond s (ualPlain q .busy)
    else mark (if q.kind == 8 then ualDisown (logStore s q) q else logStore s q) { t with logged := t.logged ++ [q] } (ualPlain q .done)
  else mark s t (ualPlain q .refused)

/-- A duplicate is not applied again; its response is sent again, with the value that an atomic returned (R420). -/
def ualAgain (s : State) (q : UalReq) : State :=
  let t := s.stream (ualKey q)
  respond s { ualPlain q .done with
    bytes := match t.kept.find? fun e => e.1 == q.seq.toNat with
      | some e => e.2
      | none => if q.kind == 0 then ualBytes s q else [] }

/-- A group takes part in UAL, so that requests can arrive (R412). -/
def ualOpen (s : State) : Bool := anyGroup fun n => pgPers s n == 1 && 1 ≤ pgState s n && pgState s n ≤ 3

/-- UAL_REQUEST: a request arrives at its target, or one that waits there is looked at again. Behind an atomic that waits for a
recall its whole stream waits (R428). -/
def execUalRequest (q : UalReq) (s : State) : Host.Outcome State Fault Refusal :=
  let t := s.stream (ualKey q)
  let hold (s : State) (t : Stream) : State := s.setStream (ualKey q) (t.hold q)
  if !ualOpen s || !ualFits q then .next s
  else if t.has q then .next (ualAgain s q)
  else if 1024 ≤ t.ahead q then .next s
  else if !(t.may q && (!t.frozen || t.held.head? == some q) && t.waits.all fun a => a == q) then .next (hold s t)
  else if ualWaits s q then .next (hold (ualAsk s q) (if 2 ≤ q.kind && q.kind ≤ 4 then { t with waits := some q } else t))
  else .next (ualServe s q)

/-- An entry that the curator performs: a red is done on the word as it stands now, and leaves its tag as it was, unless it is a
release (R264, R266, R277, log 43). -/
def replayEntry (s : State) (q : UalReq) (bs : Bytes) : State :=
  let s := recallAll s ((bs.map fun b => b.1 / 4).eraseDups)
  let q := { q with depth := 0 }
  if q.kind == 2 then
    if poisonedAt s q.pa q.width then s
    else ualPut s q (ualLogBytes s q) fun _ => if q.release then some (ualTag q) else none
  else ualPut s q bs fun w => some (if q.kind == 8 then q.tags.getD (w % 32) 0 else ualTag q)

/-- STORE_LOG_REPLAY: the curator performs the oldest entry once its frame is not moving, and stores GET. One whose frame has been
freed ends with an error response (R277, R424). -/
def execStoreLogReplay (s : State) : Host.Outcome State Fault Refusal :=
  let k := logGet s
  if k == logPut s || s.fab.notices == 0 then .next s
  else
    let e := BitVec.ofNat 2048 (coherentNat s (logAddr s k) 256)
    let pa := bits e 63 0
    let key := bits e 103 72
    if spaceOf s pa == .hbm && frameFlag s pa 30 then .next s
    else
      let ok := spaceOf s pa == .hbm && !frameFlag s pa 31
      let bs : Bytes := ((List.range 128).filter fun i => bit e (896 + i)).map fun i => (pa + i, e.extractLsb' (1024 + 8 * i) 8)
      let t := s.stream key
      let s := rawWriteNat { s with fab := { s.fab with notices := s.fab.notices - 1 } } (logBase s + 4) ((k + 1) % 2 ^ 32) 4
      match t.logged.find? fun q => q.seq.toNat == bits e 127 104 with
      | none => .next (if ok then commit (recallAll s ((bs.map fun b => b.1 / 4).eraseDups)) bs (some 0) Writer.plain else violate s 1 0x15 0 pa noSrc)
      | some q =>
        let s := if ok then replayEntry s q bs else respond (violate s 1 0x15 0 pa noSrc) (ualPlain q .refused)
        let done := (ualBlocks q).getLast? == some (pa / 128)
        .next (if done then s.setStream key { t with logged := t.logged.erase q } else s)

/-! ### The source of remote requests, and relays (R419, R423, R424) -/

/-- FREEZE: the target package has frozen one of this package's streams. -/
def execFreeze (pkg : BitVec 8) (die : BitVec 3) (agent : BitVec 21) (s : State) : Host.Outcome State Fault Refusal :=
  .next { s with fab := { s.fab with frozenOut := sSet false s.fab.frozenOut (streamKey pkg die agent) true } }

/-- RESUME. -/
def execResume (pkg : BitVec 8) (die : BitVec 3) (agent : BitVec 21) (s : State) : Host.Outcome State Fault Refusal :=
  .next { s with fab := { s.fab with frozenOut := sSet false s.fab.frozenOut (streamKey pkg die agent) false } }

/-- BUSY_RESEND: a store that its target found busy is sent again; it stays outstanding. -/
def execBusyResend (k : Nat) (s : State) : Host.Outcome State Fault Refusal :=
  match sFind? s.reqs k with
  | some r => .next (putReq s k r)
  | none => .next s

/-- RELAY_FORWARD: a relay forwards on its own plane, to a circuit whose far end is the destination; where it cannot, it
logs the address (R419). -/
def execRelayForward (g : Fin 16) (dst : BitVec 8) (q : UalReq) (s : State) : Host.Outcome State Fault Refusal :=
  let t := (sFind? s.fab.tabs g.val).getD PgTab.empty
  let e := sGet 0 t.relay dst.toNat
  let c := sGet 0 t.circ (field e 5 0)
  if dst.toNat == s.fab.pkg then .next s
  else if pgActive s g.val 1 && 128 ≤ e && 2 ^ 15 ≤ c && field c 7 0 == dst.toNat then .next s
  else .next (respond (violate s 5 0x15 0 q.pa noSrc) (ualPlain q .refused))

/-- INBOUND_RMA_REQUEST: refused with the transport's error code; the package does nothing else (R404). -/
def execInboundRmaRequest (s : State) : Host.Outcome State Fault Refusal := .next s

/-! ### Pools (R335, R336, R426) -/

/-- BACK_INVALIDATE: dirty bytes of a line go to the device, and every copy is dropped; what a proxy of another package owns comes
back first. -/
def execBackInvalidate (line : Nat) (s : State) : Host.Outcome State Fault Refusal :=
  if spaceOf s (128 * line) != .pool then .next s
  else if farHolds s (128 * line) 128 then .next (farAsk s (128 * line) 128)
  else .next (drainRange s (128 * line) 128)

/-- An extent is gone. -/
def loseExtent (s : State) (base len : Nat) : State :=
  { s with fab := { s.fab with releasing := s.fab.releasing.erase (base, len), gone := s.fab.gone ++ [(base, len)] } }

/-- An extent lies in the pool. -/
def inPool (s : State) (base len : Nat) : Bool := len != 0 && spaceOf s base == .pool && spaceOf s (base + len - 1) == .pool

/-- DYNAMIC_CAPACITY_RELEASE: new requests wait, the extent is drained to its device, with what proxies of other packages own of it,
and given up (R335). -/
def execDynamicCapacityRelease (base len : Nat) (s : State) : Host.Outcome State Fault Refusal :=
  if !inPool s base len then .next s
  else if farHolds s base len then
    let s := farAsk s base len
    .next (if s.fab.releasing.contains (base, len) then s
      else { s with fab := { s.fab with releasing := s.fab.releasing ++ [(base, len)] } })
  else .next (loseExtent (drainRange s base len) base len)

/-- FORCED_REVOCATION: dirty bytes of the extent are dropped, line by line, and logged. -/
def execForcedRevocation (base len : Nat) (s : State) : Host.Outcome State Fault Refusal :=
  if inPool s base len then
    let held := (s.cus.flatMap fun e => e.2.l1.map fun w => w.1 / 32) ++ ((s.mem.l2 ++ s.mem.msc).map fun e => e.1 / 128)
      ++ s.mem.dir.map fun e => e.1 / 32
    let ls := (held.eraseDups).filter fun l => base ≤ 128 * l && 128 * l < base + len
    .next (loseExtent (ls.foldl dropLine s) base len)
  else .next s

end Sys2Proof.Machine
end

