-- ==== Sys2Proof/Machine/Host.lean ====
section
/-! DEFINITION. The host: queues (R430 to R432), the mailbox (R436), boot and provenance (R437 to R440), errors and
sparing (R441, R443), recording and rerunning (R445, R446), and registers that the host writes (R429). -/

namespace Sys2Proof.Machine

open Sys2Proof

/-! ### Queues (R430 to R432) -/

def State.hostq (s : State) (k : Nat) : HostQ := (sFind? s.host.queues k).getD HostQ.zero

def State.setHostq (s : State) (k : Nat) (q : HostQ) : State :=
  { s with host := { s.host with queues := sSet HostQ.zero s.host.queues k q } }

def HostQ.on (q : HostQ) : Bool := bit q.cfg 31
def HostQ.size (q : HostQ) : Nat := 16 * 2 ^ bits q.cfg 27 24
def HostQ.tag (q : HostQ) : Tag := BitVec.ofNat 16 (bits q.cfg 15 0)

/-- A write of a queue register that is discarded and logged, with its offset in BAR0. -/
def badQueueWrite (s : State) (k off : Nat) : State := violate s 7 0 (s.hostq k).tag (0x1000 + 32 * k + off) noSrc

/-- A write of QTAIL. In recovery BAR0 serves nothing else (R438). -/
def writeQtail (s : State) (k : Nat) (v : Word) : State :=
  if !s.host.verified then s
  else if (s.hostq k).size ≤ v.toNat then badQueueWrite s k 0x10
  else s.setHostq k { s.hostq k with tail := v.toNat }

/-- A write of QCFG: while EN is 1 only EN changes. A ring size beyond the table's is discarded like an index beyond the
ring. -/
def writeQcfg (s : State) (k : Nat) (v : Word) : State :=
  let q := s.hostq k
  if !s.host.verified then s
  else if q.on then
    s.setHostq k { q with cfg := BitVec.ofNat 64 (setField q.cfg.toNat 31 31 (bits v 31 31)) }
  else if 12 < bits v 27 24 then badQueueWrite s k 0x08
  else s.setHostq k { q with cfg := BitVec.ofNat 64 (bits v 31 31 * 2 ^ 31 + bits v 27 24 * 2 ^ 24 + bits v 15 0) }

/-- A write of QBASE. -/
def writeQbase (s : State) (k : Nat) (v : DWord) : State :=
  if !s.host.verified || (s.hostq k).on then s
  else s.setHostq k { s.hostq k with base := BitVec.ofNat 64 (bits v 63 12 * 4096) }

/-- QTAIL. -/
def execQtail (q : Fin 64) (v : Word) (s : State) : Host.Outcome State Fault Refusal := .next (writeQtail s q.val v)

/-- QCFG. -/
def execQcfg (q : Fin 64) (v : Word) (s : State) : Host.Outcome State Fault Refusal := .next (writeQcfg s q.val v)

/-- A queue has an entry that may be read now: recording of its context waits for no snapshot (R445). -/
def queueHas (s : State) (k : Nat) : Bool :=
  let q := s.hostq k
  q.on && q.head != q.tail && !(s.ctx q.tag).armed

/-- The queue whose turn it is. The command processor handles one record at a time: an entry that it has begun comes first, even
where its queue is no longer served (R432). -/
def queueTurn (s : State) : Option Nat :=
  if !s.host.verified || s.host.queues.isEmpty || s.cpq.any (fun e => e.result.isNone) then none
  else
    match s.host.busy with
    | some b => some b.1
    | none => ((List.range 64).map fun i => (s.host.nextq + i) % 64).find? (queueHas s)

/-- birfdb prints what its launch has come to (R281). -/
def tellLaunch (s : State) (k head st : Nat) : State :=
  if s.dbg.submitted != some (k, head) then s
  else note { s with dbg := { s.dbg with submitted := none, launched := if st < 2 ^ 24 then some st else none } } [8, st]

/-- Write STATUS, then QHEAD advances; the queue's other registers may have been written since the entry was read (R432). -/
def endEntry (s : State) (k : Nat) (q : HostQ) (st : Nat) : State :=
  let s := homeStore s (q.base.toNat + 16 * q.head + 12) (bytesOf st 4) 5 Writer.plain
  let s := s.setHostq k { s.hostq k with head := (q.head + 1) % q.size }
  tellLaunch { s with host := { s.host with nextq := (k + 1) % 64, busy := none } } k q.head st

/-- QUEUE_ENTRY; bits 95:64 of the entry are ignored (log 66). -/
def execQueueEntry (q : Fin 64) (s : State) : Host.Outcome State Fault Refusal :=
  if queueTurn s != some q.val then .next s
  else
    let h := match s.host.busy with | some b => b.2 | none => s.hostq q.val
    let va : Addr := BitVec.ofNat 64 (coherentNat s (h.base.toNat + 16 * h.head) 8)
    if !bit (s.ctx h.tag).ptbase 0 then .next (endEntry s q.val h 0x80000004)
    else if va.toNat % 64 != 0 then .next (endEntry s q.val h 0x80000003)
    else
      match readRecord s (.unit 768) h.tag false va with
      | (.error (0, _), s) => .next { s with host := { s.host with busy := some (q.val, h) } }
      | (.error _, s) => .next (endEntry s q.val h 0x80000003)
      | (.ok bs, s) =>
        let r := acceptLaunch s h.tag bs
        .next (endEntry r.2 q.val h r.1)

/-- The event queue that the curator image keeps for a context, which it writes, enabled, when it creates the context (R433; log
93). -/
def keptEvtq (t : Tag) : DWord := (Config.eventQueue t &&& 0xFFFFFFFFFFFFFF00) ||| 1

/-! ### The mailbox (R436) -/

/-- MBSTAT. -/
def mbStat (s : State) (n : Nat) : State := { s with host := { s.host with mbstat := BitVec.ofNat 64 n } }

/-- MBRES, 64 bytes from some 32-bit words. -/
def mbRes (s : State) (ws : List Nat) : State :=
  { s with host := { s.host with mbres := (List.range 8).foldl (fun m i =>
      sSet 0 m i (BitVec.ofNat 64 (ws.getD (2 * i) 0 % 2 ^ 32 + 2 ^ 32 * (ws.getD (2 * i + 1) 0 % 2 ^ 32)))) [] } }

/-- An argument of a command: 8 bytes of MBARG, in the order in which R436 names the arguments (log 90). -/
def mbWord (s : State) (i : Nat) : Nat := (sGet 0 s.host.mbarg i).toNat

/-- A command runs with MBSTAT 1 (R429). -/
def mbBusy (s : State) : Bool := s.host.mbstat == 1

/-- The mailbox carries out a command with some arguments, each with its width: the command that a write of MBCMD started, with what
stands in MBARG; or, while none runs, one whose arguments and code the host writes now. In recovery it serves none (R436, R438). -/
def mbTakes (s : State) (code : Nat) (args : List (Nat × Nat)) : Bool :=
  s.host.verified && (!mbBusy s || (s.host.mbcmd.toNat == code && args.zipIdx.all fun e => mbWord s e.2 % 2 ^ e.1.2 == e.1.1))

/-- Every argument of the command that runs has no more bits than it may have. -/
def mbFits (s : State) (args : List (Nat × Nat)) : Bool := !mbBusy s || args.zipIdx.all fun e => mbWord s e.2 < 2 ^ e.1.2

/-- A mailbox command: an argument outside its range gives 0x8000_0002 and changes nothing else. -/
def mailbox (s : State) (code : Nat) (args : List (Nat × Nat)) (ok : Bool) (f : State → State) : Host.Outcome State Fault Refusal :=
  if !mbTakes s code args then .next s
  else
    let fits := mbFits s args
    let s := { s with host := { s.host with mbcmd := BitVec.ofNat 64 code } }
    .next (if ok && fits then mbStat (f s) 2 else mbStat s 0x80000002)

/-- PKGSET: PGCTL.PKG shows the number at every index. -/
def execPkgset (n : Nat) (s : State) : Host.Outcome State Fault Refusal :=
  mailbox s 1 [(n, 64)] (n ≤ 255 && !s.fab.switched) fun s => setPgAll { s with fab := { s.fab with pkg := n } } 7 0 n

/-- QUANTUM. -/
def execQuantum (us : Nat) (s : State) : Host.Outcome State Fault Refusal :=
  mailbox s 2 [(us, 64)] (100 ≤ us && us ≤ 100000) fun s => { s with host := { s.host with quantum := us } }

/-- DUMPSET. -/
def execDumpset (t : Tag) (base size : Nat) (s : State) : Host.Outcome State Fault Refusal :=
  mailbox s 3 [(t.toNat, 16), (base, 64), (size, 64)] (base % 4096 == 0) fun s => s.modCtx t fun c => { c with dumpBase := base, dumpSize := size }

/-- VLOGSET: the mirror receives what the log holds, and every later entry. -/
def execVlogset (base : Nat) (s : State) : Host.Outcome State Fault Refusal :=
  mailbox s 4 [(base, 64)] (base % 131072 == 0) fun s =>
    { s with sup := { s.sup with vlogBase := some base, vmir := s.sup.vput - s.sup.vlog.length } }

/-- POWERCAP. -/
def execPowercap (watts : Nat) (s : State) : Host.Outcome State Fault Refusal :=
  mailbox s 8 [(watts, 64)] (1500 ≤ watts && watts ≤ 3600) fun s => { s with host := { s.host with power := watts } }

/-- Clear bits of SVCREQ; SR is the OR of bits 7:0 (R443, R444). -/
def clearSvc (s : State) (mask : Word) : State :=
  let v := s.sup.svcreq &&& ~~~mask &&& 0xFF
  { s with sup := { s.sup with svcreq := if v == 0 then 0 else v ||| 0x80000000 } }

/-- SVCCLR. -/
def execSvcclr (mask : Word) (s : State) : Host.Outcome State Fault Refusal := mailbox s 9 [(mask.toNat, 32)] true fun s => clearSvc s mask

/-- DUMPRUN: MBRES receives the new launch identifiers (R435). -/
def execDumprun (t : Tag) (base : Nat) (remain : BitVec 48) (s : State) : Host.Outcome State Fault Refusal :=
  let r := dumpRun s t base remain
  mailbox s 10 [(t.toNat, 16), (base, 64), (remain.toNat, 48)] r.isSome fun s0 =>
    match r with
    | none => s0
    | some (ids, s1) => mbRes { s1 with host := { s1.host with mbcmd := s0.host.mbcmd } } ids

/-! ### Provenance (R440) -/

/-- The personalities of the port groups, a switch under way as its REQ, and MAP. -/
def fabricMeasure (s : State) : List Byte :=
  ((List.range 16).map fun n => BitVec.ofNat 8 (if 2 ≤ pgState s n then pgReq s n else pgPers s n)) ++ bytesOf (mapBase s 0) 8

/-- The measurements: accepted images, the fuses, the fabric. -/
def measurements (s : State) : List (Nat × BitVec 384) :=
  s.host.measures ++ [(4, Config.sha384 Config.fuseState), (5, Config.sha384 (fabricMeasure s))]

/-- What the signatures of a report cover: format word, nonce, number of measurements, and each with its index. -/
def reportBody (s : State) (nonce : List Byte) : List Byte :=
  let ms := measurements s
  bytesOf 0x00015052 4 ++ nonce ++ bytesOf ms.length 4 ++ ms.flatMap fun m => bytesOf m.1 4 ++ bytesOf m.2.toNat 48

/-- THE PROVENANCE REPORT: what the signatures cover, then the signatures and the certificates. -/
def provenance (s : State) (nonce : List Byte) : List Byte :=
  let body := reportBody s nonce
  body ++ bytesOf (Config.rsaSign body).toNat 384 ++ bytesOf (Config.slhSign body).toNat 16224 ++ Config.certificates

/-- PROVE. -/
def execProve (nonce : List Byte) (s : State) : Host.Outcome State Fault Refusal :=
  mailbox s 5 ((List.range 6).map fun i => (ofBytes ((nonce.drop (8 * i)).take 8), 64)) (nonce.length == 48) fun s =>
    let a := Config.reportAddr.toNat
    mbRes { s with host := { s.host with report := provenance s nonce } } [a % 2 ^ 32, a / 2 ^ 32]

/-! ### Boot (R437, R438) -/

/-- The registrar accepts an image of a kind: both keys hash to their fused digests, both signatures verify, and the version is at
least the fused counter of its kind. -/
def imageOk (k : Nat) (im : Firmware) : Bool :=
  im.kind == k && Config.sha384 im.rsaKey == Config.rsaDigest && Config.sha384 im.slhKey == Config.slhDigest
    && Config.rsaVerifies im.rsaKey (signedBytes im) im.rsaSig && Config.slhVerifies im.slhKey (signedBytes im) im.slhSig
    && (Config.fusedVersion k).toNat ≤ im.version.toNat

/-- Accept and measure an image. -/
def takeImage (s : State) (k : Nat) (im : Firmware) : State :=
  { s with host := { s.host with
      images := sInsert s.host.images k im, measures := sInsert s.host.measures k (Config.sha384 (firmwareBytes im)) } }

/-- The images after the management image, in order: a refused one leaves its units off and requests service. -/
def bootRest (s : State) : State :=
  [1, 2, 3].foldl (fun s k =>
    if imageOk k (Config.bootImage k) then takeImage s k (Config.bootImage k)
    else raiseSvc { s with host := { s.host with off := s.host.off ++ [k] } } 0x80) s

/-- RESET: everything is as after reset, and the registrar verifies the images; the model's own schedule goes on. -/
def execReset (s : State) : Host.Outcome State Fault Refusal :=
  let z := { State.reset with agenda := s.agenda, tick := s.tick }
  let z := { z with host := { z.host with images := [], measures := [], verified := false } }
  if imageOk 0 (Config.bootImage 0) then
    let z := takeImage z 0 (Config.bootImage 0)
    .next (bootRest { z with host := { z.host with verified := true } })
  else .next z

/-- NEW_MANAGEMENT_IMAGE: command 0x10 is served in recovery only; elsewhere it is an unknown code. -/
def execNewManagementImage (im : Firmware) (s : State) : Host.Outcome State Fault Refusal :=
  if mbBusy s && s.host.mbcmd != 0x10 then .next s
  else
  let s := { s with host := { s.host with mbcmd := 0x10 } }
  if s.host.verified then .next (mbStat s 0x80000001)
  else if imageOk 0 im then
    let s := takeImage s 0 im
    .next (mbStat (bootRest { s with host := { s.host with verified := true } }) 2)
  else .next (mbStat s 0x80000002)

/-! ### Errors (R441) -/

/-- An uncorrectable error in control state is a supervisor fault of its die (R231). -/
def controlError (s : State) (d : Nat) : State :=
  let s := raiseSvc (violate s 8 0 0 d (1024 * d + 1023)) 4
  (s.tagsOnDie d).foldl (fun s t => startHalt s t 3) s

/-- Data of memory is poisoned where it stands: in the L1 that owns its word, else at its home. -/
def poisonMemory (s : State) (pa : Nat) : State :=
  match (s.dir (pa / 4)).owner.bind fun c => (s.l1 c (pa / 4)).map fun x => (c, x) with
  | some (c, x) => s.setL1 c (pa / 4) { x with poison := true }
  | none => { s with mem := { s.mem with poison := sSet false s.mem.poison (pa / 32) true } }

/-- UNCORRECTABLE_ERROR. -/
def execUncorrectableError (site : ErrSite) (s : State) : Host.Outcome State Fault Refusal :=
  match site with
  | .memory pa => .next (poisonMemory s pa)
  | .copy c w => .next (match s.l1 c w with | some x => s.setL1 c w { x with poison := true } | none => s)
  | .tile g t e => .next (s.modGroup g fun x => { x with poison := sSet false x.poison (4096 * t + e) true })
  | .scratch g o => .next (s.modGroup g fun x => { x with padPoison := sSet false x.padPoison (o / 4) true })
  | .register w n l => .next (s.modWarp w fun x => { x with bads := x.bads ++ [⟨l, n, .b4, 0x30, 0, s.tick⟩] })
  | .control d => .next (controlError s d)

/-- CORRECTABLE_ERROR: counted; above the threshold, service is requested. -/
def execCorrectableError (above : Bool) (s : State) : Host.Outcome State Fault Refusal :=
  let s := { s with host := { s.host with corrected := s.host.corrected + 1 } }
  .next (if above then raiseSvc s 1 else s)

/-! ### Sparing, power (R443, R447) -/

/-- SPARE_CU: a spare takes over unseen, or the die's CU array is fenced. -/
def execSpareCu (die : Nat) (available : Bool) (s : State) : Host.Outcome State Fault Refusal :=
  if available then .next (raiseSvc { s with host := { s.host with spares := s.host.spares ++ [die] } } 0x20)
  else
    let dead := if s.host.dead.contains die then s.host.dead else s.host.dead ++ [die]
    .next (raiseSvc { s with host := { s.host with dead := dead } } 0x40)

/-- The address span of one entry of a table at a level. -/
def entrySpan (level : Nat) : Nat :=
  if level == 0 then 2 ^ 48 else if level == 1 then 2 ^ 39 else if level == 2 then 2 ^ 30 else if level == 3 then 2 ^ 21 else 2 ^ 16

/-- A mapped leaf: address, entry, where the entry lies, level. -/
structure Leaf where
  va : Addr
  pte : BitVec 64
  addr : Nat
  level : Nat
deriving DecidableEq, Repr

/-- The leaves under a table, in address order. -/
def leavesFrom (s : State) : Nat → Nat → Nat → Nat → List Leaf
  | 0, _, _, _ => []
  | fuel + 1, level, table, va =>
    (List.range (if level == 4 then 32 else 512)).flatMap fun i =>
      let a := table + 8 * i
      let e := BitVec.ofNat 64 (coherentNat s a 8)
      let v := va + i * entrySpan level
      if !bit e 0 || bits e 63 54 != 0 then []
      else if pteLeaf e then
        if leafOk s e level then [⟨BitVec.ofNat 64 (if 2 ^ 56 ≤ v then v + 2 ^ 64 - 2 ^ 57 else v), e, a, level⟩] else []
      else if level ≥ 4 || !inHbm s (ptePa e) then []
      else leavesFrom s fuel (level + 1) (ptePa e) v

/-- The leaves of a context. -/
def leavesOf (s : State) (t : Tag) : List Leaf :=
  let r := (s.ctx t).ptbase
  if bit r 0 && inHbm s (bits r 51 12 * 4096) then leavesFrom s 5 0 (bits r 51 12 * 4096) 0 else []

/-- A leaf of a context that maps a frame, as a twin's shadow or not. -/
structure Mapper where
  tag : Tag
  leaf : Leaf
  shadow : Bool

/-- The leaves that map an HBM frame. -/
def mappersOf (s : State) (f : Nat) : List Mapper :=
  s.ctxs.flatMap fun c =>
    let t : Tag := BitVec.ofNat 16 c.1
    (leavesOf s t).flatMap fun l =>
      let p := leafFrame s l.pte false
      if 2 ≤ pteTier l.pte then []
      else (if p ≤ f && f < p + pageSize l.level then [⟨t, l, false⟩] else [])
        ++ if bit l.pte 7 && leafFrame s l.pte true == f then [⟨t, l, true⟩] else []

/-- The 64 KiB of a mapper that lie on the frame. -/
def Mapper.va (m : Mapper) (s : State) (f : Nat) : Addr :=
  if bit m.leaf.pte 7 then m.leaf.va else m.leaf.va + BitVec.ofNat 64 (f - leafFrame s m.leaf.pte false)

/-- The large leaf over an address becomes a table of smaller leaves, with the same bits, in 4 KiB tables from `next` on, until the
leaf over the address has 64 KiB (log 51). -/
def splitLeaf (s : State) (t : Tag) (va : Addr) : Nat → Nat → State
  | 0, _ => s
  | fuel + 1, next =>
    match walk s t va with
    | .leaf e addr level =>
      if level == 4 then s
      else
        let span := entrySpan (level + 1)
        let s := clearRange s next 4096
        let s := (List.range (if level == 3 then 32 else 512)).foldl (fun s k =>
          putPte s (next + 8 * k) (if 2 ≤ pteTier e then e.toNat else setField e.toNat 51 8 ((ptePa e + k * span) / 256))) s
        splitLeaf (tlbDropPage (putPte s addr (1 + 2 ^ 8 * (next / 256))) t va) t va fuel (next + 4096)
    | _ => s

/-- One leaf of 64 KiB maps another frame. -/
def Mapper.moves (m : Mapper) (va : Addr) (n : Nat) (s : State) : State :=
  match walk s m.tag va with
  | .leaf e addr _ =>
    let s := if bit e 7 then
        let i := bits e 23 8
        let x := twinGet s i
        twinPut s i (if (field x 1 1 == 1) == m.shadow then setField x 191 128 n else setField x 255 192 n)
      else putPte s addr (setField e.toNat 51 8 (n / 256))
    tlbDropPage s m.tag va
  | _ => s

/-- What FRAMETAB and the frame map say of a frame, and its pending triggers, go with its bytes. -/
def moveMarks (s : State) (f n : Nat) : State :=
  let s := match frameIdx s f, frameIdx s n with
    | some i, some j =>
      let e := ftGet s i
      ftPut (ftPut s j (setField (setField e 30 30 0) 31 31 0)) i (setField (setField e 23 0 0) 29 29 0)
    | _, _ => s
  match frameMap s f with
  | none => s
  | some (r, page) =>
    let s := putFrameMap (putFrameMap s n (2 ^ 31 + 2 ^ 20 * r + page)) f 0
    { s with trigs := s.trigs.map fun e =>
      if f ≤ e.2.gpa && e.2.gpa < f + 65536 then
        (e.1, { e.2 with gpa := n + (e.2.gpa - f), unit := unitOf (n + (e.2.gpa - f)) })
      else e }

/-- The page on a frame cannot move now: an access to it is on its way, a migration reads or writes it, proxies of other packages hold
some of it, or a trigger of it stands in a spill bitmap. -/
def evacWaits (s : State) (f : Nat) (ms : List Mapper) : Bool :=
  (ms.any fun m => moving s m.tag (m.va s f) || openOnPage s m.tag (m.va s f) none true) || farHolds s f 65536 || frameFlag s f 30
    || s.trigs.any fun e => e.2.spilled && f ≤ e.2.gpa && e.2.gpa < f + 65536

/-- Move what every context has on one HBM frame to another frame of its die, watched and shared pages and twins included; the
large pages it is part of are split first. Where it has to wait, or the die has no frame, the curator looks again later (R443;
log 51). -/
def evacuate (s : State) (f : Nat) : State :=
  let ms := mappersOf s f
  let vas := ms.map fun m => (m, m.va s f)
  let large := vas.filter fun m => m.1.leaf.level != 4
  if ms.isEmpty then s
  else if evacWaits s f ms then (if farHolds s f 65536 then farAsk s f 65536 else s)
  else
    match takeFrames s (dieOfPa f) (1 + large.length) with
    | none => s
    | some (fs, s) =>
      let n := fs.headD 0
      let s := (large.zip (fs.drop 1)).foldl (fun s e => splitLeaf s e.1.1.tag e.1.2 3 e.2) s
      let s := (fs.drop 1).foldl (fun s p =>
        match frameIdx s p with
        | some i => ftPut s i (setField (ftGet s i) 23 0 1)
        | none => s) s
      let s := moveMarks (copyPage (flushFrame s f) f n) f n
      vas.foldl (fun s m => m.1.moves m.2 n s) s

/-- The frames of a die's free list, from its head. -/
def listFrames (s : State) : Nat → Nat → List Nat
  | 0, _ => []
  | n + 1, i => i :: listFrames s n (field (ftGet s i) 87 64)

/-- A die's free list without the retired frames. -/
def pruneList (s : State) (d : Nat) : State :=
  let all := listFrames s (freeCount s d) (field (freeList s d) 23 0)
  if !(all.any fun i => s.host.retiredFrames.contains i) then s
  else
    let s := all.foldl (fun s i => ftPut s i (setField (ftGet s i) 31 31 0)) (setFreeList s d 0 0)
    all.reverse.foldl pushFrame s

/-- PSEUDO_CHANNEL_RETIRE: its frames leave the free lists, and the pages on them move. Naming frames again that are retired already
moves what has had to wait. -/
def execPseudoChannelRetire (frames : List Nat) (s : State) : Host.Outcome State Fault Refusal :=
  let old := !frames.isEmpty && frames.all s.host.retiredFrames.contains
  let s := if old then s
    else raiseSvc { s with host := { s.host with retiredFrames := (s.host.retiredFrames ++ frames).eraseDups } } 0x10
  let s := if ftOn s then (List.range 8).foldl pruneList s else s
  .next (s.host.retiredFrames.foldl (fun s i => evacuate s (framePa s i)) s)

/-- POWER_CAP: issue at the matrix and engine ports is delayed, which changes timing only; THERM is set. -/
def execPowerCap (engaged : Bool) (s : State) : Host.Outcome State Fault Refusal :=
  let s := { s with host := { s.host with capped := engaged } }
  .next (if engaged then raiseSvc s 2 else s)

/-! ### Registers (R331, R334, R429) -/

/-- DECODE_WINDOW. -/
def execDecodeWindow (p n : Fin 16) (v : BitVec 512) (s : State) : Host.Outcome State Fault Refusal :=
  .next (setWindow s p.val n.val v)

/-- NRCTL. -/
def execNrctl (p : Fin 16) (v : DWord) (s : State) : Host.Outcome State Fault Refusal := .next (setNrctl s p.val v)

/-- A write of MBCMD starts the command of its code, which runs with MBSTAT 1; a code that the table lacks gives its error. While a
command runs it is discarded, and in recovery only code 0x10 is served (R429, R436, R438). -/
def writeMbcmd (s : State) (c : Nat) : State :=
  let take (n : Nat) : State := mbStat { s with host := { s.host with mbcmd := BitVec.ofNat 64 c } } n
  if mbBusy s then s
  else if !s.host.verified then (if c == 0x10 then take 1 else s)
  else if 1 ≤ c && c ≤ 10 then take 1 else take 0x80000001

/-- The command that runs, as the step of the table that carries it out, with its arguments from MBARG. The image of code 0x10 comes
from outside. -/
def mbRuns (s : State) : Option Instr :=
  let a := mbWord s
  let t : Tag := BitVec.ofNat 16 (a 0)
  if !mbBusy s then none
  else
    match s.host.mbcmd.toNat with
    | 1 => some (.pkgset (a 0))
    | 2 => some (.quantum (a 0))
    | 3 => some (.dumpset t (a 1) (a 2))
    | 4 => some (.vlogset (a 0))
    | 5 => some (.prove ((List.range 6).flatMap fun i => bytesOf (a i) 8))
    | 6 => some (.record t (a 1) (a 2))
    | 7 => some (.recstop t)
    | 8 => some (.powercap (a 0))
    | 9 => some (.svcclr (BitVec.ofNat 32 (a 0)))
    | 10 => some (.dumprun t (a 1) (BitVec.ofNat 48 (a 2)))
    | _ => none

/-- What a read of 4 bytes of BAR0 gives, without any effect: MBCMD, MBSTAT, MBARG, MBRES, the registers of the queues, and zero at
every other offset (R429, R430). -/
def bar0Read (s : State) (off : Nat) : Nat :=
  let half (x : Nat) : Nat := if off % 8 < 4 then x % 2 ^ 32 else x / 2 ^ 32
  if off == 0 then s.host.mbcmd.toNat % 2 ^ 32
  else if off == 4 then s.host.mbstat.toNat % 2 ^ 32
  else if 0x40 ≤ off && off < 0x80 then half (mbWord s ((off - 0x40) / 8))
  else if 0x80 ≤ off && off < 0xC0 then half (sGet 0 s.host.mbres ((off - 0x80) / 8)).toNat
  else if 0x1000 ≤ off && off < 0x1800 then
    let q := s.hostq ((off - 0x1000) / 32)
    let o := off % 32
    if o < 8 then half q.base.toNat else if o == 8 then q.cfg.toNat % 2 ^ 32 else if o == 0x10 then q.tail else if o == 0x14 then q.head else 0
  else 0

/-- REGISTER_WRITE: a write of BAR0. MBCMD starts a command, MBARG takes its arguments, QBASE, QCFG and QTAIL take the write as they
say, and every other offset is reserved. -/
def execRegisterWrite (off : Nat) (v : DWord) (s : State) : Host.Outcome State Fault Refusal :=
  if off == 0 then .next (writeMbcmd s (bits v 31 0))
  else if !s.host.verified then .next s
  else if 0x40 ≤ off && off < 0x80 && off % 8 == 0 then
    .next { s with host := { s.host with mbarg := sSet 0 s.host.mbarg ((off - 0x40) / 8) v } }
  else if 0x1000 ≤ off && off < 0x1800 then
    let k := (off - 0x1000) / 32
    let o := off % 32
    .next (if o == 0 then writeQbase s k v else if o == 8 then writeQcfg s k (loWord v)
      else if o == 0x10 then writeQtail s k (loWord v) else s)
  else .next s

/-! ### Recording (R445; log 11) -/

/-- An item of a record area, 32 bytes: kind, level and number, address, entry, frame. Kinds: 1 a shared page, 2 a copied
page, whose frame is given from the area's base, 3 a page in flash or absent, 4 a page of a view, 5 a region descriptor, 6 a decode window, 8 a twin's shadow. -/
def itemBytes (kind num : Nat) (va : Nat) (pte frame : Nat) : List Byte :=
  bytesOf (kind % 2 ^ 8 + 2 ^ 8 * num) 8 ++ bytesOf va 8 ++ bytesOf pte 8 ++ bytesOf frame 8

/-- The blocks of a frame of another package that its proxies here do not own whole (R313). -/
def farBlocks (s : State) (src : Nat) : List Nat :=
  (List.range 512).filterMap fun i =>
    if (List.range 32).all fun j => proxOf s (src / 4 + 32 * i + j) == some .own then none else some (src + 128 * i)

/-- The bytes of a frame of another package: those of words that a proxy here owns, else as they arrived. -/
def farPage (s : State) (src : Nat) : List Byte :=
  (List.range 512).flatMap fun i =>
    let there := ((askedBytes s 35 (src + 128 * i)).map FarBytes.bytes).getD []
    (List.range 128).map fun j =>
      let pa := src + 128 * i + j
      if proxOf s (pa / 4) == some .own then coherentByte s pa else there.getD j 0

/-- What came poisoned is poisoned in the copy (R326). -/
def poisonFar (s : State) (src dst : Nat) : State :=
  (List.range 512).foldl (fun s i =>
    if (askedBytes s 35 (src + 128 * i)).any fun b => b.cause != 0 then
      (List.range 4).foldl (fun s j => s.setPoison (dst / 32 + 4 * i + j) true) s
    else s) s

/-- A snapshot under way: the state, the next item, the lowest frame used, whether all has fitted. -/
structure Snap where
  s : State
  put : Nat
  top : Nat
  ok : Bool

/-- Add an item with more bytes after it. -/
def Snap.item (p : Snap) (base : Nat) (bs : List Byte) : Snap :=
  if p.put + bs.length ≤ p.top && p.ok then { p with s := physWrite p.s (base + p.put) bs, put := p.put + bs.length }
  else { p with ok := false }

/-- A frame of the record area, from its end downward. -/
def Snap.frame (p : Snap) (base : Nat) : Nat × Snap :=
  let f := ((base + p.top) / 65536 - 1) * 65536
  if base + p.put ≤ f && f < base + p.top && p.ok && inHbm p.s f then (f, { p with top := f - base }) else (0, { p with ok := false })

/-- Copy a 64 KiB frame into the record area. -/
def Snap.copy (p : Snap) (base kind num va pte src : Nat) : Snap :=
  let (f, p) := p.frame base
  if !p.ok then p else { p with s := copyPage p.s src f }.item base (itemBytes kind num va pte (f - base))

/-- Copy a frame of another package, whose blocks have arrived. -/
def Snap.copyFar (p : Snap) (base va pte src : Nat) : Snap :=
  let (f, p) := p.frame base
  if !p.ok then p else { p with s := poisonFar (fillPage p.s f (farPage p.s src)) src f }.item base (itemBytes 2 4 va pte (f - base))

/-- The 64 KiB pieces of a leaf: address and frame. -/
def pieceList (s : State) (f : Leaf) : List (Nat × Nat) :=
  (List.range (pageSize f.level / 65536)).map fun i => (f.va.toNat + 65536 * i, leafFrame s f.pte false + 65536 * i)

/-- A piece's entry as a level-4 leaf of a frame. -/
def piecePte (e : BitVec 64) (frame : Nat) : Nat := if bit e 7 then e.toNat else setField e.toNat 51 8 (frame / 256)

/-- Every frame of a leaf can take one more reference. -/
def sharable (s : State) (f : Leaf) : Bool :=
  (pieceList s f).all fun p =>
    match frameIdx s p.2 with
    | some i => !ftFree (ftGet s i) && ftCount (ftGet s i) < 2 ^ 24 - 1
    | none => false

/-- Share the frames of a page and mark it copy-on-write. -/
def Snap.share (p : Snap) (base : Nat) (t : Tag) (f : Leaf) : Snap :=
  let p := (pieceList p.s f).foldl (fun (p : Snap) q =>
    let p := p.item base (itemBytes 1 4 q.1 (piecePte f.pte q.2) q.2)
    match frameIdx p.s q.2 with
    | some i => if p.ok then { p with s := ftPut p.s i (setField (ftGet p.s i) 23 0 (ftCount (ftGet p.s i) + 1)) } else p
    | none => p) p
  { p with s := tlbDropPage (putPte p.s f.addr (setField f.pte.toNat 6 6 1)) t f.va }

/-- Lines of a range whose deltas are combined before it is copied. -/
def recallRange (s : State) (pa n : Nat) : State :=
  ((liveLines s).filter fun l => pa ≤ 128 * l && 128 * l < pa + n).foldl (fun s l => drainLine s l true) s

/-- Capture one leaf of a context. A frame of another package has no FRAMETAB entry, so that it cannot be shared, and is copied
(R346; log 91). -/
def Snap.leaf (base : Nat) (t : Tag) (p : Snap) (f : Leaf) : Snap :=
  let s := p.s
  let e := f.pte
  let pa := leafFrame s e false
  if 2 ≤ pteTier e then p.item base (itemBytes 3 f.level f.va.toNat e.toNat 0)
  else if !bit e 7 && spaceOf s pa == .far then (pieceList s f).foldl (fun (p : Snap) q => p.copyFar base q.1 (piecePte e q.2) q.2) p
  else if !bit e 7 && spaceOf s pa == .view then
    (pieceList s f).foldl (fun (p : Snap) q => p.item base (itemBytes 4 4 q.1 (piecePte e q.2) q.2)) p
  else if bit e 7 then
    let p := p.copy base 2 4 f.va.toNat e.toNat pa
    p.copy base 8 (bits (BitVec.ofNat 256 (twinGet s (bits e 23 8))) 9 4) f.va.toNat e.toNat (leafFrame s e true)
  else if pteTier e == 0 && cowable s e f.level && sharable s f then p.share base t f
  else
    let p := { p with s := recallRange s pa (pageSize f.level) }
    (pieceList s f).foldl (fun (p : Snap) q => p.copy base 2 4 q.1 (piecePte e q.2) q.2) p

/-- Physical ranges that a context maps. -/
def mappedFrames (s : State) (fs : List Leaf) : List (Nat × Nat) :=
  fs.filterMap fun f => if pteTier f.pte < 2 then some (leafFrame s f.pte false, pageSize f.level) else none

/-- The regions of the table that a context's pages meet. -/
def regionsMapped (s : State) (fs : List Leaf) : List AccEnt :=
  s.accCopy.filter fun e => (mappedFrames s fs).any fun m => e.start < m.1 + m.2 && m.1 < e.start + e.len

/-- The enabled windows that serve a context's view pages: plinth, number, value. -/
def windowsMapped (s : State) (fs : List Leaf) : List (Nat × Nat × BitVec 512) :=
  s.plinths.flatMap fun p => p.2.windows.filterMap fun w =>
    let lo := bits w.2 191 128
    if bit w.2 231 && (mappedFrames s fs).any fun m => lo < m.1 + m.2 && m.1 < lo + winLen w.2 then some (p.1, w.1, w.2) else none

/-- THE SNAPSHOT of a context. -/
def takeSnapshot (s : State) (t : Tag) : Snap :=
  let c := s.ctx t
  let fs := leavesOf s t
  let p : Snap := ⟨s, 0, c.recSize, true⟩
  let p := fs.foldl (Snap.leaf c.recBase t) p
  let p := (regionsMapped s fs).foldl (fun (p : Snap) e =>
    p.item c.recBase (itemBytes 5 e.idx 0 0 0 ++ coherentBytes p.s (bits p.s.sup.acctab 51 11 * 2048 + 32 * e.idx) 32)) p
  let p := (windowsMapped s fs).foldl (fun (p : Snap) w =>
    p.item c.recBase (itemBytes 6 (w.1 + 16 * w.2.1) 0 0 0 ++ bytesOf w.2.2.toNat 64)) p
  p.item c.recBase (itemBytes 0 0 0 0 0)

/-- RECORD. While the context is armed or recorded already, the command is refused like an argument out of range. -/
def execRecord (t : Tag) (base size : Nat) (s : State) : Host.Outcome State Fault Refusal :=
  mailbox s 6 [(t.toNat, 16), (base, 64), (size, 64)] (!(s.ctx t).armed && !(s.ctx t).recording) fun s =>
    s.modCtx t fun c => { c with recBase := base, recSize := size, recPut := 0, armed := true, recording := false }

/-- The snapshot of a context may be taken. -/
def snapshotDue (s : State) (t : Tag) : Bool :=
  (s.ctx t).armed && !hasLaunch s t && !(s.cpq.any fun e => e.tag == t && e.result.isNone)
    && !(s.host.busy.any fun b => b.2.tag == t)

/-- The frames of other packages that a context maps. -/
def farFrames (s : State) (t : Tag) : List Nat :=
  (leavesOf s t).flatMap fun f =>
    if pteTier f.pte < 2 && !bit f.pte 7 && spaceOf s (ptePa f.pte) == .far then (pieceList s f).map fun q => q.2 else []

/-- Blocks that have to be read there first. -/
def snapLacks (s : State) (t : Tag) : List Nat :=
  (farFrames s t).flatMap fun f => (farBlocks s f).filter fun b => (askedBytes s 35 b).isNone

/-- Pages of a context whose words, or withheld deltas, other packages' proxies hold (R315, R375). -/
def snapHeld (s : State) (t : Tag) : List (Nat × Nat) := (mappedFrames s (leavesOf s t)).filter fun m => farHolds s m.1 m.2

/-- RECORD_SNAPSHOT: it waits for what has to come from other packages; an area that is too small ends recording, with the context as
it was. -/
def execRecordSnapshot (t : Tag) (s : State) : Host.Outcome State Fault Refusal :=
  if !snapshotDue s t then .next s
  else if !(snapLacks s t).isEmpty then .next ((snapLacks s t).foldl (fun s b => askBytes s 35 b) s)
  else if !(snapHeld s t).isEmpty then .next ((snapHeld s t).foldl (fun s m => farAsk s m.1 m.2) s)
  else
    let p := takeSnapshot s t
    if p.ok then
      .next (dropBytes (p.s.modCtx t fun c => { c with armed := false, recording := true, recPut := p.put, recSize := p.top }) 35)
    else .next (dropBytes (s.modCtx t fun c => { c with armed := false, recording := false, recPut := c.recSize + 2 }) 35)

/-- The items of a record area: offset and the 32 bytes. -/
def readItems (s : State) (base : Nat) : Nat → Nat → List (Nat × List Byte)
  | 0, _ => []
  | fuel + 1, o =>
    let bs := coherentBytes s (base + o) 32
    let k := rd bs 0 1
    if k == 0 || 8 < k then []
    else (o, bs) :: readItems s base fuel (o + 32 + (if k == 5 then 32 else if k == 6 then 64 else 0))

/-- The offset past the items. -/
def itemsEnd (items : List (Nat × List Byte)) : Nat :=
  match items.getLast? with
  | none => 32
  | some (o, bs) => o + 64 + (if rd bs 0 1 == 5 then 32 else if rd bs 0 1 == 6 then 64 else 0)

/-- Drop the added reference of a shared frame. -/
def dropRef (s : State) (pa : Nat) : State :=
  match frameIdx s pa with
  | none => s
  | some i =>
    let n := ftCount (ftGet s i) - 1
    let s := ftPut s i (setField (ftGet s i) 23 0 n)
    if n == 0 then pushFrame s i else s

/-- Move one shared page into the record area, and drop its reference. -/
def exportItem (base : Nat) (p : Snap) (e : Nat × List Byte) : Snap :=
  if rd e.2 0 1 != 1 then p
  else
    let src := rd e.2 24 8
    let (f, q) := p.frame base
    let q : Snap := if q.ok then
        { q with s := physWrite (copyPage q.s src f) (base + e.1) (itemBytes 2 4 (rd e.2 8 8) (rd e.2 16 8) (f - base)) }
      else q
    { q with s := dropRef q.s src }

/-- RECSTOP: the image is completed with copies of the shared pages, and the references go. A record area that was too small
gives 0x8000_0003. -/
def execRecstop (t : Tag) (s : State) : Host.Outcome State Fault Refusal :=
  let c := s.ctx t
  let failed := !c.armed && !c.recording && c.recSize < c.recPut
  let args := [(t.toNat, 16)]
  if !mbTakes s 7 args then .next s
  else if !(c.armed || c.recording || failed) || !mbFits s args then mailbox s 7 args false id
  else
    let items := if c.armed || c.recPut == c.recSize + 2 then [] else readItems s c.recBase (c.recSize / 32) 0
    let p := items.foldl (exportItem c.recBase) ⟨s, if failed then 0 else c.recPut, c.recSize, !failed⟩
    let s := if p.ok && c.recPut + 8 ≤ p.top then physWrite p.s (c.recBase + c.recPut) (bytesOf 0 8) else p.s
    let s := s.modCtx t fun c => { c with armed := false, recording := false, recPut := 0, recSize := p.top }
    let s := { s with host := { s.host with mbcmd := 7 } }
    .next (mbStat s (if p.ok then 2 else 0x80000003))

/-! ### Rerunning (R446) -/

/-- A recorded page: the address, its entry, its frame as it was, its frame in the record area, and for a twin the set of
its shadow. -/
structure RecPage where
  va : Nat
  pte : BitVec 64
  old : Nat
  src : Nat
deriving DecidableEq, Repr

/-- Frames that lie in one range stay at their distances; others follow one another. -/
def placeFrames (together : Nat → Nat → Bool) : Nat → Option (Nat × Nat) → List Nat → List (Nat × Nat)
  | _, _, [] => []
  | next, prev, f :: fs =>
    let n := match prev with
      | some (o, m) => if together o f then m + (f - o) else next
      | none => next
    (f, n) :: placeFrames together (n + 65536) (some (f, n)) fs

/-- Enter a leaf in a page table, with new tables of 4 KiB from `next` on. -/
def mapPage (s : State) (va : Addr) (pte last : Nat) : Nat → Nat → Nat → Nat → Nat × State
  | 0, _, _, next => (next, s)
  | fuel + 1, level, table, next =>
    let a := table + 8 * vaIndex va level
    if level == last then (next, putPte s a pte)
    else
      let e := BitVec.ofNat 64 (coherentNat s a 8)
      if bit e 0 then mapPage s va pte last fuel (level + 1) (ptePa e) next
      else
        let s := putPte (clearRange s next 4096) a (1 + 2 ^ 8 * (next / 256))
        mapPage s va pte last fuel (level + 1) next (next + 4096)

/-- Ranges of frames that must stay together: regions, and the raw and header arrays of windows. -/
def keptRanges (descs : List (BitVec 256)) (wins : List (BitVec 512)) : List (Nat × Nat) :=
  (descs.map fun d => (bits d 63 0, bits d 127 64))
    ++ wins.flatMap fun w =>
      let n := bits w 223 192
      [(bits w 63 0, n * winCG w), (bits w 127 64, 4 * n)]

/-- A new address for an old one. -/
def movedPa (m : List (Nat × Nat)) (pa : Nat) : Nat :=
  match m.find? fun e => e.1 == pa / 65536 * 65536 with
  | some e => e.2 + pa % 65536
  | none => pa

/-- A window over the frames chosen for it. Its view range keeps its place, on the die of its codes. -/
def movedWindow (m : List (Nat × Nat)) (w : BitVec 512) : BitVec 512 :=
  let src := movedPa m (bits w 63 0)
  let hdr := movedPa m (bits w 127 64)
  let view := setField (bits w 191 128) 39 37 (dieOfPa src)
  BitVec.ofNat 512 (setField (setField (setField w.toNat 63 0 src) 127 64 hdr) 191 128 view)

/-- Program a window in the lowest number that both plinths of a die have free; none where no number is. -/
def placeWindow (s : State) (w : BitVec 512) : Option State :=
  let d := dieOfPa (bits w 63 0)
  ((List.range 16).find? fun n => [2 * d, 2 * d + 1].all fun p => !bit (sGet 0 (s.plinth p).windows n) 231).map fun n =>
    setWindow (setWindow s (2 * d) n w) (2 * d + 1) n w

/-- Install a region descriptor in a free entry of the table; none where no entry is. -/
def placeRegion (s : State) (m : List (Nat × Nat)) (d : BitVec 256) : Option State :=
  let base := bits s.sup.acctab 51 11 * 2048
  ((List.range 64).find? fun i => !bit (BitVec.ofNat 256 (coherentNat s (base + 32 * i) 32)) 160).map fun i =>
    rawWriteNat s (base + 32 * i) (setField d.toNat 63 0 (movedPa m (bits d 63 0))) 32

/-- The launch records that follow the items. -/
def readRecords (s : State) (base : Nat) : Nat → Nat → Nat → List (List Byte)
  | 0, _, _ => []
  | fuel + 1, o, stop =>
    let n := coherentNat s (base + o) 8
    if stop ≤ o || n == 0 then []
    else coherentBytes s (base + o + 8) n :: readRecords s base fuel (o + 8 + n) stop

/-- A leaf of the new context: for a twin a new entry of TWINTAB; else the page with its bits. -/
def importPte (s : State) (t : Tag) (m : List (Nat × Nat)) (shadows : List (Nat × Nat × Nat)) (q : RecPage) : Nat × State :=
  let e := setField q.pte.toNat 53 52 0
  let plain := setField (setField e 51 8 (movedPa m q.old / 256)) 7 7 0
  match (if bit q.pte 7 then shadows.find? fun h => h.1 == q.va else none), freeTwin s with
  | some h, some i =>
    let s := twinPut s i (1 + 2 ^ 4 * h.2.1 + 2 ^ 16 * t.toNat + 2 ^ 64 * q.va + 2 ^ 128 * movedPa m q.old + 2 ^ 192 * movedPa m h.2.2)
    (setField e 51 8 i, ftFlag s (movedPa m h.2.2) 29 true)
  | _, _ => (plain, s)

/-- An image to import: where it stands, its items, and where its frames go. -/
structure Import where
  base : Nat
  size : Nat
  pages : List RecPage
  shadows : List (Nat × Nat × Nat × Nat)
  descs : List (BitVec 256)
  wins : List (BitVec 512)
  frames : List (Nat × Nat)
  leaves : List (Nat × Nat × Nat)      -- pages in flash or absent: address, entry, level
  views : List (Nat × Nat × Nat)       -- pages of views: address, entry, frame
  records : List (List Byte)

/-- Read an image of `size` bytes at a physical address, for frames from `frame` on (log 11). -/
def readImport (s : State) (base size frame : Nat) : Import :=
  let items := readItems s base (size / 32) 0
  let kind (k : Nat) : List (Nat × List Byte) := items.filter fun e => rd e.2 0 1 == k
  let page (e : Nat × List Byte) : RecPage :=
    let pte := BitVec.ofNat 64 (rd e.2 16 8)
    ⟨rd e.2 8 8, pte, if bit pte 7 then 2 ^ 52 + 65536 * (2 * e.1) else ptePa pte, base + rd e.2 24 8⟩
  let pages := (kind 2).map page
  let shadows := (kind 8).map fun e => (rd e.2 8 8, rd e.2 1 2, 2 ^ 52 + 65536 * (2 * e.1 + 1), base + rd e.2 24 8)
  let descs := (kind 5).map fun e => BitVec.ofNat 256 (coherentNat s (base + e.1 + 32) 32)
  let wins := (kind 6).map fun e => BitVec.ofNat 512 (coherentNat s (base + e.1 + 32) 64)
  let kept := keptRanges descs wins
  let olds := (pages.map fun q => q.old) ++ shadows.map fun h => h.2.2.1
  let sorted := (olds.foldl (fun (m : Store Unit) f => sInsert m f ()) []).map fun e => e.1
  let m := placeFrames (fun a b => kept.any fun r => r.1 < a + 65536 && a < r.1 + r.2 && r.1 < b + 65536 && b < r.1 + r.2) frame none sorted
  { base := base, size := size, pages := pages, shadows := shadows, descs := descs, wins := wins, frames := m,
    leaves := (kind 3).map fun e => (rd e.2 8 8, rd e.2 16 8, rd e.2 1 1)
    views := (kind 4).map fun e => (rd e.2 8 8, rd e.2 16 8, rd e.2 24 8)
    records := if items.isEmpty then [] else readRecords s base (size / 8) (itemsEnd items) size }

/-- The first frame past those of an image. -/
def Import.stop (x : Import) (frame : Nat) : Nat := (x.frames.map fun e => e.2 + 65536).foldl max frame

/-- The image can become a context: there is one, it has frames that are free, and every twin finds an entry of TWINTAB (R446;
log 92). -/
def Import.fits (x : Import) (s : State) (dst : Tag) (frame : Nat) : Bool :=
  !bit (s.ctx dst).ptbase 0 && !(x.pages.isEmpty && x.leaves.isEmpty && x.views.isEmpty) && frame % 65536 == 0
    && (x.frames.all fun e => inHbm s e.2 && !frameFlag s e.2 31) && !farHolds s x.base x.size
    && x.shadows.length ≤ (if bit s.sup.twintab 0 then ((List.range (twinCount s)).filter fun i => coherentNat s (twinAddr s i) 1 % 2 == 0).length else 0)

/-- The pages of an image in a new context: frames, page tables, entries. -/
def Import.pagesIn (x : Import) (s : State) (dst : Tag) (frame : Nat) : State :=
  let m := x.frames
  let stop := x.stop frame
  let s := x.pages.foldl (fun s q => copyPage s q.src (movedPa m q.old)) s
  let s := x.shadows.foldl (fun s h => copyPage s h.2.2.2 (movedPa m h.2.2.1)) s
  let s := m.foldl (fun s e =>
    match frameIdx s e.2 with
    | some i => ftPut s i (setField (setField (ftGet s i) 23 0 1) 63 48 dst.toNat)
    | none => s) s
  let s := clearRange s stop 4096
  let s := s.modCtx dst fun c => { c with ptbase := BitVec.ofNat 64 (stop + 1), evtq := keptEvtq dst }
  let tw := x.shadows.map fun h => (h.1, h.2.1, h.2.2.1)
  let put (p : Nat × State) (va pte last : Nat) : Nat × State := mapPage p.2 (BitVec.ofNat 64 va) pte last 5 0 stop p.1
  let p : Nat × State := x.pages.foldl (fun p q =>
    let e := importPte p.2 dst m tw q
    put (p.1, e.2) q.va e.1 4) (stop + 4096, s)
  let p := x.leaves.foldl (fun p e => put p e.1 e.2.1 e.2.2) p
  let p := x.views.foldl (fun p e =>
    let view := e.2.2
    let die := match x.wins.find? fun w => bits w 191 128 ≤ view && view < bits w 191 128 + winLen w with
      | some w => dieOfPa (movedPa m (bits w 63 0))
      | none => dieOfPa view
    put p e.1 (setField e.2.1 51 8 (setField view 39 37 die / 256)) 4) p
  p.2

/-- An image as a context: its pages, its regions, its windows; none where ACCTAB or a die's windows have no free entry (log 92). -/
def Import.context (x : Import) (s : State) (dst : Tag) (frame : Nat) : Option State := do
  let s ← x.descs.foldl (fun (o : Option State) d => o.bind fun s => placeRegion s x.frames d) (some (x.pagesIn s dst frame))
  let s := if x.descs.isEmpty then s else writeAcctab s s.sup.acctab
  x.wins.foldl (fun (o : Option State) w => o.bind fun s => placeWindow s (movedWindow x.frames w)) (some s)

/-- RERUN_IMPORT: the image in an area, given by its physical address and size, becomes context `dst`, with its frames from `frame` on, which the
curator has chosen free and in HBM; then the records are submitted. An image that finds no room changes nothing. -/
def execRerunImport (area : Nat × Nat) (dst : Tag) (frame : Nat) (s : State) : Host.Outcome State Fault Refusal :=
  let x := readImport s area.1 area.2 frame
  match if x.fits s dst frame then x.context s dst frame else none with
  | none => .next s
  | some s => .next { s with cpq := s.cpq ++ x.records.map fun bs => ⟨dst, bs, none, none⟩ }

end Sys2Proof.Machine
end

