-- ==== Sys2Proof/Machine/Debug.lean ====
section
/-! DEFINITION. birfdb: sessions, loading and launching (R281, R380), stops and steps (R283, R338, R366, R382, R456), holds
(R282, R400), what it prints (R284, R365, R381, R401), software-managed pages (R337), pre-emption (R383). What it prints is
a list of numbers (log 11). A command that is refused changes nothing. -/

namespace Sys2Proof.Machine

open Sys2Proof

/-- The context that the session acts in. -/
def dbgTag (s : State) : Tag := s.dbg.tag.getD 0

/-- A release has not returned: its trigger is pending, or its group is not counted out (R400). While birfdb holds a warp of the
context stopped it takes commands (log 33). -/
def awaiting (s : State) : Bool :=
  s.dbg.awaits.any fun a =>
    ((sFind? s.trigs a.1).isSome || (s.groups.any fun e => e.2.trig.any fun t => (t.region, t.off) == a.2)
      || (s.saved.any fun e => e.group.trig.any fun t => (t.region, t.off) == a.2)
      || s.outs.any fun e => (e.2.region, e.2.off) == a.2)
    && !(s.warps.any fun e => e.2.stopped && e.2.tag == dbgTag s)

/-- birfdb takes a command of its session: no launch, pre-emption or release of it has yet to return (R383, R400, R456). -/
def atPrompt (s : State) : Bool := s.dbg.tag.isSome && s.dbg.submitted.isNone && s.dbg.moving.isNone && !awaiting s

/-- A command of a session: nothing where there is none, or it takes none. -/
def session (s : State) (ok : Bool) (f : State → State) : Host.Outcome State Fault Refusal :=
  if atPrompt s && ok then .next (f s) else .next s

/-- The image that was loaded last in the session's context. -/
def dbgImage (s : State) : Option Image := (s.dbg.images.find? fun p => p.1 == dbgTag s).map fun p => p.2.1

/-- The next number of a hold, breakpoint, catch or trace. -/
def takeNumber (s : State) : Nat × State := (s.dbg.next, { s with dbg := { s.dbg with next := s.dbg.next + 1 } })

/-! ### Contexts and frames for loading (log 33) -/

/-- `n` frames of a die's free list that follow one another leave it, with count 1 and an owner. -/
def takeRun (s : State) (t : Tag) (d n : Nat) : Option (Nat × State) :=
  if !ftOn s then none
  else
    let all := listFrames s (freeCount s d) (field (freeList s d) 23 0)
    match all.find? fun i => (List.range n).all fun k => all.contains (i + k) with
    | none => none
    | some i =>
      let keep := all.filter fun j => !(i ≤ j && j < i + n)
      let s := keep.reverse.foldl pushFrame (setFreeList s d 0 0)
      some (i, (List.range n).foldl (fun s k =>
        ftPut s (i + k) (setField (setField (setField (ftGet s (i + k)) 31 31 0) 23 0 1) 63 48 t.toNat)) s)

/-- The same on the first die that has them. -/
def takeRunAny (s : State) (t : Tag) (n : Nat) : Option (Nat × State) := (List.range 8).findSome? fun d => takeRun s t d n

/-- Give frames back. -/
def giveFrame (s : State) (pa : Nat) : State := dropRef s pa

/-- Map consecutive frames at an address, holding some bytes from its first page on, with page tables in frames of their
own; none where frames are short. -/
def mapRun (s : State) (t : Tag) (va : Addr) (n perms : Nat) (bs : List Byte) : Option State :=
  if n == 0 then some s
  else
    match takeRunAny s t n with
    | none => none
    | some (i, s) =>
      match takeRunAny s t (n / 4 + 1) with
      | none => none
      | some (j, s) =>
        let root := bits (s.ctx t).ptbase 51 12 * 4096
        let p := (List.range n).foldl (fun (p : Nat × State) k =>
          mapPage (fillPage p.2 (framePa s (i + k)) ((bs.drop (65536 * k)).take 65536)) (va + BitVec.ofNat 64 (65536 * k)) (2 ^ 8 * (framePa s (i + k) / 256) + perms)
            4 5 0 root p.1) (framePa s j, s)
        some p.2

/-- Pages that some bytes at an address touch: the first page's address and their number. -/
def pagesOf (va : Addr) (n : Nat) : Addr × Nat :=
  let first := va.toNat / 65536
  (BitVec.ofNat 64 (65536 * first), if n == 0 then 0 else (va.toNat + n - 1) / 65536 + 1 - first)

/-- No page of a range is mapped. -/
def unmapped (s : State) (t : Tag) (va : Addr) (n : Nat) : Bool :=
  (List.range n).all fun k => match walk s t (va + BitVec.ofNat 64 (65536 * k)) with | .absent => true | _ => false

/-- Write bytes at mapped addresses, as plain .unc stores. -/
def virtWrite (s : State) (t : Tag) (va : Addr) (bs : List Byte) : State :=
  bs.zipIdx.foldl (fun s e =>
    match physOf s t (va + BitVec.ofNat 64 e.2) with
    | some pa => homeStore s pa [e.1] 0 Writer.plain
    | none => s) s

/-- The frames of a leaf: those of a page in memory, both of a twin, none of one in flash or absent. -/
def leafFrames (s : State) (e : BitVec 64) (level : Nat) : List Nat :=
  if 2 ≤ pteTier e then []
  else if bit e 7 then [leafFrame s e false, leafFrame s e true]
  else (List.range (pageSize level / 65536)).map fun i => ptePa e + 65536 * i

/-- Unmap pages and give their frames back, with the TWINTAB entries of twins. -/
def unmapRun (s : State) (t : Tag) (va : Addr) (n : Nat) : State :=
  (List.range n).foldl (fun s k =>
    let a := va + BitVec.ofNat 64 (65536 * k)
    match walk s t a with
    | .leaf e addr level =>
      let fs := leafFrames s e level
      let s := if bit e 7 then dropTwin s t a e addr else s
      fs.foldl (fun s f => giveFrame (purgeRange s f 65536) f) (tlbDropPage (putPte s addr 0) t a)
    | _ => s) s

/-! ### attach, load, args, launch (R281, R380) -/

/-- attach: an existing context, or a new one, which the curator creates with the lowest free tag above 0. -/
def execDbgAttach (t : Option Tag) (s : State) : Host.Outcome State Fault Refusal :=
  let bind (s : State) (t : Tag) : State := note { s with dbg := { s.dbg with tag := some t } } [6, t.toNat]
  match t with
  | some t => .next (if bit (s.ctx t).ptbase 0 then bind s t else s)
  | none =>
    match (List.range 65536).find? fun k => k != 0 && !bit (s.ctx (BitVec.ofNat 16 k)).ptbase 0 with
    | none => .next s
    | some k =>
      let t : Tag := BitVec.ofNat 16 k
      match takeRunAny s t 1 with
      | none => .next s
      | some (i, s) =>
        let s := clearRange s (framePa s i) 4096
        .next (bind (s.modCtx t fun c => { c with ptbase := BitVec.ofNat 64 (framePa s i + 1), evtq := keptEvtq t }) t)

/-- The page that birfdb keeps in a context (log 33). -/
def dbgPage : Addr := 0x00007FFFFFFF0000

/-- The image can be placed: its parts are apart and aligned as its directives ask (R281, R380). -/
def imageFits (im : Image) : Bool :=
  let t := pagesOf im.textVa im.text.length
  let d := pagesOf im.dataVa im.data.length
  im.text.length != 0 && im.textVa.toNat % 8 == 0 && 1 ≤ im.taskTypes.length && im.taskTypes.length ≤ 32
    && legalVa im.textVa && legalVa im.dataVa
    && (d.2 == 0 || !rangesMeet t.1 (65536 * t.2) d.1 (65536 * d.2))
    && im.regions.all fun r =>
      r.1.toNat % 65536 == 0 && r.2.1 % 65536 == 0 && r.2.1 != 0 && -126 ≤ r.2.2.1 && r.2.2.1 ≤ 64 && r.2.2.2 ≤ 62
        && d.1.toNat ≤ r.1.toNat && r.1.toNat + r.2.1 ≤ d.1.toNat + 65536 * d.2

/-- Numbers of the free entries of ACCTAB. -/
def freeRegions (s : State) : List Nat :=
  (List.range 64).filter fun i => !bit (BitVec.ofNat 256 (coherentNat s (bits s.sup.acctab 51 11 * 2048 + 32 * i) 32)) 160

/-- Remove an earlier load: V of the region entries that it installed, then its pages. -/
def unloadImage (s : State) (t : Tag) (im : Image) (entries : List Nat) : State :=
  let base := bits s.sup.acctab 51 11 * 2048
  let s := entries.foldl (fun s i => rawWriteNat s (base + 32 * i) (setField (coherentNat s (base + 32 * i) 32) 160 160 0) 32) s
  let s := if entries.isEmpty then s else writeAcctab s s.sup.acctab
  let d := pagesOf im.dataVa im.data.length
  let x := pagesOf im.textVa im.text.length
  unmapRun (unmapRun s t d.1 d.2) t x.1 x.2

/-- Install a .region of a load in the lowest free entry of ACCTAB, which joins the list of those that the load installed. -/
def loadRegion (t : Tag) (p : State × List Nat) (r : Addr × Nat × Int × Nat) : State × List Nat :=
  match physOf p.1 t r.1, (freeRegions p.1).head? with
  | some pa, some i =>
    (rawWriteNat p.1 (bits p.1.sup.acctab 51 11 * 2048 + 32 * i)
      (pa + 2 ^ 64 * r.2.1 + 2 ^ 128 * (BitVec.ofInt 8 r.2.2.1).toNat + 2 ^ 144 * r.2.2.2 + 2 ^ 160) 32, p.2 ++ [i])
  | _, _ => p

/-- Bytes with zeros before them from the start of their first page. -/
def inPage (va : Addr) (bs : List Byte) : List Byte := List.replicate (va.toNat % 65536) 0 ++ bs

/-- Place an image in a context, with the region entries that this installs; none where it has no room. -/
def placeImage (s : State) (t : Tag) (im : Image) : Option (State × List Nat) := do
  let x := pagesOf im.textVa im.text.length
  let d := pagesOf im.dataVa im.data.length
  if !(unmapped s t x.1 x.2 && unmapped s t d.1 d.2) || (freeRegions s).length < im.regions.length
      || (!im.regions.isEmpty && !bit s.sup.acctab 0) then none
  else
    let s ← mapRun s t x.1 x.2 0x1B (inPage im.textVa im.text)
    let s ← mapRun s t d.1 d.2 0x17 (inPage im.dataVa im.data)
    let s ← if unmapped s t dbgPage 1 then mapRun s t dbgPage 1 0x17 [] else some s
    let p := im.regions.foldl (loadRegion t) (s, [])
    some (if im.regions.isEmpty then p.1 else writeAcctab p.1 p.1.sup.acctab, p.2)

/-- load: refused while a launch of the context is incomplete, for a malformed image, and where it has no room. -/
def execDbgLoad (im : Image) (s : State) : Host.Outcome State Fault Refusal :=
  let t := dbgTag s
  let mine (p : Tag × Image × List Nat) : Bool := p.1 == t && p.2.1.file == im.file
  let s1 := (s.dbg.images.filter mine).foldl (fun s p => unloadImage s t p.2.1 p.2.2) s
  session s (!hasLaunch s t && imageFits im) fun s =>
    match placeImage s1 t im with
    | none => s
    | some (s2, entries) =>
      note { s2 with dbg := { s2.dbg with images := (t, im, entries) :: s.dbg.images.filter fun p => !mine p } }
        [7, im.textVa.toNat, im.dataVa.toNat, im.data.length]

/-- The words that args sets: a value written with more than eight hexadecimal digits supplies two, low word first, and any
other one. -/
def argWords (ws : List (DWord × Bool)) : List DWord :=
  ws.flatMap fun w => if w.2 then [(loWord w.1).zeroExtend 64, (hiWord w.1).zeroExtend 64] else [w.1]

/-- args: a value of eight digits fits one word. -/
def execDbgArgs (ws : List (DWord × Bool)) (s : State) : Host.Outcome State Fault Refusal :=
  session s ((argWords ws).length ≤ 8 && ws.all fun w => w.2 || w.1.toNat < 2 ^ 32) fun s => { s with dbg := { s.dbg with args := argWords ws } }

/-- The package barrier that an instruction names by a constant, an immediate or zero (R281). -/
def namedBar (i : Instr) : List Nat :=
  let of (cl : Bool) (h : Hdr) (a : Operand) : List Nat :=
    if cl then [] else match a with
      | .imm => [(h.imm.getD 0).toNat]
      | .sp .zero => [0]
      | _ => []
  match i with
  | .arrive h cl a | .wait h cl a | .bar h cl a | .bmask h cl a _ => of cl h a
  | _ => []

/-- The package barriers that the instructions of a text name, read one after another; bytes that are no instruction are
passed over eight at a time. -/
def textBars : Nat → List Byte → List Nat
  | 0, _ => []
  | fuel + 1, bs =>
    match Raw.read bs with
    | .ok r => (match decodeRaw r with | .ok i => namedBar i | .error _ => []) ++ textBars fuel (bs.drop (lenBytes r.len))
    | .error _ => if bs.isEmpty then [] else textBars fuel (bs.drop 8)

/-- BARREQ of an image: bit b for every package barrier b that it names (R281). -/
def imageBars (im : Image) : Nat :=
  flagsNum ((List.range 64).map fun b => (textBars im.text.length im.text).contains b)

/-- The launch record that birfdb builds (R281, R285). -/
def dbgRecord (s : State) (im : Image) (x y w h side dl : Nat) : List Byte :=
  let scr := (im.taskTypes.map fun e => (taskOf e).scr).foldl max 0
  let log := if side == 8 then 3 else if side == 4 then 2 else if side == 2 then 1 else 0
  let head := x + 2 ^ 6 * y + 2 ^ 10 * (w - 1) + 2 ^ 16 * (h - 1) + 2 ^ 20 * log + 2 ^ 22 * (im.taskTypes.length - 1)
    + 2 ^ 32 * s.dbg.args.length + 2 ^ 36 * ((256 * scr + 65535) / 65536) + 2 ^ 128 * dl + 2 ^ 192 * imageBars im
    + 2 ^ 256 * ofBytes (s.dbg.args.flatMap fun a => bytesOf a.toNat 4) + 2 ^ 512 * dbgPage.toNat
  bytesOf head 128 ++ im.taskTypes.flatMap fun e => bytesOf e.toNat 16

/-- Where birfdb puts the ring of a host queue that it sets up: at the end of host memory, 1 MiB for each queue (log 33). -/
def dbgRing (s : State) (k : Nat) : Nat := s.fab.pkg * 2 ^ 44 + 2 ^ 43 - 2 ^ 26 + 2 ^ 20 * k

/-- The host queue that takes a launch of birfdb: the lowest that serves the context and is not full, else the lowest that is not
served, set up with a ring of birfdb's (R281, R430; log 33). -/
def dbgQueue (s : State) (t : Tag) : Option (Nat × HostQ) :=
  match (List.range 64).find? fun k => (s.hostq k).on && (s.hostq k).tag == t && ((s.hostq k).tail + 1) % (s.hostq k).size != (s.hostq k).head with
  | some k => some (k, s.hostq k)
  | none =>
    ((List.range 64).find? fun k => !(s.hostq k).on && !(s.host.busy.any fun b => b.1 == k)).map fun k =>
      let q := s.hostq k
      (k, { q with base := BitVec.ofNat 64 (dbgRing s k), cfg := BitVec.ofNat 64 (2 ^ 31 + bits q.cfg 27 24 * 2 ^ 24 + t.toNat), tail := q.head })

/-- Put an entry that names a record into a queue: STATUS is 0 before QTAIL moves (R431). -/
def ringEntry (s : State) (k : Nat) (q : HostQ) (va : Addr) : State :=
  let s := homeStore s (q.base.toNat + 16 * q.tail) (bytesOf va.toNat 8 ++ bytesOf 0 8) 0 Writer.plain
  s.setHostq k { q with tail := (q.tail + 1) % q.size }

/-- launch: the record is written to birfdb's page and goes through a host queue of the context. What the queue's entry comes to
is printed when the command processor has handled it. CSIDE is 1 and DLCYC 14,000,000 unless the command says otherwise. -/
def execDbgLaunch (x y w h : Nat) (side? dl? : Option Nat) (s : State) : Host.Outcome State Fault Refusal :=
  let side := side?.getD 1
  let dl := dl?.getD 14000000
  let ok := 1 ≤ w && w ≤ 48 && 1 ≤ h && h ≤ 16 && x < 48 && y < 16 && [1, 2, 4, 8].contains side && dl < 2 ^ 48
  match dbgImage s, dbgQueue s (dbgTag s) with
  | some im, some (k, q) =>
    session s ok fun s =>
      let va := dbgPage + 1024
      let s := ringEntry (virtWrite s (dbgTag s) va (dbgRecord s im x y w h side dl)) k q va
      { s with dbg := { s.dbg with submitted := some (k, q.tail), stop := false } }
  | _, _ => .next s

/-! ### Stops (R283, R338, R366, R382, R456) -/

/-- DBG_BREAKPOINT_STOP: a warp at a breakpoint stops, or one that has issued its steps, whose registers are written, and which
waits for nothing in idle (R283, R338). -/
def execDbgBreakpointStop (w : WarpId) (s : State) : Host.Outcome State Fault Refusal :=
  match s.warp? w with
  | none => .next s
  | some x =>
    if s.dbg.stepping.contains (w, 0) then .next (if destsWritten s w x && x.hold != .idle then stopWarp s w x else s)
    else .next (if !x.stopped && atBreak s w x.atTurn then stopWarp s w x.atTurn else s)

/-- Every lane of the issue set has parked at the instruction, which none of them has executed (R19, R155). -/
def onlyParked (s : State) (x : Warp) : Bool :=
  s.cur.any fun c => c.set &&& ~~~(x.inState .ld ||| x.inState .fe) == 0

/-- An instruction of a stepping warp has issued: it counts, unless it trapped, is held, or only parked; an rpt counts with its
repetition 0 (R382). -/
def afterIssue (w : WarpId) (i : Instr) (s : State) : State :=
  match s.dbg.stepping.find? fun p => p.1 == w, s.warp? w with
  | some (_, n), some x =>
    let rpt := match i with | .rpt .. => true | _ => false
    if n == 0 || rpt || x.halt.isSome || !(x.hold == .none || x.hold == .idle) || x.exited || onlyParked s x then s
    else
      let s := { s with dbg := { s.dbg with stepping := (w, n - 1) :: s.dbg.stepping.filter fun p => p.1 != w } }
      if n == 1 then s.setWarp w { x with stopped := true } else s
  | _, _ => s

/-- The stopped warps that a command without or with a CU names; one that still completes its steps is not among them. -/
def stoppedOn (s : State) (cu : Option CuId) : List WarpId :=
  (s.warps.filter fun e => e.2.stopped && e.2.tag == dbgTag s && (cu.all fun c => cuOf (gidOf e.1) == c)
    && !(s.dbg.stepping.any fun p => p.1 == e.1)).map fun e => e.1

/-- A stopped warp goes on past its stop; a trap that waits goes to its queue (R229, R366). -/
def goOn (s : State) (w : WarpId) : State :=
  match s.warp? w with
  | none => s
  | some x =>
    let x := { x with stopped := false }
    let s := s.setWarp w x
    let s := { s with dbg := { s.dbg with resumed := w :: s.dbg.resumed.filter fun v => v != w } }
    match x.halt with
    | some t =>
      let s := queueTrap s w x t
      if ((s.warp? w).bind Warp.halt).any fun h => h.queued then s
      else { s with dbg := { s.dbg with letGo := w :: s.dbg.letGo.filter fun v => v != w } }
    | none =>
      match x.issueAddr with
      | some a => { s with dbg := { s.dbg with passing := (w, a) :: s.dbg.passing.filter fun p => p.1 != w } }
      | none => s

/-- step n: the selected warp, or the stopped warp of a CU. -/
def execDbgStep (n : Nat) (cu : Option CuId) (s : State) : Host.Outcome State Fault Refusal :=
  let ws := stoppedOn s cu
  let w := match cu with
    | none => if s.dbg.selected.any ws.contains then s.dbg.selected else none
    | some _ => ws.head?
  match w with
  | none => .next s
  | some w =>
    session s (n != 0) fun s =>
      let s := goOn s w
      { s with dbg := { s.dbg with
          selected := some w, stepping := (w, n) :: s.dbg.stepping.filter fun p => p.1 != w, stop := false } }

/-- continue: every stopped warp, or that of a CU. Warps that execute steps go on with them. -/
def execDbgContinue (cu : Option CuId) (s : State) : Host.Outcome State Fault Refusal :=
  session s true fun s =>
    let s := (stoppedOn s cu).foldl goOn s
    { s with dbg := { s.dbg with stop := false } }

/-- DBG_PROMPT_RETURN: the launch has completed, or a stop has been printed and 1 ms has passed since the latest stop, exit or
completion in the context (R456). -/
def execDbgPromptReturn (s : State) : Host.Outcome State Fault Refusal :=
  let done := s.dbg.launched.any fun l => (sFind? s.launches l).isNone
  session s (done || (s.dbg.stop && s.dbg.lastEvt + 1400000 ≤ s.fc)) fun s =>
    { s with dbg := { s.dbg with stop := false, launched := if done then none else s.dbg.launched } }

/-- break. -/
def execDbgBreak (addr : Addr) (cu : CuId) (s : State) : Host.Outcome State Fault Refusal :=
  session s (cu < 768) fun s =>
    let (n, s) := takeNumber s
    { s with dbg := { s.dbg with breaks := s.dbg.breaks ++ [(n, addr, cu, dbgTag s)] } }

/-- catch. -/
def execDbgCatch (cause : Nat) (s : State) : Host.Outcome State Fault Refusal :=
  session s (cause < 256) fun s =>
    let (n, s) := takeNumber s
    { s with dbg := { s.dbg with catches := s.dbg.catches ++ [(n, cause, dbgTag s)] } }

/-- delete: every number must be that of a breakpoint or catch. -/
def execDbgDelete (ns : List Nat) (s : State) : Host.Outcome State Fault Refusal :=
  let known := (s.dbg.breaks.map fun b => b.1) ++ s.dbg.catches.map fun c => c.1
  session s (ns.all known.contains) fun s =>
    { s with dbg := { s.dbg with
        breaks := s.dbg.breaks.filter fun b => !ns.contains b.1, catches := s.dbg.catches.filter fun c => !ns.contains c.1 } }

/-! ### Holds (R282, R400) -/

/-- hold store: it keeps stores of the context that are on their way already, too. -/
def execDbgHoldStore (cu : CuId) (addr : Addr) (s : State) : Host.Outcome State Fault Refusal :=
  session s (cu < 768 && addr.toNat % 4 == 0) fun s =>
    let (n, s) := takeNumber s
    let s := { s with dbg := { s.dbg with holds := s.dbg.holds ++ [(n, cu, addr, dbgTag s)] } }
    { s with reqs := s.reqs.map fun e => if e.2.stage == .home || e.2.stage == .ext then (e.1, heldStore s e.2) else e }

/-- unhold: held stores go on, as wt stores; held triggers are sent. -/
def execDbgUnhold (n : Nat) (s : State) : Host.Outcome State Fault Refusal :=
  if s.dbg.trigHolds.any fun h => h.1 == n then
    session s true fun s => { s with dbg := { s.dbg with trigHolds := s.dbg.trigHolds.filter fun h => h.1 != n } }
  else
    session s (s.dbg.holds.any fun h => h.1 == n) fun s =>
      let s := { s with dbg := { s.dbg with
        holds := s.dbg.holds.filter (fun h => h.1 != n), told := s.dbg.told.filter fun p => p.2 != n } }
      { s with reqs := s.reqs.map fun e => if e.2.dbgHold then (e.1, heldStore s e.2) else e }

/-- hold triggers: it keeps every trigger of the context, those too that an earlier release has offered. -/
def execDbgHoldTriggers (s : State) : Host.Outcome State Fault Refusal :=
  session s true fun s =>
    let (n, s) := takeNumber s
    { s with dbg := { s.dbg with
        trigHolds := s.dbg.trigHolds ++ [(n, dbgTag s)], released := s.dbg.released.filter fun p => p.2 != dbgTag s } }

/-- The pending trigger of the granule at an address of a context. -/
def trigAt (s : State) (t : Tag) (va : Addr) : Option (Nat × Trigger × Region) :=
  s.trigs.findSome? fun e =>
    match sFind? s.regions e.2.region with
    | some g => if g.tag == t && e.2.granule.toNat ≤ va.toNat && va.toNat < e.2.granule.toNat + g.gran then some (e.1, e.2, g) else none
    | none => none

/-- Bring a spilled trigger back to its unit's queue. -/
def unspill (s : State) (k : Nat) (t : Trigger) (g : Region) : State :=
  let sp := (sFind? g.spills t.unit).getD ⟨0, 0, 0⟩
  let c := sp.count - 1
  let s := clearSpillBit s g t.granule t.unit
  let s := { s with regions := sAdjust s.regions t.region fun g =>
    { g with spills := sInsert g.spills t.unit ⟨c, if c == 0 then 0 else sp.depth, sp.scan⟩ } }
  { s with trigs := sInsert s.trigs k { t with spilled := false, depth := sp.depth } }

/-- release: it returns when the trigger's group has been counted out. -/
def execDbgRelease (addr : Addr) (s : State) : Host.Outcome State Fault Refusal :=
  match trigAt s (dbgTag s) addr with
  | none => .next s
  | some (k, t, g) =>
    session s true fun s =>
      let s := if t.spilled then unspill s k t g else s
      offer { s with dbg := { s.dbg with
        released := (k, g.tag) :: s.dbg.released, awaits := some (k, t.region, (t.granule - g.base).toNat) } } k

/-- trace triggers. -/
def execDbgTraceTriggers (s : State) : Host.Outcome State Fault Refusal :=
  session s true fun s =>
    let (n, s) := takeNumber s
    { s with dbg := { s.dbg with traces := s.dbg.traces ++ [(n, dbgTag s)] } }

/-- untrace. -/
def execDbgUntrace (n : Nat) (s : State) : Host.Outcome State Fault Refusal :=
  session s (s.dbg.traces.any fun p => p.1 == n) fun s =>
    { s with dbg := { s.dbg with traces := s.dbg.traces.filter fun p => p.1 != n } }

/-! ### What it prints (R281, R284, R365, R381, R401) -/

/-- A register's values. -/
def regValues (w : WarpId) (x : Warp) : DbgReg → List Nat
  | .scalar n => [(x.s n).toNat]
  | .pair n => [(pairVal (x.s n) (x.s (n + 1))).toNat]
  | .vector n lo hi => (List.range (hi + 1 - lo)).map fun i => (x.v n (lo + i)).toNat
  | .vpair n lo hi => (List.range (hi + 1 - lo)).map fun i => (pairVal (x.v n (lo + i)) (x.v (n + 1) (lo + i))).toNat
  | .fstat => [x.fstat.toNat]
  | .flm => [x.flm.toNat]
  | .rptc => [x.rptc.toNat]
  | .wstat => [(wstat w x false).toNat]
  | .ctxt => [x.ctxt.toNat]

/-- A register that a warp of a group has (R27, R28). -/
def DbgReg.known (g : Group) (x : Warp) : DbgReg → Bool
  | .scalar n => n < 64
  | .pair n => n % 2 == 0 && n < 64
  | .vector n lo hi => n < g.nreg && lo ≤ hi && hi < x.width
  | .vpair n lo hi => n % 2 == 0 && n + 1 < g.nreg && lo ≤ hi && hi < x.width
  | _ => true

/-- print: refused where it names no register of the stopped warp. -/
def execDbgPrint (rs : List DbgReg) (s : State) : Host.Outcome State Fault Refusal :=
  match s.dbg.selected.bind fun w => (s.warp? w).map fun x => (w, x) with
  | some (w, x) => session s (x.stopped && (s.group? (gidOf w)).any fun g => rs.all (DbgReg.known g x)) fun s => note s (11 :: rs.flatMap (regValues w x))
  | none => .next s

/-- The words that birfdb has to read in another package: those that no proxy here owns (R284, R313). -/
def farWords (s : State) (t : Tag) (addrs : List Addr) : List Nat :=
  addrs.filterMap fun va => (physOf s t va).bind fun pa => if spaceOf s pa == .far && proxOf s (pa / 4) != some .own then some pa else none

/-- A word as an .unc load with no order reads it, its release tag, and the value that a hold keeps. -/
def wordLine (s : State) (t : Tag) (va : Addr) : List Nat :=
  match (physOf s t va).map fun pa => (pa, if spaceOf s pa == .far && proxOf s (pa / 4) != some .own then askedBytes s 34 pa else none) with
  | none => [va.toNat]
  | some (pa, far) =>
    let tag := match far with | some b => b.tag | none => match (s.dir (pa / 4)).owner.bind fun c => s.l1 c (pa / 4) with
      | some x => if x.dirty == 0 then s.relTag (pa / 4) else x.rel
      | none => s.relTag (pa / 4)
    let held := (s.reqs.filter fun e => e.2.dbgHold && e.2.ctx == t).flatMap fun e =>
      e.2.accs.flatMap fun a => if va.toNat < a.va.toNat + a.data.length && a.va.toNat < va.toNat + 4 then
        [e.2.cu, ofBytes ((List.range 4).map fun i =>
          if a.va.toNat ≤ va.toNat + i && va.toNat + i < a.va.toNat + a.data.length then a.data.getD (va.toNat + i - a.va.toNat) 0
          else (match far with | some b => b.bytes.getD i 0 | none => coherentByte s (pa + i)))] else []
    if far.any fun b => b.cause != 0 then va.toNat :: held
    else [va.toNat, (match far with | some b => ofBytes b.bytes | none => coherentNat s pa 4), tag.toNat] ++ held

/-- x/w: words of another package are read at their homes, and the command prints once they have come. -/
def execDbgXW (addrs : List Addr) (s : State) : Host.Outcome State Fault Refusal :=
  session s (addrs.all fun a => a.toNat % 4 == 0) fun s =>
    let far := farWords s (dbgTag s) addrs
    let lacking := far.filter fun pa => (askedBytes s 34 pa).isNone
    if lacking.isEmpty then
      note (if far.isEmpty then s else dropBytes s 34) (12 :: addrs.flatMap (wordLine s (dbgTag s)))
    else lacking.foldl (fun s pa => askBytes s 34 pa) s

/-- A CU's L1 copy of a word: 0 for none, else its request type, value and dirty bytes. -/
def cacheLine (s : State) (t : Tag) (cu : CuId) (va : Addr) : List Nat :=
  match (physOf s t va).bind fun pa => s.l1 cu (pa / 4) with
  | some x => [va.toNat, (match x.st with | .wt => 1 | .si => 2 | .own => 3), x.data.toNat, x.dirty.toNat]
  | none => [va.toNat, 0]

/-- cache. -/
def execDbgCache (cu : CuId) (addrs : List Addr) (s : State) : Host.Outcome State Fault Refusal :=
  session s (addrs.all fun a => a.toNat % 4 == 0) fun s => note s (13 :: addrs.flatMap (cacheLine s (dbgTag s) cu))

/-- pte. -/
def execDbgPte (t : Option Tag) (va : Addr) (s : State) : Host.Outcome State Fault Refusal :=
  session s true fun s =>
    note s [14, va.toNat, match walk s (t.getD (dbgTag s)) va with | .leaf e _ _ => e.toNat | _ => 0]

/-- frame. -/
def execDbgFrame (t : Option Tag) (va : Addr) (s : State) : Host.Outcome State Fault Refusal :=
  session s true fun s =>
    match (physOf s (t.getD (dbgTag s)) va).bind fun pa => frameIdx s (pa / 65536 * 65536) with
    | some i => note s [15, framePa s i, ftGet s i]
    | none => note s [15]

/-- freelist. -/
def execDbgFreelist (d : Nat) (s : State) : Host.Outcome State Fault Refusal :=
  session s (d < 8) fun s => note s [16, d, freeCount s d, framePa s (field (freeList s d) 23 0)]

/-- acc: the element at its home, and the line's holders. -/
def execDbgAcc (addr : Addr) (s : State) : Host.Outcome State Fault Refusal :=
  match physOf s (dbgTag s) addr with
  | none => .next s
  | some pa =>
    session s ((accEnt s pa).isSome && pa % 8 == 0) fun s =>
      let line := pa / 128
      let h := s.holder line
      note s ([17, addr.toNat, (BitVec.ofInt 64 (elemAt s pa)).toNat, h.list.length, h.limit, if h.unbounded then 1 else 0]
        ++ h.list.flatMap fun c =>
          match sFind? (s.cu c).upd line with
          | some u => [c, u.tracker, (BitVec.ofInt 64 (sGet 0 u.deltas (pa % 128 / 8))).toNat]
          | none => [c, 0, 0])

/-- pending: PEND, RUN, and each pending granule with its depth and whether it is held 0, queued 1 or spilled 2. -/
def execDbgPending (r : Nat) (s : State) : Host.Outcome State Fault Refusal :=
  match sFind? s.regions r with
  | none => .next s
  | some g =>
    session s true fun s =>
      note s ([18, r, g.pend.toNat, g.run.toNat] ++ (s.trigs.filter fun e => e.2.region == r).flatMap fun e =>
        [e.2.granule.toNat, e.2.depth, if e.2.spilled then 2 else if trigHeld s g e.1 && !e.2.queued then 0 else 1])

/-! ### pte … sm (R337) and preempt (R383) -/

/-- Dirty bytes of a physical range of another package, in L1s or proxies. -/
def farDirtyIn (s : State) (pa n : Nat) : Bool :=
  (s.cus.any fun e => e.2.l1.any fun x => pa ≤ 4 * x.1 && 4 * x.1 < pa + n && x.2.dirty != 0)
    || s.mem.l2.any fun e => pa ≤ e.1 && e.1 < pa + n

/-- They go to the remote home: those of the L1s to their proxies first (R313). -/
def sendFar (s : State) (pa n : Nat) : State :=
  let words := (s.cus.flatMap fun e => (e.2.l1.filter fun x => pa ≤ 4 * x.1 && 4 * x.1 < pa + n && x.2.dirty != 0).map fun x => x.1).eraseDups
  let s := words.foldl purgeWord s
  (((s.mem.l2.filter fun e => pa ≤ e.1 && e.1 < pa + n).map fun e => e.1 / 128).eraseDups.filter fun b =>
    !(s.reqs.any fun e => e.2.kind == .wback && e.2.blk == b)).foldl (fun s b => sendBlock s noWarp 768 b) s

/-- pte … sm: refused while a launch of the context is incomplete, or where a page is not mapped. On pages of other packages it
takes effect once their homes have accepted what was dirty here. -/
def execDbgPteSm (addr : Addr) (n : Nat) (v : Bool) (s : State) : Host.Outcome State Fault Refusal :=
  let t := dbgTag s
  let pages := (List.range n).map fun k => addr + BitVec.ofNat 64 (65536 * k)
  let mapped := pages.all fun a => match walk s t a with | .leaf .. => true | _ => false
  let far := pages.filterMap fun a => match walk s t a with
    | .leaf e _ level =>
      let pa := leafPa s e level a false / 65536 * 65536
      if pteTier e < 2 && spaceOf s pa == .far then some pa else none
    | _ => none
  session s (!hasLaunch s t && addr.toNat % 65536 == 0 && mapped) fun s =>
    if far.any fun pa => farDirtyIn s pa 65536 then far.foldl (fun s pa => sendFar s pa 65536) s
    else
    pages.foldl (fun s a =>
      match walk s t a with
      | .leaf e addr level =>
        let s := tlbDropPage (putPte s addr (setField e.toNat 5 5 (if v then 1 else 0))) t a
        if pteTier e < 2 then purgeRange s (leafPa s e level a false / 65536 * 65536) 65536 else s
      | _ => s) s

/-- preempt: the group on a CU is asked to stop, to be saved and loaded again; a move is refused where the target lacks
room. -/
def execDbgPreempt (cu : CuId) (dest : Option CuId) (s : State) : Host.Outcome State Fault Refusal :=
  match s.groups.find? fun e => cuOf e.1 == cu && e.2.tag == dbgTag s && !e.2.retired && !isCurator cu with
  | none => .next s
  | some (g, gr) =>
    let c := dest.getD cu
    let ms := (clusterOf s g).filterMap fun h => (s.group? h).map fun x => snapshot s h x
    session s ((c == cu || (movedRooms s ms g c).isSome) && s.dbg.moving.isNone) fun s =>
      let s := (clusterOf s g).foldl (fun s h => askStop s h true) s
      { s with dbg := { s.dbg with moving := some ⟨g, c, gr.tag, none⟩ } }

end Sys2Proof.Machine
end

