-- ==== Sys2Proof/Machine/Float.lean ====
section
/-! DEFINITION. FP32, FP16, BF16 and FP64 arithmetic (R117 to R123). -/

namespace Sys2Proof.Machine

open Sys2Proof

/-- A packed form with SM on A (R113, R114). -/
def mapF (i : Instr) (s : State) (ty : FTy) (sm : SMod) (f : Fmt → Nat → Nat → Nat → Nat × Word) :
    Host.Outcome State Fault Refusal :=
  mapLanes i s (packed ty fun a b c => f (tyFmt ty) (signMod (tyFmt ty) sm a) b c)

/-- An FP64 form with SM on A. -/
def mapD (i : Instr) (s : State) (sm : SMod) (f : Fmt → Nat → Nat → Nat → Nat × Word) : Host.Outcome State Fault Refusal :=
  mapLanes i s (dbl fun a b c => f FP64 (signMod FP64 sm a) b c)

/-- fadd (R117). -/
def execFadd (h : Hdr) (sm : SMod) (ty : FTy) (rm : RMode) (d a b : Operand) (s : State) :
    Host.Outcome State Fault Refusal :=
  mapF (.fadd h sm ty rm d a b) s ty sm fun F x y _ => fAdd F rm x y

/-- fsub (R117). -/
def execFsub (h : Hdr) (sm : SMod) (ty : FTy) (rm : RMode) (d a b : Operand) (s : State) :
    Host.Outcome State Fault Refusal :=
  mapF (.fsub h sm ty rm d a b) s ty sm fun F x y _ => fSub F rm x y

/-- fmul (R117). -/
def execFmul (h : Hdr) (sm : SMod) (ty : FTy) (rm : RMode) (d a b : Operand) (s : State) :
    Host.Outcome State Fault Refusal :=
  mapF (.fmul h sm ty rm d a b) s ty sm fun F x y _ => fMul F rm x y

/-- ffma (R117). -/
def execFfma (h : Hdr) (sm : SMod) (ty : FTy) (rm : RMode) (d a b c : Operand) (s : State) :
    Host.Outcome State Fault Refusal :=
  mapF (.ffma h sm ty rm d a b c) s ty sm fun F x y z => fFma F rm x y z

/-- fmin (R118). -/
def execFmin (h : Hdr) (sm : SMod) (ty : FTy) (nanp : Bool) (d a b : Operand) (s : State) :
    Host.Outcome State Fault Refusal :=
  mapF (.fmin h sm ty nanp d a b) s ty sm fun F x y _ => fMinMax F false nanp x y

/-- fmax (R118). -/
def execFmax (h : Hdr) (sm : SMod) (ty : FTy) (nanp : Bool) (d a b : Operand) (s : State) :
    Host.Outcome State Fault Refusal :=
  mapF (.fmax h sm ty nanp d a b) s ty sm fun F x y _ => fMinMax F true nanp x y

/-- The element of a 32-bit operand that fcmp compares (R119). -/
def cmpElem (ty : FTy) (hi : Bool) (x : DWord) : Nat :=
  match ty with
  | .f32 => bits x 31 0
  | _ => if hi then bits x 31 16 else bits x 15 0

/-- fcmp (R119). -/
def execFcmp (h : Hdr) (hi : Bool) (ty : FTy) (cc : FCond) (d a b : Operand) (s : State) :
    Host.Outcome State Fault Refusal :=
  mapLanes (.fcmp h hi ty cc d a b) s fun x y _ =>
    let r := fCmp (tyFmt ty) cc (cmpElem ty hi x) (cmpElem ty hi y)
    (if r.1 then 1 else 0, r.2)

/-- fclass (R120). -/
def execFclass (h : Hdr) (ty : Option FTy) (d a : Operand) (s : State) : Host.Outcome State Fault Refusal :=
  mapLanes (.fclass h ty d a) s fun x _ _ =>
    match ty with
    | none => (BitVec.ofNat 64 (fClass FP64 x.toNat), 0)
    | some t => packed t (fun e _ _ => (fClass (tyFmt t) e, 0)) x 0 0

/-- frnd (R121). -/
def execFrnd (h : Hdr) (x : Bool) (ty : FTy) (rm : RMode) (d a : Operand) (s : State) : Host.Outcome State Fault Refusal :=
  mapF (.frnd h x ty rm d a) s ty .none fun F e _ _ => fRnd F rm x e

/-- fdot2 on one lane (R122). -/
def dot2 (ty : FTy) (sm : SMod) (rm : RMode) (a b c : DWord) : DWord × Word :=
  let F := tyFmt ty
  let a0 := signMod F sm (bits a 15 0)
  let a1 := signMod F sm (bits a 31 16)
  let b0 := bits b 15 0
  let b1 := bits b 31 16
  let c0 := bits c 31 0
  let r := roundSum FP32 rm [Ex.mul (F.value a0) (F.value b0), Ex.mul (F.value a1) (F.value b1), (FP32.value c0, false)]
  (BitVec.ofNat 64 r.1, r.2 ||| snanFlag F [a0, a1, b0, b1] ||| snanFlag FP32 [c0])

/-- fdot2 (R122). -/
def execFdot2 (h : Hdr) (sm : SMod) (ty : FTy) (rm : RMode) (d a b c : Operand) (s : State) :
    Host.Outcome State Fault Refusal :=
  mapLanes (.fdot2 h sm ty rm d a b c) s (dot2 ty sm rm)

/-- dadd (R123). -/
def execDadd (h : Hdr) (sm : SMod) (rm : RMode) (d a b : Operand) (s : State) : Host.Outcome State Fault Refusal :=
  mapD (.dadd h sm rm d a b) s sm fun F x y _ => fAdd F rm x y

/-- dmul (R123). -/
def execDmul (h : Hdr) (sm : SMod) (rm : RMode) (d a b : Operand) (s : State) : Host.Outcome State Fault Refusal :=
  mapD (.dmul h sm rm d a b) s sm fun F x y _ => fMul F rm x y

/-- dfma (R123). -/
def execDfma (h : Hdr) (sm : SMod) (rm : RMode) (d a b c : Operand) (s : State) : Host.Outcome State Fault Refusal :=
  mapD (.dfma h sm rm d a b c) s sm fun F x y z => fFma F rm x y z

/-- dcmp (R119, R123). -/
def execDcmp (h : Hdr) (cc : FCond) (d a b : Operand) (s : State) : Host.Outcome State Fault Refusal :=
  mapLanes (.dcmp h cc d a b) s fun x y _ =>
    let r := fCmp FP64 cc x.toNat y.toNat
    (if r.1 then 1 else 0, r.2)

/-- dmin (R118, R123). -/
def execDmin (h : Hdr) (sm : SMod) (nanp : Bool) (d a b : Operand) (s : State) : Host.Outcome State Fault Refusal :=
  mapD (.dmin h sm nanp d a b) s sm fun F x y _ => fMinMax F false nanp x y

/-- dmax (R118, R123). -/
def execDmax (h : Hdr) (sm : SMod) (nanp : Bool) (d a b : Operand) (s : State) : Host.Outcome State Fault Refusal :=
  mapD (.dmax h sm nanp d a b) s sm fun F x y _ => fMinMax F true nanp x y

end Sys2Proof.Machine
end

