-- ==== Sys2Proof/Machine/Sync.lean ====
section
/-! DEFINITION. Fences (R179), barriers as warps use them (R180 to R183), convergence definition (R185), publish (R189,
R353) and channel setup (R190). -/

namespace Sys2Proof.Machine

open Sys2Proof

/-! ### Fences -/

/-- A load, atomic or cas of the warp has not returned. -/
def readOpen (s : State) (w : WarpId) : Bool :=
  s.reqs.any fun e => e.2.wid == w && match e.2.kind with
    | .load _ | .atom _ | .cas | .accLoad .. | .tileLd _ => true
    | _ => false

/-- An si copy of a CU that is as its word stands in coherence order; of another package's word that cannot be told here. -/
def copyCurrent (s : State) (word : Nat) (x : L1Word) : Bool :=
  spaceOf s (4 * word) != .far
    && (List.range 4).all fun i => byteOf x.data.toNat i == coherentByte s (4 * word + i)

/-- Drop the si copies of a CU, and of the proxies, that a read after a fence of kind sc may not return: those that a later write
has overtaken. All others are kept (R179, R263; log 83). -/
def dropOld (s : State) (c : CuId) : State :=
  let s := s.modCu c fun u => { u with l1 := sFilter u.l1 fun w x => x.st != .si || x.sm || copyCurrent s w x }
  ((s.mem.prox.filter fun e => e.2.st == .si).map fun e => e.1).foldl proxDrop s

/-- fence (R179). The si copies go where the warp has read a tagged value; under kind sc those that are not current go in any case,
so that no read after it returns a value older than what an earlier fence of the total order made visible (R263; log 83). -/
def execFence (p : Pr) (scp : Scope) (kind : FenceKind) (s : State) : Host.Outcome State Fault Refusal :=
  run (.fence p scp kind) s fun x s =>
    let acq := kind != .rel
    let rel := kind != .acq
    if (acq && readOpen s x.w) || (rel && anyReq s x.w) then .hold .other s
    else if rel && !releaseReady s x.w scp then .hold .other (releaseBegin s x.w)
    else
      let s := if acq && ((s.warp? x.w).map Warp.sawTag).getD false then dropAt s x.w
        else if kind == .sc then dropOld s (cuOf x.gid) else s
      if rel then
        .done ((releaseAt s x.w scp).modWarp x.w fun w =>
          { w with relScope := some (match w.relScope with | some q => wider q scp | none => scp) })
      else .done s

/-! ### Barriers -/

/-- The scope at which a barrier orders (R181). -/
def barScope (cl : Bool) : Scope := if cl then .cl else .pkg

/-- What an instruction names: a barrier its warp may use. -/
def barNamed (s : State) (x : Issue) (cl : Bool) (a : Operand) : Option Nat :=
  (s.group? x.gid).bind fun g => barUsable s g cl (loWord (scalarOf s x (some ⟨a, 1, true⟩))).toNat

/-- The group of the warp is a member. -/
def barMember (s : State) (x : Issue) (k : Nat) : Bool :=
  ((s.group? x.gid).map fun g => (s.bar k).members.contains g.gname).getD false

/-- A warp's mark is one of its own. -/
def Arrival.isOf (a : Arrival) (g : GName) (w : WarpId) : Bool := a.group == g && a.warp == warpIndex w

/-- Its arrival belongs to a generation that is not complete. -/
def barArrived (s : State) (x : Issue) (k : Nat) : Bool :=
  ((s.group? x.gid).map fun g => (s.bar k).arrived.any fun a => a.isOf g.gname x.w).getD false

/-- Record an arrival, as a release at the barrier's scope, and complete the generation where it is the last (R181). -/
def barArrive (s : State) (x : Issue) (cl : Bool) (k : Nat) : State :=
  match s.group? x.gid with
  | none => s
  | some g =>
    let s := releaseAt s x.w (barScope cl)
    let b := s.bar k
    let m : Arrival := ⟨g.gname, warpIndex x.w, b.gen⟩
    barAdvance (s.setBar k { b with arrived := b.arrived ++ [m], waits := (b.waits.filter fun a => !a.isOf g.gname x.w) ++ [m] }) k

/-- The generation of the warp's latest arrival has not completed (R182). -/
def barWaiting (s : State) (x : Issue) (k : Nat) : Bool :=
  ((s.group? x.gid).map fun g => (s.bar k).waits.any fun a => a.isOf g.gname x.w && a.gen == (s.bar k).gen).getD false

/-- The end of a wait is an acquire at the barrier's scope (R182, R274). -/
def barWaited (s : State) (x : Issue) (k : Nat) : State :=
  match s.group? x.gid with
  | none => s
  | some g =>
    let b := s.bar k
    dropAt (s.setBar k { b with waits := b.waits.filter fun a => !a.isOf g.gname x.w }) x.w

/-- The warp is held at this barrier by an instruction that it may complete, whatever group members leave meanwhile (R182). -/
def waitsAt (s : State) (x : Issue) (k : Nat) : Bool := ((s.warp? x.w).bind Warp.barWait) == some k

/-- The warp is held at a barrier until its generation completes. -/
def barHold (s : State) (x : Issue) (k : Nat) : Res := .hold .bar (s.modWarp x.w fun w => { w with barWait := some k })

/-- The wait ends. -/
def barDone (s : State) (x : Issue) (k : Nat) : Res := .done ((barWaited s x k).modWarp x.w fun w => { w with barWait := none })

/-- arrive. -/
def execArrive (h : Hdr) (cl : Bool) (a : Operand) (s : State) : Host.Outcome State Fault Refusal :=
  run (.arrive h cl a) s fun x s =>
    match barNamed s x cl a with
    | none => .trap 0x16 x.cur.pc 0 false
    | some k =>
      if !barMember s x k then .trap 0x16 x.cur.pc 0 false
      else if anyReq s x.w || barArrived s x k then .hold .other s
      else if !releaseReady s x.w (barScope cl) then .hold .other (releaseBegin s x.w)
      else .done (barArrive s x cl k)

/-- wait. -/
def execWait (h : Hdr) (cl : Bool) (a : Operand) (s : State) : Host.Outcome State Fault Refusal :=
  run (.wait h cl a) s fun x s =>
    match barNamed s x cl a with
    | none => .trap 0x16 x.cur.pc 0 false
    | some k =>
      if !barMember s x k && !waitsAt s x k then .trap 0x16 x.cur.pc 0 false
      else if barWaiting s x k then barHold s x k
      else barDone s x k

/-- bar: arrive followed by wait, one instruction. It waits for its own arrival, once that has been made. -/
def execBar (h : Hdr) (cl : Bool) (a : Operand) (s : State) : Host.Outcome State Fault Refusal :=
  run (.bar h cl a) s fun x s =>
    match barNamed s x cl a with
    | none => .trap 0x16 x.cur.pc 0 false
    | some k =>
      if waitsAt s x k then (if barWaiting s x k then barHold s x k else barDone s x k)
      else if !barMember s x k then .trap 0x16 x.cur.pc 0 false
      else if anyReq s x.w || barArrived s x k then .hold .bar s
      else if !releaseReady s x.w (barScope cl) then .hold .bar (releaseBegin s x.w)
      else
        let s := barArrive s x cl k
        if barWaiting s x k then barHold s x k else barDone s x k

/-- bmask (R183). During a generation it raises 0x16 even where the mask would change nothing (log 70). -/
def execBmask (h : Hdr) (cl : Bool) (a b : Operand) (s : State) : Host.Outcome State Fault Refusal :=
  run (.bmask h cl a b) s fun x s =>
    match barNamed s x cl a, s.group? x.gid with
    | some k, some g =>
      let bar := s.bar k
      if !bar.arrived.isEmpty then .trap 0x16 x.cur.pc 0 false
      else
        let others := bar.members.filter fun n => n != g.gname
        let join := loWord (scalarOf s x (some ⟨b, 1, true⟩)) != 0
        .done (s.setBar k { bar with
          members := if join then (if bar.members.contains g.gname then bar.members else bar.members ++ [g.gname]) else others
          waits := if join then bar.waits else bar.waits.filter fun m => m.group != g.gname })
    | _, _ => .trap 0x16 x.cur.pc 0 false

/-! ### Convergence definition -/

/-- cvdef (R185). A set that an exit completed and that still waits keeps its register until it has issued (log 26). -/
def execCvdef (p : Pr) (cv : Fin 8) (a : Option Operand) (s : State) : Host.Outcome State Fault Refusal :=
  run (.cvdef p cv a) s fun x s =>
    match s.warp? x.w with
    | none => .done s
    | some w =>
      let c := w.cvReg cv.val
      if c.signed != 0 && c.signed != c.expected then .trap 0x16 x.cur.pc 0 false
      else if (s.cu (cuOf x.gid)).defMat.any fun e => e.wid == x.w && e.cv == cv then .hold .other s
      else
        let m : Mask := match a with
          | some o => scalarOf s x (some ⟨o, 2, true⟩) &&& w.alive
          | none => x.exec
        .done (s.modWarp x.w fun w => w.setCv cv.val ⟨m, 0, none, []⟩)

/-! ### Publish (R189, R353) -/

/-- Requests that have translated in a context and not completed at their homes. -/
def translated (s : State) (t : Tag) : List Nat :=
  (s.reqs.filter fun e => e.2.ctx == t && e.2.stage == .home && !e.2.accs.isEmpty).map fun e => e.1

/-- publish: it waits as a release at scope pkg; the flip follows once earlier accesses are complete. -/
def execPublish (h : Hdr) (a : Operand) (s : State) : Host.Outcome State Fault Refusal :=
  run (.publish h a) s fun x s =>
    let n := (loWord (scalarOf s x (some ⟨a, 1, true⟩))).toNat
    if 63 < n then .trap 0x16 x.cur.pc 0 false
    else if anyReq s x.w then .hold .other s
    else if !releaseReady s x.w .pkg then .hold .other (releaseBegin s x.w)
    else
      let s := releaseAt s x.w .pkg
      let t := tagOf s x.w
      .done { s with pubs := s.pubs ++ [⟨x.w, t, n, translated s t⟩] }

/-- PUBLISH_FLIP: the oldest publish inverts its set (R353). -/
def execPublishFlip (s : State) : Host.Outcome State Fault Refusal :=
  match s.pubs with
  | [] => .next s
  | p :: rest =>
    if p.reqs.any fun k => match sFind? s.reqs k with | some r => r.stage == .home | none => false then .next s
    else .next { flipSet s p.tag p.set with pubs := rest }

/-! ### Channel setup -/

/-- chset (R190). -/
def execChset (h : Hdr) (d a b : Operand) (s : State) : Host.Outcome State Fault Refusal :=
  run (.chset h d a b) s fun x s =>
    let base := (loWord (scalarOf s x (some ⟨a, 1, true⟩))).toNat
    let depth := (loWord (scalarOf s x (some ⟨b, 1, true⟩))).toNat
    match s.group? x.gid, d with
    | some g, .ch n _ =>
      if base % 4 != 0 || 4095 < depth || g.winSize < base + 4 * depth then .trap 0x16 x.cur.pc 0 false
      else .done (s.modGroup x.gid fun g => g.setChan n.val ⟨0, 0, depth, base⟩)
    | _, _ => .done s

end Sys2Proof.Machine
end

