-- ==== Sys2Proof/Machine/Dispatch.lean ====
section
/-! DEFINITION. One arm for each constructor of Instr: the direct call of its meaning. -/

namespace Sys2Proof.Machine

open Sys2Proof

/-- The meaning of an instruction or step in a state. -/
def exec (i : Instr) (s : State) : Host.Outcome State Fault Refusal :=
  match i with
  | .nop h => Sys2Proof.Machine.execNop h s
  | .bra p disp => Sys2Proof.Machine.execBra p disp s
  | .brx p a => Sys2Proof.Machine.execBrx p a s
  | .call p ind d a disp => Sys2Proof.Machine.execCall p ind d a disp s
  | .ret p a => Sys2Proof.Machine.execRet p a s
  | .exit p => Sys2Proof.Machine.execExit p s
  | .rpt cnt sd sa sb sc => Sys2Proof.Machine.execRpt cnt sd sa sb sc s
  | .yield p => Sys2Proof.Machine.execYield p s
  | .idle p => Sys2Proof.Machine.execIdle p s
  | .trap h a => Sys2Proof.Machine.execTrap h a s
  | .brk p => Sys2Proof.Machine.execBrk p s
  | .eretReplay p => Sys2Proof.Machine.execEretReplay p s
  | .eretSkip p => Sys2Proof.Machine.execEretSkip p s
  | .eretFill p => Sys2Proof.Machine.execEretFill p s
  | .eretAbort p => Sys2Proof.Machine.execEretAbort p s
  | .mfs p d num idx => Sys2Proof.Machine.execMfs p d num idx s
  | .mts p a num idx => Sys2Proof.Machine.execMts p a num idx s
  | .pgctlWrite p a idx => Sys2Proof.Machine.execPgctlWrite p a idx s
  | .acctabWrite p a idx => Sys2Proof.Machine.execAcctabWrite p a idx s
  | .watchtabWrite p a idx => Sys2Proof.Machine.execWatchtabWrite p a idx s
  | .launch p d a => Sys2Proof.Machine.execLaunch p d a s
  | .enq h d a b c => Sys2Proof.Machine.execEnq h d a b c s
  | .tlbiVa h a c => Sys2Proof.Machine.execTlbiVa h a c s
  | .tlbiRange h a b c => Sys2Proof.Machine.execTlbiRange h a b c s
  | .tlbiCtx h c => Sys2Proof.Machine.execTlbiCtx h c s
  | .tlbiAll h => Sys2Proof.Machine.execTlbiAll h s
  | .tlbsync p => Sys2Proof.Machine.execTlbsync p s
  | .pgref p free d a b => Sys2Proof.Machine.execPgref p free d a b s
  | .pgcow p d a b c => Sys2Proof.Machine.execPgcow p d a b c s
  | .pgtwin p d a b c => Sys2Proof.Machine.execPgtwin p d a b c s
  | .pgmig p d a => Sys2Proof.Machine.execPgmig p d a s
  | .ctxsave p d a b => Sys2Proof.Machine.execCtxsave p d a b s
  | .ctxload p d a b => Sys2Proof.Machine.execCtxload p d a b s
  | .evt h a b => Sys2Proof.Machine.execEvt h a b s
  | .iadd h m d a b => Sys2Proof.Machine.execIadd h m d a b s
  | .isub h m d a b => Sys2Proof.Machine.execIsub h m d a b s
  | .imul h m d a b => Sys2Proof.Machine.execImul h m d a b s
  | .imulh h sg d a b => Sys2Proof.Machine.execImulh h sg d a b s
  | .imad h m d a b c => Sys2Proof.Machine.execImad h m d a b c s
  | .iabs h m d a => Sys2Proof.Machine.execIabs h m d a s
  | .imin h sg d a b => Sys2Proof.Machine.execImin h sg d a b s
  | .imax h sg d a b => Sys2Proof.Machine.execImax h sg d a b s
  | .and h d a b => Sys2Proof.Machine.execAnd h d a b s
  | .or h d a b => Sys2Proof.Machine.execOr h d a b s
  | .xor h d a b => Sys2Proof.Machine.execXor h d a b s
  | .andn h d a b => Sys2Proof.Machine.execAndn h d a b s
  | .shl h d a b => Sys2Proof.Machine.execShl h d a b s
  | .shr h d a b => Sys2Proof.Machine.execShr h d a b s
  | .sar h d a b => Sys2Proof.Machine.execSar h d a b s
  | .rot h d a b => Sys2Proof.Machine.execRot h d a b s
  | .popc h d a => Sys2Proof.Machine.execPopc h d a s
  | .clz h d a => Sys2Proof.Machine.execClz h d a s
  | .brev h d a => Sys2Proof.Machine.execBrev h d a s
  | .bfe h sg d a b => Sys2Proof.Machine.execBfe h sg d a b s
  | .bfi h d a b c => Sys2Proof.Machine.execBfi h d a b c s
  | .sel h d a b c => Sys2Proof.Machine.execSel h d a b c s
  | .mov h d a => Sys2Proof.Machine.execMov h d a s
  | .icmp h sg cc d a b => Sys2Proof.Machine.execIcmp h sg cc d a b s
  | .plog h tt d a b => Sys2Proof.Machine.execPlog h tt d a b s
  | .sext h w wd d a => Sys2Proof.Machine.execSext h w wd d a s
  | .zext h w wd d a => Sys2Proof.Machine.execZext h w wd d a s
  | .lea h sg sh d a b => Sys2Proof.Machine.execLea h sg sh d a b s
  | .add64 h m d a b => Sys2Proof.Machine.execAdd64 h m d a b s
  | .sub64 h m d a b => Sys2Proof.Machine.execSub64 h m d a b s
  | .mul64 h m d a b => Sys2Proof.Machine.execMul64 h m d a b s
  | .fadd h sm ty rm d a b => Sys2Proof.Machine.execFadd h sm ty rm d a b s
  | .fsub h sm ty rm d a b => Sys2Proof.Machine.execFsub h sm ty rm d a b s
  | .fmul h sm ty rm d a b => Sys2Proof.Machine.execFmul h sm ty rm d a b s
  | .ffma h sm ty rm d a b c => Sys2Proof.Machine.execFfma h sm ty rm d a b c s
  | .fmin h sm ty nanp d a b => Sys2Proof.Machine.execFmin h sm ty nanp d a b s
  | .fmax h sm ty nanp d a b => Sys2Proof.Machine.execFmax h sm ty nanp d a b s
  | .fcmp h hi ty cc d a b => Sys2Proof.Machine.execFcmp h hi ty cc d a b s
  | .fclass h ty d a => Sys2Proof.Machine.execFclass h ty d a s
  | .frnd h x ty rm d a => Sys2Proof.Machine.execFrnd h x ty rm d a s
  | .fdot2 h sm ty rm d a b c => Sys2Proof.Machine.execFdot2 h sm ty rm d a b c s
  | .dadd h sm rm d a b => Sys2Proof.Machine.execDadd h sm rm d a b s
  | .dmul h sm rm d a b => Sys2Proof.Machine.execDmul h sm rm d a b s
  | .dfma h sm rm d a b c => Sys2Proof.Machine.execDfma h sm rm d a b c s
  | .dcmp h cc d a b => Sys2Proof.Machine.execDcmp h cc d a b s
  | .dmin h sm nanp d a b => Sys2Proof.Machine.execDmin h sm nanp d a b s
  | .dmax h sm nanp d a b => Sys2Proof.Machine.execDmax h sm nanp d a b s
  | .cvt h cv rm d a => Sys2Proof.Machine.execCvt h cv rm d a s
  | .pack h f sat rm d a b => Sys2Proof.Machine.execPack h f sat rm d a b s
  | .unpack h f idx d a => Sys2Proof.Machine.execUnpack h f idx d a s
  | .qpack h n4 rm d a b c => Sys2Proof.Machine.execQpack h n4 rm d a b c s
  | .qunpack h n4 idx d a c => Sys2Proof.Machine.execQunpack h n4 idx d a c s
  | .rcp h ty d a => Sys2Proof.Machine.execRcp h ty d a s
  | .rsqrt h ty d a => Sys2Proof.Machine.execRsqrt h ty d a s
  | .sqrt h ty rm d a => Sys2Proof.Machine.execSqrt h ty rm d a s
  | .exp2 h ty d a => Sys2Proof.Machine.execExp2 h ty d a s
  | .log2 h ty d a => Sys2Proof.Machine.execLog2 h ty d a s
  | .sin h ty d a => Sys2Proof.Machine.execSin h ty d a s
  | .cos h ty d a => Sys2Proof.Machine.execCos h ty d a s
  | .tanh h ty d a => Sys2Proof.Machine.execTanh h ty d a s
  | .shfl h seg mode d a b => Sys2Proof.Machine.execShfl h seg mode d a b s
  | .vote h vm d a => Sys2Proof.Machine.execVote h vm d a s
  | .bcast h d a b => Sys2Proof.Machine.execBcast h d a b s
  | .redux h rm o d a => Sys2Proof.Machine.execRedux h rm o d a s
  | .scan h excl o d a => Sys2Proof.Machine.execScan h excl o d a s
  | .ld p sx d a x => Sys2Proof.Machine.execLd p sx d a x s
  | .st p a b x => Sys2Proof.Machine.execSt p a b x s
  | .ldu p sx d a x => Sys2Proof.Machine.execLdu p sx d a x s
  | .stu p a b x => Sys2Proof.Machine.execStu p a b x s
  | .lds p sx d a x => Sys2Proof.Machine.execLds p sx d a x s
  | .sts p a b x => Sys2Proof.Machine.execSts p a b x s
  | .ldfe p d a x => Sys2Proof.Machine.execLdfe p d a x s
  | .ldff p d a x => Sys2Proof.Machine.execLdff p d a x s
  | .stfe p a b x => Sys2Proof.Machine.execStfe p a b x s
  | .stff p a b x => Sys2Proof.Machine.execStff p a b x s
  | .feset p v a b x => Sys2Proof.Machine.execFeset p v a b x s
  | .pref p a x => Sys2Proof.Machine.execPref p a x s
  | .wbr p a b x => Sys2Proof.Machine.execWbr p a b x s
  | .invr p a b x => Sys2Proof.Machine.execInvr p a b x s
  | .flr p a b x => Sys2Proof.Machine.execFlr p a b x s
  | .icinv p a b x => Sys2Proof.Machine.execIcinv p a b x s
  | .fetchb x => Sys2Proof.Machine.execFetchb x s
  | .atom p sp d a b x => Sys2Proof.Machine.execAtom p sp d a b x s
  | .red p sp a b x => Sys2Proof.Machine.execRed p sp a b x s
  | .cas p sp d a b c x => Sys2Proof.Machine.execCas p sp d a b c x s
  | .acc p a b x => Sys2Proof.Machine.execAcc p a b x s
  | .accdrain p a b x => Sys2Proof.Machine.execAccdrain p a b x s
  | .fence p scp kind => Sys2Proof.Machine.execFence p scp kind s
  | .arrive h cl a => Sys2Proof.Machine.execArrive h cl a s
  | .wait h cl a => Sys2Proof.Machine.execWait h cl a s
  | .bar h cl a => Sys2Proof.Machine.execBar h cl a s
  | .bmask h cl a b => Sys2Proof.Machine.execBmask h cl a b s
  | .cvdef p cv a => Sys2Proof.Machine.execCvdef p cv a s
  | .watch p d a => Sys2Proof.Machine.execWatch p d a s
  | .unwatch p d a => Sys2Proof.Machine.execUnwatch p d a s
  | .publish h a => Sys2Proof.Machine.execPublish h a s
  | .chset h d a b => Sys2Proof.Machine.execChset h d a b s
  | .mma p a b x => Sys2Proof.Machine.execMma p a b x s
  | .mmaq p a b x => Sys2Proof.Machine.execMmaq p a b x s
  | .mmas p a b x => Sys2Proof.Machine.execMmas p a b x s
  | .accz p tile => Sys2Proof.Machine.execAccz p tile s
  | .accld p sp tile a b x => Sys2Proof.Machine.execAccld p sp tile a b x s
  | .accst p sp tile a b x => Sys2Proof.Machine.execAccst p sp tile a b x s
  | .accrd h t d a => Sys2Proof.Machine.execAccrd h t d a s
  | .accwr h t a b => Sys2Proof.Machine.execAccwr h t a b s
  | .xcopy p a x => Sys2Proof.Machine.execXcopy p a x s
  | .mcast p a b c x => Sys2Proof.Machine.execMcast p a b c x s
  | .csrg p a b c x => Sys2Proof.Machine.execCsrg p a b c x s
  | .estat p d a => Sys2Proof.Machine.execEstat p d a s
  | .ecancel p a => Sys2Proof.Machine.execEcancel p a s
  | .spinExcursion w => Sys2Proof.Machine.execSpinExcursion w s
  | .excursionLimit w => Sys2Proof.Machine.execExcursionLimit w s
  | .loadReply r x => Sys2Proof.Machine.execLoadReply r x s
  | .storeAcceptance r => Sys2Proof.Machine.execStoreAcceptance r s
  | .storeErrorResponse r => Sys2Proof.Machine.execStoreErrorResponse r s
  | .queueCompletion w sf => Sys2Proof.Machine.execQueueCompletion w sf s
  | .rangeOpComplete r => Sys2Proof.Machine.execRangeOpComplete r s
  | .accdrainComplete r => Sys2Proof.Machine.execAccdrainComplete r s
  | .untrackedRetest w lane => Sys2Proof.Machine.execUntrackedRetest w lane s
  | .deferredMatrixIssue w cv => Sys2Proof.Machine.execDeferredMatrixIssue w cv s
  | .matrixOpComplete cu => Sys2Proof.Machine.execMatrixOpComplete cu s
  | .engineElementDelivery e x => Sys2Proof.Machine.execEngineElementDelivery e x s
  | .enginePageStage e bytes => Sys2Proof.Machine.execEnginePageStage e bytes s
  | .asyncTrap w => Sys2Proof.Machine.execAsyncTrap w s
  | .trapEnqueue w => Sys2Proof.Machine.execTrapEnqueue w s
  | .handlerStart die => Sys2Proof.Machine.execHandlerStart die s
  | .preemption g => Sys2Proof.Machine.execPreemption g s
  | .contextSwitch out into => Sys2Proof.Machine.execContextSwitch out into s
  | .deadlineOverrun t => Sys2Proof.Machine.execDeadlineOverrun t s
  | .partitionHalt t cause => Sys2Proof.Machine.execPartitionHalt t cause s
  | .launchRecord => Sys2Proof.Machine.execLaunchRecord s
  | .stagingComplete l flash => Sys2Proof.Machine.execStagingComplete l flash s
  | .groupStart cu => Sys2Proof.Machine.execGroupStart cu s
  | .balanceExchange => Sys2Proof.Machine.execBalanceExchange s
  | .groupRetire g => Sys2Proof.Machine.execGroupRetire g s
  | .launchCompletion l => Sys2Proof.Machine.execLaunchCompletion l s
  | .flushByTag cu t => Sys2Proof.Machine.execFlushByTag cu t s
  | .homeOwnRequest r => Sys2Proof.Machine.execHomeOwnRequest r s
  | .homeWtLoad r => Sys2Proof.Machine.execHomeWtLoad r s
  | .homeSiLoad r => Sys2Proof.Machine.execHomeSiLoad r s
  | .homeWtSiStore r => Sys2Proof.Machine.execHomeWtSiStore r s
  | .homeUncLoad r => Sys2Proof.Machine.execHomeUncLoad r s
  | .homeUncStoreAtomic r => Sys2Proof.Machine.execHomeUncStoreAtomic r s
  | .recall cu word clean => Sys2Proof.Machine.execRecall cu word clean s
  | .invalidate cu word => Sys2Proof.Machine.execInvalidate cu word s
  | .writeBack cu line => Sys2Proof.Machine.execWriteBack cu line s
  | .l1Eviction cu line => Sys2Proof.Machine.execL1Eviction cu line s
  | .l2Eviction line => Sys2Proof.Machine.execL2Eviction line s
  | .plinthRd pa size activates => Sys2Proof.Machine.execPlinthRd pa size activates s
  | .plinthWr line activates => Sys2Proof.Machine.execPlinthWr line activates s
  | .plinthAt r => Sys2Proof.Machine.execPlinthAt r s
  | .join r => Sys2Proof.Machine.execJoin r s
  | .combine c => Sys2Proof.Machine.execCombine c s
  | .combineAck c => Sys2Proof.Machine.execCombineAck c s
  | .regionLoad r => Sys2Proof.Machine.execRegionLoad r s
  | .tighten cu line => Sys2Proof.Machine.execTighten cu line s
  | .tightenAck r => Sys2Proof.Machine.execTightenAck r s
  | .fullDrain line => Sys2Proof.Machine.execFullDrain line s
  | .regionRecall line => Sys2Proof.Machine.execRegionRecall line s
  | .triggerDispatch k => Sys2Proof.Machine.execTriggerDispatch k s
  | .triggerReoffer k => Sys2Proof.Machine.execTriggerReoffer k s
  | .spillScan unit region => Sys2Proof.Machine.execSpillScan unit region s
  | .pendRunChange => Sys2Proof.Machine.execPendRunChange s
  | .groupCountOut k => Sys2Proof.Machine.execGroupCountOut k s
  | .copyOnWriteBreak w => Sys2Proof.Machine.execCopyOnWriteBreak w s
  | .cowReplay w => Sys2Proof.Machine.execCowReplay w s
  | .migrationComplete m bytes => Sys2Proof.Machine.execMigrationComplete m bytes s
  | .migrationError m => Sys2Proof.Machine.execMigrationError m s
  | .publishFlip => Sys2Proof.Machine.execPublishFlip s
  | .switchQuiesceDone g => Sys2Proof.Machine.execSwitchQuiesceDone g s
  | .switchDrainDone g => Sys2Proof.Machine.execSwitchDrainDone g s
  | .retrainLock g => Sys2Proof.Machine.execRetrainLock g s
  | .retrainTimeout g => Sys2Proof.Machine.execRetrainTimeout g s
  | .announceDone g => Sys2Proof.Machine.execAnnounceDone g s
  | .linkLoss g => Sys2Proof.Machine.execLinkLoss g s
  | .wavelengthRetire g pair wave => Sys2Proof.Machine.execWavelengthRetire g pair wave s
  | .ualRequest q => Sys2Proof.Machine.execUalRequest q s
  | .relayForward g dst q => Sys2Proof.Machine.execRelayForward g dst q s
  | .freeze pkg die agent => Sys2Proof.Machine.execFreeze pkg die agent s
  | .resume pkg die agent => Sys2Proof.Machine.execResume pkg die agent s
  | .storeLogReplay => Sys2Proof.Machine.execStoreLogReplay s
  | .busyResend r => Sys2Proof.Machine.execBusyResend r s
  | .backInvalidate line => Sys2Proof.Machine.execBackInvalidate line s
  | .dynamicCapacityRelease base len => Sys2Proof.Machine.execDynamicCapacityRelease base len s
  | .forcedRevocation base len => Sys2Proof.Machine.execForcedRevocation base len s
  | .tlbiComplete k => Sys2Proof.Machine.execTlbiComplete k s
  | .icinvComplete r => Sys2Proof.Machine.execIcinvComplete r s
  | .farEndQuiesce g => Sys2Proof.Machine.execFarEndQuiesce g s
  | .announceFailure g code => Sys2Proof.Machine.execAnnounceFailure g code s
  | .drainFailure g => Sys2Proof.Machine.execDrainFailure g s
  | .inboundRmaRequest => Sys2Proof.Machine.execInboundRmaRequest s
  | .dbgBreakpointStop w => Sys2Proof.Machine.execDbgBreakpointStop w s
  | .qtail q v => Sys2Proof.Machine.execQtail q v s
  | .qcfg q v => Sys2Proof.Machine.execQcfg q v s
  | .queueEntry q => Sys2Proof.Machine.execQueueEntry q s
  | .pkgset n => Sys2Proof.Machine.execPkgset n s
  | .quantum us => Sys2Proof.Machine.execQuantum us s
  | .dumpset t base size => Sys2Proof.Machine.execDumpset t base size s
  | .vlogset base => Sys2Proof.Machine.execVlogset base s
  | .prove nonce => Sys2Proof.Machine.execProve nonce s
  | .record t base size => Sys2Proof.Machine.execRecord t base size s
  | .recordSnapshot t => Sys2Proof.Machine.execRecordSnapshot t s
  | .recstop t => Sys2Proof.Machine.execRecstop t s
  | .powercap watts => Sys2Proof.Machine.execPowercap watts s
  | .svcclr mask => Sys2Proof.Machine.execSvcclr mask s
  | .dumprun t base remain => Sys2Proof.Machine.execDumprun t base remain s
  | .newManagementImage image => Sys2Proof.Machine.execNewManagementImage image s
  | .rerunImport area dst frame => Sys2Proof.Machine.execRerunImport area dst frame s
  | .reset => Sys2Proof.Machine.execReset s
  | .uncorrectableError site => Sys2Proof.Machine.execUncorrectableError site s
  | .correctableError above => Sys2Proof.Machine.execCorrectableError above s
  | .spareCu die available => Sys2Proof.Machine.execSpareCu die available s
  | .pseudoChannelRetire frames => Sys2Proof.Machine.execPseudoChannelRetire frames s
  | .powerCap engaged => Sys2Proof.Machine.execPowerCap engaged s
  | .decodeWindow plinth n value => Sys2Proof.Machine.execDecodeWindow plinth n value s
  | .nrctl plinth value => Sys2Proof.Machine.execNrctl plinth value s
  | .registerWrite offset value => Sys2Proof.Machine.execRegisterWrite offset value s
  | .dbgAttach t => Sys2Proof.Machine.execDbgAttach t s
  | .dbgLoad im => Sys2Proof.Machine.execDbgLoad im s
  | .dbgArgs ws => Sys2Proof.Machine.execDbgArgs ws s
  | .dbgLaunch x y w h side dl => Sys2Proof.Machine.execDbgLaunch x y w h side dl s
  | .dbgPrint rs => Sys2Proof.Machine.execDbgPrint rs s
  | .dbgDelete ns => Sys2Proof.Machine.execDbgDelete ns s
  | .dbgHoldStore cu addr => Sys2Proof.Machine.execDbgHoldStore cu addr s
  | .dbgUnhold n => Sys2Proof.Machine.execDbgUnhold n s
  | .dbgBreak addr cu => Sys2Proof.Machine.execDbgBreak addr cu s
  | .dbgStep n cu => Sys2Proof.Machine.execDbgStep n cu s
  | .dbgContinue cu => Sys2Proof.Machine.execDbgContinue cu s
  | .dbgPromptReturn => Sys2Proof.Machine.execDbgPromptReturn s
  | .dbgXW addrs => Sys2Proof.Machine.execDbgXW addrs s
  | .dbgCache cu addrs => Sys2Proof.Machine.execDbgCache cu addrs s
  | .dbgPteSm addr n v => Sys2Proof.Machine.execDbgPteSm addr n v s
  | .dbgPte t va => Sys2Proof.Machine.execDbgPte t va s
  | .dbgFrame t va => Sys2Proof.Machine.execDbgFrame t va s
  | .dbgFreelist d => Sys2Proof.Machine.execDbgFreelist d s
  | .dbgCatch cause => Sys2Proof.Machine.execDbgCatch cause s
  | .dbgAcc addr => Sys2Proof.Machine.execDbgAcc addr s
  | .dbgPreempt cu dest => Sys2Proof.Machine.execDbgPreempt cu dest s
  | .dbgHoldTriggers => Sys2Proof.Machine.execDbgHoldTriggers s
  | .dbgRelease addr => Sys2Proof.Machine.execDbgRelease addr s
  | .dbgTraceTriggers => Sys2Proof.Machine.execDbgTraceTriggers s
  | .dbgUntrace n => Sys2Proof.Machine.execDbgUntrace n s
  | .dbgPending region => Sys2Proof.Machine.execDbgPending region s

end Sys2Proof.Machine
end

