-- ==== Sys2Proof/Machine/Auto.lean ====
section
/-! DEFINITION. What happens next where the schedule names nothing (log 1): the first step that a unit with work to do can
make, else the next warp of the rotation. Answers of the outside (flash, other packages, the PHY, the host, birfdb) come
from the schedule alone. -/

namespace Sys2Proof.Machine

open Sys2Proof

/-- The steps that may serve a request. -/
def reqEvents (s : State) (k : Nat) (r : Req) : List Instr :=
  match r.stage with
  | .home =>
    match r.kind with
    | .load .own | .store .own | .tileLd .own | .tileSt .own => [.homeOwnRequest k]
    | .load .wt | .tileLd .wt => [.homeWtLoad k]
    | .load .si | .tileLd .si => [.homeSiLoad k]
    | .load .unc | .tileLd .unc => [.homeUncLoad k]
    | .store .wt | .store .si | .tileSt .wt | .tileSt .si => [.homeWtSiStore k]
    | .store .unc | .tileSt .unc | .atom _ | .red _ | .cas => [.homeUncStoreAtomic k]
    | .accLoad .. => [.tightenAck k, .regionLoad k]
    | .acc => [.join k]
    | .range .. => [.rangeOpComplete k]
    | .drain => [.accdrainComplete k]
    | .icinv => [.icinvComplete k]
    | .pref _ => [.homeWtLoad k]
    | .fetch | .read | .wback => []
  | .ext => if farRefused s r then [.loadReply k .error, .storeErrorResponse ⟨k, .error⟩] else []
  | .reply => [.loadReply k .none, .storeAcceptance ⟨k, .none⟩]
  | .refused => [.storeErrorResponse ⟨k, .none⟩]

/-- A request that waits for room in an L2 slice: the slice's lowest line is evicted (R314, log 67). -/
def roomEvents (s : State) (r : Req) : List Instr :=
  match if r.stage == .home then r.accs.find? fun a => !l2Room s (a.pa / 128) else none with
  | some a => ((l2Lines s).find? fun l => unitOf (128 * l) == unitOf a.pa).toList.map .l2Eviction
  | none => []

/-- Steps of the memory system. -/
def memEvents (s : State) : List Instr :=
  (s.reqs.flatMap fun e => reqEvents s e.1 e.2 ++ roomEvents s e.2)
    ++ (s.combines.flatMap fun e =>
      if e.2.acked then [.combineAck e.1]
      else if e.2.cu < 1024 || pushLost s e.2 then [.combine ⟨e.1, .none⟩] else [])
    ++ (s.holders.flatMap fun e => (e.2.list.filter fun c => c < 1024).map fun c => .tighten c ⟨e.1, 0⟩)
    ++ (s.holders.flatMap fun e => if e.2.far.isEmpty || e.2.asked then [] else [.fullDrain e.1, .regionRecall e.1])
    ++ (s.tlbis.map fun e => .tlbiComplete e.1)
    ++ (if s.pubs.isEmpty then [] else [.publishFlip])
    ++ (s.migs.filterMap fun e => if pteTier e.2.oldPte == 2 then none else some (.migrationComplete e.1 []))

/-- Steps of one warp. -/
def warpEvents (s : State) (w : WarpId) (x : Warp) : List Instr :=
  (if x.cow.isSome then [.copyOnWriteBreak w, .cowReplay w] else [])
    ++ (if x.halt.isSome then [.trapEnqueue w] else [])
    ++ (if x.sfq.isEmpty then [] else [.queueCompletion w true])
    ++ (if x.cvq.isEmpty then [] else [.queueCompletion w false])
    ++ (if s.dbg.stepping.contains (w, 0) then [.dbgBreakpointStop w] else [])

/-- Steps of one CU: waiters, tile operations, the head of its queue. -/
def cuEvents (c : CuId) (u : CU) : List Instr :=
  ((u.waiters.filter fun q => !q.tracked).map fun q => .untrackedRetest q.wid q.lane)
    ++ (u.defMat.map fun d => .deferredMatrixIssue d.wid d.cv)
    ++ (if u.matq.isEmpty then [] else [.matrixOpComplete c])
    ++ (if u.queue.isEmpty then [] else [.groupStart c])

/-- An absent page that an engine waits for has no bytes in flash. -/
def stagesAbsent (s : State) (e : EngOp) : Bool :=
  match ((if e.kind == .csrg then csrgAbsent s e else engNext e).find? fun va => (stageable s e.tag va).isSome) with
  | some va => (stageable s e.tag va).any fun p => pteTier p.1 == 3
  | none => false

/-- Steps of the engines. -/
def engEvents (s : State) (k : Nat) (e : EngOp) : List Instr :=
  [.engineElementDelivery k .none] ++ (if stagesAbsent s e then [.enginePageStage k []] else [])

/-- A launch's working set holds a page in flash. -/
def stagesFlash (s : State) (l : Launch) : Bool :=
  l.ws.any fun w => (List.range w.2.1).any fun i =>
    (stageable s l.tag (w.1 + BitVec.ofNat 64 (65536 * i))).any fun p => pteTier p.1 == 2

/-- Steps of triggers and watched regions. -/
def trigEvents (s : State) : List Instr :=
  (if s.regions.any fun e => !e.2.changes.isEmpty then [.pendRunChange] else [])
    ++ (s.trigs.filterMap fun e =>
      if e.2.queued || e.2.spilled then none else if e.2.refused then some (.triggerReoffer e.1) else some (.triggerDispatch e.1))
    ++ (s.regions.flatMap fun e => e.2.spills.map fun p => .spillScan p.1 e.1)
    ++ (s.outs.map fun e => .groupCountOut e.1)

/-- Steps of launches, groups and the curators. -/
def launchEvents (s : State) : List Instr :=
  (if (s.cpq.any fun e => e.result.isNone) || s.launches.any fun e => e.2.staged && !e.2.toQueue.isEmpty then [.launchRecord] else [])
    ++ (match queueTurn s with
      | some k => if h : k < 64 then [.queueEntry ⟨k, h⟩] else []
      | none => [])
    ++ (s.launches.filterMap fun e => if !e.2.staged && !stagesFlash s e.2 then some (.stagingComplete e.1 []) else none)
    ++ ((s.sup.traps.filter fun e => !e.2.isEmpty).map fun e => .handlerStart e.1)
    ++ (s.groups.map fun e => .groupRetire e.1)
    ++ (s.launches.map fun e => .launchCompletion e.1)

/-- Steps of the curators and the mailbox: halts, switches, pre-emption, snapshots, a command that runs, pages that have to move. -/
def ctxEvents (s : State) : List Instr :=
  let tags : List Tag := s.ctxs.map fun e => BitVec.ofNat 16 e.1
  ((tags.filter fun t => (s.ctx t).halting != 0).map fun t => .partitionHalt t (s.ctx t).halting)
    ++ (if s.sup.switching.isSome || s.dbg.moving.isSome then s.groups.map fun e => .preemption e.1 else [])
    ++ (match s.sup.switching with
      | some p => [.contextSwitch p.1 p.2]
      | none => tags.flatMap fun u => tags.map fun t => .contextSwitch t u)
    ++ ((tags.filter fun t => (s.ctx t).armed).map fun t => .recordSnapshot t)
    ++ (mbRuns s).toList ++ (if s.host.retiredFrames.isEmpty then [] else [.pseudoChannelRetire s.host.retiredFrames])

/-- Steps of the port groups that need nothing from outside. -/
def fabEvents (s : State) : List Instr :=
  ((List.range 16).flatMap fun n =>
      if h : n < 16 then
        (if pgState s n == 2 then [.switchQuiesceDone ⟨n, h⟩] else if pgState s n == 3 then [.switchDrainDone ⟨n, h⟩] else [])
      else [])
    ++ (s.fab.streams.flatMap fun e => e.2.held.map fun q => .ualRequest q)
    ++ (if s.fab.notices == 0 then [] else [.storeLogReplay])
    ++ s.fab.releasing.map fun e => .dynamicCapacityRelease e.1 e.2

/-- Steps that may happen of themselves, in the order in which the model looks at them. -/
def autoEvents (s : State) : List Instr :=
  memEvents s ++ (s.warps.flatMap fun e => warpEvents s e.1 e.2) ++ (s.cus.flatMap fun e => cuEvents e.1 e.2)
    ++ (s.engs.flatMap fun e => engEvents s e.1 e.2) ++ trigEvents s ++ launchEvents s ++ ctxEvents s
    ++ (if s.sup.pgctl.isEmpty && s.fab.streams.isEmpty then [] else fabEvents s)

/-- A step changes something. -/
def changes (s : State) (i : Instr) : Bool :=
  match exec i s with
  | .next t => t != s
  | _ => false

/-- The event that happens next of itself. -/
def autoEvent (s : State) : Option Instr := (autoEvents s).find? (changes s)

/-- What follows the issue of an instruction: birfdb counts a step (R283), and the issue is over. -/
def leaveIssue (w : WarpId) (i : Instr) : Host.Outcome State Fault Refusal → Host.Outcome State Fault Refusal
  | .next s => .next (turnOver { afterIssue w i s with cur := none } w)
  | o => o

/-- A warp's turn: what is due at its boundary, or an instruction. -/
def turnOf (s : State) (w : WarpId) : Host.Outcome State Fault Refusal :=
  match prepare s w with
  | .over s' => .next s'
  | .run i s' => leaveIssue w i (exec i s')

/-- A warp can issue now: one that is held can where its turn would find the hold ended (R298). -/
def issuesNow (s : State) (w : WarpId) (x : Warp) : Bool :=
  canIssue s w x && (!x.heldUp
    || match turnOf s w with
      | .next t => !(t.warp? w).any Warp.heldUp
      | _ => true)

/-- The warp stands first in its quadrant's rotation among those that can issue (R298). -/
def firstOfPort (s : State) (w : WarpId) (x : Warp) : Bool :=
  match s.order.find? fun v => gidOf v / 32 == gidOf w / 32
      && (s.warp? v).any fun y => y.quad == x.quad && issuesNow s v y with
  | some v => v == w
  | none => true

/-- The next warp of the rotation that can issue; now and then, and where there is none, one that is held looks again at what it
waits for. -/
def autoWarp (s : State) : Option WarpId :=
  let held := s.order.filter fun w => (s.warp? w).any fun x => canIssue s w x && x.heldUp
  let again := held[(s.tick / 8) % held.length]?
  let next := s.order.find? fun w => (s.warp? w).any fun x => issuesNow s w x
  if s.tick / 2 % 4 == 3 then again.or next else next.or again

/-- A warp's turn. -/
def warpMove (s : State) (w : WarpId) : Option Move × State := (some (.issue w), s)

/-- The next move, and the state with that move taken from the schedule; none when nothing can happen but the passing of
time. What is on the agenda comes first; then warps and other steps take turns, so that neither keeps the other from
happening (R303, log 1). -/
def nextMove (s : State) : Option Move × State :=
  match s.agenda with
  | m :: rest => (some m, { s with agenda := rest })
  | [] =>
    if s.tick % 2 == 1 then
      match autoWarp s with
      | some w => warpMove s w
      | none => ((autoEvent s).map .event, s)
    else
      match autoEvent s with
      | some i => (some (.event i), s)
      | none =>
        match autoWarp s with
        | some w => warpMove s w
        | none => (none, s)

/-- What happens in recovery: a reset, a new management image, the writes of MBCMD that may announce it, and what the host does with
its own memory (R438). -/
def inRecovery (s : State) : Move → Bool
  | .event .reset | .event (.newManagementImage _) | .event (.registerWrite _ _) => true
  | .hostWrite pa _ => spaceOf s pa == .host
  | _ => false

/-- Steps that the curators carry out. -/
def curatorWork : Move → Bool
  | .event i =>
    match i with
    | .partitionHalt .. | .contextSwitch .. | .preemption _ | .recordSnapshot _ | .record .. | .recstop _ | .dumprun ..
    | .rerunImport .. | .pseudoChannelRetire _ | .dbgAttach none | .dbgPteSm .. | .dbgPreempt .. => true
    | _ => false
  | _ => false

/-- The units that a move needs work: the module is not in recovery, and the curators have their image (R438). -/
def works (s : State) (m : Move) : Bool :=
  (s.host.verified || inRecovery s m) && !(s.host.off.contains 1 && curatorWork m)

/-- Carry out one move: a warp issues where it is its turn, or looks again at what holds it; another step of the table happens;
or the host writes memory. An instruction of a warp is no event. -/
def doMove (m : Move) (s : State) : Host.Outcome State Fault Refusal :=
  if !works s m then .next s
  else
    match m with
    | .issue w =>
      if (s.warp? w).all fun x => firstOfPort s w x || !issuesNow s w x then turnOf s w else .next s
    | .event i => if i.isIsa then .next s else exec i s
    | .hostWrite pa bs => .next (hostStore s pa bs)

end Sys2Proof.Machine
end

