-- ==== Sys2Proof/Machine/Step.lean ====
section
/-! DEFINITION. One step of the package: time passes, and one move of the schedule happens (log 1, log 2). -/

namespace Sys2Proof.Machine

open Sys2Proof

/-- THE STEP. -/
def step (s : State) : Host.Outcome State Fault Refusal :=
  match nextMove (passTime s) with
  | (some m, s') => doMove m s'
  | (none, s') => .next s'

/-- The state with an instruction stored where the next step fetches and runs it: bits `nbits` of `w`, zeros above
(log 8). -/
def State.withFetchWord (s : State) (nbits w : Nat) : State := placeInstr s (bytesOf (w % 2 ^ nbits) 16)

end Sys2Proof.Machine
end

