-- ==== Sys2Proof/Safety.lean ====
section
/-! DEFINITION. What counts as a safe run: the canonical form of memory and tables, and steps that answer a state. -/

namespace Sys2Proof

open Machine

/-- Memory in its canonical form: bytes of DRAM and of devices, release tags and poison marks with rising keys and no default
entry, and the bytes held dirty in memory-side caches and in L2, whose every entry counts, with rising keys. -/
def Machine.Memory.wf (m : Mem) : Bool :=
  sWf (0 : Byte) m.bytes && sSortedFrom 0 m.msc && sSortedFrom 0 m.l2 && sWf (0 : BitVec 3) m.rel && sWf false m.poison
    && sWf (0 : Byte) m.dev

/-- A state whose memory is in canonical form. -/
def Machine.State.memWf (s : State) : Prop := Memory.wf s.mem = true

/-- The step answers a next state: neither a fault nor a refusal. -/
def Machine.Steps (s : State) : Prop := ∃ t, step s = .next t

/-- A safe run of `k` steps. -/
def Machine.SafeRun (k : Nat) (s : State) : Prop :=
  match k with
  | 0 => True
  | k + 1 => ∃ t, step s = .next t ∧ SafeRun k t

end Sys2Proof
end

