-- ==== Sys2Proof/Claims.lean ====
section
/-! DEFINITION. The terms in which the statements speak: when an instruction issues with nothing in its way, what a
lane-by-lane instruction does to the state, and results in the manual's words. -/

namespace Sys2Proof.Claims

open Sys2Proof Machine

/-! ### An instruction that issues with nothing in its way -/

/-- The lanes that the predicate allows in an issue set (R51). -/
def allowedIn (i : Instr) (x : Warp) (c : Cur) : Mask := x.allowed (shape i).pr &&& c.set

/-- The instruction is legal for its group and mode, some lane is allowed, its rings are configured and deep enough, and a
cross-lane instruction has no parked lane at or below it (R55, R64, R131). -/
def legal (i : Instr) (c : Cur) (x : Warp) (g : Group) : Bool :=
  let n := (lanesOf (allowedIn i x c)).length
  i.wellFormed && limitsOk i g x.width && (!needsSup i || isSup c.w) && n != 0
    && !chanMisuse i g (shape i).scalar n
    && (!isCross i || (List.range x.width).all fun l =>
        !((x.inState .ld) ||| (x.inState .fe)).getLsbD l || c.pc.toNat < (x.vpc l).toNat)

/-- Nothing that R64, R19, R20, R21, R130, R131, R151, R256, R258 and R441 name stands in the way: the instruction is legal,
its registers are neither being loaded nor marked nor awaited from a queue, the queue it enters has room, its rings hold
what it needs, and no acquire is pending where it accesses a ring or a tile. -/
def clear (i : Instr) (s : State) (c : Cur) (x : Warp) (g : Group) : Bool :=
  let m := allowedIn i x c
  let n := (lanesOf m).length
  let regs := namedRegs i x.width
  legal i c x g
    && !(regs.any (queuedWrite x)) && !queueFull i x
    && (neverParks i || (lanesOf m).all fun l => (badOf x regs (raisesAll i) l).isNone && regs.all fun r => !inFlight s c.w r l)
    && (matArgs i != none || chanReady i g (shape i).scalar n)
    && (!((chanFields i).any fun f => f.2.1) || !openReq s c.w)
    && !(acquirePending s c.w && touchesGroup i)
    && !(matArgs i == none && chanPoison i g (shape i).scalar n)

/-- The instruction under issue, where nothing stands in its way: every lane that the predicate allows executes. -/
def issued (i : Instr) (s : State) : Option Issue :=
  match s.cur with
  | none => none
  | some c =>
    match s.warp? c.w, s.group? (gidOf c.w) with
    | some x, some g =>
      if clear i s c x g then
        some { cur := c, gid := gidOf c.w, set := c.set, allow := allowedIn i x c, exec := allowedIn i x c,
               scalar := (shape i).scalar, rep := x.rep.act, imm := (shape i).imm.getD 0 }
      else none
    | _, _ => none

/-- An instruction under issue of which the predicate allows no lane. -/
def idleIssue (i : Instr) (x : Warp) (c : Cur) : Issue :=
  { cur := c, gid := gidOf c.w, set := c.set, allow := allowedIn i x c, exec := 0, scalar := (shape i).scalar,
    rep := x.rep.act, imm := (shape i).imm.getD 0 }

/-- The state after an effect `t`: the issue set moves past the instruction and the warp holds nothing. -/
def passed (i : Instr) (x : Issue) (t : State) : State := finish i x 0 [] t [] [] 0

/-- The state after an effect `t` that has placed the vpc of the executing lanes itself. -/
def placed (i : Instr) (x : Issue) (m : Mask) (t : State) : State := finish i x 0 [] t [] [] m

/-! ### Lane by lane -/

/-- Sources A, B and C are taken in that order, `f` gives each executing lane its result and flags, the flags of all
lanes enter FSTAT, and D receives the results. -/
def lanewise (i : Instr) (f : DWord → DWord → DWord → DWord × Word) (x : Issue) (s : State) : State :=
  let v := gather3 s x (shape i)
  let rs := (v.1.zip (v.2.1.zip v.2.2.1)).map fun e => f e.1 e.2.1 e.2.2
  scatter (orFstat v.2.2.2 x.w (orAll (rs.map Prod.snd))) x (shape i).d (rs.map Prod.fst)

/-- The instruction completes with `f` applied in each executing lane. -/
def EachLane (i : Instr) (f : DWord → DWord → DWord → DWord × Word) : Prop :=
  ∀ s x, issued i s = some x → exec i s = .next (passed i x (lanewise i f x s))

/-- A 32-bit result of 32-bit sources that sets no flag. -/
def word3 (f : Word → Word → Word → Word) (a b c : DWord) : DWord × Word :=
  ((f (a.setWidth 32) (b.setWidth 32) (c.setWidth 32)).setWidth 64, 0)

/-- A predicate bit of 32-bit sources. -/
def bit3 (f : Word → Word → Word → Bool) (a b c : DWord) : DWord × Word :=
  (if f (a.setWidth 32) (b.setWidth 32) (c.setWidth 32) then 1 else 0, 0)

/-- An exact signed result clamped to [-2^31, 2^31-1]; SAT where it was outside (R83). -/
def clampS32 (v : Int) : DWord × Word :=
  if v > 2147483647 then (0x7FFFFFFF, 0x40) else if v < -2147483648 then (0x80000000, 0x40)
  else ((BitVec.ofInt 32 v).setWidth 64, 0)

/-- An exact result clamped to [0, 2^32-1]; SAT where it was outside (R83). -/
def clampN32 (v : Int) : DWord × Word :=
  if v > 4294967295 then (0xFFFFFFFF, 0x40) else if v < 0 then (0, 0x40) else ((BitVec.ofInt 32 v).setWidth 64, 0)

/-- The same at 64 bits (R92). -/
def clampS64 (v : Int) : DWord × Word :=
  if v > 9223372036854775807 then (0x7FFFFFFFFFFFFFFF, 0x40)
  else if v < -9223372036854775808 then (0x8000000000000000, 0x40) else (BitVec.ofInt 64 v, 0)

/-- The same at 64 bits, unsigned (R92). -/
def clampN64 (v : Int) : DWord × Word :=
  if v > 18446744073709551615 then (0xFFFFFFFFFFFFFFFF, 0x40) else if v < 0 then (0, 0x40) else (BitVec.ofInt 64 v, 0)

/-- A field specification: position, and width cut at bit 31 (R86). -/
def specPos (b : Word) : Nat := b.toNat % 256
def specWidth (b : Word) : Nat := min (b.toNat / 256 % 256) (32 - specPos b)

/-- bfe in shifts (R86). -/
def bfeSpec (sg : Bool) (a b : Word) : Word :=
  let p := specPos b
  let w := specWidth b
  if w = 0 then 0
  else if sg then (a <<< (32 - w - p)).sshiftRight (32 - w) else (a <<< (32 - w - p)) >>> (32 - w)

/-- bfi in a mask (R86). -/
def bfiSpec (a b c : Word) : Word :=
  let p := specPos c
  let w := specWidth c
  let m : Word := (BitVec.ofNat 32 (2 ^ w - 1)) <<< p
  (a &&& ~~~m) ||| ((b <<< p) &&& m)

/-- The comparison of icmp on words (R88). -/
def icmpSpec (sg : Bool) (cc : ICond) (a b : Word) : Bool :=
  match cc with
  | .eq => a == b
  | .ne => a != b
  | .lt => if sg then a.slt b else a.ult b
  | .le => if sg then a.sle b else a.ule b
  | .gt => if sg then b.slt a else b.ult a
  | .ge => if sg then b.sle a else b.ule a

/-- The low bits of a word copied upward or filled with zeros (R90). -/
def sextSpec (wd : ExtW) (a : DWord) : DWord :=
  match wd with
  | .b8 => (a.setWidth 8).signExtend 64
  | .b16 => (a.setWidth 16).signExtend 64
  | .b32 => (a.setWidth 32).signExtend 64

def zextSpec (wd : ExtW) (a : DWord) : DWord :=
  match wd with
  | .b8 => (a.setWidth 8).setWidth 64
  | .b16 => (a.setWidth 16).setWidth 64
  | .b32 => (a.setWidth 32).setWidth 64

/-! ### Queued forms (R130) -/

/-- A queued form: sources are taken and ring slots reserved, and the operation enters its queue. -/
def queued (sf : Bool) (i : Instr) (f : DWord → DWord → DWord → DWord → DWord × Word) (x : Issue) (s : State) : State :=
  let old := oldD s x (shape i)
  let v := gather3 s x (shape i)
  let rs := (old.zip (v.1.zip (v.2.1.zip v.2.2.1))).map fun e => f e.2.1 e.2.2.1 e.2.2.2 e.1
  let ds : List QDest × State := match (shape i).d with
    | none => ([], v.2.2.2)
    | some u =>
      match u.o with
      | .ch c _ => reserveAll v.2.2.2 x.gid c.val (rs.map Prod.fst)
      | o => ((x.act.zip (rs.map Prod.fst)).flatMap fun e => regDests o u.n e.1 e.2, v.2.2.2)
  postQueue ds.2 x.w sf ⟨ds.1, orAll (rs.map Prod.snd)⟩

/-- Operations that stand in a queue of a warp. -/
def queueLength (x : Warp) (sf : Bool) : Nat := if sf then x.sfq.length else x.cvq.length

/-- The instruction enters its queue, which then holds fewer than 8 operations; where it holds 8, the warp is held. -/
def Queued (sf : Bool) (i : Instr) (f : DWord → DWord → DWord → DWord → DWord × Word) : Prop :=
  (∀ s x, issued i s = some x → exec i s = .next (passed i x (queued sf i f x s)))
    ∧ ∀ (s : State) (c : Cur) (x : Warp) (g : Group), s.cur = some c → s.warp? c.w = some x → s.group? (gidOf c.w) = some g →
      legal i c x g = true → 8 ≤ queueLength x sf → exec i s = .next (holdAt s c.w .other c.set)

/-! ### Floating point -/

/-- Round of an exact sum of terms, with NV for a signalling operand (R104, R117). -/
def fpSum (F : Fmt) (rm : RMode) (terms : List (Ex × Bool)) (pats : List Nat) : Nat × Word :=
  ((roundSum F rm terms).1, (roundSum F rm terms).2 ||| snanFlag F pats)

/-- An element of an operand: its value, with no product error. -/
def term (F : Fmt) (x : Nat) : Ex × Bool := (F.value x, false)

/-! ### Cross-lane -/

/-- The values of a source in the participating lanes, and what is left of the state once a ring has given them. -/
def laneValues (i : Instr) (s : State) (x : Issue) : List (Nat × DWord) × State := laneVals s x (shape i).a

/-- The lane from which shfl reads, inside its segment of `g` lanes (R132). -/
def shflLane (mode : ShflMode) (g l b : Nat) : Option Nat :=
  let first := l / g * g
  match mode with
  | .idx => some (first + b % g)
  | .up => if b ≤ l % g then some (l - b) else none
  | .down => if l % g + b < g then some (l + b) else none
  | .xor => if ((l % g) ^^^ (b % g)) < g then some (first + ((l % g) ^^^ (b % g))) else none

/-! ### Shapes of completion -/

/-- No condition beyond those of `issued`. -/
def always : State → Issue → Prop := fun _ _ => True

/-- Under `ok` the instruction completes: it has the effect `eff`, and its lanes move past it. -/
def Completes (i : Instr) (ok : State → Issue → Prop) (eff : State → Issue → State) : Prop :=
  ∀ s x, issued i s = some x → ok s x → exec i s = .next (passed i x (eff s x))

/-- Under `ok` the instruction completes with the effect `eff`, which places the lanes of `m` itself. -/
def CompletesAt (i : Instr) (ok : State → Issue → Prop) (m : State → Issue → Mask) (eff : State → Issue → State) : Prop :=
  ∀ s x, issued i s = some x → ok s x → exec i s = .next (placed i x (m s x) (eff s x))

/-- Under `ok` the warp is held at the instruction and nothing else changes. -/
def Waits (i : Instr) (ok : State → Issue → Prop) (h : Hold) : Prop :=
  ∀ s x, issued i s = some x → ok s x → exec i s = .next (holdAt s x.w h x.set)

/-- A synchronous trap of the whole issue set: cause, address, code, breakpoint (R232, R233). -/
def wholeTrap (x : Issue) (cause : Nat) (addr : Addr) (code : Word) (brk : Bool) : Trap :=
  { cause := cause, addr := addr, code := code, lanes := x.set, async := false, inrep := x.rep, brk := brk, defl := none,
    data := [], addr0 := x.cur.pc, next := if x.cur.len3 then none else some x.cur.next, queued := false }

/-- Under `ok` the instruction takes a trap for its whole issue set. -/
def TrapsWhole (i : Instr) (ok : State → Issue → Prop) (t : State → Issue → Trap) : Prop :=
  ∀ s x, issued i s = some x → ok s x → exec i s = .next (takeTrap s x.w (t s x))

/-- Under `ok` some lanes fault: beside the effect `eff` the warp traps for those lanes, and the others move on (R149). -/
def Faults (i : Instr) (ok : State → Issue → Prop) (eff : State → Issue → State) (fs : State → Issue → List LFault) : Prop :=
  ∀ s x, issued i s = some x → ok s x → exec i s = .next (finish i x 0 [] (eff s x) (fs s x) [] 0)

/-! ### Steps of other units -/

/-- Under `ok` the step happens, with the effect `eff`. -/
def Happens (i : Instr) (ok : State → Prop) (eff : State → State) : Prop := ∀ s, ok s → exec i s = .next (eff s)

/-- A request stands in the table. -/
def asked (s : State) (k : Nat) (r : Req) : Prop := sFind? s.reqs k = some r

/-- Its home may serve a request, and it is of a kind. -/
def served (s : State) (k : Nat) (r : Req) (kind : ReqKind) : Prop := servable s k = some r ∧ r.kind = kind

/-- A mailbox command has been carried out: MBCMD holds its code, and MBSTAT says that it is done (R436). -/
def mailed (code : Nat) (f : State → State) (s : State) : State :=
  mbStat (f { s with host := { s.host with mbcmd := BitVec.ofNat 64 code } }) 2

/-- A mailbox command has been refused for an argument outside its range (R436). -/
def mailRefused (code : Nat) (s : State) : State :=
  mbStat { s with host := { s.host with mbcmd := BitVec.ofNat 64 code } } 0x80000002

/-! ### Control -/

/-- Lanes go to their targets, after a link where there is one; a backward transfer counts for spin rotation (R22,
R70, R73). -/
def jumped (s : State) (x : Issue) (link : Option Operand) (ts : List (Nat × Addr)) : State :=
  s.modWarp x.w fun w =>
    let w := ts.foldl (fun w e =>
      (match link with | some d => putLane w d 2 e.1 x.cur.next | none => w).setVpc ((1 : Mask) <<< e.1) e.2) w
    match ts.filter fun e => e.2.toNat ≤ x.cur.pc.toNat with
    | [] => w
    | e :: es =>
      countBack w (es.foldl (fun (m : Addr) f => if f.2.toNat < m.toNat then f.2 else m) e.2)
        (maskOf ((e :: es).map Prod.fst))

/-- A target that a transfer can take: a multiple of 4, and a legal address (R70). -/
def goodTarget (t : Addr) : Prop := t.toNat % 4 = 0 ∧ legalVa t = true

/-- The target of a displacement (R72). -/
def relTarget (x : Issue) (disp : Word) : Addr := x.cur.pc + disp.signExtend 64

/-- Every executing lane with one target. -/
def allTo (x : Issue) (t : Addr) : List (Nat × Addr) := (lanesOf x.exec).map fun l => (l, t)

/-! ### System -/

/-- A 32-bit scalar source as a number, and a 64-bit one. -/
def src32 (s : State) (x : Issue) (o : Operand) : Nat := (scalarOf s x (some ⟨o, 1, true⟩)).toNat % 2 ^ 32
def src64 (s : State) (x : Issue) (o : Operand) : DWord := scalarOf s x (some ⟨o, 2, true⟩)

/-- A status enters D once (R227). -/
def withStatus (s : State) (x : Issue) (d : Operand) (v : Nat) : State :=
  scatter s { x with scalar := true } (some ⟨d, 1, true⟩) [BitVec.ofNat 64 v]

/-- The warp of the issue is there. -/
def here (s : State) (x : Issue) (w : Warp) : Prop := s.warp? x.w = some w

/-! ### Memory -/

/-- Every lane of a global access may act, at the places `gs`, and judging it leaves the state `t` (R149, R343). -/
def judged (s : State) (x : Issue) (k : AccKind) (n : Nat) (cas : Bool) (post : Nat → Option Nat) (vas : List (Nat × Addr))
    (gs : List Good) (t : State) : Prop :=
  judge s x.w k n cas post vas = (⟨gs, [], [], false⟩, t)

/-- Every lane of a scratchpad access lies in the window of group `h`, at the places `gs`, and that window has not failed
(R152, R153, R359). -/
def inWindow (s : State) (x : Issue) (m : MemExt) (h : GroupId) (n : Nat) (os : List (Nat × Nat)) (gs : List Good) : Prop :=
  windowOf s x.gid m.pv m.peer.toNat = some h ∧ windowDead s x.gid h = false
    ∧ judgePad s (some h) n os = ⟨gs, [], [], false⟩

/-- Memory instructions of the warp are not held back: no acquire is pending and no flush-by-tag (R258, R363). -/
def goes (s : State) (x : Issue) (global : Bool) : Prop := heldBack s x.w global = false

/-- The lanes' data with their places, in lane order. -/
def withData (x : Issue) (gs : List Good) (ds : List (List Byte)) : List (Good × List Byte) :=
  (x.act.zip ds).filterMap fun e => (gs.find? fun g => g.lane == e.1).map fun g => (g, e.2)

/-- A warp that releases at the scope of a store, where its order says so (R257). -/
def released (s : State) (x : Issue) (m : MemExt) : State := if m.ord = .rel then releaseAt s x.w m.scp else s

/-- The same for a scratchpad store, whose scope on the window of a peer is cl (R153). -/
def padReleased (s : State) (x : Issue) (m : MemExt) : State := if m.ord = .rel then releaseAt s x.w (padScope m) else s

/-- The write-back of addresses by ldu and stu (R142). -/
def addressed (upd : Bool) (a : Operand) (m : MemExt) (x : Issue) (gs : List Good) (s : State) : State :=
  if upd then s.modWarp x.w fun w => gs.foldl (fun w g => putLane w a 2 g.lane (g.va + m.off.signExtend 64)) w else s

/-! ### Words at their homes (R315) -/

/-- A word of the package's HBM that no region watches and that no proxy of another package owns. -/
def plainWord (s : State) (w : Nat) : Prop :=
  spaceOf s (4 * w) = .hbm ∧ watched s w = false ∧ ∀ c, (s.dir w).owner = some c → c < 2048

/-- The sharers of a word, its owner among them, as a recall to clean leaves them. -/
def sharing (s : State) (w : Nat) : List CuId :=
  match (s.dir w).owner with
  | some c => if (s.dir w).sharers.contains c then (s.dir w).sharers else (s.dir w).sharers ++ [c]
  | none => (s.dir w).sharers

/-- The owner's dirty bytes of a word have reached its home; the word's other bytes are there as they were. -/
def writtenBack (s t : State) (w : Nat) : Prop :=
  ∀ i < 4, homeByte t (4 * w + i) =
    match (s.dir w).owner.bind fun c => s.l1 c w with
    | some y => if y.dirty.getLsbD i then byteOf y.data.toNat i else homeByte s (4 * w + i)
    | none => homeByte s (4 * w + i)

/-- An L1 has a clean copy of a word, with the home's value. -/
def granted (t : State) (c : CuId) (w : Nat) (st : L1St) : Prop :=
  ∃ x, t.l1 c w = some x ∧ x.st = st ∧ x.sm = false ∧ x.dirty = 0 ∧ ∀ i < 4, byteOf x.data.toNat i = homeByte t (4 * w + i)

/-- The owner of a word keeps a clean copy of it. -/
def ownerClean (s t : State) (w : Nat) : Prop :=
  ∀ c y, (s.dir w).owner = some c → s.l1 c w = some y → ∃ z, t.l1 c w = some z ∧ z.st = .wt ∧ z.dirty = 0 ∧ z.data = y.data

/-- No CU but `c` has a copy of a word that its home knows of. -/
def othersGone (s t : State) (w : Nat) (c : Option CuId) : Prop :=
  ∀ e, some e ≠ c → ((s.dir w).owner = some e ∨ e ∈ sharersOf s w) → t.l1 e w = none

/-- The copies of a word in CUs that do not own it, but for `c`, are as they were. -/
def othersKept (s t : State) (w : Nat) (c : CuId) : Prop :=
  ∀ e, e ≠ c → (s.dir w).owner ≠ some e → t.l1 e w = s.l1 e w

/-! ### Frames -/

/-- The forms that give each executing lane a result of its own at once: integer and logic, and floating point that
uses no queue. -/
def laneWise : Instr → Bool
  | .iadd .. | .isub .. | .imul .. | .imulh .. | .imad .. | .iabs .. | .imin .. | .imax .. | .and .. | .or .. | .xor ..
  | .andn .. | .shl .. | .shr .. | .sar .. | .rot .. | .popc .. | .clz .. | .brev .. | .bfe .. | .bfi .. | .sel .. | .mov ..
  | .icmp .. | .plog .. | .sext .. | .zext .. | .lea .. | .add64 .. | .sub64 .. | .mul64 .. => true
  | .fadd .. | .fsub .. | .fmul .. | .ffma .. | .fmin .. | .fmax .. | .fcmp .. | .fclass .. | .frnd .. | .fdot2 .. | .dadd ..
  | .dmul .. | .dfma .. | .dcmp .. | .dmin .. | .dmax .. => true
  | _ => false

/-- The flags of FSTAT that such a form may set: SAT where it saturates (R81, R83), NV, OF, UF and NX where it rounds
(R102, R117), NX only with .exact for frnd (R121), NV alone for minimum, maximum and comparison (R118, R119). -/
def flagsOf : Instr → Word
  | .iadd _ m _ _ _ | .isub _ m _ _ _ | .imul _ m _ _ _ | .imad _ m _ _ _ _ | .iabs _ m _ _ | .add64 _ m _ _ _
  | .sub64 _ m _ _ _ | .mul64 _ (.full m) _ _ _ => if m = .wrap then 0 else 0x40
  | .fadd .. | .fsub .. | .fmul .. | .ffma .. | .fdot2 .. | .dadd .. | .dmul .. | .dfma .. => 0x1D
  | .frnd _ x _ _ _ _ => if x then 0x11 else 0x01
  | .fmin .. | .fmax .. | .fcmp .. | .dcmp .. | .dmin .. | .dmax .. => 0x01
  | _ => 0

/-- The register with NUM `n` belongs to the destination (R46, R48). -/
def writesReg (i : Instr) (n : Nat) : Bool :=
  match (shape i).d with
  | some u => match regNum u.o with
    | some b => b ≤ n && n < b + u.n
    | none => false
  | none => false

/-- The destination is the predicate register `n`. -/
def writesPred (i : Instr) (n : Nat) : Bool :=
  match (shape i).d with
  | some ⟨.p k, _, _⟩ => k.val == n
  | _ => false

/-- Two warps that differ in nothing but registers, flags, vpcs, a repeat under way, and what an issue ends: its hold, but for a
wait in idle, and its count in an excursion. -/
def sameButRegs (y z : Warp) : Prop :=
  z = { y with lanes := z.lanes, vr := z.vr, sr := z.sr, pr := z.pr, fstat := z.fstat, rep := z.rep, excCount := z.excCount,
               hold := y.hold.trapped, heldSet := 0, latchA := z.latchA }
    ∧ z.lanes.map (fun l => (l.st, l.wait)) = y.lanes.map fun l => (l.st, l.wait)

/-- The bytes of a commit leave an address alone. -/
def spares (bs : List (Nat × Byte)) (a : Nat) : Prop := ∀ e ∈ bs, e.1 ≠ a

end Sys2Proof.Claims
end

