-- ==== Sys2Proof/Certificates/Slice0/Obligations.lean ====
section
/-! DEFINITION. The statements about this model. -/

open Sys2Proof Sys2Proof.Machine Sys2Proof.Claims

/-! ### Integer and logic -/

/-- iadd, isub, imul, imad, iabs, imulh, imin, imax, add64, sub64 and mul64 (R83, R84, R92): wrapped, or clamped with SAT, in each
executing lane. -/
def Obligations.IntegerArithmetic : Prop :=
  (∀ (h : Hdr) (d a b c : Operand),
      EachLane (.iadd h .wrap d a b) (word3 fun x y _ => x + y)
      ∧ EachLane (.iadd h .sats d a b) (fun x y _ => clampS32 ((x.setWidth 32).toInt + (y.setWidth 32).toInt))
      ∧ EachLane (.iadd h .satn d a b) (fun x y _ => clampN32 ((x.setWidth 32).toNat + (y.setWidth 32).toNat))
      ∧ EachLane (.isub h .wrap d a b) (word3 fun x y _ => x - y)
      ∧ EachLane (.isub h .sats d a b) (fun x y _ => clampS32 ((x.setWidth 32).toInt - (y.setWidth 32).toInt))
      ∧ EachLane (.isub h .satn d a b) (fun x y _ => clampN32 ((x.setWidth 32).toNat - (y.setWidth 32).toNat))
      ∧ EachLane (.imul h .wrap d a b) (word3 fun x y _ => x * y)
      ∧ EachLane (.imul h .sats d a b) (fun x y _ => clampS32 ((x.setWidth 32).toInt * (y.setWidth 32).toInt))
      ∧ EachLane (.imul h .satn d a b) (fun x y _ => clampN32 ((x.setWidth 32).toNat * (y.setWidth 32).toNat))
      ∧ EachLane (.imad h .wrap d a b c) (word3 fun x y z => x * y + z)
      ∧ EachLane (.imad h .sats d a b c)
          (fun x y z => clampS32 ((x.setWidth 32).toInt * (y.setWidth 32).toInt + (z.setWidth 32).toInt))
      ∧ EachLane (.imad h .satn d a b c)
          (fun x y z => clampN32 ((x.setWidth 32).toNat * (y.setWidth 32).toNat + (z.setWidth 32).toNat))
      ∧ EachLane (.iabs h .wrap d a) (word3 fun x _ _ => if x.slt 0 then -x else x)
      ∧ EachLane (.iabs h .sats d a) (fun x _ _ => clampS32 (x.setWidth 32).toInt.natAbs))
  ∧ (∀ (h : Hdr) (d a b : Operand),
      EachLane (.imulh h true d a b)
        (word3 fun x y _ => (x.signExtend 64 * y.signExtend 64).extractLsb' 32 32)
      ∧ EachLane (.imulh h false d a b) (word3 fun x y _ => (x.setWidth 64 * y.setWidth 64).extractLsb' 32 32)
      ∧ EachLane (.imin h true d a b) (word3 fun x y _ => if x.sle y then x else y)
      ∧ EachLane (.imin h false d a b) (word3 fun x y _ => if x.ule y then x else y)
      ∧ EachLane (.imax h true d a b) (word3 fun x y _ => if y.sle x then x else y)
      ∧ EachLane (.imax h false d a b) (word3 fun x y _ => if y.ule x then x else y))
  ∧ (∀ (h : Hdr) (d a b : Operand),
      EachLane (.add64 h .wrap d a b) (fun x y _ => (x + y, 0))
      ∧ EachLane (.add64 h .sats d a b) (fun x y _ => clampS64 (x.toInt + y.toInt))
      ∧ EachLane (.add64 h .satn d a b) (fun x y _ => clampN64 (x.toNat + y.toNat))
      ∧ EachLane (.sub64 h .wrap d a b) (fun x y _ => (x - y, 0))
      ∧ EachLane (.sub64 h .sats d a b) (fun x y _ => clampS64 (x.toInt - y.toInt))
      ∧ EachLane (.sub64 h .satn d a b) (fun x y _ => clampN64 (x.toNat - y.toNat))
      ∧ EachLane (.mul64 h (.full .wrap) d a b) (fun x y _ => (x * y, 0))
      ∧ EachLane (.mul64 h (.full .sats) d a b) (fun x y _ => clampS64 (x.toInt * y.toInt))
      ∧ EachLane (.mul64 h (.full .satn) d a b) (fun x y _ => clampN64 (x.toNat * y.toNat))
      ∧ EachLane (.mul64 h .wideN d a b) (fun x y _ => ((x.setWidth 32).setWidth 64 * (y.setWidth 32).setWidth 64, 0))
      ∧ EachLane (.mul64 h .wideS d a b)
          (fun x y _ => ((x.setWidth 32).signExtend 64 * (y.setWidth 32).signExtend 64, 0)))

/-- and, or, xor, andn, shl, shr, sar, rot, popc, clz and brev (R85): a shift by 32 or more gives 0, or 32 copies of the
sign. -/
def Obligations.LogicShiftsCounts : Prop :=
  ∀ (h : Hdr) (d a b : Operand),
    EachLane (.and h d a b) (word3 fun x y _ => x &&& y)
    ∧ EachLane (.or h d a b) (word3 fun x y _ => x ||| y)
    ∧ EachLane (.xor h d a b) (word3 fun x y _ => x ^^^ y)
    ∧ EachLane (.andn h d a b) (word3 fun x y _ => x &&& ~~~y)
    ∧ EachLane (.shl h d a b) (word3 fun x y _ => x <<< y.toNat)
    ∧ EachLane (.shr h d a b) (word3 fun x y _ => x >>> y.toNat)
    ∧ EachLane (.sar h d a b) (word3 fun x y _ => x.sshiftRight y.toNat)
    ∧ EachLane (.rot h d a b) (word3 fun x y _ => x <<< (y.toNat % 32) ||| x >>> (32 - y.toNat % 32))
    ∧ EachLane (.popc h d a)
        (word3 fun x _ _ => BitVec.ofNat 32 ((List.range 32).map fun i => (x.getLsbD i).toNat).sum)
    ∧ EachLane (.clz h d a) (word3 fun x _ _ => if x = 0 then 32 else BitVec.ofNat 32 (31 - x.toNat.log2))
    ∧ EachLane (.brev h d a) (word3 fun x _ _ => x.reverse)

/-- bfe, bfi, sel, mov, icmp, plog, sext, zext and lea (R86 to R91). -/
def Obligations.FieldsSelectCompareExtend : Prop :=
  ∀ (h : Hdr) (d a b c : Operand),
    (∀ sg, EachLane (.bfe h sg d a b) (word3 fun x y _ => bfeSpec sg x y))
    ∧ EachLane (.bfi h d a b c) (word3 bfiSpec)
    ∧ EachLane (.sel h d a b c) (word3 fun x y z => if z = 0 then y else x)
    ∧ EachLane (.mov h d a) (word3 fun x _ _ => x)
    ∧ (∀ sg cc, EachLane (.icmp h sg cc d a b) (bit3 fun x y _ => icmpSpec sg cc x y))
    ∧ (∀ tt, EachLane (.plog h tt d a b) (bit3 fun x y _ => tt.getLsbD (2 * x.toNat + y.toNat)))
    ∧ (∀ w wd, EachLane (.sext h w wd d a) (fun x _ _ => (sextSpec wd x, 0)))
    ∧ (∀ w wd, EachLane (.zext h w wd d a) (fun x _ _ => (zextSpec wd x, 0)))
    ∧ (∀ sh, EachLane (.lea h true sh d a b) (fun x y _ => (x + ((y.setWidth 32).signExtend 64) <<< sh.val, 0)))
    ∧ (∀ sh, EachLane (.lea h false sh d a b) (fun x y _ => (x + ((y.setWidth 32).setWidth 64) <<< sh.val, 0)))

/-! ### Floating point, conversions, special functions -/

/-- fadd, fsub, fmul, ffma, fmin, fmax, fcmp, fclass, frnd and fdot2, and dadd, dmul, dfma, dcmp, dmin and dmax (R113, R114, R117
to R123): each element is rounded once from the exact result. -/
def Obligations.FloatArithmetic : Prop :=
  (∀ (h : Hdr) (sm : SMod) (ty : FTy) (rm : RMode) (d a b c : Operand),
      let F := tyFmt ty
      let m := signMod F sm
      EachLane (.fadd h sm ty rm d a b) (packed ty fun x y _ => fpSum F rm [term F (m x), term F y] [m x, y])
      ∧ EachLane (.fsub h sm ty rm d a b)
          (packed ty fun x y _ => fpSum F rm [term F (m x), ((F.value y).negate, false)] [m x, y])
      ∧ EachLane (.fmul h sm ty rm d a b)
          (packed ty fun x y _ => fpSum F rm [Ex.mul (F.value (m x)) (F.value y)] [m x, y])
      ∧ EachLane (.ffma h sm ty rm d a b c)
          (packed ty fun x y z => fpSum F rm [Ex.mul (F.value (m x)) (F.value y), term F z] [m x, y, z])
      ∧ (∀ nanp, EachLane (.fmin h sm ty nanp d a b) (packed ty fun x y _ => fMinMax F false nanp (m x) y))
      ∧ (∀ nanp, EachLane (.fmax h sm ty nanp d a b) (packed ty fun x y _ => fMinMax F true nanp (m x) y))
      ∧ (∀ cc, EachLane (.fcmp h false ty cc d a b) (fun x y _ =>
          let r := if ty = .f32 then fCmp F cc (bits x 31 0) (bits y 31 0) else fCmp F cc (bits x 15 0) (bits y 15 0)
          (if r.1 then 1 else 0, r.2)))
      ∧ (∀ cc, ty ≠ .f32 → EachLane (.fcmp h true ty cc d a b) (fun x y _ =>
          (if (fCmp F cc (bits x 31 16) (bits y 31 16)).1 then 1 else 0, (fCmp F cc (bits x 31 16) (bits y 31 16)).2)))
      ∧ EachLane (.fclass h (some ty) d a) (fun x _ _ => packed ty (fun e _ _ => (fClass F e, 0)) x 0 0)
      ∧ EachLane (.fclass h none d a) (fun x _ _ => (BitVec.ofNat 64 (fClass FP64 x.toNat), 0))
      ∧ (∀ ex, EachLane (.frnd h ex ty rm d a) (packed ty fun e _ _ => fRnd F rm ex e))
      ∧ EachLane (.fdot2 h sm ty rm d a b c) (fun x y z =>
          let r := roundSum FP32 rm [Ex.mul (F.value (m (bits x 15 0))) (F.value (bits y 15 0)),
            Ex.mul (F.value (m (bits x 31 16))) (F.value (bits y 31 16)), term FP32 (bits z 31 0)]
          (BitVec.ofNat 64 r.1, r.2 ||| snanFlag F [m (bits x 15 0), m (bits x 31 16), bits y 15 0, bits y 31 16]
            ||| snanFlag FP32 [bits z 31 0])))
  ∧ (∀ (h : Hdr) (sm : SMod) (rm : RMode) (d a b c : Operand),
      let m := signMod FP64 sm
      EachLane (.dadd h sm rm d a b) (dbl fun x y _ => fpSum FP64 rm [term FP64 (m x), term FP64 y] [m x, y])
      ∧ EachLane (.dmul h sm rm d a b) (dbl fun x y _ => fpSum FP64 rm [Ex.mul (FP64.value (m x)) (FP64.value y)] [m x, y])
      ∧ EachLane (.dfma h sm rm d a b c)
          (dbl fun x y z => fpSum FP64 rm [Ex.mul (FP64.value (m x)) (FP64.value y), term FP64 z] [m x, y, z])
      ∧ (∀ cc, EachLane (.dcmp h cc d a b)
          (fun x y _ => (if (fCmp FP64 cc x.toNat y.toNat).1 then 1 else 0, (fCmp FP64 cc x.toNat y.toNat).2)))
      ∧ (∀ nanp, EachLane (.dmin h sm nanp d a b) (dbl fun x y _ => fMinMax FP64 false nanp (m x) y))
      ∧ (∀ nanp, EachLane (.dmax h sm nanp d a b) (dbl fun x y _ => fMinMax FP64 true nanp (m x) y)))

/-- cvt, pack, unpack, qpack and qunpack enter the conversion queue, rcp, rsqrt, sqrt, exp2, log2, sin, cos and tanh the
special-function queue (R124 to R130). -/
def Obligations.QueuedInstructions : Prop :=
  (∀ (h : Hdr) (rm : RMode) (d a b c : Operand),
      (∀ cv, Queued false (.cvt h cv rm d a) (fun x _ _ _ => cvtElem cv rm x))
      ∧ (∀ f sat, Queued false (.pack h f sat rm d a b) (fun x y _ old =>
          (packInto f.width (packElem f sat rm x).1 (packElem f sat rm y).1 old,
            (packElem f sat rm x).2 ||| (packElem f sat rm y).2)))
      ∧ (∀ f idx, Queued false (.unpack h f idx d a) (fun x _ _ _ => unpackElem f idx.val x))
      ∧ (∀ n4 : Bool, Queued false (.qpack h n4 rm d a b c) (fun x y z old =>
          let w := if n4 then 4 else 8
          (packInto w (qpackCode w rm x z).1 (qpackCode w rm y z).1 old, (qpackCode w rm x z).2 ||| (qpackCode w rm y z).2)))
      ∧ (∀ (n4 : Bool) idx, Queued false (.qunpack h n4 idx d a c) (fun x _ z _ =>
          qunpackElem (if n4 then 4 else 8) idx.val x z)))
  ∧ (∀ (h : Hdr) (ty : FTy) (d a : Operand),
      let sf (f : SfFun) (rm : RMode) : DWord → DWord → DWord → DWord → DWord × Word :=
        fun x _ _ _ => packed ty (fun e _ _ => sfElem f (tyFmt ty) rm e) x 0 0
      Queued true (.rcp h ty d a) (sf .rcp .rne) ∧ Queued true (.rsqrt h ty d a) (sf .rsqrt .rne)
      ∧ (∀ rm, Queued true (.sqrt h ty rm d a) (sf .sqrt rm))
      ∧ Queued true (.exp2 h ty d a) (sf .exp2 .rne) ∧ Queued true (.log2 h ty d a) (sf .log2 .rne)
      ∧ Queued true (.sin h ty d a) (sf .sin .rne) ∧ Queued true (.cos h ty d a) (sf .cos .rne)
      ∧ Queued true (.tanh h ty d a) (sf .tanh .rne))

/-! ### Cross-lane -/

/-- shfl, vote, bcast, redux and scan (R132 to R136). -/
def Obligations.CrossLane : Prop :=
  ∀ (h : Hdr) (d a b : Operand) (s : State) (x : Issue),
    (∀ seg mode w, issued (.shfl h seg mode d a b) s = some x → s.warp? x.w = some w →
      exec (.shfl h seg mode d a b) s = .next (passed (.shfl h seg mode d a b) x
        (let i := Instr.shfl h seg mode d a b
         let as := laneValues i s x
         let bs := laneVals as.2 x (shape i).b
         putLanes bs.2 x (shape i).d ((as.1.zip bs.1).map fun e =>
           match (shflLane mode (segSize seg w.width) e.1.1 (e.2.2.toNat % 2 ^ 32)).bind fun j =>
             as.1.find? fun q => q.1 == j with
           | some q => q.2
           | none => e.1.2))))
    ∧ (∀ vm, issued (.vote h vm d a) s = some x →
      exec (.vote h vm d a) s = .next (passed (.vote h vm d a) x
        (let i := Instr.vote h vm d a
         let as := laneValues i s x
         putAll as.2 x (shape i).d (match vm with
           | .any => if as.1.any fun e => e.2 != 0 then 1 else 0
           | .all => if as.1.all fun e => e.2 != 0 then 1 else 0
           | .ballot => maskOf ((as.1.filter fun e => e.2 != 0).map Prod.fst)
           | .eq => if (as.1.all fun e => e.2 != 0) || (as.1.all fun e => e.2 == 0) then 1 else 0))))
    ∧ (∀ o, issued (.bcast h d a o) s = some x →
      exec (.bcast h d a o) s = .next (passed (.bcast h d a o) x
        (let i := Instr.bcast h d a o
         let as := laneValues i s x
         let first := match as.1 with | [] => (0 : DWord) | e :: _ => e.2
         putAll as.2 x (shape i).d (match o with
           | none => first
           | some _ => match as.1.find? fun e => e.1 == (scalarOf as.2 x (shape i).b).toNat with
             | some e => e.2
             | none => first))))
    ∧ (∀ rm o, issued (.redux h rm o d a) s = some x →
      exec (.redux h rm o d a) s = .next (passed (.redux h rm o d a) x
        (let i := Instr.redux h rm o d a
         let as := laneValues i s x
         let r := reduxOf o rm (as.1.map Prod.snd)
         putAll (orFstat as.2 x.w r.2) x (shape i).d r.1)))
    ∧ (∀ excl o, issued (.scan h excl o d a) s = some x →
      exec (.scan h excl o d a) s = .next (passed (.scan h excl o d a) x
        (let i := Instr.scan h excl o d a
         let as := laneValues i s x
         let rs := as.1.map fun e =>
           match as.1.filter fun q => if excl then q.1 < e.1 else q.1 ≤ e.1 with
           | [] => (reduxId o, (0 : Word))
           | qs => reduxOf o .rne (qs.map Prod.snd)
         putLanes (orFstat as.2 x.w (orAll (rs.map Prod.snd))) x (shape i).d (rs.map Prod.fst))))

/-! ### Control -/

/-- bra, brx, call and ret (R70, R72 to R74): where every target is a multiple of 4 and legal, every executing lane goes to its own;
call writes the address past it first. brx whose lanes all have targets that are not multiples of 4 faults them with cause 0x04,
and bra to an address that is not legal faults its lanes with 0x10, at the target. -/
def Obligations.Transfers : Prop :=
  (∀ (p : Pr) (d a : Operand) (disp : Word),
      CompletesAt (.bra p disp) (fun _ x => goodTarget (relTarget x disp)) (fun _ x => x.exec)
        (fun s x => jumped s x none (allTo x (relTarget x disp)))
      ∧ CompletesAt (.call p false d a disp) (fun _ x => goodTarget (relTarget x disp)) (fun _ x => x.exec)
        (fun s x => jumped s x (some d) (allTo x (relTarget x disp)))
      ∧ (∀ w : Warp, CompletesAt (.brx p a)
          (fun s x => here s x w ∧ ∀ l ∈ lanesOf x.exec, goodTarget (srcLane s x w a 2 l)) (fun _ x => x.exec)
          (fun s x => jumped s x none ((lanesOf x.exec).map fun l => (l, srcLane s x w a 2 l))))
      ∧ (∀ w : Warp, CompletesAt (.ret p a)
          (fun s x => here s x w ∧ ∀ l ∈ lanesOf x.exec, goodTarget (srcLane s x w a 2 l)) (fun _ x => x.exec)
          (fun s x => jumped s x none ((lanesOf x.exec).map fun l => (l, srcLane s x w a 2 l))))
      ∧ (∀ w : Warp, CompletesAt (.call p true d a 0)
          (fun s x => here s x w ∧ ∀ l ∈ lanesOf x.exec, goodTarget (srcLane s x w a 2 l)) (fun _ x => x.exec)
          (fun s x => jumped s x (some d) ((lanesOf x.exec).map fun l => (l, srcLane s x w a 2 l)))))
  ∧ (∀ (p : Pr) (a : Operand) (disp : Word),
      (∀ w : Warp, Faults (.brx p a)
        (fun s x => here s x w ∧ ∀ l ∈ lanesOf x.exec, (srcLane s x w a 2 l).toNat % 4 ≠ 0) (fun s x => jumped s x none [])
        (fun s x => (lanesOf x.exec).map fun l => ⟨l, 0x04, srcLane s x w a 2 l, none⟩))
      ∧ Faults (.bra p disp) (fun _ x => (relTarget x disp).toNat % 4 = 0 ∧ legalVa (relTarget x disp) = false)
        (fun s x => jumped s x none [])
        (fun _ x => (lanesOf x.exec).map fun l => ⟨l, 0x10, relTarget x disp, none⟩))

/-- nop moves past itself; exit makes its lanes exited, and a handler warp that ends so gives up its trap (R71, R75, R358).
rpt begins a repeat of the instruction behind it in its fetch block where the whole repeat is legal, and traps with 0x01 where it is
not, or where that instruction lies in another block, or its bytes are no instruction (R59, R76). yield moves its warp to the end of
the rotation, which then does not issue for the next 8 fc while another can (R79). idle moves past itself; with an event posted it
clears the latch, and without one the warp waits past it (R80). -/
def Obligations.ControlRest : Prop :=
  ∀ (h : Hdr) (p : Pr) (cnt : Fin 64) (sd sa sb sc : BitVec 2),
    Completes (.nop h) always (fun s _ => s)
    ∧ CompletesAt (.exit p) always (fun _ x => x.exec) (fun s x => handlerEnds (exitLanes s x.w x.exec x.cur.pc) x.w)
    ∧ (∀ (w : Warp) (g : Group) (bs : List Byte) (r : Raw) (t : State), CompletesAt (.rpt cnt sd sa sb sc)
        (fun s x => here s x w ∧ s.group? x.gid = some g ∧ fetchAt s x.w x.cur.next = (.bytes bs, t)
          ∧ Raw.read bs = .ok r ∧ x.cur.next.toNat / 32 = x.cur.pc.toNat / 32
          ∧ repeatOk r cnt.val sd sa sb sc g w.width = true)
        (fun _ x => x.set)
        (fun _ x => t.modWarp x.w fun w => { w with rep := ⟨true, cnt.val, 0, x.set, none⟩ }))
    ∧ (∀ (w : Warp) (g : Group) (bs : List Byte) (r : Raw) (t : State), ∀ s x, issued (.rpt cnt sd sa sb sc) s = some x →
        here s x w → s.group? x.gid = some g → fetchAt s x.w x.cur.next = (.bytes bs, t) → Raw.read bs = .ok r →
        repeatOk r cnt.val sd sa sb sc g w.width = false →
        exec (.rpt cnt sd sa sb sc) s = .next (takeTrap s x.w (wholeTrap x 0x01 x.cur.pc 0 false)))
    ∧ (∀ (w : Warp) (g : Group) (bs : List Byte) (t : State), ∀ s x, issued (.rpt cnt sd sa sb sc) s = some x →
        here s x w → s.group? x.gid = some g → fetchAt s x.w x.cur.next = (.bytes bs, t) →
        (x.cur.next.toNat / 32 ≠ x.cur.pc.toNat / 32 ∨ ∀ r, Raw.read bs ≠ .ok r) →
        exec (.rpt cnt sd sa sb sc) s = .next (takeTrap s x.w (wholeTrap x 0x01 x.cur.pc 0 false)))
    ∧ Completes (.yield p) always (fun s x =>
        { s with order := (s.order.filter fun w => w != x.w) ++ [x.w] }.modWarp x.w fun w =>
          { w with noIssueUntil := s.fc + 9 })
    ∧ (∀ w : Warp, Completes (.idle p) (fun s x => here s x w ∧ w.latch = true)
        (fun s x => s.setWarp x.w { w with latch := false }))
    ∧ (∀ w : Warp, Completes (.idle p) (fun s x => here s x w ∧ w.latch = false)
        (fun s x => s.setWarp x.w { w with hold := .idle }))

/-! ### System -/

/-- trap and brk (R233): the whole issue set traps with cause 0x40 at the instruction. -/
def Obligations.TrapAndBreak : Prop :=
  ∀ (h : Hdr) (p : Pr) (a : Operand),
    TrapsWhole (.trap h a) always (fun s x => wholeTrap x 0x40 x.cur.pc (BitVec.ofNat 32 (src32 s x a)) false)
    ∧ TrapsWhole (.brk p) always (fun _ x => wholeTrap x 0x40 x.cur.pc 0 true)

/-- Taking a trap outside the curators (R228, R229, R232): the warp halts with the record, FLM takes the lanes, what it was held
for ends but for idle, which it resumes, and nothing else of the state changes. -/
def Obligations.TakingATrap : Prop :=
  ∀ (s : State) (w : WarpId) (t : Trap), isSup w = false →
    takeTrap s w t = s.modWarp w fun x =>
      { x with halt := some t, flm := t.lanes, hold := if x.hold = .idle then .idle else .none, heldSet := 0, farRead := [] }

/-- A fault of a supervisor warp (R231): the violation log has an entry of kind 8 with its cause and address, SVCREQ has SFLT
and SR, and the warp is gone, so that its place is free for another handler (the model's reading: log 22). -/
def Obligations.SupervisorFault : Prop :=
  ∀ (s : State) (w : WarpId) (x : Warp) (t : Trap), isSup w = true → s.warp? w = some x → s.sup.vlog.length < 4096 →
    let r := takeTrap s w t
    r.sup.vput = s.sup.vput + 1
    ∧ (r.sup.vlog.getLast?).map (fun v => (v.kind, v.cause, v.addr)) = some (8, t.cause, t.addr.toNat)
    ∧ r.sup.svcreq.getLsbD 2 = true ∧ r.sup.svcreq.getLsbD 31 = true
    ∧ r.warp? w = none

/-- eret in its four modes, where a trap is bound, the handler's work is complete and its release may end (R234 to R236): what
the handler wrote is released, the handler warp is gone, and the trapped warp goes on with its record, in which the address past
the faulted instruction has been found where lanes pass it; with .abort its partition begins to halt. Before that work is complete
the warp waits. A mode that the trap does not admit is an illegal encoding: .skip of an asynchronous kind of trap, of cause 0x03,
or of bytes that have no length; .fill of a trap that is no deferred error. -/
def Obligations.TrapReturn : Prop :=
  (∀ (p : Pr) (w : WarpId) (y z : Warp) (t v : Trap) (u : State),
      let done : State → Issue → Prop := fun s x => boundTrap s x.w = some (w, y, t) ∧ handlerDone s x.w = true
      let ready : EretMode → State → Issue → Prop := fun m s x =>
        done s x ∧ releaseReady s x.w .pkg = true ∧ pastTrap (dropSi s (cuOf (gidOf w))) w y m t = (some v, u)
          ∧ (endHandler (releaseAt u x.w .pkg) x.w).warp? w = some z
      let gone : Issue → State := fun x => endHandler (releaseAt u x.w .pkg) x.w
      let skips : Prop := t.asyncKind = false ∧ t.cause ≠ 0x03 ∧ (t.cause ≠ 0x01 ∨ t.next.isSome)
      CompletesAt (.eretReplay p) (ready .replay) (fun _ x => x.set) (fun _ x => (gone x).setWarp w (resume z v false))
      ∧ CompletesAt (.eretSkip p) (fun s x => ready .skip s x ∧ skips)
          (fun _ x => x.set) (fun _ x => (gone x).setWarp w (resume z v true))
      ∧ CompletesAt (.eretFill p) (fun s x => ready .fill s x ∧ t.defl.isSome)
          (fun _ x => x.set) (fun _ x => (gone x).setWarp w (resume (fillRegs z v) v false))
      ∧ CompletesAt (.eretAbort p) (ready .abort) (fun _ x => x.set)
          (fun _ x => startHalt ((gone x).setWarp w { z with halt := some { v with queued := true } }) z.tag 2)
      ∧ Waits (.eretReplay p) (fun s x => boundTrap s x.w = some (w, y, t) ∧ handlerDone s x.w = false) .other
      ∧ Waits (.eretSkip p) (fun s x => boundTrap s x.w = some (w, y, t) ∧ handlerDone s x.w = false ∧ skips) .other
      ∧ Waits (.eretFill p) (fun s x => boundTrap s x.w = some (w, y, t) ∧ handlerDone s x.w = false ∧ t.defl.isSome) .other
      ∧ Waits (.eretAbort p) (fun s x => boundTrap s x.w = some (w, y, t) ∧ handlerDone s x.w = false) .other)
  ∧ (∀ (p : Pr) (w : WarpId) (y : Warp) (t : Trap),
      TrapsWhole (.eretSkip p)
        (fun s x => boundTrap s x.w = some (w, y, t)
          ∧ (t.asyncKind = true ∨ t.cause = 0x03 ∨ (t.cause = 0x01 ∧ t.next = none)))
        (fun _ x => wholeTrap x 0x01 x.cur.pc 0 false)
      ∧ TrapsWhole (.eretFill p) (fun s x => boundTrap s x.w = some (w, y, t) ∧ t.defl = none)
        (fun _ x => wholeTrap x 0x01 x.cur.pc 0 false))

/-- mfs and mts, and the writes of ACCTAB and WATCHTAB (R237, R238). A write of ACCTAB waits for requests on their way to regions,
and until every line that a region covered has been recalled from its holders (R369, R375). -/
def Obligations.SystemRegisters : Prop :=
  ∀ (p : Pr) (d a : Operand) (num : BitVec 12) (idx : BitVec 8),
    (∀ y : Warp, Completes (.mfs p d num idx)
      (fun s x => here s x y ∧ num ≠ 0x005 ∧ num ≠ 0x047 ∧ (num = 0x001 → y.sfq = [] ∧ y.cvq = []))
      (fun s x => scatter s x (mfsUse num d)
        (x.act.map fun _ => BitVec.ofNat 64 (sysRead s x y num.toNat idx.toNat))))
    ∧ (∀ y : Warp, Completes (.mfs p d num idx) (fun s x => here s x y ∧ (num = 0x005 ∨ num = 0x047))
      (fun s x => scatter s x (mfsUse num d) (x.act.map fun l => sysLane s x y num.toNat idx.toNat l)))
    ∧ (∀ y : Warp, Waits (.mfs p d num idx) (fun s x => here s x y ∧ num = 0x001 ∧ (y.sfq ≠ [] ∨ y.cvq ≠ [])) .other)
    ∧ Completes (.mts p a num idx) (fun _ _ => num ≠ 0x047)
        (fun s x => sysWrite s x num.toNat idx.toNat (scalarOf s x (mtsUse num a)))
    ∧ (∀ y : Warp, Completes (.mts p a num idx) (fun s x => here s x y ∧ num = 0x047)
        (fun s x => (lanesOf x.exec).foldl (fun t l => trapDataWrite t x idx.toNat l
          ((srcLane t x y a 1 l).setWidth 32)) s))
    ∧ Completes (.acctabWrite p a idx) (fun s _ => regionOpen s = false ∧ regionsGone (recallRegions s) = true)
        (fun s x => writeAcctab (recallRegions s) (src64 s x a &&& 0x000FFFFFFFFFF801))
    ∧ Waits (.acctabWrite p a idx) (fun s _ => regionOpen s = true) .other
    ∧ (∀ s x, issued (.acctabWrite p a idx) s = some x → regionOpen s = false → regionsGone (recallRegions s) = false →
        exec (.acctabWrite p a idx) s = .next (holdAt (recallRegions s) x.w .other x.set))
    ∧ Completes (.watchtabWrite p a idx) always (fun s x => writeWatchtab s (src64 s x a &&& 0x000FFFFFFFFF0001))

/-- What a system register reads after it has been written (R237, R32, R33, R304, R443): the bits that the table gives
it. -/
def Obligations.WrittenRegistersRead : Prop :=
  ∀ (s : State) (x : Issue) (y z : Warp) (idx : Nat) (v : DWord), s.warp? x.w = some y → z.lanes = y.lanes →
    let rd := fun n : Nat => sysRead (sysWrite s x n idx v) x (((sysWrite s x n idx v).warp? x.w).getD z) n idx
    rd 0x001 = (v &&& 0x7F).toNat
    ∧ rd 0x002 = (v &&& fullMask y.width).toNat
    ∧ rd 0x040 = (v &&& 0xFFFFFFFFFFFFE000).toNat
    ∧ rd 0x080 = (v &&& 0xFFFF).toNat
    ∧ rd 0x081 = (v &&& 0x000FFFFFFFFFF001).toNat
    ∧ rd 0x083 = (v &&& 0xFFFFFFFFFFFFFF01).toNat
    ∧ rd 0x084 = (v &&& 0x000FFFFFFFFF0001).toNat
    ∧ rd 0x085 = (v &&& 0x0FFFFFFFFFFFF001).toNat
    ∧ rd 0x088 = (v &&& 0x0000FFFFFFFFFFFF).toNat

/-- tlbi in its four forms posts a removal; tlbsync waits until none of the warp's is left (R241, R242). evt waits for the warp's
accesses and for what its release at sys waits for, then releases and posts A and B in its context's queue (R250). -/
def Obligations.TranslationsAndEvents : Prop :=
  (∀ (h : Hdr) (p : Pr) (a b c : Operand),
      let posted : State → Issue → TlbiKind → State := fun s x k =>
        { s with seq := s.seq + 1, tlbis := sInsert s.tlbis s.seq ⟨x.w, k, [], false⟩ }
      let tag : State → Issue → Tag := fun s x => BitVec.ofNat 16 (src32 s x c)
      Completes (.tlbiVa h a c) always (fun s x => posted s x (.range (tag s x) (src64 s x a) 1))
      ∧ Completes (.tlbiRange h a b c) always (fun s x => posted s x (.range (tag s x) (src64 s x a) (src32 s x b)))
      ∧ Completes (.tlbiCtx h c) always (fun s x => posted s x (.ctx (tag s x)))
      ∧ Completes (.tlbiAll h) always (fun s x => posted s x .all)
      ∧ Completes (.tlbsync p) (fun s x => ∀ e ∈ s.tlbis, e.2.wid ≠ x.w) (fun s _ => s)
      ∧ Waits (.tlbsync p) (fun s x => ∃ e ∈ s.tlbis, e.2.wid = x.w) .other)
  ∧ (∀ (h : Hdr) (a b : Operand),
      Completes (.evt h a b) (fun s x => anyReq s x.w = false ∧ releaseReady s x.w .sys = true) (fun s x =>
        let t := releaseAt s x.w .sys
        postEvent t (t.ctx (tagOf t x.w)).evtq (tagOf t x.w) (BitVec.ofNat 32 (src32 t x a)) (BitVec.ofNat 32 (src32 t x b)))
      ∧ Waits (.evt h a b) (fun s x => anyReq s x.w = true) .other
      ∧ (∀ s x, issued (.evt h a b) s = some x → anyReq s x.w = false → releaseReady s x.w .sys = false →
        exec (.evt h a b) s = .next (holdAt (releaseBegin s x.w) x.w .other x.set)))

/-! ### Frames, twins, migration, watched regions -/

/-- pgref (R243, R347): the count of a frame moves by B; .free pushes a frame whose count reaches 0; the three refusals
change nothing but D. -/
def Obligations.FrameCounts : Prop :=
  ∀ (p : Pr) (free : Bool) (d a b : Operand) (k : Nat),
    let n : State → Issue → Int := fun s x => ftCount (ftGet s k) + (BitVec.ofNat 32 (src32 s x b)).toInt
    let at_ : State → Issue → Prop := fun s x => (src64 s x a).toNat < 2 ^ 52 ∧ frameIdx s (src64 s x a).toNat = some k
    Completes (.pgref p free d a b)
        (fun s x => at_ s x ∧ ftFree (ftGet s k) = false ∧ 0 ≤ n s x ∧ n s x ≤ 16777215)
        (fun s x =>
          let t := ftPut s k (setField (ftGet s k) 23 0 (n s x).toNat)
          withStatus (if free ∧ n s x = 0 then pushFrame t k else t) x d (n s x).toNat)
    ∧ Completes (.pgref p free d a b) (fun s x => at_ s x ∧ ftFree (ftGet s k) = true)
        (fun s x => withStatus s x d 0x80000003)
    ∧ Completes (.pgref p free d a b)
        (fun s x => at_ s x ∧ ftFree (ftGet s k) = false ∧ (n s x < 0 ∨ 16777215 < n s x))
        (fun s x => withStatus s x d 0x80000001)
    ∧ Completes (.pgref p free d a b)
        (fun s x => 2 ^ 52 ≤ (src64 s x a).toNat ∨ frameIdx s (src64 s x a).toNat = none)
        (fun s x => withStatus s x d 0x80000002)

/-- pgcow (R244) marks pages and says how many; pgtwin (R245, R351) makes a twin of a plain page and drops one. -/
def Obligations.CowAndTwin : Prop :=
  ∀ (p : Pr) (d a b c : Operand),
    Completes (.pgcow p d a b c)
        (fun s x => openInRange s (BitVec.ofNat 16 (src32 s x c)) (src64 s x a) (src32 s x b) = false)
        (fun s x =>
          let r := markCow s (BitVec.ofNat 16 (src32 s x c)) (src32 s x b) (src64 s x a) (src32 s x b) 0
          withStatus r.2.2 x d (r.1 % 2 ^ 31 + if r.2.1 then 2 ^ 31 else 0))
    ∧ Completes (.pgtwin p d a b c) (fun s x => 63 < src32 s x c) (fun s x => withStatus s x d 0x80000004)
    ∧ (∀ (e : BitVec 64) (at_ lv : Nat),
        let frame : State → Issue → Nat := fun s x => leafPa s e lv (src64 s x a) false / 65536 * 65536
        let any : State → Issue → Prop := fun s x =>
          src32 s x c ≤ 63 ∧ walk s s.sup.ctxsel (src64 s x a) = .leaf e at_ lv
        let page : State → Issue → Prop := fun s x =>
          any s x ∧ lv = 4 ∧ pteTier e = 0 ∧ inHbm s (frame s x) = true ∧ (src64 s x a).toNat % 65536 = 0
        Completes (.pgtwin p d a b c) (fun s x => any s x ∧ bit e 6 = true) (fun s x => withStatus s x d 0x80000001)
        ∧ Completes (.pgtwin p d a b c)
            (fun s x => any s x ∧ bit e 6 = false ∧ pteTier e < 2 ∧ watchedFrame s (frame s x) = true)
            (fun s x => withStatus s x d 0x80000002)
        ∧ (∀ i : Nat, Completes (.pgtwin p d a b c)
            (fun s x => page s x ∧ bit e 6 = false ∧ watchedFrame s (frame s x) = false ∧ bit e 7 = false
              ∧ (src64 s x b).toNat ≠ 0 ∧ (src64 s x b).toNat % 65536 = 0 ∧ inHbm s (src64 s x b).toNat = true
              ∧ freeTwin s = some i ∧ (twinsOf s s.sup.ctxsel (src32 s x c)).length < 512)
            (fun s x => withStatus
              (makeTwin s s.sup.ctxsel (src64 s x a) e at_ i (src32 s x c) (src64 s x b).toNat) x d 0))
        ∧ Completes (.pgtwin p d a b c)
            (fun s x => page s x ∧ bit e 6 = false ∧ watchedFrame s (frame s x) = false ∧ bit e 7 = true
              ∧ (src64 s x b).toNat = 0)
            (fun s x => withStatus (dropTwin s s.sup.ctxsel (src64 s x a) e at_) x d 0))

/-- pgmig of a plain page to a named frame (R246, R355): the entry becomes absent, the migration is under way, and D is 0. -/
def Obligations.MigrationStarts : Prop :=
  ∀ (p : Pr) (d a : Operand) (bs : List Byte) (e : BitVec 64) (at_ : Nat) (t : State),
    let g : MigDesc := BitVec.ofNat 512 (ofBytes bs)
    let src : Nat := leafPa t e 4 g.va false / 65536 * 65536
    Completes (.pgmig p d a)
      (fun s x => readVirt s (.warp x.w) (tagOf s x.w) (isSup x.w) (src64 s x a) 64 = (.ok bs, t)
        ∧ arrFault t [x.gid] g.arr = none ∧ g.bad = false ∧ moving t g.tag g.va = false
        ∧ walk t g.tag g.va = .leaf e at_ 4 ∧ bit e 7 = false ∧ pteTier e < 2
        ∧ watchedFrame t src = false
        ∧ (∀ i, frameIdx t src = some i → ftCount (ftGet t i) ≤ 1)
        ∧ openOnPage t g.tag g.va none true = false ∧ g.tier = 0 ∧ g.frame ≠ 0 ∧ goes s x true ∧ farHolds t src 65536 = false)
      (fun _ x => withStatus (startMig t
        { tag := g.tag, va := g.va, oldPte := e, tier := 0, frame := g.frame, shadow := g.shadow, lba := g.lba,
          nvq := g.nvq, twin := none, src := src, srcShadow := 0, arr := some (x.w, g.arr),
          launch := none } at_) x d 0)

/-- watch installs the region of a descriptor that it can read, or gives the code of its refusal, once no proxy of another package
owns a word of the region; unwatch removes a live
region of its own context, and else gives 0x80000001 (R186 to R188). -/
def Obligations.WatchedRegions : Prop :=
  ∀ (p : Pr) (d a : Operand) (bs : List Byte) (g : Group) (t : State),
    Completes (.watch p d a)
      (fun s x => heldBack s x.w true = false ∧ (src64 s x a).toNat % 64 = 0 ∧ t.group? x.gid = some g
        ∧ readVirt s (.warp x.w) (tagOf s x.w) (isSup x.w) (src64 s x a) 64 = (.ok bs, t)
        ∧ farWatched t (regionOf (BitVec.ofNat 512 (ofBytes bs)) (tagOf t x.w) 0) = false)
      (fun _ x =>
        let r := watchInstall t (BitVec.ofNat 512 (ofBytes bs)) (tagOf t x.w) g.launch
        withStatus r.2 x d r.1)
    ∧ (∀ q : Region, Completes (.unwatch p d a)
        (fun s x => src32 s x a ≤ 255 ∧ sFind? s.regions (src32 s x a) = some q ∧ q.live = true ∧ q.tag = tagOf s x.w)
        (fun s x => withStatus (unwatchRegion s (src32 s x a)) x d 0))
    ∧ Completes (.unwatch p d a)
        (fun s x => 255 < src32 s x a ∨ ∀ q, sFind? s.regions (src32 s x a) = some q → q.live = false ∨ q.tag ≠ tagOf s x.w)
        (fun s x => withStatus s x d 0x80000001)

/-! ### Loads and stores -/

/-- ld, ldu, st and stu where every lane may act and the table has room (R142 to R145): lines of another context leave the L1
first (R362), and a release has nothing left to wait for. pref never parks, never faults and changes no register (R161): it asks
for a block that its CU does not hold, where the table has room, and else does nothing more than translate. -/
def Obligations.GlobalLoadsStores : Prop :=
  ∀ (p : Pr) (sx : Bool) (d a b : Operand) (m : MemExt) (gs : List Good) (t : State),
    (let kind : ReqKind := if m.opx.toNat ≠ 0 then .accLoad m.opx.toNat m.tol.toNat else .load m.rt
     Completes (.ld p sx d a m)
      (fun s x => goes s x true ∧ judged s x .read (if m.opx.toNat ≠ 0 then 8 else m.wid.bytes) false
        (fun pa => if m.opx.toNat ≠ 0 then (if (accEnt s pa).isNone then some 0x14 else none)
          else postPlain s false (m.rt == .unc) pa) (addrs s x a m.off) gs t
        ∧ tableRoom (cleanBlocks t x gs) x.w (loadNeeds (cleanBlocks t x gs) x kind m gs) = true)
      (fun _ x => loadGood (cleanBlocks t x gs) x kind m sx d gs))
    ∧ (m.opx = 0 → Completes (.ldu p sx d a m)
      (fun s x => goes s x true ∧ judged s x .read m.wid.bytes false (postPlain s false (m.rt == .unc)) (addrs s x a 0) gs t
        ∧ tableRoom (cleanBlocks t x gs) x.w (loadNeeds (cleanBlocks t x gs) x (.load m.rt) m gs) = true)
      (fun _ x => addressed true a m x gs (loadGood (cleanBlocks t x gs) x (.load m.rt) m sx d gs)))
    ∧ Completes (.st p a b m)
      (fun s x => goes s x true ∧ (m.ord = .rel → anyReq s x.w = false ∧ releaseReady s x.w m.scp = true)
        ∧ judged s x .write m.wid.bytes false (postPlain s true (m.rt == .unc)) (addrs s x a m.off) gs t
        ∧ tableRoom (cleanBlocks t x gs) x.w
          ((blocksOf gs).filter fun k => !ownHit (cleanBlocks t x gs) x m gs k).length = true)
      (fun _ x =>
        let r := storeData (released (cleanBlocks t x gs) x m) x b m.wid.bytes
        storeGood r.2 x m (withData x gs r.1))
    ∧ Completes (.stu p a b m)
      (fun s x => goes s x true ∧ (m.ord = .rel → anyReq s x.w = false ∧ releaseReady s x.w m.scp = true)
        ∧ judged s x .write m.wid.bytes false (postPlain s true (m.rt == .unc)) (addrs s x a 0) gs t
        ∧ tableRoom (cleanBlocks t x gs) x.w
          ((blocksOf gs).filter fun k => !ownHit (cleanBlocks t x gs) x m gs k).length = true)
      (fun _ x =>
        let r := storeData (released (cleanBlocks t x gs) x m) x b m.wid.bytes
        addressed true a m x gs (storeGood r.2 x m (withData x gs r.1)))
    ∧ (∀ s x, issued (.pref p a m) s = some x → ∃ t, exec (.pref p a m) s = .next (passed (.pref p a m) x t)
        ∧ t.warps = s.warps ∧ t.groups = s.groups ∧ t.cus = s.cus)
    ∧ (∀ (l : Nat) (va : Addr) (blk : Nat),
        Completes (.pref p a m)
          (fun s x => addrs s x a m.off = [(l, va)] ∧ prefBlock s x.w va = (some blk, t)
            ∧ (m.opx ≠ 0 ∨ prefHeld t (cuOf x.gid) blk = false) ∧ tableRoom t x.w 1 = true)
          (fun _ x => (addReq t { Req.blank t x.w (.pref (m.opx != 0)) with
            blk := blk, wid' := .b16, stage := stageOf t (128 * blk),
            accs := (List.range 8).map fun i => ⟨0, va, 128 * blk + 16 * i, [], [], 0, false⟩ }).2)
        ∧ Completes (.pref p a m)
          (fun s x => addrs s x a m.off = [(l, va)] ∧ prefBlock s x.w va = (some blk, t)
            ∧ (m.opx = 0 ∧ prefHeld t (cuOf x.gid) blk = true ∨ tableRoom t x.w 1 = false))
          (fun _ _ => t)
        ∧ Completes (.pref p a m) (fun s x => addrs s x a m.off = [(l, va)] ∧ prefBlock s x.w va = (none, t)) (fun _ _ => t))

/-- lds and sts where every lane lies in the window (R152, R153): each lane reads, or writes, its bytes at once.
An access outside a window, or not a multiple of its width, faults in that lane with cause 0x11 or 0x04 at its offset
(R152). -/
def Obligations.ScratchpadLoadsStores : Prop :=
  (∀ (p : Pr) (sx : Bool) (d a b : Operand) (m : MemExt) (h : GroupId) (gs : List Good),
      (d.isChan = false → Completes (.lds p sx d a m)
        (fun s x => goes s x false ∧ inWindow s x m h m.wid.bytes (offs s x a m.off) gs ∧ (∃ g, s.group? h = some g)
          ∧ ∀ g, s.group? h = some g → ∀ e ∈ gs, g.padBad e.pa m.wid.bytes = false)
        (fun s x => gs.foldl (fun u e => putLoaded u x.w d e.lane m.wid.bytes sx
          (((s.group? h).map fun g => g.bytes e.pa m.wid.bytes).getD []))
          (if m.ord = .acq ∧ padScope m = .cl then dropAt s x.w else s)))
      ∧ Completes (.sts p a b m)
        (fun s x => goes s x false ∧ (m.ord = .rel → openReq s x.w = false ∧ releaseReady s x.w (padScope m) = true)
          ∧ inWindow s x m h m.wid.bytes (offs s x a m.off) gs ∧ anyHeld s h m.wid.bytes gs = false
          ∧ windowDead (storeData (padReleased s x m) x b m.wid.bytes).2 x.gid h = false)
        (fun s x =>
          let r := storeData (padReleased s x m) x b m.wid.bytes
          (withData x gs r.1).foldl (fun u e => padWrite u h e.1.pa e.2) r.2))
  ∧ (∀ (s : State) (h : GroupId) (g : Group) (n o l : Nat), s.group? h = some g → n ≠ 0 →
      (o % n ≠ 0 → judgePad s (some h) n [(l, o)] = ⟨[], [⟨l, 0x04, BitVec.ofNat 64 o, none⟩], [], false⟩)
      ∧ (o % n = 0 → g.winSize ≤ o →
          judgePad s (some h) n [(l, o)] = ⟨[], [⟨l, 0x11, BitVec.ofNat 64 o, none⟩], [], false⟩)
      ∧ (o % n = 0 → o < g.winSize →
          judgePad s (some h) n [(l, o)] = ⟨[⟨l, BitVec.ofNat 64 o, o, false, false⟩], [], [], false⟩))

/-- ldfe, ldff, stfe and stff (R155): the lanes act in ascending order, and a lane that parks keeps its place; a scalar form acts once
for the lanes that find the word ready. In a repeat no lane may park (R21). feset: the bits of B words from A become full or
empty (R158).
One lane of a full/empty instruction (R155, R156): ready, it takes or stores the word and sets its bit; not ready, it
is no longer eligible. -/
def Obligations.FullEmptyWords : Prop :=
  ((∀ (p : Pr) (d a b : Operand) (m : MemExt) (h : GroupId) (gs : List Good),
        let ok : FeOp → State → Issue → Prop := fun op s x =>
          goes s x false ∧ inWindow s x m h 4 (offs s x a m.off) gs
            ∧ (op.isLoad = false → openReq s x.w = false ∧ anyHeld s h 4 gs = false
              ∧ releaseReady s x.w (if m.pv then .cl else .cu) = true)
            ∧ (x.rep = true → ∀ g ∈ gs, feLaneReady s op x.w h g = true)
        let lanes : FeOp → Option Operand → Issue → State → (Good → Word) → State × List Nat := fun op d x s v =>
          match x.scalar, gs with
          | true, [] => (s, [])
          | true, g :: _ => feScalar op x.w h d s ((lanesOf x.exec).map fun l => { g with lane := l }) (padTrapAddr m g.va) (v g)
          | false, _ => (gs.map fun g => (g, v g)).foldl (fun r e =>
              let q := feLane op x.w h d r.1 e.1 (padTrapAddr m e.1.va) e.2
              (q.1, if q.2 then e.1.lane :: r.2 else r.2)) (s, [])
        let data : State → Issue → Good → Word := fun s x g =>
          match s.warp? x.w with
          | some w => (srcLane s x w b 1 g.lane).setWidth 32
          | none => 0
        let load : FeOp → State → Issue → State × List Nat := fun op s x => lanes op (some d) x (dropAt s x.w) fun _ => 0
        let store : FeOp → State → Issue → State × List Nat := fun op s x =>
          let r := releaseAt s x.w (if m.pv then .cl else .cu)
          lanes op none x r (data r x)
        CompletesAt (.ldfe p d a m) (ok .ldfe) (fun s x => maskOf (load .ldfe s x).2) (fun s x => (load .ldfe s x).1)
        ∧ CompletesAt (.ldff p d a m) (ok .ldff) (fun s x => maskOf (load .ldff s x).2) (fun s x => (load .ldff s x).1)
        ∧ CompletesAt (.stfe p a b m) (ok .stfe) (fun s x => maskOf (store .stfe s x).2) (fun s x => (store .stfe s x).1)
        ∧ CompletesAt (.stff p a b m) (ok .stff) (fun s x => maskOf (store .stff s x).2) (fun s x => (store .stff s x).1))
    ∧ (∀ (p : Pr) (v : Bool) (a b : Operand) (m : MemExt) (h : GroupId) (g : Group) (wp : Warp),
        let cnt : State → Issue → Nat → Nat := fun s x l => ((srcLane s x wp b 1 l).setWidth 32).toNat
        Completes (.feset p v a b m)
          (fun s x => goes s x false ∧ here s x wp ∧ windowOf s x.gid m.pv m.peer.toNat = some h ∧ s.group? h = some g
            ∧ windowDead s x.gid h = false
            ∧ ∀ e ∈ offs s x a m.off, e.2 % 4 = 0 ∧ 1 ≤ cnt s x e.1 ∧ e.2 + 4 * cnt s x e.1 ≤ g.winSize
              ∧ g.isHeld e.2 (4 * cnt s x e.1) = false)
          (fun s x => (offs s x a m.off).foldl (fun u e =>
            (List.range (cnt s x e.1)).foldl (fun u i => setFull u h (e.2 + 4 * i) v) u) s)))
  ∧ (∀ (s : State) (w : WarpId) (h : GroupId) (g : Group) (d : Option Operand) (e : Good) (at_ : Addr) (v : Word), s.group? h = some g →
      (∀ op : FeOp, feReady (s.cu (cuOf h)) g w e.lane (wordKey h e.pa) e.pa op.waits = true → op.isLoad = false →
        feLane op w h d s e at_ v =
          (setFull (padWrite (leaveQueue s w e.lane (wordKey h e.pa)) h e.pa (bytesOf v.toNat 4)) h e.pa true, false))
      ∧ (∀ op : FeOp, ∀ o, feReady (s.cu (cuOf h)) g w e.lane (wordKey h e.pa) e.pa op.waits = true → op.isLoad = true →
        d = some o → g.padBad e.pa 4 = false →
        feLane op w h d s e at_ v =
          (setFull (putLoaded (leaveQueue s w e.lane (wordKey h e.pa)) w o e.lane 4 false (g.bytes e.pa 4)) h e.pa
            (op != .ldfe), false))
      ∧ (∀ op : FeOp, feReady (s.cu (cuOf h)) g w e.lane (wordKey h e.pa) e.pa op.waits = false →
        (feLane op w h d s e at_ v).2 = true
        ∧ ∀ x, s.warp? w = some x → e.lane < x.width → e.lane < 64 → ∃ y l, (feLane op w h d s e at_ v).1.warp? w = some y
          ∧ y.lanes[e.lane]? = some l ∧ l.st = .fe))

/-- wbr, invr, flr, icinv and accdrain issue one request for their range, or nothing for an empty one; fetchb discards what the warp
has fetched, and waits for the warp's icinv (R162, R163, R178). -/
def Obligations.RangeOperations : Prop :=
  ∀ (p : Pr) (a b : Operand) (m : MemExt),
    let range : State → Issue → Nat × Nat := fun s x => rangeOf s x a b m.off
    let asks : Instr → ReqKind → Prop := fun i k =>
      Completes i (fun s x => goes s x true ∧ (range s x).2 ≠ 0 ∧ tableRoom s x.w 1 = true)
          (fun s x => rangeReq s x k (range s x).1 (range s x).2 m.scp)
        ∧ Completes i (fun s x => goes s x true ∧ (range s x).2 = 0) (fun s _ => s)
    asks (.wbr p a b m) (.range 0 (m.opx.getLsbD 0)) ∧ asks (.invr p a b m) (.range 1 false)
    ∧ asks (.flr p a b m) (.range 2 (m.opx.getLsbD 0)) ∧ asks (.icinv p a b m) .icinv
    ∧ asks (.accdrain p a b m) .drain
    ∧ Completes (.fetchb m) (fun s x => ∀ e ∈ s.reqs, e.2.wid = x.w → e.2.kind ≠ .icinv)
        (fun s x => s.modWarp x.w fun y => { y with ibuf := none, fetchBad := none })
    ∧ (∀ s x, issued (.fetchb m) s = some x → (∃ e ∈ s.reqs, e.2.wid = x.w ∧ e.2.kind = .icinv) →
        exec (.fetchb m) s = .next (holdAt (s.modWarp x.w fun y => { y with ibuf := none, fetchBad := none }) x.w .other x.set))

/-! ### Atomics, accumulation, synchronisation -/

/-- atom, red and cas in global memory where every lane may act (R168 to R176): one request for each 128-byte block, with
each lane's address and operands. -/
def Obligations.GlobalAtomics : Prop :=
  ∀ (p : Pr) (d a b c : Operand) (m : MemExt) (gs : List Good) (t : State),
    let rel : Bool := m.ord == .rel || m.ord == .ar
    let ok : ReqKind → State → Issue → Prop := fun k s x =>
      goes s x true ∧ (rel = true → anyReq s x.w = false ∧ releaseReady s x.w m.scp = true)
        ∧ judged s x .rmw m.wid.bytes (k == .cas) (atomPost s k m.wid.bytes) (addrs s x a m.off) gs t
        ∧ tableRoom t x.w (blocksOf gs).length = true
    let asked : ReqKind → Option Operand → Option Operand → Issue → State := fun k dst sw x =>
      (blocksOf gs).foldl (fun u blk =>
        let mine := gs.filter fun g => g.pa / 128 == blk
        askBlock u x (atomReq u x k dst m
          (mine.map fun g => ⟨g.lane, g.va, g.pa, laneBytes u x (some b) m.wid.bytes g.lane,
            laneBytes u x sw m.wid.bytes g.lane, m.wid.regs, g.cow⟩) (mine.any fun g => g.sm) blk))
        (if rel then releaseAt t x.w m.scp else t)
    Completes (.atom p false d a b m) (ok (.atom (m.opx.toNat % 16))) (fun _ x => asked (.atom (m.opx.toNat % 16)) (some d) none x)
    ∧ Completes (.red p false a b m) (ok (.red (m.opx.toNat % 16))) (fun _ x => asked (.red (m.opx.toNat % 16)) none none x)
    ∧ Completes (.cas p false d a b c m) (ok .cas) (fun _ x => asked .cas (some d) (some c) x)

/-- atom, red and cas in a scratchpad where every lane lies in the window (R169): after what the order asks for, the lanes
act in ascending order, and D receives the values that each found.
One lane of a scratchpad add, exchange and compare-and-swap on a word (R169, R170, R175). -/
def Obligations.ScratchpadAtomics : Prop :=
  (∀ (p : Pr) (d a b c : Operand) (m : MemExt) (h : GroupId) (gs : List Good),
      let rel : Bool := m.ord == .rel || m.ord == .ar
      let acq : Bool := m.ord == .acq || m.ord == .ar
      let pre : State → Issue → State := fun s x =>
        let r := if rel then releaseAt s x.w (padScope m) else s
        if acq ∧ padScope m = .cl then dropAt r x.w else r
      let ok : State → Issue → Prop := fun s x =>
        goes s x false ∧ (rel = true → openReq s x.w = false ∧ releaseReady s x.w (padScope m) = true) ∧ inWindow s x m h m.wid.bytes (offs s x a m.off) gs
          ∧ anyHeld s h m.wid.bytes gs = false ∧ ∃ g, (pre s x).group? h = some g ∧ g.padPoison = []
      let act : ReqKind → Option Operand → Issue → State → State × List (Nat × List Byte) := fun k sw x s =>
        gs.foldl (fun r g =>
          (padAtomLane k b sw m.wid.bytes x h r.1 g,
            r.2 ++ [(g.lane, ((r.1.group? h).map fun gr => gr.bytes g.pa m.wid.bytes).getD [])])) (s, [])
      let ready : State → Issue → State := fun s x => markBad (pre s x) x.w d m.wid 0x30 (pre s x).tick []
      let got : State × List (Nat × List Byte) → Issue → State := fun r x =>
        r.2.foldl (fun u e => putLoaded u x.w d e.1 m.wid.bytes false e.2) r.1
      Completes (.atom p true d a b m) ok (fun s x => got (act (.atom (m.opx.toNat % 16)) none x (ready s x)) x)
      ∧ Completes (.red p true a b m) ok (fun s x => (act (.red (m.opx.toNat % 16)) none x (pre s x)).1)
      ∧ Completes (.cas p true d a b c m) ok (fun s x => got (act .cas (some c) x (ready s x)) x))
  ∧ (∀ (s : State) (x : Issue) (h : GroupId) (g : Group) (e : Good) (b c : Operand) (w : Warp), s.group? h = some g →
      s.warp? x.w = some w →
      let old : Word := g.word e.pa
      let B : Word := (srcLane s x w b 1 e.lane).setWidth 32
      let C : Word := (srcLane s x w c 1 e.lane).setWidth 32
      padAtomLane (.atom 0) b none 4 x h s e = padWrite s h e.pa (bytesOf (old + B).toNat 4)
      ∧ padAtomLane (.atom 8) b none 4 x h s e = padWrite s h e.pa (bytesOf B.toNat 4)
      ∧ (old = B → padAtomLane .cas b (some c) 4 x h s e = padWrite s h e.pa (bytesOf C.toNat 4))
      ∧ (old ≠ B → padAtomLane .cas b (some c) 4 x h s e = s))

/-- acc (R177, R257, R371, R372, R379): to a line that the L1 holds update-only the addend is withheld or pushed, once the warp has
no earlier access to it open; to another it goes to the home as a request; with it go the tag of a release write, where a fence has
made it one, and the depth of its group. -/
def Obligations.Accumulate : Prop :=
  ∀ (p : Pr) (a b : Operand) (m : MemExt) (g : Good) (t : State) (w : Warp) (ent : AccEnt),
    let n : Nat := if m.opx.toNat % 2 = 1 then 2 else 1
    let line : Nat := g.pa / 128
    let v : State → Issue → Int × Word × Bool := fun s x => accAddend (m.opx.toNat % 4) ent.e (srcLane s x w b n g.lane)
    let ok : State → Issue → Prop := fun s x =>
      goes s x true ∧ judged s x .write 8 false
          (fun pa => if spaceOf s pa == .view then some 0x13 else if (accEnt s pa).isNone then some 0x14 else none)
          (addrs s x a m.off) [g] t
        ∧ accEnt t g.pa = some ent ∧ t.warp? x.w = some w ∧ (v t x).2.2 = false ∧ (v t x).2.1 = 0
    let tag : BitVec 3 := match w.relScope with | some q => scopeTag q | none => 0
    (∀ u : UpdLine, Completes (.acc p a b m)
      (fun s x => ok s x ∧ sFind? (t.cu (cuOf x.gid)).upd line = some u ∧ u.ctx = tagOf t x.w ∧ g.sm = false
        ∧ tableRoom t x.w 0 = true ∧ blockBusy t x.w line = false)
      (fun _ x => heldAcc t (cuOf x.gid) line (g.pa % 128 / 8) (v t x).1 tag (groupDepth t x.gid) u))
    ∧ Completes (.acc p a b m)
      (fun s x => ok s x ∧ sFind? (t.cu (cuOf x.gid)).upd line = none ∧ tableRoom t x.w 1 = true)
      (fun _ x => (addReq t { Req.blank t x.w .acc with
        blk := line, stage := stageOf t (128 * line), rel := tag, depth := groupDepth t x.gid, sm := g.sm,
        accs := [⟨g.lane, g.va, g.pa, bytesOf (BitVec.ofInt 64 (v t x).1).toNat 8, [], 0, false⟩] }).2)

/-- fence (R179): an acquire waits for the warp's reads, a release for all its accesses and for what its scope has to accept; a
release then writes back and widens the scope of later writes, and an acquire drops the si copies where a tagged value was seen, and
keeps them otherwise. Where none was seen, a fence of kind sc drops those that a later write has overtaken (R263; the model's choice
of which: log 83). -/
def Obligations.Fences : Prop :=
  ∀ (p : Pr) (scp : Scope) (w : Warp),
    let wide : State → Issue → State := fun s x => (releaseAt s x.w scp).modWarp x.w fun w =>
      { w with relScope := some (match w.relScope with | some q => wider q scp | none => scp) }
    let drop : State → Issue → State := fun s x => if w.sawTag then dropAt s x.w else s
    Completes (.fence p scp .acq) (fun s x => here s x w ∧ readOpen s x.w = false) drop
    ∧ Completes (.fence p scp .rel) (fun s x => anyReq s x.w = false ∧ releaseReady s x.w scp = true) wide
    ∧ Completes (.fence p scp .ar)
        (fun s x => here s x w ∧ readOpen s x.w = false ∧ anyReq s x.w = false ∧ releaseReady s x.w scp = true)
        (fun s x => wide (drop s x) x)
    ∧ Completes (.fence p scp .sc)
        (fun s x => here s x w ∧ readOpen s x.w = false ∧ anyReq s x.w = false ∧ releaseReady s x.w scp = true)
        (fun s x => wide (if w.sawTag then dropAt s x.w else dropOld s (cuOf x.gid)) x)
    ∧ Waits (.fence p scp .acq) (fun s x => readOpen s x.w = true) .other
    ∧ (∀ k, k = .ar ∨ k = .sc → Waits (.fence p scp k) (fun s x => readOpen s x.w = true ∨ anyReq s x.w = true) .other)
    ∧ Waits (.fence p scp .rel) (fun s x => anyReq s x.w = true) .other
    ∧ (∀ k s x, k = .rel ∨ k = .ar ∨ k = .sc → issued (.fence p scp k) s = some x → readOpen s x.w = false →
        anyReq s x.w = false → releaseReady s x.w scp = false →
        exec (.fence p scp k) s = .next (holdAt (releaseBegin s x.w) x.w .other x.set))

/-- arrive, wait, bar and bmask on a barrier that the group may use (R180 to R183). arrive and bar wait for the warp's accesses, for
its latest arrival to complete, and for what their release waits for, and then record one arrival; wait and bar hold the warp until
the generation of its latest arrival is complete, and then go on, even where the group is no member any more. A barrier that the
group may not use, arrive, wait and bar of a group that is no member, and bmask during a generation are misuse, cause 0x16 (where
the mask would change nothing, the model's reading: log 70). -/
def Obligations.Barriers : Prop :=
  ∀ (h : Hdr) (cl : Bool) (a b : Operand) (k : Nat),
    let mine : State → Issue → Prop := fun s x => barNamed s x cl a = some k ∧ barMember s x k = true
    let held : Warp → State → Issue → Prop := fun w s x => barNamed s x cl a = some k ∧ here s x w ∧ w.barWait = some k
    let new : Warp → State → Issue → Prop := fun w s x => mine s x ∧ here s x w ∧ w.barWait ≠ some k
    let mark : Option Nat → State → Issue → State := fun o s x => s.modWarp x.w fun w => { w with barWait := o }
    let misuse : Issue → Trap := fun x => wholeTrap x 0x16 x.cur.pc 0 false
    Completes (.arrive h cl a)
        (fun s x => mine s x ∧ anyReq s x.w = false ∧ barArrived s x k = false ∧ releaseReady s x.w (barScope cl) = true)
        (fun s x => barArrive s x cl k)
    ∧ Waits (.arrive h cl a) (fun s x => mine s x ∧ (anyReq s x.w = true ∨ barArrived s x k = true)) .other
    ∧ (∀ s x, issued (.arrive h cl a) s = some x → mine s x → anyReq s x.w = false → barArrived s x k = false →
        releaseReady s x.w (barScope cl) = false →
        exec (.arrive h cl a) s = .next (holdAt (releaseBegin s x.w) x.w .other x.set))
    ∧ (∀ w : Warp, Completes (.wait h cl a) (fun s x => (mine s x ∨ held w s x) ∧ barWaiting s x k = false)
        (fun s x => mark none (barWaited s x k) x))
    ∧ (∀ (w : Warp) s x, issued (.wait h cl a) s = some x → (mine s x ∨ held w s x) → barWaiting s x k = true →
        exec (.wait h cl a) s = .next (holdAt (mark (some k) s x) x.w .bar x.set))
    ∧ (∀ w : Warp, Completes (.bar h cl a) (fun s x => held w s x ∧ barWaiting s x k = false)
        (fun s x => mark none (barWaited s x k) x))
    ∧ (∀ (w : Warp) s x, issued (.bar h cl a) s = some x → held w s x → barWaiting s x k = true →
        exec (.bar h cl a) s = .next (holdAt (mark (some k) s x) x.w .bar x.set))
    ∧ (∀ w : Warp, Waits (.bar h cl a) (fun s x => new w s x ∧ (anyReq s x.w = true ∨ barArrived s x k = true)) .bar)
    ∧ (∀ (w : Warp) s x, issued (.bar h cl a) s = some x → new w s x → anyReq s x.w = false → barArrived s x k = false →
        releaseReady s x.w (barScope cl) = false →
        exec (.bar h cl a) s = .next (holdAt (releaseBegin s x.w) x.w .bar x.set))
    ∧ (∀ w : Warp, Completes (.bar h cl a)
        (fun s x => new w s x ∧ anyReq s x.w = false ∧ barArrived s x k = false
          ∧ releaseReady s x.w (barScope cl) = true ∧ barWaiting (barArrive s x cl k) x k = false)
        (fun s x => mark none (barWaited (barArrive s x cl k) x k) x))
    ∧ (∀ (w : Warp) s x, issued (.bar h cl a) s = some x → new w s x → anyReq s x.w = false → barArrived s x k = false →
        releaseReady s x.w (barScope cl) = true → barWaiting (barArrive s x cl k) x k = true →
        exec (.bar h cl a) s = .next (holdAt (mark (some k) (barArrive s x cl k) x) x.w .bar x.set))
    ∧ (∀ g : Group, Completes (.bmask h cl a b)
        (fun s x => barNamed s x cl a = some k ∧ s.group? x.gid = some g ∧ (s.bar k).arrived = [] ∧ src32 s x b ≠ 0)
        (fun s _ => s.setBar k { s.bar k with
          members := if (s.bar k).members.contains g.gname then (s.bar k).members else (s.bar k).members ++ [g.gname] }))
    ∧ (∀ g : Group, Completes (.bmask h cl a b)
        (fun s x => barNamed s x cl a = some k ∧ s.group? x.gid = some g ∧ (s.bar k).arrived = [] ∧ src32 s x b = 0)
        (fun s _ => s.setBar k { s.bar k with
          members := (s.bar k).members.filter fun n => n != g.gname
          waits := (s.bar k).waits.filter fun e => e.group != g.gname }))
    ∧ TrapsWhole (.arrive h cl a) (fun s x => barNamed s x cl a = none) (fun _ x => misuse x)
    ∧ TrapsWhole (.wait h cl a) (fun s x => barNamed s x cl a = none) (fun _ x => misuse x)
    ∧ TrapsWhole (.bar h cl a) (fun s x => barNamed s x cl a = none) (fun _ x => misuse x)
    ∧ TrapsWhole (.bmask h cl a b) (fun s x => barNamed s x cl a = none) (fun _ x => misuse x)
    ∧ TrapsWhole (.arrive h cl a) (fun s x => barNamed s x cl a = some k ∧ barMember s x k = false) (fun _ x => misuse x)
    ∧ (∀ w : Warp,
        let apart : State → Issue → Prop := fun s x =>
          barNamed s x cl a = some k ∧ barMember s x k = false ∧ here s x w ∧ w.barWait ≠ some k
        TrapsWhole (.wait h cl a) apart (fun _ x => misuse x) ∧ TrapsWhole (.bar h cl a) apart (fun _ x => misuse x))
    ∧ TrapsWhole (.bmask h cl a b) (fun s x => barNamed s x cl a = some k ∧ (s.bar k).arrived ≠ []) (fun _ x => misuse x)

/-- cvdef, publish and chset (R185, R189, R190), with the misuse of each. -/
def Obligations.ConvergePublishChannel : Prop :=
  ∀ (h : Hdr) (p : Pr) (cv : Fin 8) (a b : Operand) (o : Option Operand) (n : Fin 16) (pk : Bool) (w : Warp) (g : Group),
    let set : Mask → State → Issue → State := fun m s x => s.modWarp x.w fun w => w.setCv cv.val ⟨m, 0, none, []⟩
    let free : State → Issue → Prop := fun s x => here s x w
      ∧ ((w.cvReg cv.val).signed = 0 ∨ (w.cvReg cv.val).signed = (w.cvReg cv.val).expected)
      ∧ ∀ e ∈ (s.cu (cuOf x.gid)).defMat, e.wid = x.w → e.cv ≠ cv
    Completes (.cvdef p cv none) free (fun s x => set x.exec s x)
    ∧ Completes (.cvdef p cv (some a)) free (fun s x => set (src64 s x a &&& w.alive) s x)
    ∧ TrapsWhole (.cvdef p cv o)
        (fun s x => here s x w ∧ (w.cvReg cv.val).signed ≠ 0 ∧ (w.cvReg cv.val).signed ≠ (w.cvReg cv.val).expected)
        (fun _ x => wholeTrap x 0x16 x.cur.pc 0 false)
    ∧ Completes (.publish h a) (fun s x => src32 s x a ≤ 63 ∧ anyReq s x.w = false ∧ releaseReady s x.w .pkg = true)
        (fun s x =>
          let r := releaseAt s x.w .pkg
          { r with pubs := r.pubs ++ [⟨x.w, tagOf r x.w, src32 s x a, translated r (tagOf r x.w)⟩] })
    ∧ Waits (.publish h a) (fun s x => src32 s x a ≤ 63 ∧ anyReq s x.w = true) .other
    ∧ TrapsWhole (.publish h a) (fun s x => 63 < src32 s x a) (fun _ x => wholeTrap x 0x16 x.cur.pc 0 false)
    ∧ Completes (.chset h (.ch n pk) a b)
        (fun s x => s.group? x.gid = some g ∧ src32 s x a % 4 = 0 ∧ src32 s x b ≤ 4095
          ∧ src32 s x a + 4 * src32 s x b ≤ g.winSize)
        (fun s x => s.modGroup x.gid fun g => g.setChan n.val ⟨0, 0, src32 s x b, src32 s x a⟩)
    ∧ TrapsWhole (.chset h (.ch n pk) a b)
        (fun s x => s.group? x.gid = some g ∧ (src32 s x a % 4 ≠ 0 ∨ 4095 < src32 s x b
          ∨ g.winSize < src32 s x a + 4 * src32 s x b))
        (fun _ x => wholeTrap x 0x16 x.cur.pc 0 false)

/-! ### Matrix, tiles, engines -/

/-- mma, mmaq and mmas (R197 to R199): the executing lanes sign together; a set that is not complete only records them with
their A words, the last signature issues the operation, and a lane that is not expected, or signs twice, and an instruction that is
not the one which the set's first lanes signed, but for its predicate, are misuse. -/
def Obligations.MatrixSigning : Prop :=
  ∀ (p : Pr) (a : Fin 128) (b : Operand) (e : MatExt) (w : Warp) (i : Instr),
    (i = .mma p (.v a) b e ∨ i = .mmaq p (.v a) b e ∨ i = .mmas p (.v a) b e) →
    let c : Cv := w.cvReg e.cv.val
    let legal : State → Issue → Prop := fun s x => here s x w ∧ c.expected ≠ 0 ∧ x.exec &&& ~~~c.expected = 0
      ∧ x.exec &&& c.signed = 0 ∧ (c.signed = 0 ∨ c.ins.map noPred = some (noPred i))
    let signed : Issue → Cv := fun x =>
      { capture w a.val (matCount i w.width) x.exec c with
        signed := c.signed ||| x.exec
        ins := if c.signed = 0 then some i else c.ins }
    let sign : State → Issue → State := fun s x => s.modWarp x.w fun y => y.setCv e.cv.val (signed x)
    Completes i (fun s x => legal s x ∧ c.expected &&& ~~~(c.signed ||| x.exec) ≠ 0) sign
    ∧ Completes i (fun s x => legal s x ∧ c.expected &&& ~~~(c.signed ||| x.exec) = 0 ∧ matGo s x.w i x.cur.pc = .go)
        (fun s x => matIssue (sign s x) x.w e.cv.val)
    ∧ Waits i (fun s x => legal s x ∧ c.expected &&& ~~~(c.signed ||| x.exec) = 0 ∧ matGo s x.w i x.cur.pc = .wait
        ∧ ringShort s x.w i = true) .chan
    ∧ Waits i (fun s x => legal s x ∧ c.expected &&& ~~~(c.signed ||| x.exec) = 0 ∧ matGo s x.w i x.cur.pc = .wait
        ∧ ringShort s x.w i = false) .other
    ∧ TrapsWhole i (fun s x => here s x w ∧ (c.expected = 0 ∨ x.exec &&& ~~~c.expected ≠ 0 ∨ x.exec &&& c.signed ≠ 0
          ∨ (c.signed ≠ 0 ∧ c.ins.map noPred ≠ some (noPred i))))
        (fun _ x => wholeTrap x 0x16 x.cur.pc 0 false)

/-- accz, accrd and accwr (R205, R206); accld and accst in a scratchpad and in global memory (R207, R208), where blocks that another
context left in the L1 leave it first (R362). -/
def Obligations.Tiles : Prop :=
  ∀ (h : Hdr) (p : Pr) (t : Fin 8) (ti : TileIdx) (d a b : Operand) (m : MemExt) (w : Warp) (g : Group) (hg : GroupId)
    (gs : List Good) (u : State),
    let acquired : State → Issue → State := fun s x => if m.ord = .acq ∧ padScope m = .cl then dropAt s x.w else s
    let releases : State → Issue → Prop := fun s x =>
      m.ord = .rel → anyReq s x.w = false ∧ releaseReady s x.w (padScope m) = true
    Completes (.accz p t) always (fun s x => tileOp s x (.accz p t) t.val [])
    ∧ (d.isChan = false → Completes (.accrd h ti d a)
        (fun s x => here s x w ∧ s.group? x.gid = some g ∧ tilePending s x.gid ti.tile.val = false ∧ g.poison = [])
        (fun s x => (readLanes x d).foldl (fun r l => r.modWarp x.w fun y => putLane y d 1 l
          ((g.tileElem ti.tile.val (tileIndex ti ((srcLane s x w a 1 l).setWidth 32) l)).zeroExtend 64)) s))
    ∧ (a.isChan = false → Completes (.accwr h ti a b) (fun s x => here s x w ∧ s.group? x.gid = some g)
        (fun s x => tileOp s x (.accwr h ti a b) ti.tile.val
          (x.act.foldl (fun q l => sInsert q (tileIndex ti ((srcLane s x w b 1 l).setWidth 32) l)
            ((srcLane s x w a 1 l).setWidth 32)) [])))
    ∧ Completes (.accld p true t a b m)
        (fun s x => goes s x false ∧ tilePending s x.gid t.val = false ∧ (acquired s x).group? hg = some g
          ∧ inWindow s x m hg m.wid.bytes (tileOffs s x a b m) gs ∧ g.padPoison = [])
        (fun s x => gs.foldl (fun r e => r.modGroup x.gid fun q =>
          q.setTileElem t.val e.lane (widen m.wid.bytes (m.opx.getLsbD 0) (g.bytes e.pa m.wid.bytes)) false) (acquired s x))
    ∧ Completes (.accld p false t a b m)
        (fun s x => goes s x true ∧ tilePending s x.gid t.val = false ∧ tableRoom u x.w 1 = true
          ∧ judged s x .read m.wid.bytes false (postPlain s false (m.rt == .unc)) (tileAddrs s x a b m) gs u)
        (fun _ x =>
          let r := cleanBlocks u x gs
          askBlock r x (tileReq u x (.tileLd m.rt) t.val m
            (gs.map fun e => ⟨e.lane, e.va, e.pa, [], [], 0, false⟩) (gs.any fun e => e.sm)))
    ∧ Completes (.accst p true t a b m)
        (fun s x => goes s x false ∧ tilePending s x.gid t.val = false ∧ releases s x
          ∧ s.group? x.gid = some g ∧ inWindow s x m hg m.wid.bytes (tileOffs s x a b m) gs ∧ g.poison = []
          ∧ anyHeld s hg m.wid.bytes gs = false ∧ windowDead (padReleased s x m) x.gid hg = false)
        (fun s x => orFstat (gs.foldl (fun r e => padWrite r hg e.pa
            (narrow m.wid.bytes (m.opx.getLsbD 0) (g.tileElem t.val e.lane)).1) (padReleased s x m)) x.w
          (orAll ((List.range 4096).map fun n => (narrow m.wid.bytes (m.opx.getLsbD 0) (g.tileElem t.val n)).2)))
    ∧ Completes (.accst p false t a b m)
        (fun s x => goes s x true ∧ tilePending s x.gid t.val = false ∧ releases s x
          ∧ s.group? x.gid = some g ∧ g.poison = [] ∧ tableRoom u x.w 1 = true
          ∧ judged s x .write m.wid.bytes false (postPlain s true (m.rt == .unc)) (tileAddrs s x a b m) gs u)
        (fun _ x =>
          let low := (lanesOf x.exec).head?.getD 0
          let data := fun n : Nat => narrow m.wid.bytes (m.opx.getLsbD 0) (g.tileElem t.val n)
          let r := cleanBlocks (released u x m) x gs
          (addReq r { tileReq r x (.tileSt m.rt) t.val m
              (gs.map fun e => ⟨low, e.va, e.pa, (data e.lane).1, [], 0, false⟩) (gs.any fun e => e.sm) with
            vals := [⟨low, 0, [], 0, 0, orAll ((List.range 4096).map fun n => (data n).2)⟩] }).2)

/-- xcopy, mcast and csrg with a legal descriptor, an arrival word in the window and room in their unit become an outstanding
operation; a full unit holds the warp at the instruction, and xcopy and csrg wait for the warp's earlier accesses before they read
their descriptor (R209 to R218). -/
def Obligations.EngineOperations : Prop :=
  ∀ (p : Pr) (a b c : Operand) (xe : EngExt) (me : McExt) (ge : GatherExt) (w : Warp) (g : Group) (bs : List Byte) (u : State),
    (let d : Desc := BitVec.ofNat 2048 (ofBytes bs)
     let far : State → Issue → Addr := fun s x => srcLane s x w a 2 0 + xe.doff.signExtend 64
     let near : State → Issue → Nat := fun s x => ((srcLane s x w a 1 0).setWidth 32 + xe.doff).toNat
     let arrs : Issue → List GroupId := fun x => if d.dstk = 2 then peersOf u x.gid d.dsel else [x.gid]
     let named : State → Issue → Prop := fun s x =>
       here s x w ∧ s.group? x.gid = some g ∧ arrFault s [x.gid] xe.arr.toNat = none ∧ goes s x true
         ∧ (if xe.dsp then near s x else (far s x).toNat) % 64 = 0
     let ok : State → Issue → Prop := fun s x =>
       named s x ∧ anyReq s x.w = false
         ∧ ((xe.dsp = false ∧ readDesc s x (far s x) 256 = (.ok bs, u))
           ∨ (xe.dsp = true ∧ near s x + 256 ≤ g.winSize ∧ g.padBad (near s x) 256 = false
             ∧ g.bytes (near s x) 256 = bs ∧ u = s))
         ∧ d.ok (peerCount u x.gid) = true ∧ endpointOk u d = true ∧ arrFault u (arrs x) xe.arr.toNat = none
         ∧ outside u (d.elems u x.gid) = none
     Completes (.xcopy p a xe) (fun s x => ok s x ∧ engFull u x.gid .xcopy = false)
       (fun _ x => addEng u { EngOp.blank u x .xcopy xe.arr.toNat with
         arrs := arrs x, elems := d.elems u x.gid, desc := bs, readFirst := d.meets,
         total := ((d.elems u x.gid).map fun e => e.size).foldl (· + ·) 0 })
     ∧ Waits (.xcopy p a xe) (fun s x => named s x ∧ anyReq s x.w = true) .other
     ∧ (∀ s x, issued (.xcopy p a xe) s = some x → ok s x → engFull u x.gid .xcopy = true →
         exec (.xcopy p a xe) s = .next (holdAt u x.w .other x.set)))
    ∧ (let src : State → Issue → DWord := fun s x => srcLane s x w a 2 0
       let off : State → Issue → Nat := fun s x => ((srcLane s x w b 1 0).setWidth 32).toNat
       let mask : State → Issue → DWord := fun s x => srcLane s x w c 2 0
       let ok : State → Issue → Prop := fun s x =>
         here s x w ∧ goes s x true ∧ mask s x ≠ 0 ∧ (mask s x).toNat < 2 ^ peerCount s x.gid
           ∧ arrFault s (peersOf s x.gid (mask s x)) me.arr.toNat = none ∧ (src s x).toNat % 16 = 0
           ∧ me.sstr.toNat % 16 = 0 ∧ off s x % 16 = 0
           ∧ outside s (mcElems s x.gid (src s x) (mask s x) (off s x) me) = none
       Completes (.mcast p a b c me) (fun s x => ok s x ∧ engFull s x.gid .mcast = false)
           (fun s x =>
             let es := mcElems s x.gid (src s x) (mask s x) (off s x) me
             addEng s { EngOp.blank s x .mcast me.arr.toNat with
               arrs := peersOf s x.gid (mask s x), elems := es, readFirst := false,
               desc := bytesOf (mcFields (src s x) (mask s x) (off s x) me) 28,
               total := (es.map fun e => e.size).foldl (· + ·) 0 })
         ∧ Waits (.mcast p a b c me) (fun s x => ok s x ∧ engFull s x.gid .mcast = true) .other)
    ∧ (let off : State → Issue → Nat := fun s x => ((srcLane s x w b 1 0).setWidth 32).toNat
       let k0 : State → Issue → Nat := fun s x => ((srcLane s x w c 1 0).setWidth 32).toNat
       let named : State → Issue → Prop := fun s x =>
         here s x w ∧ s.group? x.gid = some g ∧ arrFault s [x.gid] ge.arr.toNat = none ∧ goes s x true
           ∧ (srcLane s x w a 2 0).toNat % 64 = 0
       let ok : State → Issue → Prop := fun s x =>
         named s x ∧ anyReq s x.w = false ∧ readDesc s x (srcLane s x w a 2 0) 64 = (.ok bs, u)
           ∧ field (ofBytes bs) 511 256 = 0 ∧ k0 s x % slabDepth ge.fmt = 0 ∧ off s x % 128 = 0
           ∧ off s x + (128 + 4096 * slabs ge.ns) ≤ g.winSize
       Completes (.csrg p a b c ge) (fun s x => ok s x ∧ engFull u x.gid .csrg = false)
           (fun s x => addEng u { EngOp.blank u x .csrg ge.arr.toNat with
             desc := bs, k0 := k0 s x, fmt := ge.fmt, ns := slabs ge.ns, dst := off s x,
             total := 128 + 4096 * slabs ge.ns })
         ∧ Waits (.csrg p a b c ge) (fun s x => named s x ∧ anyReq s x.w = true) .other
         ∧ (∀ s x, issued (.csrg p a b c ge) s = some x → ok s x → engFull u x.gid .csrg = true →
             exec (.csrg p a b c ge) s = .next (holdAt u x.w .other x.set)))
/-- estat reads how many operations of the group credit a word, whether one is stopping, and the word's error mark, which it
clears; ecancel with nothing to stop completes, and else marks its operations and waits (R221, R222). -/
def Obligations.EngineStatus : Prop :=
  ∀ (p : Pr) (d : Operand) (a : Option Operand) (g : Group) (w : Warp),
    let word : State → Issue → Option Nat := fun s x => a.map fun o => src32 s x o
    let key : State → Issue → Nat := fun s x => (word s x).getD allArr
    Completes (.estat p d a) (fun s x => s.group? x.gid = some g)
        (fun s x => withStatus (s.modGroup x.gid fun g => { g with errs := sSet false g.errs (key s x) false }) x d
          ((engsOf s x.gid (word s x)).length % 65536
            + (if (engsOf s x.gid (word s x)).any fun e => e.2.stopping then 2 ^ 30 else 0)
            + (if sGet false g.errs (key s x) then 2 ^ 31 else 0)))
    ∧ Completes (.ecancel p a) (fun s x => here s x w ∧ w.cancelled = false ∧ engsOf s x.gid (word s x) = []) (fun s _ => s)
    ∧ Completes (.ecancel p a)
        (fun s x => here s x w ∧ w.cancelled = true ∧ ∀ e ∈ engsOf s x.gid (word s x), e.2.stopping = false)
        (fun s x => s.modWarp x.w fun w => { w with cancelled := false })
    ∧ (∀ s x, issued (.ecancel p a) s = some x → here s x w → w.cancelled = false → engsOf s x.gid (word s x) ≠ [] →
        exec (.ecancel p a) s = .next (holdAt
          (((engsOf s x.gid (word s x)).foldl (fun (s : State) e =>
            { s with engs := sInsert s.engs e.1 { e.2 with stopping := true } }) s).modWarp x.w fun w =>
              { w with cancelled := true }) x.w .other x.set))

/-! ### What other units do -/

/-- Spin excursions, queues and waiters of a warp, tile operations of a CU (R22, R23, R32, R130, R157, R199, R203). -/
def Obligations.WarpUnitSteps : Prop :=
  ∀ (w : WarpId) (x : Warp) (l : Nat) (c : CuId) (wt : Waiter) (g : Group) (q : QOp) (rest : List QOp) (m : MatOp)
    (ms : List MatOp) (cv : Fin 8) (i : Instr),
    Happens (.spinExcursion w) (fun s => s.warp? w = some x ∧ 256 ≤ x.spin ∧ x.rep.act = false)
      (fun s => s.setWarp w { x with spin := 0, exc := excursionSet x, excCount := 0 })
    ∧ Happens (.excursionLimit w) (fun s => s.warp? w = some x ∧ x.exc ≠ 0 ∧ 1024 ≤ x.excCount ∧ x.rep.act = false)
      (fun s => s.setWarp w { x with exc := 0, excCount := 0, spin := 0 })
    ∧ Happens (.queueCompletion w true)
      (fun s => s.warp? w = some x ∧ x.sfq = q :: rest ∧ x.exited = false ∧ queueBlocked s w q = false)
      (fun s => orFstat (q.dests.foldl (fun u d => queueWrite u w d) (s.setWarp w { x with sfq := rest })) w q.flags)
    ∧ Happens (.queueCompletion w false)
      (fun s => s.warp? w = some x ∧ x.cvq = q :: rest ∧ x.exited = false ∧ queueBlocked s w q = false)
      (fun s => orFstat (q.dests.foldl (fun u d => queueWrite u w d) (s.setWarp w { x with cvq := rest })) w q.flags)
    ∧ Happens (.queueCompletion w true)
      (fun s => s.warp? w = some x ∧ x.sfq = q :: rest ∧ x.exited = true ∧ queueBlocked s w q = false)
      (fun s => q.dests.foldl (fun u d => queueWrite u w d) (s.setWarp w { x with sfq := rest }))
    ∧ Happens (.queueCompletion w false)
      (fun s => s.warp? w = some x ∧ x.cvq = q :: rest ∧ x.exited = true ∧ queueBlocked s w q = false)
      (fun s => q.dests.foldl (fun u d => queueWrite u w d) (s.setWarp w { x with cvq := rest }))
    ∧ Happens (.untrackedRetest w l)
      (fun s => (s.cus.findSome? fun e => (waiterOf e.2 w l).map fun y => (e.1, y)) = some (c, wt) ∧ wt.tracked = false
        ∧ wt.next ≤ s.fc ∧ s.group? (wt.word / 2 ^ 20) = some g
        ∧ feReady (s.cu c) g w l wt.word (wt.word % 2 ^ 20) (some wt.full) = true)
      (fun s => s.modWarp w fun y => if y.inState .fe &&& ((1 : Mask) <<< l) == 0 then y else y.setSt ((1 : Mask) <<< l) .eligible)
    ∧ Happens (.untrackedRetest w l)
      (fun s => (s.cus.findSome? fun e => (waiterOf e.2 w l).map fun y => (e.1, y)) = some (c, wt) ∧ wt.tracked = false
        ∧ wt.next ≤ s.fc ∧ s.group? (wt.word / 2 ^ 20) = some g
        ∧ feReady (s.cu c) g w l wt.word (wt.word % 2 ^ 20) (some wt.full) = false)
      (fun s => s.modCu c fun u => { u with waiters := u.waiters.map fun y =>
        if y.wid == w && y.lane == l then { y with next := s.fc + min (2 * wt.gap) 4096, gap := min (2 * wt.gap) 4096 } else y })
    ∧ Happens (.deferredMatrixIssue w cv)
      (fun s => (s.cu (cuOf (gidOf w))).defMat.contains ⟨w, cv⟩ = true ∧ s.warp? w = some x
        ∧ (x.cvReg cv.val).ins = some i ∧ matGo s w i 0 = .go)
      (fun s => matIssue (s.modCu (cuOf (gidOf w)) fun u => { u with defMat := u.defMat.filter fun e => e != ⟨w, cv⟩ }) w cv.val)
    ∧ Happens (.matrixOpComplete c)
      (fun s => (s.cu c).matq = m :: ms ∧ tileLoading s m.gid ((tileOf m.ins).getD 0) = false)
      (fun s => (applyTileOp s m).modCu c fun u => { u with matq := ms })

/-- Traps on their way. Of a warp that waits for no break, the pending asynchronous trap of the lowest cause is taken (R228, R232).
A halted warp enters its curator's queue where that has room, unless birfdb catches its trap, brk's among them in the context of
its session (the model's choice: log 56), which stops the warp once its registers are written (R229, R233, R366). The oldest
trap of the queue gets the first free place of the curator's 16 and starts at its vector, with the curator's group made where
there is none (the model's choice: log 31); a vector that is no address is a supervisor's fault (the model's choice: log 63;
R230, R231). A deadline that has run out, with a launch that is not over, sets OVR and halts its partition, and the halt
completes once its groups stand (R304, R305). -/
def Obligations.TrapSteps : Prop :=
  ∀ (w v : WarpId) (x : Warp) (t : Trap) (a : Async) (d i : Nat) (rest : List WarpId) (tag : Tag) (cause : Nat) (g : Group),
    let entry : State → Nat → Nat → Addr := fun s d c => sGet 0 s.sup.trapbase d + BitVec.ofNat 64 (64 * c)
    let place : Nat := 16 * (32 * (768 + d)) + i
    let taken : State → Prop := fun s => sFind? s.sup.traps d = some (v :: rest) ∧ s.host.off.contains 1 = false
      ∧ ((List.range 16).find? fun i => placeFree s (16 * (32 * (768 + d)) + i)) = some i ∧ s.warp? v = some x ∧ x.halt = some t
    let started : State → State := fun s => { s with
      tick := s.tick + 1
      sup := { s.sup with traps := sSet [] s.sup.traps d rest }
      warps := sInsert s.warps place { Warp.start 64 (entry s d t.cause) 0 i (i % 4) with serves := some v }
      order := s.order ++ [place] }
    Happens (.asyncTrap w)
      (fun s => s.warp? w = some x ∧ x.halt = none ∧ x.cow = none ∧ x.exited = false ∧ isSup w = false ∧ a ∈ x.asyncs
        ∧ ∀ b ∈ x.asyncs, b = a ∨ a.cause < b.cause)
      (fun s => s.setWarp w { x with
        asyncs := x.asyncs.filter fun b => b.cause != a.cause
        halt := some { cause := a.cause, addr := a.addr, code := 0, lanes := a.lanes, async := true, inrep := x.rep.act,
                       brk := false, defl := none, data := [], addr0 := 0, next := none, queued := false }
        flm := a.lanes, hold := if x.hold = .idle then .idle else .none, heldSet := 0, farRead := [] })
    ∧ Happens (.trapEnqueue w)
      (fun s => s.warp? w = some x ∧ x.halt = some t ∧ t.queued = false ∧ x.stopped = false
        ∧ (((t.brk = false ∨ s.dbg.tag ≠ some x.tag) ∧ ∀ c ∈ s.dbg.catches, c.2 ≠ (t.cause, x.tag)) ∨ w ∈ s.dbg.letGo)
        ∧ ((sFind? s.sup.traps (dieOf (cuOf (gidOf w)))).getD []).length < 1024)
      (fun s =>
        let u := s.setWarp w { x with halt := some { t with queued := true } }
        let q := (sFind? s.sup.traps (dieOf (cuOf (gidOf w)))).getD [] ++ [w]
        { u with
          sup := { u.sup with traps := sInsert u.sup.traps (dieOf (cuOf (gidOf w))) q }
          dbg := { u.dbg with letGo := u.dbg.letGo.filter fun v => v != w } })
    ∧ Happens (.trapEnqueue w)
      (fun s => s.warp? w = some x ∧ x.halt = some t ∧ t.queued = false ∧ x.stopped = false
        ∧ ((t.brk = true ∧ s.dbg.tag = some x.tag) ∨ ∃ c ∈ s.dbg.catches, c.2 = (t.cause, x.tag)) ∧ w ∉ s.dbg.letGo
        ∧ x.sfq = [] ∧ x.cvq = [] ∧ ∀ e ∈ s.reqs, e.2.wid = w → e.2.dst = none)
      (fun s =>
        let u := s.setWarp w { x with stopped := true }
        note { u with dbg := { u.dbg with
          selected := some w, stop := true, stepping := s.dbg.stepping.filter fun p => p.1 != w, lastEvt := s.fc } }
          ([5, w, (if t.async then x.issueAddr.getD 0 else t.addr0).toNat, x.flm.toNat, 1, t.addr.toNat]
            ++ if x.rep.act then [2, x.rptc.toNat] else []))
    ∧ Happens (.handlerStart d)
      (fun s => taken s ∧ s.group? (32 * (768 + d)) = some g ∧ legalVa (entry s d t.cause) = true) started
    ∧ Happens (.handlerStart d)
      (fun s => taken s ∧ s.group? (32 * (768 + d)) = none ∧ legalVa (entry s d t.cause) = true)
      (fun s => { started s with groups := sInsert s.groups (32 * (768 + d)) { curatorGroup d with seed := s.tick } })
    ∧ Happens (.handlerStart d)
      (fun s => taken s ∧ s.group? (32 * (768 + d)) = some g ∧ legalVa (entry s d t.cause) = false)
      (fun s => supervisorFault (started s) place 0x10 (entry s d t.cause))
    ∧ Happens (.handlerStart d)
      (fun s => taken s ∧ s.group? (32 * (768 + d)) = none ∧ legalVa (entry s d t.cause) = false)
      (fun s => supervisorFault { started s with
        groups := sInsert s.groups (32 * (768 + d)) { curatorGroup d with seed := s.tick } } place 0x10 (entry s d t.cause))
    ∧ Happens (.deadlineOverrun tag)
      (fun s => (s.ctx tag).deadline.getLsbD 63 = true ∧ (s.ctx tag).deadline.toNat % 2 ^ 48 = 0
        ∧ counting s tag (s.ctx tag) = true ∧ ∃ e ∈ s.launches, e.2.tag = tag ∧ launchOver s e.1 e.2 = false)
      (fun s => startHalt (s.setCtx tag { s.ctx tag with deadline := (s.ctx tag).deadline ||| 0x4000000000000000 }) tag 1)
    ∧ Happens (.partitionHalt tag cause)
      (fun s => cause ≠ 0 ∧ (s.ctx tag).halting = cause ∧ haltReady s tag = true) (fun s => haltPartition s tag)

/-- Replies: values of a load or atomic reach their warp, a store's acceptance frees its entry, refused lanes become an
asynchronous trap for each cause, and a request that has left for another package and is answered, with the values lane by lane, has
its effect on the copies held here, or meets an error, as one does that no group can carry (R143, R150, R151, R320, R413, R424). A range
operation, accdrain and icinv complete: under .sys the pools' bytes reach their devices, and accdrain reaches the remote home's
acknowledgement under .gal and .sys (R162, R163, R178). -/
def Obligations.RequestSteps : Prop :=
  ∀ (k : Nat) (r : Req) (vs : List ExtVal) (op : Nat) (home : Bool) (y : ExtReply),
    let plain : Prop := returnsValue r.kind = true ∧ ∀ rt, r.kind ≠ .tileLd rt
    let ends : Prop := r.kind.writes = true ∧ returnsValue r.kind = false ∧ r.accs ≠ []
    let sent : State → State := fun s => (depart s r).2
    let refuse : State → List RepVal → State := fun s vals =>
      ((vals.map fun v => v.cause).eraseDups).foldl (fun u c =>
        storeRefused u r.wid c ((vals.filter fun v => v.cause == c).map fun v => (v.lane, v.va))) s
    let flags : Word := orAll (r.vals.map fun v => v.flags)
    Happens (.loadReply k y) (fun s => asked s k r ∧ plain ∧ r.stage = .reply) (fun s => deliverReply s k r r.vals)
    ∧ Happens (.loadReply k y) (fun s => asked s k r ∧ r.stage = .reply ∧ ∃ rt, r.kind = .tileLd rt)
      (fun s => deliverReply (r.vals.foldl (fun u v => putTile u (gidOf r.wid) r.blk v.lane r.wid' r.sx v.cause v.bytes) s) k r r.vals)
    ∧ Happens (.loadReply k (.vals vs)) (fun s => asked s k r ∧ plain ∧ r.stage = .ext ∧ farAnswers s r = true)
      (fun s => extCascades (deliverReply (farDone (sent s) r) k r (extVals s r vs)) r.wid (.vals vs))
    ∧ Happens (.loadReply k .error) (fun s => asked s k r ∧ plain ∧ r.stage = .ext ∧ (farAnswers s r = true ∨ farRefused s r = true))
      (fun s => deliverReply (r.accs.foldl (fun u a => violate u 1 0x15 r.ctx a.pa (srcOf r.cu)) s) k r (extErrs r))
    ∧ Happens (.storeAcceptance ⟨k, y⟩) (fun s => asked s k r ∧ ends ∧ r.stage = .reply) (fun s => freeReq (orFstat s r.wid flags) k)
    ∧ Happens (.storeAcceptance ⟨k, .none⟩)
      (fun s => asked s k r ∧ ends ∧ r.kind ≠ .wback ∧ r.stage = .ext ∧ farAnswers s r = true)
      (fun s => freeReq (orFstat (farDone (sent s) (depart s r).1) (depart s r).1.wid
        (orAll ((depart s r).1.vals.map fun v => v.flags))) k)
    ∧ Happens (.storeErrorResponse ⟨k, y⟩) (fun s => asked s k r ∧ ends ∧ r.stage = .refused)
      (fun s => freeReq (orFstat (refuse s (r.vals.filter fun v => v.cause != 0)) r.wid flags) k)
    ∧ Happens (.storeErrorResponse ⟨k, y⟩)
      (fun s => asked s k r ∧ ends ∧ r.stage = .ext ∧ (farAnswers s r = true ∨ farRefused s r = true))
      (fun s => refuseFar (sent s) k (depart s r).1 y)
    ∧ Happens (.busyResend k) (fun s => asked s k r) (fun s => { s with reqs := sInsert s.reqs k r })
    ∧ (∀ rs, Happens (.rangeOpComplete k)
      (fun s => asked s k r ∧ r.kind = .range op home ∧ earlierOpen s k r = false
        ∧ rs = rangePages s r.ctx r.span.1 r.span.2 (rangeAdmits (isCurator r.cu) op) ∧ rangeStuck s r.cu r.scp rs = false)
      (fun s =>
        let u := rangeProxy (((l1Words s r.cu).filter fun w => meets rs (4 * w) 4).foldl (fun u w => rangeWord u r.cu op rs w) s)
          op rs
        let pools := if r.scp = .sys then (dirtyIn u rs).filter fun l => spaceOf u (128 * l) == .pool else []
        let v := if home then (dirtyIn u rs).foldl lineToPlinth u else u
        freeReq (pools.foldl (fun u l => lineToStore (lineToPlinth u l) l) v) k))
    ∧ (∀ (ls : List Nat) (u : State), Happens (.accdrainComplete k)
      (fun s => asked s k r ∧ r.kind = .drain ∧ earlierOpen s k r = false
        ∧ ls = ((liveLines s).filter fun l => meets (rangePages s r.ctx r.span.1 r.span.2 fun _ => true) (128 * l) 128)
        ∧ (∀ l ∈ ls, farDrained s l = true) ∧ drainLines s ls (r.scp == .gal || r.scp == .sys) = u
        ∧ ∀ e ∈ u.combines, e.2.line ∈ ls → 1024 ≤ e.2.cu ∧ r.scp ≠ .gal ∧ r.scp ≠ .sys)
      (fun _ => freeReq u k))
    ∧ Happens (.icinvComplete k) (fun s => asked s k r ∧ r.kind = .icinv ∧ ∀ e ∈ s.reqs, e.2.kind ≠ .fetch)
      (fun s =>
        let rs := rangePages s r.ctx r.span.1 r.span.2 fun _ => true
        let gone := (icScope s r.cu r.scp).foldl (fun s c => icDrop s c fun b => meets rs (b / 4 * 128) 128) s
        { gone with reqs := sErase gone.reqs k })

/-- A home serves a request by its kind (R315, R317, R325), and does to each word of it what R315's table says (log 83 and log 75
name the model's readings beside it): an own request recalls the word from another owner, invalidates the sharers and makes the
requester the owner; a wt load recalls it to clean, keeps every copy and adds the requester as a sharer; an si load does the same and
records nothing; a wt or si store leaves no copy but the requester's; an unc load leaves the owner a clean copy as a sharer; an unc
store and an atomic leave no copy. The owner's dirty bytes are at the home before the request is performed, and a store's bytes merge
there by their mask, or are accepted in the L1 of the owner. -/
def Obligations.HomeSteps : Prop :=
  (∀ (s : State) (r : Req) (w : Nat), r.sm = false → plainWord s w →
      let d := s.dir w
      (d.owner = some r.cu → ∀ rt, rt ≠ .unc → loadWord s r rt w = s)
      ∧ (d.owner ≠ some r.cu →
        (let t := loadWord s r .own w
         t.dir w = ⟨some r.cu, []⟩ ∧ granted t r.cu w .own ∧ othersGone s t w (some r.cu) ∧ writtenBack s t w)
        ∧ (let t := loadWord s r .wt w
          t.dir w = ⟨none, if (sharing s w).contains r.cu then sharing s w else sharing s w ++ [r.cu]⟩
          ∧ granted t r.cu w .wt ∧ ownerClean s t w ∧ othersKept s t w r.cu ∧ writtenBack s t w)
        ∧ (let t := loadWord s r .si w
          t.dir w = ⟨none, sharing s w⟩ ∧ (r.cu ∉ d.sharers → granted t r.cu w .si) ∧ ownerClean s t w
          ∧ othersKept s t w r.cu ∧ writtenBack s t w)
        ∧ (let t := storeWord s r .own w
          t.dir w = ⟨some r.cu, []⟩ ∧ granted t r.cu w .own ∧ othersGone s t w (some r.cu) ∧ writtenBack s t w)
        ∧ ∀ rt, rt = .wt ∨ rt = .si →
          let t := storeWord s r rt w
          t.dir w = ⟨none, d.sharers.filter fun c => c == r.cu⟩ ∧ othersGone s t w (some r.cu) ∧ writtenBack s t w)
      ∧ (let t := loadWord s r .unc w
        t.dir w = ⟨none, sharing s w⟩ ∧ ownerClean s t w ∧ othersKept s t w r.cu ∧ writtenBack s t w)
      ∧ (let t := storeWord s r .unc w
        t.dir w = ⟨none, []⟩ ∧ othersGone s t w none ∧ writtenBack s t w))
  ∧ (∀ (s : State) (r : Req) (bs : Bytes) (copies : Bool), (bs.map fun e => e.1).Nodup →
      (∀ e ∈ bs, spaceOf s e.1 = .hbm ∧ watched s (e.1 / 4) = false) →
      let t := mergeStore s r bs copies
      (∀ e ∈ bs, homeByte t e.1 = e.2) ∧ ∀ a, spaceOf s a ≠ .view → (∀ e ∈ bs, e.1 ≠ a) → homeByte t a = homeByte s a)
  ∧ (∀ (s : State) (c : CuId) (a : Nat) (b : Byte) (tag : BitVec 3) (depth : Nat) (x : L1Word), s.l1 c (a / 4) = some x →
      (l1Write s c [(a, b)] true tag depth).l1 c (a / 4) = some { x with
        data := setByteOf x.data (a % 4) b, rel := tag, dirty := x.dirty ||| ((1 : BitVec 4) <<< (a % 4)), st := .own
        depth := max x.depth depth })
  ∧ ∀ (k : Nat) (r : Req) (aop : Nat),
    (∀ q, q = .load .own ∨ q = .tileLd .own → Happens (.homeOwnRequest k) (fun s => served s k r q) (fun s => serveLoad s k r .own))
    ∧ (∀ q, q = .store .own ∨ q = .tileSt .own →
      Happens (.homeOwnRequest k) (fun s => served s k r q) (fun s => serveStore s k r .own))
    ∧ (∀ q, q = .load .wt ∨ q = .tileLd .wt → Happens (.homeWtLoad k) (fun s => served s k r q) (fun s => serveLoad s k r .wt))
    ∧ (∀ msc, Happens (.homeWtLoad k) (fun s => served s k r (.pref msc)) (fun s => servePref s k r msc))
    ∧ (∀ q, q = .load .si ∨ q = .tileLd .si → Happens (.homeSiLoad k) (fun s => served s k r q) (fun s => serveLoad s k r .si))
    ∧ (∀ q, q = .load .unc ∨ q = .tileLd .unc → Happens (.homeUncLoad k) (fun s => served s k r q) (fun s => serveLoad s k r .unc))
    ∧ (∀ q, q = .store .wt ∨ q = .tileSt .wt →
      Happens (.homeWtSiStore k) (fun s => served s k r q) (fun s => serveStore s k r .wt))
    ∧ (∀ q, q = .store .si ∨ q = .tileSt .si →
      Happens (.homeWtSiStore k) (fun s => served s k r q) (fun s => serveStore s k r .si))
    ∧ (∀ q, q = .store .unc ∨ q = .tileSt .unc →
      Happens (.homeUncStoreAtomic k) (fun s => served s k r q) (fun s => serveStore s k r .unc))
    ∧ (∀ q, q = .atom aop ∨ q = .red aop ∨ q = .cas →
      Happens (.homeUncStoreAtomic k) (fun s => served s k r q) (fun s => serveAtomic s k r)
      ∧ Happens (.plinthAt k)
        (fun s => served s k r q ∧ (∀ e ∈ s.mem.l2, e.1 / 128 ≠ r.blk) ∧ (∀ e ∈ s.mem.dir, e.1 / 32 ≠ r.blk)
          ∧ sFind? s.holders r.blk = none ∧ ∀ e ∈ s.cus, sFind? e.2.upd r.blk = none)
        (fun s => lineToPlinth (serveAtomic s k r) r.blk))

/-- Copies are recalled, invalidated, written back and evicted, in an L1 and, for another package's words, in a proxy (R309, R313,
R314, R318); a plinth answers a read of a size and alignment that it takes with data, release tags and poison marks, and accepts a
line's dirty bytes; an activate may refresh neighbours (R323, R333). -/
def Obligations.CacheSteps : Prop :=
  ∀ (c : CuId) (word line pa size : Nat) (clean act : Bool) (u : UpdLine),
    let taken : State → State := fun s => ((s.mem.dir.map fun e => e.1).filter fun w => w / 32 == line).foldl
      (fun u w => invalidateWord (recallWord u w false) w none) s
    let answered : State → State := fun s =>
      let bs := (List.range size).map fun i => plinthAnswer s (pa + i)
      s.modPlinth (plinthOf pa) fun p =>
        let r : PlinthReply :=
          { tag := (match p.reply with | some r => r.tag + 1 | none => 0)
            pa := pa
            data := bs.map fun b => b.1
            rel := (List.range (size / 4)).map fun i => s.relTag (pa / 4 + i)
            poison := (List.range (size / 32)).map fun i => ((bs.drop (32 * i)).take 32).any fun b => b.2 }
        { p with reply := some r }
    Happens (.recall c word clean) (fun s => (s.dir word).owner = some c ∧ spaceOf s (4 * word) ≠ .far)
      (fun s => recallWord s word clean)
    ∧ Happens (.recall c word clean) (fun s => spaceOf s (4 * word) = .far ∧ c = proxyUnit (4 * word))
      (fun s => proxRecall s word clean)
    ∧ Happens (.invalidate c word) (fun s => c ∈ sharersOf s word ∧ spaceOf s (4 * word) ≠ .far) (fun s => dropWord s c word)
    ∧ Happens (.invalidate c word) (fun s => spaceOf s (4 * word) = .far ∧ c = proxyUnit (4 * word) ∧ proxOf s word ≠ some .own)
      (fun s => proxDrop s word)
    ∧ Happens (.writeBack c line) (fun s => spaceOf s (128 * line) ≠ .far)
      (fun s => ((l1Words s c).filter fun w => w / 32 == line).foldl (fun t w => writeBackWord t c w) s)
    ∧ Happens (.writeBack c line) (fun s => spaceOf s (128 * line) = .far ∧ c = proxyUnit (128 * line))
      (fun s => ((s.mem.prox.map fun e => e.1).filter fun w => w / 32 == line).foldl proxClean s)
    ∧ Happens (.l1Eviction c line)
      (fun s => sFind? ((((l1Words s c).filter fun w => w / 32 == line).foldl (fun t w => flushWord t c w) s).cu c).upd line = none)
      (fun s => ((l1Words s c).filter fun w => w / 32 == line).foldl (fun t w => flushWord t c w) s)
    ∧ Happens (.l1Eviction c line)
      (fun s => sFind? ((((l1Words s c).filter fun w => w / 32 == line).foldl (fun t w => flushWord t c w) s).cu c).upd line = some u)
      (fun s => leaveLine (((l1Words s c).filter fun w => w / 32 == line).foldl (fun t w => flushWord t c w) s) c line)
    ∧ Happens (.l2Eviction line) (fun s => (taken s).mem.prox = [] ∧ (taken s).mem.accProx = [] ∧ (taken s).mem.views = [])
      (fun s => lineToPlinth { taken s with mem := { (taken s).mem with wide := sErase (taken s).mem.wide line } } line)
    ∧ Happens (.plinthRd pa size act) (fun _ => size ∉ [32, 64, 128, 256] ∨ pa % size ≠ 0) (fun s => s)
    ∧ Happens (.plinthRd pa size false) (fun _ => size ∈ [32, 64, 128, 256] ∧ pa % size = 0) answered
    ∧ Happens (.plinthRd pa size true) (fun _ => size ∈ [32, 64, 128, 256] ∧ pa % size = 0)
      (fun s => activate (answered s) (plinthOf pa))
    ∧ Happens (.plinthWr line false) (fun _ => True) (fun s => lineToPlinth s line)
    ∧ Happens (.plinthWr line true) (fun _ => True)
      (fun s => activate (lineToStore (lineToPlinth s line) line) (plinthOf (128 * line)))

/-- Accumulation regions: a join and a holder's push, each once what its CU sent to the line before it has arrived, the push's
acknowledgment, a load with a tolerance that is answered, tightens or
drains, a tightening, a full drain and a recall, by holders of the package (R371 to R375); a proxy's push and its tightening by its
remote home (R376). -/
def Obligations.RegionSteps : Prop :=
  ∀ (k line acv tol lam : Nat) (r : Req) (c : CuId) (e : Combine) (h : Holders) (u : UpdLine) (y : ExtReply),
    let limitOk : State → Prop := fun s => let q := s.holder r.blk
      q.unbounded = false ∧ 0 < tauOf tol ∧ q.list.length * q.limit ≤ tauOf tol
    let joined : State → State := fun s => combineAt s r.blk
      (r.accs.foldl (fun m a => addDelta m (a.pa % 128 / 8) (BitVec.ofNat 64 (ofBytes a.data)).toInt) [])
      (r.accs.foldl (fun m a => addTag m (a.pa % 128 / 8) r.rel) []) r.depth r.cu
    let inOrder : State → CuId → Nat → Prop := fun s c line =>
      ∀ f ∈ s.combines, f.1 < k → f.2.cu = c → f.2.line = line → f.2.acked = true
    Happens (.join k)
      (fun s => served s k r .acc ∧ inOrder s r.cu r.blk ∧ r.sm = false ∧ sFind? ((joined s).cu r.cu).upd r.blk = none)
      (fun s =>
        let t := joined s
        let u := { t with holders := sInsert t.holders r.blk (enterHolder (t.holder r.blk) r.cu) }
        let v := u.modCu r.cu fun x =>
          { x with upd := sInsert x.upd r.blk ⟨[], [], 0, 0, holderLimit u r.blk r.cu, 0, r.ctx⟩ }
        putReq v k { r with stage := .reply })
    ∧ Happens (.join k) (fun s => served s k r .acc ∧ inOrder s r.cu r.blk ∧ r.sm = true) (fun s => putReq (joined s) k { r with stage := .reply })
    ∧ Happens (.combine ⟨k, y⟩)
      (fun s => sFind? s.combines k = some e ∧ e.acked = false ∧ e.cu < 1024 ∧ inOrder s e.cu e.line
        ∧ sentJoins s e.line e.cu k = [])
      (fun s => let t := combineAt s e.line e.deltas e.tags e.depth e.cu
        { t with combines := sInsert t.combines k { e with acked := true } })
    ∧ Happens (.combine ⟨k, y⟩)
      (fun s => sFind? s.combines k = some e ∧ e.acked = false ∧ 1024 ≤ e.cu ∧ inOrder s e.cu e.line)
      (fun s => farCombine s k e y)
    ∧ Happens (.combineAck k)
      (fun s => sFind? s.combines k = some e ∧ e.acked = true ∧ (e.cu < 1024 ∨ pushSent s e = true))
      (fun s => lowerTracker { s with combines := sErase s.combines k } e.cu e.line e.mag)
    ∧ Happens (.regionLoad k) (fun s => served s k r (.accLoad acv tol) ∧ limitOk s)
      (fun s => answerRegion (settle s r.blk) k r acv)
    ∧ Happens (.regionLoad k)
      (fun s => served s k r (.accLoad acv tol) ∧ 0 < tauOf tol ∧ (s.holder r.blk).unbounded = false
        ∧ tauOf tol < (s.holder r.blk).list.length * (s.holder r.blk).limit ∧ 0 < tauOf tol / (s.holder r.blk).list.length)
      (fun s =>
        let q := s.holder r.blk
        { s with holders := sInsert s.holders r.blk { q with limit := tauOf tol / q.list.length, owing := q.far } })
    ∧ Happens (.regionLoad k) (fun s => served s k r (.accLoad acv tol) ∧ tauOf tol = 0 ∧ farDrained s r.blk = true)
      (fun s => answerRegion (drainLine s r.blk false) k r acv)
    ∧ Happens (.tightenAck k) (fun s => served s k r (.accLoad acv tol) ∧ limitOk s)
      (fun s => answerRegion (settle s r.blk) k r acv)
    ∧ Happens (.tighten c ⟨line, lam⟩)
      (fun s => spaceOf s (128 * line) ≠ .far ∧ sFind? s.holders line = some h ∧ sFind? (s.cu c).upd line = some u ∧ c ∈ h.list
        ∧ h.limit < u.limit)
      (fun s => tightenLine (settle s line) c line h.limit)
    ∧ (∀ q : ProxyLine, Happens (.tighten c ⟨line, lam⟩)
      (fun s => spaceOf s (128 * line) = .far ∧ c = proxyUnit (128 * line) ∧ sFind? s.mem.accProx line = some q ∧ lam < q.limit)
      (fun s => proxTighten s line lam))
    ∧ Happens (.fullDrain line)
      (fun s => sFind? s.mem.accProx line = none ∧ sFind? s.holders line = some h ∧ wantsDrain s line = true ∧ h.far = [])
      (fun s => drainLine s line false)
    ∧ (∀ q, q = .atom acv ∨ q = .red acv ∨ q = .cas ∨ q = .store .unc → Happens (.regionRecall line)
      (fun s => sFind? s.mem.accProx line = none ∧ sFind? s.holders line = some h ∧ h.far = []
        ∧ ∃ f ∈ s.reqs, f.2.stage = .home ∧ f.2.blk = line ∧ f.2.kind = q)
      (fun s => drainLine s line true))

/-- Triggers and counts of watched regions: a trigger that no older one of its unit keeps back is queued at the CU of its granule or
refused there, a spilled bit comes back, PEND and RUN change and reach quiescence, and a retired group is counted out once everything
that it wrote has committed, its deltas too; what has not is sent first (R389, R393, R394, R396). -/
def Obligations.TriggerSteps : Prop :=
  ∀ (k u n : Nat) (t : Trigger) (r : Region) (l : Launch) (sp : SpillRec) (p q : Int) (rest : List (Int × Int)) (i : Nat)
    (va : Addr) (pa : Nat) (o : CountOut),
    let cu := triggerCu l r t
    let offered : State → Prop := fun s => sFind? s.trigs k = some t ∧ sFind? s.regions t.region = some r
      ∧ sFind? s.launches t.launch = some l ∧ t.queued = false ∧ t.spilled = false ∧ trigHeld s r k = false
      ∧ (s.ctx l.tag).halting = 0
    let sent : State → State := fun s =>
      let v := { s with launches := sAdjust s.launches t.launch fun l => { l with counter := l.counter + 1 } }
      enqueue { v with trigs := sInsert v.trigs k { t with queued := true, refused := false, index := l.counter } } cu
        { launch := t.launch, tt := r.tt, args := [], index := l.counter, kind := .trigger k, member := false }
    let refused : State → State := fun s => { s with trigs := sInsert s.trigs k { t with refused := true } }
    let scanning : State → Prop := fun s => sFind? s.regions n = some r ∧ sFind? r.spills u = some sp ∧ sp.count ≠ 0
      ∧ unitQueue s u < 64 ∧ scanNext s u r sp.scan = some (i, va, pa)
    let cleared : State → State := fun s =>
      let v := clearSpillBit s r va u
      let left : SpillRec := ⟨sp.count - 1, if sp.count - 1 = 0 then 0 else sp.depth, i + 1⟩
      { v with regions := sAdjust v.regions n fun g => { g with spills := sInsert g.spills u left } }
    let moved : Region := { r with pend := r.pend + p, run := r.run + q, changes := rest }
    Happens (.triggerDispatch k) (fun s => offered s ∧ t.refused = false ∧ behindOlder s k t = false ∧ queueRoom s cu = true) sent
    ∧ Happens (.triggerDispatch k)
      (fun s => offered s ∧ t.refused = false ∧ behindOlder s k t = false ∧ queueRoom s cu = false) refused
    ∧ Happens (.triggerDispatch k) (fun s => sFind? s.trigs k = some t ∧ behindOlder s k t = true) (fun s => s)
    ∧ Happens (.triggerReoffer k) (fun s => offered s ∧ t.refused = true ∧ queueRoom s cu = true) sent
    ∧ Happens (.triggerReoffer k) (fun s => offered s ∧ t.refused = true ∧ queueRoom s cu = false) refused
    ∧ Happens (.spillScan u n) (fun s => scanning s ∧ pendingTrig (cleared s) n va = some (k, t))
      (fun s => { cleared s with trigs := sInsert (cleared s).trigs k { t with spilled := false, depth := sp.depth } })
    ∧ Happens (.spillScan u n) (fun s => scanning s ∧ pendingTrig (cleared s) n va = none)
      (fun s =>
        let v := (cleared s).fresh
        let g : Trigger :=
          { region := n, granule := va, gpa := pa, depth := sp.depth, index := 0, launch := r.launch, refused := false,
            queued := false, spilled := false, unit := u }
        addChange { v.2 with trigs := sInsert v.2.trigs v.1 g } n 1 0)
    ∧ Happens .pendRunChange
      (fun s => (s.regions.find? fun e => !e.2.changes.isEmpty) = some (n, r) ∧ r.changes = (p, q) :: rest
        ∧ ¬(moved.pend = 0 ∧ moved.run = 0))
      (fun s => forgetRegion (putRegion s n moved) n)
    ∧ Happens .pendRunChange
      (fun s => (s.regions.find? fun e => !e.2.changes.isEmpty) = some (n, r) ∧ r.changes = (p, q) :: rest
        ∧ moved.pend = 0 ∧ moved.run = 0 ∧ ¬(r.pend = 0 ∧ r.run = 0))
      (fun s => forgetRegion (quiesce (putRegion s n moved) n moved) n)
    ∧ Happens (.groupCountOut k)
      (fun s => sFind? s.outs k = some o ∧ (∀ e ∈ s.reqs, e.2.wid / 16 ≠ o.mark / 16) ∧ allCommitted s o.cu = true ∧ s.dbg.traces = [])
      (fun s =>
        let v := addChange { s with outs := sErase s.outs k } o.region 0 (-1)
        { v with dbg := { v.dbg with awaits := v.dbg.awaits.filter fun a => a.2 != (o.region, o.off) } })
    ∧ Happens (.groupCountOut k)
      (fun s => sFind? s.outs k = some o ∧ (∀ e ∈ s.reqs, e.2.wid / 16 ≠ o.mark / 16) ∧ allCommitted s o.cu = false)
      (fun s => sendAll s o.cu o.mark)
    ∧ Happens (.groupCountOut k) (fun s => sFind? s.outs k = some o ∧ ∃ e ∈ s.reqs, e.2.wid / 16 = o.mark / 16) (fun s => s)

/-- launch submits its record and receives the command processor's answer; enq queues a task or gives one of its refusals; a
record is accepted under the next identifier or refused; a launch is staged, its groups start, queues balance, groups retire,
and the launch completes (R11, R227, R239, R240, R285 to R297, R356). -/
def Obligations.LaunchSteps : Prop :=
  ∀ (p : Pr) (h : Hdr) (d a b c : Operand) (e : Submit) (rest : List Submit) (bs : List Byte) (v n : Nat) (l : Launch) (g : Group)
    (t u : State) (cu : CuId) (es : List (CuId × Task × Launch × Room)) (w : WarpId) (tag : Tag),
    let at_ : State → Issue → Nat × Nat := fun s x =>
      if src32 s x b = 0xFFFFFFFF then (cuX (cuOf x.gid), cuY (cuOf x.gid)) else (field (src32 s x b) 25 20, field (src32 s x b) 19 16)
    let outside : Nat × Nat → Prop := fun q => q.1 < l.x0 ∨ l.x0 + l.w ≤ q.1 ∨ q.2 < l.y0 ∨ l.y0 + l.h ≤ q.2
    let mine : State → Issue → Prop := fun s x => anyReq s x.w = false ∧ releaseReady s x.w .pkg = true ∧ releaseAt s x.w .pkg = t
      ∧ t.group? x.gid = some g ∧ sFind? t.launches g.launch = some l
    let reading : State → Issue → Prop := fun s x => (∀ q ∈ s.cpq, q.reply ≠ some x.w) ∧ anyReq s x.w = false
      ∧ (src64 s x a).toNat % 64 = 0 ∧ releaseReady s x.w .pkg = true
      ∧ readRecord (releaseAt s x.w .pkg) (.warp x.w) (tagOf s x.w) (isSup x.w) (src64 s x a) = (.ok bs, t)
    Completes (.launch p d a)
      (fun s x => (s.cpq.find? fun q => q.reply == some x.w) = some e ∧ e.result = some v)
      (fun s x => withStatus { s with cpq := s.cpq.filter fun q => q.reply != some x.w } x d v)
    ∧ Completes (.launch p d a) (fun s x => reading s x ∧ Config.cpDepth < t.cpq.length) (fun _ x => withStatus t x d 0x80000001)
    ∧ (∀ s x, issued (.launch p d a) s = some x → reading s x → t.cpq.length ≤ Config.cpDepth →
      exec (.launch p d a) s = .next (holdAt { t with cpq := t.cpq ++ [⟨tagOf s x.w, bs, some x.w, none⟩] } x.w .other x.set))
    ∧ Completes (.enq h d a b c)
      (fun s x => mine s x ∧ src32 t x a < l.types.length ∧ ¬ outside (at_ t x)
        ∧ queueRoom t (cuAt (at_ t x).1 (at_ t x).2) = true)
      (fun _ x => withStatus (enqueue { t with launches := sAdjust t.launches g.launch fun l => { l with counter := l.counter + 1 } }
        (cuAt (at_ t x).1 (at_ t x).2)
        { launch := g.launch, tt := src32 t x a, args := [loWord (src64 t x c), hiWord (src64 t x c)], index := l.counter,
          kind := .enq, member := false }) x d 0)
    ∧ Completes (.enq h d a b c) (fun s x => mine s x ∧ l.types.length ≤ src32 t x a) (fun _ x => withStatus t x d 0x80000002)
    ∧ Completes (.enq h d a b c) (fun s x => mine s x ∧ src32 t x a < l.types.length ∧ outside (at_ t x))
      (fun _ x => withStatus t x d 0x80000003)
    ∧ Completes (.enq h d a b c)
      (fun s x => mine s x ∧ src32 t x a < l.types.length ∧ ¬ outside (at_ t x)
        ∧ queueRoom t (cuAt (at_ t x).1 (at_ t x).2) = false)
      (fun _ x => withStatus t x d 0x80000001)
    ∧ Happens .launchRecord
      (fun s => s.cpq = e :: rest ∧ e.result = none ∧ e.reply = some w ∧ acceptLaunch s e.tag e.bytes = (v, t))
      (fun _ => fillAll { t with cpq := { e with result := some v } :: rest })
    ∧ Happens .launchRecord
      (fun s => s.cpq = e :: rest ∧ e.result = none ∧ e.reply = none ∧ acceptLaunch s e.tag e.bytes = (v, t))
      (fun _ => fillAll { t with cpq := rest })
    ∧ (recordOk u tag bs = false → acceptLaunch u tag bs = (0x80000002, u))
    ∧ (recordOk u tag bs = true → (acceptLaunch u tag bs).1 = if u.launchId = 0xFFFFFF then 1 else u.launchId + 1)
    ∧ Happens (.stagingComplete n []) (fun s => sFind? s.launches n = some l ∧ l.staged = false ∧ l.ws = [])
      (fun s => fillLaunch { s with launches := sAdjust s.launches n fun x => { x with staged := true } } n)
    ∧ Happens (.groupStart cu) (fun s => startable s cu = some es)
      (fun s => fillAll (es.foldl (fun s e => startTask (popTask (setSplit s e.1 e.2.2.1.spl) e.1) e.1 e.2.1 e.2.2.2) s))
    ∧ Happens .balanceExchange (fun s => s.exch = 0) (fun s => s)
    ∧ Happens .balanceExchange (fun s => s.exch ≠ 0)
      (fun s => fillAll (exchange
        (startHeads { s with exch := s.exch - 1 } [] ((s.cus.filter fun e => !e.2.queue.isEmpty).map fun e => e.1))))
    ∧ Happens (.groupRetire n)
      (fun s => s.group? n = some g ∧ retirable s n g = true ∧ g.trig = none ∧ s.saved = [])
      (fun s => freeGroup (orphan (dropWarps (barLeave s g.gname) n) n g.launch) n g)
    ∧ Happens (.launchCompletion n)
      (fun s => sFind? s.launches n = some l ∧ launchOver s n l = true) (fun s => endLaunch s n l)
    ∧ Happens (.launchCompletion n)
      (fun s => sFind? s.launches n = some l ∧ launchOver s n l = false) (fun s => tellHolds s n l)

/-- ctxsave, ctxload and what moves contexts: a group is saved once it stands, pre-empted for a switch, and the next context's
turn begins; a CU flushes what it holds of a context (R247, R248, R306, R360, R363). -/
def Obligations.ContextSteps : Prop :=
  ∀ (p : Pr) (d a b : Operand) (g : GroupId) (gr : Group) (u v : State) (ps : List Nat) (bs : List Byte) (r : Record)
    (room : Room) (tag other : Tag) (cu : CuId),
    let asked : State → State := fun s => (clusterOf s g).foldl (fun s h => askStop s h true) s
    let stopped : State → State := fun s => (clusterOf s g).foldl stopGroup (asked s)
    let bytes : State → List Byte := fun s => saveBytes (stopped s) (snapshot (stopped s) g (((stopped s).group? g).getD gr))
    let named : State → Issue → Prop := fun s x => goes s x true ∧ handleGroup s (src32 s x b) s.sup.ctxsel = some (g, gr)
      ∧ (src64 s x a).toNat % 128 = 0
    let free : State → Prop := fun s => ∀ w ∈ s.warpsOf g, ∀ y, s.warp? w = some y → y.halt = none
    let slot : State → Issue → Nat := fun s x => field (src32 s x b) 15 11
    let launch : State → Launch → Prop := fun s l => sFind? s.launches r.saved.group.launch = some l
    let good : State → Issue → Prop := fun s x => goes s x true ∧ (src64 s x a).toNat % 128 = 0
      ∧ savedBytes s (.warp x.w) (tagOf s x.w) (isSup x.w) (src64 s x a) = (.ok (some bs), u) ∧ readSaved bs = some r
    let placed : State → Issue → Prop := fun s x => good s x ∧ recordFits u r = true ∧ handleCu (src32 s x b) = some cu
    Waits (.ctxsave p d a b) (fun s x => heldBack s x.w true = true) .other
    ∧ Waits (.ctxload p d a b) (fun s x => heldBack s x.w true = true) .other
    ∧ Completes (.ctxsave p d a b) (fun s x => goes s x true ∧ handleGroup s (src32 s x b) s.sup.ctxsel = none)
      (fun s x => withStatus s x d 0x80000002)
    ∧ Completes (.ctxsave p d a b)
      (fun s x => named s x ∧ ∃ w ∈ s.warpsOf g, ∃ y, s.warp? w = some y ∧ y.halt ≠ none)
      (fun s x => withStatus ((clusterOf s g).foldl (fun s h => askStop s h false) s) x d 0x80000001)
    ∧ Completes (.ctxsave p d a b)
      (fun s x => named s x ∧ free s ∧ (∀ h ∈ clusterOf s g, stands (asked s) h false = true)
        ∧ virtPas (stopped s) (cuOf x.gid) (tagOf (stopped s) x.w) (isSup x.w) (src64 s x a) (bytes s).length = (.ok ps, v))
      (fun s x => withStatus (saveDone (writePas v ps (bytes s)) g gr) x d 0)
    ∧ (∀ s x, issued (.ctxsave p d a b) s = some x → named s x → free s → (∃ h ∈ clusterOf s g, stands (asked s) h false = false) →
      exec (.ctxsave p d a b) s = .next (holdAt (asked s) x.w .other x.set))
    ∧ (∀ l, Completes (.ctxload p d a b)
      (fun s x => placed s x ∧ launch u l ∧ savedRoom u r.saved cu l.spl = some room
        ∧ u.group? (32 * cu + slot s x) = none ∧ suits u r cu = true)
      (fun s x =>
        let drop : Launch → Launch := fun l => { l with savedOut := l.savedOut.filter fun o => o.1 != r.saved.group.index }
        let q := { u with launches := sAdjust u.launches r.saved.group.launch drop }
        withStatus (placeSaved q r.saved cu l.spl { room with slot := slot s x }) x d 0))
    ∧ (∀ l, Completes (.ctxload p d a b)
      (fun s x => placed s x ∧ launch u l ∧ (savedRoom u r.saved cu l.spl = none
        ∨ u.group? (32 * cu + slot s x) ≠ none ∨ suits u r cu = false))
      (fun _ x => withStatus u x d 0x80000004))
    ∧ Completes (.ctxload p d a b)
      (fun s x => good s x ∧ recordFits u r = true ∧ 48 ≤ field (src32 s x b) 25 20) (fun _ x => withStatus u x d 0x80000004)
    ∧ Completes (.ctxload p d a b) (fun s x => good s x ∧ recordFits u r = false) (fun _ x => withStatus u x d 0x80000003)
    ∧ Happens (.preemption g)
      (fun s => s.group? g = some gr ∧ (∃ q, s.sup.switching = some (gr.tag, q))
        ∧ (∀ h ∈ clusterOf s g, stands s h false = true ∧ ∀ w ∈ s.warpsOf h, ∀ y, s.warp? w = some y → y.preempt = true))
      (fun s => saveCluster s (clusterOf s g))
    ∧ Happens (.contextSwitch tag other)
      (fun s => switchDue s tag other = true ∧ groupsOf s tag ≠ [])
      (fun s =>
        let q := (groupsOf s tag).foldl (fun s g => askStop s g true) s
        { q with sup := { s.sup with switching := some (tag, other) } })
    ∧ Happens (.contextSwitch tag other)
      (fun s => switchDue s tag other = true ∧ groupsOf s tag = [])
      (fun s =>
        let q := setAside (s.modCtx tag fun c => { c with out := hasLaunch s tag }) tag
        let q := admitWaiting (if (q.ctx other).out then q else q.modCtx other fun c => { c with turn := q.fc })
        fillAll (restoreSaved { q with sup := { q.sup with switching := none } }))
    ∧ Happens (.flushByTag cu tag) (fun s => ∀ e ∈ (movedFlush (flushTag s cu tag) cu tag).groups, ¬(e.2.tag = tag ∧ e.2.home = cu))
      (fun s => movedFlush (flushTag s cu tag) cu tag)

/-- Translations: a warp's copy-on-write breaks, page by page, and its replay, which traps with cause 0x12 only where no page could
be broken, a migration's end or error, one that is abandoned because its entry has changed (the model's reading: log 86), a publish, a
removal of translations (R344, R348, R349, R353, R355). -/
def Obligations.TranslationSteps : Prop :=
  ∀ (w : WarpId) (x : Warp) (c : Cow) (p : CowPage) (t : State) (k : Nat) (m : Mig) (bs : List Byte) (e : BitVec 64) (addr lv arr : Nat)
    (h : WarpId) (q : Publish) (rest : List Publish) (r : Tlbi),
    let gone : State → State := fun s => { s with migs := sErase s.migs k }
    let waiting : State → Prop := fun s => s.warp? w = some x ∧ x.cow = some c
    let next : State → Prop := fun s => waiting s ∧ (c.pages.find? fun p => p.ends.isNone) = some p
    let ended : Bool → Cow := fun ok => { c with pages := c.pages.map fun q => if q == p then { q with ends := some ok } else q }
    let broken : State → Prop := fun s => waiting s ∧ ∀ p ∈ c.pages, p.ends ≠ none
    Happens (.copyOnWriteBreak w) (fun s => next s ∧ breakPage s x.tag p.va none (some p.pte) = .done t)
      (fun _ => t.modWarp w fun y => { y with cow := some (ended true) })
    ∧ Happens (.copyOnWriteBreak w) (fun s => next s ∧ breakPage s x.tag p.va none (some p.pte) = .noFrame)
      (fun s => s.modWarp w fun y => { y with cow := some (ended false) })
    ∧ Happens (.copyOnWriteBreak w) (fun s => next s ∧ breakPage s x.tag p.va none (some p.pte) = .wait) (fun s => s)
    ∧ Happens (.cowReplay w) (fun s => broken s ∧ (c.pages = [] ∨ ∃ p ∈ c.pages, p.ends = some true))
      (fun s => s.setWarp w { x with cow := none, hold := .none, heldSet := 0 })
    ∧ Happens (.cowReplay w)
      (fun s => waiting s ∧ c.pages.head? = some p ∧ (∀ p ∈ c.pages, p.ends = some false) ∧ x.halt = none)
      (fun s => takeTrap (s.setWarp w { x with cow := none, hold := .none, heldSet := 0 }) w
        { cause := 0x12, addr := p.va, code := 0, lanes := c.lanes, async := false, inrep := x.rep.act, brk := false,
          defl := none, data := [], addr0 := c.pc, next := some c.next, queued := false })
    ∧ Happens (.migrationComplete k bs)
      (fun s => sFind? s.migs k = some m ∧ walk (gone s) m.tag m.va = .leaf e addr lv
        ∧ e.toNat = setField m.oldPte.toNat 53 52 3 ∧ m.arr = some (h, arr) ∧ arrHeld s (gidOf h) arr = false)
      (fun s => credit (settleFrames (installMig (moveBytes (gone s) m bs) m addr) m) (gidOf h) arr
        (if m.twin.isSome then 131072 else 65536) false)
    ∧ Happens (.migrationError k)
      (fun s => sFind? s.migs k = some m ∧ m.arr = some (h, arr) ∧ arrHeld s (gidOf h) arr = false)
      (fun s => credit (markMov (violate (gone s) 6 0x15 m.tag m.va.toNat noSrc) m false) (gidOf h) arr
        (if m.twin.isSome then 131072 else 65536) true)
    ∧ Happens (.migrationComplete k bs)
      (fun s => sFind? s.migs k = some m ∧ walk (gone s) m.tag m.va = .leaf e addr lv
        ∧ e.toNat ≠ setField m.oldPte.toNat 53 52 3 ∧ m.arr = some (h, arr) ∧ arrHeld s (gidOf h) arr = false)
      (fun s => credit (markMov (gone s) m false) (gidOf h) arr (if m.twin.isSome then 131072 else 65536) true)
    ∧ Happens .publishFlip
      (fun s => s.pubs = q :: rest ∧ ∀ i ∈ q.reqs, ∀ f, sFind? s.reqs i = some f → f.stage ≠ .home)
      (fun s => { flipSet s q.tag q.set with pubs := rest })
    ∧ Happens (.tlbiComplete k) (fun s => sFind? s.tlbis k = some r ∧ r.done = false)
      (fun s =>
        let u := { s with tlbs := s.tlbs.filter fun e => !r.kind.names e }
        { u with tlbis := sInsert u.tlbis k { r with done := true, reqs := tlbiReqs u r.kind } })
    ∧ Happens (.tlbiComplete k)
      (fun s => sFind? s.tlbis k = some r ∧ r.done = true
        ∧ ∀ i ∈ r.reqs, ∀ f, sFind? s.reqs i = some f → f.stage ≠ .home ∧ f.stage ≠ .ext)
      (fun s => { s with tlbis := sErase s.tlbis k })

/-- Engine operations: a cancelled one ends with ERR for what it has not moved, an element goes from its source to its
destination with its bytes credited, a page is staged, or its flash read fails and ends the operation (R213 to R216, R222). -/
def Obligations.EngineSteps : Prop :=
  ∀ (k : Nat) (e : EngOp) (y : ExtReply) (q : Elem) (bs : List Byte) (po : Bool) (p : EPlace) (t u : State) (va : Addr) (n a : Nat)
    (d : List Byte),
    let ready : State → Prop := fun s => sFind? s.engs k = some e ∧ e.stopping = false ∧ e.ended = false
      ∧ ∀ r ∈ e.after, sFind? s.reqs r = none
    let staged : State → State := fun s =>
      let r := stagePage s e.tag va (dieOf e.cu) (some bs)
      if r.2 then endErr (violate r.1 6 0x15 e.tag va.toNat (srcOf e.cu)) k e else r.1
    let one : State → Prop := fun s => ready s ∧ e.kind ≠ .csrg ∧ e.readFirst = false ∧ e.elems = [q] ∧ q.val = none
      ∧ q.dst = [p] ∧ dstHeld s q q.size = false
    Happens (.engineElementDelivery k y)
      (fun s => sFind? s.engs k = some e ∧ (e.stopping = true ∨ e.ended = true) ∧ ∀ g ∈ e.arrs, arrHeld s g e.arr = false)
      (fun s => e.arrs.foldl (fun u g => credit u g e.arr (e.left g) true)
        (noteErr { s with engs := sErase s.engs k } e.gid e.arr))
    ∧ Happens (.engineElementDelivery k y)
      (fun s => one s ∧ engRead s e q.src q.size y = (.data bs po, t) ∧ arrHeld t (creditGroup e p) e.arr = false
        ∧ engWrite t e p bs po y = (.data d false, u))
      (fun _ =>
        let v := credit u (creditGroup e p) e.arr q.size false
        let v := { v with engs := sErase v.engs k }
        if e.overran || overruns u (creditGroup e p) e.arr q.size then noteErr v e.gid e.arr else v)
    ∧ Happens (.engineElementDelivery k y) (fun s => one s ∧ engRead s e q.src q.size y = (.absent, t)) (fun _ => t)
    ∧ Happens (.engineElementDelivery k y) (fun s => one s ∧ engRead s e q.src q.size y = (.fail n a, t))
      (fun _ => endErr (violate t 6 n e.tag a (srcOf e.cu)) k e)
    ∧ Happens (.engineElementDelivery k y) (fun s => ready s ∧ e.kind = .csrg) (fun s => gatherStep s k e y)
    ∧ Happens (.enginePageStage k bs)
      (fun s => sFind? s.engs k = some e ∧ e.kind ≠ .csrg ∧ (engNext e).find? (fun v => (stageable s e.tag v).isSome) = some va)
      (fun s => staged s)
    ∧ Happens (.enginePageStage k bs)
      (fun s => sFind? s.engs k = some e ∧ e.kind = .csrg
        ∧ (csrgAbsent s e).find? (fun v => (stageable s e.tag v).isSome) = some va)
      (fun s => staged s)

/-- Port groups: a write of PGCTL starts a switch, which quiesces, drains, remaps, trains and is announced, or fails with its
cause; a link or wavelength is lost (R403, R405, R406, R412 to R416). -/
def Obligations.PortGroupSteps : Prop :=
  ∀ (p : Pr) (a : Operand) (i : BitVec 8) (g : Fin 16) (code : Fin 2) (pair wave line : Nat),
    let n := g.val
    let written : State → Issue → State := fun s x =>
      let u := setPgAll { s with fab := { s.fab with switched := true } } 51 16 (bits (src64 s x a) 51 16)
      setPg (setPg u i.toNat 63 62 (bits (src64 s x a) 63 62)) i.toNat 15 12 (bits (src64 s x a) 15 12)
    let lost : State → State := fun s =>
      raiseSvc (setPgState { s with fab := { s.fab with
        loss := sSet false s.fab.loss n true, dark := sSet false s.fab.dark n true } } n 2) 8
    let retired : State → State := fun s => raiseSvc { s with fab := { s.fab with retired := s.fab.retired ++ [(n, pair, wave)] } } 8
    let dead : State → Bool := fun s =>
      (List.range (linkBand (retired s) n wave).2).all fun j =>
        (retired s).fab.retired.contains (n, pair, (linkBand (retired s) n wave).1 + j)
    let may : State → Prop := fun s => pair < 4 ∧ wave < 64 ∧ (pgState s n = 1 ∨ pgState s n = 5) ∧ (n, pair, wave) ∉ s.fab.retired
    Waits (.pgctlWrite p a i) (fun s _ => 2 ≤ pgState s i.toNat) .other
    ∧ Completes (.pgctlWrite p a i) (fun s x => pgState s i.toNat < 2 ∧ pgState (written s x) i.toNat = 0)
      (fun s x => remap (written s x) i.toNat)
    ∧ Completes (.pgctlWrite p a i) (fun s x => pgState s i.toNat < 2 ∧ pgState (written s x) i.toNat ≠ 0)
      (fun s x => setPg (written s x) i.toNat 59 57 2)
    ∧ Happens (.switchQuiesceDone g) (fun s => pgState s n = 2) (fun s => setPg s n 59 57 3)
    ∧ Happens (.switchDrainDone g) (fun s => pgState s n = 3 ∧ planeBusy s n = false ∧ pgPers s n ≠ 2) (fun s => remap s n)
    ∧ Happens (.switchDrainDone g)
      (fun s => pgState s n = 3 ∧ planeBusy s n = false ∧ pgPers s n = 2 ∧ ∀ r ∈ hdmRanges s n, farHolds s r.1 r.2 = false)
      (fun s => remap ((hdmRanges s n).foldl (fun s r => drainRange s r.1 r.2) s) n)
    ∧ Happens (.switchDrainDone g) (fun s => pgState s n ≠ 3 ∨ planeBusy s n = true) (fun s => s)
    ∧ Happens (.retrainLock g) (fun s => pgState s n = 5 ∧ 3 ∉ s.host.off ∧ linksLit s n = true) (fun s => setPg s n 59 57 6)
    ∧ Happens (.retrainLock g) (fun s => linksLit s n = false) (fun s => s)
    ∧ Happens (.retrainTimeout g) (fun s => pgState s n = 5) (fun s => switchOff s n 2)
    ∧ Happens (.announceDone g) (fun s => pgState s n = 6)
      (fun s =>
        let u := { s with fab := { s.fab with
          quiet := sErase s.fab.quiet n, tabs := sAdjust s.fab.tabs n fun t => { t with was := [] } } }
        setPg (setPg u n 61 60 (pgReq u n)) n 59 57 1)
    ∧ Happens (.announceFailure g code) (fun s => pgState s n = 6) (fun s => switchOff s n (3 + code.val))
    ∧ Happens (.linkLoss g) (fun s => pgState s n = 1) lost
    ∧ Happens (.linkLoss g) (fun s => pgState s n = 2 ∨ pgState s n = 3)
      (fun s => { s with fab := { s.fab with dark := sSet false s.fab.dark n true } })
    ∧ Happens (.farEndQuiesce g) (fun s => pgState s n = 1)
      (fun s => { s with fab := { s.fab with quiet := sSet false s.fab.quiet n true } })
    ∧ Happens (.wavelengthRetire g pair wave) (fun s => may s ∧ dead s = false) retired
    ∧ Happens (.wavelengthRetire g pair wave) (fun s => may s ∧ dead s = true ∧ pgState (retired s) n = 1)
      (fun s => lost (retired s))
    ∧ Happens (.drainFailure g)
      (fun s => pgState s n = 3 ∧ pgPers s n = 2 ∧ ((hdmRanges s n).flatMap fun r => dirtyLines s r.1 r.2) = [line])
      (fun s => switchOff (dropLine s line) n 5)

/-- Requests of other packages at their homes: one whose turn has come is applied, refused, keeps its stream frozen or enters the
store log, each with its response; another is held, a duplicate's response is sent again; the log is replayed; streams freeze, a relay
forwards or logs, and a pool's lines and extents leave, once proxies of other packages have given up what they own (R335, R336, R404,
R419 to R426, R428; logs 15, 43 and 75 name the model's choices among them). -/
def Obligations.RemoteSteps : Prop :=
  ∀ (q : UalReq) (g : Fin 16) (dst pkg : BitVec 8) (die : BitVec 3) (agent : BitVec 21) (line base len : Nat),
    let t : State → Stream := fun s => s.stream (ualKey q)
    let turn : State → Prop := fun s => (∃ n < 16, pgPers s n = 1 ∧ 1 ≤ pgState s n ∧ pgState s n ≤ 3)
      ∧ ualFits q = true ∧ (t s).has q = false ∧ (t s).ahead q < 1024
    let first : State → Prop := fun s => turn s ∧ (t s).may q = true
      ∧ ((t s).frozen = false ∨ (t s).held.head? = some q) ∧ ∀ x, (t s).waits = some x → x = q
    let goes : State → Prop := fun s => first s ∧ ualWaits s q = false
    let faults : State → Prop := fun s => goes s ∧ ualRefused s q = false
      ∧ ∃ b ∈ ualBlocks q, spaceOf s (128 * b) = .hbm ∧ frameFlag s (128 * b) 30 = true
    let room : State → Prop := fun s => (logPut s + 2 ^ 32 - logGet s) % 2 ^ 32 + (ualBlocks q).length ≤ 63
    let thawed : State → Stream := fun s => { t s with frozen := false }
    let ended : State → Stream → UalReply → State := fun u r y => respond (u.setStream (ualKey q) (r.mark q y.bytes)) y
    let refusal : State → UalReply := fun s => ualPlain q (if spaceOf s q.pa == .view && 0 < q.kind then .view else .refused)
    let queued : State → Stream → State := fun s r =>
      s.setStream (ualKey q) { r with held := if r.held.contains q then r.held else r.held ++ [q] }
    let lines : State → List Nat := fun s =>
      let held : List Nat := (s.cus.flatMap fun f => f.2.l1.map fun w => w.1 / 32)
        ++ ((s.mem.l2 ++ s.mem.msc).map fun f => f.1 / 128) ++ s.mem.dir.map fun f => f.1 / 32
      held.eraseDups.filter fun l => base ≤ 128 * l && 128 * l < base + len
    let e : State → Nat := fun s => sGet 0 ((sFind? s.fab.tabs g.val).getD PgTab.empty).relay dst.toNat
    let revoked : State → State := fun s =>
      { s with fab := { s.fab with releasing := s.fab.releasing.erase (base, len), gone := s.fab.gone ++ [(base, len)] } }
    Happens (.ualRequest q)
      (fun s => goes s ∧ ualRefused s q = false
        ∧ ∀ b ∈ ualBlocks q, spaceOf s (128 * b) = .hbm → frameFlag s (128 * b) 30 = false)
      (fun s => ended (ualApply (ualReady s q) q) (thawed s) (ualAnswer (ualReady s q) q))
    ∧ Happens (.ualRequest q) (fun s => goes s ∧ ualRefused s q = true ∧ isCombine q = true)
      (fun s => ended (refuseCombine s (q.pa / 128)) (thawed s) (refusal s))
    ∧ Happens (.ualRequest q) (fun s => goes s ∧ ualRefused s q = true ∧ isCombine q = false)
      (fun s => ended (violate s 1 0x15 0 q.pa noSrc) (thawed s) (refusal s))
    ∧ Happens (.ualRequest q) (fun s => faults s ∧ (s.fab.gallery.length ≤ 32 ∨ isCombine q = true))
      (fun s => s.setStream (ualKey q)
        { t s with frozen := true, held := if (t s).held.contains q then (t s).held else q :: (t s).held })
    ∧ Happens (.ualRequest q) (fun s => faults s ∧ 32 < s.fab.gallery.length ∧ (q.kind = 1 ∨ q.kind = 2) ∧ room s)
      (fun s => ended (logStore s q) { t s with logged := (t s).logged ++ [q] } (ualPlain q .done))
    ∧ Happens (.ualRequest q) (fun s => faults s ∧ 32 < s.fab.gallery.length ∧ q.kind = 8 ∧ room s)
      (fun s => ended (ualDisown (logStore s q) q) { t s with logged := (t s).logged ++ [q] } (ualPlain q .done))
    ∧ Happens (.ualRequest q)
      (fun s => faults s ∧ 32 < s.fab.gallery.length ∧ (q.kind = 1 ∨ q.kind = 2 ∨ q.kind = 8) ∧ ¬ room s)
      (fun s => respond s (ualPlain q .busy))
    ∧ Happens (.ualRequest q) (fun s => faults s ∧ 32 < s.fab.gallery.length ∧ (q.kind = 0 ∨ q.kind = 3 ∨ q.kind = 4))
      (fun s => ended s (t s) (ualPlain q .refused))
    ∧ Happens (.ualRequest q)
      (fun s => turn s ∧ ((t s).may q = false ∨ ((t s).frozen = true ∧ (t s).held.head? ≠ some q)
        ∨ ∃ x, (t s).waits = some x ∧ x ≠ q))
      (fun s => queued s (t s))
    ∧ Happens (.ualRequest q) (fun s => first s ∧ ualWaits s q = true ∧ 2 ≤ q.kind ∧ q.kind ≤ 4)
      (fun s => queued (ualAsk s q) { t s with waits := some q })
    ∧ Happens (.ualRequest q) (fun s => first s ∧ ualWaits s q = true ∧ ¬ (2 ≤ q.kind ∧ q.kind ≤ 4))
      (fun s => queued (ualAsk s q) (t s))
    ∧ Happens (.ualRequest q)
      (fun s => (∃ n < 16, pgPers s n = 1 ∧ 1 ≤ pgState s n ∧ pgState s n ≤ 3) ∧ ualFits q = true ∧ (t s).has q = true)
      (fun s => ualAgain s q)
    ∧ Happens .storeLogReplay (fun s => logGet s = logPut s ∨ s.fab.notices = 0) (fun s => s)
    ∧ (∀ s k pa, Happens .storeLogReplay
      (fun u => u = s ∧ logGet s = k ∧ k ≠ logPut s ∧ s.fab.notices ≠ 0
        ∧ bits (BitVec.ofNat 2048 (coherentNat s (logAddr s k) 256)) 63 0 = pa
        ∧ spaceOf s pa = .hbm ∧ frameFlag s pa 30 = false ∧ frameFlag s pa 31 = false
        ∧ (s.stream (bits (BitVec.ofNat 2048 (coherentNat s (logAddr s k) 256)) 103 72)).logged = [q]
        ∧ q.seq.toNat = bits (BitVec.ofNat 2048 (coherentNat s (logAddr s k) 256)) 127 104 ∧ ualBlocks q = [pa / 128])
      (fun u =>
        let e := BitVec.ofNat 2048 (coherentNat u (logAddr u k) 256)
        let bs : Bytes := ((List.range 128).filter fun i => bit e (896 + i)).map fun i => (pa + i, e.extractLsb' (1024 + 8 * i) 8)
        let v := rawWriteNat { u with fab := { u.fab with notices := u.fab.notices - 1 } } (logBase u + 4) ((k + 1) % 2 ^ 32) 4
        (replayEntry v q bs).setStream (bits e 103 72) { u.stream (bits e 103 72) with logged := [] }))
    ∧ Happens (.freeze pkg die agent) (fun _ => True)
      (fun s => { s with fab := { s.fab with frozenOut := sSet false s.fab.frozenOut (streamKey pkg die agent) true } })
    ∧ Happens (.resume pkg die agent) (fun _ => True)
      (fun s => { s with fab := { s.fab with frozenOut := sSet false s.fab.frozenOut (streamKey pkg die agent) false } })
    ∧ Happens (.relayForward g dst q)
      (fun s => dst.toNat ≠ s.fab.pkg ∧ pgActive s g.val 1 = true ∧ 128 ≤ e s
        ∧ ∃ c, sGet 0 ((sFind? s.fab.tabs g.val).getD PgTab.empty).circ (field (e s) 5 0) = c ∧ 2 ^ 15 ≤ c ∧ field c 7 0 = dst.toNat)
      (fun s => s)
    ∧ Happens (.relayForward g dst q) (fun s => dst.toNat ≠ s.fab.pkg ∧ (pgActive s g.val 1 = false ∨ e s < 128))
      (fun s => respond (violate s 5 0x15 0 q.pa noSrc) (ualPlain q .refused))
    ∧ Happens .inboundRmaRequest (fun _ => True) (fun s => s)
    ∧ Happens (.backInvalidate line) (fun s => spaceOf s (128 * line) = .pool ∧ farHolds s (128 * line) 128 = false)
      (fun s => drainRange s (128 * line) 128)
    ∧ Happens (.backInvalidate line) (fun s => spaceOf s (128 * line) = .pool ∧ farHolds s (128 * line) 128 = true)
      (fun s => farAsk s (128 * line) 128)
    ∧ Happens (.dynamicCapacityRelease base len) (fun s => inPool s base len = true ∧ farHolds s base len = false)
      (fun s => revoked (drainRange s base len))
    ∧ Happens (.dynamicCapacityRelease base len)
      (fun s => inPool s base len = true ∧ farHolds s base len = true ∧ (base, len) ∉ (farAsk s base len).fab.releasing)
      (fun s =>
        let u := farAsk s base len
        { u with fab := { u.fab with releasing := u.fab.releasing ++ [(base, len)] } })
    ∧ Happens (.forcedRevocation base len)
      (fun s => inPool s base len = true)
      (fun s => revoked ((lines s).foldl dropLine s))

/-- The host: queue registers and entries, mailbox commands with their codes and ranges, recording and rerunning (R430 to R436, R438,
R440, R444 to R446; logs 11, 90, 92 and 93 name the model's choices among them). A command's arguments stand in MBARG while it runs. -/
def Obligations.HostSteps : Prop :=
  ∀ (q : Fin 64) (v mask : Word) (n us base size watts frame k : Nat) (t dst : Tag) (nonce bs : List Byte) (image : Firmware)
    (remain : BitVec 48) (ids : List Nat) (u z : State) (a : Addr) (hq : HostQ) (area : Nat × Nat) (x : Import) (p : Snap),
    let up : State → Prop := fun s => s.host.verified = true
    let takes : Nat → List (Nat × Nat) → State → Prop := fun c args s => mbTakes s c args = true ∧ mbFits s args = true
    let turn : State → Prop := fun s => queueTurn s = some q.val
      ∧ ((s.host.busy = none ∧ s.hostq q.val = hq) ∨ s.host.busy = some (q.val, hq))
      ∧ BitVec.ofNat 64 (coherentNat s (hq.base.toNat + 16 * hq.head) 8) = a
    let reads : State → Prop := fun s => turn s ∧ bit (s.ctx hq.tag).ptbase 0 = true ∧ a.toNat % 64 = 0
    let due : State → Prop := fun s => snapshotDue s t = true ∧ snapLacks s t = [] ∧ snapHeld s t = []
    let whole : State → Prop := fun s => up s ∧ mbBusy s = false ∧ nonce.length = 48
    let stopped : Snap → Nat → State → State := fun p st s =>
      let c := s.ctx t
      let u := if p.ok && c.recPut + 8 ≤ p.top then physWrite p.s (c.recBase + c.recPut) (bytesOf 0 8) else p.s
      let u := u.modCtx t fun c => { c with armed := false, recording := false, recPut := 0, recSize := p.top }
      mbStat { u with host := { u.host with mbcmd := 7 } } st
    Happens (.qtail q v) (fun s => up s ∧ v.toNat < (s.hostq q.val).size)
      (fun s => s.setHostq q.val { s.hostq q.val with tail := v.toNat })
    ∧ Happens (.qtail q v) (fun s => up s ∧ (s.hostq q.val).size ≤ v.toNat)
      (fun s => violate s 7 0 (s.hostq q.val).tag (0x1000 + 32 * q.val + 0x10) noSrc)
    ∧ Happens (.qcfg q v) (fun s => up s ∧ bit (s.hostq q.val).cfg 31 = false ∧ bits v 27 24 ≤ 12)
      (fun s => s.setHostq q.val { s.hostq q.val with
        cfg := BitVec.ofNat 64 (bits v 31 31 * 2 ^ 31 + bits v 27 24 * 2 ^ 24 + bits v 15 0) })
    ∧ Happens (.queueEntry q) (fun s => turn s ∧ bit (s.ctx hq.tag).ptbase 0 = false)
      (fun s => endEntry s q.val hq 0x80000004)
    ∧ Happens (.queueEntry q) (fun s => turn s ∧ bit (s.ctx hq.tag).ptbase 0 = true ∧ a.toNat % 64 ≠ 0)
      (fun s => endEntry s q.val hq 0x80000003)
    ∧ Happens (.queueEntry q) (fun s => reads s ∧ readRecord s (.unit 768) hq.tag false a = (.error (0, k), u))
      (fun _ => { u with host := { u.host with busy := some (q.val, hq) } })
    ∧ Happens (.queueEntry q) (fun s => reads s ∧ readRecord s (.unit 768) hq.tag false a = (.error (n + 1, k), u))
      (fun _ => endEntry u q.val hq 0x80000003)
    ∧ Happens (.queueEntry q)
      (fun s => reads s ∧ readRecord s (.unit 768) hq.tag false a = (.ok bs, u) ∧ acceptLaunch u hq.tag bs = (n, z))
      (fun _ => endEntry z q.val hq n)
    ∧ Happens (.pkgset n) (fun s => takes 1 [(n, 64)] s ∧ n ≤ 255 ∧ s.fab.switched = false)
      (mailed 1 fun s => setPgAll { s with fab := { s.fab with pkg := n } } 7 0 n)
    ∧ Happens (.pkgset n) (fun s => takes 1 [(n, 64)] s ∧ (255 < n ∨ s.fab.switched = true)) (mailRefused 1)
    ∧ Happens (.pkgset n) (fun s => mbTakes s 1 [(n, 64)] = false) (fun s => s)
    ∧ Happens (.quantum us) (fun s => takes 2 [(us, 64)] s ∧ 100 ≤ us ∧ us ≤ 100000)
      (mailed 2 fun s => { s with host := { s.host with quantum := us } })
    ∧ Happens (.quantum us) (fun s => takes 2 [(us, 64)] s ∧ (us < 100 ∨ 100000 < us)) (mailRefused 2)
    ∧ Happens (.dumpset t base size) (fun s => takes 3 [(t.toNat, 16), (base, 64), (size, 64)] s ∧ base % 4096 = 0)
      (mailed 3 fun s => s.setCtx t { s.ctx t with dumpBase := base, dumpSize := size })
    ∧ Happens (.dumpset t base size) (fun s => takes 3 [(t.toNat, 16), (base, 64), (size, 64)] s ∧ base % 4096 ≠ 0) (mailRefused 3)
    ∧ Happens (.vlogset base) (fun s => takes 4 [(base, 64)] s ∧ base % 131072 = 0)
      (mailed 4 fun s => { s with sup := { s.sup with vlogBase := some base, vmir := s.sup.vput - s.sup.vlog.length } })
    ∧ Happens (.vlogset base) (fun s => takes 4 [(base, 64)] s ∧ base % 131072 ≠ 0) (mailRefused 4)
    ∧ Happens (.prove nonce) whole
      (mailed 5 fun s => mbRes { s with host := { s.host with report := provenance s nonce } }
        [Config.reportAddr.toNat % 2 ^ 32, Config.reportAddr.toNat / 2 ^ 32])
    ∧ Happens (.record t base size)
      (fun s => takes 6 [(t.toNat, 16), (base, 64), (size, 64)] s ∧ (s.ctx t).armed = false ∧ (s.ctx t).recording = false)
      (mailed 6 fun s => s.setCtx t
        { s.ctx t with recBase := base, recSize := size, recPut := 0, armed := true, recording := false })
    ∧ Happens (.recstop t)
      (fun s => takes 7 [(t.toNat, 16)] s ∧ (s.ctx t).armed = false ∧ (s.ctx t).recording = false
        ∧ (s.ctx t).recPut ≤ (s.ctx t).recSize)
      (mailRefused 7)
    ∧ Happens (.recstop t) (fun s => takes 7 [(t.toNat, 16)] s ∧ (s.ctx t).armed = true)
      (fun s => stopped ⟨s, (s.ctx t).recPut, (s.ctx t).recSize, true⟩ 2 s)
    ∧ Happens (.recstop t)
      (fun s =>
        let c := s.ctx t
        takes 7 [(t.toNat, 16)] s ∧ c.armed = false ∧ c.recording = true ∧ c.recPut ≤ c.recSize
          ∧ (readItems s c.recBase (c.recSize / 32) 0).foldl (exportItem c.recBase) ⟨s, c.recPut, c.recSize, true⟩ = p)
      (fun s => stopped p (if p.ok then 2 else 0x80000003) s)
    ∧ Happens (.powercap watts) (fun s => takes 8 [(watts, 64)] s ∧ 1500 ≤ watts ∧ watts ≤ 3600)
      (mailed 8 fun s => { s with host := { s.host with power := watts } })
    ∧ Happens (.powercap watts) (fun s => takes 8 [(watts, 64)] s ∧ (watts < 1500 ∨ 3600 < watts)) (mailRefused 8)
    ∧ Happens (.svcclr mask) (takes 9 [(mask.toNat, 32)]) (mailed 9 fun s => clearSvc s mask)
    ∧ Happens (.dumprun t base remain)
      (fun s => takes 10 [(t.toNat, 16), (base, 64), (remain.toNat, 48)] s ∧ dumpRun s t base remain = some (ids, u))
      (fun s => mailed 10 (fun r => mbRes { u with host := { u.host with mbcmd := r.host.mbcmd } } ids) s)
    ∧ Happens (.dumprun t base remain)
      (fun s => takes 10 [(t.toNat, 16), (base, 64), (remain.toNat, 48)] s ∧ dumpRun s t base remain = none) (mailRefused 10)
    ∧ Happens (.newManagementImage image)
      (fun s => s.host.verified = false ∧ (mbBusy s = false ∨ s.host.mbcmd = 0x10) ∧ imageOk 0 image = false) (mailRefused 0x10)
    ∧ Happens (.newManagementImage image)
      (fun s => s.host.verified = false ∧ (mbBusy s = false ∨ s.host.mbcmd = 0x10) ∧ imageOk 0 image = true)
      (fun s =>
        let r := takeImage { s with host := { s.host with mbcmd := 0x10 } } 0 image
        mbStat (bootRest { r with host := { r.host with verified := true } }) 2)
    ∧ Happens (.newManagementImage image) (fun s => up s ∧ mbBusy s = false)
      (fun s => mbStat { s with host := { s.host with mbcmd := 0x10 } } 0x80000001)
    ∧ Happens (.recordSnapshot t) (fun s => due s ∧ (takeSnapshot s t).ok = true)
      (fun s => dropBytes ((takeSnapshot s t).s.modCtx t fun c =>
        { c with armed := false, recording := true, recPut := (takeSnapshot s t).put, recSize := (takeSnapshot s t).top }) 35)
    ∧ Happens (.recordSnapshot t) (fun s => due s ∧ (takeSnapshot s t).ok = false)
      (fun s => dropBytes (s.modCtx t fun c => { c with armed := false, recording := false, recPut := c.recSize + 2 }) 35)
    ∧ Happens (.rerunImport area dst frame)
      (fun s => readImport s area.1 area.2 frame = x ∧ x.fits s dst frame = true ∧ x.context s dst frame = some u)
      (fun _ => { u with cpq := u.cpq ++ x.records.map fun bs => ⟨dst, bs, none, none⟩ })
    ∧ Happens (.rerunImport area dst frame) (fun s => bit (s.ctx dst).ptbase 0 = true) (fun s => s)

/-- Reset, errors, sparing, power and the registers that the host writes (R331, R333, R334, R429, R436, R437, R438, R441, R443,
R447). -/
def Obligations.ServiceSteps : Prop :=
  ∀ (pa tile e off n l die : Nat) (g : GroupId) (w : WarpId) (c : CuId) (x : L1Word) (frames : List Nat) (p i : Fin 16)
    (win : BitVec 512) (v : DWord),
    Happens .reset (fun _ => imageOk 0 (Config.bootImage 0) = false)
      (fun s => { State.reset with
        agenda := s.agenda, tick := s.tick,
        host := { State.reset.host with images := [], measures := [], verified := false } })
    ∧ Happens .reset (fun _ => imageOk 0 (Config.bootImage 0) = true)
      (fun s =>
        let z : State := { State.reset with
          agenda := s.agenda, tick := s.tick,
          host := { State.reset.host with images := [], measures := [], verified := false } }
        let r := takeImage z 0 (Config.bootImage 0)
        bootRest { r with host := { r.host with verified := true } })
    ∧ Happens (.uncorrectableError (.memory pa)) (fun s => (s.dir (pa / 4)).owner = none)
      (fun s => { s with mem := { s.mem with poison := sSet false s.mem.poison (pa / 32) true } })
    ∧ Happens (.uncorrectableError (.memory pa)) (fun s => (s.dir (pa / 4)).owner = some c ∧ s.l1 c (pa / 4) = some x)
      (fun s => s.setL1 c (pa / 4) { x with poison := true })
    ∧ Happens (.uncorrectableError (.copy c n)) (fun s => s.l1 c n = some x) (fun s => s.setL1 c n { x with poison := true })
    ∧ Happens (.uncorrectableError (.tile g tile e)) (fun _ => True)
      (fun s => s.modGroup g fun x => { x with poison := sSet false x.poison (4096 * tile + e) true })
    ∧ Happens (.uncorrectableError (.scratch g off)) (fun _ => True)
      (fun s => s.modGroup g fun x => { x with padPoison := sSet false x.padPoison (off / 4) true })
    ∧ Happens (.uncorrectableError (.register w n l)) (fun _ => True)
      (fun s => s.modWarp w fun x => { x with bads := x.bads ++ [⟨l, n, .b4, 0x30, 0, s.tick⟩] })
    ∧ Happens (.uncorrectableError (.control die)) (fun _ => True)
      (fun s =>
        let u := raiseSvc (violate s 8 0 0 die (1024 * die + 1023)) 4
        (u.tagsOnDie die).foldl (fun u t => startHalt u t 3) u)
    ∧ Happens (.correctableError false) (fun _ => True)
      (fun s => { s with host := { s.host with corrected := s.host.corrected + 1 } })
    ∧ Happens (.correctableError true) (fun _ => True)
      (fun s => raiseSvc { s with host := { s.host with corrected := s.host.corrected + 1 } } 1)
    ∧ Happens (.spareCu die true) (fun _ => True)
      (fun s => raiseSvc { s with host := { s.host with spares := s.host.spares ++ [die] } } 0x20)
    ∧ Happens (.spareCu die false) (fun s => die ∉ s.host.dead)
      (fun s => raiseSvc { s with host := { s.host with dead := s.host.dead ++ [die] } } 0x40)
    ∧ Happens (.pseudoChannelRetire frames) (fun s => s.ctxs = [] ∧ ftOn s = false ∧ (frames = [] ∨ ∃ f ∈ frames, f ∉ s.host.retiredFrames))
      (fun s => raiseSvc { s with host := { s.host with retiredFrames := (s.host.retiredFrames ++ frames).eraseDups } } 0x10)
    ∧ Happens (.powerCap true) (fun _ => True) (fun s => raiseSvc { s with host := { s.host with capped := true } } 2)
    ∧ Happens (.powerCap false) (fun _ => True) (fun s => { s with host := { s.host with capped := false } })
    ∧ Happens (.decodeWindow p i win) (fun _ => True)
      (fun s => (dropViews s fun a => winClaims (sGet 0 (s.plinth p.val).windows i.val) a || winClaims win a).modPlinth p.val fun x =>
        { x with windows := sSet 0 x.windows i.val win })
    ∧ Happens (.nrctl p v) (fun _ => True) (fun s => setNrctl s p.val v)
    ∧ Happens (.registerWrite 0 v) (fun s => s.host.verified = true ∧ mbBusy s = false ∧ 1 ≤ bits v 31 0 ∧ bits v 31 0 ≤ 10)
      (fun s => mbStat { s with host := { s.host with mbcmd := BitVec.ofNat 64 (bits v 31 0) } } 1)
    ∧ Happens (.registerWrite 0 v) (fun s => s.host.verified = true ∧ mbBusy s = false ∧ (bits v 31 0 = 0 ∨ 10 < bits v 31 0))
      (fun s => mbStat { s with host := { s.host with mbcmd := BitVec.ofNat 64 (bits v 31 0) } } 0x80000001)
    ∧ Happens (.registerWrite 0 v) (fun s => mbBusy s = true) (fun s => s)
    ∧ Happens (.registerWrite (0x40 + 8 * n) v) (fun s => s.host.verified = true ∧ n < 8)
      (fun s => { s with host := { s.host with mbarg := sSet 0 s.host.mbarg n v } })
    ∧ Happens (.registerWrite (0x1000 + 32 * n) v) (fun s => s.host.verified = true ∧ n < 64 ∧ bit (s.hostq n).cfg 31 = false)
      (fun s => s.setHostq n { s.hostq n with base := BitVec.ofNat 64 (bits v 63 12 * 4096) })

/-- birfdb's commands that act: sessions, loading and launching, stops and steps, holds, traces, pre-emption, pages (R281 to
R283, R337, R338, R366, R380, R382, R383, R400, R456). -/
def Obligations.DebugSteps : Prop :=
  ∀ (w : WarpId) (x : Warp) (tag : Tag) (im : Image) (ws : List (DWord × Bool)) (rx ry rw rh n k : Nat) (sides dlc : Option Nat) (cu : CuId)
    (addr : Addr)
    (ns entries : List Nat) (t : State) (tr : Trigger) (g : Region) (gid : GroupId) (gr : Group) (e : BitVec 64) (a lv : Nat)
    (hq : HostQ),
    let on : State → Prop := fun s => atPrompt s = true
    let number : State → Nat × State := fun s => (s.dbg.next, { s with dbg := { s.dbg with next := s.dbg.next + 1 } })
    let side := sides.getD 1
    let dl := dlc.getD 14000000
    let mine : State → Tag × Image × List Nat → Bool := fun s q => q.1 == s.dbg.tag.getD 0 && q.2.1.file == im.file
    let under : State → Nat := fun s => leafPa s e lv addr false / 65536 * 65536
    let pages : State → Addr → Nat → Nat → State := fun s v m b => tlbDropPage (putPte s m (setField e.toNat 5 5 b)) (s.dbg.tag.getD 0) v
    let fits : State → Prop := fun s => 1 ≤ rw ∧ rw ≤ 48 ∧ 1 ≤ rh ∧ rh ≤ 16 ∧ rx < 48 ∧ ry < 16
      ∧ (side = 1 ∨ side = 2 ∨ side = 4 ∨ side = 8) ∧ dl < 2 ^ 48 ∧ dbgImage s = some im ∧ dbgQueue s (s.dbg.tag.getD 0) = some (k, hq)
    let mates : State → List Saved := fun s => (clusterOf s gid).filterMap fun h => (s.group? h).map fun y => snapshot s h y
    Happens (.dbgBreakpointStop w)
      (fun s => s.warp? w = some x ∧ s.dbg.stepping = [] ∧ x.stopped = false ∧ atBreak s w x.atTurn = true)
      (fun s => stopWarp s w x.atTurn)
    ∧ Happens (.dbgBreakpointStop w)
      (fun s => s.warp? w = some x ∧ (w, 0) ∈ s.dbg.stepping ∧ destsWritten s w x = true ∧ x.hold ≠ .idle)
      (fun s => stopWarp s w x)
    ∧ Happens (.dbgAttach (some tag)) (fun s => bit (s.ctx tag).ptbase 0 = true)
      (fun s => note { s with dbg := { s.dbg with tag := some tag } } [6, tag.toNat])
    ∧ Happens (.dbgLoad im)
      (fun s => on s ∧ hasLaunch s (s.dbg.tag.getD 0) = false ∧ imageFits im = true
        ∧ placeImage ((s.dbg.images.filter (mine s)).foldl (fun u q => unloadImage u (s.dbg.tag.getD 0) q.2.1 q.2.2) s)
          (s.dbg.tag.getD 0) im = some (t, entries))
      (fun s => note { t with dbg := { t.dbg with
          images := (s.dbg.tag.getD 0, im, entries) :: s.dbg.images.filter fun q => !mine s q } }
        [7, im.textVa.toNat, im.dataVa.toNat, im.data.length])
    ∧ Happens (.dbgArgs ws) (fun s => on s ∧ (argWords ws).length ≤ 8 ∧ ∀ q ∈ ws, q.2 = true ∨ q.1.toNat < 2 ^ 32)
      (fun s => { s with dbg := { s.dbg with args := argWords ws } })
    ∧ Happens (.dbgLaunch rx ry rw rh sides dlc) (fun s => on s ∧ fits s)
      (fun s =>
        let va := dbgPage + 1024
        let u := ringEntry (virtWrite s (s.dbg.tag.getD 0) va (dbgRecord s im rx ry rw rh side dl)) k hq va
        { u with dbg := { u.dbg with submitted := some (k, hq.tail), stop := false } })
    ∧ Happens (.dbgStep n none)
      (fun s => on s ∧ n ≠ 0 ∧ s.dbg.selected = some w ∧ w ∈ stoppedOn s none)
      (fun s =>
        let u := goOn s w
        { u with dbg := { u.dbg with
            selected := some w, stepping := (w, n) :: u.dbg.stepping.filter fun q => q.1 != w, stop := false } })
    ∧ (∀ c, Happens (.dbgContinue c) on
      (fun s =>
        let u := (stoppedOn s c).foldl goOn s
        { u with dbg := { u.dbg with stop := false } }))
    ∧ Happens .dbgPromptReturn (fun s => on s ∧ s.dbg.launched = some n ∧ sFind? s.launches n = none)
      (fun s => { s with dbg := { s.dbg with stop := false, launched := none } })
    ∧ Happens .dbgPromptReturn
      (fun s => on s ∧ s.dbg.launched = none ∧ s.dbg.stop = true ∧ s.dbg.lastEvt + 1400000 ≤ s.fc)
      (fun s => { s with dbg := { s.dbg with stop := false } })
    ∧ Happens (.dbgBreak addr cu) (fun s => on s ∧ cu < 768)
      (fun s =>
        let u := (number s).2
        { u with dbg := { u.dbg with breaks := u.dbg.breaks ++ [(s.dbg.next, addr, cu, s.dbg.tag.getD 0)] } })
    ∧ Happens (.dbgCatch n) (fun s => on s ∧ n < 256)
      (fun s =>
        let u := (number s).2
        { u with dbg := { u.dbg with catches := u.dbg.catches ++ [(s.dbg.next, n, s.dbg.tag.getD 0)] } })
    ∧ Happens (.dbgDelete ns)
      (fun s => on s ∧ ∀ m ∈ ns, (∃ b ∈ s.dbg.breaks, b.1 = m) ∨ ∃ c ∈ s.dbg.catches, c.1 = m)
      (fun s =>
        let bs := s.dbg.breaks.filter fun b => !ns.contains b.1
        { s with dbg := { s.dbg with breaks := bs, catches := s.dbg.catches.filter fun c => !ns.contains c.1 } })
    ∧ Happens (.dbgHoldStore cu addr) (fun s => on s ∧ cu < 768 ∧ addr.toNat % 4 = 0)
      (fun s =>
        let u := (number s).2
        let u := { u with dbg := { u.dbg with holds := u.dbg.holds ++ [(s.dbg.next, cu, addr, s.dbg.tag.getD 0)] } }
        { u with reqs := u.reqs.map fun f => if f.2.stage == .home || f.2.stage == .ext then (f.1, heldStore u f.2) else f })
    ∧ Happens (.dbgUnhold n) (fun s => on s ∧ ∃ h ∈ s.dbg.trigHolds, h.1 = n)
      (fun s => { s with dbg := { s.dbg with trigHolds := s.dbg.trigHolds.filter fun h => h.1 != n } })
    ∧ Happens (.dbgUnhold n) (fun s => on s ∧ (∀ h ∈ s.dbg.trigHolds, h.1 ≠ n) ∧ ∃ h ∈ s.dbg.holds, h.1 = n)
      (fun s =>
        let u := { s with dbg := { s.dbg with
          holds := s.dbg.holds.filter (fun h => h.1 != n), told := s.dbg.told.filter fun q => q.2 != n } }
        { u with reqs := u.reqs.map fun f => if f.2.dbgHold then (f.1, heldStore u f.2) else f })
    ∧ Happens .dbgHoldTriggers on
      (fun s =>
        let u := (number s).2
        { u with dbg := { u.dbg with
          trigHolds := u.dbg.trigHolds ++ [(s.dbg.next, s.dbg.tag.getD 0)],
          released := u.dbg.released.filter fun q => q.2 != s.dbg.tag.getD 0 } })
    ∧ Happens (.dbgRelease addr)
      (fun s => on s ∧ trigAt s (s.dbg.tag.getD 0) addr = some (k, tr, g) ∧ tr.spilled = false)
      (fun s => offer { s with dbg := { s.dbg with
        released := (k, g.tag) :: s.dbg.released, awaits := some (k, tr.region, (tr.granule - g.base).toNat) } } k)
    ∧ Happens (.dbgRelease addr)
      (fun s => on s ∧ trigAt s (s.dbg.tag.getD 0) addr = some (k, tr, g) ∧ tr.spilled = true)
      (fun s =>
        let u := unspill s k tr g
        offer { u with dbg := { u.dbg with
          released := (k, g.tag) :: u.dbg.released, awaits := some (k, tr.region, (tr.granule - g.base).toNat) } } k)
    ∧ Happens .dbgTraceTriggers on
      (fun s =>
        let u := (number s).2
        { u with dbg := { u.dbg with traces := u.dbg.traces ++ [(s.dbg.next, s.dbg.tag.getD 0)] } })
    ∧ Happens (.dbgUntrace n) (fun s => on s ∧ ∃ q ∈ s.dbg.traces, q.1 = n)
      (fun s => { s with dbg := { s.dbg with traces := s.dbg.traces.filter fun q => q.1 != n } })
    ∧ (∀ on', Happens (.dbgPteSm addr 1 on')
      (fun s => on s ∧ hasLaunch s (s.dbg.tag.getD 0) = false ∧ addr.toNat % 65536 = 0
        ∧ walk s (s.dbg.tag.getD 0) addr = .leaf e a lv ∧ 2 ≤ pteTier e)
      (fun s => pages s addr a (if on' then 1 else 0)))
    ∧ (∀ on', Happens (.dbgPteSm addr 1 on')
      (fun s => on s ∧ hasLaunch s (s.dbg.tag.getD 0) = false ∧ addr.toNat % 65536 = 0
        ∧ walk s (s.dbg.tag.getD 0) addr = .leaf e a lv ∧ pteTier e < 2
        ∧ (spaceOf s (under s) ≠ .far ∨ farDirtyIn s (under s) 65536 = false))
      (fun s =>
        let u := pages s addr a (if on' then 1 else 0)
        purgeRange u (leafPa u e lv addr false / 65536 * 65536) 65536))
    ∧ (∀ on', Happens (.dbgPteSm addr 1 on')
      (fun s => on s ∧ hasLaunch s (s.dbg.tag.getD 0) = false ∧ addr.toNat % 65536 = 0
        ∧ walk s (s.dbg.tag.getD 0) addr = .leaf e a lv ∧ pteTier e < 2
        ∧ spaceOf s (under s) = .far ∧ farDirtyIn s (under s) 65536 = true)
      (fun s => sendFar s (under s) 65536))
    ∧ Happens (.dbgPreempt cu none)
      (fun s => on s
        ∧ (s.groups.find? fun f => cuOf f.1 == cu && f.2.tag == s.dbg.tag.getD 0 && !f.2.retired && !isCurator cu) = some (gid, gr))
      (fun s =>
        let u := (clusterOf s gid).foldl (fun s h => askStop s h true) s
        { u with dbg := { u.dbg with moving := some ⟨gid, cu, gr.tag, none⟩ } })
    ∧ (∀ c, Happens (.dbgPreempt cu (some c))
      (fun s => on s
        ∧ (s.groups.find? fun f => cuOf f.1 == cu && f.2.tag == s.dbg.tag.getD 0 && !f.2.retired && !isCurator cu) = some (gid, gr)
        ∧ (c = cu ∨ (movedRooms s (mates s) gid c).isSome = true))
      (fun s =>
        let u := (clusterOf s gid).foldl (fun s h => askStop s h true) s
        { u with dbg := { u.dbg with moving := some ⟨gid, c, gr.tag, none⟩ } }))

/-- What birfdb prints, and that printing changes nothing else (R281, R284, R365, R381, R401). -/
def Obligations.DebugPrints : Prop :=
  ∀ (w : WarpId) (x : Warp) (rs : List DbgReg) (as : List Addr) (cu : CuId) (tag : Option Tag) (va : Addr) (d i r pa : Nat)
    (g : Region),
    let on : State → Prop := fun s => atPrompt s = true
    let mine : State → Tag := fun s => s.dbg.tag.getD 0
    Happens (.dbgPrint rs)
      (fun s => on s ∧ s.dbg.selected = some w ∧ s.warp? w = some x ∧ x.stopped = true
        ∧ ∃ h, s.group? (gidOf w) = some h ∧ ∀ q ∈ rs, DbgReg.known h x q = true)
      (fun s => note s (11 :: rs.flatMap (regValues w x)))
    ∧ Happens (.dbgXW as) (fun s => on s ∧ (∀ a ∈ as, a.toNat % 4 = 0) ∧ farWords s (mine s) as = [])
      (fun s => note s (12 :: as.flatMap (wordLine s (mine s))))
    ∧ Happens (.dbgXW as)
      (fun s => on s ∧ (∀ a ∈ as, a.toNat % 4 = 0) ∧ farWords s (mine s) as = [pa] ∧ askedBytes s 34 pa = none)
      (fun s => askBytes s 34 pa)
    ∧ Happens (.dbgCache cu as) (fun s => on s ∧ ∀ a ∈ as, a.toNat % 4 = 0)
      (fun s => note s (13 :: as.flatMap (cacheLine s (mine s) cu)))
    ∧ Happens (.dbgPte tag va) on
      (fun s => note s [14, va.toNat, match walk s (tag.getD (mine s)) va with | .leaf e _ _ => e.toNat | _ => 0])
    ∧ Happens (.dbgFrame tag va)
      (fun s => on s ∧ physOf s (tag.getD (mine s)) va = some pa ∧ frameIdx s (pa / 65536 * 65536) = some i)
      (fun s => note s [15, framePa s i, ftGet s i])
    ∧ Happens (.dbgFreelist d) (fun s => on s ∧ d < 8)
      (fun s => note s [16, d, freeCount s d, framePa s (field (freeList s d) 23 0)])
    ∧ Happens (.dbgAcc va)
      (fun s => on s ∧ physOf s (mine s) va = some pa ∧ (accEnt s pa).isSome = true ∧ pa % 8 = 0 ∧ (s.holder (pa / 128)).list = [])
      (fun s => note s [17, va.toNat, (BitVec.ofInt 64 (elemAt s pa)).toNat, 0, (s.holder (pa / 128)).limit,
        if (s.holder (pa / 128)).unbounded then 1 else 0])
    ∧ Happens (.dbgPending r) (fun s => on s ∧ sFind? s.regions r = some g ∧ ∀ e ∈ s.trigs, e.2.region ≠ r)
      (fun s => note s [18, r, g.pend.toNat, g.run.toNat])

/-! ### The step, reset, decoding, the memory -/

/-- A STEP RUNS THE DECODED INSTRUCTION (R18, R43, R44, R63). Where the schedule lets a warp issue and nothing is due at its
boundary, the warp takes its turn, the bytes at its issue address are decoded, and the step is the meaning of what they decode to, with the issue set
of that address under issue, and afterwards no instruction under issue. Bytes that reach beyond their fetch block raise 0x03,
bytes that are no instruction 0x01, and a fetch that fails its cause, in the whole issue set. An event that the schedule
names is carried out, where the units that it needs work; in recovery nothing else happens (R438; the model's own schedule: log 1). -/
def Obligations.StepRunsDecoded : Prop :=
  (∀ (s u v : State) (w : WarpId) (x : Warp) (rest : List Move) (pc : Addr) (f : Fetched),
      (passTime s).agenda = .issue w :: rest → { passTime s with agenda := rest }.warp? w = some x →
      canIssue { passTime s with agenda := rest } w x = true → firstOfPort { passTime s with agenda := rest } w x = true →
      u = { passTime s with agenda := rest } → u.host.verified = true → x.exitNow = false → x.spin < 256 → x.exc = 0 → x.asyncs = [] → x.rep.act = false →
      x.hold = .none → u.dbg.passing = [] → atBreak u w x = false → x.issueAddr = some pc → fetchAt u w pc = (f, v) →
      let trap : Nat → Cur → Host.Outcome State Fault Refusal := fun cause c =>
        .next (takeTrap v w (syncTrap c cause pc (x.issueSet pc) false))
      (∀ bs i n, f = .bytes bs → straddles pc bs = false → decode bs = .ok (i, n) →
        step s = leaveIssue w i (exec i { v with cur := some ⟨w, x.issueSet pc, pc, after pc n, false⟩ }))
      ∧ (∀ bs, f = .bytes bs → straddles pc bs = true → step s = trap 0x03 ⟨w, x.issueSet pc, pc, pc, true⟩)
      ∧ (∀ bs e, f = .bytes bs → straddles pc bs = false → decode bs = .error e →
        ∃ next len3, step s = trap 0x01 ⟨w, x.issueSet pc, pc, next, len3⟩)
      ∧ (∀ c, f = .fault c → step s = trap c ⟨w, x.issueSet pc, pc, pc, true⟩))
  ∧ (∀ (s : State) (i : Instr) (rest : List Move), (passTime s).agenda = .event i :: rest → i.isIsa = false →
      works { passTime s with agenda := rest } (.event i) = true → step s = exec i { passTime s with agenda := rest })
  ∧ (∀ (s : State) (m : Move) (rest : List Move), (passTime s).agenda = m :: rest → (passTime s).host.verified = false →
      inRecovery { passTime s with agenda := rest } m = false → step s = .next { passTime s with agenda := rest })

/-- AFTER RESET (R15, R333, R405): the cycle counter is zero, every port group is idle in package 0, NRCTL of every plinth holds 9. Nothing is resident
and memory lists nothing, system registers are zero (the model's choice where the manual gives none: log 10). -/
def Obligations.ResetState : Prop :=
  let s := State.reset
  s.fc = 0
  ∧ (∀ p, (s.plinth p).nrctl = 9 ∧ (s.plinth p).nrcnt = 0 ∧ (s.plinth p).windows = [])
  ∧ (∀ n, pgState s n = 0 ∧ pgPers s n = 0 ∧ sGet 0 s.sup.pgctl n = 0)
  ∧ (∀ w, s.warp? w = none) ∧ (∀ g, s.group? g = none)
  ∧ (∀ t, s.ctx t = Ctx.zero) ∧ (∀ c, (s.cu c).spl = 0)
  ∧ s.sup.frametab = 0 ∧ s.sup.twintab = 0 ∧ s.sup.watchtab = 0 ∧ s.sup.acctab = 0 ∧ s.sup.ctxsel = 0 ∧ s.sup.svcreq = 0
  ∧ (∀ a, plinthByte s a = 0) ∧ s.memWf

/-- A WARP AT ITS START (R29): vector registers, p0 to p6, convergence registers, FLM, FSTAT and RPTC read zero, and every lane is
eligible at the entry PC. -/
def Obligations.WarpStart : Prop :=
  ∀ (lanes : Nat) (pc : Addr) (t : Tag) (place quad : Nat),
    let x := Warp.start lanes pc t place quad
    (∀ n l, x.v n l = 0) ∧ (∀ n, x.s n = 0) ∧ (∀ n l, n < 7 → x.p n l = false) ∧ (∀ n, x.cvReg n = Cv.zero)
    ∧ x.flm = 0 ∧ x.fstat = 0 ∧ x.rptc = 0 ∧ x.width = lanes ∧ x.tag = t
    ∧ ∀ l, l < lanes → x.vpc l = pc ∧ (x.lanes[l]?.map Lane.st) = some .eligible

/-- DECODE AND ENCODE AGREE (R40 to R63): every well-formed instruction of the Kwazon, with every operand at every value,
is what its own words decode to, whatever follows them. -/
def Obligations.DecodeEncode : Prop :=
  ∀ (i : Instr) (rest : List Byte), i.isIsa = true → i.wellFormed = true →
    decode (encode i ++ rest) = .ok (i, (encode i).length)

/-- Words of the manual's worked examples decode to the instructions that it writes beside them (R40, R45, R56). -/
def Obligations.DecodeWords : Prop :=
  let p7 : Pr := ⟨7, false⟩
  let reads (w n : Nat) (i : Instr) : Prop := decode (bytesOf w n) = .ok (i, n)
  reads 0x0000180280401C80 8 (.iadd ⟨p7, none⟩ .wrap (.v 4) (.v 5) (.v 6))
  ∧ reads (0x0003FC4288402881 + 100 * 2 ^ 64) 12 (.iadd ⟨⟨2, true⟩, some 100⟩ .wrap (.s 4) (.s 5) .imm)
  ∧ reads (0x405 + 0xFFFFFFEC * 2 ^ 64) 12 (.bra ⟨1, false⟩ 0xFFFFFFEC)
  ∧ reads (0x0003FC0280441D01 + 0x3FC00000 * 2 ^ 64) 12 (.fadd ⟨p7, some 0x3FC00000⟩ .neg .f32 .rne (.v 4) (.v 5) .imm)
  ∧ reads (0x0000004200601E02 + 0x000001B200000040 * 2 ^ 64) 16
      (.ld p7 false (.v 6) (.s 4) ⟨0, false, 0, 0, .pkg, .acq, .si, .b4, 0x40⟩)
  ∧ reads (0x0000100100601E82 + 0x000001FA00000000 * 2 ^ 64) 16
      (.atom p7 false (.v 6) (.v 2) (.v 4) ⟨0, false, 0, 0, .pkg, .ar, .unc, .b4, 0⟩)
  ∧ reads 0x000000000003DE94 8 (.fence p7 .pkg .sc)
  ∧ reads (0x0002180800001F02 + 0x12 * 2 ^ 64) 16 (.mma p7 (.v 16) (.s 6) ⟨false, 0, 0, .bf16, .bf16, false, 1, 2⟩)
  ∧ reads (0x0000000008801C4D + 2 ^ 64) 12 (.mfs p7 (.s 8) 1 0)
  ∧ reads 0x00000010822005AC 8 (.exp2 ⟨⟨1, false⟩, none⟩ .f32 (.v 34) (.v 33))
  ∧ reads 0x0000000281F01C18 8 (.rpt 31 1 1 0 0)
  ∧ reads (0x0000004000001F22 + 0x0000010000001000 * 2 ^ 64) 16 (.xcopy p7 (.s 0) ⟨0x100, false, 0x1000⟩)

/-- THE CHECKS BEFORE THE EFFECT, in the order of R64, for every instruction that a warp issues: an encoding that breaks a limit
raises 0x01 in the whole issue set whatever the predicate; then a supervisor instruction of a user warp raises 0x02 (R37); then,
where some lane is allowed, channel misuse raises 0x16; where no lane is allowed the issue set moves past it and nothing
else happens (R18, R51), once no lane is parked at or below a cross-lane instruction (R131). -/
def Obligations.IssueChecks : Prop :=
  ∀ (i : Instr) (s : State) (c : Cur) (x : Warp) (g : Group), i.isIsa = true → s.cur = some c → s.warp? c.w = some x →
    s.group? (gidOf c.w) = some g →
    let legal := i.wellFormed = true ∧ limitsOk i g x.width = true
    let may := needsSup i = false ∨ isSup c.w = true
    let n := (lanesOf (allowedIn i x c)).length
    let trap : Nat → Prop := fun cause =>
      exec i s = .next (takeTrap s c.w (syncTrap c cause c.pc c.set x.rep.act))
    (¬ legal → trap 0x01)
    ∧ (legal → ¬ may → trap 0x02)
    ∧ (legal → may → n ≠ 0 → chanMisuse i g (shape i).scalar n = true → trap 0x16)
    ∧ (legal → may → n = 0 →
        exec i s = if isCross i = true ∧ parkedBelow x c.pc ≠ 0 then .next (holdAt s c.w .parked (parkedBelow x c.pc))
          else .next (finish i (idleIssue i x c) 0 [] s [] [] 0))

/-- THE FRAME of the lane-by-lane forms with register operands (R67, R81, R116): when they complete, nothing changes but the issuing
warp; every register keeps its value but those of D, and of a vector or predicate D the lanes that do not execute keep theirs; the flags
of FSTAT that the form does not name keep theirs; memory, scratchpads, rings and special registers keep theirs.
Moving past an instruction changes nothing but the issuing warp, and in it the vpcs of the issue set, a repeat under way,
and what an issue ends (R18, R76). -/
def Obligations.RegisterFrame : Prop :=
  (∀ (i : Instr) (s t : State) (x : Issue), laneWise i = true → issued i s = some x → chanFields i = [] →
      exec i s = .next t →
      t = { s with warps := t.warps }
      ∧ (∀ w, w ≠ x.w → t.warp? w = s.warp? w)
      ∧ ∀ y, s.warp? x.w = some y → ∃ z, t.warp? x.w = some z ∧ sameButRegs y z
        ∧ (∀ n l, n < 128 → l < 64 → ¬ (writesReg i n = true ∧ l ∈ x.act) → z.v n l = y.v n l)
        ∧ (∀ n, writesReg i (128 + n) = false → z.s n = y.s n)
        ∧ (∀ n l, ¬ (writesPred i n = true ∧ l ∈ x.act) → z.p n l = y.p n l)
        ∧ z.fstat &&& ~~~(flagsOf i) = y.fstat &&& ~~~(flagsOf i))
  ∧ (∀ (i : Instr) (x : Issue) (m : Mask) (t : State),
      let u := placed i x m t
      u = { t with warps := u.warps }
      ∧ (∀ w, w ≠ x.w → u.warp? w = t.warp? w)
      ∧ ∀ y, t.warp? x.w = some y → ∃ z, u.warp? x.w = some z
        ∧ z = { y with lanes := z.lanes, rep := z.rep, excCount := z.excCount, spin := z.spin, hold := y.hold.trapped, heldSet := 0 }
        ∧ z.lanes.map (fun l => (l.st, l.wait)) = y.lanes.map (fun l => (l.st, l.wait))
        ∧ (x.rep = false → z.rep = y.rep
          ∧ ∀ l, l < 64 → l < y.width → z.vpc l = if (x.set &&& ~~~m).getLsbD l then x.cur.next else y.vpc l))

/-- THE FRAME of a scratchpad store of registers without release (R153): memory, every other group, and every byte of the window
outside the bytes stored, at the places of its lanes, keep their values; so do all registers and flags.
ONE COMMIT AT THE HOMES (R266, R387): where no watched granule is touched and nothing is traced, it writes its bytes and nothing
more; a byte of HBM that it writes reads as written, and every byte it does not write reads as before, a view's bytes apart,
which are computed. -/
def Obligations.StoreFrame : Prop :=
  (∀ (p : Pr) (a b : Operand) (m : MemExt) (s t : State) (x : Issue) (h : GroupId) (gs : List Good) (g : Group),
      issued (.sts p a b m) s = some x → goes s x false → m.ord ≠ .rel → b.isChan = false →
      inWindow s x m h m.wid.bytes (offs s x a m.off) gs → anyHeld s h m.wid.bytes gs = false → s.group? h = some g →
      exec (.sts p a b m) s = .next t →
      t.mem = s.mem ∧ t.cus = s.cus ∧ t.reqs = s.reqs ∧ (∀ k, k ≠ h → t.group? k = s.group? k)
      ∧ (∃ g', t.group? h = some g' ∧ g' = { g with scr := g'.scr, padPoison := g'.padPoison }
        ∧ ∀ o, (∀ e ∈ gs, o < e.pa ∨ e.pa + m.wid.bytes ≤ o) → g'.byte o = g.byte o)
      ∧ ∀ w y, s.warp? w = some y → ∃ z, t.warp? w = some z ∧ z.vr = y.vr ∧ z.sr = y.sr ∧ z.pr = y.pr ∧ z.fstat = y.fstat
        ∧ z.cv = y.cv ∧ z.flm = y.flm)
  ∧ (∀ (s : State) (bs : List (Nat × Byte)) (tag : Option (BitVec 3)) (wr : Writer),
      (∀ e ∈ bs, frameMap s e.1 = none) → s.dbg.traces = [] →
      let t := commit s bs tag wr
      t = { s with mem := t.mem }
      ∧ (∀ a, spares bs a → spaceOf s a ≠ .view → homeByte t a = homeByte s a)
      ∧ (∀ e ∈ bs, (bs.map Prod.fst).Nodup → spaceOf s e.1 = .hbm → homeByte t e.1 = e.2))

/-- EVERY STEP KEEPS MEMORY IN ITS CANONICAL FORM: the plinths' bytes, release tags and poison marks stand in rising order with no
default entry, and the bytes held dirty in L2 in rising order (the model's own form). -/
def Obligations.StepKeepsMemory : Prop := ∀ s t : State, s.memWf → step s = .next t → t.memWf

/-- THE MACHINE GOES ON: every step from every state answers a next state. -/
def Obligations.StepAnswers : Prop := ∀ s : State, Steps s
end

