-- ==== Sys2Proof/Laws/Front.lean ====
section
/-! SUPPORT. What the shared checks come to for an instruction that issues with nothing in its way. -/

namespace Sys2Proof.Machine

open Sys2Proof Claims

theorem maskOf_nil : maskOf [] = 0 := rfl

theorem lanesOf_zero : lanesOf 0 = [] := by decide

theorem and_not_zero (m : Mask) : m &&& ~~~(0 : Mask) = m := by
  show m &&& BitVec.allOnes 64 = m
  exact BitVec.and_allOnes

theorem eq_zero_of_lanesOf {m : Mask} (h : lanesOf m ≠ []) : m ≠ 0 := fun e => h (e ▸ lanesOf_zero)

/-- What `issued` says, in its parts. -/
theorem issued_parts {i : Instr} {s : State} {x : Issue} (h : issued i s = some x) :
    ∃ c w g, s.cur = some c ∧ s.warp? c.w = some w ∧ s.group? (gidOf c.w) = some g ∧ clear i s c w g = true ∧
      x = { cur := c, gid := gidOf c.w, set := c.set, allow := allowedIn i w c, exec := allowedIn i w c,
            scalar := (shape i).scalar, rep := w.rep.act, imm := (shape i).imm.getD 0 } := by
  unfold issued at h
  split at h
  · cases h
  · rename_i c hc
    split at h
    · rename_i w g hw hg
      split at h
      · rename_i hcl
        exact ⟨c, w, g, hc, hw, hg, hcl, (Option.some.inj h).symm⟩
      · cases h
    · cases h

/-- No parked lane stands at an address or below it. -/
theorem parkedBelow_zero {x : Warp} {pc : Addr} (h : ((List.range x.width).all fun l =>
      !((x.inState .ld) ||| (x.inState .fe)).getLsbD l || decide (pc.toNat < (x.vpc l).toNat)) = true) :
    parkedBelow x pc = 0 := by
  have : ((List.range x.width).filter fun l =>
      ((x.inState .ld) ||| (x.inState .fe)).getLsbD l && decide ((x.vpc l).toNat ≤ pc.toNat)) = [] := by
    rw [List.filter_eq_nil_iff]
    intro l hl
    have := List.all_eq_true.mp h l hl
    cases hb : ((x.inState .ld) ||| (x.inState .fe)).getLsbD l
    · simp
    · simp [hb] at this; simp; omega
  rw [parkedBelow, this, maskOf_nil]

/-- What `legal` says, in its parts. -/
theorem legal_parts {i : Instr} {c : Cur} {x : Warp} {g : Group} (h : legal i c x g = true) :
    i.wellFormed = true ∧ limitsOk i g x.width = true ∧ (needsSup i && !isSup c.w) = false
      ∧ (lanesOf (allowedIn i x c)).length ≠ 0 ∧ chanMisuse i g (shape i).scalar (lanesOf (allowedIn i x c)).length = false
      ∧ (isCross i && parkedBelow x c.pc != 0) = false := by
  simp only [legal, Bool.and_eq_true, bne_iff_ne, ne_eq, Bool.not_eq_true'] at h
  obtain ⟨⟨⟨⟨⟨hwf, hlim⟩, hsup⟩, hn⟩, hch⟩, hcr⟩ := h
  refine ⟨hwf, hlim, ?_, hn, hch, ?_⟩
  · revert hsup; cases needsSup i <;> cases isSup c.w <;> simp
  · cases hi : isCross i
    · rfl
    · rw [hi] at hcr
      simp [parkedBelow_zero (by simpa using hcr)]

/-- The checks let it through with all its lanes. -/
theorem front_of_issued {i : Instr} {s : State} {x : Issue} (h : issued i s = some x) :
    ∃ c, s.cur = some c ∧ front i s c = .go x 0 [] s ∧ x.exec ≠ 0 ∧ x.cur = c := by
  obtain ⟨c, w, g, hc, hw, hg, hcl, rfl⟩ := issued_parts h
  simp only [clear, Bool.and_eq_true, Bool.not_eq_true'] at hcl
  obtain ⟨⟨⟨⟨⟨⟨⟨hleg, hq⟩, hfull⟩, hreg⟩, hrd⟩, hpush⟩, hacq⟩, hpo⟩ := hcl
  obtain ⟨hwf, hlim, hsup, hn, hch, hcr⟩ := legal_parts hleg
  have hne : allowedIn i w c ≠ 0 := by
    intro e; apply hn; rw [e, lanesOf_zero]; rfl
  refine ⟨c, hc, ?_, hne, rfl⟩
  have hmet : marksMet i w (allowedIn i w c) = [] := by
    unfold marksMet
    cases hp : neverParks i with
    | true => rfl
    | false =>
      simp only [hp, Bool.false_or, List.all_eq_true, Bool.and_eq_true, Option.isNone_iff_eq_none] at hreg
      simp only [Bool.false_eq_true, if_false, List.filterMap_eq_nil_iff]
      intro l hl
      rw [(hreg l hl).1]; rfl
  have hwaits : ∀ l ∈ lanesOf (allowedIn i w c),
      (if neverParks i then [] else (namedRegs i w.width).filter fun n => inFlight s c.w n l) = [] := by
    intro l hl
    cases hp : neverParks i with
    | true => rfl
    | false =>
      simp only [hp, Bool.false_or, List.all_eq_true, Bool.and_eq_true, Bool.not_eq_true'] at hreg
      simp only [Bool.false_eq_true, if_false, List.filter_eq_nil_iff]
      intro n hn; simp [(hreg l hl).2 n hn]
  have hpark : ((lanesOf (allowedIn i w c)).filter fun l =>
      !(if neverParks i then [] else (namedRegs i w.width).filter fun n => inFlight s c.w n l).isEmpty) = [] := by
    rw [List.filter_eq_nil_iff]; intro l hl; rw [hwaits l hl]; simp
  have hx : (allowedIn i w c != 0) = true := by simpa using hne
  have hrdy : (matArgs i == none &&
      !chanReady i g (shape i).scalar (lanesOf (allowedIn i w c)).length) = false := by
    revert hrd
    cases hm : matArgs i <;> simp
  have hp : (((openReq s c.w && (chanFields i).any fun f => f.2.1)) || (acquirePending s c.w && touchesGroup i)) = false := by
    rw [hacq]
    revert hpush
    cases (chanFields i).any fun f => f.2.1 <;> simp
  unfold allowedIn at *
  unfold front
  simp only [hw, hg, hwf, hlim, hsup, hch, hcr, Bool.not_true, Bool.or_self, Bool.false_eq_true, if_false, Bool.and_false,
    beq_eq_false_iff_ne.mpr hn, hq, hfull, hmet, marksTaken, List.foldl_nil, List.map_nil, maskOf_nil, and_not_zero, hpark,
    List.isEmpty_nil, bne_self_eq_false, hrdy, hp, hpo, hx, Bool.true_and, beq_self_eq_true, if_true,
    BitVec.or_self]

/-- A full queue holds the warp. -/
theorem front_of_queueFull {i : Instr} {s : State} {c : Cur} {x : Warp} {g : Group} (hw : s.warp? c.w = some x)
    (hg : s.group? (gidOf c.w) = some g) (hl : legal i c x g = true) (hq : queueFull i x = true) :
    front i s c = .stop (holdAt s c.w .other c.set) := by
  obtain ⟨hwf, hlim, hsup, hn, hch, hcr⟩ := legal_parts hl
  unfold allowedIn at *
  unfold front
  simp only [hw, hg, hwf, hlim, hsup, hch, hcr, Bool.not_true, Bool.or_self, Bool.false_eq_true, if_false, Bool.and_false,
    beq_eq_false_iff_ne.mpr hn, hq, Bool.or_true, if_true]

/-- A meaning of an instruction that issues with nothing in its way: its body, closed. -/
theorem run_of_issued {i : Instr} {s : State} {x : Issue} (h : issued i s = some x) (body : Issue → State → Res) :
    run i s body = .next (close i x 0 [] s (body x s)) := by
  obtain ⟨c, hc, hf, hne, -⟩ := front_of_issued h
  have he : (x.exec == 0) = false := beq_eq_false_iff_ne.mpr hne
  simp only [run, hc, hf, he, Bool.false_eq_true, if_false]

/-- A body that is done: the issue set moves on. -/
theorem close_done (i : Instr) (x : Issue) (s t : State) : close i x 0 [] s (.done t) = passed i x t := rfl

theorem mapLanes_of_issued {i : Instr} {s : State} {x : Issue} (h : issued i s = some x)
    (f : DWord → DWord → DWord → DWord × Word) : mapLanes i s f = .next (passed i x (lanewise i f x s)) := by
  rw [mapLanes, run_of_issued h]; rfl

end Sys2Proof.Machine
end

