-- ==== Sys2Proof/Laws/Store.lean ====
section
/-! SUPPORT. Laws of the sparse tables: reading after writing, and the canonical form. -/

namespace Sys2Proof.Machine

variable {α : Type}

theorem sFind_sInsert (m : Store α) (a b : Nat) (v : α) :
    sFind? (sInsert m a v) b = if a = b then some v else sFind? m b := by
  induction m with
  | nil => simp [sInsert, sFind?]
  | cons e m ih =>
    obtain ⟨k, w⟩ := e
    simp only [sInsert]
    by_cases h1 : a < k
    · simp [h1, sFind?]
    · by_cases h2 : a = k
      · subst h2; by_cases h3 : a = b <;> simp [sFind?, h3]
      · simp only [h1, h2, if_false, sFind?, ih]
        by_cases h3 : k = b
        · subst h3; simp [h2]
        · simp [h3]

theorem sFind_sErase (m : Store α) (a b : Nat) : sFind? (sErase m a) b = if a = b then none else sFind? m b := by
  induction m with
  | nil => simp [sErase, sFind?]
  | cons e m ih =>
    obtain ⟨k, w⟩ := e
    by_cases h : k = a
    · subst h
      by_cases h3 : k = b
      · subst h3; simpa [sErase] using ih
      · simp [sErase, sFind?, ih, h3]
    · simp only [sErase, h, if_false, sFind?, ih]
      by_cases h3 : k = b
      · subst h3; simp [Ne.symm h]
      · simp [h3]

/-- Reading after writing. -/
theorem sGet_sSet [DecidableEq α] (d : α) (m : Store α) (a b : Nat) (v : α) :
    sGet d (sSet d m a v) b = if a = b then v else sGet d m b := by
  unfold sSet sGet
  split
  · rename_i h; subst h; rw [sFind_sErase]; split <;> simp
  · rw [sFind_sInsert]; split <;> simp

theorem sFind_sAdjust (m : Store α) (a b : Nat) (f : α → α) :
    sFind? (sAdjust m a f) b = if a = b then (sFind? m b).map f else sFind? m b := by
  unfold sAdjust
  split
  · rename_i v hv; rw [sFind_sInsert]; split
    · rename_i h; subst h; simp [hv]
    · rfl
  · rename_i h; split
    · rename_i h2; subst h2; simp [h]
    · rfl

/-! ### Rising keys -/

theorem sSortedFrom_weaken {a b : Nat} {m : Store α} (h : b ≤ a) (hm : sSortedFrom a m = true) : sSortedFrom b m = true := by
  cases m with
  | nil => rfl
  | cons e m =>
    simp only [sSortedFrom, Bool.and_eq_true, decide_eq_true_eq] at hm ⊢
    exact ⟨by omega, hm.2⟩

theorem sSortedFrom_sInsert {b : Nat} {m : Store α} {a : Nat} (v : α) (ha : b ≤ a) (hm : sSortedFrom b m = true) :
    sSortedFrom b (sInsert m a v) = true := by
  induction m generalizing b with
  | nil => simp [sInsert, sSortedFrom, ha]
  | cons e m ih =>
    obtain ⟨k, w⟩ := e
    simp only [sSortedFrom, Bool.and_eq_true, decide_eq_true_eq] at hm
    simp only [sInsert]
    split
    · simp only [sSortedFrom, Bool.and_eq_true, decide_eq_true_eq]; exact ⟨ha, by omega, hm.2⟩
    · split
      · rename_i h2; subst h2; simp only [sSortedFrom, Bool.and_eq_true, decide_eq_true_eq]; exact hm
      · simp only [sSortedFrom, Bool.and_eq_true, decide_eq_true_eq]; exact ⟨hm.1, ih (by omega) hm.2⟩

theorem sSortedFrom_sErase {b : Nat} {m : Store α} (a : Nat) (hm : sSortedFrom b m = true) : sSortedFrom b (sErase m a) = true := by
  induction m generalizing b with
  | nil => rfl
  | cons e m ih =>
    obtain ⟨k, w⟩ := e
    simp only [sSortedFrom, Bool.and_eq_true, decide_eq_true_eq] at hm
    simp only [sErase]
    split
    · exact ih (sSortedFrom_weaken (by omega) hm.2)
    · simp only [sSortedFrom, Bool.and_eq_true, decide_eq_true_eq]; exact ⟨hm.1, ih hm.2⟩

theorem sSortedFrom_filter {b : Nat} {m : Store α} (p : Nat → α → Bool) (hm : sSortedFrom b m = true) :
    sSortedFrom b (sFilter m p) = true := by
  induction m generalizing b with
  | nil => rfl
  | cons e m ih =>
    obtain ⟨k, w⟩ := e
    simp only [sSortedFrom, Bool.and_eq_true, decide_eq_true_eq] at hm
    simp only [sFilter, List.filter_cons]
    split
    · simp only [sSortedFrom, Bool.and_eq_true, decide_eq_true_eq]; exact ⟨hm.1, ih hm.2⟩
    · exact ih (sSortedFrom_weaken (by omega) hm.2)

theorem mem_sInsert {m : Store α} {a : Nat} {v : α} {e : Nat × α} (h : e ∈ sInsert m a v) : e = (a, v) ∨ e ∈ m := by
  induction m with
  | nil => simpa [sInsert] using h
  | cons f m ih =>
    obtain ⟨k, w⟩ := f
    simp only [sInsert] at h
    split at h
    · simpa using h
    · split at h
      · rcases List.mem_cons.mp h with h | h
        · exact .inl h
        · exact .inr (List.mem_cons_of_mem _ h)
      · rcases List.mem_cons.mp h with h | h
        · exact .inr (h ▸ List.mem_cons_self)
        · rcases ih h with h | h
          · exact .inl h
          · exact .inr (List.mem_cons_of_mem _ h)

theorem mem_sErase {m : Store α} {a : Nat} {e : Nat × α} (h : e ∈ sErase m a) : e ∈ m := by
  induction m with
  | nil => simp [sErase] at h
  | cons f m ih =>
    obtain ⟨k, w⟩ := f
    simp only [sErase] at h
    split at h
    · exact List.mem_cons_of_mem _ (ih h)
    · rcases List.mem_cons.mp h with h | h
      · exact h ▸ List.mem_cons_self
      · exact List.mem_cons_of_mem _ (ih h)

/-! ### The canonical form -/

variable [DecidableEq α] {d : α} {m : Store α}

theorem sWf_iff : sWf d m = true ↔ sSortedFrom 0 m = true ∧ ∀ e ∈ m, e.2 ≠ d := by
  simp [sWf]

theorem sWf_sInsert {a : Nat} {v : α} (hv : v ≠ d) (hm : sWf d m = true) : sWf d (sInsert m a v) = true := by
  rw [sWf_iff] at hm ⊢
  refine ⟨sSortedFrom_sInsert v (Nat.zero_le a) hm.1, fun e he => ?_⟩
  rcases mem_sInsert he with h | h
  · exact h ▸ hv
  · exact hm.2 e h

theorem sWf_sErase {a : Nat} (hm : sWf d m = true) : sWf d (sErase m a) = true := by
  rw [sWf_iff] at hm ⊢
  exact ⟨sSortedFrom_sErase a hm.1, fun e he => hm.2 e (mem_sErase he)⟩

theorem sWf_sSet {a : Nat} {v : α} (hm : sWf d m = true) : sWf d (sSet d m a v) = true := by
  unfold sSet
  split
  · exact sWf_sErase hm
  · exact sWf_sInsert ‹_› hm

theorem sWf_sFilter {p : Nat → α → Bool} (hm : sWf d m = true) : sWf d (sFilter m p) = true := by
  rw [sWf_iff] at hm ⊢
  exact ⟨sSortedFrom_filter p hm.1, fun e he => hm.2 e (List.mem_filter.mp he).1⟩

end Sys2Proof.Machine
end

