-- ==== Sys2Proof/Laws/Memory.lean ====
section
/-! SUPPORT. The operations that write memory keep its canonical form, and a byte reads as it was written. -/

namespace Sys2Proof.Machine

open Sys2Proof

/-- The tables of memory that the canonical form speaks of. -/
theorem memWf_iff {s : State} : s.memWf ↔
    sWf (0 : Byte) s.mem.bytes = true ∧ sSortedFrom 0 s.mem.msc = true ∧ sSortedFrom 0 s.mem.l2 = true ∧ sWf (0 : BitVec 3) s.mem.rel = true
      ∧ sWf false s.mem.poison = true ∧ sWf (0 : Byte) s.mem.dev = true := by
  simp [State.memWf, Memory.wf, and_assoc]

theorem reset_memWf : State.reset.memWf := rfl

/-- What a step of a fold keeps, the fold keeps. -/
theorem foldl_keeps {α β : Type} {P : α → Prop} {f : α → β → α} (l : List β) (h : ∀ a, P a → ∀ b, P (f a b)) {a : α} (ha : P a) :
    P (l.foldl f a) := by
  induction l generalizing a with
  | nil => exact ha
  | cons b l ih => exact ih (h a ha b)

theorem setHomeByte_memWf {s : State} (h : s.memWf) (pa : Nat) (b : Byte) : (setHomeByte s pa b).memWf := by
  rw [memWf_iff] at h ⊢
  unfold setHomeByte
  split
  · exact ⟨sWf_sSet h.1, h.2⟩
  · exact ⟨h.1, h.2.1, sSortedFrom_sInsert b (Nat.zero_le pa) h.2.2.1, h.2.2.2⟩

theorem setRelTag_memWf {s : State} (h : s.memWf) (w : Nat) (t : BitVec 3) : (s.setRelTag w t).memWf := by
  rw [memWf_iff] at h ⊢
  exact ⟨h.1, h.2.1, h.2.2.1, sWf_sSet h.2.2.2.1, h.2.2.2.2⟩

theorem setDir_memWf {s : State} (h : s.memWf) (w : Nat) (d : Dir) : (s.setDir w d).memWf := h

theorem setPoison_memWf {s : State} (h : s.memWf) (k : Nat) (b : Bool) :
    State.memWf { s with mem := { s.mem with poison := sSet false s.mem.poison k b } } := by
  rw [memWf_iff] at h ⊢
  exact ⟨h.1, h.2.1, h.2.2.1, h.2.2.2.1, sWf_sSet h.2.2.2.2.1, h.2.2.2.2.2⟩

theorem setStoreByte_memWf {s : State} (h : s.memWf) (pa : Nat) (b : Byte) : (setStoreByte s pa b).memWf := by
  rw [memWf_iff] at h ⊢
  unfold setStoreByte
  split
  · exact ⟨h.1, h.2.1, h.2.2.1, h.2.2.2.1, h.2.2.2.2.1, sWf_sSet h.2.2.2.2.2⟩
  · exact ⟨sWf_sSet h.1, h.2⟩

theorem homeWrite_memWf {s : State} (h : s.memWf) (bs : Bytes) (tag : Option (BitVec 3)) : (homeWrite s bs tag).memWf := by
  unfold homeWrite
  refine foldl_keeps _ (fun s hs k => ?_) ?_
  · exact setPoison_memWf hs k false
  · have h1 : State.memWf (bs.foldl (fun s e => setHomeByte s e.1 e.2) s) :=
      foldl_keeps (P := State.memWf) bs (fun s hs (e : Nat × Byte) => setHomeByte_memWf hs e.1 e.2) h
    cases tag with
    | none => exact h1
    | some t => exact foldl_keeps (P := State.memWf) (f := fun s w => s.setRelTag w t) _ (fun s hs w => setRelTag_memWf hs w t) h1

theorem lineToPlinth_memWf {s : State} (h : s.memWf) (line : Nat) : (lineToPlinth s line).memWf := by
  unfold lineToPlinth
  split
  · exact h
  · rw [memWf_iff] at h ⊢
    exact ⟨h.1, foldl_keeps (P := fun m : Store Byte => sSortedFrom 0 m = true) _
        (fun _ hm e => sSortedFrom_sInsert _ (Nat.zero_le e.1) hm) h.2.1,
      sSortedFrom_filter (fun a _ => a / 128 != line) h.2.2.1, h.2.2.2⟩

theorem lineToStore_memWf {s : State} (h : s.memWf) (line : Nat) : (lineToStore s line).memWf := by
  unfold lineToStore
  split
  · exact h
  · have h1 : State.memWf ((s.mem.msc.filter fun e => e.1 / 128 == line).foldl (fun s e => setStoreByte s e.1 e.2) s) :=
      foldl_keeps (P := State.memWf) _ (fun s hs e => setStoreByte_memWf hs e.1 e.2) h
    rw [memWf_iff] at h h1 ⊢
    exact ⟨h1.1, sSortedFrom_filter (fun a _ => a / 128 != line) h1.2.1, h1.2.2⟩

theorem poisonBytes_memWf {s : State} (h : s.memWf) (pa n : Nat) : (poisonBytes s pa n).memWf :=
  setPoison_memWf (setPoison_memWf h (pa / 32) true) ((pa + n - 1) / 32) true

theorem poisonMemory_memWf {s : State} (h : s.memWf) (pa : Nat) : (poisonMemory s pa).memWf := by
  unfold poisonMemory
  split
  · exact h
  · exact setPoison_memWf h _ true

theorem placeInstr_memWf {s : State} (h : s.memWf) (bs : List Byte) : (placeInstr s bs).memWf := by
  rw [memWf_iff] at h ⊢
  exact ⟨foldl_keeps (P := fun m : Store Byte => sWf (0 : Byte) m = true) _ (fun _ hm _ => sWf_sSet hm) h.1,
    foldl_keeps (P := fun m : Store Byte => sSortedFrom 0 m = true) _ (fun _ hm _ => sSortedFrom_sErase _ hm) h.2.1,
    foldl_keeps (P := fun m : Store Byte => sSortedFrom 0 m = true) _ (fun _ hm _ => sSortedFrom_sErase _ hm) h.2.2.1, h.2.2.2⟩

/-- A moved table keeps its values, so that its entries stay away from the default. -/
theorem movedKeys_ne {α : Type} [DecidableEq α] {d : α} {m : Store α} (hm : sWf d m = true) {unit src dst : Nat} :
    ∀ e ∈ movedKeys m unit src dst, e.2 ≠ d := by
  intro e he
  simp only [movedKeys, List.mem_map, List.mem_filter] at he
  obtain ⟨f, hf, rfl⟩ := he
  exact (sWf_iff.mp hm).2 f hf.1

theorem sWf_inserts {α : Type} [DecidableEq α] {d : α} (l : Store α) (hl : ∀ e ∈ l, e.2 ≠ d) {m : Store α} (hm : sWf d m = true) :
    sWf d (l.foldl (fun m e => sInsert m e.1 e.2) m) = true := by
  induction l generalizing m with
  | nil => exact hm
  | cons e l ih =>
    exact ih (fun f hf => hl f (List.mem_cons_of_mem _ hf)) (sWf_sInsert (hl e List.mem_cons_self) hm)

/-- A copied page: the last step of `copyPage`, from any state in canonical form. -/
theorem movedFrame_memWf {s : State} (h : s.memWf) (src dst : Nat) :
    State.memWf { s with mem := { s.mem with
      rel := (movedKeys s.mem.rel 4 src dst).foldl (fun m e => sInsert m e.1 e.2) (outsideFrame s.mem.rel 4 dst)
      poison := (movedKeys s.mem.poison 32 src dst).foldl (fun m e => sInsert m e.1 e.2) (outsideFrame s.mem.poison 32 dst) } } := by
  rw [memWf_iff] at h ⊢
  exact ⟨h.1, h.2.1, h.2.2.1, sWf_inserts _ (movedKeys_ne h.2.2.2.1) (sWf_sFilter h.2.2.2.1),
    sWf_inserts _ (movedKeys_ne h.2.2.2.2.1) (sWf_sFilter h.2.2.2.2.1), h.2.2.2.2.2⟩

/-! ### Reading after writing -/

theorem plinthByte_setHomeByte_host {s : State} {pa : Nat} (h : spaceOf s pa = .host) (b : Byte) (a : Nat)
    (hm : sFind? s.mem.msc a = none) (hd : devKey s a = none) :
    plinthByte (setHomeByte s pa b) a = if pa = a then b else plinthByte s a := by
  have hd' : devKey (setHomeByte s pa b) a = none := by rw [setHomeByte, h]; exact hd
  rw [plinthByte, plinthByte, hd, hd', setHomeByte, h]
  simp only [hm]
  exact sGet_sSet ..

theorem l2_setHomeByte {s : State} {pa : Nat} (h : spaceOf s pa ≠ .host) (b : Byte) (a : Nat) :
    sFind? (setHomeByte s pa b).mem.l2 a = if pa = a then some b else sFind? s.mem.l2 a := by
  unfold setHomeByte
  split
  · exact absurd ‹_› h
  · exact sFind_sInsert ..

end Sys2Proof.Machine
end

