-- ==== Sys2Proof/Laws/Request.lean ====
section
/-! SUPPORT. When every lane of an access may act: judging then gives a place for each lane and changes nothing. -/

namespace Sys2Proof.Machine

/-- A translation that the CU's TLB holds changes nothing, where the context is enabled and a twin's table is in use (R343, R345). -/
theorem translate_hit {s : State} {c : CuId} {t : Tag} {sup : Bool} {k : AccKind} {va : Addr} {e : Tlb} (hv : legalVa va = true)
    (hc : bit (s.ctx t).ptbase 0 = true) (he : tlbFind s c t va = some e) (ht : (bit e.pte 7 && !bit s.sup.twintab 0) = false) :
    translate s c t sup k va = (leafChecks s t sup k e.pte e.size va false, s) := by
  simp only [translate, translateTo, hv, hc, he, heldLeaf, ht]
  rfl

/-- Offsets that are aligned and lie in the window are good, in their order (R152). -/
theorem judgePad_good {s : State} {h : GroupId} {g : Group} {n : Nat} {os : List (Nat × Nat)} (hg : s.group? h = some g)
    (ok : ∀ e ∈ os, e.2 % n = 0 ∧ e.2 < g.winSize) :
    judgePad s (some h) n os = ⟨os.map fun e => ⟨e.1, BitVec.ofNat 64 e.2, e.2, false, false⟩, [], [], false⟩ := by
  have go : ∀ (l : List (Nat × Nat)) (j : Judged), (∀ e ∈ l, e.2 % n = 0 ∧ e.2 < g.winSize) →
      l.foldl (fun j e =>
        if e.2 % n != 0 then { j with faults := j.faults ++ [⟨e.1, 0x04, BitVec.ofNat 64 e.2, none⟩] }
        else if (some h).isNone || decide (g.winSize ≤ e.2) then
          { j with faults := j.faults ++ [⟨e.1, 0x11, BitVec.ofNat 64 e.2, none⟩] }
        else { j with good := j.good ++ [⟨e.1, BitVec.ofNat 64 e.2, e.2, false, false⟩] }) j
      = { j with good := j.good ++ l.map fun e => ⟨e.1, BitVec.ofNat 64 e.2, e.2, false, false⟩ } := by
    intro l
    induction l with
    | nil => intro j _; simp
    | cons e l ih =>
      intro j hl
      have h1 := hl e (by simp)
      rw [List.foldl_cons, if_neg (by simp [h1.1]), if_neg (by simpa using h1.2), ih _ fun q hq => hl q (by simp [hq])]
      simp
  simpa [judgePad, hg, Judged.none] using go os Judged.none ok

/-- Addresses that are aligned, that translate without a change of the state, and that meet the conditions on the physical
address, are good, in their order (R149). -/
theorem judge_good {s : State} {w : WarpId} {k : AccKind} {n : Nat} {cas : Bool} {post : Nat → Option Nat} {pa : Addr → Nat}
    {sm : Addr → Bool} {vas : List (Nat × Addr)}
    (ok : ∀ e ∈ vas, e.2.toNat % n = 0 ∧ post (pa e.2) = none
      ∧ translate s (cuOf (gidOf w)) (tagOf s w) (isSup w) k e.2 = (.ok (pa e.2) (sm e.2), s)) :
    judge s w k n cas post vas = (⟨vas.map fun e => ⟨e.1, e.2, pa e.2, sm e.2, false⟩, [], [], false⟩, s) := by
  have go : ∀ (l : List (Nat × Addr)) (j : Judged), (∀ e ∈ l, e.2.toNat % n = 0 ∧ post (pa e.2) = none
        ∧ translate s (cuOf (gidOf w)) (tagOf s w) (isSup w) k e.2 = (.ok (pa e.2) (sm e.2), s)) →
      l.foldl (fun js e => judgeOne js.2 w k n cas post e.1 e.2 js.1) (j, s)
        = ({ j with good := j.good ++ l.map fun e => ⟨e.1, e.2, pa e.2, sm e.2, false⟩ }, s) := by
    intro l
    induction l with
    | nil => intro j _; simp
    | cons e l ih =>
      intro j hl
      have h1 := hl e (by simp)
      have h2 : judgeOne s w k n cas post e.1 e.2 j = ({ j with good := j.good ++ [⟨e.1, e.2, pa e.2, sm e.2, false⟩] }, s) := by
        simp [judgeOne, h1.1, h1.2.1, h1.2.2]
      rw [List.foldl_cons, h2, ih _ fun q hq => hl q (by simp [hq])]
      simp
  simpa [judge, Judged.none] using go vas Judged.none ok

end Sys2Proof.Machine
end

