-- ==== Sys2Proof/Laws/State.lean ====
section
/-! SUPPORT. What each update of the state leaves as it was, field by field, and what its tables read afterwards. -/

namespace Sys2Proof.Machine.State

open Sys2Proof Machine

/-! ### Tables after an update -/

theorem warp?_setWarp (s : State) (w v : WarpId) (x : Warp) : (s.setWarp w x).warp? v = if w = v then some x else s.warp? v :=
  sFind_sInsert ..
theorem warp?_modWarp (s : State) (w v : WarpId) (f : Warp → Warp) :
    (s.modWarp w f).warp? v = if w = v then (s.warp? v).map f else s.warp? v := sFind_sAdjust ..
theorem group?_setGroup (s : State) (g h : GroupId) (x : Group) :
    (s.setGroup g x).group? h = if g = h then some x else s.group? h := sFind_sInsert ..
theorem group?_modGroup (s : State) (g h : GroupId) (f : Group → Group) :
    (s.modGroup g f).group? h = if g = h then (s.group? h).map f else s.group? h := sFind_sAdjust ..
theorem cu_setCu (s : State) (c e : CuId) (x : CU) : (s.setCu c x).cu e = if c = e then x else s.cu e := sGet_sSet ..
theorem cu_modCu (s : State) (c e : CuId) (f : CU → CU) : (s.modCu c f).cu e = if c = e then f (s.cu c) else s.cu e :=
  cu_setCu ..

/-! ### Fields that an update leaves -/

@[simp] theorem setWarp_agenda (s : State) (w : WarpId) (x : Warp) : (s.setWarp w x).agenda = s.agenda := rfl
@[simp] theorem setWarp_cur (s : State) (w : WarpId) (x : Warp) : (s.setWarp w x).cur = s.cur := rfl
@[simp] theorem setWarp_order (s : State) (w : WarpId) (x : Warp) : (s.setWarp w x).order = s.order := rfl
@[simp] theorem setWarp_tick (s : State) (w : WarpId) (x : Warp) : (s.setWarp w x).tick = s.tick := rfl
@[simp] theorem setWarp_seq (s : State) (w : WarpId) (x : Warp) : (s.setWarp w x).seq = s.seq := rfl
@[simp] theorem setWarp_fc (s : State) (w : WarpId) (x : Warp) : (s.setWarp w x).fc = s.fc := rfl
@[simp] theorem setWarp_exch (s : State) (w : WarpId) (x : Warp) : (s.setWarp w x).exch = s.exch := rfl
@[simp] theorem setWarp_groups (s : State) (w : WarpId) (x : Warp) : (s.setWarp w x).groups = s.groups := rfl
@[simp] theorem setWarp_clusters (s : State) (w : WarpId) (x : Warp) : (s.setWarp w x).clusters = s.clusters := rfl
@[simp] theorem setWarp_cus (s : State) (w : WarpId) (x : Warp) : (s.setWarp w x).cus = s.cus := rfl
@[simp] theorem setWarp_launches (s : State) (w : WarpId) (x : Warp) : (s.setWarp w x).launches = s.launches := rfl
@[simp] theorem setWarp_launchId (s : State) (w : WarpId) (x : Warp) : (s.setWarp w x).launchId = s.launchId := rfl
@[simp] theorem setWarp_cpq (s : State) (w : WarpId) (x : Warp) : (s.setWarp w x).cpq = s.cpq := rfl
@[simp] theorem setWarp_bars (s : State) (w : WarpId) (x : Warp) : (s.setWarp w x).bars = s.bars := rfl
@[simp] theorem setWarp_mem (s : State) (w : WarpId) (x : Warp) : (s.setWarp w x).mem = s.mem := rfl
@[simp] theorem setWarp_reqs (s : State) (w : WarpId) (x : Warp) : (s.setWarp w x).reqs = s.reqs := rfl
@[simp] theorem setWarp_accCopy (s : State) (w : WarpId) (x : Warp) : (s.setWarp w x).accCopy = s.accCopy := rfl
@[simp] theorem setWarp_holders (s : State) (w : WarpId) (x : Warp) : (s.setWarp w x).holders = s.holders := rfl
@[simp] theorem setWarp_combines (s : State) (w : WarpId) (x : Warp) : (s.setWarp w x).combines = s.combines := rfl
@[simp] theorem setWarp_regions (s : State) (w : WarpId) (x : Warp) : (s.setWarp w x).regions = s.regions := rfl
@[simp] theorem setWarp_trigs (s : State) (w : WarpId) (x : Warp) : (s.setWarp w x).trigs = s.trigs := rfl
@[simp] theorem setWarp_engs (s : State) (w : WarpId) (x : Warp) : (s.setWarp w x).engs = s.engs := rfl
@[simp] theorem setWarp_tlbs (s : State) (w : WarpId) (x : Warp) : (s.setWarp w x).tlbs = s.tlbs := rfl
@[simp] theorem setWarp_tlbis (s : State) (w : WarpId) (x : Warp) : (s.setWarp w x).tlbis = s.tlbis := rfl
@[simp] theorem setWarp_migs (s : State) (w : WarpId) (x : Warp) : (s.setWarp w x).migs = s.migs := rfl
@[simp] theorem setWarp_pubs (s : State) (w : WarpId) (x : Warp) : (s.setWarp w x).pubs = s.pubs := rfl
@[simp] theorem setWarp_saved (s : State) (w : WarpId) (x : Warp) : (s.setWarp w x).saved = s.saved := rfl
@[simp] theorem setWarp_outs (s : State) (w : WarpId) (x : Warp) : (s.setWarp w x).outs = s.outs := rfl
@[simp] theorem setWarp_ctxs (s : State) (w : WarpId) (x : Warp) : (s.setWarp w x).ctxs = s.ctxs := rfl
@[simp] theorem setWarp_sup (s : State) (w : WarpId) (x : Warp) : (s.setWarp w x).sup = s.sup := rfl
@[simp] theorem setWarp_fab (s : State) (w : WarpId) (x : Warp) : (s.setWarp w x).fab = s.fab := rfl
@[simp] theorem setWarp_plinths (s : State) (w : WarpId) (x : Warp) : (s.setWarp w x).plinths = s.plinths := rfl
@[simp] theorem setWarp_host (s : State) (w : WarpId) (x : Warp) : (s.setWarp w x).host = s.host := rfl
@[simp] theorem setWarp_dbg (s : State) (w : WarpId) (x : Warp) : (s.setWarp w x).dbg = s.dbg := rfl

@[simp] theorem modWarp_agenda (s : State) (w : WarpId) (f : Warp → Warp) : (s.modWarp w f).agenda = s.agenda := rfl
@[simp] theorem modWarp_cur (s : State) (w : WarpId) (f : Warp → Warp) : (s.modWarp w f).cur = s.cur := rfl
@[simp] theorem modWarp_order (s : State) (w : WarpId) (f : Warp → Warp) : (s.modWarp w f).order = s.order := rfl
@[simp] theorem modWarp_tick (s : State) (w : WarpId) (f : Warp → Warp) : (s.modWarp w f).tick = s.tick := rfl
@[simp] theorem modWarp_seq (s : State) (w : WarpId) (f : Warp → Warp) : (s.modWarp w f).seq = s.seq := rfl
@[simp] theorem modWarp_fc (s : State) (w : WarpId) (f : Warp → Warp) : (s.modWarp w f).fc = s.fc := rfl
@[simp] theorem modWarp_exch (s : State) (w : WarpId) (f : Warp → Warp) : (s.modWarp w f).exch = s.exch := rfl
@[simp] theorem modWarp_groups (s : State) (w : WarpId) (f : Warp → Warp) : (s.modWarp w f).groups = s.groups := rfl
@[simp] theorem modWarp_clusters (s : State) (w : WarpId) (f : Warp → Warp) : (s.modWarp w f).clusters = s.clusters := rfl
@[simp] theorem modWarp_cus (s : State) (w : WarpId) (f : Warp → Warp) : (s.modWarp w f).cus = s.cus := rfl
@[simp] theorem modWarp_launches (s : State) (w : WarpId) (f : Warp → Warp) : (s.modWarp w f).launches = s.launches := rfl
@[simp] theorem modWarp_launchId (s : State) (w : WarpId) (f : Warp → Warp) : (s.modWarp w f).launchId = s.launchId := rfl
@[simp] theorem modWarp_cpq (s : State) (w : WarpId) (f : Warp → Warp) : (s.modWarp w f).cpq = s.cpq := rfl
@[simp] theorem modWarp_bars (s : State) (w : WarpId) (f : Warp → Warp) : (s.modWarp w f).bars = s.bars := rfl
@[simp] theorem modWarp_mem (s : State) (w : WarpId) (f : Warp → Warp) : (s.modWarp w f).mem = s.mem := rfl
@[simp] theorem modWarp_reqs (s : State) (w : WarpId) (f : Warp → Warp) : (s.modWarp w f).reqs = s.reqs := rfl
@[simp] theorem modWarp_accCopy (s : State) (w : WarpId) (f : Warp → Warp) : (s.modWarp w f).accCopy = s.accCopy := rfl
@[simp] theorem modWarp_holders (s : State) (w : WarpId) (f : Warp → Warp) : (s.modWarp w f).holders = s.holders := rfl
@[simp] theorem modWarp_combines (s : State) (w : WarpId) (f : Warp → Warp) : (s.modWarp w f).combines = s.combines := rfl
@[simp] theorem modWarp_regions (s : State) (w : WarpId) (f : Warp → Warp) : (s.modWarp w f).regions = s.regions := rfl
@[simp] theorem modWarp_trigs (s : State) (w : WarpId) (f : Warp → Warp) : (s.modWarp w f).trigs = s.trigs := rfl
@[simp] theorem modWarp_engs (s : State) (w : WarpId) (f : Warp → Warp) : (s.modWarp w f).engs = s.engs := rfl
@[simp] theorem modWarp_tlbs (s : State) (w : WarpId) (f : Warp → Warp) : (s.modWarp w f).tlbs = s.tlbs := rfl
@[simp] theorem modWarp_tlbis (s : State) (w : WarpId) (f : Warp → Warp) : (s.modWarp w f).tlbis = s.tlbis := rfl
@[simp] theorem modWarp_migs (s : State) (w : WarpId) (f : Warp → Warp) : (s.modWarp w f).migs = s.migs := rfl
@[simp] theorem modWarp_pubs (s : State) (w : WarpId) (f : Warp → Warp) : (s.modWarp w f).pubs = s.pubs := rfl
@[simp] theorem modWarp_saved (s : State) (w : WarpId) (f : Warp → Warp) : (s.modWarp w f).saved = s.saved := rfl
@[simp] theorem modWarp_outs (s : State) (w : WarpId) (f : Warp → Warp) : (s.modWarp w f).outs = s.outs := rfl
@[simp] theorem modWarp_ctxs (s : State) (w : WarpId) (f : Warp → Warp) : (s.modWarp w f).ctxs = s.ctxs := rfl
@[simp] theorem modWarp_sup (s : State) (w : WarpId) (f : Warp → Warp) : (s.modWarp w f).sup = s.sup := rfl
@[simp] theorem modWarp_fab (s : State) (w : WarpId) (f : Warp → Warp) : (s.modWarp w f).fab = s.fab := rfl
@[simp] theorem modWarp_plinths (s : State) (w : WarpId) (f : Warp → Warp) : (s.modWarp w f).plinths = s.plinths := rfl
@[simp] theorem modWarp_host (s : State) (w : WarpId) (f : Warp → Warp) : (s.modWarp w f).host = s.host := rfl
@[simp] theorem modWarp_dbg (s : State) (w : WarpId) (f : Warp → Warp) : (s.modWarp w f).dbg = s.dbg := rfl

@[simp] theorem setGroup_agenda (s : State) (g : GroupId) (x : Group) : (s.setGroup g x).agenda = s.agenda := rfl
@[simp] theorem setGroup_cur (s : State) (g : GroupId) (x : Group) : (s.setGroup g x).cur = s.cur := rfl
@[simp] theorem setGroup_order (s : State) (g : GroupId) (x : Group) : (s.setGroup g x).order = s.order := rfl
@[simp] theorem setGroup_tick (s : State) (g : GroupId) (x : Group) : (s.setGroup g x).tick = s.tick := rfl
@[simp] theorem setGroup_seq (s : State) (g : GroupId) (x : Group) : (s.setGroup g x).seq = s.seq := rfl
@[simp] theorem setGroup_fc (s : State) (g : GroupId) (x : Group) : (s.setGroup g x).fc = s.fc := rfl
@[simp] theorem setGroup_exch (s : State) (g : GroupId) (x : Group) : (s.setGroup g x).exch = s.exch := rfl
@[simp] theorem setGroup_warps (s : State) (g : GroupId) (x : Group) : (s.setGroup g x).warps = s.warps := rfl
@[simp] theorem setGroup_clusters (s : State) (g : GroupId) (x : Group) : (s.setGroup g x).clusters = s.clusters := rfl
@[simp] theorem setGroup_cus (s : State) (g : GroupId) (x : Group) : (s.setGroup g x).cus = s.cus := rfl
@[simp] theorem setGroup_launches (s : State) (g : GroupId) (x : Group) : (s.setGroup g x).launches = s.launches := rfl
@[simp] theorem setGroup_launchId (s : State) (g : GroupId) (x : Group) : (s.setGroup g x).launchId = s.launchId := rfl
@[simp] theorem setGroup_cpq (s : State) (g : GroupId) (x : Group) : (s.setGroup g x).cpq = s.cpq := rfl
@[simp] theorem setGroup_bars (s : State) (g : GroupId) (x : Group) : (s.setGroup g x).bars = s.bars := rfl
@[simp] theorem setGroup_mem (s : State) (g : GroupId) (x : Group) : (s.setGroup g x).mem = s.mem := rfl
@[simp] theorem setGroup_reqs (s : State) (g : GroupId) (x : Group) : (s.setGroup g x).reqs = s.reqs := rfl
@[simp] theorem setGroup_accCopy (s : State) (g : GroupId) (x : Group) : (s.setGroup g x).accCopy = s.accCopy := rfl
@[simp] theorem setGroup_holders (s : State) (g : GroupId) (x : Group) : (s.setGroup g x).holders = s.holders := rfl
@[simp] theorem setGroup_combines (s : State) (g : GroupId) (x : Group) : (s.setGroup g x).combines = s.combines := rfl
@[simp] theorem setGroup_regions (s : State) (g : GroupId) (x : Group) : (s.setGroup g x).regions = s.regions := rfl
@[simp] theorem setGroup_trigs (s : State) (g : GroupId) (x : Group) : (s.setGroup g x).trigs = s.trigs := rfl
@[simp] theorem setGroup_engs (s : State) (g : GroupId) (x : Group) : (s.setGroup g x).engs = s.engs := rfl
@[simp] theorem setGroup_tlbs (s : State) (g : GroupId) (x : Group) : (s.setGroup g x).tlbs = s.tlbs := rfl
@[simp] theorem setGroup_tlbis (s : State) (g : GroupId) (x : Group) : (s.setGroup g x).tlbis = s.tlbis := rfl
@[simp] theorem setGroup_migs (s : State) (g : GroupId) (x : Group) : (s.setGroup g x).migs = s.migs := rfl
@[simp] theorem setGroup_pubs (s : State) (g : GroupId) (x : Group) : (s.setGroup g x).pubs = s.pubs := rfl
@[simp] theorem setGroup_saved (s : State) (g : GroupId) (x : Group) : (s.setGroup g x).saved = s.saved := rfl
@[simp] theorem setGroup_outs (s : State) (g : GroupId) (x : Group) : (s.setGroup g x).outs = s.outs := rfl
@[simp] theorem setGroup_ctxs (s : State) (g : GroupId) (x : Group) : (s.setGroup g x).ctxs = s.ctxs := rfl
@[simp] theorem setGroup_sup (s : State) (g : GroupId) (x : Group) : (s.setGroup g x).sup = s.sup := rfl
@[simp] theorem setGroup_fab (s : State) (g : GroupId) (x : Group) : (s.setGroup g x).fab = s.fab := rfl
@[simp] theorem setGroup_plinths (s : State) (g : GroupId) (x : Group) : (s.setGroup g x).plinths = s.plinths := rfl
@[simp] theorem setGroup_host (s : State) (g : GroupId) (x : Group) : (s.setGroup g x).host = s.host := rfl
@[simp] theorem setGroup_dbg (s : State) (g : GroupId) (x : Group) : (s.setGroup g x).dbg = s.dbg := rfl

@[simp] theorem modGroup_agenda (s : State) (g : GroupId) (f : Group → Group) : (s.modGroup g f).agenda = s.agenda := rfl
@[simp] theorem modGroup_cur (s : State) (g : GroupId) (f : Group → Group) : (s.modGroup g f).cur = s.cur := rfl
@[simp] theorem modGroup_order (s : State) (g : GroupId) (f : Group → Group) : (s.modGroup g f).order = s.order := rfl
@[simp] theorem modGroup_tick (s : State) (g : GroupId) (f : Group → Group) : (s.modGroup g f).tick = s.tick := rfl
@[simp] theorem modGroup_seq (s : State) (g : GroupId) (f : Group → Group) : (s.modGroup g f).seq = s.seq := rfl
@[simp] theorem modGroup_fc (s : State) (g : GroupId) (f : Group → Group) : (s.modGroup g f).fc = s.fc := rfl
@[simp] theorem modGroup_exch (s : State) (g : GroupId) (f : Group → Group) : (s.modGroup g f).exch = s.exch := rfl
@[simp] theorem modGroup_warps (s : State) (g : GroupId) (f : Group → Group) : (s.modGroup g f).warps = s.warps := rfl
@[simp] theorem modGroup_clusters (s : State) (g : GroupId) (f : Group → Group) : (s.modGroup g f).clusters = s.clusters := rfl
@[simp] theorem modGroup_cus (s : State) (g : GroupId) (f : Group → Group) : (s.modGroup g f).cus = s.cus := rfl
@[simp] theorem modGroup_launches (s : State) (g : GroupId) (f : Group → Group) : (s.modGroup g f).launches = s.launches := rfl
@[simp] theorem modGroup_launchId (s : State) (g : GroupId) (f : Group → Group) : (s.modGroup g f).launchId = s.launchId := rfl
@[simp] theorem modGroup_cpq (s : State) (g : GroupId) (f : Group → Group) : (s.modGroup g f).cpq = s.cpq := rfl
@[simp] theorem modGroup_bars (s : State) (g : GroupId) (f : Group → Group) : (s.modGroup g f).bars = s.bars := rfl
@[simp] theorem modGroup_mem (s : State) (g : GroupId) (f : Group → Group) : (s.modGroup g f).mem = s.mem := rfl
@[simp] theorem modGroup_reqs (s : State) (g : GroupId) (f : Group → Group) : (s.modGroup g f).reqs = s.reqs := rfl
@[simp] theorem modGroup_accCopy (s : State) (g : GroupId) (f : Group → Group) : (s.modGroup g f).accCopy = s.accCopy := rfl
@[simp] theorem modGroup_holders (s : State) (g : GroupId) (f : Group → Group) : (s.modGroup g f).holders = s.holders := rfl
@[simp] theorem modGroup_combines (s : State) (g : GroupId) (f : Group → Group) : (s.modGroup g f).combines = s.combines := rfl
@[simp] theorem modGroup_regions (s : State) (g : GroupId) (f : Group → Group) : (s.modGroup g f).regions = s.regions := rfl
@[simp] theorem modGroup_trigs (s : State) (g : GroupId) (f : Group → Group) : (s.modGroup g f).trigs = s.trigs := rfl
@[simp] theorem modGroup_engs (s : State) (g : GroupId) (f : Group → Group) : (s.modGroup g f).engs = s.engs := rfl
@[simp] theorem modGroup_tlbs (s : State) (g : GroupId) (f : Group → Group) : (s.modGroup g f).tlbs = s.tlbs := rfl
@[simp] theorem modGroup_tlbis (s : State) (g : GroupId) (f : Group → Group) : (s.modGroup g f).tlbis = s.tlbis := rfl
@[simp] theorem modGroup_migs (s : State) (g : GroupId) (f : Group → Group) : (s.modGroup g f).migs = s.migs := rfl
@[simp] theorem modGroup_pubs (s : State) (g : GroupId) (f : Group → Group) : (s.modGroup g f).pubs = s.pubs := rfl
@[simp] theorem modGroup_saved (s : State) (g : GroupId) (f : Group → Group) : (s.modGroup g f).saved = s.saved := rfl
@[simp] theorem modGroup_outs (s : State) (g : GroupId) (f : Group → Group) : (s.modGroup g f).outs = s.outs := rfl
@[simp] theorem modGroup_ctxs (s : State) (g : GroupId) (f : Group → Group) : (s.modGroup g f).ctxs = s.ctxs := rfl
@[simp] theorem modGroup_sup (s : State) (g : GroupId) (f : Group → Group) : (s.modGroup g f).sup = s.sup := rfl
@[simp] theorem modGroup_fab (s : State) (g : GroupId) (f : Group → Group) : (s.modGroup g f).fab = s.fab := rfl
@[simp] theorem modGroup_plinths (s : State) (g : GroupId) (f : Group → Group) : (s.modGroup g f).plinths = s.plinths := rfl
@[simp] theorem modGroup_host (s : State) (g : GroupId) (f : Group → Group) : (s.modGroup g f).host = s.host := rfl
@[simp] theorem modGroup_dbg (s : State) (g : GroupId) (f : Group → Group) : (s.modGroup g f).dbg = s.dbg := rfl

@[simp] theorem setCu_agenda (s : State) (c : CuId) (x : CU) : (s.setCu c x).agenda = s.agenda := rfl
@[simp] theorem setCu_cur (s : State) (c : CuId) (x : CU) : (s.setCu c x).cur = s.cur := rfl
@[simp] theorem setCu_order (s : State) (c : CuId) (x : CU) : (s.setCu c x).order = s.order := rfl
@[simp] theorem setCu_tick (s : State) (c : CuId) (x : CU) : (s.setCu c x).tick = s.tick := rfl
@[simp] theorem setCu_seq (s : State) (c : CuId) (x : CU) : (s.setCu c x).seq = s.seq := rfl
@[simp] theorem setCu_fc (s : State) (c : CuId) (x : CU) : (s.setCu c x).fc = s.fc := rfl
@[simp] theorem setCu_exch (s : State) (c : CuId) (x : CU) : (s.setCu c x).exch = s.exch := rfl
@[simp] theorem setCu_warps (s : State) (c : CuId) (x : CU) : (s.setCu c x).warps = s.warps := rfl
@[simp] theorem setCu_groups (s : State) (c : CuId) (x : CU) : (s.setCu c x).groups = s.groups := rfl
@[simp] theorem setCu_clusters (s : State) (c : CuId) (x : CU) : (s.setCu c x).clusters = s.clusters := rfl
@[simp] theorem setCu_launches (s : State) (c : CuId) (x : CU) : (s.setCu c x).launches = s.launches := rfl
@[simp] theorem setCu_launchId (s : State) (c : CuId) (x : CU) : (s.setCu c x).launchId = s.launchId := rfl
@[simp] theorem setCu_cpq (s : State) (c : CuId) (x : CU) : (s.setCu c x).cpq = s.cpq := rfl
@[simp] theorem setCu_bars (s : State) (c : CuId) (x : CU) : (s.setCu c x).bars = s.bars := rfl
@[simp] theorem setCu_mem (s : State) (c : CuId) (x : CU) : (s.setCu c x).mem = s.mem := rfl
@[simp] theorem setCu_reqs (s : State) (c : CuId) (x : CU) : (s.setCu c x).reqs = s.reqs := rfl
@[simp] theorem setCu_accCopy (s : State) (c : CuId) (x : CU) : (s.setCu c x).accCopy = s.accCopy := rfl
@[simp] theorem setCu_holders (s : State) (c : CuId) (x : CU) : (s.setCu c x).holders = s.holders := rfl
@[simp] theorem setCu_combines (s : State) (c : CuId) (x : CU) : (s.setCu c x).combines = s.combines := rfl
@[simp] theorem setCu_regions (s : State) (c : CuId) (x : CU) : (s.setCu c x).regions = s.regions := rfl
@[simp] theorem setCu_trigs (s : State) (c : CuId) (x : CU) : (s.setCu c x).trigs = s.trigs := rfl
@[simp] theorem setCu_engs (s : State) (c : CuId) (x : CU) : (s.setCu c x).engs = s.engs := rfl
@[simp] theorem setCu_tlbs (s : State) (c : CuId) (x : CU) : (s.setCu c x).tlbs = s.tlbs := rfl
@[simp] theorem setCu_tlbis (s : State) (c : CuId) (x : CU) : (s.setCu c x).tlbis = s.tlbis := rfl
@[simp] theorem setCu_migs (s : State) (c : CuId) (x : CU) : (s.setCu c x).migs = s.migs := rfl
@[simp] theorem setCu_pubs (s : State) (c : CuId) (x : CU) : (s.setCu c x).pubs = s.pubs := rfl
@[simp] theorem setCu_saved (s : State) (c : CuId) (x : CU) : (s.setCu c x).saved = s.saved := rfl
@[simp] theorem setCu_outs (s : State) (c : CuId) (x : CU) : (s.setCu c x).outs = s.outs := rfl
@[simp] theorem setCu_ctxs (s : State) (c : CuId) (x : CU) : (s.setCu c x).ctxs = s.ctxs := rfl
@[simp] theorem setCu_sup (s : State) (c : CuId) (x : CU) : (s.setCu c x).sup = s.sup := rfl
@[simp] theorem setCu_fab (s : State) (c : CuId) (x : CU) : (s.setCu c x).fab = s.fab := rfl
@[simp] theorem setCu_plinths (s : State) (c : CuId) (x : CU) : (s.setCu c x).plinths = s.plinths := rfl
@[simp] theorem setCu_host (s : State) (c : CuId) (x : CU) : (s.setCu c x).host = s.host := rfl
@[simp] theorem setCu_dbg (s : State) (c : CuId) (x : CU) : (s.setCu c x).dbg = s.dbg := rfl

@[simp] theorem modCu_agenda (s : State) (c : CuId) (f : CU → CU) : (s.modCu c f).agenda = s.agenda := rfl
@[simp] theorem modCu_cur (s : State) (c : CuId) (f : CU → CU) : (s.modCu c f).cur = s.cur := rfl
@[simp] theorem modCu_order (s : State) (c : CuId) (f : CU → CU) : (s.modCu c f).order = s.order := rfl
@[simp] theorem modCu_tick (s : State) (c : CuId) (f : CU → CU) : (s.modCu c f).tick = s.tick := rfl
@[simp] theorem modCu_seq (s : State) (c : CuId) (f : CU → CU) : (s.modCu c f).seq = s.seq := rfl
@[simp] theorem modCu_fc (s : State) (c : CuId) (f : CU → CU) : (s.modCu c f).fc = s.fc := rfl
@[simp] theorem modCu_exch (s : State) (c : CuId) (f : CU → CU) : (s.modCu c f).exch = s.exch := rfl
@[simp] theorem modCu_warps (s : State) (c : CuId) (f : CU → CU) : (s.modCu c f).warps = s.warps := rfl
@[simp] theorem modCu_groups (s : State) (c : CuId) (f : CU → CU) : (s.modCu c f).groups = s.groups := rfl
@[simp] theorem modCu_clusters (s : State) (c : CuId) (f : CU → CU) : (s.modCu c f).clusters = s.clusters := rfl
@[simp] theorem modCu_launches (s : State) (c : CuId) (f : CU → CU) : (s.modCu c f).launches = s.launches := rfl
@[simp] theorem modCu_launchId (s : State) (c : CuId) (f : CU → CU) : (s.modCu c f).launchId = s.launchId := rfl
@[simp] theorem modCu_cpq (s : State) (c : CuId) (f : CU → CU) : (s.modCu c f).cpq = s.cpq := rfl
@[simp] theorem modCu_bars (s : State) (c : CuId) (f : CU → CU) : (s.modCu c f).bars = s.bars := rfl
@[simp] theorem modCu_mem (s : State) (c : CuId) (f : CU → CU) : (s.modCu c f).mem = s.mem := rfl
@[simp] theorem modCu_reqs (s : State) (c : CuId) (f : CU → CU) : (s.modCu c f).reqs = s.reqs := rfl
@[simp] theorem modCu_accCopy (s : State) (c : CuId) (f : CU → CU) : (s.modCu c f).accCopy = s.accCopy := rfl
@[simp] theorem modCu_holders (s : State) (c : CuId) (f : CU → CU) : (s.modCu c f).holders = s.holders := rfl
@[simp] theorem modCu_combines (s : State) (c : CuId) (f : CU → CU) : (s.modCu c f).combines = s.combines := rfl
@[simp] theorem modCu_regions (s : State) (c : CuId) (f : CU → CU) : (s.modCu c f).regions = s.regions := rfl
@[simp] theorem modCu_trigs (s : State) (c : CuId) (f : CU → CU) : (s.modCu c f).trigs = s.trigs := rfl
@[simp] theorem modCu_engs (s : State) (c : CuId) (f : CU → CU) : (s.modCu c f).engs = s.engs := rfl
@[simp] theorem modCu_tlbs (s : State) (c : CuId) (f : CU → CU) : (s.modCu c f).tlbs = s.tlbs := rfl
@[simp] theorem modCu_tlbis (s : State) (c : CuId) (f : CU → CU) : (s.modCu c f).tlbis = s.tlbis := rfl
@[simp] theorem modCu_migs (s : State) (c : CuId) (f : CU → CU) : (s.modCu c f).migs = s.migs := rfl
@[simp] theorem modCu_pubs (s : State) (c : CuId) (f : CU → CU) : (s.modCu c f).pubs = s.pubs := rfl
@[simp] theorem modCu_saved (s : State) (c : CuId) (f : CU → CU) : (s.modCu c f).saved = s.saved := rfl
@[simp] theorem modCu_outs (s : State) (c : CuId) (f : CU → CU) : (s.modCu c f).outs = s.outs := rfl
@[simp] theorem modCu_ctxs (s : State) (c : CuId) (f : CU → CU) : (s.modCu c f).ctxs = s.ctxs := rfl
@[simp] theorem modCu_sup (s : State) (c : CuId) (f : CU → CU) : (s.modCu c f).sup = s.sup := rfl
@[simp] theorem modCu_fab (s : State) (c : CuId) (f : CU → CU) : (s.modCu c f).fab = s.fab := rfl
@[simp] theorem modCu_plinths (s : State) (c : CuId) (f : CU → CU) : (s.modCu c f).plinths = s.plinths := rfl
@[simp] theorem modCu_host (s : State) (c : CuId) (f : CU → CU) : (s.modCu c f).host = s.host := rfl
@[simp] theorem modCu_dbg (s : State) (c : CuId) (f : CU → CU) : (s.modCu c f).dbg = s.dbg := rfl

@[simp] theorem setCtx_agenda (s : State) (t : Tag) (x : Ctx) : (s.setCtx t x).agenda = s.agenda := rfl
@[simp] theorem setCtx_cur (s : State) (t : Tag) (x : Ctx) : (s.setCtx t x).cur = s.cur := rfl
@[simp] theorem setCtx_order (s : State) (t : Tag) (x : Ctx) : (s.setCtx t x).order = s.order := rfl
@[simp] theorem setCtx_tick (s : State) (t : Tag) (x : Ctx) : (s.setCtx t x).tick = s.tick := rfl
@[simp] theorem setCtx_seq (s : State) (t : Tag) (x : Ctx) : (s.setCtx t x).seq = s.seq := rfl
@[simp] theorem setCtx_fc (s : State) (t : Tag) (x : Ctx) : (s.setCtx t x).fc = s.fc := rfl
@[simp] theorem setCtx_exch (s : State) (t : Tag) (x : Ctx) : (s.setCtx t x).exch = s.exch := rfl
@[simp] theorem setCtx_warps (s : State) (t : Tag) (x : Ctx) : (s.setCtx t x).warps = s.warps := rfl
@[simp] theorem setCtx_groups (s : State) (t : Tag) (x : Ctx) : (s.setCtx t x).groups = s.groups := rfl
@[simp] theorem setCtx_clusters (s : State) (t : Tag) (x : Ctx) : (s.setCtx t x).clusters = s.clusters := rfl
@[simp] theorem setCtx_cus (s : State) (t : Tag) (x : Ctx) : (s.setCtx t x).cus = s.cus := rfl
@[simp] theorem setCtx_launches (s : State) (t : Tag) (x : Ctx) : (s.setCtx t x).launches = s.launches := rfl
@[simp] theorem setCtx_launchId (s : State) (t : Tag) (x : Ctx) : (s.setCtx t x).launchId = s.launchId := rfl
@[simp] theorem setCtx_cpq (s : State) (t : Tag) (x : Ctx) : (s.setCtx t x).cpq = s.cpq := rfl
@[simp] theorem setCtx_bars (s : State) (t : Tag) (x : Ctx) : (s.setCtx t x).bars = s.bars := rfl
@[simp] theorem setCtx_mem (s : State) (t : Tag) (x : Ctx) : (s.setCtx t x).mem = s.mem := rfl
@[simp] theorem setCtx_reqs (s : State) (t : Tag) (x : Ctx) : (s.setCtx t x).reqs = s.reqs := rfl
@[simp] theorem setCtx_accCopy (s : State) (t : Tag) (x : Ctx) : (s.setCtx t x).accCopy = s.accCopy := rfl
@[simp] theorem setCtx_holders (s : State) (t : Tag) (x : Ctx) : (s.setCtx t x).holders = s.holders := rfl
@[simp] theorem setCtx_combines (s : State) (t : Tag) (x : Ctx) : (s.setCtx t x).combines = s.combines := rfl
@[simp] theorem setCtx_regions (s : State) (t : Tag) (x : Ctx) : (s.setCtx t x).regions = s.regions := rfl
@[simp] theorem setCtx_trigs (s : State) (t : Tag) (x : Ctx) : (s.setCtx t x).trigs = s.trigs := rfl
@[simp] theorem setCtx_engs (s : State) (t : Tag) (x : Ctx) : (s.setCtx t x).engs = s.engs := rfl
@[simp] theorem setCtx_tlbs (s : State) (t : Tag) (x : Ctx) : (s.setCtx t x).tlbs = s.tlbs := rfl
@[simp] theorem setCtx_tlbis (s : State) (t : Tag) (x : Ctx) : (s.setCtx t x).tlbis = s.tlbis := rfl
@[simp] theorem setCtx_migs (s : State) (t : Tag) (x : Ctx) : (s.setCtx t x).migs = s.migs := rfl
@[simp] theorem setCtx_pubs (s : State) (t : Tag) (x : Ctx) : (s.setCtx t x).pubs = s.pubs := rfl
@[simp] theorem setCtx_saved (s : State) (t : Tag) (x : Ctx) : (s.setCtx t x).saved = s.saved := rfl
@[simp] theorem setCtx_outs (s : State) (t : Tag) (x : Ctx) : (s.setCtx t x).outs = s.outs := rfl
@[simp] theorem setCtx_sup (s : State) (t : Tag) (x : Ctx) : (s.setCtx t x).sup = s.sup := rfl
@[simp] theorem setCtx_fab (s : State) (t : Tag) (x : Ctx) : (s.setCtx t x).fab = s.fab := rfl
@[simp] theorem setCtx_plinths (s : State) (t : Tag) (x : Ctx) : (s.setCtx t x).plinths = s.plinths := rfl
@[simp] theorem setCtx_host (s : State) (t : Tag) (x : Ctx) : (s.setCtx t x).host = s.host := rfl
@[simp] theorem setCtx_dbg (s : State) (t : Tag) (x : Ctx) : (s.setCtx t x).dbg = s.dbg := rfl

@[simp] theorem modCtx_agenda (s : State) (t : Tag) (f : Ctx → Ctx) : (s.modCtx t f).agenda = s.agenda := rfl
@[simp] theorem modCtx_cur (s : State) (t : Tag) (f : Ctx → Ctx) : (s.modCtx t f).cur = s.cur := rfl
@[simp] theorem modCtx_order (s : State) (t : Tag) (f : Ctx → Ctx) : (s.modCtx t f).order = s.order := rfl
@[simp] theorem modCtx_tick (s : State) (t : Tag) (f : Ctx → Ctx) : (s.modCtx t f).tick = s.tick := rfl
@[simp] theorem modCtx_seq (s : State) (t : Tag) (f : Ctx → Ctx) : (s.modCtx t f).seq = s.seq := rfl
@[simp] theorem modCtx_fc (s : State) (t : Tag) (f : Ctx → Ctx) : (s.modCtx t f).fc = s.fc := rfl
@[simp] theorem modCtx_exch (s : State) (t : Tag) (f : Ctx → Ctx) : (s.modCtx t f).exch = s.exch := rfl
@[simp] theorem modCtx_warps (s : State) (t : Tag) (f : Ctx → Ctx) : (s.modCtx t f).warps = s.warps := rfl
@[simp] theorem modCtx_groups (s : State) (t : Tag) (f : Ctx → Ctx) : (s.modCtx t f).groups = s.groups := rfl
@[simp] theorem modCtx_clusters (s : State) (t : Tag) (f : Ctx → Ctx) : (s.modCtx t f).clusters = s.clusters := rfl
@[simp] theorem modCtx_cus (s : State) (t : Tag) (f : Ctx → Ctx) : (s.modCtx t f).cus = s.cus := rfl
@[simp] theorem modCtx_launches (s : State) (t : Tag) (f : Ctx → Ctx) : (s.modCtx t f).launches = s.launches := rfl
@[simp] theorem modCtx_launchId (s : State) (t : Tag) (f : Ctx → Ctx) : (s.modCtx t f).launchId = s.launchId := rfl
@[simp] theorem modCtx_cpq (s : State) (t : Tag) (f : Ctx → Ctx) : (s.modCtx t f).cpq = s.cpq := rfl
@[simp] theorem modCtx_bars (s : State) (t : Tag) (f : Ctx → Ctx) : (s.modCtx t f).bars = s.bars := rfl
@[simp] theorem modCtx_mem (s : State) (t : Tag) (f : Ctx → Ctx) : (s.modCtx t f).mem = s.mem := rfl
@[simp] theorem modCtx_reqs (s : State) (t : Tag) (f : Ctx → Ctx) : (s.modCtx t f).reqs = s.reqs := rfl
@[simp] theorem modCtx_accCopy (s : State) (t : Tag) (f : Ctx → Ctx) : (s.modCtx t f).accCopy = s.accCopy := rfl
@[simp] theorem modCtx_holders (s : State) (t : Tag) (f : Ctx → Ctx) : (s.modCtx t f).holders = s.holders := rfl
@[simp] theorem modCtx_combines (s : State) (t : Tag) (f : Ctx → Ctx) : (s.modCtx t f).combines = s.combines := rfl
@[simp] theorem modCtx_regions (s : State) (t : Tag) (f : Ctx → Ctx) : (s.modCtx t f).regions = s.regions := rfl
@[simp] theorem modCtx_trigs (s : State) (t : Tag) (f : Ctx → Ctx) : (s.modCtx t f).trigs = s.trigs := rfl
@[simp] theorem modCtx_engs (s : State) (t : Tag) (f : Ctx → Ctx) : (s.modCtx t f).engs = s.engs := rfl
@[simp] theorem modCtx_tlbs (s : State) (t : Tag) (f : Ctx → Ctx) : (s.modCtx t f).tlbs = s.tlbs := rfl
@[simp] theorem modCtx_tlbis (s : State) (t : Tag) (f : Ctx → Ctx) : (s.modCtx t f).tlbis = s.tlbis := rfl
@[simp] theorem modCtx_migs (s : State) (t : Tag) (f : Ctx → Ctx) : (s.modCtx t f).migs = s.migs := rfl
@[simp] theorem modCtx_pubs (s : State) (t : Tag) (f : Ctx → Ctx) : (s.modCtx t f).pubs = s.pubs := rfl
@[simp] theorem modCtx_saved (s : State) (t : Tag) (f : Ctx → Ctx) : (s.modCtx t f).saved = s.saved := rfl
@[simp] theorem modCtx_outs (s : State) (t : Tag) (f : Ctx → Ctx) : (s.modCtx t f).outs = s.outs := rfl
@[simp] theorem modCtx_sup (s : State) (t : Tag) (f : Ctx → Ctx) : (s.modCtx t f).sup = s.sup := rfl
@[simp] theorem modCtx_fab (s : State) (t : Tag) (f : Ctx → Ctx) : (s.modCtx t f).fab = s.fab := rfl
@[simp] theorem modCtx_plinths (s : State) (t : Tag) (f : Ctx → Ctx) : (s.modCtx t f).plinths = s.plinths := rfl
@[simp] theorem modCtx_host (s : State) (t : Tag) (f : Ctx → Ctx) : (s.modCtx t f).host = s.host := rfl
@[simp] theorem modCtx_dbg (s : State) (t : Tag) (f : Ctx → Ctx) : (s.modCtx t f).dbg = s.dbg := rfl

@[simp] theorem push_cur (s : State) (i : Instr) : (s.push i).cur = s.cur := rfl
@[simp] theorem push_order (s : State) (i : Instr) : (s.push i).order = s.order := rfl
@[simp] theorem push_tick (s : State) (i : Instr) : (s.push i).tick = s.tick := rfl
@[simp] theorem push_seq (s : State) (i : Instr) : (s.push i).seq = s.seq := rfl
@[simp] theorem push_fc (s : State) (i : Instr) : (s.push i).fc = s.fc := rfl
@[simp] theorem push_exch (s : State) (i : Instr) : (s.push i).exch = s.exch := rfl
@[simp] theorem push_warps (s : State) (i : Instr) : (s.push i).warps = s.warps := rfl
@[simp] theorem push_groups (s : State) (i : Instr) : (s.push i).groups = s.groups := rfl
@[simp] theorem push_clusters (s : State) (i : Instr) : (s.push i).clusters = s.clusters := rfl
@[simp] theorem push_cus (s : State) (i : Instr) : (s.push i).cus = s.cus := rfl
@[simp] theorem push_launches (s : State) (i : Instr) : (s.push i).launches = s.launches := rfl
@[simp] theorem push_launchId (s : State) (i : Instr) : (s.push i).launchId = s.launchId := rfl
@[simp] theorem push_cpq (s : State) (i : Instr) : (s.push i).cpq = s.cpq := rfl
@[simp] theorem push_bars (s : State) (i : Instr) : (s.push i).bars = s.bars := rfl
@[simp] theorem push_mem (s : State) (i : Instr) : (s.push i).mem = s.mem := rfl
@[simp] theorem push_reqs (s : State) (i : Instr) : (s.push i).reqs = s.reqs := rfl
@[simp] theorem push_accCopy (s : State) (i : Instr) : (s.push i).accCopy = s.accCopy := rfl
@[simp] theorem push_holders (s : State) (i : Instr) : (s.push i).holders = s.holders := rfl
@[simp] theorem push_combines (s : State) (i : Instr) : (s.push i).combines = s.combines := rfl
@[simp] theorem push_regions (s : State) (i : Instr) : (s.push i).regions = s.regions := rfl
@[simp] theorem push_trigs (s : State) (i : Instr) : (s.push i).trigs = s.trigs := rfl
@[simp] theorem push_engs (s : State) (i : Instr) : (s.push i).engs = s.engs := rfl
@[simp] theorem push_tlbs (s : State) (i : Instr) : (s.push i).tlbs = s.tlbs := rfl
@[simp] theorem push_tlbis (s : State) (i : Instr) : (s.push i).tlbis = s.tlbis := rfl
@[simp] theorem push_migs (s : State) (i : Instr) : (s.push i).migs = s.migs := rfl
@[simp] theorem push_pubs (s : State) (i : Instr) : (s.push i).pubs = s.pubs := rfl
@[simp] theorem push_saved (s : State) (i : Instr) : (s.push i).saved = s.saved := rfl
@[simp] theorem push_outs (s : State) (i : Instr) : (s.push i).outs = s.outs := rfl
@[simp] theorem push_ctxs (s : State) (i : Instr) : (s.push i).ctxs = s.ctxs := rfl
@[simp] theorem push_sup (s : State) (i : Instr) : (s.push i).sup = s.sup := rfl
@[simp] theorem push_fab (s : State) (i : Instr) : (s.push i).fab = s.fab := rfl
@[simp] theorem push_plinths (s : State) (i : Instr) : (s.push i).plinths = s.plinths := rfl
@[simp] theorem push_host (s : State) (i : Instr) : (s.push i).host = s.host := rfl
@[simp] theorem push_dbg (s : State) (i : Instr) : (s.push i).dbg = s.dbg := rfl

end Sys2Proof.Machine.State
end

