-- ==== Sys2Proof/Tests/Slice0.lean ====
section
/-! SUPPORT. Tests of the model: words written out from the manual's encodings, terms that the checks of well-formedness
refuse, single steps with results taken from the manual, and for each statement a state and operands that meet its
hypotheses. -/

namespace Sys2Proof.Tests

open Sys2Proof Machine Claims

set_option Elab.async false

/-! ### Small states -/

def p7 : Pr := ⟨7, false⟩
def h7 : Hdr := ⟨p7, none⟩
def hi (x : Word) : Hdr := ⟨p7, some x⟩

/-- A plain memory extension: 32 bits, relaxed, own. -/
def mx : MemExt := ⟨0, false, 0, 0, .cu, .rlx, .own, .b4, 0⟩

/-- A warp of 4 lanes; `regs` are its vector registers by 64·number + lane, `sr` its scalars. -/
def warp (regs : Store Word) (sr : Store Word) : Warp := { Warp.start 4 0x10000 1 0 0 with vr := regs, sr := sr }

/-- The state in which that warp, of CU 0, issues an instruction of 8 bytes at 0x10000 for its four lanes. Page 1 is
mapped onto the frame at 0x10000, and the contexts translate. -/
def st (w : Warp) : State :=
  { State.reset with
    cur := some ⟨0, 15, 0x10000, 0x10008, false⟩, warps := [(0, w)], groups := [(0, placedGroup)], order := [0],
    ctxs := [(0, { Ctx.zero with ptbase := 1 }), (1, { Ctx.zero with ptbase := 1 })], tlbs := [⟨0, 1, 1, 65536, 0x1001F⟩] }

/-- v1 holds 1, 2, 3, 4 in its lanes; s0:s1 holds the address 0x10000, s2 holds 16, s3 holds 4. -/
def w0 : Warp := warp [(64, 1), (65, 2), (66, 3), (67, 4)] [(0, 0x10000), (2, 16), (3, 4)]
def s0 : State := st w0

/-- The same warp on the curator of die 0. -/
def sup : State :=
  { s0 with cur := some ⟨393216, 15, 0x10000, 0x10008, false⟩, warps := [(393216, { w0 with tag := 0 })],
            groups := [(24576, { placedGroup with tag := 0, home := 768 })], order := [393216] }

/-- The instruction issues with nothing in its way, and a condition holds. -/
def meets (i : Instr) (s : State) (ok : State → Issue → Bool) : Bool :=
  match issued i s with
  | some x => ok s x
  | none => false

/-- The instruction issues with nothing in its way. -/
def goesOn (s : State) (i : Instr) : Bool := (issued i s).isSome

/-- The state that an instruction leaves. -/
def after' (i : Instr) (s : State) : State :=
  match exec i s with
  | .next t => t
  | _ => s

/-- A lane of a vector register of warp 0 afterwards. -/
def vAfter (i : Instr) (s : State) (n l : Nat) : Option Word := ((after' i s).warp? 0).map fun w => w.v n l

/-- FSTAT of warp 0 afterwards. -/
def fAfter (i : Instr) (s : State) : Option Word := ((after' i s).warp? 0).map fun w => w.fstat

/-! ### Words of the manual -/

/-- 02, "Two encodings worked through", byte for byte. -/
theorem test_word_iadd :
    decode [0x80, 0x1C, 0x40, 0x80, 0x02, 0x18, 0x00, 0x00] = .ok (.iadd h7 .wrap (.v 4) (.v 5) (.v 6), 8) := by decide +kernel

/-- 02: iadd s4, s5, 100 unless p2. -/
theorem test_word_iadd_imm :
    decode [0x81, 0x28, 0x40, 0x88, 0x42, 0xFC, 0x03, 0x00, 0x64, 0, 0, 0]
      = .ok (.iadd ⟨⟨2, true⟩, some 100⟩ .wrap (.s 4) (.s 5) .imm, 12) := by decide +kernel

/-- 05: fadd.f32 v4, -v5, 1.5. -/
theorem test_word_fadd :
    decode [0x01, 0x1D, 0x44, 0x80, 0x02, 0xFC, 0x03, 0x00, 0, 0, 0xC0, 0x3F]
      = .ok (.fadd (hi 0x3FC00000) .neg .f32 .rne (.v 4) (.v 5) .imm, 12) := by decide +kernel

/-- 06: ld.w.si.acq.pkg v6, [s4:s5 + 0x40]. -/
theorem test_word_ld :
    decode [0x02, 0x1E, 0x60, 0x00, 0x42, 0, 0, 0, 0x40, 0, 0, 0, 0xB2, 0x01, 0, 0]
      = .ok (.ld p7 false (.v 6) (.s 4) ⟨0, false, 0, 0, .pkg, .acq, .si, .b4, 0x40⟩, 16) := by decide +kernel

/-- 07: fence.sc.pkg. -/
theorem test_word_fence : decode [0x94, 0xDE, 0x03, 0, 0, 0, 0, 0] = .ok (.fence p7 .pkg .sc, 8) := by decide +kernel

/-- 08: mma.bf16 a2, v16, sp[s6], cv1. -/
theorem test_word_mma :
    decode [0x02, 0x1F, 0, 0, 0x08, 0x18, 0x02, 0, 0x12, 0, 0, 0, 0, 0, 0, 0]
      = .ok (.mma p7 (.v 16) (.s 6) ⟨false, 0, 0, .bf16, .bf16, false, 1, 2⟩, 16) := by decide +kernel

/-- 09: mfs s8, FSTAT. -/
theorem test_word_mfs : decode [0x4D, 0x1C, 0x80, 0x08, 0, 0, 0, 0, 1, 0, 0, 0] = .ok (.mfs p7 (.s 8) 1 0, 12) := by
  decide +kernel

/-- 02: bra of the loop at −20 when p1. -/
theorem test_word_bra :
    decode [0x05, 0x04, 0, 0, 0, 0, 0, 0, 0xEC, 0xFF, 0xFF, 0xFF] = .ok (.bra ⟨1, false⟩ 0xFFFFFFEC, 12) := by decide +kernel

/-- LEN 0b11 is no instruction (R63). -/
theorem test_word_illegal : (decode [0x83, 0x1C, 0x40, 0x80, 0x02, 0x18, 0, 0]).isOk = false := by decide +kernel

/-- OP 0xE0 is reserved (R60). -/
theorem test_word_reserved : (decode [0x80, 0x1F, 0, 0, 0, 0, 0, 0]).isOk = false := by decide +kernel

/-! ### Well-formedness refuses -/

/-- A pair must start even (R48). -/
theorem smoke_odd_pair : (Instr.add64 h7 .wrap (.v 5) (.v 2) (.v 4)).wellFormed = false := by decide +kernel
/-- An immediate needs the 96-bit form (R47). -/
theorem smoke_no_immediate : (Instr.iadd h7 .wrap (.v 4) (.v 5) .imm).wellFormed = false := by decide +kernel
/-- A vector source of a scalar destination (R52). -/
theorem smoke_scalar_from_vector : (Instr.iadd h7 .wrap (.s 4) (.v 5) (.v 6)).wellFormed = false := by decide +kernel
/-- D of icmp is a predicate register (R88). -/
theorem smoke_icmp_dest : (Instr.icmp h7 true .lt (.v 1) (.v 2) (.v 3)).wellFormed = false := by decide +kernel
/-- sel with a scalar destination (R87). -/
theorem smoke_sel_scalar : (Instr.sel h7 (.s 1) (.s 2) (.s 3) (.p 1)).wellFormed = false := by decide +kernel
/-- sext of 32 bits to 32 bits (R90). -/
theorem smoke_sext_word : (Instr.sext h7 false .b32 (.v 2) (.v 1)).wellFormed = false := by decide +kernel
/-- PK in D (R46). -/
theorem smoke_peek_dest : (Instr.mov h7 (.ch 1 true) (.v 1)).wellFormed = false := by decide +kernel
/-- A channel with a width other than 32 bits (R141). -/
theorem smoke_channel_width : (Instr.ld p7 false (.ch 1 false) (.v 2) { mx with wid := .b8 }).wellFormed = false := by decide +kernel
/-- A quad must start at a multiple of 4 (R140). -/
theorem smoke_quad : (Instr.ld p7 false (.v 6) (.v 2) { mx with wid := .b16 }).wellFormed = false := by decide +kernel
/-- A release load (R141). -/
theorem smoke_load_release : (Instr.ld p7 false (.v 6) (.v 2) { mx with ord := .rel }).wellFormed = false := by decide +kernel
/-- An extension field that the form does not use (R56). -/
theorem smoke_extension : (Instr.sts p7 (.v 1) (.v 2) { mx with tol := 1 }).wellFormed = false := by decide +kernel
/-- A register number that nothing assigns (R237). -/
theorem smoke_mfs_number : (Instr.mfs p7 (.s 1) 0x0FF 0).wellFormed = false := by decide +kernel
/-- An index at the register's count (R237). -/
theorem smoke_mfs_index : (Instr.mfs p7 (.s 2) 0x088 8).wellFormed = false := by decide +kernel
/-- A vector source of an scalar field (R226). -/
theorem smoke_trap_vector : (Instr.trap h7 (.v 1)).wellFormed = false := by decide +kernel
/-- A peeked ring as B of a matrix operation (R192). -/
theorem smoke_mma_peek :
    (Instr.mma p7 (.v 16) (.ch 1 true) ⟨false, 0, 0, .bf16, .bf16, false, 1, 2⟩).wellFormed = false := by decide +kernel
/-- The step 4 codes stay in range, and a count of 1 is legal (R57, R78). -/
theorem smoke_rpt_legal : (Instr.rpt 0 1 2 3 0).wellFormed = true := by decide +kernel

/-! ### Values of the manual -/

/-- R83: iadd.sats of 0x7FFFFFF0 and 0x20 gives 0x7FFFFFFF and sets SAT. -/
theorem test_iadd_sats :
    let i := Instr.iadd h7 .sats (.v 3) (.v 1) (.v 2)
    let s := st (warp [(64, 0x7FFFFFF0), (128, 0x20)] [])
    vAfter i s 3 0 = some 0x7FFFFFFF ∧ fAfter i s = some 0x40 := by decide +kernel
/-- R83: isub.satn of 3 and 5 gives 0. -/
theorem test_isub_satn :
    vAfter (.isub h7 .satn (.v 3) (.v 1) (.v 2)) (st (warp [(64, 3), (128, 5)] [])) 3 0 = some 0 := by decide +kernel
/-- R84: imulh.s32 of 0xFFFFFFFF and 2 gives 0xFFFFFFFF, imulh.n32 gives 1. -/
theorem test_imulh :
    let s := st (warp [(64, 0xFFFFFFFF), (128, 2)] [])
    vAfter (.imulh h7 true (.v 3) (.v 1) (.v 2)) s 3 0 = some 0xFFFFFFFF
      ∧ vAfter (.imulh h7 false (.v 3) (.v 1) (.v 2)) s 3 0 = some 1 := by decide +kernel
/-- R85: a shift by 32 or more. -/
theorem test_shift_wide :
    let s := st (warp [(64, 0x80000001), (128, 32)] [])
    vAfter (.shl h7 (.v 3) (.v 1) (.v 2)) s 3 0 = some 0 ∧ vAfter (.sar h7 (.v 3) (.v 1) (.v 2)) s 3 0 = some 0xFFFFFFFF := by
  decide +kernel
/-- R86: bfe.s32 and bfi with the manual's specifications. -/
theorem test_bit_fields :
    vAfter (.bfe h7 true (.v 3) (.v 1) (.v 2)) (st (warp [(64, 0xF00), (128, 0x0408)] [])) 3 0 = some 0xFFFFFFFF
      ∧ vAfter (.bfi h7 (.v 4) (.v 1) (.v 2) (.v 3)) (st (warp [(128, 0xFF), (192, 0x081C)] [])) 4 0 = some 0xF0000000 := by
  decide +kernel
/-- 05: fadd.f32 v4, -v5, 1.5 where v5 holds 2.0 gives −0.5. -/
theorem test_fadd :
    vAfter (.fadd (hi 0x3FC00000) .neg .f32 .rne (.v 4) (.v 5) .imm) (st (warp [(320, 0x40000000)] [])) 4 0
      = some 0xBF000000 := by decide +kernel
/-- R122: the exact dot product with no flag. -/
theorem test_fdot2 :
    let i := Instr.fdot2 h7 .none .bf16 .rne (.v 4) (.v 1) (.v 2) (.v 3)
    let s := st (warp [(64, 0x3F804480), (128, 0x3F804480), (192, 0xC9800000)] [])
    vAfter i s 4 0 = some 0x3F800000 ∧ fAfter i s = some 0 := by decide +kernel
/-- R118: fmin.f32 passes a quiet NaN over. -/
theorem test_fmin_nan :
    let s := st (warp [(64, 0x7FC00001), (128, 0x40400000)] [])
    vAfter (.fmin h7 .none .f32 false (.v 3) (.v 1) (.v 2)) s 3 0 = some 0x40400000
      ∧ vAfter (.fmin h7 .none .f32 true (.v 3) (.v 1) (.v 2)) s 3 0 = some 0x7FC00000 := by decide +kernel
/-- R51: PRED 7 with PNEG allows no lane; the issue set moves past (R18). -/
theorem test_no_lane :
    let t := after' (.iadd ⟨⟨7, true⟩, none⟩ .wrap (.v 3) (.v 1) (.v 1)) s0
    ((t.warp? 0).map fun w => (w.v 3 0, w.vpc 0)) = some (0, 0x10008) := by decide +kernel
/-- R43: the address past an instruction that ends at offset 28 is the next fetch block. -/
theorem test_past_block : after 0x10014 8 = 0x10020 := by decide +kernel
/-- R153: sts writes its bytes and no other; lds reads them back. -/
theorem test_scratch :
    let t := after' (.sts p7 (.s 2) (.v 1) { mx with off := 0 }) s0
    ((t.group? 0).map fun g => g.bytes 16 4) = some [4, 0, 0, 0] := by decide +kernel
/-- R37: a supervisor instruction of a user warp raises 0x02. -/
theorem test_privilege :
    (((after' (.tlbsync p7) s0).warp? 0).bind Warp.halt).map (fun t => (t.cause, t.addr)) = some (2, 0x10000) := by decide +kernel
/-- R233: trap raises 0x40 with its code. -/
theorem test_trap :
    (((after' (.trap h7 (.s 2)) s0).warp? 0).bind Warp.halt).map (fun t => (t.cause, t.code)) = some (0x40, 16) := by decide +kernel


/-! ### States and operands that meet the hypotheses of the statements -/

/-- IntegerArithmetic, LogicShiftsCounts, FieldsSelectCompareExtend. -/
theorem witness_integer :
    ([.iadd h7 .wrap (.v 3) (.v 1) (.v 1), .iadd h7 .sats (.v 3) (.v 1) (.v 1), .isub h7 .satn (.v 3) (.v 1) (.v 1),
      .imul h7 .wrap (.v 3) (.v 1) (.v 1), .imad h7 .sats (.v 3) (.v 1) (.v 1) (.v 1), .iabs h7 .sats (.v 3) (.v 1),
      .imulh h7 true (.v 3) (.v 1) (.v 1), .imin h7 false (.v 3) (.v 1) (.v 1), .imax h7 true (.v 3) (.v 1) (.v 1),
      .add64 h7 .satn (.v 4) (.v 2) (.v 2), .sub64 h7 .wrap (.v 4) (.v 2) (.v 2), .mul64 h7 (.full .sats) (.v 4) (.v 2) (.v 2),
      .mul64 h7 .wideS (.v 4) (.v 1) (.v 1)] : List Instr).all (goesOn s0) = true := by decide +kernel
theorem witness_logic :
    ([.and h7 (.v 3) (.v 1) (.v 1), .or h7 (.v 3) (.v 1) (.v 1), .xor h7 (.s 3) (.s 1) (.s 2), .andn h7 (.v 3) (.v 1) (.s 1),
      .shl h7 (.v 3) (.v 1) (.v 1), .shr h7 (.v 3) (.v 1) (.v 1), .sar h7 (.v 3) (.v 1) (.v 1), .rot h7 (.v 3) (.v 1) (.v 1),
      .popc h7 (.v 3) (.v 1), .clz h7 (.v 3) (.v 1), .brev h7 (.v 3) (.v 1)] : List Instr).all (goesOn s0) = true := by decide +kernel
theorem witness_fields :
    ([.bfe h7 true (.v 3) (.v 1) (.v 1), .bfi h7 (.v 3) (.v 1) (.v 1) (.v 1), .sel h7 (.v 3) (.v 1) (.v 1) (.p 1),
      .mov h7 (.p 3) (.v 1), .icmp h7 true .lt (.p 1) (.v 1) (.s 1), .plog h7 8 (.p 1) (.p 2) (.p 3),
      .sext h7 true .b32 (.v 4) (.v 1), .zext h7 false .b8 (.v 4) (.v 1), .lea h7 true 4 (.v 4) (.s 0) (.v 1),
      .lea h7 false 0 (.v 4) (.s 0) (.v 1)] : List Instr).all (goesOn s0) = true := by decide +kernel
/-- FloatArithmetic. -/
theorem witness_float :
    ([.fadd h7 .neg .f32 .rne (.v 3) (.v 1) (.v 1), .fsub h7 .abs .f16 .rtz (.v 3) (.v 1) (.v 1),
      .fmul h7 .none .bf16 .rup (.v 3) (.v 1) (.v 1), .ffma h7 .nabs .f32 .rdn (.v 3) (.v 1) (.v 1) (.v 1),
      .fmin h7 .none .f32 true (.v 3) (.v 1) (.v 1), .fmax h7 .none .f16 false (.v 3) (.v 1) (.v 1),
      .fcmp h7 false .f32 .un (.p 1) (.v 1) (.v 1), .fcmp h7 true .f16 .eq (.p 1) (.v 1) (.v 1), .fclass h7 (some .f32) (.v 3) (.v 1),
      .fclass h7 none (.v 3) (.v 2), .frnd h7 true .f32 .rne (.v 3) (.v 1),
      .fdot2 h7 .none .bf16 .rne (.v 3) (.v 1) (.v 1) (.v 1), .dadd h7 .neg .rne (.v 4) (.v 2) (.v 2),
      .dmul h7 .none .rtz (.v 4) (.v 2) (.v 2), .dfma h7 .none .rne (.v 4) (.v 2) (.v 2) (.v 6), .dcmp h7 .lt (.p 1) (.v 2) (.v 2),
      .dmin h7 .none true (.v 4) (.v 2) (.v 2), .dmax h7 .none false (.v 4) (.v 2) (.v 2)] : List Instr).all (goesOn s0)
      = true := by decide +kernel
/-- QueuedInstructions: a queue with room, and a full one (R130). -/
def full : State := st { w0 with cvq := List.replicate 8 ⟨[.vec 9 0 0], 0⟩, sfq := List.replicate 8 ⟨[.vec 9 0 0], 0⟩ }
theorem witness_queued :
    ([.cvt h7 2 .rne (.v 3) (.v 1), .pack h7 .s8 true .rne (.v 3) (.v 1) (.v 1), .unpack h7 .f16 1 (.v 3) (.v 1),
      .qpack h7 true .rne (.v 3) (.v 1) (.v 1) (.v 1), .qunpack h7 false 3 (.v 3) (.v 1) (.v 1), .rcp h7 .f32 (.v 3) (.v 1),
      .rsqrt h7 .f16 (.v 3) (.v 1), .sqrt h7 .f32 .rtz (.v 3) (.v 1), .exp2 h7 .f32 (.v 3) (.v 1), .log2 h7 .bf16 (.v 3) (.v 1),
      .sin h7 .f32 (.v 3) (.v 1), .cos h7 .f32 (.v 3) (.v 1), .tanh h7 .f32 (.v 3) (.v 1)] : List Instr).all (fun i =>
        meets i s0 (fun _ _ => true)
        && ((full.cur.map fun c => c.w) == some 0 && (full.warp? 0).any fun w => (full.group? 0).any fun g =>
          legal i ⟨0, 15, 0x10000, 0x10008, false⟩ w g && queueLength w true == 8 && queueLength w false == 8)) = true := by decide +kernel
/-- CrossLane. -/
theorem witness_cross :
    ([.shfl h7 .s4 .xor (.v 3) (.v 1) (.s 3), .vote h7 .ballot (.s 4) (.p 1), .bcast h7 (.s 3) (.v 1) (some (.s 2)),
      .bcast h7 (.v 3) (.v 1) none, .redux h7 .rne .add (.s 3) (.v 1), .scan h7 true .maxS (.v 3) (.v 1)] : List Instr).all
      (fun i => meets i s0 fun s x => (s.warp? x.w).isSome) = true := by decide +kernel
/-- Transfers: legal targets, and the two that fault. -/
def good (t : Addr) : Bool := t.toNat % 4 == 0 && legalVa t
theorem witness_transfers :
    meets (.bra p7 0xFFFFFFEC) s0 (fun _ x => good (relTarget x 0xFFFFFFEC)) = true
    ∧ meets (.call p7 false (.v 4) (.v 0) 8) s0 (fun _ x => good (relTarget x 8)) = true
    ∧ ([.brx p7 (.s 0), .ret p7 (.s 0), .call p7 true (.v 4) (.s 0) 0] : List Instr).all (fun i => meets i s0 fun s x =>
        decide (s.warp? x.w = some w0) && (lanesOf x.exec).all fun l => good (srcLane s x w0 (.s 0) 2 l)) = true
    ∧ meets (.brx p7 (.s 2)) (st { w0 with sr := [(2, 0x10002)] }) (fun s x => (lanesOf x.exec).all fun l =>
        (srcLane s x { w0 with sr := [(2, 0x10002)] } (.s 2) 2 l).toNat % 4 != 0) = true
    ∧ meets (.bra p7 0x100) { s0 with cur := some ⟨0, 15, 0x00FFFFFFFFFFFFF0, 0x00FFFFFFFFFFFFF8, false⟩ }
        (fun _ x => (relTarget x 0x100).toNat % 4 == 0 && !legalVa (relTarget x 0x100)) = true := by
  decide +kernel
/-- ControlRest: rpt of iadd v4, v5, v6; of another rpt, which is not legal; of bytes that are no instruction; and in the last place
of a fetch block. -/
def rpts (bs : List Byte) : State :=
  { s0 with mem := { s0.mem with bytes := bs.zipIdx.foldl (fun m e => sSet 0 m (0x10008 + e.2) e.1) [] } }
theorem witness_control :
    ([.nop h7, .exit p7, .yield p7, .idle p7] : List Instr).all (goesOn s0) = true
    ∧ meets (.idle p7) (st { w0 with latch := true }) (fun s x => ((s.warp? x.w).map Warp.latch) == some true) = true
    ∧ (s0.warp? 0).map Warp.latch = some false
    ∧ meets (.rpt 3 1 0 0 0) (rpts [0x83, 0x1C, 0xF0, 0x81, 0x02, 0, 0, 0]) (fun s x =>
        match (fetchAt s x.w x.cur.next).1 with
        | .bytes bs => (match Raw.read bs with | .ok _ => false | .error _ => true)
        | _ => false) = true
    ∧ meets (.rpt 3 1 0 0 0) { s0 with cur := some ⟨0, 15, 0x10018, 0x10020, false⟩ } (fun s x =>
        match (fetchAt s x.w x.cur.next).1 with
        | .bytes _ => x.cur.next.toNat / 32 != x.cur.pc.toNat / 32
        | _ => false) = true
    ∧ meets (.rpt 3 1 0 0 0) (rpts [0x80, 0x1C, 0x40, 0x80, 0x02, 0x18, 0, 0]) (fun s x =>
        match fetchAt s x.w x.cur.next, s.group? x.gid with
        | (.bytes bs, _), some g => (match Raw.read bs with | .ok r => repeatOk r 3 1 0 0 0 g 4 | .error _ => false)
        | _, _ => false) = true
    ∧ meets (.rpt 3 1 0 0 0) (rpts [0x18, 0x1C, 0xF0, 0x81, 0x02, 0, 0, 0]) (fun s x =>
        match fetchAt s x.w x.cur.next, s.group? x.gid with
        | (.bytes bs, _), some g => (match Raw.read bs with | .ok r => !repeatOk r 3 1 0 0 0 g 4 | .error _ => false)
        | _, _ => false) = true := by decide +kernel
/-- TrapAndBreak, TakingATrap, SupervisorFault. -/
theorem witness_traps :
    goesOn s0 (.trap h7 (.s 2)) = true ∧ goesOn s0 (.brk p7) = true ∧ isSup 0 = false
    ∧ isSup 393216 = true ∧ (sup.warp? 393216).isSome = true ∧ sup.sup.vlog.length < 4096 := by decide +kernel
/-- TrapReturn: a handler of a trap that admits every mode, and of asynchronous ones; one whose work is not complete; of a fetch
trap and of an illegal encoding, past whose bytes no lane can go. -/
def trap0 : Trap :=
  { cause := 0x30, addr := 0x10000, code := 0, lanes := 15, async := false, inrep := false, brk := false, defl := some (.b4, 3),
    data := [], addr0 := 0x10000, next := some 0x10008, queued := true }
def handler (t : Trap) : State :=
  { sup with
    warps := [(0, { w0 with halt := some t, flm := 15 }), (393216, { w0 with tag := 0, serves := some 0 })],
    groups := [(0, placedGroup), (24576, { placedGroup with tag := 0, home := 768 })] }
theorem witness_eret :
    let y (t : Trap) : Warp := { w0 with halt := some t, flm := 15 }
    let bound (t : Trap) (s : State) (x : Issue) : Bool := decide (boundTrap s x.w = some (0, y t, t))
    let ready (m : EretMode) (t : Trap) (s : State) (x : Issue) : Bool :=
      bound t s x && handlerDone s x.w && releaseReady s x.w .pkg
        && (let r := pastTrap (dropSi s 0) 0 (y t) m t
            r.1.isSome && ((endHandler (releaseAt r.2 x.w .pkg) x.w).warp? 0).isSome)
    let page : Trap := { trap0 with cause := 0x11, defl := none }
    let fetch : Trap := { page with next := none }
    let late (t : Trap) : State := { handler t with reqs := [(0, Req.blank (handler t) 393216 (.store .own))] }
    meets (.eretReplay p7) (handler trap0) (ready .replay trap0) = true
    ∧ meets (.eretFill p7) (handler trap0) (fun s x => ready .fill trap0 s x && trap0.defl.isSome) = true
    ∧ meets (.eretAbort p7) (handler trap0) (ready .abort trap0) = true
    ∧ [page, fetch].all (fun t => meets (.eretSkip p7) (handler t) fun s x => ready .skip t s x && !t.asyncKind && t.cause != 3) = true
    ∧ ([.eretReplay p7, .eretFill p7, .eretAbort p7] : List Instr).all (fun i =>
        meets i (late trap0) fun s x => bound trap0 s x && !handlerDone s x.w) = true
    ∧ meets (.eretSkip p7) (late page) (fun s x => bound page s x && !handlerDone s x.w) = true
    ∧ [trap0, { page with async := true }, { page with cause := 3 }, { fetch with cause := 1 }].all (fun t =>
        meets (.eretSkip p7) (handler t) fun s x => bound t s x && (t.asyncKind || t.cause == 3 || t.cause == 1 && t.next.isNone)) = true
    ∧ meets (.eretFill p7) (handler page) (fun s x => bound page s x && page.defl.isNone) = true := by decide +kernel
/-- SystemRegisters, WrittenRegistersRead. -/
theorem witness_system :
    meets (.mfs p7 (.s 8) 0x001 0) s0 (fun s x => (s.warp? x.w).any fun y => y.sfq.isEmpty && y.cvq.isEmpty) = true
    ∧ goesOn s0 (.mfs p7 (.v 8) 0x005 0) = true ∧ goesOn sup (.mfs p7 (.v 8) 0x047 3) = true ∧ goesOn full (.mfs p7 (.s 8) 0x001 0) = true
    ∧ goesOn sup (.mts p7 (.s 2) 0x088 7) = true ∧ goesOn sup (.mts p7 (.v 2) 0x047 0) = true
    ∧ meets (.acctabWrite p7 (.s 2) 0) sup (fun s _ => !regionOpen s && regionsGone (recallRegions s)) = true
    ∧ meets (.acctabWrite p7 (.s 2) 0) { sup with reqs := [(0, Req.blank sup 0 .acc)] } (fun s _ => regionOpen s) = true
    ∧ meets (.acctabWrite p7 (.s 2) 0) { sup with combines := [(0, ⟨1024, 0x200, [(0, 5)], [], 5, 0, false, none, 0⟩)] } (fun s _ =>
        !regionOpen s && !regionsGone (recallRegions s)) = true ∧ goesOn sup (.watchtabWrite p7 (.s 2) 0) = true
    ∧ (s0.warp? 0).isSome = true := by decide +kernel
/-- The L1 of the CU holds a dirty word of package 9. -/
def dirtyFar : State := { s0 with cus := [(0, { CU.zero with l1 := [(9 * 2 ^ 42, ⟨.own, 7, 15, 0, false, false, 1, 0⟩)] })] }
/-- TranslationsAndEvents. -/
theorem witness_tlbi :
    ([.tlbiVa h7 (.s 0) (.s 2), .tlbiRange h7 (.s 0) (.s 3) (.s 2), .tlbiCtx h7 (.s 2), .tlbiAll h7, .tlbsync p7] : List Instr).all
      (goesOn sup) = true
    ∧ meets (.tlbsync p7) { sup with tlbis := [(0, ⟨393216, .all, [], false⟩)] } (fun s x => s.tlbis.any fun e => e.2.wid == x.w) = true
    ∧ meets (.evt h7 (.s 2) (.s 3)) s0 (fun s x => !anyReq s x.w && releaseReady s x.w .sys) = true
    ∧ meets (.evt h7 (.s 2) (.s 3)) { s0 with reqs := [(0, Req.blank s0 0 (.store .own))] } (fun s x => anyReq s x.w) = true
    ∧ meets (.evt h7 (.s 2) (.s 3)) dirtyFar (fun s x => !anyReq s x.w && !releaseReady s x.w .sys) = true := by decide +kernel

/-! Memory, atomics, synchronisation. -/

/-- Bytes of 64-bit words at physical addresses. -/
def words (ws : List (Nat × Nat)) : Store Byte :=
  ws.foldl (fun m e => (bytesOf e.2 8).zipIdx.foldl (fun m f => sSet 0 m (e.1 + f.2) f.1) m) []

/-- The curator's warp with context 1 selected: page 1 of the context maps the frame at 0x10000; FRAMETAB lies at 0x1000000,
TWINTAB at 0x2000000. `more` are further words of memory, `leaf` is the page's entry. -/
def sys (leaf : Nat) (more : List (Nat × Nat)) : State :=
  let r := Sup.reset
  { sup with
    ctxs := [(0, { Ctx.zero with ptbase := 1 }), (1, { Ctx.zero with ptbase := 0x200001 })]
    sup := { r with ctxsel := 1, frametab := 0x1000001, twintab := 0x2000001 }
    warps := [(393216, { w0 with tag := 0, sr := [(0, 0x10000), (2, 16), (3, 4), (4, 0xFFFFFFFF), (5, 1), (6, 0x20000), (7, 0)] })]
    tlbs := [⟨768, 0, 1, 65536, 0x1001F⟩]
    mem := { Mem.empty with
      bytes := words ([(0x200000, 0x201001), (0x201000, 0x202001), (0x202000, 0x203001), (0x203000, 0x204001), (0x204008, leaf)]
        ++ more) } }

/-- A watched region of context 1 over page 1. -/
def reg0 : Region :=
  { tag := 1, base := 0x10000, len := 65536, entry := 0, qaddr := 0x10000, spill := 0, glog := 6, tt := 0, casc := 4, hev := false,
    launch := 0, live := true, pend := 0, run := 1, changes := [], spills := [] }
/-- FrameCounts: a count that moves, one below 0, a free frame, and no frame. -/
theorem witness_frames :
    let i (a b : Operand) : Instr := .pgref p7 false (.s 8) a b
    meets (i (.s 0) (.s 3)) (sys 0x1001F []) (fun s x => frameIdx s (src64 s x (.s 0)).toNat == some 1 && !ftFree (ftGet s 1)) = true
    ∧ meets (i (.s 0) (.s 4)) (sys 0x1001F []) (fun s x =>
        !ftFree (ftGet s 1) && decide ((ftCount (ftGet s 1) : Int) + (BitVec.ofNat 32 (src32 s x (.s 4))).toInt < 0)) = true
    ∧ meets (i (.s 0) (.s 3)) (sys 0x1001F [(0x1000010, 2 ^ 31)]) (fun s _ => ftFree (ftGet s 1)) = true
    ∧ meets (i (.s 4) (.s 3)) (sys 0x1001F []) (fun s x => (frameIdx s (src64 s x (.s 4)).toNat).isNone) = true := by decide +kernel
/-- CowAndTwin: a plain page to mark and to make a twin of, a copy-on-write page, a twin to drop, a set past 63. -/
theorem witness_cow :
    let i (b c : Operand) : Instr := .pgtwin p7 (.s 8) (.s 0) b c
    let leafIs (s : State) (e : BitVec 64) : Bool := walk s s.sup.ctxsel 0x10000 == .leaf e 0x204008 4 && pteTier e == 0
    let frame (s : State) (e : BitVec 64) : Nat := leafPa s e 4 0x10000 false / 65536 * 65536
    meets (.pgcow p7 (.s 8) (.s 0) (.s 3) (.s 5)) (sys 0x1001F []) (fun s _ => !openInRange s 1 0x10000 4) = true
    ∧ meets (i (.s 6) (.s 5)) (sys 0x1001F []) (fun s x => leafIs s 0x1001F && src32 s x (.s 5) ≤ 63
        && !watchedFrame s (frame s 0x1001F) && inHbm s (frame s 0x1001F) && inHbm s (src64 s x (.s 6)).toNat && freeTwin s == some 0
        && (twinsOf s 1 1).length < 512) = true
    ∧ meets (i (.s 6) (.s 5)) (sys 0x1005F []) (fun s _ => leafIs s 0x1005F) = true
    ∧ meets (i (.s 2) (.s 5)) (sys 0x9F [(0x2000000, 0x10011), (0x2000008, 0x10000), (0x2000010, 0x10000), (0x2000018, 0x20000)])
        (fun s _ => leafIs s 0x9F && inHbm s (frame s 0x9F) && !watchedFrame s (frame s 0x9F)) = true
    ∧ meets (i (.s 6) (.s 5)) { sys 0x1001F [] with regions := [(4, { reg0 with spill := 0x10000 })] } (fun s _ => leafIs s 0x1001F && watchedFrame s (frame s 0x1001F))
        = true
    ∧ meets (i (.s 6) (.s 0)) (sys 0x1001F []) (fun s x => 63 < src32 s x (.s 0)) = true := by decide +kernel
/-- MigrationStarts: the page of context 1, to the frame at 0x30000. -/
theorem witness_migration :
    meets (.pgmig p7 (.s 8) (.s 0)) (sys 0x2001F [(0x10000, 0x10000), (0x10008, 1), (0x10010, 0x30000)]) (fun s x =>
      match readVirt s (.warp x.w) (tagOf s x.w) (isSup x.w) (src64 s x (.s 0)) 64 with
      | (.ok bs, t) =>
        let g : MigDesc := BitVec.ofNat 512 (ofBytes bs)
        (arrFault t [x.gid] g.arr).isNone && !g.bad && !moving t g.tag g.va && walk t g.tag g.va == .leaf 0x2001F 0x204008 4
          && !watchedFrame t (leafPa t 0x2001F 4 g.va false / 65536 * 65536) && frameIdx t 0x20000 == some 2 && ftCount (ftGet t 2) ≤ 1
          && !openOnPage t g.tag g.va none true && g.tier == 0 && g.frame == 0x30000 && !heldBack s x.w true && !farHolds t 0x20000 65536
      | _ => false) = true := by decide +kernel
/-- WatchedRegions. -/
theorem witness_watch :
    meets (.watch p7 (.s 8) (.s 0)) s0 (fun s x =>
      match readVirt s (.warp x.w) (tagOf s x.w) (isSup x.w) (src64 s x (.s 0)) 64 with
      | (.ok bs, t) => (t.group? x.gid).isSome && !heldBack s x.w true && (src64 s x (.s 0)).toNat % 64 == 0
        && !farWatched t (regionOf (BitVec.ofNat 512 (ofBytes bs)) (tagOf t x.w) 0)
      | _ => false) = true
    ∧ meets (.unwatch p7 (.s 8) (.s 3)) { s0 with regions := [(4, reg0)] } (fun s x =>
        (sFind? s.regions (src32 s x (.s 3))).any fun q => q.live && q.tag == tagOf s x.w) = true
    ∧ meets (.unwatch p7 (.s 8) (.s 0)) s0 (fun s x => 255 < src32 s x (.s 0)) = true
    ∧ meets (.unwatch p7 (.s 8) (.s 3)) s0 (fun s x => (sFind? s.regions (src32 s x (.s 3))).isNone) = true
    ∧ meets (.unwatch p7 (.s 8) (.s 3)) { s0 with regions := [(4, { reg0 with live := false })] }
        (fun s x => (sFind? s.regions (src32 s x (.s 3))).any fun q => !q.live) = true := by decide +kernel
/-- GlobalLoadsStores, GlobalAtomics. -/
def good4 (s : State) (k : AccKind) (n : Nat) (cas : Bool) (post : Nat → Option Nat) (vas : List (Nat × Addr)) : Bool :=
  let r := judge s 0 k n cas post vas
  r.1.good.length == 4 && r.1.faults.isEmpty && r.1.cows.isEmpty && !r.1.wait
theorem witness_global :
    ([.ld p7 false (.v 6) (.s 0) mx, .ldu p7 false (.v 6) (.s 0) mx, .st p7 (.s 0) (.v 1) { mx with ord := .rel },
      .stu p7 (.s 0) (.v 1) mx] : List Instr).all (fun i => meets i s0 fun s x =>
        !heldBack s x.w true && !anyReq s x.w && releaseReady s x.w mx.scp && tableRoom s x.w 1
          && good4 s .write 4 false (postPlain s true false) (addrs s x (.s 0) 0)) = true
    ∧ meets (.ld p7 false (.v 6) (.s 0) { mx with rt := .unc, wid := .b8, opx := 3 }) { s0 with accCopy := [⟨0x10000, 65536, 0, 10, 0⟩] } (fun s x =>
        good4 s .read 8 false (fun pa => if (accEnt s pa).isNone then some 0x14 else none) (addrs s x (.s 0) 0)) = true := by decide +kernel
/-- GlobalLoadsStores: pref of one lane asks for its block, finds it held, finds no room, and finds no page. -/
theorem witness_pref :
    let i := Instr.pref p7 (.s 0) { mx with wid := .b1 }
    let one (s : State) : State := { s with cur := some ⟨0, 1, 0x10000, 0x10008, false⟩ }
    let blk (s : State) (x : Issue) : Option Nat := (addrs s x (.s 0) 0).head?.bind fun e => (prefBlock s x.w e.2).1
    let t (s : State) : State := (prefBlock s 0 0x10000).2
    let holds : State := { s0 with cus := [(0, { CU.zero with
      l1 := (List.range 32).map fun k => (0x4000 + k, ⟨.wt, 0, 0, 0, false, false, 1, 0⟩) })] }
    let busy : State := { s0 with reqs := (List.range 64).map fun k => (k, Req.blank s0 0 (.load .own)) }
    meets i (one s0) (fun s x => (addrs s x (.s 0) 0) == [(0, 0x10000)] && blk s x == some 0x200 && !prefHeld (t s) 0 0x200
      && tableRoom (t s) x.w 1) = true
    ∧ meets i (one holds) (fun s x => blk s x == some 0x200 && prefHeld (t s) 0 0x200) = true
    ∧ meets i (one busy) (fun s x => blk s x == some 0x200 && !tableRoom (t s) x.w 1) = true
    ∧ meets (.pref p7 (.s 2) { mx with wid := .b1 }) (one (st { w0 with sr := [(2, 0x50000)] })) (fun s x =>
        (addrs s x (.s 2) 0).head?.bind (fun e => (prefBlock s x.w e.2).1) == none) = true := by decide +kernel
theorem witness_atomics :
    let m : MemExt := { mx with rt := .unc, ord := .ar }
    ([.atom p7 false (.v 6) (.s 0) (.v 1) m, .red p7 false (.s 0) (.v 1) { m with ord := .rel },
      .cas p7 false (.v 6) (.s 0) (.v 1) (.v 1) m] : List Instr).all (fun i => meets i s0 fun s x =>
        !heldBack s x.w true && !anyReq s x.w && releaseReady s x.w m.scp && tableRoom s x.w 1
          && good4 s .rmw 4 true (atomPost s (.atom 0) 4) (addrs s x (.s 0) 0)) = true := by decide +kernel
/-- ScratchpadLoadsStores, ScratchpadAtomics, StoreFrame: offset 16 of a window of 65,536 bytes. -/
def inPad (s : State) (x : Issue) : Bool :=
  !heldBack s x.w false && windowOf s x.gid false 0 == some 0 && !windowDead s x.gid 0
    && (let j := judgePad s (some 0) 4 (offs s x (.s 2) 0)
        j.faults.isEmpty && j.cows.isEmpty && !j.wait && !anyHeld s 0 4 j.good && !j.good.isEmpty)
theorem witness_scratch :
    ([.lds p7 false (.v 6) (.s 2) mx, .sts p7 (.s 2) (.v 1) mx, .ldfe p7 (.v 6) (.s 2) mx, .ldff p7 (.v 6) (.s 2) mx, .stfe p7 (.s 2) (.v 1) mx,
      .stff p7 (.s 2) (.s 3) mx, .atom p7 true (.v 6) (.s 2) (.v 1) mx, .red p7 true (.s 2) (.v 1) mx,
      .cas p7 true (.v 6) (.s 2) (.v 1) (.v 1) mx] : List Instr).all (fun i => meets i s0 inPad) = true := by decide +kernel
/-- ScratchpadLoadsStores: the last word of the window, the first byte past it, and an odd offset; FullEmptyWords and
ScratchpadAtomics: a group whose lanes act. -/
theorem witness_window : (s0.group? 0).map Group.winSize = some 65536 ∧ (65532 % 4 = 0) ∧ 65532 < 65536 ∧ 65536 % 4 = 0 ∧ 65537 % 4 ≠ 0 := by
  decide +kernel
/-- FullEmptyWords: feset of one word; a word that is empty, so that a lane of ldfe parks and one of stfe acts. -/
theorem witness_fullempty :
    meets (.feset p7 true (.s 2) (.s 3) { mx with wid := .b1 }) s0 (fun s x => inPad s x && (offs s x (.s 2) 0).all fun e => e.2 + 16 ≤ 65536) = true
    ∧ (s0.group? 0).any (fun g => feReady (s0.cu 0) g 0 0 (wordKey 0 16) 16 (some false)
        && !feReady (s0.cu 0) g 0 0 (wordKey 0 16) 16 (some true)) = true
    ∧ (s0.warp? 0).any (fun w => 0 < w.width) = true := by decide +kernel
/-- RangeOperations: a range of four bytes, an empty one, and icinv outstanding. -/
def rx : MemExt := { mx with wid := .b1, scp := .pkg }
theorem witness_range :
    ([.wbr p7 (.s 0) (.s 3) rx, .invr p7 (.s 0) (.s 3) rx, .flr p7 (.s 0) (.s 3) rx, .icinv p7 (.s 0) (.s 3) rx,
      .accdrain p7 (.s 0) (.s 3) rx] : List Instr).all (fun i => meets i s0 fun s x => (rangeOf s x (.s 0) (.s 3) 0).2 == 4
        && tableRoom s x.w 1 && !heldBack s x.w true) = true
    ∧ meets (.wbr p7 (.s 0) (.s 9) rx) s0 (fun s x => (rangeOf s x (.s 0) (.s 9) 0).2 == 0) = true
    ∧ goesOn s0 (.fetchb { mx with wid := .b1 }) = true
    ∧ meets (.fetchb { mx with wid := .b1 }) { s0 with reqs := [(0, Req.blank s0 0 .icinv)] } (fun s x =>
        s.reqs.any fun e => e.2.wid == x.w && e.2.kind == .icinv) = true := by decide +kernel
/-- Accumulate: one lane adds 4 to element 0 of a region at 0x10000, as a request and to an update-only line. -/
def accs : State :=
  { s0 with accCopy := [⟨0x10000, 65536, 0, 10, 0⟩], cur := some ⟨0, 1, 0x10000, 0x10008, false⟩ }
theorem witness_acc :
    let i := Instr.acc p7 (.s 0) (.v 2) { mx with wid := .b8, opx := 3 }
    let ok (s : State) (x : Issue) : Bool :=
      let j := judge s 0 .write 8 false (fun pa => if (accEnt s pa).isNone then some 0x14 else none) (addrs s x (.s 0) 0)
      j.1.faults.isEmpty && j.1.good.length == 1 && !(accAddend 3 0 (srcLane s x w0 (.v 2) 2 0)).2.2
        && (accAddend 3 0 (srcLane s x w0 (.v 2) 2 0)).2.1 == 0 && tableRoom s x.w 1 && tableRoom s x.w 0 && (j.1.good.all fun g => !g.sm) && !blockBusy s x.w 512
    meets i accs (fun s x => ok s x && (sFind? (s.cu 0).upd 512).isNone) = true
    ∧ meets i { accs with cus := [(0, { CU.zero with upd := [(512, ⟨[], [], 0, 0, 8, 0, 1⟩)] })] } (fun s x =>
        ok s x && (sFind? (s.cu 0).upd 512).any fun u => u.ctx == tagOf s x.w) = true := by decide +kernel
/-- Fences: nothing outstanding, and a load outstanding. -/
def loading : State := { s0 with reqs := [(0, { Req.blank s0 0 (.load .own) with dst := some (.v 9), accs := [⟨0, 0x10000, 0x10000, [], [], 1, false⟩] })] }
theorem witness_fence :
    ([.acq, .rel, .ar, .sc] : List FenceKind).all (fun k => meets (.fence p7 .pkg k) s0 fun s x =>
        !readOpen s x.w && !anyReq s x.w && releaseReady s x.w .pkg) = true
    ∧ ([.rel, .ar, .sc] : List FenceKind).all (fun k => meets (.fence p7 .pkg k) dirtyFar fun s x =>
        !readOpen s x.w && !anyReq s x.w && !releaseReady s x.w .pkg) = true
    ∧ meets (.fence p7 .pkg .acq) loading (fun s x => readOpen s x.w) = true
    ∧ ([.rel, .ar, .sc] : List FenceKind).all (fun k => meets (.fence p7 .pkg k) loading fun s x => anyReq s x.w) = true := by decide +kernel
/-- Barriers: package barrier 4 of context 1 with the group as a member, arrived or not; barrier 16, which is not its own. -/
def bars (b : Barrier) : State := { s0 with bars := [(4, { b with owner := some 1, launches := [0], members := [⟨0, 0⟩] })] }
theorem witness_barriers :
    let free := Barrier.free
    let here : Arrival := ⟨⟨0, 0⟩, 0, 0⟩
    let mine (s : State) (x : Issue) : Bool := barNamed s x false (.s 3) == some 4 && barMember s x 4
    let in_ (s : State) : State := { s with warps := [(0, { w0 with barWait := some 4 })] }
    ([.arrive h7 false (.s 3), .wait h7 false (.s 3)] : List Instr).all (fun i => meets i (bars free) fun s x =>
        mine s x && !barArrived s x 4 && !barWaiting s x 4 && !anyReq s x.w && releaseReady s x.w (barScope false)) = true
    ∧ meets (.bar h7 false (.s 3)) (bars free) (fun s x => mine s x && !barArrived s x 4 && !anyReq s x.w
        && releaseReady s x.w (barScope false)
        && !barWaiting ((barArrive s x false 4).modWarp x.w fun w => { w with barWait := some 4 }) x 4) = true
    ∧ meets (.bar h7 false (.s 3)) (in_ (bars free)) (fun s x => mine s x && !barWaiting s x 4) = true
    ∧ meets (.bar h7 false (.s 3)) (in_ (bars { free with arrived := [here], waits := [here] })) (fun s x => mine s x && barWaiting s x 4) = true
    ∧ meets (.bar h7 false (.s 3)) (bars { free with arrived := [here] }) (fun s x => mine s x && barArrived s x 4) = true
    ∧ meets (.arrive h7 false (.s 3)) (bars { free with arrived := [here] }) (fun s x => barArrived s x 4) = true
    ∧ meets (.wait h7 false (.s 3)) (bars { free with arrived := [here], waits := [here] }) (fun s x => barWaiting s x 4) = true
    ∧ meets (.bmask h7 false (.s 3) (.s 3)) (bars free) (fun s x => (s.bar 4).arrived.isEmpty && src32 s x (.s 3) != 0) = true
    ∧ meets (.bmask h7 false (.s 3) (.s 9)) (bars free) (fun s x => src32 s x (.s 9) == 0) = true
    ∧ meets (.bmask h7 false (.s 3) (.s 3)) (bars { free with arrived := [here] }) (fun s x =>
        barNamed s x false (.s 3) == some 4 && !(s.bar 4).arrived.isEmpty) = true
    ∧ ([.arrive h7 false (.s 3), .wait h7 false (.s 3), .bar h7 false (.s 3)] : List Instr).all (fun i =>
        meets i { s0 with bars := [(4, { free with owner := some 1, launches := [0], members := [⟨0, 1⟩] })] } fun s x =>
          barNamed s x false (.s 3) == some 4 && !barMember s x 4 && (s.warp? x.w).any fun w => w.barWait == none) = true
    ∧ meets (.bar h7 false (.s 3)) (bars { free with arrived := [here] }) (fun s x => mine s x
        && (s.warp? x.w).any fun w => w.barWait != some 4) = true
    ∧ meets (.bar h7 false (.s 3)) { dirtyFar with bars := (bars free).bars } (fun s x => mine s x && !anyReq s x.w && !barArrived s x 4
        && !releaseReady s x.w (barScope false)) = true
    ∧ ([.arrive h7 false (.s 2), .wait h7 false (.s 2), .bar h7 false (.s 2), .bmask h7 false (.s 2) (.s 3)] : List Instr).all
        (fun i => meets i (bars free) fun s x => (barNamed s x false (.s 2)).isNone) = true := by decide +kernel
/-- ConvergePublishChannel. -/
theorem witness_converge :
    let free (s : State) (x : Issue) : Bool := (s.warp? x.w).any fun w =>
      ((w.cvReg 1).signed == 0 || (w.cvReg 1).signed == (w.cvReg 1).expected) && (s.cu 0).defMat.isEmpty
    meets (.cvdef p7 1 none) s0 free = true ∧ meets (.cvdef p7 1 (some (.s 2))) (st { w0 with cv := [(1, ⟨15, 15, none, []⟩)] }) free = true
    ∧ meets (.cvdef p7 1 none) (st { w0 with cv := [(1, ⟨15, 1, none, []⟩)] }) (fun s x =>
        (s.warp? x.w).any fun w => (w.cvReg 1).signed != 0 && (w.cvReg 1).signed != (w.cvReg 1).expected) = true
    ∧ meets (.publish h7 (.s 3)) s0 (fun s x => src32 s x (.s 3) ≤ 63 && !anyReq s x.w && releaseReady s x.w .pkg) = true
    ∧ meets (.publish h7 (.s 3)) loading (fun s x => src32 s x (.s 3) ≤ 63 && anyReq s x.w) = true
    ∧ meets (.publish h7 (.s 0)) s0 (fun s x => 63 < src32 s x (.s 0)) = true
    ∧ meets (.chset h7 (.ch 1 false) (.s 2) (.s 3)) s0 (fun s x => src32 s x (.s 2) % 4 == 0 && src32 s x (.s 3) ≤ 4095) = true
    ∧ meets (.chset h7 (.ch 1 false) (.s 2) (.s 0)) s0 (fun s x => 4095 < src32 s x (.s 0)) = true := by decide +kernel
/-- MatrixSigning: sets that stay open, are complete, wait for their ring or for the queue, and misuse; 64 lanes. -/
def allLanes : Mask := 0xFFFFFFFFFFFFFFFF
def wide (c : Cv) : Warp := { Warp.start 64 0x10000 1 0 0 with cv := [(1, c)] }
def mats (e c set : Mask) : State := { st (wide ⟨e, c, none, []⟩) with cur := some ⟨0, set, 0x10000, 0x10010, false⟩ }
def mmaX : MatExt := ⟨false, 0, 0, .bf16, .bf16, false, 1, 2⟩
theorem witness_matrix :
    let mma := Instr.mma p7 (.v 16) (.s 6) mmaX
    let rung := Instr.mma p7 (.v 16) (.ch 1 false) mmaX
    let c (s : State) (x : Issue) : Cv := ((s.warp? x.w).map fun w => w.cvReg 1).getD Cv.zero
    let legal (s : State) (x : Issue) : Bool := (c s x).expected != 0 && x.exec &&& ~~~(c s x).expected == 0 && x.exec &&& (c s x).signed == 0
      && (c s x).signed == 0
    let full (s : State) (x : Issue) : Bool := legal s x && (c s x).expected &&& ~~~((c s x).signed ||| x.exec) == 0
    let ringed (s : State) : State := { s with groups := [(0, { placedGroup with chans := [(1, ⟨0, 0, 1024, 0⟩)] })] }
    let queued (s : State) : State := { s with cus := [(0, { CU.zero with matq := (List.range 8).map fun k => ⟨0, 0, mma, [], [], k⟩ })] }
    [mma, .mmaq p7 (.v 16) (.s 6) { mmaX with fb := .n8 }, .mmas p7 (.v 16) (.s 6) mmaX].all (fun i =>
        meets i (mats 3 0 1) (fun s x => legal s x && (c s x).expected &&& ~~~((c s x).signed ||| x.exec) != 0)
        && meets i (mats 1 0 1) (fun s x => full s x && matGo s x.w i x.cur.pc == .go)) = true
    ∧ meets rung (ringed (mats 1 0 1)) (fun s x => full s x && matGo s x.w rung x.cur.pc == .wait && ringShort s x.w rung) = true
    ∧ meets mma (queued (mats 1 0 1)) (fun s x => full s x && matGo s x.w mma x.cur.pc == .wait && !ringShort s x.w mma) = true
    ∧ meets mma (mats 0 0 1) (fun s x => (c s x).expected == 0) = true
    ∧ meets mma (mats 2 0 1) (fun s x => x.exec &&& ~~~(c s x).expected != 0) = true
    ∧ meets mma (mats 3 1 1) (fun s x => x.exec &&& (c s x).signed != 0) = true
    ∧ (let half (i : Instr) : State := { mats 3 1 2 with warps := [(0, wide ⟨3, 1, some i, []⟩)] }
       meets mma (half mma) (fun s x => x.exec &&& (c s x).signed == 0 && (c s x).ins.map noPred == some (noPred mma)) = true
         ∧ meets mma (half rung) (fun s x => (c s x).signed != 0 && (c s x).ins.map noPred != some (noPred mma)) = true) := by
  decide +kernel
/-- Tiles. -/
theorem witness_tiles :
    let idle (s : State) (x : Issue) : Bool := !tilePending s x.gid 2 && (s.group? x.gid).any fun g => g.poison.isEmpty && g.padPoison.isEmpty
    goesOn s0 (.accz p7 2) = true
    ∧ meets (.accrd h7 ⟨false, false, 2⟩ (.v 6) (.v 1)) s0 idle = true ∧ goesOn s0 (.accwr h7 ⟨true, true, 2⟩ (.v 1) (.v 1)) = true
    ∧ ([.accld p7 true 2 (.s 7) (.s 2) mx, .accst p7 true 2 (.s 7) (.s 2) { mx with ord := .rel }, .accld p7 false 2 (.s 0) (.s 2) mx,
        .accst p7 false 2 (.s 0) (.s 2) { mx with ord := .rel }] : List Instr).all (fun i => meets i s0 fun s x =>
          idle s x && !heldBack s x.w true && !heldBack s x.w false && !anyReq s x.w && releaseReady s x.w .cu && tableRoom s x.w 1
            && windowOf s x.gid false 0 == some 0 && !windowDead s x.gid 0 && (s.group? 0).any fun g => g.held.isEmpty) = true := by
  decide +kernel
/-- Tiles: every element of a tile lies in the window, and in the page. -/
def tileX : Issue := ⟨⟨0, 15, 0x10000, 0x10008, false⟩, 0, 15, 15, 15, true, false, 0⟩
theorem witness_tile_offsets : inWindow s0 tileX mx 0 4 (tileOffs s0 tileX (.s 7) (.s 2) mx)
    ((tileOffs s0 tileX (.s 7) (.s 2) mx).map fun e => ⟨e.1, BitVec.ofNat 64 e.2, e.2, false, false⟩) :=
  ⟨by decide +kernel, by decide +kernel, judgePad_good (g := placedGroup) (by decide +kernel)
    (by intro e he; exact of_decide_eq_true (List.all_eq_true.mp
      (show (tileOffs s0 tileX (.s 7) (.s 2) mx).all (fun e => decide (e.2 % 4 = 0 ∧ e.2 < placedGroup.winSize)) = true by
        decide +kernel) e he))⟩
theorem witness_tile_addresses : judged s0 tileX .read 4 false (postPlain s0 false false) (tileAddrs s0 tileX (.s 0) (.s 2) mx)
    ((tileAddrs s0 tileX (.s 0) (.s 2) mx).map fun e => ⟨e.1, e.2, e.2.toNat, false, false⟩) s0 := by
  have all : (tileAddrs s0 tileX (.s 0) (.s 2) mx).all (fun e => decide (e.2.toNat % 4 = 0 ∧ postPlain s0 false false e.2.toNat = none)
      && legalVa e.2 && (match tlbFind s0 0 1 e.2 with
        | some q => decide (leafChecks s0 1 false .read q.pte q.size e.2 false = .ok e.2.toNat false) && !bit q.pte 7
        | none => false)) = true := by decide +kernel
  refine judge_good (pa := BitVec.toNat) (sm := fun _ => false) fun e he => ?_
  have h := List.all_eq_true.mp all e he
  simp only [Bool.and_eq_true, decide_eq_true_eq] at h
  obtain ⟨⟨⟨ha, hp⟩, hv⟩, ht⟩ := h
  refine ⟨ha, hp, ?_⟩
  split at ht
  · next q hq =>
    simp only [Bool.and_eq_true, decide_eq_true_eq, Bool.not_eq_true'] at ht
    rw [show cuOf (gidOf tileX.w) = 0 from rfl, show tagOf s0 tileX.w = 1 from rfl, show isSup tileX.w = false from rfl,
      translate_hit hv (by decide +kernel) hq (by rw [ht.2]; rfl), ht.1]
  · cases ht
/-- EngineStatus: nothing outstanding, and an operation to stop. -/
def engOne (stop : Bool) : EngOp :=
  { kind := .mcast, wid := 0, gid := 0, cu := 0, tag := 1, arr := 16, arrs := [0], elems := [], readFirst := false, desc := [], k0 := 0,
    fmt := .bf16, ns := 1, dst := 0, row := 0, mask := 0, block := [], total := 0, stopping := stop, bads := [], overran := false, ended := false,
    after := [], depth := 0 }
theorem witness_status :
    let gone : State := st { w0 with cancelled := true }
    goesOn s0 (.estat p7 (.s 8) (some (.s 2))) = true ∧ goesOn s0 (.estat p7 (.s 8) none) = true
    ∧ [gone, { gone with engs := [(0, engOne false)] }].all (fun s => meets (.ecancel p7 none) s fun s x =>
        (s.warp? x.w).any Warp.cancelled && (engsOf s x.gid none).all fun e => !e.2.stopping) = true
    ∧ meets (.ecancel p7 (some (.s 2))) s0 (fun s x => (engsOf s x.gid (some 16)).isEmpty && (s.warp? x.w).any fun w => !w.cancelled) = true
    ∧ meets (.ecancel p7 none) { s0 with engs := [(0, engOne false)] } (fun s x => !(engsOf s x.gid none).isEmpty) = true := by decide +kernel
/-- EngineOperations: mcast, with room and without; csrg, with zeros for a descriptor; xcopy of one element of 4 bytes from offset 0 of
the window to offset 64, its descriptor at 0x1000 of the window, or at 0x10000 of global memory. -/
def copyDesc : Nat := 2577 + 64 * 2 ^ 128 + 2 ^ 256
theorem witness_engines :
    let me : McExt := ⟨16, 1, 1, 0x100⟩
    let ge : GatherExt := ⟨.bf16, 0, 0x100⟩
    let csr : State := st { w0 with sr := [(0, 0x10000)] }
    let busy (k : EngKind) : Store EngOp := (List.range 16).map fun n => (n, { engOne false with kind := k })
    let open_ : Store Req := [(0, Req.blank s0 0 (.store .own))]
    let padded : State := { s0 with groups := [(0, { placedGroup with
      scr := (bytesOf copyDesc 256).zipIdx.map fun e => (0x1000 + e.2, e.1) })] }
    let stored : State := { s0 with mem := { Mem.empty with
      bytes := (bytesOf copyDesc 256).zipIdx.foldl (fun m e => sSet 0 m (0x10000 + e.2) e.1) [] } }
    let fits (u : State) (x : Issue) (bs : List Byte) : Bool :=
      let d : Desc := BitVec.ofNat 2048 (ofBytes bs)
      (arrFault u [x.gid] 0x100).isNone && d.ok (peerCount u x.gid) && endpointOk u d && d.dstk != 2 && (outside u (d.elems u x.gid)).isNone
        && (d.elems u x.gid).length == 1 && !engFull u x.gid .xcopy && !anyReq u x.w && !heldBack u x.w true
    meets (.xcopy p7 (.s 7) ⟨0x100, true, 0x1000⟩) padded (fun s x => (s.group? 0).any fun g => fits s x (g.bytes 0x1000 256)) = true
    ∧ meets (.xcopy p7 (.s 0) ⟨0x100, false, 0⟩) stored (fun s x => match readDesc s x 0x10000 256 with
      | (.ok bs, u) => fits u x bs | _ => false) = true
    ∧ meets (.mcast p7 (.s 0) (.s 2) (.s 4) me) (st { w0 with sr := [(0, 0x10000), (2, 16), (4, 1)] }) (fun s x =>
        let es := mcElems s x.gid 0x10000 1 16 me
        (srcLane s x w0 (.s 0) 2 0).toNat % 16 == 0 && (arrFault s (peersOf s x.gid 1) 0x100).isNone && (outside s es).isNone
          && !engFull s x.gid .mcast && !heldBack s x.w true) = true
    ∧ meets (.xcopy p7 (.s 7) ⟨0x100, true, 0x1000⟩) { padded with engs := busy .xcopy } (fun s x => engFull s x.gid .xcopy
        && (s.group? 0).any fun g => !g.padBad 0x1000 256) = true
    ∧ meets (.xcopy p7 (.s 7) ⟨0x100, true, 0x1000⟩) { padded with reqs := open_ } (fun s x => anyReq s x.w
        && !heldBack s x.w true && (arrFault s [x.gid] 0x100).isNone) = true
    ∧ meets (.csrg p7 (.s 0) (.s 4) (.s 6) ge) { csr with reqs := open_ } (fun s x => anyReq s x.w && !heldBack s x.w true) = true
    ∧ meets (.csrg p7 (.s 0) (.s 4) (.s 6) ge) { csr with engs := busy .csrg } (fun s x => engFull s x.gid .csrg && !anyReq s x.w) = true
    ∧ ([15, 16].map fun n => engFull { s0 with engs := (List.range n).map fun k => (k, engOne false) } 0 .mcast) = [false, true]
    ∧ meets (.csrg p7 (.s 0) (.s 4) (.s 6) ge) (st { w0 with sr := [(0, 0x10000)] }) (fun s x =>
        match readDesc s x 0x10000 64 with
        | (.ok bs, u) => field (ofBytes bs) 511 256 == 0 && (arrFault s [x.gid] 0x100).isNone && !engFull u x.gid .csrg
        | _ => false) = true := by decide +kernel

/-! ### States in which other units act -/

/-- WarpUnitSteps. -/
def waits (full : Bool) : State := { s0 with cus := [(0, { CU.zero with waiters := [⟨0, 0, 16, full, false, false, 0, 64⟩] })] }
def mmaI : Instr := .mma p7 (.v 16) (.s 6) ⟨false, 0, 0, .bf16, .bf16, false, 1, 2⟩
theorem witness_warpUnits :
    let wt (s : State) : Bool := ((s.cus.findSome? fun e => (waiterOf e.2 0 0).map fun y => (e.1, y)).any fun e =>
      e.1 == 0 && !e.2.tracked && e.2.next ≤ s.fc && e.2.word / 2 ^ 20 == 0)
    let ready (s : State) (f : Bool) : Bool := (s.group? 0).any fun g => feReady (s.cu 0) g 0 0 16 16 (some f)
    let signed := st { w0 with cv := [(1, ⟨15, 15, some mmaI, []⟩)] }
    ((st { w0 with spin := 256 }).warp? 0).any (fun x => 256 ≤ x.spin && !x.rep.act) = true
    ∧ ((st { w0 with exc := 1, excCount := 1024 }).warp? 0).any (fun x => x.exc != 0 && 1024 ≤ x.excCount && !x.rep.act) = true
    ∧ (full.warp? 0).any (fun x => !x.exited && x.sfq.length == 8 && x.cvq.length == 8) = true
    ∧ queueBlocked full 0 ⟨[.vec 9 0 0], 0⟩ = false
    ∧ (let gone := st { w0 with lanes := w0.lanes.map fun l => { l with st := .exited }, cvq := [⟨[], 0⟩], sfq := [⟨[], 0⟩] }
       (gone.warp? 0).any (fun x => x.exited && x.sfq.length == 1 && x.cvq.length == 1) = true ∧ queueBlocked gone 0 ⟨[], 0⟩ = false)
    ∧ wt (waits false) = true ∧ ready (waits false) false = true ∧ wt (waits true) = true ∧ ready (waits true) true = false
    ∧ ({ signed with cus := [(0, { CU.zero with defMat := [⟨0, 1⟩] })] }.cu (cuOf (gidOf 0))).defMat.contains ⟨0, 1⟩ = true
    ∧ ((signed.warp? 0).map fun x => (x.cvReg 1).ins) = some (some mmaI) ∧ matGo signed 0 mmaI 0 = .go
    ∧ (let s := { s0 with cus := [(0, { CU.zero with matq := [⟨0, 0, mmaI, [], [], 0⟩] })] }
       ((s.cu 0).matq.map fun m => m.ins) = [mmaI] ∧ tileLoading s 0 ((tileOf mmaI).getD 0) = false) := by decide +kernel

/-- A launch of context 1 on CU 0, with one task type. -/
def launch0 : Launch :=
  { tag := 1, x0 := 0, y0 := 0, w := 1, h := 1, side := 1, spl := 0, types := [placedType], inittt := 0, args := [], barreq := 0,
    cwaddr := 0x20000, ws := [], staged := false, record := [], toQueue := [], counter := 0, regions := [], halted := false,
    savedOut := [] }

/-- TrapSteps: a halted warp, one with pending traps, a handler's start with the curator's group there and not, an overrun, a halt
under way. -/
def halted (t : Trap) : State := st { w0 with halt := some t, flm := 15 }
def traps : State := { halted { trap0 with queued := false } with dbg := { Dbg.reset with tag := some 1, catches := [(1, 0x30, 1)] } }
def late (c : Ctx) : State := { s0 with ctxs := [(1, c)], launches := [(1, launch0)] }
theorem witness_trapSteps :
    let starts (gs : Store Group) : State := { halted trap0 with groups := gs, sup := { Sup.reset with traps := [(0, [0])] } }
    let there := starts [(0, placedGroup), (24576, placedGroup)]
    let idle := late { Ctx.zero with halting := 1 }
    ((st { w0 with asyncs := [⟨0x30, 0x10000, 1⟩, ⟨0x15, 0x10000, 1⟩] }).warp? 0).any (fun x => x.halt.isNone && x.cow.isNone
      && !x.exited && x.asyncs.all fun a => a.cause == 0x15 || 0x15 < a.cause) = true
    ∧ isSup 0 = false
    ∧ ((halted { trap0 with queued := false }).warp? 0).any (fun x => !x.stopped && x.halt.any fun t => !t.queued) = true
    ∧ (halted { trap0 with queued := false }).dbg.tag = none ∧ (halted trap0).sup.traps = []
    ∧ traps.dbg.tag = some 1 ∧ (traps.warp? 0).map Warp.tag = some 1 ∧ traps.dbg.passing = []
    ∧ (traps.dbg.catches.any fun c => c.2 == (trap0.cause, 1)) = true
    ∧ sFind? there.sup.traps 0 = some [0] ∧ there.host.off.contains 1 = false ∧ (there.group? (32 * 768)).isSome = true
    ∧ ((List.range 16).find? fun i => placeFree there (16 * (32 * (768 + 0)) + i)) = some 0
    ∧ legalVa (sGet 0 there.sup.trapbase 0 + BitVec.ofNat 64 (64 * 0x30)) = true
    ∧ ((starts [(0, placedGroup)]).group? (32 * 768)) = none
    ∧ legalVa (0x0100000000000000 + BitVec.ofNat 64 (64 * 0x30)) = false
    ∧ (let s := { there with sup := { there.sup with trapbase := [(0, 0x0100000000000000)] } }
       sGet 0 s.sup.trapbase 0 = 0x0100000000000000)
    ∧ traps.dbg.letGo = [] ∧ (traps.warp? 0).any (fun x => x.sfq.isEmpty && x.cvq.isEmpty) = true ∧ traps.reqs = []
    ∧ (let s := late { Ctx.zero with deadline := 0x8000000000000000 }
       counting s 1 (s.ctx 1) = true ∧ (s.ctx 1).deadline.getLsbD 63 = true ∧ (s.ctx 1).deadline.toNat % 2 ^ 48 = 0
         ∧ (s.launches.any fun e => e.2.tag == 1 && !launchOver s e.1 e.2) = true)
    ∧ (idle.ctx 1).halting = 1 ∧ haltReady { idle with groups := [], warps := [], cur := none } 1 = true := by decide +kernel

/-- A state with one request. -/
def asks (r : Req) : State := { s0 with reqs := [(0, r)] }
def rq (k : ReqKind) (g : Stage) : Req :=
  { Req.blank s0 0 k with dst := some (.v 9), stage := g, blk := 0x200, accs := [⟨0, 0x10000, 0x10000, [1, 2, 3, 4], [], 1, false⟩],
                          vals := [⟨0, 0x10000, [1, 2, 3, 4], 0, 0, 0⟩], span := (0x10000, 4) }
/-- Port group 0 carries traffic of the gallery, whose only member is package 0. -/
def linked (s : State) : State :=
  { s with
    fab := { Fabric.reset with gallery := [0], tabs := [(0, { PgTab.empty with relay := [(0, 128)] })] }
    sup := { Sup.reset with pgctl := [(0, 0x1200000000000000)] } }
/-- RequestSteps. -/
theorem witness_requests :
    let range (k : ReqKind) : State := asks (rq k .reply)
    let pages (ok : BitVec 64 → Bool) : List (Nat × Nat) := rangePages (range .drain) 1 0x10000 4 ok
    returnsValue (.load .own) = true ∧ returnsValue (.tileLd .own) = true ∧ returnsValue (.store .own) = false
    ∧ farAnswers (linked (asks (rq (.load .own) .ext))) (rq (.load .own) .ext) = true
    ∧ farAnswers (linked (asks (rq (.store .own) .ext))) (rq (.store .own) .ext) = true
    ∧ sFind? (asks (rq (.store .own) .refused)).reqs 0 = some (rq (.store .own) .refused)
    ∧ ([.range 0 false, .range 1 true, .drain] : List ReqKind).all (fun k => !earlierOpen (range k) 0 (rq k .reply)) = true
    ∧ ([0, 1, 2].all fun op => !rangeStuck (range (.range op false)) 0 .sys (pages (rangeAdmits false op))) = true
    ∧ liveLines (range .drain) = [] ∧ ((range .icinv).reqs.all fun e => e.2.kind != .fetch) = true := by decide +kernel
/-- HomeSteps: requests that their home may serve now. -/
theorem witness_homes :
    ([.load .own, .tileLd .own, .store .own, .tileSt .own, .load .wt, .tileLd .wt, .load .si, .tileLd .si, .load .unc, .tileLd .unc,
      .store .wt, .tileSt .wt, .store .si, .tileSt .si, .store .unc, .tileSt .unc, .atom 0, .red 10, .cas, .pref false] :
      List ReqKind).all (fun k => (servable (asks (rq k .home)) 0).map Req.kind == some k) = true
    ∧ (asks (rq .cas .home)).mem.l2 = [] ∧ (asks (rq .cas .home)).mem.dir = [] ∧ (asks (rq .cas .home)).holders = []
    ∧ (asks (rq .cas .home)).cus = [] := by decide +kernel
/-- HomeSteps: a word of HBM that another CU owns, with a dirty byte in it, and the CU's own; what own, wt, si and unc make of it. -/
def owned (c : CuId) : State :=
  { s0 with
    cus := [(c, { CU.zero with l1 := [(0x4000, ⟨.own, 0x77, 1, 0, false, false, 1, 0⟩)] })]
    mem := { Mem.empty with dir := [(0x4000, ⟨some c, []⟩)] } }
theorem witness_words : plainWord (owned 3) 0x4000 ∧ plainWord (owned 0) 0x4000 ∧ (rq (.load .own) .home).sm = false
    ∧ (rq (.load .own) .home).cu = 0 := by
  refine ⟨⟨by decide +kernel, by decide +kernel, ?_⟩, ⟨by decide +kernel, by decide +kernel, ?_⟩, by decide +kernel, by decide +kernel⟩
  · intro c h
    have h' : some 3 = some c := h
    cases h'; decide
  · intro c h
    have h' : some 0 = some c := h
    cases h'; decide
theorem test_word_own :
    let t := loadWord (owned 3) (rq (.load .own) .home) .own 0x4000
    t.dir 0x4000 = ⟨some 0, []⟩ ∧ homeByte t 0x10000 = 0x77 ∧ t.l1 3 0x4000 = none ∧ (t.l1 0 0x4000).map L1Word.data = some 0x77 := by
  decide +kernel
theorem test_word_unc :
    let t := loadWord (owned 3) (rq (.load .unc) .home) .unc 0x4000
    t.dir 0x4000 = ⟨none, [3]⟩ ∧ homeByte t 0x10000 = 0x77 ∧ (t.l1 3 0x4000).map L1Word.dirty = some 0 := by decide +kernel
theorem witness_merge : (([(0x10000, 7)] : Bytes).map fun e => e.1).Nodup ∧ watched s0 (0x10000 / 4) = false ∧ spaceOf s0 0x10000 = .hbm
    ∧ ((owned 3).l1 3 (0x10000 / 4)).isSome = true := by decide +kernel
/-- CacheSteps: a word with an owner, one with a sharer; a word of package 9 in its proxy; a line with and without update-only
deltas; reads of a plinth. -/
theorem witness_caches :
    let s := { s0 with mem := { Mem.empty with dir := [(0x4000, ⟨some 0, []⟩), (0x4001, ⟨none, [3]⟩)] } }
    let far := 9 * 2 ^ 42
    let held := { s0 with mem := { Mem.empty with prox := [(far, ⟨.wt, 1⟩)] } }
    let gone (u : State) : State := ((l1Words u 0).filter fun w => w / 32 == 0x200).foldl (fun t w => flushWord t 0 w) u
    let taken (u : State) : State := ((u.mem.dir.map fun e => e.1).filter fun w => w / 32 == 0x200).foldl
      (fun u w => invalidateWord (recallWord u w false) w none) u
    (s.dir 0x4000).owner = some 0 ∧ 3 ∈ sharersOf s 0x4001 ∧ spaceOf s 0x10000 = .hbm ∧ spaceOf s 0x10004 = .hbm
    ∧ spaceOf held (4 * far) = .far ∧ proxOf held far = some .wt ∧ proxyUnit (4 * far) = 1024
    ∧ sFind? ((gone s).cu 0).upd 0x200 = none
    ∧ (sFind? ((gone { s with cus := [(0, { CU.zero with upd := [(0x200, ⟨[], [], 0, 0, 8, 0, 1⟩)] })] }).cu 0).upd 0x200).isSome = true
    ∧ (taken s).mem.prox = [] ∧ (taken s).mem.accProx = [] ∧ (taken s).mem.views = []
    ∧ (32 : Nat) ∈ [32, 64, 128, 256] ∧ 0x10000 % 256 = 0 ∧ (48 : Nat) ∉ [32, 64, 128, 256] ∧ 0x10010 % 32 ≠ 0 := by decide +kernel
/-- RegionSteps: joins, on a software-managed page too; pushes of a CU and of a proxy; loads that the limit admits, that tighten and
that drain; a holder with a smaller limit, a proxy that gets one; drains. -/
theorem witness_regions :
    let s (k : ReqKind) : State := { asks (rq k .home) with accCopy := [⟨0x10000, 65536, 0, 10, 0⟩] }
    let sm : State := { asks { rq .acc .home with sm := true } with accCopy := [⟨0x10000, 65536, 0, 10, 0⟩] }
    let pushed (c : CuId) (a : Bool) : State := { s0 with combines := [(0, ⟨c, 0x200, [(0, 5)], [], 5, 0, a, none, 0⟩)] }
    let held (k : ReqKind) : State := { s k with
      holders := [(0x200, ⟨[0], 4, false, [], false⟩)], cus := [(0, { CU.zero with upd := [(0x200, ⟨[], [], 0, 0, 8, 0, 1⟩)] })] }
    let many : State := { s (.accLoad 1 1) with holders := [(0x200, ⟨[0], tauOf 1 + 1, false, [], false⟩)] }
    let limit (u : State) : Bool :=
      let q := u.holder 0x200
      !q.unbounded && q.list.length * q.limit ≤ tauOf 1
    let proxy : State := { s0 with mem := { Mem.empty with accProx := [(9 * 2 ^ 37, ⟨[], 0, 0, 8, 0⟩)] } }
    (servable (s .acc) 0).map Req.kind = some .acc ∧ sFind? ((combineAt (s .acc) 0x200 [] [] 0 0).cu 0).upd 0x200 = none
    ∧ (servable sm 0).map (fun r => (r.kind, r.sm)) = some (.acc, true)
    ∧ ([pushed 0 false, pushed 1024 false, pushed 0 true].map fun s => s.combines.length) = [1, 1, 1]
    ∧ (servable (s (.accLoad 1 1)) 0).map Req.kind = some (.accLoad 1 1) ∧ limit (s (.accLoad 1 1)) = true ∧ 0 < tauOf 1
    ∧ (servable many 0).map Req.kind = some (.accLoad 1 1) ∧ limit many = false ∧ (many.holder 0x200).unbounded = false
    ∧ 0 < tauOf 1 / (many.holder 0x200).list.length
    ∧ (servable (s (.accLoad 1 0)) 0).map Req.kind = some (.accLoad 1 0) ∧ tauOf 0 = 0 ∧ farDrained (s (.accLoad 1 0)) 0x200 = true
    ∧ (sFind? (held (.red 0)).holders 0x200).any (fun h => h.list == [0] && h.limit < 8 && h.far == []) = true
    ∧ spaceOf proxy (128 * (9 * 2 ^ 37)) = .far ∧ proxyUnit (128 * (9 * 2 ^ 37)) = 1024
    ∧ (sFind? proxy.mem.accProx (9 * 2 ^ 37)).map ProxyLine.limit = some 8
    ∧ wantsDrain (held (.accLoad 1 0)) 0x200 = true ∧ (held (.accLoad 1 0)).mem.accProx = []
    ∧ ((held (.red 0)).reqs.any fun f => f.2.stage == .home && f.2.blk == 0x200 && f.2.kind == .red 0) = true := by decide +kernel

/-- TriggerSteps: a trigger with room and without it, a spilled bit, changes of PEND and RUN, a group to count out. -/
def trig0 (refused : Bool) : Trigger := ⟨4, 0x10000, 0x10000, 1, 0, 1, refused, false, false, 0⟩
def trigs (refused : Bool) (n : Nat) (g : Region) : State :=
  { s0 with
    trigs := [(0, trig0 refused)], regions := [(4, g)], launches := [(1, launch0)]
    cus := [(triggerCu launch0 g (trig0 refused), { CU.zero with queue := List.replicate n ⟨1, 0, [], 0, .initial, false⟩ })] }
theorem witness_triggers :
    let r1 := { reg0 with launch := 1 }
    let cu := triggerCu launch0 r1 (trig0 false)
    ([false, true].all fun b => ([0, 256].map fun n => queueRoom (trigs b n r1) cu) == [true, false]) = true
    ∧ trigHeld (trigs false 0 r1) r1 0 = false ∧ ((trigs false 0 r1).ctx 1).halting = 0
    ∧ (let r2 := { r1 with spill := 0x20000, spills := [(unitOf 0x10000, ⟨1, 1, 0⟩)] }
       let s : State := { sys 0x1001F [(0x204010, 0x2001F), (0x20000, 1)] with regions := [(4, r2)] }
       let u := unitOf 0x10000
       unitQueue s u < 64 ∧ scanNext s u r2 0 = some (0, 0x10000, 0x10000) ∧ (pendingTrig s 4 0x10000).isNone = true
         ∧ (pendingTrig { s with trigs := [(0, { trig0 false with spilled := true })] } 4 0x10000).isSome = true)
    ∧ (let m := { r1 with changes := [(1, 0)] }
       (trigs false 0 m).regions = [(4, m)] ∧ m.pend + 1 ≠ 0)
    ∧ (let m := { r1 with changes := [(0, -1)] }
       (trigs false 0 m).regions = [(4, m)] ∧ m.pend + 0 = 0 ∧ m.run + -1 = 0)
    ∧ behindOlder (trigs false 0 r1) 0 (trig0 false) = false
    ∧ behindOlder { trigs false 0 r1 with trigs := [(0, trig0 false), (1, trig0 false)] } 1 (trig0 false) = true
    ∧ (let s := { s0 with outs := [(0, ⟨4, 0, 0, 2 ^ 60⟩)] }
       (sFind? s.outs 0).isSome = true ∧ s.reqs = [] ∧ s.dbg.traces = [] ∧ allCommitted s 0 = true)
    ∧ allCommitted dirtyFar 0 = false
    ∧ (asks (rq (.store .own) .home)).reqs.any (fun e => e.2.wid / 16 == 0) = true := by decide +kernel

/-- A task type of one warp of four lanes with eight registers, no tile, ring or scratchpad. -/
def small : TaskType := { nwarp := 1, width := 0, nreg := 0, tiles := 0, chan := 0, scr := 0, entry := 0x10000 }
def laun : Launch := { launch0 with types := [small] }
def task0 : Task := ⟨0, 0, [], 0, .initial, false⟩
def oneCu (u : CU) (s : State) : State := { s with cus := [(0, u)] }
/-- A program of that type. -/
def image0 : Image := ⟨1, 0x10000, [0, 0, 0, 0], 0x20000, [], [0x10000], []⟩
/-- A launch record of one CU. -/
def record0 : List Byte := dbgRecord s0 image0 0 0 1 1 1 1000

/-- LaunchSteps: launch before and after the answer; enq accepted and refused; a record that is accepted and one that is not. -/
theorem witness_launch :
    let rd (s : State) (x : Issue) : Bool := (s.cpq.all fun q => q.reply != some x.w) && !anyReq s x.w && (src64 s x (.s 0)).toNat % 64 == 0
      && releaseReady s x.w .pkg && (readRecord (releaseAt s x.w .pkg) (.warp x.w) (tagOf s x.w) (isSup x.w) (src64 s x (.s 0))).1.isOk
    let e : Submit := ⟨1, [], some 1, none⟩
    meets (.launch p7 (.s 8) (.s 0)) { s0 with cpq := [⟨1, [], some 0, some 5⟩] } (fun s x =>
      (s.cpq.find? fun q => q.reply == some x.w).any fun q => q.result == some 5) = true
    ∧ meets (.launch p7 (.s 8) (.s 0)) { s0 with cpq := [e, e] } rd = true ∧ meets (.launch p7 (.s 8) (.s 0)) s0 rd = true
    ∧ recordOk s0 1 record0 = true ∧ recordOk s0 1 (record0.drop 1) = false := by decide +kernel
/-- LaunchSteps: the queue of the command processor, whose depth is open, is full or has room. -/
theorem witness_launch_depth (e : Submit) :
    Config.cpDepth < (List.replicate (Config.cpDepth + 1) e).length ∧ ([] : List Submit).length ≤ Config.cpDepth := by simp
theorem witness_enq :
    let s (n : Nat) : State := { oneCu { CU.zero with queue := List.replicate n task0 } (st { w0 with sr := [(4, 0xFFFFFFFF), (5, 1), (6, 0)] }) with
      launches := [(0, laun)] }
    let i (a b : Operand) : Instr := .enq h7 (.s 8) a b (.s 0)
    let mine (s : State) (x : Issue) : Bool := !anyReq s x.w && releaseReady s x.w .pkg && (releaseAt s x.w .pkg).group? x.gid == some placedGroup
      && sFind? (releaseAt s x.w .pkg).launches 0 == some laun
    meets (i (.s 6) (.s 4)) (s 0) (fun s x => mine s x && src32 s x (.s 4) == 0xFFFFFFFF && queueRoom s 0) = true
    ∧ meets (i (.s 6) (.s 4)) (s 256) (fun s x => mine s x && !queueRoom s 0) = true
    ∧ meets (i (.s 5) (.s 4)) (s 0) (fun s x => mine s x && laun.types.length ≤ src32 s x (.s 5)) = true
    ∧ meets (i (.s 6) (.s 5)) { s 0 with warps := [(0, { w0 with sr := [(5, 0x100000), (6, 0)] })] } (fun s x =>
        mine s x && field (src32 s x (.s 5)) 25 20 == 1) = true := by decide +kernel
theorem witness_launchSteps :
    let gone := { w0 with lanes := w0.lanes.map fun l => { l with st := .exited } }
    let s (u : CU) (l : Launch) : State := { oneCu u s0 with launches := [(0, l)], groups := [], warps := [], cur := none }
    let ended : Launch := { laun with staged := true }
    (acceptLaunch s0 1 []).1 = 0x80000002 ∧ laun.staged = false ∧ laun.ws = []
    ∧ (startable (s { CU.zero with queue := [task0] } ended) 0).isSome = true
    ∧ retirable { s0 with warps := [(0, gone)], cur := none } 0 placedGroup = true ∧ placedGroup.trig = none ∧ s0.saved = []
    ∧ launchOver (s CU.zero ended) 0 ended = true
    ∧ launchOver (s CU.zero laun) 0 laun = false
    ∧ ({ s CU.zero ended with exch := 1 }.exch ≠ 0 ∧ (s CU.zero ended).exch = 0) := by decide +kernel

/-- The group that the curator saves, and the state that asks for it. -/
def toSave (w : Warp) : State :=
  { sys 0x1001F [] with
    groups := [(0, { placedGroup with ty := small, cluster := some 5 }), (24576, { placedGroup with tag := 0, home := 768 })]
    clusters := [(5, ⟨0, 1, 0, 0, [0]⟩)], launches := [(0, laun)]
    warps := [(0, w), (393216, { w0 with tag := 0, sr := [(0, 0x10000), (3, 0x800), (4, 0)] })] }
/-- Its record, and the state that loads it. -/
def recordBytes : List Byte :=
  let s := stopGroup (askStop (toSave w0) 0 true) 0
  saveBytes s (snapshot s 0 { placedGroup with ty := small, cluster := some 5 })
def toLoad (l : Launch) : State :=
  let s := toSave w0
  { s with
    groups := [(24576, { placedGroup with tag := 0, home := 768 })], clusters := [(5, ⟨0, 1, 0, 0, []⟩)]
    launches := [(0, l)], warps := s.warps.drop 1
    mem := { s.mem with bytes := recordBytes.zipIdx.foldl (fun m e => sSet 0 m (0x10000 + e.2) e.1) s.mem.bytes } }
/-- ContextSteps: ctxsave of no group, of one with a trap, of one that stands, of one that does not. -/
theorem witness_ctxsave :
    let i (b : Operand) : Instr := .ctxsave p7 (.s 8) (.s 0) b
    let named (s : State) (x : Issue) : Bool := (handleGroup s (src32 s x (.s 4)) s.sup.ctxsel).isSome && (src64 s x (.s 0)).toNat % 128 == 0
    let asked (s : State) : State := askStop s 0 true
    meets (i (.s 3)) (toSave w0) (fun s x => (handleGroup s (src32 s x (.s 3)) s.sup.ctxsel).isNone) = true
    ∧ meets (i (.s 4)) (toSave { w0 with halt := some trap0 }) (fun s x => named s x && (s.warp? 0).any fun y => y.halt.isSome) = true
    ∧ meets (i (.s 4)) (toSave w0) (fun s x => named s x && clusterOf s 0 == [0] && stands (asked s) 0 false
        && (virtPas (stopGroup (asked s) 0) (cuOf x.gid) 0 true (src64 s x (.s 0)) recordBytes.length).1.isOk) = true
    ∧ meets (i (.s 4)) { toSave w0 with reqs := [(0, rq (.load .own) .home)] } (fun s x => named s x && !stands (asked s) 0 false) = true
    ∧ ([i (.s 4), .ctxload p7 (.s 8) (.s 0) (.s 4)] : List Instr).all (fun j => meets j
        { toSave w0 with warps := (toSave w0).warps.map fun e => (e.1, { e.2 with noMem := true }) } fun s x => heldBack s x.w true) = true := by
  decide +kernel
/-- ContextSteps: ctxload of that record, of one whose launch has no such group, and onto a CU without room. -/
theorem witness_ctxload_reads :
    let s := toLoad { laun with savedOut := [(0, [])] }
    meets (.ctxload p7 (.s 8) (.s 0) (.s 4)) s (fun s x => (src64 s x (.s 0)).toNat % 128 == 0
      && (match readVirt s (.warp x.w) (tagOf s x.w) (isSup x.w) (src64 s x (.s 0)) 128 with
        | (.ok bs, _) => bs == recordBytes.take 128 | _ => false)) = true := by decide +kernel
theorem witness_ctxload_len : 128 ≤ rd recordBytes 56 8 ∧ rd recordBytes 56 8 < 2 ^ 24 := by decide +kernel
theorem witness_ctxload_fits :
    let s := toLoad { laun with savedOut := [(0, [])] }
    (readSaved recordBytes).any (fun r => recordFits s r && (savedRoom s r.saved 0 0).isSome && suits s r 0
      && (s.group? (32 * 0 + field (src32 s ⟨⟨393216, 15, 0x10000, 0x10008, false⟩, 24576, 15, 15, 15, true, false, 0⟩ (.s 4)) 15 11)).isNone
      && handleCu 0 == some 0) = true
    ∧ handleCu (48 * 2 ^ 20) = none ∧ field (48 * 2 ^ 20) 25 20 = 48 := by decide +kernel
theorem witness_ctxload_unfit : (readSaved recordBytes).any (fun r => !recordFits (toLoad laun) r) = true := by decide +kernel
theorem witness_ctxload_room :
    let t := toLoad { laun with savedOut := [(0, [])] }
    let s := { t with groups := (1, { placedGroup with places := List.range 32, slot := 1 }) :: t.groups }
    (readSaved recordBytes).any (fun r => recordFits s r && (savedRoom s r.saved 0 0).isNone) = true := by decide +kernel
theorem witness_contexts :
    let s (q : Option (Tag × Tag)) : State :=
      { toSave { w0 with preempt := true } with sup := { Sup.reset with switching := q }, cur := none, launches := [(0, laun), (1, { laun with tag := 2 })] }
    stands (s (some (1, 2))) 0 false = true ∧ ((s (some (1, 2))).warp? 0).any Warp.preempt = true
    ∧ switchDue (s (some (1, 2))) 1 2 = true ∧ groupsOf (s none) 1 ≠ []
    ∧ switchDue { s (some (1, 2)) with groups := [] } 1 2 = true ∧ groupsOf { s none with groups := [] } 1 = []
    ∧ (movedFlush (flushTag { s none with groups := [] } 0 1) 0 1).groups = [] := by decide +kernel

/-- TranslationSteps. -/
def cows (leaf : Nat) (ends : Option Bool) (more : List (Nat × Nat)) : State :=
  { sys leaf more with warps := [(0, { w0 with cow := some ⟨0x10000, 0x10008, 1, [⟨0x10000, BitVec.ofNat 64 leaf, ends⟩]⟩ })], cur := none }
def mig0 (src frame : Nat) : Mig := ⟨1, 0x10000, BitVec.ofNat 64 (src + 0x1F), 0, frame, 0, 0, 0, none, src, 0, some (0, 0x100), none⟩
theorem witness_translations :
    let res (s : State) : Nat := match breakPage s 1 0x10000 none (some 0x1005F) with | .done _ => 1 | .noFrame => 2 | .wait => 3
    let moved := setField (0x2001F) 53 52 3
    let m (src frame : Nat) : State := { sys moved [] with migs := [(0, mig0 src frame)] }
    let ends (s : State) (ok : Warp → List (Option Bool) → Bool) : Bool :=
      (s.warp? 0).any fun x => x.cow.any fun c => ok x (c.pages.map CowPage.ends)
    ends (cows 0x1005F none []) (fun _ e => e == [none]) = true
    ∧ res (cows 0x1005F none [(0x1000010, 1)]) = 1 ∧ res (cows 0x1005F none [(0x1000010, 0)]) = 2
    ∧ res { cows 0x1005F none [(0x1000010, 1)] with reqs := [(0, rq (.store .own) .home)] } = 3
    ∧ ends (cows 0x1001F (some true) []) (fun _ e => e == [some true]) = true
    ∧ ends (cows 0x1001F (some false) []) (fun x e => e == [some false] && x.halt.isNone) = true
    ∧ walk { sys 0x1001F [] with migs := [(0, mig0 0x20000 0x30000)] } 1 0x10000 = .leaf 0x1001F 0x204008 4
    ∧ (0x1001F : BitVec 64).toNat ≠ setField (mig0 0x20000 0x30000).oldPte.toNat 53 52 3
    ∧ walk (m 0x20000 0x30000) 1 0x10000 = .leaf (BitVec.ofNat 64 moved) 0x204008 4
    ∧ moved = setField (mig0 0x20000 0x30000).oldPte.toNat 53 52 3
    ∧ arrHeld s0 (gidOf 0) 0x100 = false
    ∧ ({ s0 with pubs := [⟨0, 1, 3, []⟩] }.pubs.map Publish.reqs) = [[]]
    ∧ (sFind? { s0 with tlbis := [(0, ⟨0, .all, [], false⟩)] }.tlbis 0).any (fun r => !r.done) = true
    ∧ (sFind? { s0 with tlbis := [(0, ⟨0, .all, [0], true⟩)] }.tlbis 0).any (fun r => r.done && r.reqs.all fun i => (sFind? s0.reqs i).isNone) = true := by
  decide +kernel
/-- EngineSteps: 4 bytes from the window to the window; an operation that ecancel stops; a page to stage. -/
def elem0 (p : EPlace) : Elem := ⟨p, [.pad 0 64], 4, none, false⟩
theorem witness_engineSteps :
    let e : EngOp := { engOne false with elems := [elem0 (.pad 0 0)] }
    (engOne true).stopping = true ∧ e.stopping = false ∧ e.ended = false ∧ arrHeld s0 0 16 = false ∧ creditGroup e (.pad 0 64) = 0 ∧ e.after = [] ∧ e.kind ≠ .csrg ∧ e.readFirst = false
    ∧ dstHeld s0 (elem0 (.pad 0 0)) 4 = false
    ∧ (match engRead s0 e (.pad 0 0) 4 .none with
       | (.data bs po, t) => (match engWrite t e (.pad 0 64) bs po .none with | (.data _ false, _) => true | _ => false)
       | _ => false) = true
    ∧ (match engRead s0 e (.far 9 0) 4 .none with | (.fail .., _) => true | _ => false) = true
    ∧ (match engRead (linked s0) e (.far 0 0) 4 .none with | (.absent, _) => true | _ => false) = true
    ∧ ({ engOne false with kind := .csrg } : EngOp).kind = .csrg
    ∧ (csrgAbsent (sys (setField 0x1001F 53 52 2) [])
        { engOne false with kind := .csrg, desc := bytesOf 0x10000 64, ns := 1 }).find? (fun v =>
          (stageable (sys (setField 0x1001F 53 52 2) []) 1 v).isSome) = some 0x10000
    ∧ ((engNext { engOne false with elems := [elem0 (.global 0x10000)] }).find? fun v =>
        (stageable (sys (setField 0x1001F 53 52 2) []) 1 v).isSome) = some 0x10000 := by decide +kernel
/-- PortGroupSteps: a group in state `n` with personality `p` and request `r` (R403). -/
def grp (n p r : Nat) : State :=
  { s0 with sup := { Sup.reset with pgctl := [(0, BitVec.ofNat 64 (2 ^ 57 * n + 2 ^ 60 * p + 2 ^ 62 * r))] } }
def grpSup (n : Nat) : State := { sup with sup := (grp n 0 0).sup }
theorem witness_portGroups :
    let w (s : State) (x : Issue) : Nat := bits (src64 s x (.s 0)) 63 62
    meets (.pgctlWrite p7 (.s 0) 0) (grpSup 2) (fun s _ => pgState s 0 == 2) = true
    ∧ meets (.pgctlWrite p7 (.s 0) 0) (grpSup 1) (fun s x => pgState s 0 == 1 && w s x == 0) = true
    ∧ ([0, 1, 2, 3, 5, 6].map fun n => pgState (grp n 0 0) 0) = [0, 1, 2, 3, 5, 6]
    ∧ ([0, 1, 2].all fun r => linksLit (grp 5 0 r) 0) = true
    ∧ linksLit { grp 5 0 2 with fab := { Fabric.reset with retired := (List.range 64).map fun k => (0, 1, k) } } 0 = false
    ∧ (hdmRanges (grp 3 2 0) 0 = [] ∧ planeBusy { grp 3 1 0 with reqs := [(0, { rq (.load .own) .ext with plane := some 0 })] } 0 = true)
    ∧ pgPers (grp 3 1 0) 0 = 1 ∧ pgPers (grp 3 2 0) 0 = 2 ∧ (3 ∉ (grp 5 1 0).host.off) ∧ (grp 1 1 0).fab.retired = []
    ∧ planeBusy (grp 3 1 0) 0 = false
    ∧ linkBand (grp 1 1 1) 0 0 = (0, 64)
    ∧ (let s := { grp 1 1 1 with sup := { Sup.reset with pgctl := [(0, BitVec.ofNat 64 (2 ^ 57 + 2 ^ 60 + 2 ^ 62 + 6 * 2 ^ 12))] } }
       linkBand s 0 7 = (7, 1) ∧ pgState s 0 = 1)
    ∧ (let s := { grp 3 2 0 with
         fab := { Fabric.reset with tabs := [(0, { PgTab.empty with hdm := [BitVec.ofNat 256 (2 ^ 43 + 2 ^ 160)] })] }
         mem := { Mem.empty with l2 := [(2 ^ 43, 7)] } }
       (hdmRanges s 0).flatMap (fun r => dirtyLines s r.1 r.2) = [2 ^ 36]) := by decide +kernel

/-- RemoteSteps: a write of package 3 in its turn, a refused one, one whose frame migrates, one that must wait, a duplicate. -/
def ual (seq pa : Nat) (rel : Bool) : UalReq :=
  { srcPkg := 3, srcDie := 0, agent := 0, seq := BitVec.ofNat 24 seq, release := rel, scope := .gal, depth := 0, pa := pa, kind := 1, rt := .unc,
    aop := 0, width := 32, bytes := [1, 2, 3, 4], mask := [true, true, true, true], swap := [], exp := 0, deltas := [], tol := 0, prior := [], tags := [] }
theorem witness_remote :
    let f (e : Nat) : State := { grp 1 1 1 with
      sup := { (grp 1 1 1).sup with frametab := 0x1000001 }
      mem := { Mem.empty with bytes := words [(0x1000010, e)] } }
    let t (s : State) (q : UalReq) : Stream := s.stream (ualKey q)
    let turn (s : State) (q : UalReq) : Bool := ualFits q && !(t s q).has q && (t s q).ahead q < 1024
    let first (s : State) (q : UalReq) : Bool := turn s q && (t s q).may q && !(t s q).frozen && (t s q).waits.isNone
    let goes (s : State) (q : UalReq) : Bool := first s q && !ualWaits s q
    let a := ual 0 0x10000 false
    let b := ual 1 0x10000 true
    let kind (k : Nat) : UalReq := { a with kind := k, width := if k < 2 then 32 else 4 }
    let owned (q : UalReq) : State := { f 0 with mem := { (f 0).mem with dir := [(q.pa / 4, ⟨some 9999, []⟩)] } }
    let held (c : Stream → Stream) : State := (f 0).setStream (ualKey a) (c (t (f 0) a))
    pgPers (f 0) 0 = 1 ∧ pgState (f 0) 0 = 1
    ∧ ([0, 1, 2, 3, 4, 8].all fun k => goes (f 0) (kind k) && !ualRefused (f 0) (kind k) && ualBlocks (kind k) == [0x200]
        && spaceOf (f 0) 0x10000 == .hbm && !frameFlag (f 0) 0x10000 30) = true
    ∧ (goes (f (2 ^ 31)) a && ualRefused (f (2 ^ 31)) a && !isCombine a) = true
    ∧ (goes (f 0) (kind 5) && ualRefused (f 0) (kind 5) && isCombine (kind 5)) = true
    ∧ ([0, 1, 2, 3, 8].all fun k => goes (f (2 ^ 30)) (kind k) && !ualRefused (f (2 ^ 30)) (kind k) && frameFlag (f (2 ^ 30)) 0x10000 30) = true
    ∧ (f (2 ^ 30)).fab.gallery.length ≤ 32
    ∧ (let big (put : Nat) : State :=
         let s := f (2 ^ 30)
         { s with
           fab := { s.fab with gallery := List.range 33, map := 0x40000 }
           mem := { s.mem with bytes := words [(0x1000010, 2 ^ 30), (0x4C000, put)] } }
       ([62, 63].map fun n => ((logPut (big n) + 2 ^ 32 - logGet (big n)) % 2 ^ 32 + (ualBlocks a).length, frameFlag (big n) a.pa 30,
          (big n).fab.gallery.length)) = [(63, true, 33), (64, true, 33)])
    ∧ (turn (f 0) b && !(t (f 0) b).may b) = true
    ∧ (let s := held fun r => { r with frozen := true }
       turn s a && (t s a).frozen && (t s a).held.head? != some a) = true
    ∧ (let s := held fun r => { r with waits := some b }
       turn s a && (t s a).waits == some b) = true
    ∧ (first (owned (kind 3)) (kind 3) && ualWaits (owned (kind 3)) (kind 3) && first (owned (kind 0)) (kind 0)
        && ualWaits (owned (kind 0)) (kind 0)) = true
    ∧ (t ((f 0).setStream (ualKey a) ((t (f 0) a).mark a [])) a).has a = true := by decide +kernel
theorem witness_fabric :
    let q := ual 0 0x10000 false
    let log (get : Nat) : State := { s0 with
      fab := { Fabric.reset with map := 0x40000, notices := 1, streams := [(ualKey q, { Stream.fresh with logged := [q] })] }
      mem := { Mem.empty with bytes := words [(0x4C000, 1 + 2 ^ 32 * get), (0x4C100, 0x10000), (0x4C108, 2 ^ 8 * ualKey q)] } }
    let tab (e c : Nat) : State :=
      { grp 1 1 1 with fab := { Fabric.reset with tabs := [(0, { PgTab.empty with relay := [(9, e)], circ := [(5, c)] })] } }
    let pool (c : CuId) : State := { s0 with mem := { Mem.empty with dir := [(2 ^ 41, ⟨some c, []⟩)] } }
    logGet (log 1) = logPut (log 1) ∧ logGet (log 0) ≠ logPut (log 0) ∧ (log 0).fab.notices ≠ 0 ∧ s0.fab.notices = 0
    ∧ (let s := log 0
       let e := BitVec.ofNat 2048 (coherentNat s (logAddr s 0) 256)
       bits e 63 0 = 0x10000 ∧ spaceOf s 0x10000 = .hbm ∧ frameFlag s 0x10000 30 = false ∧ frameFlag s 0x10000 31 = false
         ∧ (s.stream (bits e 103 72)).logged = [q] ∧ q.seq.toNat = bits e 127 104 ∧ ualBlocks q = [0x10000 / 128])
    ∧ pgActive (tab 133 (2 ^ 15 + 9)) 0 1 = true ∧ field 133 5 0 = 5 ∧ 128 ≤ 133 ∧ field (2 ^ 15 + 9) 7 0 = 9 ∧ pgActive s0 0 1 = false
    ∧ spaceOf s0 (2 ^ 43) = .pool ∧ inPool s0 (2 ^ 43) 256 = true ∧ farHolds s0 (2 ^ 43) 256 = false ∧ farHolds (pool 2048) (2 ^ 43) 256 = true
    ∧ farHolds (pool 2048) (2 ^ 43) 128 = true ∧ (farAsk (pool 2048) (2 ^ 43) 256).fab.releasing = [] := by
  decide +kernel

/-- HostSteps: queue 3 of context 1 with an entry, whose record lies at an address that is aligned or not. -/
def queueAt (va ptbase : Nat) : State :=
  { s0 with
    host := { HostIf.reset with queues := [(3, ⟨0x40000, 0x80000001, 1, 0⟩)] }
    ctxs := [(1, { Ctx.zero with ptbase := BitVec.ofNat 64 ptbase })]
    mem := { (sys 0x1001F [(0x40000, va)]).mem with poison := [] } }
theorem witness_queues :
    let s := queueAt 0x10000 0x200001
    let hq := s.hostq 3
    let adr (s : State) : Addr := BitVec.ofNat 64 (coherentNat s (hq.base.toNat + 16 * hq.head) 8)
    queueTurn s = some 3 ∧ hq.size = 16 ∧ bit hq.cfg 31 = true ∧ bit (s0.hostq 3).cfg 31 = false ∧ bits (0x80000001 : Word) 27 24 ≤ 12
    ∧ queueTurn (queueAt 0x10000 0) = some 3 ∧ bit ((queueAt 0x10000 0).ctx hq.tag).ptbase 0 = false
    ∧ adr (queueAt 0x10020 0x200001) = 0x10020 ∧ adr s = 0x10000 ∧ bit (s.ctx hq.tag).ptbase 0 = true
    ∧ (readRecord s (.unit 768) hq.tag false 0x10000).1.isOk = true := by decide +kernel
theorem witness_mailbox :
    let r := { s0 with ctxs := [(1, { Ctx.zero with recSize := 64, armed := true })], launches := [] }
    let busy (c : Nat) : State := { s0 with host := { s0.host with mbstat := 1, mbcmd := BitVec.ofNat 64 c } }
    let takes (s : State) (c : Nat) (as : List (Nat × Nat)) : Bool := mbTakes s c as && mbFits s as
    s0.host.verified = true ∧ mbBusy s0 = false ∧ s0.fab.switched = false ∧ { s0 with fab := { Fabric.reset with switched := true } }.fab.switched = true
    ∧ ([takes s0 1 [(255, 64)], takes s0 1 [(256, 64)], takes s0 2 [(100, 64)], takes s0 2 [(99, 64)], takes s0 3 [(1, 16), (4096, 64), (64, 64)],
        takes s0 3 [(1, 16), (1, 64), (64, 64)], takes s0 4 [(131072, 64)], takes s0 4 [(4096, 64)], takes s0 6 [(1, 16), (0, 64), (64, 64)],
        takes r 7 [(1, 16)], takes s0 8 [(1500, 64)], takes s0 8 [(3601, 64)], takes s0 9 [(255, 32)], takes s0 10 [(1, 16), (0x10000, 64), (5, 48)],
        takes (busy 2) 2 [(0, 64)], !mbTakes (busy 2) 1 [(0, 64)]].all id) = true
    ∧ (s0.ctx 1).armed = false ∧ (s0.ctx 1).recording = false ∧ (s0.ctx 1).recPut ≤ (s0.ctx 1).recSize ∧ (r.ctx 1).armed = true
    ∧ (dumpRun s0 0 0x10000 5).isSome = true ∧ (dumpRun s0 1 0x10000 5).isNone = true
    ∧ snapshotDue r 1 = true ∧ snapLacks r 1 = [] ∧ snapHeld r 1 = [] ∧ (takeSnapshot r 1).ok = true
    ∧ (let q := { r with ctxs := [(1, { Ctx.zero with recSize := 8, armed := true })] }
       snapshotDue q 1 = true ∧ snapLacks q 1 = [] ∧ snapHeld q 1 = [] ∧ (takeSnapshot q 1).ok = false)
    ∧ mbBusy (busy 0x10) = true ∧ (busy 0x10).host.mbcmd = 0x10 := by decide +kernel
/-- HostSteps: a context whose recording holds one page that was in flash, and the image that this makes. -/
def image1 : State :=
  { s0 with
    ctxs := [(1, { Ctx.zero with recBase := 0x100000, recSize := 0x1000, recPut := 64, recording := true })]
    mem := { Mem.empty with bytes := words [(0x100000, 3 + 2 ^ 8 * 4), (0x100008, 0x10000), (0x100010, setField 0x1001F 53 52 3)] } }
theorem witness_recording :
    let c := image1.ctx 1
    (c.armed = false ∧ c.recording = true ∧ c.recPut ≤ c.recSize)
    ∧ ((readItems image1 c.recBase (c.recSize / 32) 0).foldl (exportItem c.recBase) ⟨image1, c.recPut, c.recSize, true⟩).ok = true := by
  decide +kernel
theorem witness_rerun :
    let x := readImport image1 0x100000 0x1000 0x300000
    x.fits image1 2 0x300000 = true ∧ (x.context image1 2 0x300000).isSome = true
    ∧ bit (({ s0 with ctxs := [(2, { Ctx.zero with ptbase := 1 })] }).ctx 2).ptbase 0 = true := by decide +kernel
/-- HostSteps, ServiceSteps: an image is accepted or it is not; which, the keys decide that Config leaves open. -/
theorem witness_images (k : Nat) (im : Firmware) : imageOk k im = true ∨ imageOk k im = false := by
  cases imageOk k im <;> simp
theorem witness_service :
    let s := { s0 with
      mem := { Mem.empty with dir := [(0x4000, ⟨some 0, []⟩)] }
      cus := [(0, { CU.zero with l1 := [(0x4000, ⟨.own, 7, 15, 0, false, false, 1, 0⟩)] })] }
    (s0.dir 0x4000).owner = none ∧ (s.dir 0x4000).owner = some 0 ∧ (s.l1 0 0x4000).isSome = true ∧ (0 ∉ s0.host.dead)
    ∧ { s0 with ctxs := [] }.ctxs = [] ∧ ftOn s0 = false ∧ s0.host.retiredFrames = [] ∧ mbBusy s0 = false
    ∧ mbBusy { s0 with host := { s0.host with mbstat := 1 } } = true ∧ s0.host.verified = true ∧ bit (s0.hostq 0).cfg 31 = false := by decide +kernel

/-- DebugSteps and DebugPrints: a session of context 1 with warp 0 stopped. -/
def dbg0 (d : Dbg → Dbg) : State :=
  { sys 0x1001F [] with
    warps := [(0, { w0 with stopped := true })], cur := none, groups := [(0, placedGroup)]
    dbg := d { Dbg.reset with tag := some 1, selected := some 0, images := [(1, image0, [])] } }
theorem witness_debug :
    let s := dbg0 id
    let going := { s with warps := [(0, w0)], dbg := { s.dbg with breaks := [(1, 0x10000, 0, 1)] } }
    let quiet := { s with launches := [] }
    atPrompt s = true
    ∧ (going.warp? 0).any (fun x => !x.stopped && atBreak going 0 x) = true ∧ going.dbg.stepping = []
    ∧ (let u := dbg0 fun d => { d with stepping := [(0, 0)] }
       (u.warp? 0).any (fun x => destsWritten u 0 x && x.hold != .idle) = true)
    ∧ bit (s.ctx 1).ptbase 0 = true ∧ hasLaunch quiet 1 = false ∧ imageFits image0 = true ∧ (argWords [(1, false), (2, true)]).length ≤ 8
    ∧ dbgImage s = some image0 ∧ (dbgQueue s 1).map Prod.fst = some 0
    ∧ 0 ∈ stoppedOn s none ∧ s.dbg.launched = none ∧ s.dbg.awaits = none
    ∧ ({ s with fc := 1400000, dbg := { s.dbg with stop := true } }.dbg.lastEvt + 1400000 ≤ 1400000) ∧ sFind? s.launches 7 = none ∧ s.dbg.trigHolds = [] ∧ s.dbg.traces = []
    ∧ (trigAt { (trigs false 0 reg0) with dbg := s.dbg } 1 0x10000).any (fun e => !e.2.1.spilled) = true
    ∧ (match walk (sys (setField 0x1001F 53 52 2) []) 1 0x10000 with | .leaf e _ _ => decide (2 ≤ pteTier e) | _ => false) = true
    ∧ (let far : State := sys (0x1F + 2 ^ 44 * 9) []
       let dirty : State := { far with cus := [(0, { CU.zero with l1 := [(9 * 2 ^ 42, ⟨.own, 7, 15, 0, false, false, 1, 0⟩)] })] }
       (match walk far 1 0x10000 with | .leaf e _ _ => decide (pteTier e < 2) | _ => false) = true
         ∧ (match walk far 1 0x10000 with
            | .leaf e _ lv => leafPa far e lv 0x10000 false / 65536 * 65536 == 9 * 2 ^ 44 && spaceOf far (9 * 2 ^ 44) == .far | _ => false) = true
         ∧ farDirtyIn far (9 * 2 ^ 44) 65536 = false ∧ farDirtyIn dirty (9 * 2 ^ 44) 65536 = true)
    ∧ (let u := { trigs false 0 reg0 with dbg := s.dbg, groups := [(0, { placedGroup with launch := 1, ty := small })], launches := [(1, { laun with w := 2 })] }
       (u.groups.find? fun f => cuOf f.1 == 0 && f.2.tag == 1 && !f.2.retired && !isCurator 0).isSome = true
         ∧ (movedRooms u ((clusterOf u 0).filterMap fun h => (u.group? h).map fun y => snapshot u h y) 0 1).isSome = true) := by decide +kernel
theorem witness_prints_far :
    let far : State := { sys (0x1F + 2 ^ 44 * 9) [] with dbg := (dbg0 id).dbg }
    atPrompt far = true ∧ farWords far 1 [0x10000] = [9 * 2 ^ 44] ∧ askedBytes far 34 (9 * 2 ^ 44) = none ∧ farWords (dbg0 id) 1 [0x10000] = [] := by
  decide +kernel
theorem witness_prints :
    let s := { dbg0 id with accCopy := [⟨0x10000, 65536, 0, 10, 0⟩], regions := [(4, reg0)] }
    (s.warp? 0).any Warp.stopped = true ∧ s.dbg.tag = some 1 ∧ s.dbg.selected = some 0
    ∧ physOf s 1 0x10000 = some 0x10000 ∧ (frameIdx s 0x10000).isSome = true
    ∧ (accEnt s 0x10000).isSome = true ∧ (s.holder 0x200).list = [] ∧ s.trigs = [] ∧ (sFind? s.regions 4).isSome = true := by
  decide +kernel

/-! ### The step, the checks before the effect, frames, memory, encoding -/

/-- The machine after reset with the bytes of an instruction where it fetches. -/
def first (n w : Nat) : State := State.reset.withFetchWord n w
/-- StepRunsDecoded: the first step of that machine issues warp 0, and its bytes are those of iadd v4, v5, v6; a block's end, an
encoding that is none, and a page that is not mapped; an event that the schedule names. -/
theorem witness_step :
    let s := first 64 0x0000180280401C80
    let u : State := { passTime s with agenda := [] }
    let at' (a : Addr) : State := { u with warps := u.warps.map fun e => (e.1, { e.2 with lanes := e.2.lanes.map fun l => { l with vpc := a } }) }
    let bytes (f : Fetched × State) (ok : List Byte → Bool) : Bool := match f.1 with | .bytes bs => ok bs | _ => false
    (passTime s).agenda = [.issue 0] ∧ u.host.verified = true ∧ works u (.event .pendRunChange) = true
    ∧ (let r := passTime { s with host := { s.host with verified := false } }
       r.host.verified = false ∧ inRecovery r (.issue 0) = false)
    ∧ (u.warp? 0).any (fun x => canIssue u 0 x && !x.exitNow && x.spin < 256 && x.exc == 0 && x.asyncs.isEmpty && !x.rep.act
        && x.hold == .none && firstOfPort u 0 x && !atBreak (toEnd u 0) 0 x && x.issueAddr == some 0x10000) = true ∧ u.dbg.passing = []
    ∧ bytes (fetchAt u 0 0x10000) (fun bs => !straddles 0x10000 bs && (decode bs).isOk) = true
    ∧ bytes (fetchAt (at' 0x1001C) 0 0x1001C) (fun bs => straddles 0x1001C bs) = true
    ∧ bytes (fetchAt { passTime (first 64 0x83) with agenda := [] } 0 0x10000) (fun bs => !straddles 0x10000 bs && !(decode bs).isOk) = true
    ∧ (match (fetchAt (at' 0x30000) 0 0x30000).1 with | .fault _ => true | _ => false) = true
    ∧ (passTime { State.reset with agenda := [.event .pendRunChange] }).agenda = [.event .pendRunChange]
    ∧ Instr.isIsa .pendRunChange = false := by decide +kernel
/-- IssueChecks: an illegal operand, a supervisor instruction, a channel that the group has not, no allowed lane, of a cross-lane
instruction too, with a lane parked and without. -/
theorem witness_checks :
    let g : Group := { placedGroup with ty := small }
    (Instr.add64 h7 .wrap (.v 5) (.v 2) (.v 4)).wellFormed = false
    ∧ limitsOk (.tlbsync p7) placedGroup 4 = true ∧ needsSup (.tlbsync p7) = true ∧ isSup 0 = false
    ∧ (Instr.chset h7 (.ch 1 false) (.s 2) (.s 3)).wellFormed = true
    ∧ (let i := Instr.iadd h7 .wrap (.v 3) (.ch 1 false) (.v 1)
       i.wellFormed = true ∧ limitsOk i placedGroup 4 = true ∧ chanMisuse i placedGroup (shape i).scalar 4 = true)
    ∧ allowedIn (.iadd ⟨⟨7, true⟩, none⟩ .wrap (.v 3) (.v 1) (.v 1)) w0 ⟨0, 15, 0x10000, 0x10008, false⟩ = 0
    ∧ (let i := Instr.vote ⟨⟨7, true⟩, none⟩ .any (.s 4) (.p 1)
       i.wellFormed = true ∧ limitsOk i placedGroup 4 = true ∧ isCross i = true ∧ allowedIn i w0 ⟨0, 15, 0x10000, 0x10008, false⟩ = 0
         ∧ parkedBelow w0 0x10000 = 0
         ∧ parkedBelow { w0 with lanes := { Lane.start 0x10000 with st := .ld } :: w0.lanes.tail } 0x10000 = 1)
    ∧ g.ty.nreg = 0 ∧ (s0.group? (gidOf 0)).isSome = true := by decide +kernel
/-- RegisterFrame. -/
theorem witness_frame :
    let i := Instr.iadd h7 .wrap (.v 3) (.v 1) (.v 1)
    laneWise i = true ∧ goesOn s0 i = true ∧ chanFields i = [] ∧ writesReg i 3 = true ∧ writesReg i 4 = false ∧ flagsOf i = 0
    ∧ (match exec i s0 with | .next _ => true | _ => false) = true := by decide +kernel
/-- StoreFrame: sts of v1 to offset 16; a commit of one byte of HBM. -/
theorem witness_store :
    (match exec (.sts p7 (.s 2) (.v 1) mx) s0 with | .next _ => true | _ => false) = true ∧ meets (.sts p7 (.s 2) (.v 1) mx) s0 inPad = true
    ∧ frameMap s0 0x10000 = none ∧ s0.dbg.traces = [] ∧ spaceOf s0 0x10000 = .hbm
    ∧ homeByte (commit s0 [(0x10000, 7)] none Writer.plain) 0x10000 = 7 := by decide +kernel
/-- StepKeepsMemory: the machine after reset. -/
theorem witness_memory : State.reset.memWf ∧ s0.memWf := ⟨rfl, rfl⟩
/-- StoreFrame: a byte beside the bytes written. -/
theorem witness_beside : spares [(0x10000, 1)] 0x10001 := by simp [spares]
/-- DecodeEncode: an instruction of every length. -/
theorem witness_encode :
    ([.iadd h7 .wrap (.v 4) (.v 5) (.v 6), .iadd ⟨⟨2, true⟩, some 100⟩ .wrap (.s 4) (.s 5) .imm,
      .ld p7 false (.v 6) (.s 0) { mx with off := 0xFFFFFFFF }] : List Instr).all (fun i =>
        i.isIsa && i.wellFormed && decode (encode i ++ [0xAA]) == .ok (i, (encode i).length)) = true := by decide +kernel

end Sys2Proof.Tests
end

section
/-! SUPPORT. The integer and logic forms that act lane by lane: how they complete, and what their words are. -/

namespace Sys2Proof.Machine

open Sys2Proof Claims

/-! ### Forms that complete lane by lane -/

/-- A form that the model maps over its lanes completes with the function that it maps. -/
theorem eachLane_of_mapLanes {i : Instr} {f g : DWord → DWord → DWord → DWord × Word}
    (hexec : ∀ s, exec i s = mapLanes i s g) (hfg : ∀ a b c, g a b c = f a b c) : EachLane i f := by
  intro s x hx
  obtain rfl : g = f := by funext a b c; exact hfg a b c
  rw [hexec, mapLanes_of_issued hx]

theorem loWord_eq_setWidth (x : DWord) : loWord x = x.setWidth 32 := BitVec.ofNat_toNat 32 x

/-- A 32-bit form without flags completes with its word function. -/
theorem eachLane_map32 {i : Instr} {f : Word → Word → Word → Word} (hexec : ∀ s, exec i s = map32 i s f) :
    EachLane i (word3 f) :=
  eachLane_of_mapLanes hexec fun a b c => by
    simp only [loWord_eq_setWidth]
    rfl

/-- The same where a statement writes the word function in another way. -/
theorem eachLane_of_map32 {i : Instr} {f g : Word → Word → Word → Word}
    (hexec : ∀ s, exec i s = map32 i s g) (hfg : ∀ x y z, g x y z = f x y z) : EachLane i (word3 f) := by
  obtain rfl : g = f := by funext x y z; exact hfg x y z
  exact eachLane_map32 hexec

/-- A 32-bit form that delivers 1 or 0 completes with its condition. -/
theorem eachLane_bit_of_map32 {i : Instr} {p q : Word → Word → Word → Bool}
    (hexec : ∀ s, exec i s = map32 i s fun x y z => if q x y z then 1 else 0)
    (hpq : ∀ x y z, q x y z = p x y z) : EachLane i (bit3 p) :=
  eachLane_of_mapLanes hexec fun a b c => by
    simp only [loWord_eq_setWidth, hpq, bit3, pure32]
    split <;> rfl

/-! ### Sources read as integers -/

@[simp] theorem readAs_true {m : Nat} (x : BitVec m) : readAs true x = x.toInt := rfl
@[simp] theorem readAs_false {m : Nat} (x : BitVec m) : readAs false x = (x.toNat : Int) := rfl

@[simp] theorem ofInt_readAs {m : Nat} (sg : Bool) (x : BitVec m) : BitVec.ofInt m (readAs sg x) = x := by
  cases sg
  · simp
  · exact BitVec.ofInt_toInt

theorem readAs_inj {m : Nat} {sg : Bool} {x y : BitVec m} : readAs sg x = readAs sg y ↔ x = y :=
  ⟨fun h => by rw [← ofInt_readAs sg x, h, ofInt_readAs], fun h => h ▸ rfl⟩

theorem decide_readAs_lt {m : Nat} (sg : Bool) (x y : BitVec m) :
    decide (readAs sg x < readAs sg y) = if sg then x.slt y else x.ult y := by
  cases sg
  · simp [BitVec.ult]
  · rfl

theorem decide_readAs_le {m : Nat} (sg : Bool) (x y : BitVec m) :
    decide (readAs sg x ≤ readAs sg y) = if sg then x.sle y else x.ule y := by
  cases sg
  · simp [BitVec.ule]
  · rfl

/-- A word read as an integer, in 64 bits: extended by its sign or by zeros. -/
theorem ofInt64_readAs (sg : Bool) (x : Word) :
    BitVec.ofInt 64 (readAs sg x) = if sg then x.signExtend 64 else x.setWidth 64 := by
  cases sg
  · simp [BitVec.ofNat_toNat]
  · rfl

theorem ofInt_sub {m : Nat} (v w : Int) : BitVec.ofInt m (v - w) = BitVec.ofInt m v - BitVec.ofInt m w := by
  rw [Int.sub_eq_add_neg, BitVec.ofInt_add, BitVec.ofInt_neg, BitVec.sub_eq_add_neg]

/-! ### Results under the modes (R83, R92) -/

theorem deliver_sats32 (v : Int) : r32f (deliver .sats v 32) = clampS32 v := by
  simp only [deliver, satS, clampS32, r32f, r32]
  norm_num
  split_ifs <;> rfl

theorem deliver_satn32 (v : Int) : r32f (deliver .satn v 32) = clampN32 v := by
  simp only [deliver, satU, clampN32, r32f, r32]
  norm_num
  split_ifs <;> rfl

theorem deliver_sats64 (v : Int) : deliver .sats v 64 = clampS64 v := by
  simp only [deliver, satS, clampS64]
  norm_num
  split_ifs <;> rfl

theorem deliver_satn64 (v : Int) : deliver .satn v 64 = clampN64 v := by
  simp only [deliver, satU, clampN64]
  norm_num
  split_ifs <;> rfl

/-- A 32-bit form under wrap is a function of words: what its integer function is modulo 2^32. -/
theorem eachLane_arith_wrap {i : Instr} {sgn : Bool} {f : Int → Int → Int → Int} {g : Word → Word → Word → Word}
    (hexec : ∀ s, exec i s = mapLanes i s (arith .wrap sgn f))
    (hfg : ∀ x y z : Word, BitVec.ofInt 32 (f (readAs sgn x) (readAs sgn y) (readAs sgn z)) = g x y z) :
    EachLane i (word3 g) :=
  eachLane_of_mapLanes hexec fun a b c => by
    simp only [arith, deliver, r32f, r32, trunc, loWord_eq_setWidth, hfg]
    rfl

/-- A 32-bit form under .sats clamps its function of the signed sources. -/
theorem eachLane_arith_sats {i : Instr} {f : Int → Int → Int → Int}
    (hexec : ∀ s, exec i s = mapLanes i s (arith .sats true f)) :
    EachLane i fun a b c => clampS32 (f (a.setWidth 32).toInt (b.setWidth 32).toInt (c.setWidth 32).toInt) :=
  eachLane_of_mapLanes hexec fun a b c => by
    simp only [arith, deliver_sats32, loWord_eq_setWidth, readAs_true]

/-- A 32-bit form under .satn clamps its function of the unsigned sources. -/
theorem eachLane_arith_satn {i : Instr} {f : Int → Int → Int → Int}
    (hexec : ∀ s, exec i s = mapLanes i s (arith .satn false f)) :
    EachLane i fun a b c => clampN32 (f (a.setWidth 32).toNat (b.setWidth 32).toNat (c.setWidth 32).toNat) :=
  eachLane_of_mapLanes hexec fun a b c => by
    simp only [arith, deliver_satn32, loWord_eq_setWidth, readAs_false]

/-- A 64-bit form under wrap is a function of pairs: what its integer function is modulo 2^64. -/
theorem eachLane_arith64_wrap {i : Instr} {f : Int → Int → Int} {g : DWord → DWord → DWord}
    (hexec : ∀ s, exec i s = mapLanes i s (arith64 .wrap f))
    (hfg : ∀ x y : DWord, BitVec.ofInt 64 (f (readAs false x) (readAs false y)) = g x y) :
    EachLane i fun a b _ => (g a b, 0) :=
  eachLane_of_mapLanes hexec fun a b _ => by rw [← hfg]; rfl

theorem eachLane_arith64_sats {i : Instr} {f : Int → Int → Int}
    (hexec : ∀ s, exec i s = mapLanes i s (arith64 .sats f)) :
    EachLane i fun a b _ => clampS64 (f a.toInt b.toInt) :=
  eachLane_of_mapLanes hexec fun _ _ _ => deliver_sats64 _

theorem eachLane_arith64_satn {i : Instr} {f : Int → Int → Int}
    (hexec : ∀ s, exec i s = mapLanes i s (arith64 .satn f)) :
    EachLane i fun a b _ => clampN64 (f a.toNat b.toNat) :=
  eachLane_of_mapLanes hexec fun _ _ _ => deliver_satn64 _

/-! ### Absolute value, products at double width, minimum and maximum (R83, R84, R92) -/

theorem natAbs_eq_ite (v : Int) : (if v < 0 then -v else v) = (v.natAbs : Int) := by
  split <;> omega

theorem ofInt_abs_toInt (x : Word) :
    BitVec.ofInt 32 (if x.toInt < 0 then -x.toInt else x.toInt) = if x.slt 0 then -x else x := by
  have hneg : x.slt 0 = decide (x.toInt < 0) := by simp [BitVec.slt]
  rw [hneg, apply_ite (BitVec.ofInt 32), BitVec.ofInt_neg, BitVec.ofInt_toInt]
  simp

/-- Bits 63 to 32 of an exact product, rounded toward minus infinity as an integer (R84). -/
theorem ofInt_ediv_eq_extractLsb' (v : Int) :
    BitVec.ofInt 32 (v / 2 ^ 32) = (BitVec.ofInt 64 v).extractLsb' 32 32 := by
  apply BitVec.eq_of_toNat_eq
  rw [BitVec.extractLsb'_toNat, BitVec.toNat_ofInt, BitVec.toNat_ofInt, Nat.shiftRight_eq_div_pow]
  omega

theorem ofInt64_mul_readAs (sg : Bool) (x y : Word) : BitVec.ofInt 64 (readAs sg x * readAs sg y)
    = (if sg then x.signExtend 64 else x.setWidth 64) * (if sg then y.signExtend 64 else y.setWidth 64) := by
  rw [BitVec.ofInt_mul, ofInt64_readAs, ofInt64_readAs]

theorem eachLane_imulh (h : Hdr) (sg : Bool) (d a b : Operand) : EachLane (.imulh h sg d a b)
    (word3 fun x y _ =>
      ((if sg then x.signExtend 64 else x.setWidth 64)
        * (if sg then y.signExtend 64 else y.setWidth 64)).extractLsb' 32 32) :=
  eachLane_of_map32 (g := fun x y _ => trunc (readAs sg x * readAs sg y / 2 ^ 32) 32) (fun _ => rfl)
    fun x y _ => by
      rw [← ofInt64_mul_readAs, ← ofInt_ediv_eq_extractLsb']
      rfl

theorem ite_readAs_lt {m : Nat} (sg : Bool) (x y a b : BitVec m) :
    (if readAs sg y < readAs sg x then a else b) = if (if sg then x.sle y else x.ule y) then b else a := by
  rw [← decide_readAs_le]
  simp only [decide_eq_true_eq, ← not_lt, ite_not]

theorem eachLane_imin (h : Hdr) (sg : Bool) (d a b : Operand) : EachLane (.imin h sg d a b)
    (word3 fun x y _ => if (if sg then x.sle y else x.ule y) then x else y) :=
  eachLane_of_map32 (g := fun x y _ => if readAs sg y < readAs sg x then y else x) (fun _ => rfl)
    fun x y _ => ite_readAs_lt sg x y y x

theorem eachLane_imax (h : Hdr) (sg : Bool) (d a b : Operand) : EachLane (.imax h sg d a b)
    (word3 fun x y _ => if (if sg then y.sle x else y.ule x) then x else y) :=
  eachLane_of_map32 (g := fun x y _ => if readAs sg x < readAs sg y then y else x) (fun _ => rfl)
    fun x y _ => ite_readAs_lt sg y x y x

/-- A product of two words, exact in 64 bits. -/
theorem eachLane_mul64_wide (i : Instr) (sg : Bool)
    (hexec : ∀ s, exec i s = mapLanes i s fun x y _ => (trunc (readAs sg (loWord x) * readAs sg (loWord y)) 64, 0)) :
    EachLane i fun x y _ =>
      ((if sg then (x.setWidth 32).signExtend 64 else (x.setWidth 32).setWidth 64)
        * (if sg then (y.setWidth 32).signExtend 64 else (y.setWidth 32).setWidth 64), 0) :=
  eachLane_of_mapLanes hexec fun x y _ => by
    rw [← ofInt64_mul_readAs, ← loWord_eq_setWidth, ← loWord_eq_setWidth]
    rfl

/-- Settles O1: each form delivers an integer function of its sources, under wrap the same function of words, under .sats and
.satn its clamped value. -/
theorem integerArithmetic : Obligations.IntegerArithmetic := by
  refine ⟨fun h d a b c => ⟨?_, ?_, ?_, ?_, ?_, ?_, ?_, ?_, ?_, ?_, ?_, ?_, ?_, ?_⟩,
    fun h d a b => ⟨?_, ?_, ?_, ?_, ?_, ?_⟩, fun h d a b => ⟨?_, ?_, ?_, ?_, ?_, ?_, ?_, ?_, ?_, ?_, ?_⟩⟩
  -- iadd
  · exact eachLane_arith_wrap (f := fun x y _ => x + y) (fun _ => rfl) (by simp [BitVec.ofInt_add])
  · exact eachLane_arith_sats (f := fun x y _ => x + y) fun _ => rfl
  · exact eachLane_arith_satn (f := fun x y _ => x + y) fun _ => rfl
  -- isub
  · exact eachLane_arith_wrap (f := fun x y _ => x - y) (fun _ => rfl) (by simp [ofInt_sub])
  · exact eachLane_arith_sats (f := fun x y _ => x - y) fun _ => rfl
  · exact eachLane_arith_satn (f := fun x y _ => x - y) fun _ => rfl
  -- imul
  · exact eachLane_arith_wrap (f := fun x y _ => x * y) (fun _ => rfl) (by simp [BitVec.ofInt_mul])
  · exact eachLane_arith_sats (f := fun x y _ => x * y) fun _ => rfl
  · exact eachLane_arith_satn (f := fun x y _ => x * y) fun _ => rfl
  -- imad
  · exact eachLane_arith_wrap (f := fun x y z => x * y + z) (fun _ => rfl)
      (by simp [BitVec.ofInt_add, BitVec.ofInt_mul])
  · exact eachLane_arith_sats (f := fun x y z => x * y + z) fun _ => rfl
  · exact eachLane_arith_satn (f := fun x y z => x * y + z) fun _ => rfl
  -- iabs
  · exact eachLane_arith_wrap (sgn := true) (f := fun x _ _ => if x < 0 then -x else x) (fun _ => rfl)
      fun x _ _ => ofInt_abs_toInt x
  · simpa only [natAbs_eq_ite] using
      eachLane_arith_sats (i := .iabs h .sats d a) (f := fun x _ _ => if x < 0 then -x else x) fun _ => rfl
  -- imulh, imin and imax
  · exact eachLane_imulh h true d a b
  · exact eachLane_imulh h false d a b
  · exact eachLane_imin h true d a b
  · exact eachLane_imin h false d a b
  · exact eachLane_imax h true d a b
  · exact eachLane_imax h false d a b
  -- add64
  · exact eachLane_arith64_wrap (f := fun x y => x + y) (fun _ => rfl) (by simp [BitVec.ofInt_add])
  · exact eachLane_arith64_sats (f := fun x y => x + y) fun _ => rfl
  · exact eachLane_arith64_satn (f := fun x y => x + y) fun _ => rfl
  -- sub64
  · exact eachLane_arith64_wrap (f := fun x y => x - y) (fun _ => rfl) (by simp [ofInt_sub])
  · exact eachLane_arith64_sats (f := fun x y => x - y) fun _ => rfl
  · exact eachLane_arith64_satn (f := fun x y => x - y) fun _ => rfl
  -- mul64
  · exact eachLane_arith64_wrap (f := fun x y => x * y) (fun _ => rfl) (by simp [BitVec.ofInt_mul])
  · exact eachLane_arith64_sats (f := fun x y => x * y) fun _ => rfl
  · exact eachLane_arith64_satn (f := fun x y => x * y) fun _ => rfl
  · exact eachLane_mul64_wide _ false fun _ => rfl
  · exact eachLane_mul64_wide _ true fun _ => rfl

/-! ### Shifts, rotation and counts (R85) -/

theorem shlW_eq (x y : Word) : shlW x y = x <<< y.toNat := by
  unfold shlW
  split
  · rfl
  · exact (BitVec.shiftLeft_eq_zero (by omega)).symm

theorem shrW_eq (x y : Word) : shrW x y = x >>> y.toNat := by
  unfold shrW
  split
  · rfl
  · exact (BitVec.ushiftRight_eq_zero (by omega)).symm

/-- From 32 on every bit is the sign. -/
theorem sarW_eq (x y : Word) : sarW x y = x.sshiftRight y.toNat := by
  ext i hi
  rw [sarW, BitVec.getElem_sshiftRight, BitVec.getElem_sshiftRight]
  rcases Nat.le_total y.toNat 32 with h | h
  · simp only [Nat.min_eq_left h]
  · rw [dif_neg (by omega), dif_neg (by omega)]

theorem rotW_eq (x y : Word) : rotW x y = x <<< (y.toNat % 32) ||| x >>> (32 - y.toNat % 32) := by
  rw [rotW, BitVec.rotateLeft_def, Nat.mod_mod]

theorem length_filter_eq_sum_toNat {α : Type} (p : α → Bool) (l : List α) :
    (l.filter p).length = (l.map fun a => (p a).toNat).sum := by
  induction l with
  | nil => rfl
  | cons a l ih => cases h : p a <;> simp [h, ih, Nat.add_comm]

theorem popcW_eq (x : Word) : popcW x = BitVec.ofNat 32 ((List.range 32).map fun i => (x.getLsbD i).toNat).sum := by
  rw [popcW, length_filter_eq_sum_toNat]
  rfl

theorem length_takeWhile_range {p : Nat → Bool} {k n : Nat} (hk : k < n) (hp : ∀ i < k, p i = true) (hpk : p k = false) :
    ((List.range n).takeWhile p).length = k := by
  obtain ⟨m, rfl⟩ := Nat.exists_eq_add_of_lt hk
  rw [Nat.add_assoc, List.range_add, List.takeWhile_append_of_pos (by simpa using hp), List.range_succ_eq_map]
  simp [hpk]

/-- The highest 1 bit of a word other than 0 is the bit of its logarithm. -/
theorem clzW_eq (x : Word) : clzW x = if x = 0 then 32 else BitVec.ofNat 32 (31 - x.toNat.log2) := by
  split
  case isTrue h => subst h; decide
  case isFalse h =>
    have hx : x.toNat ≠ 0 := fun e => h (BitVec.eq_of_toNat_eq e)
    have hlt : x.toNat.log2 < 32 := (Nat.log2_lt hx).mpr x.isLt
    rw [clzW, length_takeWhile_range (k := 31 - x.toNat.log2) (by omega)]
    · intro i hi
      have : x.toNat < 2 ^ (31 - i) := (Nat.log2_lt hx).mp (by omega)
      simp [bit, BitVec.getLsbD, Nat.testBit_lt_two_pow this]
    · have : 31 - (31 - x.toNat.log2) = x.toNat.log2 := by omega
      simp [this, bit, BitVec.getLsbD, Nat.testBit_log2 hx]

/-- Settles O2: the model's shifts, rotation and counts are those of the statement, word by word. -/
theorem logicShiftsCounts : Obligations.LogicShiftsCounts := by
  refine fun h d a b => ⟨?_, ?_, ?_, ?_, ?_, ?_, ?_, ?_, ?_, ?_, ?_⟩
  -- and, or, xor and andn
  · exact eachLane_map32 fun _ => rfl
  · exact eachLane_map32 fun _ => rfl
  · exact eachLane_map32 fun _ => rfl
  · exact eachLane_map32 fun _ => rfl
  -- shl, shr, sar and rot
  · exact eachLane_of_map32 (g := fun x y _ => shlW x y) (fun _ => rfl) fun x y _ => shlW_eq x y
  · exact eachLane_of_map32 (g := fun x y _ => shrW x y) (fun _ => rfl) fun x y _ => shrW_eq x y
  · exact eachLane_of_map32 (g := fun x y _ => sarW x y) (fun _ => rfl) fun x y _ => sarW_eq x y
  · exact eachLane_of_map32 (g := fun x y _ => rotW x y) (fun _ => rfl) fun x y _ => rotW_eq x y
  -- popc, clz and brev
  · exact eachLane_of_map32 (g := fun x _ _ => popcW x) (fun _ => rfl) fun x _ _ => popcW_eq x
  · exact eachLane_of_map32 (g := fun x _ _ => clzW x) (fun _ => rfl) fun x _ _ => clzW_eq x
  · exact eachLane_map32 fun _ => rfl

/-! ### Bit fields (R86) -/

theorem fieldSpec_eq (b : Word) : fieldSpec b = (specPos b, specWidth b) := by
  simp [fieldSpec, specPos, specWidth, bits, field]

/-- A field ends at bit 31 at the latest. -/
theorem specPos_add_specWidth_le {b : Word} (h : specWidth b ≠ 0) : specPos b + specWidth b ≤ 32 := by
  unfold specWidth at h ⊢
  omega

theorem trunc_sExt_eq {m : Nat} (x : BitVec m) (w n : Nat) : trunc (sExt x w) n = (x.setWidth w).signExtend n := by
  rw [← BitVec.ofNat_toNat]
  rfl

theorem trunc_zExt_eq {m : Nat} (x : BitVec m) (w n : Nat) : trunc (zExt x w) n = (x.setWidth w).setWidth n := by
  rw [trunc, zExt, BitVec.ofInt_natCast, ← BitVec.toNat_setWidth, BitVec.ofNat_toNat]

/-- A field moved up so that it ends at bit 31. -/
theorem getLsbD_shiftLeft_field (a : Word) {p w : Nat} (h : p + w ≤ 32) (i : Nat) :
    (a <<< (32 - w - p)).getLsbD (32 - w + i) = (decide (i < w) && a.getLsbD (p + i)) := by
  have hpos : 32 - w + i - (32 - w - p) = p + i := by omega
  have hin : 32 - w + i < 32 ↔ i < w := by omega
  have hup : ¬32 - w + i < 32 - w - p := by omega
  simp [BitVec.getLsbD_shiftLeft, hpos, hin, hup]

/-- Sign copies of a field: its bits moved to the top and back. -/
theorem trunc_sExt_ushiftRight (a : Word) {p w : Nat} (hw : w ≠ 0) (h : p + w ≤ 32) :
    trunc (sExt (a >>> p) w) 32 = (a <<< (32 - w - p)).sshiftRight (32 - w) := by
  have hmsb : ((a >>> p).setWidth w).msb = (a <<< (32 - w - p)).msb := by
    have htop : 32 - 1 = 32 - w + (w - 1) := by omega
    rw [BitVec.msb_eq_getLsbD_last, BitVec.msb_eq_getLsbD_last, htop, getLsbD_shiftLeft_field a h]
    simp
  rw [trunc_sExt_eq]
  refine BitVec.eq_of_getLsbD_eq fun i hi => ?_
  have hin : 32 - w + i < 32 ↔ i < w := by omega
  rw [BitVec.getLsbD_signExtend, BitVec.getLsbD_sshiftRight, getLsbD_shiftLeft_field a h, hmsb]
  by_cases hiw : i < w <;> simp [hin, hiw, hi]

theorem trunc_zExt_ushiftRight (a : Word) {p w : Nat} (h : p + w ≤ 32) :
    trunc (zExt (a >>> p) w) 32 = (a <<< (32 - w - p)) >>> (32 - w) := by
  rw [trunc_zExt_eq]
  refine BitVec.eq_of_getLsbD_eq fun i hi => ?_
  rw [BitVec.getLsbD_ushiftRight, getLsbD_shiftLeft_field a h]
  simp [hi]

theorem bfeW_eq (sg : Bool) (a b : Word) : bfeW sg a b = bfeSpec sg a b := by
  simp only [bfeW, fieldSpec_eq, bfeSpec, beq_iff_eq]
  split
  case isTrue => rfl
  case isFalse hw =>
    have hle := specPos_add_specWidth_le hw
    rw [trunc_sExt_ushiftRight a hw hle, trunc_zExt_ushiftRight a hle]

theorem ofNat_two_pow (m k : Nat) : BitVec.ofNat m (2 ^ k) = BitVec.twoPow m k :=
  BitVec.eq_of_toNat_eq (by rw [BitVec.toNat_ofNat, BitVec.toNat_twoPow])

theorem ofNat_mul_two_pow (n p : Nat) : BitVec.ofNat 32 (n * 2 ^ p) = BitVec.ofNat 32 n <<< p := by
  rw [BitVec.shiftLeft_eq_mul_twoPow, BitVec.ofNat_mul, ofNat_two_pow]

theorem bfiW_eq (a b c : Word) : bfiW a b c = bfiSpec a b c := by
  simp only [bfiW, fieldSpec_eq, bfiSpec, beq_iff_eq, ofNat_mul_two_pow]
  split
  case isTrue hw =>
    simp only [hw, Nat.pow_zero, Nat.sub_self, BitVec.zero_shiftLeft, BitVec.not_zero, BitVec.and_allOnes,
      BitVec.and_zero, BitVec.or_zero]
  case isFalse => rfl

/-! ### Comparison, extension and addresses (R88, R90, R91) -/

theorem icmpHolds_readAs (sg : Bool) (cc : ICond) (x y : Word) :
    icmpHolds cc (readAs sg x) (readAs sg y) = icmpSpec sg cc x y := by
  cases cc with
  | eq => simp [icmpHolds, icmpSpec, readAs_inj, beq_eq_decide]
  | ne => simp [icmpHolds, icmpSpec, readAs_inj, bne]
  | lt => exact decide_readAs_lt sg x y
  | le => exact decide_readAs_le sg x y
  | gt => exact decide_readAs_lt sg y x
  | ge => exact decide_readAs_le sg y x

theorem trunc_sExt (wd : ExtW) (x : DWord) : trunc (sExt x (extBits wd)) 64 = sextSpec wd x := by
  rw [trunc_sExt_eq]
  cases wd <;> rfl

theorem trunc_zExt (wd : ExtW) (x : DWord) : trunc (zExt x (extBits wd)) 64 = zextSpec wd x := by
  rw [trunc_zExt_eq]
  cases wd <;> rfl

theorem ofInt_add_mul_two_pow (x : DWord) (v : Int) (k : Nat) :
    BitVec.ofInt 64 (x.toNat + v * 2 ^ k) = x + BitVec.ofInt 64 v <<< k := by
  rw [BitVec.ofInt_add, BitVec.ofInt_mul, BitVec.shiftLeft_eq_mul_twoPow, BitVec.ofInt_natCast, BitVec.ofNat_toNat,
    BitVec.setWidth_eq, ← ofNat_two_pow, ← BitVec.ofInt_natCast, Nat.cast_pow, Nat.cast_ofNat]

theorem eachLane_lea (h : Hdr) (sg : Bool) (sh : Fin 5) (d a b : Operand) : EachLane (.lea h sg sh d a b)
    fun x y _ => (x + (if sg then (y.setWidth 32).signExtend 64 else (y.setWidth 32).setWidth 64) <<< sh.val, 0) :=
  eachLane_of_mapLanes (g := fun x y _ => (trunc (x.toNat + readAs sg (loWord y) * 2 ^ sh.val) 64, 0)) (fun _ => rfl)
    fun x y _ => by
      rw [← ofInt64_readAs, ← loWord_eq_setWidth, ← ofInt_add_mul_two_pow]
      rfl

/-- Settles O3: a field in the model is cut out by shifting down and truncating, in the statement by shifting to the top and
back; the other forms agree word by word. -/
theorem fieldsSelectCompareExtend : Obligations.FieldsSelectCompareExtend := by
  refine fun h d a b c => ⟨fun sg => ?_, ?_, ?_, ?_, fun sg cc => ?_, fun tt => ?_, fun w wd => ?_, fun w wd => ?_,
    fun sh => eachLane_lea h true sh d a b, fun sh => eachLane_lea h false sh d a b⟩
  -- bfe and bfi
  · exact eachLane_of_map32 (g := fun x y _ => bfeW sg x y) (fun _ => rfl) fun x y _ => bfeW_eq sg x y
  · exact eachLane_of_map32 (g := bfiW) (fun _ => rfl) bfiW_eq
  -- sel and mov
  · exact eachLane_of_map32 (g := fun x y z => if z != 0 then x else y) (fun _ => rfl) fun x y z => by
      simp only [bne_iff_ne, ne_eq, ite_not]
  · exact eachLane_map32 fun _ => rfl
  -- icmp and plog
  · exact eachLane_bit_of_map32 (q := fun x y _ => icmpHolds cc (readAs sg x) (readAs sg y)) (fun _ => rfl)
      fun x y _ => icmpHolds_readAs sg cc x y
  · exact eachLane_bit_of_map32 (q := fun x y _ => bit tt (2 * x.toNat + y.toNat)) (fun _ => rfl) fun _ _ _ => rfl
  -- sext and zext
  · exact eachLane_of_mapLanes (g := fun x _ _ => (trunc (sExt x (extBits wd)) 64, 0)) (fun _ => rfl) fun x _ _ => by
      rw [trunc_sExt]
  · exact eachLane_of_mapLanes (g := fun x _ _ => (trunc (zExt x (extBits wd)) 64, 0)) (fun _ => rfl) fun x _ _ => by
      rw [trunc_zExt]

end Sys2Proof.Machine
end

section
/-! SUPPORT. The decoder reads back what the encoder writes (R40 to R63): bytes to fields, fields to the instruction. -/

namespace Sys2Proof

open Machine

/-! ### Operand fields and concatenations -/

theorem Operand.dec_enc (o : Operand) : Operand.dec o.enc = some o := by
  cases o with
  | v n =>
    have := n.isLt
    simp [enc, dec, Nat.mod_eq_of_lt (show n.val < 2048 by omega)]
  | s n =>
    have := n.isLt
    simp [enc, dec, Nat.mod_eq_of_lt (show 128 + n.val < 2048 by omega)]
  | p n =>
    have := n.isLt
    simp [enc, dec, Nat.mod_eq_of_lt (show 192 + n.val < 2048 by omega), show ¬ 192 + n.val - 128 < 64 by omega,
      show ¬ 192 + n.val < 128 by omega]
  | sp x => cases x <;> decide
  | imm => decide
  | ch n pk => revert n pk; decide

theorem extract_above (v w : Nat) {x : BitVec v} {y : BitVec w} {start len : Nat} (h : w ≤ start) :
    (x ++ y).extractLsb' start len = x.extractLsb' (start - w) len := BitVec.extractLsb'_append_eq_of_le h

theorem extract_below (v w : Nat) {x : BitVec v} {y : BitVec w} {start len : Nat} (h : start + len ≤ w) :
    (x ++ y).extractLsb' start len = y.extractLsb' start len := BitVec.extractLsb'_append_eq_of_add_le h

theorem sysImm_fields (num : BitVec 12) (idx : BitVec 8) :
    (sysImm num idx).extractLsb' 0 12 = num ∧ (sysImm num idx).extractLsb' 12 8 = idx := by
  simp [sysImm, extract_above 20 12, extract_below 20 12, extract_below 12 8]

theorem MemExt.enc_fields (x : MemExt) :
    x.enc.extractLsb' 56 8 = x.opx ∧ x.enc.extractLsb' 55 1 = BitVec.ofBool x.pv ∧ x.enc.extractLsb' 49 6 = x.peer
    ∧ x.enc.extractLsb' 42 5 = x.tol ∧ x.enc.extractLsb' 39 3 = BitVec.ofNat 3 (codeOf Scope.codes x.scp)
    ∧ x.enc.extractLsb' 37 2 = BitVec.ofNat 2 (codeOf Order.codes x.ord)
    ∧ x.enc.extractLsb' 35 2 = BitVec.ofNat 2 (codeOf ReqType.codes x.rt)
    ∧ x.enc.extractLsb' 32 3 = BitVec.ofNat 3 (codeOf Wid.codes x.wid)
    ∧ x.enc.extractLsb' 0 32 = x.off := by
  simp [MemExt.enc, extract_above 32 32, extract_above 29 3, extract_above 27 2, extract_above 25 2, extract_above 22 3,
    extract_above 17 5, extract_above 15 2, extract_above 9 6, extract_above 8 1, extract_below 32 32, extract_below 29 3,
    extract_below 27 2, extract_below 25 2, extract_below 22 3, extract_below 17 5, extract_below 9 6, extract_below 8 1]

theorem low_fields (r : Raw) :
    r.low.extractLsb' 0 2 = r.len ∧ r.low.extractLsb' 2 8 = r.op ∧ r.low.extractLsb' 10 3 = r.pred
    ∧ r.low.extractLsb' 13 1 = BitVec.ofBool r.pneg ∧ r.low.extractLsb' 14 6 = r.mod ∧ r.low.extractLsb' 20 11 = r.d
    ∧ r.low.extractLsb' 31 11 = r.a ∧ r.low.extractLsb' 42 11 = r.b ∧ r.low.extractLsb' 53 11 = r.c := by
  simp [Raw.low, extract_above 62 2, extract_above 54 8, extract_above 51 3, extract_above 50 1, extract_above 44 6,
    extract_above 33 11,
   extract_above 22 11, extract_above 11 11, extract_below 62 2, extract_below 54 8, extract_below 51 3,
     extract_below 50 1, extract_below 44 6, extract_below 33 11,
   extract_below 22 11, extract_below 11 11]
theorem extractLsb'_zeroExtend (w : Word) : (w.zeroExtend 64).extractLsb' 0 32 = w := by
  apply BitVec.eq_of_getLsbD_eq; simp; grind

theorem bit_of_extract {w : Nat} {x : BitVec w} {i : Nat} {b : Bool} (h : x.extractLsb' i 1 = BitVec.ofBool b) : bit x i = b := by
  simpa [bit] using congrArg (·.getLsbD 0) h
theorem bits_eq_extract {w : Nat} (x : BitVec w) (hi lo : Nat) : bits x hi lo = (x.extractLsb' lo (hi + 1 - lo)).toNat := by
  rw [BitVec.extractLsb'_toNat, Nat.shiftRight_eq_div_pow]; rfl

theorem Scope.ofCode_bits (x : Scope) : ofCode Scope.codes (BitVec.ofNat 3 (codeOf Scope.codes x)).toNat = some x := by
  cases x <;> rfl
theorem Order.ofCode_bits (x : Order) : ofCode Order.codes (BitVec.ofNat 2 (codeOf Order.codes x)).toNat = some x := by
  cases x <;> rfl
theorem ReqType.ofCode_bits (x : ReqType) : ofCode ReqType.codes (BitVec.ofNat 2 (codeOf ReqType.codes x)).toNat = some x := by
  cases x <;> rfl
theorem Wid.ofCode_bits (x : Wid) : ofCode Wid.codes (BitVec.ofNat 3 (codeOf Wid.codes x)).toNat = some x := by cases x <;> rfl

theorem MemExt.dec_enc (x : MemExt) : MemExt.dec x.enc = some x := by
  obtain ⟨hopx, hpv, hpeer, htol, hscp, hord, hrt, hwid, hoff⟩ := x.enc_fields
  simp only [MemExt.dec, bits_eq_extract, hopx, bit_of_extract hpv, hpeer, htol, hscp, hord, hrt, hwid, hoff,
    Scope.ofCode_bits, Order.ofCode_bits, ReqType.ofCode_bits,
    Wid.ofCode_bits, Option.bind_eq_bind, Option.bind_some]

/-! ### Bytes (R4, R40) -/

theorem ofBytes_bytesOf (x n : Nat) : ofBytes (bytesOf x n) = x % 2 ^ (8 * n) := by
  induction n generalizing x with
  | zero => simp [bytesOf, ofBytes, Nat.mod_one]
  | succ n ih =>
    have h1 : bytesOf x (n + 1) = byteOf x 0 :: bytesOf (x / 256) n := by
      simp only [bytesOf, List.range_succ_eq_map, List.map_cons, List.map_map]
      congr 1
      apply List.map_congr_left
      intro i _
      simp [byteOf, Nat.div_div_eq_div_mul, show 8 * (i + 1) = 8 + 8 * i by ring, pow_add]
    rw [h1, ofBytes, ih, show 8 * (n + 1) = 8 + 8 * n by ring, pow_add, Nat.mod_mul]
    simp [byteOf]

theorem length_bytesOf (x n : Nat) : (bytesOf x n).length = n := by simp [bytesOf]

theorem read_bytes (r : Raw) (rest : List Byte) (hl : r.len ≠ 3) (hh : r.hi.toNat < 2 ^ (8 * (lenBytes r.len - 8))) :
    Raw.read (r.bytes ++ rest) = .ok r := by
  have hlen : 8 ≤ lenBytes r.len := by unfold lenBytes; split <;> [skip; split] <;> omega
  obtain ⟨flen, fop, fpred, fneg, fmod, fd, fa, fb, fc⟩ := low_fields r
  have hhead : r.bytes ++ rest = byteOf r.low.toNat 0 :: (r.bytes ++ rest).tail := rfl
  have h0 : (byteOf r.low.toNat 0).extractLsb' 0 2 = r.len := by
    rw [← flen]
    apply BitVec.eq_of_toNat_eq
    simp [byteOf]
  have h8 : (r.bytes ++ rest).take 8 = bytesOf r.low.toNat 8 := by
    simp [Raw.bytes, length_bytesOf]
  have hhi : ((r.bytes ++ rest).take (lenBytes r.len)).drop 8 = bytesOf r.hi.toNat (lenBytes r.len - 8) := by
    simp [Raw.bytes, length_bytesOf, List.take_append, hlen]
  have hlow : BitVec.ofNat 64 (ofBytes (bytesOf r.low.toNat 8)) = r.low := by
    rw [ofBytes_bytesOf]; exact BitVec.eq_of_toNat_eq (by simpa using r.low.isLt)
  have hhi2 : BitVec.ofNat 64 (ofBytes (bytesOf r.hi.toNat (lenBytes r.len - 8))) = r.hi := by
    apply BitVec.eq_of_toNat_eq; rw [ofBytes_bytesOf, Nat.mod_eq_of_lt hh]; simp
  unfold Raw.read
  split
  · rename_i h; rw [hhead] at h; cases h
  · rename_i b0 tl h
    have hb : b0 = byteOf r.low.toNat 0 := by rw [hhead] at h; exact (List.cons.inj h).1.symm
    subst hb
    have hlong : ¬ (byteOf r.low.toNat 0 :: tl).length < lenBytes r.len := by
      rw [← h]; simp [Raw.bytes, length_bytesOf]; omega
    rw [← h] at hlong
    simp only [h0, beq_iff_eq, hl, if_false, hlong, h8, hhi, hlow, hhi2, flen, fop, fpred, bit_of_extract fneg,
      fmod, fd, fa, fb, fc]

/-! ### The fields that the encoder's forms hold -/

@[simp] theorem rawH_op (op mod : Nat) (h : Hdr) (d a b c : BitVec 11) : (rawH op mod h d a b c).op = BitVec.ofNat 8 op := by
  unfold rawH; split <;> rfl
@[simp] theorem rawH_mod (op mod : Nat) (h : Hdr) (d a b c : BitVec 11) : (rawH op mod h d a b c).mod = BitVec.ofNat 6 mod := by
  unfold rawH; split <;> rfl
@[simp] theorem rawH_d (op mod : Nat) (h : Hdr) (d a b c : BitVec 11) : (rawH op mod h d a b c).d = d := by
  unfold rawH; split <;> rfl
@[simp] theorem rawH_a (op mod : Nat) (h : Hdr) (d a b c : BitVec 11) : (rawH op mod h d a b c).a = a := by
  unfold rawH; split <;> rfl
@[simp] theorem rawH_b (op mod : Nat) (h : Hdr) (d a b c : BitVec 11) : (rawH op mod h d a b c).b = b := by
  unfold rawH; split <;> rfl
@[simp] theorem rawH_c (op mod : Nat) (h : Hdr) (d a b c : BitVec 11) : (rawH op mod h d a b c).c = c := by
  unfold rawH; split <;> rfl
@[simp] theorem pr_rawP (op mod : Nat) (p : Pr) (d a b c : BitVec 11) : (rawP op mod p d a b c).pr = p := by
  obtain ⟨⟨k, hk⟩, n⟩ := p
  simp [rawP, Raw.pr, Nat.mod_eq_of_lt hk]
@[simp] theorem hdr_rawH (op mod : Nat) (h : Hdr) (d a b c : BitVec 11) : (rawH op mod h d a b c).hdr = h := by
  obtain ⟨p, imm⟩ := h
  cases imm with
  | none => rw [Raw.hdr, show (rawH op mod ⟨p, none⟩ d a b c) = rawP op mod p d a b c from rfl, pr_rawP]; rfl
  | some w =>
    have : (rawH op mod ⟨p, some w⟩ d a b c).pr = p := pr_rawP op mod p d a b c
    rw [Raw.hdr, this]
    show (⟨p, some ((w.zeroExtend 64).extractLsb' 0 32)⟩ : Hdr) = _
    rw [extractLsb'_zeroExtend]


@[simp] theorem rawP_op (op mod : Nat) (p : Pr) (d a b c : BitVec 11) : (rawP op mod p d a b c).op = BitVec.ofNat 8 op := rfl
@[simp] theorem rawP_mod (op mod : Nat) (p : Pr) (d a b c : BitVec 11) : (rawP op mod p d a b c).mod = BitVec.ofNat 6 mod := rfl
@[simp] theorem rawP_d (op mod : Nat) (p : Pr) (d a b c : BitVec 11) : (rawP op mod p d a b c).d = d := rfl
@[simp] theorem rawP_a (op mod : Nat) (p : Pr) (d a b c : BitVec 11) : (rawP op mod p d a b c).a = a := rfl
@[simp] theorem rawP_b (op mod : Nat) (p : Pr) (d a b c : BitVec 11) : (rawP op mod p d a b c).b = b := rfl
@[simp] theorem rawP_c (op mod : Nat) (p : Pr) (d a b c : BitVec 11) : (rawP op mod p d a b c).c = c := rfl
@[simp] theorem rawI_op (op mod : Nat) (p : Pr) (d a : BitVec 11) (w : Word) :
    (rawI op mod p d a w).op = BitVec.ofNat 8 op := rfl
@[simp] theorem rawI_mod (op mod : Nat) (p : Pr) (d a : BitVec 11) (w : Word) :
    (rawI op mod p d a w).mod = BitVec.ofNat 6 mod := rfl
@[simp] theorem rawI_d (op mod : Nat) (p : Pr) (d a : BitVec 11) (w : Word) : (rawI op mod p d a w).d = d := rfl
@[simp] theorem rawI_a (op mod : Nat) (p : Pr) (d a : BitVec 11) (w : Word) : (rawI op mod p d a w).a = a := rfl
@[simp] theorem rawI_pr (op mod : Nat) (p : Pr) (d a : BitVec 11) (w : Word) :
    (rawI op mod p d a w).pr = p := pr_rawP op mod p d a 0 0
@[simp] theorem rawI_imm32 (op mod : Nat) (p : Pr) (d a : BitVec 11) (w : Word) :
    (rawI op mod p d a w).imm32 = w := extractLsb'_zeroExtend w
@[simp] theorem rawX_op (op mod : Nat) (p : Pr) (d a b c : BitVec 11) (x : BitVec 64) :
    (rawX op mod p d a b c x).op = BitVec.ofNat 8 op := rfl
@[simp] theorem rawX_mod (op mod : Nat) (p : Pr) (d a b c : BitVec 11) (x : BitVec 64) :
    (rawX op mod p d a b c x).mod = BitVec.ofNat 6 mod := rfl
@[simp] theorem rawX_d (op mod : Nat) (p : Pr) (d a b c : BitVec 11) (x : BitVec 64) : (rawX op mod p d a b c x).d = d := rfl
@[simp] theorem rawX_a (op mod : Nat) (p : Pr) (d a b c : BitVec 11) (x : BitVec 64) : (rawX op mod p d a b c x).a = a := rfl
@[simp] theorem rawX_b (op mod : Nat) (p : Pr) (d a b c : BitVec 11) (x : BitVec 64) : (rawX op mod p d a b c x).b = b := rfl
@[simp] theorem rawX_c (op mod : Nat) (p : Pr) (d a b c : BitVec 11) (x : BitVec 64) : (rawX op mod p d a b c x).c = c := rfl
@[simp] theorem rawX_hi (op mod : Nat) (p : Pr) (d a b c : BitVec 11) (x : BitVec 64) : (rawX op mod p d a b c x).hi = x := rfl
@[simp] theorem rawX_pr (op mod : Nat) (p : Pr) (d a b c : BitVec 11) (x : BitVec 64) :
    (rawX op mod p d a b c x).pr = p := pr_rawP op mod p d a b c

theorem op_hi (n : Nat) : bits (BitVec.ofNat 8 n) 7 4 = n / 16 % 16 := by
  simp [bits, field]; omega
theorem op_lo (n : Nat) : bits (BitVec.ofNat 8 n) 3 0 = n % 16 := by
  simp [bits, field]



/-! ### The layouts of MOD -/

@[simp] theorem mod_sat (m : SatMode) :
    ofCode SatMode.codes (bits (BitVec.ofNat 6 (codeOf SatMode.codes m)) 1 0) = some m := by
  cases m <;> decide

@[simp] theorem mod_flag (b : Bool) :
    bit (BitVec.ofNat 6 (b.toNat)) 0 = b := by
  cases b <;> decide

@[simp] theorem mod_icond (sg : Bool) (cc : ICond) :
    ofCode ICond.codes (bits (BitVec.ofNat 6 (8 * sg.toNat + codeOf ICond.codes cc)) 2 0) = some cc
    ∧ bit (BitVec.ofNat 6 (8 * sg.toNat + codeOf ICond.codes cc)) 3 = sg := by
  cases sg <;> cases cc <;> decide

@[simp] theorem mod_extW (w : Bool) (wd : ExtW) :
    ofCode ExtW.codes (bits (BitVec.ofNat 6 (4 * w.toNat + codeOf ExtW.codes wd)) 1 0) = some wd
    ∧ bit (BitVec.ofNat 6 (4 * w.toNat + codeOf ExtW.codes wd)) 2 = w := by
  cases w <;> cases wd <;> decide

@[simp] theorem mod_shift (sg : Bool) (sh : Fin 5) :
    finOf 5 (bits (BitVec.ofNat 6 (8 * sg.toNat + sh.val)) 2 0) = some sh
    ∧ bit (BitVec.ofNat 6 (8 * sg.toNat + sh.val)) 3 = sg := by
  revert sg sh; decide

@[simp] theorem mod_float (sm : SMod) (ty : FTy) (rm : RMode) :
    ofCode SMod.codes (bits (BitVec.ofNat 6 (fMod sm ty (codeOf RMode.codes rm))) 5 4) = some sm
    ∧ ofCode FTy.codes (bits (BitVec.ofNat 6 (fMod sm ty (codeOf RMode.codes rm))) 3 2) = some ty
    ∧ ofCode RMode.codes (bits (BitVec.ofNat 6 (fMod sm ty (codeOf RMode.codes rm))) 1 0) = some rm := by
  cases sm <;> cases ty <;> cases rm <;> decide

@[simp] theorem mod_floatFlag (sm : SMod) (ty : FTy) (b : Bool) :
    ofCode SMod.codes (bits (BitVec.ofNat 6 (fMod sm ty b.toNat)) 5 4) = some sm
    ∧ ofCode FTy.codes (bits (BitVec.ofNat 6 (fMod sm ty b.toNat)) 3 2) = some ty
    ∧ bit (BitVec.ofNat 6 (fMod sm ty b.toNat)) 0 = b := by
  cases sm <;> cases ty <;> cases b <;> decide

@[simp] theorem mod_fcmp (hi : Bool) (ty : FTy) (cc : FCond) :
    ofCode FTy.codes (bits (BitVec.ofNat 6 (32 * hi.toNat + 8 * codeOf FTy.codes ty + codeOf FCond.codes cc)) 4 3) = some ty
    ∧ ofCode FCond.codes (bits (BitVec.ofNat 6 (32 * hi.toNat + 8 * codeOf FTy.codes ty + codeOf FCond.codes cc)) 2 0) = some cc
    ∧ bit (BitVec.ofNat 6 (32 * hi.toNat + 8 * codeOf FTy.codes ty + codeOf FCond.codes cc)) 5 = hi := by
  cases hi <;> cases ty <;> cases cc <;> decide

@[simp] theorem mod_frnd (x : Bool) (ty : FTy) (rm : RMode) :
    ofCode FTy.codes (bits (BitVec.ofNat 6 (16 * x.toNat + 4 * codeOf FTy.codes ty + codeOf RMode.codes rm)) 3 2) = some ty
    ∧ ofCode RMode.codes (bits (BitVec.ofNat 6 (16 * x.toNat + 4 * codeOf FTy.codes ty + codeOf RMode.codes rm)) 1 0) = some rm
    ∧ bit (BitVec.ofNat 6 (16 * x.toNat + 4 * codeOf FTy.codes ty + codeOf RMode.codes rm)) 4 = x := by
  cases x <;> cases ty <;> cases rm <;> decide

@[simp] theorem mod_double (sm : SMod) (rm : RMode) :
    ofCode SMod.codes (bits (BitVec.ofNat 6 (16 * codeOf SMod.codes sm + codeOf RMode.codes rm)) 5 4) = some sm
    ∧ ofCode RMode.codes (bits (BitVec.ofNat 6 (16 * codeOf SMod.codes sm + codeOf RMode.codes rm)) 1 0) = some rm := by
  cases sm <;> cases rm <;> decide

@[simp] theorem mod_doubleFlag (sm : SMod) (b : Bool) :
    ofCode SMod.codes (bits (BitVec.ofNat 6 (16 * codeOf SMod.codes sm + b.toNat)) 5 4) = some sm
    ∧ bit (BitVec.ofNat 6 (16 * codeOf SMod.codes sm + b.toNat)) 0 = b := by
  cases sm <;> cases b <;> decide

@[simp] theorem mod_fcond (cc : FCond) :
    ofCode FCond.codes (bits (BitVec.ofNat 6 (codeOf FCond.codes cc)) 2 0) = some cc := by
  cases cc <;> decide

@[simp] theorem mod_cvt (cv : BitVec 4) (rm : RMode) :
    (BitVec.ofNat 6 (4 * cv.toNat + codeOf RMode.codes rm)).extractLsb' 2 4 = cv
    ∧ ofCode RMode.codes (bits (BitVec.ofNat 6 (4 * cv.toNat + codeOf RMode.codes rm)) 1 0) = some rm := by
  cases rm <;> revert cv <;> decide

@[simp] theorem mod_pack (f : PackFmt) (b : Bool) (rm : RMode) :
    ofCode PackFmt.codes (bits (BitVec.ofNat 6 (8 * codeOf PackFmt.codes f + 4 * b.toNat + codeOf RMode.codes rm)) 5 3) = some f
    ∧ bit (BitVec.ofNat 6 (8 * codeOf PackFmt.codes f + 4 * b.toNat + codeOf RMode.codes rm)) 2 = b
    ∧ ofCode RMode.codes (bits (BitVec.ofNat 6 (8 * codeOf PackFmt.codes f + 4 * b.toNat + codeOf RMode.codes rm))
      1 0) = some rm := by
  cases f <;> cases b <;> cases rm <;> decide

@[simp] theorem mod_unpack (f : PackFmt) (k : Fin 8) :
    ofCode PackFmt.codes (bits (BitVec.ofNat 6 (8 * codeOf PackFmt.codes f + k.val)) 5 3) = some f
    ∧ finOf 8 (bits (BitVec.ofNat 6 (8 * codeOf PackFmt.codes f + k.val)) 2 0) = some k := by
  cases f <;> revert k <;> decide

@[simp] theorem mod_qpack (b : Bool) (rm : RMode) :
    bit (BitVec.ofNat 6 (8 * b.toNat + codeOf RMode.codes rm)) 3 = b
    ∧ ofCode RMode.codes (bits (BitVec.ofNat 6 (8 * b.toNat + codeOf RMode.codes rm)) 1 0) = some rm := by
  cases b <;> cases rm <;> decide

@[simp] theorem mod_bitThree (b : Bool) (k : Fin 8) :
    bit (BitVec.ofNat 6 (8 * b.toNat + k.val)) 3 = b
    ∧ finOf 8 (bits (BitVec.ofNat 6 (8 * b.toNat + k.val)) 2 0) = some k := by
  revert b k; decide

@[simp] theorem mod_type (ty : FTy) :
    ofCode FTy.codes (bits (BitVec.ofNat 6 (4 * codeOf FTy.codes ty)) 3 2) = some ty := by
  cases ty <;> decide

@[simp] theorem mod_typeRound (ty : FTy) (rm : RMode) :
    ofCode FTy.codes (bits (BitVec.ofNat 6 (4 * codeOf FTy.codes ty + codeOf RMode.codes rm)) 3 2) = some ty
    ∧ ofCode RMode.codes (bits (BitVec.ofNat 6 (4 * codeOf FTy.codes ty + codeOf RMode.codes rm)) 1 0) = some rm := by
  cases ty <;> cases rm <;> decide

@[simp] theorem mod_shfl (seg : Seg) (q : ShflMode) :
    ofCode Seg.codes (bits (BitVec.ofNat 6 (4 * codeOf Seg.codes seg + codeOf ShflMode.codes q)) 5 2) = some seg
    ∧ ofCode ShflMode.codes (bits (BitVec.ofNat 6 (4 * codeOf Seg.codes seg + codeOf ShflMode.codes q)) 1 0) = some q := by
  cases seg <;> cases q <;> decide

@[simp] theorem mod_vote (q : VoteMode) :
    ofCode VoteMode.codes (bits (BitVec.ofNat 6 (codeOf VoteMode.codes q)) 1 0) = some q := by
  cases q <;> decide

@[simp] theorem mod_redux (rm : RMode) (o : ReduxOp) :
    ofCode RMode.codes (bits (BitVec.ofNat 6 (16 * codeOf RMode.codes rm + codeOf ReduxOp.codes o)) 5 4) = some rm
    ∧ ofCode ReduxOp.codes (bits (BitVec.ofNat 6 (16 * codeOf RMode.codes rm + codeOf ReduxOp.codes o)) 3 0) = some o := by
  cases rm <;> cases o <;> decide

@[simp] theorem mod_scan (b : Bool) (o : ReduxOp) :
    bit (BitVec.ofNat 6 (16 * b.toNat + codeOf ReduxOp.codes o)) 4 = b
    ∧ ofCode ReduxOp.codes (bits (BitVec.ofNat 6 (16 * b.toNat + codeOf ReduxOp.codes o)) 3 0) = some o := by
  cases b <;> cases o <;> decide

@[simp] theorem mod_fence (scp : Scope) (k : FenceKind) :
    ofCode Scope.codes (bits (BitVec.ofNat 6 (4 * codeOf Scope.codes scp + codeOf FenceKind.codes k)) 4 2) = some scp
    ∧ ofCode FenceKind.codes (bits (BitVec.ofNat 6 (4 * codeOf Scope.codes scp + codeOf FenceKind.codes k)) 1 0) = some k := by
  cases scp <;> cases k <;> decide

@[simp] theorem mod_convergence (k : Fin 8) :
    bit (BitVec.ofNat 6 k.val) 3 = false ∧ finOf 8 (bits (BitVec.ofNat 6 (8 + k.val)) 2 0) = some k
    ∧ bit (BitVec.ofNat 6 (8 + k.val)) 3 = true := by
  revert k; decide

@[simp] theorem mod_tile (k : Fin 8) :
    finOf 8 (bits (BitVec.ofNat 6 (k.val)) 2 0) = some k := by
  revert k; decide

@[simp] theorem mod_optional : bit 0#6 0 = false ∧ bit 1#6 0 = true := by decide

@[simp] theorem mod_truth (tt : BitVec 4) : (BitVec.setWidth 6 tt).extractLsb' 0 4 = tt := by revert tt; decide

@[simp] theorem mod_mul64 :
    (∀ q : SatMode, Mul64Mode.codes.lookup (bits (BitVec.ofNat 6 (codeOf SatMode.codes q)) 3 0) = some (.full q))
    ∧ Mul64Mode.codes.lookup (bits 4#6 3 0) = some .wideN ∧ Mul64Mode.codes.lookup (bits 8#6 3 0) = some .wideS := by
  refine ⟨fun q => ?_, by decide, by decide⟩
  cases q <;> decide

@[simp] theorem mod_fclassDouble : ofCode FTy.codes (bits 12#6 3 2) = none := by decide

@[simp] theorem tileIdx_of_code {r : Raw} {t : TileIdx} (h : r.mod = BitVec.ofNat 6 t.code) : r.tileIdx = some t := by
  obtain ⟨lane, col, tile⟩ := t
  simp only [Raw.tileIdx, Raw.mb, Raw.m, h]
  clear h
  revert lane col tile
  decide



/-! ### Extensions -/

theorem MFmt.ofCode_bits (x : MFmt) : ofCode MFmt.codes (BitVec.ofNat 4 (codeOf MFmt.codes x)).toNat = some x := by
  cases x <;> rfl

theorem finOf_ofNat {n w : Nat} (k : Fin n) (h : n ≤ 2 ^ w) : finOf n (BitVec.ofNat w k.val).toNat = some k := by
  have hk : (BitVec.ofNat w k.val).toNat = k.val := by
    rw [BitVec.toNat_ofNat, Nat.mod_eq_of_lt (by have := k.isLt; omega)]
  rw [hk, finOf, dif_pos k.isLt]

theorem MatExt.enc_fields (x : MatExt) :
    x.enc.extractLsb' 20 1 = BitVec.ofBool x.za ∧ x.enc.extractLsb' 18 2 = BitVec.ofNat 2 x.gs.val
    ∧ x.enc.extractLsb' 16 2 = BitVec.ofNat 2 x.ns.val ∧ x.enc.extractLsb' 12 4 = BitVec.ofNat 4 (codeOf MFmt.codes x.fb)
    ∧ x.enc.extractLsb' 8 4 = BitVec.ofNat 4 (codeOf MFmt.codes x.fa) ∧ x.enc.extractLsb' 7 1 = BitVec.ofBool x.ru
    ∧ x.enc.extractLsb' 4 3 = BitVec.ofNat 3 x.cv.val ∧ x.enc.extractLsb' 0 3 = BitVec.ofNat 3 x.dt.val := by
  simp [-BitVec.ofNat_eq_ofNat, MatExt.enc, extract_above 61 3, extract_above 60 1, extract_above 57 3,
    extract_above 56 1, extract_above 52 4,
    extract_above 48 4, extract_above 46 2, extract_above 44 2, extract_below 61 3, extract_below 57 3, extract_below 56 1,
    extract_below 52 4, extract_below 48 4, extract_below 46 2, extract_below 44 2, extract_below 43 1]

theorem MatExt.dec_enc (x : MatExt) : MatExt.dec x.enc = some x := by
  obtain ⟨hza, hgs, hns, hfb, hfa, hru, hcv, hdt⟩ := x.enc_fields
  simp only [MatExt.dec, bits_eq_extract, Nat.reduceAdd, Nat.reduceSub, bit_of_extract hza, hgs, hns, hfb, hfa,
    bit_of_extract hru, hcv, hdt, MFmt.ofCode_bits,
    finOf_ofNat x.gs (w := 2) (by decide), finOf_ofNat x.ns (w := 2) (by decide), finOf_ofNat x.cv (w := 3) (by decide),
    finOf_ofNat x.dt (w := 3) (by decide), Option.bind_eq_bind, Option.bind_some]

theorem EngExt.dec_enc (x : EngExt) : EngExt.dec x.enc = x := by
  have hdsp : x.enc.extractLsb' 24 1 = BitVec.ofBool x.dsp := by
    simp [EngExt.enc, extract_above 44 20, extract_above 40 4, extract_below 39 1]
  have hdoff : x.enc.extractLsb' 32 32 = x.doff := by
    simp [EngExt.enc, extract_above 44 20, extract_above 40 4, extract_above 39 1, extract_above 32 7]
  have harr : x.enc.extractLsb' 0 20 = x.arr := by
    simp [EngExt.enc, extract_below 44 20]
  rw [EngExt.dec, bit_of_extract hdsp, hdoff, harr]

theorem McExt.dec_enc (x : McExt) : McExt.dec x.enc = x := by
  simp [McExt.dec, McExt.enc, extract_above 44 20, extract_above 36 8, extract_above 24 12, extract_below 44 20,
    extract_below 36 8,
    extract_below 24 12]

theorem GatherExt.dec_enc (x : GatherExt) : GatherExt.dec x.enc = some x := by
  have hfmt : x.enc.extractLsb' 22 4 = BitVec.ofNat 4 (codeOf MFmt.codes x.fmt) := by
    simp [GatherExt.enc, extract_above 44 20, extract_above 42 2, extract_below 38 4]
  have hns : x.enc.extractLsb' 20 2 = BitVec.ofNat 2 x.ns.val := by
    simp [GatherExt.enc, extract_above 44 20, extract_below 42 2]
  have harr : x.enc.extractLsb' 0 20 = x.arr := by
    simp [GatherExt.enc, extract_below 44 20]
  simp only [GatherExt.dec, bits_eq_extract, Nat.reduceAdd, Nat.reduceSub, hfmt, hns, harr, MFmt.ofCode_bits,
    finOf_ofNat x.ns (w := 2) (by decide),
    Option.bind_eq_bind, Option.bind_some]

/-- The counts and steps that rpt holds in its operand fields (R57). -/
theorem rpt_fields (cnt : Fin 64) (sd sa sb sc : BitVec 2) :
    finOf 64 (bits ((0 : BitVec 5) ++ BitVec.ofNat 6 cnt.val : BitVec 11) 5 0) = some cnt
    ∧ ((0 : BitVec 3) ++ sc ++ sb ++ sa ++ sd : BitVec 11).extractLsb' 0 2 = sd
    ∧ ((0 : BitVec 3) ++ sc ++ sb ++ sa ++ sd : BitVec 11).extractLsb' 2 2 = sa
    ∧ ((0 : BitVec 3) ++ sc ++ sb ++ sa ++ sd : BitVec 11).extractLsb' 4 2 = sb
    ∧ ((0 : BitVec 3) ++ sc ++ sb ++ sa ++ sd : BitVec 11).extractLsb' 6 2 = sc := by
  refine ⟨?_, ?_⟩
  · rw [bits_eq_extract, extract_below 5 6 (by decide), BitVec.extractLsb'_eq_self]
    exact finOf_ofNat cnt (by decide)
  · simp [extract_above 9 2, extract_above 7 2, extract_above 5 2, extract_below 9 2, extract_below 7 2,
      extract_below 5 2, extract_below 3 2]



/-! ### From fields to the instruction -/

theorem Operand.dec_zero : Operand.dec 0#11 = some (.v 0) := by decide

theorem mod_literal : bits 0#6 1 0 = 0 ∧ bits 1#6 1 0 = 1 ∧ bits 2#6 1 0 = 2 ∧ bits 3#6 1 0 = 3 := by decide

/-- mts names none of the registers whose writes have rows of their own. -/
theorem mts_num {p : Pr} {a : Operand} {num : BitVec 12} {idx : BitVec 8} (h : (Instr.mts p a num idx).wellFormed = true) :
    num ≠ 0x0A0 ∧ num ≠ 0x087 ∧ num ≠ 0x086 := by
  simp only [Instr.wellFormed, shape, Bool.and_eq_true, bne_iff_ne] at h
  obtain ⟨⟨⟨⟨-, ⟨⟨-, h1⟩, h2⟩, h3⟩, -⟩, -⟩, -⟩ := h
  exact ⟨h1, h2, h3⟩

/-- The fields that the encoder writes name the instruction. -/
theorem toInstr_toRaw {i : Instr} {r : Raw} (hw : i.wellFormed = true) (hr : toRaw i = some r) : r.toInstr = some i := by
  cases i <;> simp only [toRaw, Option.some.injEq, reduceCtorEq] at hr <;> subst hr <;>
    simp only [Raw.toInstr, rawH_op, rawP_op, rawI_op, rawX_op, op_hi, op_lo, Nat.reduceMod, Nat.reduceDiv, Raw.control,
      Raw.system, Raw.integer, Raw.integer2, Raw.float, Raw.double, Raw.convert, Raw.cross, Raw.memory, Raw.atomic, Raw.matrix,
      Raw.f2, Raw.f3, Raw.f4, Raw.sat, Raw.rm, Raw.ty, Raw.sm, Raw.mem, Raw.m, Raw.mb, Raw.oA, Raw.oB, Raw.oC, Raw.oD,
      rawH_mod, rawH_d, rawH_a, rawH_b, rawH_c, hdr_rawH, rawP_mod, rawP_d, rawP_a, rawP_b, rawP_c, rawX_hi]
  case rpt cnt sd sa sb sc =>
    obtain ⟨h0, h1, h2, h3, h4⟩ := rpt_fields cnt sd sa sb sc
    rw [h0, h1, h2, h3, h4]
    rfl
  case mts p a num idx =>
    obtain ⟨h1, h2, h3⟩ := mts_num hw
    simp only [rawI_a, rawI_imm32, rawI_pr, Operand.dec_enc, sysImm_fields, Option.bind_eq_bind, Option.bind_some, beq_iff_eq, h1,
      h2, h3, if_false]
  case mul64 h m d a b => cases m <;> simp [Operand.dec_enc]
  case fclass h ty d a => cases ty <;> simp [Operand.dec_enc]
  case bcast h d a b => cases b <;> simp [Operand.dec_enc, Operand.dec_zero]
  case cvdef p cv a => cases a <;> simp [Operand.dec_enc, Operand.dec_zero]
  case estat p d a => cases a <;> simp [Operand.dec_enc, Operand.dec_zero]
  case ecancel p a => cases a <;> simp [Operand.dec_enc, Operand.dec_zero]
  case accrd h t d a => simp [Operand.dec_enc, tileIdx_of_code (t := t) (rawH_mod ..)]
  case accwr h t a b => simp [Operand.dec_enc, tileIdx_of_code (t := t) (rawH_mod ..)]
  all_goals
    simp [Operand.dec_enc, Operand.dec_zero, MemExt.dec_enc, MatExt.dec_enc, EngExt.dec_enc, McExt.dec_enc, GatherExt.dec_enc,
      sysImm_fields, mod_literal]

/-- Fields that bytes can hold: a length that the opcode accepts, and no more behind the common bits than it has room for. -/
def Raw.fits (r : Raw) : Prop :=
  r.len ≠ 3 ∧ (opLengths r.op.toNat).contains r.len.toNat = true ∧ r.hi.toNat < 2 ^ (8 * (lenBytes r.len - 8))

theorem fits_rawP {op mod : Nat} {p : Pr} {d a b c : BitVec 11} (hlt : op < 256) (hop : (opLengths op).contains 0 = true) :
    (rawP op mod p d a b c).fits :=
  ⟨show (0 : BitVec 2) ≠ 3 by decide, by simpa [rawP, Nat.mod_eq_of_lt hlt] using hop, show (0 : BitVec 64).toNat < 1 by decide⟩

theorem toNat_zeroExtend_lt (w : Word) : (w.zeroExtend 64).toNat < 2 ^ 32 := by
  have := w.isLt
  simp
  omega

theorem fits_rawI {op mod : Nat} {p : Pr} {d a : BitVec 11} {w : Word} (hlt : op < 256) (hop : (opLengths op).contains 1 = true) :
    (rawI op mod p d a w).fits :=
  ⟨show (1 : BitVec 2) ≠ 3 by decide, by simpa [rawI, rawP, Nat.mod_eq_of_lt hlt] using hop, toNat_zeroExtend_lt w⟩

theorem fits_rawX {op mod : Nat} {p : Pr} {d a b c : BitVec 11} {x : BitVec 64} (hlt : op < 256)
    (hop : (opLengths op).contains 2 = true) : (rawX op mod p d a b c x).fits :=
  ⟨show (2 : BitVec 2) ≠ 3 by decide, by simpa [rawX, rawP, Nat.mod_eq_of_lt hlt] using hop, x.isLt⟩

theorem fits_rawH {op mod : Nat} {h : Hdr} {d a b c : BitVec 11} (hlt : op < 256) (h0 : (opLengths op).contains 0 = true)
    (h1 : (opLengths op).contains 1 = true) : (rawH op mod h d a b c).fits := by
  unfold rawH
  split
  · exact fits_rawP hlt h0
  · exact ⟨show (1 : BitVec 2) ≠ 3 by decide, by simpa [rawP, Nat.mod_eq_of_lt hlt] using h1, toNat_zeroExtend_lt _⟩

theorem fits_toRaw {i : Instr} {r : Raw} (hr : toRaw i = some r) : r.fits := by
  cases i <;> simp only [toRaw, Option.some.injEq, reduceCtorEq] at hr <;> subst hr <;>
    simp (disch := decide) only [fits_rawP, fits_rawI, fits_rawX, fits_rawH]

/-- An instruction of the Kwazon has fields. -/
theorem toRaw_isSome {i : Instr} (hi : i.isIsa = true) : (toRaw i).isSome = true := by
  cases i <;> simp [Instr.isIsa, shape, toRaw] at hi ⊢

theorem decodeRaw_toRaw {i : Instr} {r : Raw} (hw : i.wellFormed = true) (hr : toRaw i = some r) : decodeRaw r = .ok i := by
  obtain ⟨-, hlen, -⟩ := fits_toRaw hr
  unfold decodeRaw
  split
  · rename_i hnil
    rw [hnil] at hlen
    cases hlen
  · simp only [hlen, if_true, toInstr_toRaw hw hr, hr, hw]

/-- Settles O54: the bytes are read back to the fields, and the fields to the instruction. -/
theorem decodeEncode : Obligations.DecodeEncode := by
  intro i rest hisa hwf
  obtain ⟨r, hr⟩ := Option.isSome_iff_exists.mp (toRaw_isSome hisa)
  obtain ⟨hlen, -, hhi⟩ := fits_toRaw hr
  have henc : encode i = r.bytes := by rw [encode, hr]
  have hlength : r.bytes.length = lenBytes r.len := by
    have : 8 ≤ lenBytes r.len := by unfold lenBytes; split <;> [skip; split] <;> omega
    simp only [Raw.bytes, List.length_append, length_bytesOf]
    omega
  rw [decode, henc, read_bytes r rest hlen hhi, hlength]
  simp only [bind, Except.bind, decodeRaw_toRaw hwf hr]

end Sys2Proof
end

section
/-! SUPPORT. The state at reset, a warp at its start, and what a step of the schedule comes to. -/

namespace Sys2Proof.Machine

open Sys2Proof Claims

/-! ### Reset and the start of a warp -/

theorem sFind_nil {α : Type} (k : Nat) : sFind? ([] : List (Nat × α)) k = none := rfl

/-- No port group has a control word after reset. -/
theorem reset_pgctl (n : Nat) : pgctl State.reset n = 0 := rfl

/-- Memory reads zero after reset, whatever decoder covers the address. -/
theorem reset_plinthByte (a : Nat) : plinthByte State.reset a = 0 := by
  unfold plinthByte
  cases devKey State.reset a <;> rfl

/-- Settles O52: every clause is read off the reset record; only the port groups' fields and the bytes behind a decoder
need a lookup in an empty table. -/
theorem resetState : Obligations.ResetState :=
  ⟨rfl, fun _ => ⟨rfl, rfl, rfl⟩,
    fun n => ⟨by rw [pgState, reset_pgctl]; rfl, by rw [pgPers, reset_pgctl]; rfl, rfl⟩,
    fun _ => rfl, fun _ => rfl, fun _ => rfl, fun _ => rfl, rfl, rfl, rfl, rfl, rfl, rfl, reset_plinthByte, reset_memWf⟩

/-- Every lane of a new warp is as a lane starts. -/
theorem start_lane {n l : Nat} (pc : Addr) (t : Tag) (place quad : Nat) (h : l < n) :
    (Warp.start n pc t place quad).lanes[l]? = some (Lane.start pc) := by
  simp [Warp.start, h]

/-- Settles O53: the tables of a new warp are empty, and each of its lanes is `Lane.start` of the entry PC. -/
theorem warpStart : Obligations.WarpStart := by
  intro lanes pc t place quad
  refine ⟨fun _ _ => rfl, fun _ => rfl, fun n l h => ?_, fun _ => rfl, rfl, rfl, rfl, ?_, rfl, fun l h => ?_⟩
  · have h7 : n ≠ 7 := by omega
    simp [Warp.p, Warp.pMask, h7, Warp.start, sGet, sFind_nil, bit]
  · simp [Warp.width, Warp.start]
  · have hl := start_lane pc t place quad h
    exact ⟨by simp [Warp.vpc, hl, Lane.start], by rw [hl]; rfl⟩

/-! ### A step of the schedule's first move -/

/-- The first move of the agenda is carried out. -/
theorem step_of_agenda {s : State} {m : Move} {rest : List Move} (h : (passTime s).agenda = m :: rest) :
    step s = doMove m { passTime s with agenda := rest } := by
  simp only [step, nextMove, h]

/-- In recovery a move that is none of recovery's does nothing (R438). -/
theorem doMove_recovery {s : State} {m : Move} (hv : s.host.verified = false) (hr : inRecovery s m = false) :
    doMove m s = .next s := by
  simp [doMove, works, hv, hr]

/-- An event that no warp issues is carried out where its units work. -/
theorem doMove_event {s : State} {i : Instr} (hi : i.isIsa = false) (hw : works s (.event i) = true) :
    doMove (.event i) s = exec i s := by
  simp [doMove, hw, hi]

/-- A warp first in its quadrant has its turn. -/
theorem doMove_issue {s : State} {w : WarpId} {x : Warp} (hv : s.host.verified = true) (hx : s.warp? w = some x)
    (hf : firstOfPort s w x = true) : doMove (.issue w) s = turnOf s w := by
  have hcw : curatorWork (.issue w) = false := rfl
  simp [doMove, works, hv, hcw, hx, hf]

/-- A warp with nothing due at its boundary issues at its issue address (R18, R23). -/
theorem prepare_quiet {u : State} {w : WarpId} {x : Warp} {pc : Addr} (hx : u.warp? w = some x) (hc : canIssue u w x = true)
    (he : x.exitNow = false) (hs : x.spin < 256) (hexc : x.exc = 0) (ha : x.asyncs = []) (hr : x.rep.act = false)
    (hh : x.hold = .none) (hp : u.dbg.passing = []) (hb : atBreak u w x = false) (hpc : x.issueAddr = some pc) :
    prepare u w = issueAt u w pc (x.issueSet pc) := by
  have hturn : x.atTurn = x := by
    simp [Warp.atTurn, hh, spinTurn, hr, hexc, Nat.not_le.mpr hs]
  have hl : leaveStop u w x = u := by simp only [leaveStop, hp, List.isEmpty_nil, if_true]
  simp only [prepare, hx, hl, hc, he, ha, hturn, hb, hr, hh, hpc, Bool.not_true, List.isEmpty_nil, Bool.false_eq_true, if_false,
    bne_self_eq_false, Bool.false_and, beq_self_eq_true, if_true]

/-- Bytes whose fields cannot be read do not decode. -/
theorem decode_of_read_error {bs : List Byte} {e : Reject} (h : Raw.read bs = .error e) : decode bs = .error e := by
  rw [decode, h]; rfl

/-- Bytes decode to what their fields decode to, with their length. -/
theorem decode_of_read {bs : List Byte} {r : Raw} (h : Raw.read bs = .ok r) :
    decode bs = (decodeRaw r).map fun i => (i, lenBytes r.len) := by
  rw [decode, h]
  show (decodeRaw r >>= fun i => .ok (i, lenBytes r.len)) = _
  cases decodeRaw r <;> rfl

/-- Fetched bytes that stay in their fetch block are read and decoded (R43, R44). -/
theorem issueAt_bytes {u v : State} {w : WarpId} {pc : Addr} {bs : List Byte} (m : Mask) (hf : fetchAt u w pc = (.bytes bs, v))
    (hs : straddles pc bs = false) :
    (∀ i n, decode bs = .ok (i, n) → issueAt u w pc m = .run i { v with cur := some ⟨w, m, pc, after pc n, false⟩ })
    ∧ ∀ e, decode bs = .error e →
      ∃ next len3, issueAt u w pc m = .over (takeTrap v w (syncTrap ⟨w, m, pc, next, len3⟩ 0x01 pc m false)) := by
  simp only [issueAt, hf, hs, Bool.false_eq_true, if_false]
  cases hr : Raw.read bs with
  | error e =>
    exact ⟨fun i n h => absurd ((decode_of_read_error hr).symm.trans h) (by simp), fun _ _ => ⟨pc, true, rfl⟩⟩
  | ok r =>
    rw [decode_of_read hr]
    cases hd : decodeRaw r with
    | error e =>
      exact ⟨fun i n h => absurd h (by simp [Except.map]),
        fun _ _ => ⟨after pc (lenBytes r.len), false, by simp only [decoded, hd, trapAt]⟩⟩
    | ok j =>
      refine ⟨fun i n h => ?_, fun e h => absurd h (by simp [Except.map])⟩
      obtain ⟨rfl, rfl⟩ : j = i ∧ lenBytes r.len = n := by simpa [Except.map] using h
      simp only [decoded, hd]

theorem turnOf_over {s t : State} {w : WarpId} (h : prepare s w = .over t) : turnOf s w = .next t := by
  rw [turnOf, h]

theorem turnOf_run {s t : State} {w : WarpId} {i : Instr} (h : prepare s w = .run i t) :
    turnOf s w = leaveIssue w i (exec i t) := by
  rw [turnOf, h]

/-- Settles O51: the first move of the agenda is carried out; a turn with nothing due is the issue at the issue address,
which is what its fetch and its decoder answer. -/
theorem stepRunsDecoded : Obligations.StepRunsDecoded := by
  refine ⟨?_, fun s i rest ha hi hw => (step_of_agenda ha).trans (doMove_event hi hw),
    fun s m rest ha hv hr => (step_of_agenda ha).trans (doMove_recovery hv hr)⟩
  intro s u v w x rest pc f ha hx hc hfirst hu hv he hs hexc has hr hh hp hb hpc hf trap
  subst hu
  have hstep : step s = turnOf { passTime s with agenda := rest } w :=
    (step_of_agenda ha).trans (doMove_issue hv hx hfirst)
  have hprep := prepare_quiet hx hc he hs hexc has hr hh hp hb hpc
  refine ⟨fun bs i n hbs hst hd => ?_, fun bs hbs hst => ?_, fun bs e hbs hst hd => ?_, fun c hc => ?_⟩
  · subst hbs
    exact hstep.trans (turnOf_run (hprep.trans ((issueAt_bytes _ hf hst).1 i n hd)))
  · subst hbs
    refine hstep.trans (turnOf_over (hprep.trans ?_))
    simp only [issueAt, hf, hst, if_true, trapAt]
  · subst hbs
    obtain ⟨next, len3, h⟩ := (issueAt_bytes (x.issueSet pc) hf hst).2 e hd
    exact ⟨next, len3, hstep.trans (turnOf_over (hprep.trans h))⟩
  · subst hc
    refine hstep.trans (turnOf_over (hprep.trans ?_))
    simp only [issueAt, hf, trapAt]

/-- Words that are an instruction's own decode to it. -/
theorem decode_of_encode {i : Instr} {bs : List Byte} (he : encode i = bs) (hi : i.isIsa = true) (hw : i.wellFormed = true) :
    decode bs = .ok (i, bs.length) := by
  have h := decodeEncode i [] hi hw
  rwa [List.append_nil, he] at h

/-- Settles O55: each word is the one that its instruction encodes to. -/
theorem decodeWords : Obligations.DecodeWords :=
  ⟨decode_of_encode rfl rfl rfl, decode_of_encode rfl rfl rfl, decode_of_encode rfl rfl rfl, decode_of_encode rfl rfl rfl,
    decode_of_encode rfl rfl rfl, decode_of_encode rfl rfl rfl, decode_of_encode rfl rfl rfl, decode_of_encode rfl rfl rfl,
    decode_of_encode rfl rfl rfl, decode_of_encode rfl rfl rfl, decode_of_encode rfl rfl rfl, decode_of_encode rfl rfl rfl⟩

end Sys2Proof.Machine
end

section
/-! SUPPORT. The checks before an instruction's effect, branch by branch. -/

namespace Sys2Proof.Machine

open Sys2Proof Claims

/-- Every instruction of a warp means its own body behind the shared checks; `h` rules out the steps of other units. -/
theorem exec_eq_run {i : Instr} (h : i.isIsa = true) : ∃ body, ∀ s, exec i s = run i s body := by
  cases i
  all_goals first
    | contradiction
    | exact ⟨_, fun _ => rfl⟩

/-- The checks that stop an instruction are its whole step. -/
theorem exec_of_front_stop {i : Instr} {s t : State} {c : Cur} (hi : i.isIsa = true) (hc : s.cur = some c)
    (hf : front i s c = .stop t) : exec i s = .next t := by
  obtain ⟨body, hb⟩ := exec_eq_run hi
  rw [hb, run, hc]
  simp only [hf]

/-- An instruction that a warp may execute passes the privilege check. -/
theorem privileged_of_may {i : Instr} {c : Cur} (h : needsSup i = false ∨ isSup c.w = true) :
    (needsSup i && !isSup c.w) = false := by
  rcases h with h | h <;> simp [h]

section

variable {i : Instr} {s : State} {c : Cur} {x : Warp} {g : Group}

/-- An encoding that breaks a limit traps before anything else (R64). -/
theorem front_of_not_legal (hx : s.warp? c.w = some x) (hg : s.group? (gidOf c.w) = some g)
    (h : ¬ (i.wellFormed = true ∧ limitsOk i g x.width = true)) :
    front i s c = .stop (takeTrap s c.w (syncTrap c 0x01 c.pc c.set x.rep.act)) := by
  have h' : (!i.wellFormed || !limitsOk i g x.width) = true := by
    cases hw : i.wellFormed <;> cases hl : limitsOk i g x.width <;> simp_all
  simp only [front, hx, hg, h', if_true]

variable (hx : s.warp? c.w = some x) (hg : s.group? (gidOf c.w) = some g) (hw : i.wellFormed = true)
  (hl : limitsOk i g x.width = true)
include hx hg hw hl

/-- A supervisor instruction of a user warp traps (R37). -/
theorem front_of_not_may (h : ¬ (needsSup i = false ∨ isSup c.w = true)) :
    front i s c = .stop (takeTrap s c.w (syncTrap c 0x02 c.pc c.set x.rep.act)) := by
  have h' : (needsSup i && !isSup c.w) = true := by
    cases hn : needsSup i <;> cases hs : isSup c.w <;> simp_all
  simp only [front, hx, hg, hw, hl, h', Bool.not_true, Bool.or_self, Bool.false_eq_true, if_false, if_true]

variable (hm : needsSup i = false ∨ isSup c.w = true)
include hm

/-- Channel misuse traps where some lane is allowed (R55). -/
theorem front_of_chanMisuse (hn : (lanesOf (allowedIn i x c)).length ≠ 0)
    (hc : chanMisuse i g (shape i).scalar (lanesOf (allowedIn i x c)).length = true) :
    front i s c = .stop (takeTrap s c.w (syncTrap c 0x16 c.pc c.set x.rep.act)) := by
  have hp := privileged_of_may hm
  unfold allowedIn at hn hc
  simp only [front, hx, hg, hw, hl, hp, bne_iff_ne.mpr hn, hc, Bool.not_true, Bool.or_self, Bool.false_eq_true, if_false,
    Bool.and_self, if_true]

/-- Where no lane is allowed nothing more is checked but the lanes parked at or below a cross-lane instruction (R51, R131). -/
theorem front_of_no_lane (hn : (lanesOf (allowedIn i x c)).length = 0) :
    front i s c = if isCross i = true ∧ parkedBelow x c.pc ≠ 0 then .stop (holdAt s c.w .parked (parkedBelow x c.pc))
      else .go (idleIssue i x c) 0 [] s := by
  have hp := privileged_of_may hm
  unfold idleIssue
  unfold allowedIn at hn ⊢
  simp only [front, hx, hg, hw, hl, hp, hn, Bool.not_true, Bool.or_self, Bool.false_eq_true, if_false, bne_self_eq_false,
    Bool.false_and, beq_self_eq_true, if_true, Bool.and_eq_true, bne_iff_ne]

end

/-- Settles O56: each premise is the branch of the shared checks that it names. -/
theorem issueChecks : Obligations.IssueChecks := by
  intro i s c x g hi hc hx hg legal may n trap
  refine ⟨fun h => exec_of_front_stop hi hc (front_of_not_legal hx hg h),
    fun ⟨hw, hl⟩ h => exec_of_front_stop hi hc (front_of_not_may hx hg hw hl h),
    fun ⟨hw, hl⟩ hm hn h => exec_of_front_stop hi hc (front_of_chanMisuse hx hg hw hl hm hn h), fun ⟨hw, hl⟩ hm hn => ?_⟩
  have hf := front_of_no_lane hx hg hw hl hm hn
  by_cases hcr : isCross i = true ∧ parkedBelow x c.pc ≠ 0
  · rw [if_pos hcr] at hf ⊢
    exact exec_of_front_stop hi hc hf
  · rw [if_neg hcr] at hf ⊢
    obtain ⟨body, hb⟩ := exec_eq_run hi
    rw [hb, run, hc]
    simp only [hf]
    rfl

end Sys2Proof.Machine
end

section
/-! SUPPORT. Floating point, lane by lane. -/

namespace Sys2Proof.Machine

open Sys2Proof Claims

/-- A packed form with SM on A acts on each element. -/
theorem eachLane_mapF {i : Instr} {ty : FTy} {sm : SMod} {f : Fmt → Nat → Nat → Nat → Nat × Word}
    (hexec : ∀ s, exec i s = mapF i s ty sm f) :
    EachLane i (packed ty fun x y z => f (tyFmt ty) (signMod (tyFmt ty) sm x) y z) :=
  eachLane_of_mapLanes (g := packed ty fun x y z => f (tyFmt ty) (signMod (tyFmt ty) sm x) y z) hexec fun _ _ _ => rfl

/-- An FP64 form with SM on A. -/
theorem eachLane_mapD {i : Instr} {sm : SMod} {f : Fmt → Nat → Nat → Nat → Nat × Word}
    (hexec : ∀ s, exec i s = mapD i s sm f) : EachLane i (dbl fun x y z => f FP64 (signMod FP64 sm x) y z) :=
  eachLane_of_mapLanes (g := dbl fun x y z => f FP64 (signMod FP64 sm x) y z) hexec fun _ _ _ => rfl

/-- fcmp reads the element that its type and its half name (R119). -/
theorem eachLane_fcmp (h : Hdr) (hi : Bool) (ty : FTy) (cc : FCond) (d a b : Operand) :
    EachLane (.fcmp h hi ty cc d a b) fun x y _ =>
      (if (fCmp (tyFmt ty) cc (cmpElem ty hi x) (cmpElem ty hi y)).1 then 1 else 0,
        (fCmp (tyFmt ty) cc (cmpElem ty hi x) (cmpElem ty hi y)).2) :=
  eachLane_of_mapLanes (hexec := fun _ => rfl) fun _ _ _ => rfl

/-- A form with the results of another, element by element, acts as it does. -/
theorem eachLane_congr {i : Instr} {f g : DWord → DWord → DWord → DWord × Word} (h : EachLane i f)
    (hfg : ∀ x y z, f x y z = g x y z) : EachLane i g := by
  rwa [show g = f from funext fun x => funext fun y => funext fun z => (hfg x y z).symm]

/-- Settles O4: the model's arithmetic on patterns is the exact sum or product of the statement, rounded once; the packed
forms apply it to each element. -/
theorem floatArithmetic : Obligations.FloatArithmetic := by
  constructor
  · intro h sm ty rm d a b c F m
    refine ⟨eachLane_mapF (f := fun F x y _ => fAdd F rm x y) fun _ => rfl, eachLane_mapF (f := fun F x y _ =>
      fSub F rm x y) fun _ => rfl,
      eachLane_mapF (f := fun F x y _ => fMul F rm x y) fun _ => rfl, eachLane_mapF (f := fun F x y z =>
        fFma F rm x y z) fun _ => rfl,
      fun nanp => eachLane_mapF (f := fun F x y _ => fMinMax F false nanp x y) fun _ => rfl,
      fun nanp => eachLane_mapF (f := fun F x y _ => fMinMax F true nanp x y) fun _ => rfl, fun cc => ?_,
        fun cc hty => ?_, ?_, ?_,
      fun ex => eachLane_mapF (sm := .none) (f := fun F x _ _ => fRnd F rm ex x) fun _ => rfl, ?_⟩
    -- fcmp of the low element and of the high one
    · exact eachLane_congr (eachLane_fcmp h false ty cc d a b) fun x y _ => by cases ty <;> rfl
    · exact eachLane_congr (eachLane_fcmp h true ty cc d a b) fun x y _ => by
        cases ty with
        | f32 => exact absurd rfl hty
        | f16 => rfl
        | bf16 => rfl
    -- fclass, packed and of 64 bits
    · exact eachLane_of_mapLanes (hexec := fun _ => rfl) fun _ _ _ => rfl
    · exact eachLane_of_mapLanes (hexec := fun _ => rfl) fun _ _ _ => rfl
    -- fdot2
    · exact eachLane_of_mapLanes (hexec := fun _ => rfl) fun _ _ _ => rfl
  · intro h sm rm d a b c m
    exact ⟨eachLane_mapD (f := fun F x y _ => fAdd F rm x y) fun _ => rfl, eachLane_mapD (f := fun F x y _ =>
      fMul F rm x y) fun _ => rfl,
      eachLane_mapD (f := fun F x y z => fFma F rm x y z) fun _ => rfl,
      fun cc => eachLane_of_mapLanes (hexec := fun _ => rfl) fun _ _ _ => rfl,
      fun nanp => eachLane_mapD (f := fun F x y _ => fMinMax F false nanp x y) fun _ => rfl,
      fun nanp => eachLane_mapD (f := fun F x y _ => fMinMax F true nanp x y) fun _ => rfl⟩

end Sys2Proof.Machine
end

section
/-! SUPPORT. The queues of a warp, and the cross-lane instructions. -/

namespace Sys2Proof.Machine

open Sys2Proof Claims

/-- The warp and the group of an instruction that issues. -/
theorem issued_here {i : Instr} {s : State} {x : Issue} (h : issued i s = some x) :
    ∃ w g, s.warp? x.w = some w ∧ s.group? x.gid = some g ∧ clear i s x.cur w g = true := by
  obtain ⟨c, w, g, -, hw, hg, hcl, rfl⟩ := issued_parts h
  exact ⟨w, g, hw, hg, hcl⟩

/-- The queue of an instruction that issues has room (R130). -/
theorem not_queueFull_of_clear {i : Instr} {s : State} {c : Cur} {w : Warp} {g : Group} (h : clear i s c w g = true) :
    queueFull i w = false := by
  simp only [clear, Bool.and_eq_true, Bool.not_eq_true'] at h
  obtain ⟨⟨⟨⟨⟨⟨-, hfull⟩, -⟩, -⟩, -⟩, -⟩, -⟩ := h
  exact hfull

theorem queueFull_cv {i : Instr} {x : Warp} (hq : queueOf i = some .cv) :
    queueFull i x = decide (8 ≤ queueLength x false) := by
  simp [queueFull, hq, queueLength]

theorem queueFull_sf {i : Instr} {x : Warp} (hq : queueOf i = some .sf) : queueFull i x = decide (8 ≤ queueLength x true) := by
  simp [queueFull, hq, queueLength]

/-- The body of a queue that has room. -/
theorem queueBody_of_room {sf : Bool} {i : Instr} {f : DWord → DWord → DWord → DWord → DWord × Word} {x : Issue} {s : State}
    {w : Warp} (hw : s.warp? x.w = some w) (hl : ¬ 8 ≤ queueLength w sf) :
    queueBody sf i f x s = .done (queued sf i f x s) := by
  have hl' : ¬ 8 ≤ (if sf then w.sfq else w.cvq).length := by cases sf <;> exact hl
  simp only [queueBody, hw, hl', if_false]
  rfl

/-- A form whose body is the queue's enters its queue, and is held where the queue is full. -/
theorem queued_of_body {sf : Bool} {i : Instr} {f : DWord → DWord → DWord → DWord → DWord × Word}
    (hexec : ∀ s, exec i s = run i s (queueBody sf i f)) (hfull : ∀ x, queueFull i x = decide (8 ≤ queueLength x sf)) :
    Queued sf i f := by
  refine ⟨fun s x hx => ?_, fun s c x g hc hx hg hl hlen => ?_⟩
  · obtain ⟨w, g, hw, -, hcl⟩ := issued_here hx
    have hroom : ¬ 8 ≤ queueLength w sf := of_decide_eq_false ((hfull w).symm.trans (not_queueFull_of_clear hcl))
    rw [hexec, run_of_issued hx, queueBody_of_room hw hroom, close_done]
  · rw [hexec, run, hc]
    simp only [front_of_queueFull hx hg hl ((hfull x).trans (decide_eq_true hlen))]

/-- The conversion queue. -/
theorem queued_cv {i : Instr} {f : DWord → DWord → DWord → DWord → DWord × Word}
    (hexec : ∀ s, exec i s = run i s (queueBody false i f)) (hq : queueOf i = some .cv) : Queued false i f :=
  queued_of_body hexec fun _ => queueFull_cv hq

/-- The special-function queue. -/
theorem queued_special1 {i : Instr} {ty : FTy} {rm : RMode} {f : SfFun} (hexec : ∀ s, exec i s = special1 i f ty rm s)
    (hq : queueOf i = some .sf) : Queued true i fun x _ _ _ => packed ty (fun e _ _ => sfElem f (tyFmt ty) rm e) x 0 0 :=
  queued_of_body hexec fun _ => queueFull_sf hq

/-- Settles O5: each form runs the body of its queue with its element function. -/
theorem queuedInstructions : Obligations.QueuedInstructions :=
  ⟨fun _ _ _ _ _ _ =>
    ⟨fun _ => queued_cv (fun _ => rfl) rfl, fun _ _ => queued_cv (fun _ => rfl) rfl, fun _ _ => queued_cv (fun _ => rfl) rfl,
      fun _ => queued_cv (fun _ => rfl) rfl, fun _ _ => queued_cv (fun _ => rfl) rfl⟩,
   fun _ _ _ _ =>
    ⟨queued_special1 (fun _ => rfl) rfl, queued_special1 (fun _ => rfl) rfl, fun _ => queued_special1 (fun _ => rfl) rfl,
      queued_special1 (fun _ => rfl) rfl, queued_special1 (fun _ => rfl) rfl, queued_special1 (fun _ => rfl) rfl,
      queued_special1 (fun _ => rfl) rfl, queued_special1 (fun _ => rfl) rfl⟩⟩

/-! ### Cross-lane -/

/-- The lane that shfl reads, by the segment's number or by its first lane (R132). -/
theorem shflSrc_eq_shflLane (mode : ShflMode) (g l b : Nat) : shflSrc mode g l b = shflLane mode g l b := by
  have hbase : l - l % g = l / g * g := by
    have := Nat.div_add_mod l g
    rw [Nat.mul_comm] at this
    omega
  have hin : l - l / g * g = l % g := by
    have := Nat.mod_le l g
    omega
  cases mode with
  | idx => simp only [shflSrc, shflLane, hbase]
  | up => simp only [shflSrc, shflLane, hbase, hin]
  | down =>
    have : l + b < l / g * g + g ↔ l % g + b < g := by omega
    simp only [shflSrc, shflLane, hbase, this]
  | xor => simp only [shflSrc, shflLane, hbase, hin]

theorem bits_low_word (x : DWord) : bits x 31 0 = x.toNat % 2 ^ 32 := by
  simp [bits, field]

theorem voteResult_eq (vm : VoteMode) (as : List (Nat × DWord)) :
    voteResult vm (as.map fun e => (e.1, e.2 != 0)) =
      match vm with
      | .any => if as.any fun e => e.2 != 0 then 1 else 0
      | .all => if as.all fun e => e.2 != 0 then 1 else 0
      | .ballot => maskOf ((as.filter fun e => e.2 != 0).map Prod.fst)
      | .eq => if (as.all fun e => e.2 != 0) || (as.all fun e => e.2 == 0) then 1 else 0 := by
  have hmask : ((as.map fun e => (e.1, e.2 != 0)).filter fun p => p.2).map Prod.fst =
    (as.filter fun e => e.2 != 0).map Prod.fst := by
    rw [List.filter_map, List.map_map]; rfl
  cases vm with
  | any => rw [voteResult, List.any_map]; rfl
  | all => rw [voteResult, List.all_map]; rfl
  | ballot => rw [voteResult, hmask]
  | eq =>
    have hnone : (as.all fun e => !(e.2 != 0)) = as.all fun e => e.2 == 0 := by simp only [bne, Bool.not_not]
    rw [voteResult, List.all_map, List.all_map, ← hnone]
    rfl

/-- Settles O6: the bodies are those of the statement, but for the lane that shfl reads and the votes' conditions. -/
theorem crossLane : Obligations.CrossLane := by
  intro h d a b s x
  refine ⟨fun seg mode w hx hw => ?_, fun vm hx => ?_, fun o hx => ?_, fun rm o hx => ?_, fun excl o hx => ?_⟩
  · show run _ s _ = _
    rw [run_of_issued hx]
    simp only [hw, Option.map_some, Option.getD_some, shflSrc_eq_shflLane, bits_low_word, close_done]
    rfl
  · show run _ s _ = _
    rw [run_of_issued hx]
    simp only [voteResult_eq, close_done]
    rfl
  · show run _ s _ = _
    rw [run_of_issued hx]
    simp only [close_done, laneValues]
    -- the first lane's value by cases on the list of lanes, as the default where B names no lane
    generalize laneVals s x (shape (Instr.bcast h d a o)).a = v
    obtain ⟨as, t⟩ := v
    cases o <;> cases as <;> rfl
  · exact run_of_issued hx _
  · exact run_of_issued hx _

end Sys2Proof.Machine
end

section
/-! SUPPORT. Control: masks and their lanes, what a body comes to, transfers, repeats, traps. -/

namespace Sys2Proof.Machine

open Sys2Proof Claims

/-! ### Masks and their lanes -/

theorem getLsbD_foldl_or (ls : List Nat) (m : Mask) (i : Nat) :
    (ls.foldl (fun m l => m ||| ((1 : Mask) <<< l)) m).getLsbD i = (m.getLsbD i || (decide (i < 64) && ls.contains i)) := by
  induction ls generalizing m with
  | nil => simp
  | cons l ls ih =>
    have hone : ((1 : Mask) <<< l).getLsbD i = (decide (i < 64) && (i == l)) := by
      rw [BitVec.getLsbD_shiftLeft, show (1 : Mask) = 1#64 from rfl, BitVec.getLsbD_one]
      by_cases h : i = l
      · subst h; simp
      · by_cases hl : i < l
        · simp [h, hl]
        · have : i - l ≠ 0 := by omega
          simp [h, this]
    rw [List.foldl_cons, ih, BitVec.getLsbD_or, hone, List.contains_cons]
    cases m.getLsbD i <;> cases decide (i < 64) <;> cases (i == l) <;> simp

/-- A mask has the lanes of its list. -/
theorem getLsbD_maskOf (ls : List Nat) (i : Nat) : (maskOf ls).getLsbD i = (decide (i < 64) && ls.contains i) := by
  rw [maskOf, getLsbD_foldl_or]
  simp

theorem mem_lanesOf {m : Mask} {l : Nat} : l ∈ lanesOf m ↔ l < 64 ∧ m.getLsbD l = true := by
  simp [lanesOf, bit]

/-- The mask of a mask's lanes. -/
theorem maskOf_lanesOf (m : Mask) : maskOf (lanesOf m) = m := by
  refine BitVec.eq_of_getLsbD_eq fun i hi => ?_
  have h : (lanesOf m).contains i = m.getLsbD i := by
    rw [Bool.eq_iff_iff, List.contains_iff_mem, mem_lanesOf]
    simp [hi]
  rw [getLsbD_maskOf, h]
  simp [hi]

/-! ### Shapes of completion from what a body comes to -/

section

variable {i : Instr} {body : Issue → State → Res}

/-- An instruction that issues with nothing in its way, by what its body comes to. -/
theorem exec_of_ok {s t : State} {x : Issue} {fs : List LFault} {m : Mask} (hexec : exec i s = run i s body)
    (hx : issued i s = some x) (h : body x s = .ok t fs [] m) : exec i s = .next (finish i x 0 [] t fs [] m) := by
  rw [hexec, run_of_issued hx, h]
  rfl

theorem exec_of_hold {s t : State} {x : Issue} {hd : Hold} (hexec : exec i s = run i s body) (hx : issued i s = some x)
    (h : body x s = .hold hd t) : exec i s = .next (holdAt t x.w hd x.set) := by
  rw [hexec, run_of_issued hx, h]
  rfl

theorem exec_of_trap {s : State} {x : Issue} {cause : Nat} {addr : Addr} {code : Word} {brk : Bool}
    (hexec : exec i s = run i s body) (hx : issued i s = some x) (h : body x s = .trap cause addr code brk) :
    exec i s = .next (takeTrap s x.w (wholeTrap x cause addr code brk)) := by
  rw [hexec, run_of_issued hx, h]
  rfl

theorem completes_of_body {ok : State → Issue → Prop} {eff : State → Issue → State} (hexec : ∀ s, exec i s = run i s body)
    (h : ∀ s x, issued i s = some x → ok s x → body x s = .done (eff s x)) : Completes i ok eff :=
  fun s x hx hok => exec_of_ok (hexec s) hx (h s x hx hok)

theorem completesAt_of_body {ok : State → Issue → Prop} {m : State → Issue → Mask} {eff : State → Issue → State}
    (hexec : ∀ s, exec i s = run i s body)
    (h : ∀ s x, issued i s = some x → ok s x → body x s = .ok (eff s x) [] [] (m s x)) : CompletesAt i ok m eff :=
  fun s x hx hok => exec_of_ok (hexec s) hx (h s x hx hok)

theorem waits_of_body {ok : State → Issue → Prop} {hd : Hold} (hexec : ∀ s, exec i s = run i s body)
    (h : ∀ s x, issued i s = some x → ok s x → body x s = .hold hd s) : Waits i ok hd :=
  fun s x hx hok => exec_of_hold (hexec s) hx (h s x hx hok)

theorem faults_of_body {ok : State → Issue → Prop} {eff : State → Issue → State} {fs : State → Issue → List LFault}
    (hexec : ∀ s, exec i s = run i s body)
    (h : ∀ s x, issued i s = some x → ok s x → body x s = .ok (eff s x) (fs s x) [] 0) : Faults i ok eff fs :=
  fun s x hx hok => exec_of_ok (hexec s) hx (h s x hx hok)

theorem trapsWhole_of_body {ok : State → Issue → Prop} {cause : Nat} {addr : State → Issue → Addr}
    {code : State → Issue → Word} {brk : Bool} (hexec : ∀ s, exec i s = run i s body)
    (h : ∀ s x, issued i s = some x → ok s x → body x s = .trap cause (addr s x) (code s x) brk) :
    TrapsWhole i ok fun s x => wholeTrap x cause (addr s x) (code s x) brk :=
  fun s x hx hok => exec_of_trap (hexec s) hx (h s x hx hok)

end

/-! ### Transfers (R70 to R74) -/

theorem bits_aligned (t : Addr) : bits t 1 0 = t.toNat % 4 := by
  simp [bits, field]

theorem targetFault_of_good {t : Addr} (h : goodTarget t) : targetFault t = none := by
  obtain ⟨h4, hl⟩ := h
  simp [targetFault, bits_aligned, h4, hl]

theorem targetFault_of_unaligned {t : Addr} (h : t.toNat % 4 ≠ 0) : targetFault t = some 0x04 := by
  simp [targetFault, bits_aligned, h]

theorem targetFault_of_illegal {t : Addr} (h4 : t.toNat % 4 = 0) (hl : legalVa t = false) : targetFault t = some 0x10 := by
  simp [targetFault, bits_aligned, h4, hl]

/-- Lanes that can all take their targets go there. -/
theorem transfer_good {x : Issue} {s : State} {link : Option Operand} {ts : List (Nat × Addr)}
    (h : ∀ e ∈ ts, goodTarget e.2) : transfer x s link ts = .ok (jumped s x link ts) [] [] (maskOf (ts.map Prod.fst)) := by
  have hbad : (ts.filterMap fun e => (targetFault e.2).map fun c => (⟨e.1, c, e.2, none⟩ : LFault)) = [] := by
    rw [List.filterMap_eq_nil_iff]
    intro e he
    rw [targetFault_of_good (h e he)]
    rfl
  have hgood : (ts.filter fun e => (targetFault e.2).isNone) = ts := by
    rw [List.filter_eq_self]
    intro e he
    rw [targetFault_of_good (h e he)]
    rfl
  simp only [transfer, hbad, hgood, jumped]
  congr 2
  funext w
  cases ts.filter fun e => e.2.toNat ≤ x.cur.pc.toNat <;> rfl

/-- Lanes whose targets are all refused with one cause fault there, and no lane moves. -/
theorem transfer_bad {x : Issue} {s : State} {link : Option Operand} {ts : List (Nat × Addr)} {c : Nat}
    (h : ∀ e ∈ ts, targetFault e.2 = some c) :
    transfer x s link ts = .ok (jumped s x none []) (ts.map fun e => ⟨e.1, c, e.2, none⟩) [] 0 := by
  have hbad : (ts.filterMap fun e => (targetFault e.2).map fun c => (⟨e.1, c, e.2, none⟩ : LFault)) =
      ts.map fun e => ⟨e.1, c, e.2, none⟩ := by
    rw [← List.filterMap_eq_map]
    refine List.filterMap_congr fun e he => ?_
    rw [h e he]
    rfl
  have hgood : (ts.filter fun e => (targetFault e.2).isNone) = [] := by
    rw [List.filter_eq_nil_iff]
    intro e he
    rw [h e he]
    simp
  simp only [transfer, hbad, hgood]
  rfl

theorem targetsOf_here {s : State} {x : Issue} {w : Warp} (a : Operand) (h : here s x w) :
    targetsOf s x a = (lanesOf x.exec).map fun l => (l, srcLane s x w a 2 l) := by
  rw [targetsOf, h]

theorem map_fst_targets (x : Issue) (f : Nat → Addr) : maskOf (((lanesOf x.exec).map fun l => (l, f l)).map Prod.fst) =
    x.exec := by
  simp only [List.map_map, Function.comp_def, List.map_id', maskOf_lanesOf]

/-- A transfer of every executing lane completes where each has a target that it can take. -/
theorem transfer_lanes {x : Issue} {s : State} {link : Option Operand} {f : Nat → Addr}
    (h : ∀ l ∈ lanesOf x.exec, goodTarget (f l)) :
    transfer x s link ((lanesOf x.exec).map fun l => (l, f l)) =
      .ok (jumped s x link ((lanesOf x.exec).map fun l => (l, f l))) [] [] x.exec := by
  rw [transfer_good, map_fst_targets]
  intro e he
  obtain ⟨l, hl, rfl⟩ := List.mem_map.mp he
  exact h l hl

/-- A transfer whose every target is refused with one cause. -/
theorem transfer_lanes_bad {x : Issue} {s : State} {link : Option Operand} {f : Nat → Addr} {c : Nat}
    (h : ∀ l ∈ lanesOf x.exec, targetFault (f l) = some c) :
    transfer x s link ((lanesOf x.exec).map fun l => (l, f l)) =
      .ok (jumped s x none []) ((lanesOf x.exec).map fun l => ⟨l, c, f l, none⟩) [] 0 := by
  rw [transfer_bad (c := c)]
  · rw [List.map_map]; rfl
  · intro e he
    obtain ⟨l, hl, rfl⟩ := List.mem_map.mp he
    exact h l hl

/-- Settles O7: the lanes' targets are all taken, or all refused with one cause. -/
theorem transfers : Obligations.Transfers := by
  constructor
  · intro p d a disp
    refine ⟨completesAt_of_body (fun _ => rfl) fun s x _ hg => transfer_lanes fun _ _ => hg,
      completesAt_of_body (fun _ => rfl) fun s x _ hg => transfer_lanes fun _ _ => hg,
      fun w => completesAt_of_body (fun _ => rfl) fun s x _ ⟨hw, hg⟩ => ?_,
      fun w => completesAt_of_body (fun _ => rfl) fun s x _ ⟨hw, hg⟩ => ?_,
      fun w => completesAt_of_body (fun _ => rfl) fun s x _ ⟨hw, hg⟩ => ?_⟩
    · rw [targetsOf_here a hw, transfer_lanes hg]
    · rw [targetsOf_here a hw, transfer_lanes hg]
    · rw [if_pos rfl, targetsOf_here a hw, transfer_lanes hg]
  · intro p a disp
    refine ⟨fun w => faults_of_body (fun _ => rfl) fun s x _ ⟨hw, hg⟩ => ?_,
      faults_of_body (fun _ => rfl) fun s x _ ⟨h4, hl⟩ => ?_⟩
    · rw [targetsOf_here a hw, transfer_lanes_bad fun l hl => targetFault_of_unaligned (hg l hl)]
    · rw [targetsAt]
      exact transfer_lanes_bad fun _ _ => targetFault_of_illegal h4 hl

/-- Adjusting a warp that is there sets it. -/
theorem modWarp_of_here {s : State} {w : WarpId} {y : Warp} (h : s.warp? w = some y) (f : Warp → Warp) :
    s.modWarp w f = s.setWarp w (f y) := by
  rw [State.warp?] at h
  rw [State.modWarp, State.setWarp, sAdjust, h]

/-! ### rpt (R59, R76) -/

theorem bits_fetchBlock (a : Addr) : bits a 63 5 = a.toNat / 32 := by
  have : a.toNat < 2 ^ 64 := a.isLt
  simp only [bits, field]
  omega

section

variable {s t : State} {x : Issue} {w : Warp} {g : Group} {bs : List Byte} {cnt : Fin 64} {sd sa sb sc : BitVec 2}
  (hx : issued (.rpt cnt sd sa sb sc) s = some x) (hw : here s x w) (hg : s.group? x.gid = some g)
  (hf : fetchAt s x.w x.cur.next = (.bytes bs, t))
include hx hw hg hf

/-- A whole repeat that is legal begins. -/
theorem exec_rpt_legal {r : Raw} (hr : Raw.read bs = .ok r) (hb : x.cur.next.toNat / 32 = x.cur.pc.toNat / 32)
    (hok : repeatOk r cnt.val sd sa sb sc g w.width = true) :
    exec (.rpt cnt sd sa sb sc) s = .next (placed (.rpt cnt sd sa sb sc) x x.set
      (t.modWarp x.w fun w => { w with rep := ⟨true, cnt.val, 0, x.set, none⟩ })) := by
  rw [here] at hw
  refine exec_of_ok rfl hx ?_
  simp only [hw, hg, hf, hr, bits_fetchBlock, hb, hok, beq_self_eq_true, Bool.and_self, if_true]

/-- One that lies in another block, has no fields, or is not legal traps. -/
theorem exec_rpt_illegal (hbad : ∀ r, Raw.read bs = .ok r →
      (bits x.cur.next 63 5 == bits x.cur.pc 63 5 && repeatOk r cnt.val sd sa sb sc g w.width) = false) :
    exec (.rpt cnt sd sa sb sc) s = .next (takeTrap s x.w (wholeTrap x 0x01 x.cur.pc 0 false)) := by
  rw [here] at hw
  refine exec_of_trap rfl hx ?_
  cases hr : Raw.read bs with
  | error e => simp only [hw, hg, hf, hr]
  | ok r => simp only [hw, hg, hf, hr, hbad r hr, Bool.false_eq_true, if_false]

end

/-- Settles O8: each body is that of the statement; rpt's comes after its fetch. -/
theorem controlRest : Obligations.ControlRest := by
  intro h p cnt sd sa sb sc
  refine ⟨completes_of_body (fun _ => rfl) fun _ _ _ _ => rfl, completesAt_of_body (fun _ => rfl) fun _ _ _ _ => rfl,
    fun w g bs r t s x hx ⟨hw, hg, hf, hr, hb, hok⟩ => exec_rpt_legal hx hw hg hf hr hb hok,
    fun w g bs r t s x hx hw hg hf hr hok => exec_rpt_illegal hx hw hg hf fun r' hr' => ?_,
    fun w g bs t s x hx hw hg hf hbad => exec_rpt_illegal hx hw hg hf fun r hr => ?_,
    completes_of_body (fun _ => rfl) fun _ _ _ _ => rfl,
    fun w => completes_of_body (fun _ => rfl) fun s x _ ⟨hw, hl⟩ => ?_,
    fun w => completes_of_body (fun _ => rfl) fun s x _ ⟨hw, hl⟩ => ?_⟩
  · obtain rfl : r = r' := Except.ok.inj (hr.symm.trans hr')
    rw [hok, Bool.and_false]
  · rcases hbad with hb | hb
    · rw [bits_fetchBlock, bits_fetchBlock, beq_eq_false_iff_ne.mpr hb, Bool.false_and]
    · exact absurd hr (hb r)
  · rw [modWarp_of_here hw, hl, if_pos rfl]
  · rw [modWarp_of_here hw, hl, if_neg Bool.false_ne_true]

/-! ### Traps (R228 to R233) -/

/-- Settles O9: both bodies are a trap at the instruction. -/
theorem trapAndBreak : Obligations.TrapAndBreak :=
  fun _ _ a => ⟨trapsWhole_of_body (code := fun s x => BitVec.ofNat 32 (src32 s x a)) (fun _ => rfl) fun _ _ _ _ => rfl,
    trapsWhole_of_body (fun _ => rfl) fun _ _ _ _ => rfl⟩

/-- Settles O10. -/
theorem takingATrap : Obligations.TakingATrap := by
  intro s w t hs
  simp only [takeTrap, hs, Bool.false_eq_true, if_false, Hold.trapped, beq_iff_eq]

end Sys2Proof.Machine
end

section
/-! SUPPORT. A fault of a supervisor warp: what changes memory alone. -/

namespace Sys2Proof.Machine

open Sys2Proof Claims

/-! ### Updates of memory and copies alone -/

/-- Two states that differ in memory and in what CUs hold of it, and in nothing else. -/
def MemOnly (s t : State) : Prop := t = { s with mem := t.mem, cus := t.cus }

namespace MemOnly

variable {s t u : State}

theorem refl (s : State) : MemOnly s s := rfl

theorem trans (h : MemOnly s t) (h' : MemOnly t u) : MemOnly s u := by
  rw [MemOnly] at h h' ⊢
  rw [h'.trans (by rw [h])]

theorem sup (h : MemOnly s t) : t.sup = s.sup := (congrArg State.sup h :)
theorem warps (h : MemOnly s t) : t.warps = s.warps := (congrArg State.warps h :)

/-- What each step of a fold leaves, the fold leaves. -/
theorem foldl {α : Type} {f : State → α → State} (h : ∀ s a, MemOnly s (f s a)) (l : List α) (s : State) :
    MemOnly s (l.foldl f s) :=
  foldl_keeps (P := MemOnly s) l (fun t ht a => ht.trans (h t a)) (refl s)

end MemOnly

theorem setHomeByte_memOnly (s : State) (pa : Nat) (b : Byte) : MemOnly s (setHomeByte s pa b) := by
  unfold setHomeByte
  split <;> rfl

theorem dropL1_memOnly (s : State) (c : CuId) (w : Nat) : MemOnly s (s.dropL1 c w) := rfl

theorem setDir_memOnly (s : State) (w : Nat) (d : Dir) : MemOnly s (s.setDir w d) := rfl

theorem setRelTag_memOnly (s : State) (w : Nat) (t : BitVec 3) : MemOnly s (s.setRelTag w t) := rfl

theorem rawRecall_memOnly (s : State) (w : Nat) : MemOnly s (rawRecall s w) := by
  unfold rawRecall
  have hdrop (u : State) : MemOnly u ((s.dir w).sharers.foldl (fun s c => s.dropL1 c w) u) :=
    MemOnly.foldl (fun u c => dropL1_memOnly u c w) _ u
  have hend (u : State) : MemOnly u (if s.dir w == ⟨none, []⟩ then u else u.setDir w ⟨none, []⟩) := by
    split
    · exact MemOnly.refl u
    · exact setDir_memOnly u w _
  refine (MemOnly.trans ?_ (hdrop _)).trans (hend _)
  split
  case h_1 c x _ =>
    have hbytes : MemOnly s ((List.range 4).foldl (fun s i =>
        if bit x.dirty i then setHomeByte s (4 * w + i) (byteOf x.data.toNat i) else s) s) :=
      MemOnly.foldl (fun u i => by
        show MemOnly u (if _ then _ else _)
        split
        · exact setHomeByte_memOnly ..
        · exact MemOnly.refl u) _ s
    exact hbytes.trans (dropL1_memOnly _ c w)
  case h_2 => exact MemOnly.refl s

theorem rawWrite_memOnly (s : State) (pa : Nat) (bs : List Byte) : MemOnly s (rawWrite s pa bs) :=
  MemOnly.foldl (fun s _ => ((rawRecall_memOnly s _).trans (setHomeByte_memOnly _ _ _)).trans (setRelTag_memOnly _ _ _)) _ s

theorem rawWriteNat_memOnly (s : State) (pa x n : Nat) : MemOnly s (rawWriteNat s pa x n) := rawWrite_memOnly ..

theorem postEvent_memOnly (s : State) (q : DWord) (tag : Tag) (code word : Word) : MemOnly s (postEvent s q tag code word) := by
  unfold postEvent
  split
  · exact MemOnly.refl s
  · dsimp only
    split
    · exact rawWriteNat_memOnly ..
    · exact ((rawWriteNat_memOnly ..).trans (rawWriteNat_memOnly ..)).trans (setRelTag_memOnly ..)

/-- A service request changes memory by the events that it posts, and the bits of SVCREQ. -/
theorem raiseSvc_memOnly (s : State) (m : Word) :
    MemOnly { s with sup := { s.sup with svcreq := s.sup.svcreq ||| m ||| 0x80000000 } } (raiseSvc s m) := by
  unfold raiseSvc
  dsimp only
  split
  · exact MemOnly.refl _
  · exact MemOnly.foldl (fun _ _ => postEvent_memOnly ..) _ _

/-! ### A fault of a supervisor warp (R231) -/

theorem sFind_map {α : Type} (m : Store α) (f : Nat × α → α) (k : Nat) (h : sFind? m k = none) :
    sFind? (m.map fun e => (e.1, f e)) k = none := by
  induction m with
  | nil => rfl
  | cons e m ih =>
    obtain ⟨j, v⟩ := e
    by_cases hj : j = k
    · simp [sFind?, hj] at h
    · simp only [sFind?, hj, if_false] at h
      simp only [List.map_cons, sFind?, hj, if_false, ih h]

/-- The halt of a partition leaves the supervisor's registers, and brings no warp. -/
theorem startHalt_leaves (s : State) (t : Tag) (cause : Nat) :
    (startHalt s t cause).sup = s.sup ∧ ∀ w, s.warp? w = none → (startHalt s t cause).warp? w = none := by
  unfold startHalt
  split
  · exact ⟨rfl, fun _ h => h⟩
  · refine ⟨rfl, fun w h => ?_⟩
    have hmap : (s.warps.map fun e => if e.2.tag == t && !isSup e.1 then (e.1, { e.2 with preempt := true }) else e) =
        s.warps.map fun e => (e.1, if e.2.tag == t && !isSup e.1 then { e.2 with preempt := true } else e.2) := by
      refine List.map_congr_left fun e _ => ?_
      split <;> rfl
    show sFind? (s.warps.map fun e => if e.2.tag == t && !isSup e.1 then (e.1, { e.2 with preempt := true }) else e) w = none
    rw [hmap]
    exact sFind_map _ _ w h

theorem startHalts_leave (ts : List Tag) (s : State) (cause : Nat) :
    (ts.foldl (fun s t => startHalt s t cause) s).sup = s.sup
      ∧ ∀ w, s.warp? w = none → (ts.foldl (fun s t => startHalt s t cause) s).warp? w = none :=
  foldl_keeps (P := fun u : State => u.sup = s.sup ∧ ∀ w, s.warp? w = none → u.warp? w = none) ts
    (fun u hu t => ⟨(startHalt_leaves u t cause).1.trans hu.1, fun w h => (startHalt_leaves u t cause).2 w (hu.2 w h)⟩)
    ⟨rfl, fun _ h => h⟩

/-- What a supervisor's fault leaves in the supervisor's registers, and that its warp is gone. -/
theorem supervisorFault_leaves (s : State) (w : WarpId) (cause : Nat) (addr : Addr) :
    let v := violate s 8 cause 0 addr.toNat (srcOf (cuOf (gidOf w)))
    (supervisorFault s w cause addr).sup = { v.sup with svcreq := v.sup.svcreq ||| 4 ||| 0x80000000 }
      ∧ (supervisorFault s w cause addr).warp? w = none := by
  intro v
  obtain ⟨hsup, hwarp⟩ := startHalts_leave
    ((dropReply { raiseSvc v 4 with warps := sErase (raiseSvc v 4).warps w, order := (raiseSvc v 4).order.filter fun u => u != w } w).tagsOnDie
      (dieOf (cuOf (gidOf w))))
    (dropReply { raiseSvc v 4 with warps := sErase (raiseSvc v 4).warps w, order := (raiseSvc v 4).order.filter fun u => u != w } w) 3
  refine ⟨hsup.trans (raiseSvc_memOnly v 4).sup, hwarp w ?_⟩
  show sFind? (sErase (raiseSvc v 4).warps w) w = none
  rw [sFind_sErase, if_pos rfl]

end Sys2Proof.Machine

namespace Sys2Proof

open Machine

/-- Settles O11: the log has room for the entry, so that it is the last; the events posted and the partitions' halts leave the
supervisor's registers as they are. -/
theorem supervisorFault : Obligations.SupervisorFault := by
  intro s w x t hs hx hlen r
  obtain ⟨hsup, hgone⟩ := supervisorFault_leaves s w t.cause t.addr
  have hr : r = Machine.supervisorFault s w t.cause t.addr := by
    show takeTrap s w t = _
    rw [takeTrap, if_pos hs]
  have hdrop : s.sup.vlog.length + 1 - 4096 = 0 := by omega
  rw [hr, hsup]
  refine ⟨rfl, ?_, ?_, ?_, hgone⟩
  · simp only [violate, hdrop, List.drop_zero, List.getLast?_append, List.getLast?_singleton, Option.some_or, Option.map_some]
  · simp
  · simp

end Sys2Proof
end

section
/-! SUPPORT. Returns from traps, and the system registers. -/

namespace Sys2Proof.Machine

open Sys2Proof Claims

/-! ### eret (R234 to R236) -/

/-- What a return leaves of the trapped warp, which stands as `z` with the record `v` once its handler is gone. -/
def returned (m : EretMode) (w : WarpId) (z : Warp) (v : Trap) (s : State) : State :=
  match m with
  | .replay => s.setWarp w (resume z v false)
  | .skip => s.setWarp w (resume z v true)
  | .fill => s.setWarp w (resume (fillRegs z v) v false)
  | .abort => startHalt (s.setWarp w { z with halt := some { v with queued := true } }) z.tag 2

section

variable {m : EretMode} {s u : State} {x : Issue} {w : WarpId} {y z : Warp} {t v : Trap}
  (hb : boundTrap s x.w = some (w, y, t))
include hb

theorem eretBody_refused (ha : m.admits t = false) : eretBody m x s = .trap 0x01 x.cur.pc 0 false := by
  simp only [eretBody, hb, ha, Bool.not_false, if_true]

theorem eretBody_busy (ha : m.admits t = true) (hd : handlerDone s x.w = false) : eretBody m x s = .hold .other s := by
  simp only [eretBody, hb, ha, hd, Bool.not_true, Bool.not_false, Bool.false_eq_true, if_false, if_true]

theorem eretBody_ready (ha : m.admits t = true) (hd : handlerDone s x.w = true) (hr : releaseReady s x.w .pkg = true)
    (hp : pastTrap (dropSi s (cuOf (gidOf w))) w y m t = (some v, u))
    (hz : (endHandler (releaseAt u x.w .pkg) x.w).warp? w = some z) :
    eretBody m x s = .ok (returned m w z v (endHandler (releaseAt u x.w .pkg) x.w)) [] [] x.set := by
  simp only [eretBody, hb, ha, hd, hr, hp, hz, Bool.not_true, Bool.false_eq_true, if_false, Option.getD_some]
  cases m <;> rfl

end

theorem admits_skip {t : Trap} (h : t.asyncKind = false ∧ t.cause ≠ 0x03 ∧ (t.cause ≠ 0x01 ∨ t.next.isSome)) :
    EretMode.skip.admits t = true := by
  obtain ⟨ha, h3, h1⟩ := h
  have h1' : (t.cause == 0x01 && t.next.isNone) = false := by
    rcases h1 with h1 | h1
    · rw [beq_eq_false_iff_ne.mpr h1, Bool.false_and]
    · rw [← Option.not_isSome, h1, Bool.not_true, Bool.and_false]
  simp [EretMode.admits, ha, h3, h1']

theorem admits_skip_false {t : Trap} (h : t.asyncKind = true ∨ t.cause = 0x03 ∨ (t.cause = 0x01 ∧ t.next = none)) :
    EretMode.skip.admits t = false := by
  rcases h with h | h | ⟨h, hn⟩
  · simp [EretMode.admits, h]
  · simp [EretMode.admits, h]
  · simp [EretMode.admits, h, hn]

theorem admits_fill_false {t : Trap} (h : t.defl = none) : EretMode.fill.admits t = false := by
  simp [EretMode.admits, h]

/-- Settles O12: each mode runs the one body of the return. -/
theorem trapReturn : Obligations.TrapReturn := by
  constructor
  · intro p w y z t v u done ready gone skips
    exact ⟨completesAt_of_body (fun _ => rfl) fun s x _ ⟨⟨hb, hd⟩, hr, hp, hz⟩ => eretBody_ready hb rfl hd hr hp hz,
      completesAt_of_body (fun _ => rfl) fun s x _ ⟨⟨⟨hb, hd⟩, hr, hp, hz⟩, ha⟩ => eretBody_ready hb (admits_skip ha) hd hr hp hz,
      completesAt_of_body (fun _ => rfl) fun s x _ ⟨⟨⟨hb, hd⟩, hr, hp, hz⟩, ha⟩ => eretBody_ready hb ha hd hr hp hz,
      completesAt_of_body (fun _ => rfl) fun s x _ ⟨⟨hb, hd⟩, hr, hp, hz⟩ => eretBody_ready hb rfl hd hr hp hz,
      waits_of_body (fun _ => rfl) fun s x _ ⟨hb, hd⟩ => eretBody_busy hb rfl hd,
      waits_of_body (fun _ => rfl) fun s x _ ⟨hb, hd, ha⟩ => eretBody_busy hb (admits_skip ha) hd,
      waits_of_body (fun _ => rfl) fun s x _ ⟨hb, hd, ha⟩ => eretBody_busy hb ha hd,
      waits_of_body (fun _ => rfl) fun s x _ ⟨hb, hd⟩ => eretBody_busy hb rfl hd⟩
  · intro p w y t
    exact ⟨trapsWhole_of_body (addr := fun _ x => x.cur.pc) (code := fun _ _ => 0) (fun _ => rfl)
        fun s x _ ⟨hb, h⟩ => eretBody_refused hb (admits_skip_false h),
      trapsWhole_of_body (addr := fun _ x => x.cur.pc) (code := fun _ _ => 0) (fun _ => rfl)
        fun s x _ ⟨hb, h⟩ => eretBody_refused hb (admits_fill_false h)⟩

/-! ### Fields of a register -/

/-- The bits `hi` to `lo`. -/
def fieldMask (hi lo : Nat) : DWord := BitVec.ofNat 64 ((2 ^ (hi + 1 - lo) - 1) * 2 ^ lo)

/-- A field in its place. -/
theorem ofNat_bits_mul (v : DWord) (hi lo : Nat) : BitVec.ofNat 64 (bits v hi lo * 2 ^ lo) = v &&& fieldMask hi lo := by
  refine BitVec.eq_of_getLsbD_eq fun i hi' => ?_
  rw [BitVec.getLsbD_and, fieldMask, BitVec.getLsbD_ofNat, BitVec.getLsbD_ofNat, Nat.testBit_mul_two_pow, Nat.testBit_mul_two_pow,
    Nat.testBit_two_pow_sub_one, bits, field, Nat.testBit_mod_two_pow, Nat.testBit_div_two_pow]
  by_cases hlo : lo ≤ i
  · have : i - lo + lo = i := by omega
    simp only [this, hlo, hi', decide_true, Bool.true_and]
    rw [Bool.and_comm]
    rfl
  · simp [hlo]

/-- Fields that do not meet. -/
theorem and_add_and {v m n : DWord} (h : m &&& n = 0) : (v &&& m) + (v &&& n) = v &&& (m ||| n) := by
  rw [BitVec.add_eq_or_of_and_eq_zero, BitVec.and_or_distrib_left]
  rw [show v &&& m &&& (v &&& n) = v &&& v &&& (m &&& n) by ac_rfl, h]
  simp

theorem keepFields_one (v : DWord) {f : Nat × Nat} {m : DWord} (h : fieldMask f.1 f.2 = m) : keepFields v [f] = v &&& m := by
  rw [← h, ← ofNat_bits_mul]
  simp [keepFields]

theorem keepFields_two (v : DWord) {f g : Nat × Nat} {m : DWord} (hd : fieldMask f.1 f.2 &&& fieldMask g.1 g.2 = 0)
    (h : fieldMask f.1 f.2 ||| fieldMask g.1 g.2 = m) : keepFields v [f, g] = v &&& m := by
  rw [← h, ← and_add_and hd, ← ofNat_bits_mul, ← ofNat_bits_mul, ← BitVec.ofNat_add]
  simp [keepFields]

theorem keepFields_three (v : DWord) {f g k : Nat × Nat} {m : DWord} (hd : fieldMask f.1 f.2 &&& fieldMask g.1 g.2 = 0)
    (hd' : (fieldMask f.1 f.2 ||| fieldMask g.1 g.2) &&& fieldMask k.1 k.2 = 0)
    (h : fieldMask f.1 f.2 ||| fieldMask g.1 g.2 ||| fieldMask k.1 k.2 = m) : keepFields v [f, g, k] = v &&& m := by
  rw [← h, ← and_add_and hd', ← and_add_and hd, ← ofNat_bits_mul, ← ofNat_bits_mul, ← ofNat_bits_mul, ← BitVec.ofNat_add,
    ← BitVec.ofNat_add]
  simp [keepFields]

/-- A field at the bottom of a register. -/
theorem ofNat_bits_zero {n : Nat} (v : DWord) {hi : Nat} {m : DWord} (hn : hi < n) (h : fieldMask hi 0 = m) :
    (BitVec.ofNat n (bits v hi 0)).toNat = (v &&& m).toNat := by
  have hlt : bits v hi 0 < 2 ^ n := by
    have h2 : 2 ^ (hi + 1 - 0) ≤ 2 ^ n := Nat.pow_le_pow_right (by decide) (by omega)
    exact Nat.lt_of_lt_of_le (Nat.mod_lt _ (Nat.two_pow_pos _)) h2
  have h64 : bits v hi 0 < 2 ^ 64 := by
    rw [bits, field, Nat.pow_zero, Nat.div_one]
    exact Nat.lt_of_le_of_lt (Nat.mod_le _ _) v.isLt
  rw [← h, ← ofNat_bits_mul, Nat.pow_zero, Nat.mul_one, BitVec.toNat_ofNat, BitVec.toNat_ofNat, Nat.mod_eq_of_lt hlt,
    Nat.mod_eq_of_lt h64]

/-! ### mfs, mts and the writes of tables (R237, R238) -/

theorem toNat_beq_num (num : BitVec 12) (k : BitVec 12) : (num.toNat == k.toNat) = (num == k) := by
  rw [Bool.eq_iff_iff, beq_iff_eq, beq_iff_eq, BitVec.toNat_inj]

/-- A register that is not held per lane has one value, which every executing lane receives. -/
theorem execMfs_shared {p : Pr} {d : Operand} {num : BitVec 12} {idx : BitVec 8} (y : Warp) :
    Completes (.mfs p d num idx)
      (fun s x => here s x y ∧ num ≠ 0x005 ∧ num ≠ 0x047 ∧ (num = 0x001 → y.sfq = [] ∧ y.cvq = []))
      (fun s x => scatter s x (mfsUse num d) (x.act.map fun _ => BitVec.ofNat 64 (sysRead s x y num.toNat idx.toNat))) := by
  refine completes_of_body (fun _ => rfl) fun s x _ ⟨hw, h5, h47, h1⟩ => ?_
  rw [here] at hw
  have hwait : (num.toNat == 0x001 && !(y.sfq.isEmpty && y.cvq.isEmpty)) = false := by
    by_cases h : num = 0x001
    · rw [(h1 h).1, (h1 h).2]
      simp
    · rw [show (num.toNat == 0x001) = (num == 0x001) from toNat_beq_num num 0x001, beq_eq_false_iff_ne.mpr h, Bool.false_and]
  have hlane : (num.toNat == 0x005 || num.toNat == 0x047) = false := by
    rw [show (num.toNat == 0x005) = (num == 0x005) from toNat_beq_num num 0x005,
      show (num.toNat == 0x047) = (num == 0x047) from toNat_beq_num num 0x047, beq_eq_false_iff_ne.mpr h5,
      beq_eq_false_iff_ne.mpr h47, Bool.or_self]
  simp only [hw, hwait, hlane, Bool.false_eq_true, if_false]

/-- One that is held per lane has each executing lane's. -/
theorem execMfs_lanes {p : Pr} {d : Operand} {num : BitVec 12} {idx : BitVec 8} (y : Warp) :
    Completes (.mfs p d num idx) (fun s x => here s x y ∧ (num = 0x005 ∨ num = 0x047))
      (fun s x => scatter s x (mfsUse num d) (x.act.map fun l => sysLane s x y num.toNat idx.toNat l)) := by
  refine completes_of_body (fun _ => rfl) fun s x _ ⟨hw, h⟩ => ?_
  rw [here] at hw
  have hwait : (num.toNat == 0x001 && !(y.sfq.isEmpty && y.cvq.isEmpty)) = false := by
    rcases h with rfl | rfl <;> rfl
  have hlane : (num.toNat == 0x005 || num.toNat == 0x047) = true := by
    rcases h with rfl | rfl <;> rfl
  simp only [hw, hwait, hlane, Bool.false_eq_true, if_false, if_true]

/-- FSTAT waits for the queues (R32). -/
theorem execMfs_queued {p : Pr} {d : Operand} {num : BitVec 12} {idx : BitVec 8} (y : Warp) :
    Waits (.mfs p d num idx) (fun s x => here s x y ∧ num = 0x001 ∧ (y.sfq ≠ [] ∨ y.cvq ≠ [])) .other := by
  refine waits_of_body (fun _ => rfl) fun s x _ ⟨hw, hn, hq⟩ => ?_
  rw [here] at hw
  have hwait : (num.toNat == 0x001 && !(y.sfq.isEmpty && y.cvq.isEmpty)) = true := by
    subst hn
    rcases hq with hq | hq
    · cases hs : y.sfq with
      | nil => exact absurd hs hq
      | cons a l => rfl
    · cases hs : y.cvq with
      | nil => exact absurd hs hq
      | cons a l => simp
  simp only [hw, hwait, if_true]

/-- Settles O13: mfs reads per lane or once, mts writes per lane or once, and the table writes are their own bodies. -/
theorem systemRegisters : Obligations.SystemRegisters := by
  intro p d a num idx
  refine ⟨fun y => execMfs_shared y, fun y => execMfs_lanes y, fun y => execMfs_queued y,
    completes_of_body (fun _ => rfl) fun s x hx hn => ?_, fun y => completes_of_body (fun _ => rfl) fun s x _ ⟨hw, hn⟩ => ?_,
    completes_of_body (fun _ => rfl) fun s x _ ⟨ho, hg⟩ => ?_, waits_of_body (fun _ => rfl) fun s x _ ho => ?_,
    fun s x hx ho hg => exec_of_hold rfl hx ?_, completes_of_body (fun _ => rfl) fun s x _ _ => ?_⟩
  · obtain ⟨w, -, hw, -, -⟩ := issued_here hx
    simp only [hw, beq_eq_false_iff_ne.mpr hn, Bool.false_eq_true, if_false]
  · rw [here] at hw
    simp only [hw, hn, beq_self_eq_true, if_true, loWord_eq_setWidth]
  · simp only [ho, hg, Bool.not_true, Bool.false_eq_true, if_false]
    rw [keepFields_two _ (m := 0x000FFFFFFFFFF801) (by decide) (by decide)]
    rfl
  · simp only [ho, if_true]
  · simp only [ho, hg, Bool.not_false, Bool.false_eq_true, if_false, if_true]
  · rw [keepFields_two _ (m := 0x000FFFFFFFFF0001) (by decide) (by decide)]
    rfl

/-! ### What a system register reads after a write (R237) -/

theorem ctx_modCtx (s : State) (t : Tag) (f : Ctx → Ctx) : (s.modCtx t f).ctx t = f (s.ctx t) := by
  show sGet Ctx.zero (sSet Ctx.zero s.ctxs t.toNat (f (s.ctx t))) t.toNat = _
  rw [sGet_sSet, if_pos rfl]

section

variable (s : State) (x : Issue) (y : Warp) (idx : Nat) (v : DWord)

theorem sysRead_fstat : sysRead s x y 0x001 idx = y.fstat.toNat := rfl
theorem sysWrite_fstat : sysWrite s x 0x001 idx v =
    s.modWarp x.w fun y => { y with fstat := BitVec.ofNat 32 (bits v 6 0) } := rfl

theorem sysRead_flm : sysRead s x y 0x002 idx = y.flm.toNat := rfl
theorem sysWrite_flm : sysWrite s x 0x002 idx v = s.modWarp x.w fun y => { y with flm := v &&& fullMask y.width } := rfl

theorem sysRead_trapbase : sysRead s x y 0x040 idx = (sGet 0 s.sup.trapbase (dieOf (cuOf x.gid))).toNat := rfl
theorem sysWrite_trapbase : sysWrite s x 0x040 idx v =
    { s with sup := { s.sup with
      trapbase := sSet 0 s.sup.trapbase (dieOf (cuOf x.gid)) (keepFields v [(63, 13)]) } } := rfl

theorem sysRead_ctxsel : sysRead s x y 0x080 idx = s.sup.ctxsel.toNat := rfl
theorem sysWrite_ctxsel : sysWrite s x 0x080 idx v =
    { s with sup := { s.sup with ctxsel := BitVec.ofNat 16 (bits v 15 0) } } := rfl

theorem sysRead_ptbase : sysRead s x y 0x081 idx = (s.ctx s.sup.ctxsel).ptbase.toNat := rfl
theorem sysWrite_ptbase : sysWrite s x 0x081 idx v =
    s.modCtx s.sup.ctxsel fun c => { c with ptbase := keepFields v [(51, 12), (0, 0)] } := rfl

theorem sysRead_evtq : sysRead s x y 0x083 idx = (s.ctx s.sup.ctxsel).evtq.toNat := rfl
theorem sysWrite_evtq : sysWrite s x 0x083 idx v =
    s.modCtx s.sup.ctxsel fun c => { c with evtq := keepFields v [(63, 12), (11, 8), (0, 0)] } := rfl

theorem sysRead_frametab : sysRead s x y 0x084 idx = s.sup.frametab.toNat := rfl
theorem sysWrite_frametab : sysWrite s x 0x084 idx v =
    { s with sup := { s.sup with frametab := keepFields v [(51, 16), (0, 0)] } } := rfl

theorem sysRead_twintab : sysRead s x y 0x085 idx = s.sup.twintab.toNat := rfl
theorem sysWrite_twintab : sysWrite s x 0x085 idx v =
    { s with sup := { s.sup with twintab := keepFields v [(59, 52), (51, 12), (0, 0)] } } := rfl

theorem sysRead_freelist : sysRead s x y 0x088 idx = (sGet 0 s.sup.freelist idx).toNat := rfl
theorem sysWrite_freelist : sysWrite s x 0x088 idx v =
    { s with sup := { s.sup with freelist := sSet 0 s.sup.freelist idx (keepFields v [(47, 0)]) } } := rfl

end

/-- Settles O14: each write leaves the fields that its table keeps, in the field that the read looks at. -/
theorem writtenRegistersRead : Obligations.WrittenRegistersRead := by
  intro s x y z idx v hy hz rd
  refine ⟨?_, ?_, ?_, ?_, ?_, ?_, ?_, ?_, ?_⟩
  · simp only [rd]
    rw [sysRead_fstat, sysWrite_fstat, State.warp?_modWarp, if_pos rfl, hy]
    exact ofNat_bits_zero v (by decide) (by decide)
  · simp only [rd]
    rw [sysRead_flm, sysWrite_flm, State.warp?_modWarp, if_pos rfl, hy]
    rfl
  · simp only [rd]
    rw [sysRead_trapbase, sysWrite_trapbase]
    dsimp only
    rw [sGet_sSet, if_pos rfl, keepFields_one v (m := 0xFFFFFFFFFFFFE000) (by decide)]
  · simp only [rd]
    rw [sysRead_ctxsel, sysWrite_ctxsel]
    exact ofNat_bits_zero v (by decide) (by decide)
  · simp only [rd]
    rw [sysRead_ptbase, sysWrite_ptbase, State.modCtx_sup, ctx_modCtx,
      keepFields_two v (m := 0x000FFFFFFFFFF001) (by decide) (by decide)]
  · simp only [rd]
    rw [sysRead_evtq, sysWrite_evtq, State.modCtx_sup, ctx_modCtx,
      keepFields_three v (m := 0xFFFFFFFFFFFFFF01) (by decide) (by decide) (by decide)]
  · simp only [rd]
    rw [sysRead_frametab, sysWrite_frametab, keepFields_two v (m := 0x000FFFFFFFFF0001) (by decide) (by decide)]
  · simp only [rd]
    rw [sysRead_twintab, sysWrite_twintab,
      keepFields_three v (m := 0x0FFFFFFFFFFFF001) (by decide) (by decide) (by decide)]
  · simp only [rd]
    rw [sysRead_freelist, sysWrite_freelist]
    dsimp only
    rw [sGet_sSet, if_pos rfl, keepFields_one v (m := 0x0000FFFFFFFFFFFF) (by decide)]

end Sys2Proof.Machine
end

section
/-! SUPPORT. Translations, events, frames, twins, migration and watched regions. -/

namespace Sys2Proof.Machine

open Sys2Proof Claims

/-! ### Sources of the system instructions -/

theorem sc32_eq (s : State) (x : Issue) (o : Operand) : sc32 s x o = src32 s x o := BitVec.toNat_ofNat _ _

theorem sc64v_eq (s : State) (x : Issue) (o : Operand) : sc64v s x o = src64 s x o := rfl

theorem status_eq (s : State) (x : Issue) (d : Operand) (v : Nat) : status s x d v = withStatus s x d v := rfl

theorem tag32_eq (s : State) (x : Issue) (o : Operand) : tag32 s x o = BitVec.ofNat 16 (src32 s x o) := by
  rw [tag32, sc32_eq]

/-! ### tlbi, tlbsync and evt (R241, R242, R250) -/

/-- Settles O15. -/
theorem translationsAndEvents : Obligations.TranslationsAndEvents := by
  constructor
  · intro h p a b c posted tag
    refine ⟨completes_of_body (fun _ => rfl) fun s x _ _ => ?_, completes_of_body (fun _ => rfl) fun s x _ _ => ?_,
      completes_of_body (fun _ => rfl) fun s x _ _ => ?_, completes_of_body (fun _ => rfl) fun s x _ _ => rfl,
      completes_of_body (fun _ => rfl) fun s x _ hnone => ?_, waits_of_body (fun _ => rfl) fun s x _ ⟨e, he, hw⟩ => ?_⟩
    · rw [tag32_eq]
      rfl
    · rw [tag32_eq, sc32_eq]
      rfl
    · rw [tag32_eq]
      rfl
    · have hany : (s.tlbis.any fun e => e.2.wid == x.w) = false := by
        rw [List.any_eq_false]
        intro e he
        simpa using hnone e he
      simp only [hany, Bool.false_eq_true, if_false]
    · have hany : (s.tlbis.any fun e => e.2.wid == x.w) = true := List.any_eq_true.mpr ⟨e, he, by simpa using hw⟩
      simp only [hany, if_true]
  · intro h a b
    refine ⟨completes_of_body (fun _ => rfl) fun s x _ ⟨ha, hr⟩ => ?_, waits_of_body (fun _ => rfl) fun s x _ ha => ?_,
      fun s x hx ha hr => exec_of_hold rfl hx ?_⟩
    · simp only [ha, hr, Bool.not_true, Bool.false_eq_true, if_false, sc32_eq]
    · simp only [ha, if_true]
    · simp only [ha, hr, Bool.not_false, Bool.false_eq_true, if_false, if_true]

/-! ### Frames and pages (R243 to R246) -/

/-- Settles O16: the frame is there or not, free or not, and its count in or out of range. -/
theorem frameCounts : Obligations.FrameCounts := by
  intro p free d a b k n at_
  refine ⟨completes_of_body (fun _ => rfl) fun s x _ ⟨⟨hlt, hk⟩, hf, h0, h1⟩ => ?_,
    completes_of_body (fun _ => rfl) fun s x _ ⟨⟨hlt, hk⟩, hf⟩ => ?_,
    completes_of_body (fun _ => rfl) fun s x _ ⟨⟨hlt, hk⟩, hf, hn⟩ => ?_,
    completes_of_body (fun _ => rfl) fun s x _ hbad => ?_⟩
  · have hin : (decide (n s x < 0) || decide (16777215 < n s x)) = false := by
      rw [decide_eq_false (by omega), decide_eq_false (by omega), Bool.or_self]
    simp only [sc64v_eq, sc32_eq, hlt, if_true, hk, hf, Bool.false_eq_true, if_false, status_eq]
    rw [if_neg (by rw [hin]; exact Bool.false_ne_true)]
    simp only [Bool.and_eq_true, beq_iff_eq]
    rfl
  · simp only [sc64v_eq, hlt, if_true, hk, hf, status_eq]
  · have hout : (decide (n s x < 0) || decide (16777215 < n s x)) = true := by
      rcases hn with hn | hn
      · rw [decide_eq_true hn, Bool.true_or]
      · rw [decide_eq_true hn, Bool.or_true]
    simp only [sc64v_eq, sc32_eq, hlt, if_true, hk, hf, Bool.false_eq_true, if_false, status_eq]
    exact if_pos hout
  · by_cases hlt : (src64 s x a).toNat < 2 ^ 52
    · have hk : frameIdx s (src64 s x a).toNat = none := hbad.resolve_left (Nat.not_le.mpr hlt)
      simp only [sc64v_eq, hlt, if_true, hk, status_eq]
    · simp only [sc64v_eq, hlt, if_false, status_eq]

/-- Settles O17: the conditions of each clause take the model's branches in their order. -/
theorem cowAndTwin : Obligations.CowAndTwin := by
  intro p d a b c
  refine ⟨completes_of_body (fun _ => rfl) fun s x _ ho => ?_, completes_of_body (fun _ => rfl) fun s x _ hset => ?_,
    fun e at_ lv => ?_⟩
  · simp only [sc64v_eq, sc32_eq, tag32_eq, ho, Bool.false_eq_true, if_false, status_eq]
  · simp only [sc32_eq, hset, if_true, status_eq]
  · intro frame any page
    refine ⟨completes_of_body (fun _ => rfl) fun s x _ ⟨⟨hset, hwalk⟩, h6⟩ => ?_,
      completes_of_body (fun _ => rfl) fun s x _ ⟨⟨hset, hwalk⟩, h6, htier, hwat⟩ => ?_,
      fun i => completes_of_body (fun _ => rfl) fun s x _ ⟨⟨⟨hset, hwalk⟩, hlv, htier, hhbm, hal⟩, h6, hwat, h7, hs0,
        hsal, hshbm, hi, h512⟩ => ?_,
      completes_of_body (fun _ => rfl) fun s x _ ⟨⟨⟨hset, hwalk⟩, hlv, htier, hhbm, hal⟩, h6, hwat, h7, hs0⟩ => ?_⟩
    · have hw : walk s s.sup.ctxsel (sc64v s x a) = .leaf e at_ lv := hwalk
      rw [sc32_eq, if_neg (Nat.not_lt.mpr hset), hw]
      exact if_pos h6
    · have hw : walk s s.sup.ctxsel (sc64v s x a) = .leaf e at_ lv := hwalk
      rw [sc32_eq, if_neg (Nat.not_lt.mpr hset), hw]
      refine (if_neg (ne_true_of_eq_false h6)).trans (if_pos ?_)
      rw [decide_eq_true htier, Bool.true_and]
      exact hwat
    · have hw : walk s s.sup.ctxsel (sc64v s x a) = .leaf e at_ lv := hwalk
      rw [sc32_eq, if_neg (Nat.not_lt.mpr hset), hw]
      refine (if_neg (ne_true_of_eq_false h6)).trans ((if_neg ?_).trans ((if_neg ?_).trans
        ((if_neg (ne_true_of_eq_false h7)).trans ((if_neg ?_).trans ?_))))
      · exact ne_true_of_eq_false (Bool.and_eq_false_imp.mpr fun _ => hwat)
      · subst hlv
        simpa [htier, sc64v_eq, hal] using hhbm
      · simpa [sc64v_eq, hsal, hshbm] using hs0
      · simp only [hi, Nat.not_le.mpr h512, if_false, status_eq, sc64v_eq]
    · have hw : walk s s.sup.ctxsel (sc64v s x a) = .leaf e at_ lv := hwalk
      rw [sc32_eq, if_neg (Nat.not_lt.mpr hset), hw]
      refine (if_neg (ne_true_of_eq_false h6)).trans ((if_neg ?_).trans ((if_neg ?_).trans
        ((if_pos h7).trans (if_pos (beq_iff_eq.mpr hs0)))))
      · exact ne_true_of_eq_false (Bool.and_eq_false_imp.mpr fun _ => hwat)
      · subst hlv
        simpa [htier, sc64v_eq, hal] using hhbm


/-! ### Migration (R246, R355) -/

/-- Settles O18: a plain page that moves to a named frame takes no frame of a list, and has no shadow. -/
theorem migrationStarts : Obligations.MigrationStarts := by
  intro p d a bs e at_ t g src
  refine completes_of_body (fun _ => rfl) fun s x _
    ⟨hread, harr, hbad, hmov, hwalk, h7, htier, hwat, hcnt, hopen, ht0, hf0, hgo, hfar⟩ => ?_
  have hcount : (match frameIdx t src with | some i => decide (1 < ftCount (ftGet t i)) | none => false) = false := by
    cases hi : frameIdx t src with
    | none => rfl
    | some i => exact decide_eq_false (Nat.not_lt.mpr (hcnt i hi))
  have hback : heldBack s x.w true = false := hgo
  simp only [hback, Bool.false_eq_true, if_false]
  rw [sc64v_eq, hread]
  show (match arrFault t [x.gid] g.arr with | some c => _ | none => _) = _
  rw [harr]
  refine (if_neg (ne_true_of_eq_false hbad)).trans ((if_neg (ne_true_of_eq_false hmov)).trans ?_)
  rw [hwalk]
  refine (if_neg ?_).trans ((if_neg ?_).trans ((if_neg ?_).trans ((if_neg ?_).trans
    ((if_neg (ne_true_of_eq_false hopen)).trans ((if_neg ?_).trans ?_)))))
  · rw [h7]
    exact Bool.false_ne_true
  · simp only [htier, if_true, decide_true, Bool.true_and]
    exact ne_true_of_eq_false hwat
  · simp only [htier, if_true, decide_true, Bool.true_and, h7, Bool.false_and, Bool.or_false]
    exact ne_true_of_eq_false hcount
  · exact Bool.false_ne_true
  · simp only [htier, if_true, decide_true, Bool.true_and, h7, Bool.false_and, Bool.or_false]
    exact ne_true_of_eq_false hfar
  · have ht0' : MigDesc.tier (BitVec.ofNat 512 (ofBytes bs)) = 0 := ht0
    have hf0' : (MigDesc.frame (BitVec.ofNat 512 (ofBytes bs)) == 0) = false := beq_eq_false_iff_ne.mpr hf0
    simp only [htier, if_true, ht0', hf0', h7, Bool.and_false, Bool.false_and, Bool.false_eq_true, if_false,
      takeFrames, status_eq]
    rfl

/-! ### Watched regions (R186 to R188) -/

/-- Settles O19. -/
theorem watchedRegions : Obligations.WatchedRegions := by
  intro p d a bs g t
  refine ⟨completes_of_body (fun _ => rfl) fun s x _ ⟨hback, hal, hg, hread, hfar⟩ => ?_,
    fun q => completes_of_body (fun _ => rfl) fun s x _ ⟨hn, hq, hl, ht⟩ => ?_,
    completes_of_body (fun _ => rfl) fun s x _ hno => ?_⟩
  · have hread' : readVirt s (.warp x.w) (tagOf s x.w) (isSup x.w) (scalarOf s x (some ⟨a, 2, true⟩)) 64 = (.ok bs, t) := hread
    have hal' : (scalarOf s x (some ⟨a, 2, true⟩)).toNat % 64 = 0 := hal
    simp only [hback, hal', hread', hfar, hg, Bool.false_eq_true, if_false, bne_self_eq_false, Option.map_some, Option.getD_some]
    rfl
  · have hmine : (q.live && q.tag == tagOf s x.w) = true := by rw [hl, ht, beq_self_eq_true, Bool.and_self]
    have hn' : (loWord (scalarOf s x (some ⟨a, 1, true⟩))).toNat = src32 s x a := sc32_eq s x a
    simp only [hn', hq, hmine, hn, decide_true, Bool.and_self, if_true]
    rfl
  · have hn' : (loWord (scalarOf s x (some ⟨a, 1, true⟩))).toNat = src32 s x a := sc32_eq s x a
    rcases hno with h | h
    · simp only [hn', Nat.not_le.mpr h, decide_false, Bool.and_false, Bool.false_eq_true, if_false]
      rfl
    · cases hq : sFind? s.regions (src32 s x a) with
      | none =>
        simp only [hn', hq, Bool.false_and, Bool.false_eq_true, if_false]
        rfl
      | some q =>
        have hmine : (q.live && q.tag == tagOf s x.w) = false := by
          rcases h q hq with hl | ht
          · rw [hl, Bool.false_and]
          · rw [beq_eq_false_iff_ne.mpr ht, Bool.and_false]
        simp only [hn', hq, hmine, Bool.false_and, Bool.false_eq_true, if_false]
        rfl

end Sys2Proof.Machine
end

section
/-! SUPPORT. Loads and stores of global memory, and prefetches. -/

namespace Sys2Proof.Machine

open Sys2Proof Claims

/-! ### Loads and stores of global memory (R142 to R145) -/

theorem logRegion_nil (s : State) (w : WarpId) : logRegion s w [] = s := rfl

section

variable {s t : State} {x : Issue} {a : Operand} {m : MemExt} {gs : List Good}

/-- A load whose lanes may all act and whose blocks have room. -/
theorem loadBody_good {upd sx : Bool} {d : Operand} (hback : heldBack s x.w true = false)
    (hj : judge s x.w .read (if m.opx.toNat != 0 then 8 else m.wid.bytes) false
      (fun pa => if m.opx.toNat != 0 then if (accEnt s pa).isNone then some 0x14 else none else postPlain s
        false (m.rt == .unc) pa)
      (addrs s x a (if upd then 0 else m.off)) = (⟨gs, [], [], false⟩, t))
    {kind : ReqKind} (hk : kind = if m.opx.toNat != 0 then .accLoad m.opx.toNat m.tol.toNat else .load m.rt)
    (hroom : tableRoom (cleanBlocks t x gs) x.w (loadNeeds (cleanBlocks t x gs) x kind m gs) = true) :
    loadBody upd sx d a m x s =
      .done (addressed upd a m x gs (loadGood (cleanBlocks t x gs) x kind m sx d gs)) := by
  subst hk
  simp only [loadBody, hback, Bool.false_eq_true, if_false]
  rw [hj]
  simp only [hroom, Bool.not_true, Bool.or_self, Bool.false_eq_true, if_false, logRegion_nil]
  rfl

/-- A store whose lanes may all act, whose release has nothing left to wait for, and whose blocks have room. -/
theorem storeBody_good {upd : Bool} {b : Operand} (hback : heldBack s x.w true = false)
    (hrel : m.ord = .rel → anyReq s x.w = false ∧ releaseReady s x.w m.scp = true)
    (hj : judge s x.w .write m.wid.bytes false (postPlain s true (m.rt == .unc)) (addrs s x a (if upd then 0 else m.off))
      = (⟨gs, [], [], false⟩, t))
    (hroom : tableRoom (cleanBlocks t x gs) x.w
      ((blocksOf gs).filter fun k => !ownHit (cleanBlocks t x gs) x m gs k).length = true) :
    storeBody upd a b m x s = .done (addressed upd a m x gs
      (storeGood (storeData (released (cleanBlocks t x gs) x m) x b m.wid.bytes).2 x m
        (withData x gs (storeData (released (cleanBlocks t x gs) x m) x b m.wid.bytes).1))) := by
  have hany : (m.ord == .rel && anyReq s x.w) = false := by
    by_cases h : m.ord = .rel
    · rw [(hrel h).1, Bool.and_false]
    · rw [beq_eq_false_iff_ne.mpr h, Bool.false_and]
  have hready : (m.ord == .rel && !releaseReady s x.w m.scp) = false := by
    by_cases h : m.ord = .rel
    · rw [(hrel h).2, Bool.not_true, Bool.and_false]
    · rw [beq_eq_false_iff_ne.mpr h, Bool.false_and]
  simp only [storeBody, hback, hany, hready, Bool.or_self, Bool.false_eq_true, if_false]
  rw [hj]
  simp only [List.isEmpty_nil, Bool.not_true, Bool.and_false, Bool.false_eq_true, if_false, hroom, beq_iff_eq, logRegion_nil]
  rfl

end

/-! ### pref (R161) -/

/-- Two states with the same warps, groups and CUs. -/
def KeepsUnits (s t : State) : Prop := t.warps = s.warps ∧ t.groups = s.groups ∧ t.cus = s.cus

namespace KeepsUnits

variable {s t u : State}

theorem refl (s : State) : KeepsUnits s s := ⟨rfl, rfl, rfl⟩

theorem trans (h : KeepsUnits s t) (h' : KeepsUnits t u) : KeepsUnits s u := by
  obtain ⟨hw, hg, hc⟩ := h
  obtain ⟨hw', hg', hc'⟩ := h'
  exact ⟨hw'.trans hw, hg'.trans hg, hc'.trans hc⟩

theorem foldl {α : Type} {f : State → α → State} (h : ∀ s a, KeepsUnits s (f s a)) (l : List α) (s : State) :
    KeepsUnits s (l.foldl f s) :=
  foldl_keeps (P := KeepsUnits s) l (fun t ht a => ht.trans (h t a)) (refl s)

end KeepsUnits

theorem violate_keeps (s : State) (kind cause : Nat) (tag : Tag) (addr src : Nat) :
    KeepsUnits s (violate s kind cause tag addr src) := by
  rw [violate]
  exact ⟨rfl, rfl, rfl⟩

theorem heldLeaf_keeps (s : State) (c : CuId) (t : Tag) (sup : Bool) (k : AccKind) (e : Tlb) (va : Addr) (sh : Bool) :
    KeepsUnits s (heldLeaf s c t sup k e va sh).2 := by
  unfold heldLeaf
  split
  · exact violate_keeps ..
  · exact KeepsUnits.refl s

theorem tlbAdd_keeps (s : State) (e : Tlb) (n : Nat) : KeepsUnits s (tlbAdd s e n) := ⟨rfl, rfl, rfl⟩

/-- Translation touches the TLBs and the violation log only (R343, R345). -/
theorem translate_keeps (s : State) (c : CuId) (t : Tag) (sup : Bool) (k : AccKind) (va : Addr) :
    KeepsUnits s (translate s c t sup k va).2 := by
  unfold translate translateTo
  split
  · exact KeepsUnits.refl s
  · split
    · exact heldLeaf_keeps ..
    · split
      · exact (heldLeaf_keeps ..).trans (tlbAdd_keeps ..)
      · split
        · exact KeepsUnits.refl s
        · exact violate_keeps ..
        · split
          · exact KeepsUnits.refl s
          · dsimp only
            split
            · exact KeepsUnits.refl s
            · exact (tlbAdd_keeps ..).trans (tlbAdd_keeps ..)

theorem prefBlock_keeps (s : State) (w : WarpId) (va : Addr) : KeepsUnits s (prefBlock s w va).2 := by
  have h := translate_keeps s (cuOf (gidOf w)) (tagOf s w) (isSup w) .read va
  unfold prefBlock
  split
  · rename_i hq
    rw [hq] at h
    exact h
  · rename_i hq
    rw [hq] at h
    exact h

theorem leaveDie_keeps (s : State) (die pkg : Nat) : KeepsUnits s (leaveDie s die pkg).2 := by
  unfold leaveDie
  split <;> exact ⟨rfl, rfl, rfl⟩

theorem sendOut_keeps (s : State) (key pkg die : Nat) : KeepsUnits s (sendOut s key pkg die).2 := by
  have h := leaveDie_keeps s die pkg
  unfold sendOut
  split
  · exact KeepsUnits.refl s
  · split
    · rename_i hq
      rw [hq] at h
      exact h.trans ⟨rfl, rfl, rfl⟩
    · rename_i hq
      rw [hq] at h
      exact h

theorem depart_keeps (s : State) (r : Req) : KeepsUnits s (depart s r).2 := by
  unfold depart
  split
  · rename_i a _ _
    have h := sendOut_keeps s r.out (field a.pa 51 44) (field a.pa 39 37)
    split
    · exact KeepsUnits.refl s
    · split
      · rename_i hq
        rw [hq] at h
        exact h
      · rename_i hq
        rw [hq] at h
        exact h
  · exact KeepsUnits.refl s

theorem sendReq_keeps (s : State) (r : Req) : KeepsUnits s (sendReq s r).2 := by
  unfold sendReq
  split
  · exact KeepsUnits.refl s
  · split
    · exact KeepsUnits.refl s
    · exact depart_keeps s r

theorem addReq_keeps (s : State) (r : Req) : KeepsUnits s (addReq s r).2 :=
  KeepsUnits.trans (t := s.fresh.2) ⟨rfl, rfl, rfl⟩ ((sendReq_keeps s.fresh.2 _).trans ⟨rfl, rfl, rfl⟩)

/-- The blocks that pref finds for its lanes, with the address at which each was first met, and the state after the
translations. -/
def prefBlocks (s : State) (w : WarpId) (vas : List (Nat × Addr)) : List (Nat × Addr) × State :=
  vas.foldl (fun (r : List (Nat × Addr) × State) e =>
    let q := prefBlock r.2 w e.2
    match q.1 with
    | some b => (if r.1.any fun p => p.1 == b then r.1 else r.1 ++ [(b, e.2)], q.2)
    | none => (r.1, q.2)) ([], s)

theorem prefBlocks_keeps (s : State) (w : WarpId) (vas : List (Nat × Addr)) : KeepsUnits s (prefBlocks s w vas).2 := by
  refine foldl_keeps (P := fun r : List (Nat × Addr) × State => KeepsUnits s r.2) vas (fun r hr e => ?_) (KeepsUnits.refl s)
  have h := hr.trans (prefBlock_keeps r.2 w e.2)
  dsimp only
  split <;> exact h

/-- The requests of pref for blocks that its CU does not hold. -/
def prefAsk (x : Issue) (msc : Bool) (s : State) (bs : List (Nat × Addr)) : State :=
  bs.foldl (fun s p => (addReq s { Req.blank s x.w (.pref msc) with
    blk := p.1, wid' := .b16, stage := stageOf s (128 * p.1),
    accs := (List.range 8).map fun i => ⟨0, p.2, 128 * p.1 + 16 * i, [], [], 0, false⟩ }).2) s

theorem prefAsk_keeps (x : Issue) (msc : Bool) (s : State) (bs : List (Nat × Addr)) : KeepsUnits s (prefAsk x msc s bs) :=
  KeepsUnits.foldl (fun _ _ => addReq_keeps ..) bs s

theorem prefBody_eq (a : Operand) (m : MemExt) (x : Issue) (s : State) :
    prefBody a m x s =
      let r := prefBlocks s x.w (addrs s x a m.off)
      let bs := r.1.filter fun p => m.opx != 0 || !prefHeld r.2 (cuOf x.gid) p.1
      if !tableRoom r.2 x.w bs.length then .done r.2 else .done (prefAsk x (m.opx != 0) r.2 bs) := rfl

/-- pref completes, and changes no warp, group or CU. -/
theorem prefBody_keeps (a : Operand) (m : MemExt) (x : Issue) (s : State) :
    ∃ t, prefBody a m x s = .done t ∧ KeepsUnits s t := by
  have h := prefBlocks_keeps s x.w (addrs s x a m.off)
  rw [prefBody_eq]
  dsimp only
  split
  · exact ⟨_, rfl, h⟩
  · exact ⟨_, rfl, h.trans (prefAsk_keeps ..)⟩

theorem prefBlocks_one {s t : State} {w : WarpId} {l : Nat} {va : Addr} {blk : Nat} (h : prefBlock s w va = (some blk, t)) :
    prefBlocks s w [(l, va)] = ([(blk, va)], t) := by
  simp only [prefBlocks, List.foldl_cons, List.foldl_nil, h]
  rfl

theorem prefBlocks_none {s t : State} {w : WarpId} {l : Nat} {va : Addr} (h : prefBlock s w va = (none, t)) :
    prefBlocks s w [(l, va)] = ([], t) := by
  simp only [prefBlocks, List.foldl_cons, List.foldl_nil, h]

/-- The one block of one lane is asked for where the table has room and the CU does not hold it. -/
theorem prefBody_asks {a : Operand} {m : MemExt} {x : Issue} {s t : State} {l : Nat} {va : Addr} {blk : Nat}
    (ha : addrs s x a m.off = [(l, va)]) (hb : prefBlock s x.w va = (some blk, t))
    (hneed : m.opx ≠ 0 ∨ prefHeld t (cuOf x.gid) blk = false) (hroom : tableRoom t x.w 1 = true) :
    prefBody a m x s = .done (prefAsk x (m.opx != 0) t [(blk, va)]) := by
  have hneed' : (m.opx != 0 || !prefHeld t (cuOf x.gid) blk) = true := by
    rcases hneed with h | h
    · rw [bne_iff_ne.mpr h, Bool.true_or]
    · rw [h, Bool.not_false, Bool.or_true]
  rw [prefBody_eq, ha, prefBlocks_one hb]
  simp only [List.filter_cons, hneed', if_true, List.filter_nil, List.length_singleton, hroom, Bool.not_true, Bool.false_eq_true,
    if_false]

/-- One that the CU holds, or for which there is no room, is not. -/
theorem prefBody_drops {a : Operand} {m : MemExt} {x : Issue} {s t : State} {l : Nat} {va : Addr} {blk : Nat}
    (ha : addrs s x a m.off = [(l, va)]) (hb : prefBlock s x.w va = (some blk, t))
    (hno : m.opx = 0 ∧ prefHeld t (cuOf x.gid) blk = true ∨ tableRoom t x.w 1 = false) : prefBody a m x s = .done t := by
  rw [prefBody_eq, ha, prefBlocks_one hb]
  by_cases hneed : (m.opx != 0 || !prefHeld t (cuOf x.gid) blk) = true
  · have hroom : tableRoom t x.w 1 = false := by
      rcases hno with ⟨h0, hh⟩ | h
      · simp [h0, hh] at hneed
      · exact h
    simp only [List.filter_cons, hneed, if_true, List.filter_nil, List.length_singleton, hroom, Bool.not_false]
  · simp only [List.filter_cons, hneed, if_false, List.filter_nil, Bool.false_eq_true]
    split <;> rfl

/-- Settles O20: every lane may act, so that nothing is held, logged or faulted; pref is a fold over its lanes that keeps warps,
groups and CUs. -/
theorem globalLoadsStores : Obligations.GlobalLoadsStores := by
  intro p sx d a b m gs t
  refine ⟨?_, fun h0 => completes_of_body (fun _ => rfl) fun s x _ ⟨hback, hj, hroom⟩ => ?_,
    completes_of_body (fun _ => rfl) fun s x _ ⟨hback, hrel, hj, hroom⟩ => storeBody_good hback hrel hj hroom,
    completes_of_body (fun _ => rfl) fun s x _ ⟨hback, hrel, hj, hroom⟩ => storeBody_good (upd := true) hback hrel hj hroom,
    fun s x hx => ?_, fun l va blk => ⟨completes_of_body (fun _ => rfl) fun s x _ ⟨ha, hb, hneed, hroom⟩ =>
      prefBody_asks ha hb hneed hroom,
      completes_of_body (fun _ => rfl) fun s x _ ⟨ha, hb, hno⟩ => prefBody_drops ha hb hno,
      completes_of_body (fun _ => rfl) fun s x _ ⟨ha, hb⟩ => ?_⟩⟩
  · intro kind
    refine completes_of_body (fun _ => rfl) fun s x _ ⟨hback, hj, hroom⟩ => ?_
    refine loadBody_good (upd := false) hback ?_ ?_ hroom
    · rw [judged] at hj
      simpa only [bne_iff_ne, Bool.false_eq_true, if_false] using hj
    · simp only [kind, bne_iff_ne]
  · have hz : (m.opx.toNat != 0) = false := by rw [h0]; rfl
    refine loadBody_good (upd := true) hback ?_ ?_ hroom
    · simp only [hz]
      exact hj
    · simp only [hz, Bool.false_eq_true, if_false]
  · obtain ⟨u, hu, hk⟩ := prefBody_keeps a m x s
    exact ⟨u, exec_of_ok rfl hx hu, hk⟩
  · rw [prefBody_eq, ha, prefBlocks_none hb]
    dsimp only
    split <;> rfl

end Sys2Proof.Machine
end

section
/-! SUPPORT. What writes behind the homes can change; scratchpads and full/empty words. -/

namespace Sys2Proof.Machine

open Sys2Proof Claims

/-! ### What writes behind the homes can change -/

/-- Two states that differ in nothing but what commits, write-backs and dropped copies touch: memory, copies, triggers and their
regions, pending traps of warps, logs, and the stage of requests. -/
def CommitOnly (s t : State) : Prop :=
  t = { s with warps := t.warps, mem := t.mem, cus := t.cus, regions := t.regions, trigs := t.trigs, seq := t.seq, sup := t.sup,
               dbg := t.dbg, reqs := t.reqs }

namespace CommitOnly

variable {s t u : State}

theorem refl (s : State) : CommitOnly s s := rfl

theorem trans (h : CommitOnly s t) (h' : CommitOnly t u) : CommitOnly s u := by
  rw [CommitOnly] at h h' ⊢
  rw [h'.trans (by rw [h])]

theorem groups (h : CommitOnly s t) : t.groups = s.groups := (congrArg State.groups h :)

theorem group? (h : CommitOnly s t) (g : GroupId) : t.group? g = s.group? g := by
  rw [State.group?, State.group?, h.groups]

theorem foldl {α : Type} {f : State → α → State} (h : ∀ s a, CommitOnly s (f s a)) (l : List α) (s : State) :
    CommitOnly s (l.foldl f s) :=
  foldl_keeps (P := CommitOnly s) l (fun t ht a => ht.trans (h t a)) (refl s)

end CommitOnly

theorem MemOnly.commitOnly {s t : State} (h : MemOnly s t) : CommitOnly s t := by
  rw [MemOnly] at h
  rw [h]
  exact CommitOnly.refl _

theorem MemOnly.ite {s t u : State} {p : Prop} [Decidable p] (ht : MemOnly s t) (hu : MemOnly s u) :
    MemOnly s (if p then t else u) := by
  split
  · exact ht
  · exact hu

theorem violate_commitOnly (s : State) (kind cause : Nat) (tag : Tag) (addr src : Nat) :
    CommitOnly s (violate s kind cause tag addr src) := by
  rw [violate]
  rfl

theorem logMerged_commitOnly (s : State) (w : WarpId) (a : Async) : CommitOnly s (logMerged s w a) := by
  unfold logMerged
  split
  · exact CommitOnly.refl s
  · split
    · exact CommitOnly.refl s
    · split
      · exact violate_commitOnly ..
      · exact CommitOnly.refl s

theorem addAsync_commitOnly (s : State) (w : WarpId) (a : Async) : CommitOnly s (addAsync s w a) :=
  (logMerged_commitOnly s w a).trans rfl

theorem cascadeLog_commitOnly (s : State) (gran : Addr) (depth : Nat) (notrap : Bool) :
    CommitOnly s (cascadeLog s gran depth notrap) :=
  (rawWriteNat_memOnly ..).commitOnly.trans (rawWriteNat_memOnly ..).commitOnly

theorem setSpillBit_commitOnly (s : State) (r : Region) (gran : Addr) (unit : Nat) (b : Bool) :
    CommitOnly s (setSpillBit s r gran unit b) := by
  unfold setSpillBit
  split
  · exact CommitOnly.refl s
  · exact (rawRecall_memOnly ..).commitOnly.trans (setHomeByte_memOnly ..).commitOnly

theorem changed_commitOnly (s : State) (r : Nat) (g : Region) (gran : Addr) (gpa : Nat) (wr : Writer) :
    CommitOnly s (changed s r g gran gpa wr) := by
  unfold changed
  split
  · dsimp only
    split
    · exact (cascadeLog_commitOnly ..).trans (addAsync_commitOnly ..)
    · exact cascadeLog_commitOnly ..
  · dsimp only
    split
    · split <;> rfl
    · split
      · refine CommitOnly.trans ?_ (setSpillBit_commitOnly ..)
        rfl
      · rfl

theorem note_commitOnly (s : State) (ws : List Nat) : CommitOnly s (note s ws) := rfl

theorem traceCommit_commitOnly (s : State) (bs : Bytes) (wr : Writer) (s' : State) : CommitOnly s' (traceCommit s bs wr s') := by
  unfold traceCommit
  split
  · exact CommitOnly.refl s'
  · refine CommitOnly.foldl (fun t q => ?_) _ s'
    dsimp only
    split
    · exact CommitOnly.refl t
    · exact note_commitOnly ..

theorem commitOver_commitOnly (n : Nat) (old s : State) (bs : Bytes) (wr : Writer) : CommitOnly s (commitOver n old s bs wr) := by
  induction n generalizing old s bs wr with
  | zero => exact CommitOnly.refl s
  | succ n ih =>
    unfold commitOver
    refine CommitOnly.trans (CommitOnly.foldl (fun u h => ?_) _ s) (traceCommit_commitOnly ..)
    dsimp only
    split
    · split
      · split
        · exact (changed_commitOnly ..).trans (ih ..)
        · exact changed_commitOnly ..
      · exact changed_commitOnly ..
    · exact CommitOnly.refl u

theorem setPoison_memOnly (s : State) (k : Nat) (b : Bool) : MemOnly s (s.setPoison k b) := rfl

theorem homeWrite_memOnly (s : State) (bs : Bytes) (tag : Option (BitVec 3)) : MemOnly s (homeWrite s bs tag) := by
  unfold homeWrite
  refine MemOnly.trans ?_ (MemOnly.foldl (fun u k => setPoison_memOnly u k false) _ _)
  have hbytes : MemOnly s (bs.foldl (fun s e => setHomeByte s e.1 e.2) s) := MemOnly.foldl (fun u e => setHomeByte_memOnly ..) _ s
  cases tag with
  | none => exact hbytes
  | some t => exact hbytes.trans (MemOnly.foldl (fun u w => setRelTag_memOnly ..) _ _)

theorem commit_commitOnly (s : State) (bs : Bytes) (tag : Option (BitVec 3)) (wr : Writer) : CommitOnly s (commit s bs tag wr) :=
  (homeWrite_memOnly s bs tag).commitOnly.trans (commitOver_commitOnly ..)

theorem carryMark_memOnly (s : State) (c : CuId) (w : Nat) (x : L1Word) : MemOnly s (carryMark s c w x) := by
  unfold carryMark
  split
  · exact setPoison_memOnly ..
  · split
    · exact setPoison_memOnly ..
    · exact MemOnly.refl s

theorem setL1_memOnly (s : State) (c : CuId) (w : Nat) (x : L1Word) : MemOnly s (s.setL1 c w x) := rfl

theorem writeBackWord_commitOnly (s : State) (c : CuId) (w : Nat) : CommitOnly s (writeBackWord s c w) := by
  unfold writeBackWord
  split
  · exact CommitOnly.refl s
  · split
    · exact CommitOnly.refl s
    · exact ((carryMark_memOnly ..).commitOnly.trans (commit_commitOnly ..)).trans (setL1_memOnly ..).commitOnly

theorem addSharer_memOnly (s : State) (w : Nat) (c : CuId) : MemOnly s (addSharer s w c) := by
  unfold addSharer
  exact MemOnly.ite (setDir_memOnly ..) (MemOnly.trans (setDir_memOnly ..) rfl)

theorem recallWord_commitOnly (s : State) (w : Nat) (clean : Bool) : CommitOnly s (recallWord s w clean) := by
  unfold recallWord
  dsimp only
  split
  · exact CommitOnly.refl s
  · split
    · exact CommitOnly.refl s
    · split
      · rename_i c _ _ _
        refine (writeBackWord_commitOnly s c w).trans (CommitOnly.trans ?_ (addSharer_memOnly ..).commitOnly)
        split <;> rfl
      · rename_i c _ _ _
        exact (writeBackWord_commitOnly s c w).trans rfl

theorem invalidateWord_memOnly (s : State) (w : Nat) (keep : Option CuId) : MemOnly s (invalidateWord s w keep) :=
  (MemOnly.foldl (fun u c => dropL1_memOnly u c w) _ s).trans (setDir_memOnly ..)

theorem proxDrop_commitOnly (s : State) (w : Nat) : CommitOnly s (proxDrop s w) := by
  unfold proxDrop
  split
  · exact CommitOnly.refl s
  · exact ((recallWord_commitOnly ..).trans (invalidateWord_memOnly ..).commitOnly).trans rfl

theorem dropSi_commitOnly (s : State) (c : CuId) : CommitOnly s (dropSi s c) :=
  CommitOnly.trans (t := s.modCu c fun u => { u with l1 := sFilter u.l1 fun _ x => x.st != .si || x.sm }) rfl
    (CommitOnly.foldl proxDrop_commitOnly _ _)

theorem dropAt_commitOnly (s : State) (w : WarpId) : CommitOnly s (dropAt s w) := (dropSi_commitOnly s _).trans rfl

/-- Two folds agree where their steps agree on every state that has a property which the steps keep. -/
theorem foldl_congr_inv {α β : Type} {P : β → Prop} {f g : β → α → β} (l : List α)
    (hstep : ∀ b, P b → ∀ a ∈ l, f b a = g b a ∧ P (g b a)) {b : β} (hb : P b) : l.foldl f b = l.foldl g b := by
  induction l generalizing b with
  | nil => rfl
  | cons a l ih =>
    obtain ⟨heq, hP⟩ := hstep b hb a (by simp)
    rw [List.foldl_cons, List.foldl_cons, heq]
    exact ih (fun c hc e he => hstep c hc e (by simp [he])) hP

/-! ### Scratchpad loads and stores (R152, R153) -/

section

variable (s : State) (h : GroupId) (g : Group) (n o l : Nat)

/-- Judging one offset, by its alignment and its place in the window. -/
theorem judgePad_unaligned (ho : o % n ≠ 0) :
    judgePad s (some h) n [(l, o)] = ⟨[], [⟨l, 0x04, BitVec.ofNat 64 o, none⟩], [], false⟩ := by
  simp [judgePad, Judged.none, ho]

variable {s h g}

theorem judgePad_outside (hg : s.group? h = some g) (ho : o % n = 0) (hs : g.winSize ≤ o) :
    judgePad s (some h) n [(l, o)] = ⟨[], [⟨l, 0x11, BitVec.ofNat 64 o, none⟩], [], false⟩ := by
  simp [judgePad, Judged.none, ho, hg, hs]

theorem judgePad_inside (hg : s.group? h = some g) (ho : o % n = 0) (hs : o < g.winSize) :
    judgePad s (some h) n [(l, o)] = ⟨[⟨l, BitVec.ofNat 64 o, o, false, false⟩], [], [], false⟩ := by
  rw [judgePad_good hg (by simpa using ⟨ho, hs⟩)]
  rfl

end

/-- A loaded value changes no group. -/
theorem putLoaded_groups (s : State) (w : WarpId) (d : Operand) (l n : Nat) (sx : Bool) (bs : List Byte) :
    (putLoaded s w d l n sx bs).groups = s.groups := rfl

section

variable {s : State} {x : Issue} {m : MemExt} {h : GroupId} {gs : List Good}

/-- lds where every lane lies in the window and no byte is marked. -/
theorem ldsBody_good {sx : Bool} {d a : Operand} {gr : Group} (hd : d.isChan = false) (hback : heldBack s x.w false = false)
    (hin : inWindow s x m h m.wid.bytes (offs s x a m.off) gs) (hg : s.group? h = some gr)
    (hbad : ∀ e ∈ gs, gr.padBad e.pa m.wid.bytes = false) :
    ldsBody sx d a m x s = .done (gs.foldl (fun u e => putLoaded u x.w d e.lane m.wid.bytes sx
      (((s.group? h).map fun g => g.bytes e.pa m.wid.bytes).getD []))
      (if m.ord = .acq ∧ padScope m = .cl then dropAt s x.w else s)) := by
  obtain ⟨hwin, hdead, hj⟩ := hin
  simp only [ldsBody, hback, hwin, hdead, hj, hd, Bool.false_and, Bool.false_eq_true, if_false]
  have hcond : (if (m.ord == .acq && padScope m == .cl) = true then dropAt s x.w else s)
      = if m.ord = .acq ∧ padScope m = .cl then dropAt s x.w else s := by
    simp only [Bool.and_eq_true, beq_iff_eq]
  rw [hcond]
  congr 1
  have h0 : (if m.ord = .acq ∧ padScope m = .cl then dropAt s x.w else s).group? h = some gr := by
    split
    · rw [(dropAt_commitOnly s x.w).group?, hg]
    · exact hg
  refine foldl_congr_inv (P := fun u : State => u.group? h = some gr) gs (fun u hu e he => ⟨?_, ?_⟩) h0
  · cases d with
    | ch c pk => cases hd
    | v k => simp only [hu, hg, hbad e he, Bool.false_eq_true, if_false, Option.map_some, Option.getD_some]
    | s k => simp only [hu, hg, hbad e he, Bool.false_eq_true, if_false, Option.map_some, Option.getD_some]
    | p k => simp only [hu, hg, hbad e he, Bool.false_eq_true, if_false, Option.map_some, Option.getD_some]
    | sp k => simp only [hu, hg, hbad e he, Bool.false_eq_true, if_false, Option.map_some, Option.getD_some]
    | imm => simp only [hu, hg, hbad e he, Bool.false_eq_true, if_false, Option.map_some, Option.getD_some]
  · rw [State.group?, putLoaded_groups]
    exact hu

/-- sts where every lane lies in the window and its release has nothing left to wait for. -/
theorem stsBody_good {a b : Operand} (hback : heldBack s x.w false = false)
    (hrel : m.ord = .rel → openReq s x.w = false ∧ releaseReady s x.w (padScope m) = true)
    (hin : inWindow s x m h m.wid.bytes (offs s x a m.off) gs) (hheld : anyHeld s h m.wid.bytes gs = false)
    (hdead : windowDead (storeData (padReleased s x m) x b m.wid.bytes).2 x.gid h = false) :
    stsBody a b m x s = .done
      ((withData x gs (storeData (padReleased s x m) x b m.wid.bytes).1).foldl (fun u e => padWrite u h e.1.pa e.2)
        (storeData (padReleased s x m) x b m.wid.bytes).2) := by
  obtain ⟨hwin, -, hj⟩ := hin
  have hopen : (m.ord == .rel && openReq s x.w) = false := by
    rw [Bool.and_eq_false_imp]
    exact fun ho => (hrel (beq_iff_eq.mp ho)).1
  have hready : (m.ord == .rel && !releaseReady s x.w (padScope m)) = false := by
    rw [Bool.and_eq_false_imp]
    exact fun ho => by rw [(hrel (beq_iff_eq.mp ho)).2, Bool.not_true]
  have hpad : (if (m.ord == .rel) = true then releaseAt s x.w (padScope m) else s) = padReleased s x m := by
    simp only [padReleased, beq_iff_eq]
  simp only [stsBody, hback, hopen, hready, hwin, hj, hheld, List.isEmpty_nil, Bool.not_true, Bool.and_false, Bool.or_self,
    Bool.false_eq_true, if_false]
  rw [hpad, hdead]
  rfl

end

/-- Settles O21: every lane acts at once in the window that holds it; one offset is judged by its alignment and its place. -/
theorem scratchpadLoadsStores : Obligations.ScratchpadLoadsStores := by
  refine ⟨fun p sx d a b m h gs => ⟨fun hd => completes_of_body (fun _ => rfl) fun s x _ ⟨hback, hin, ⟨gr, hg⟩, hbad⟩ =>
      ldsBody_good hd hback hin hg (hbad gr hg),
    completes_of_body (fun _ => rfl) fun s x _ ⟨hback, hrel, hin, hheld, hdead⟩ => stsBody_good hback hrel hin hheld hdead⟩,
    fun s h g n o l hg _ => ⟨judgePad_unaligned s h n o l, judgePad_outside n o l hg, judgePad_inside n o l hg⟩⟩

/-! ### Full/empty words (R155 to R158) -/

/-- The lanes of a full/empty instruction on words of window `h`: a scalar form acts once (log 46), else each acts in turn. -/
def feLanes (op : FeOp) (d : Option Operand) (m : MemExt) (h : GroupId) (gs : List Good) (x : Issue) (s : State)
    (v : Good → Word) : State × List Nat :=
  match x.scalar, gs with
  | true, [] => (s, [])
  | true, g :: _ => feScalar op x.w h d s ((lanesOf x.exec).map fun l => { g with lane := l }) (padTrapAddr m g.va) (v g)
  | false, _ => (gs.map fun g => (g, v g)).foldl (fun r e =>
      let q := feLane op x.w h d r.1 e.1 (padTrapAddr m e.1.va) e.2
      (q.1, if q.2 then e.1.lane :: r.2 else r.2)) (s, [])

/-- The word that a store takes for a lane. -/
def feData (b : Option Operand) (x : Issue) (s : State) (l : Nat) : Word :=
  match b, s.warp? x.w with
  | some o, some wp => loWord (srcLane s x wp o 1 l)
  | _, _ => 0

section

variable {s : State} {x : Issue} {m : MemExt} {h : GroupId} {gs : List Good} {op : FeOp} {d b : Option Operand} {a : Operand}

/-- A full/empty instruction whose lanes all lie in the window, with nothing to wait for. -/
theorem feBody_good (hback : heldBack s x.w false = false) (hin : inWindow s x m h 4 (offs s x a m.off) gs)
    (hstore : op.isLoad = false → openReq s x.w = false ∧ anyHeld s h 4 gs = false
      ∧ releaseReady s x.w (if m.pv then .cl else .cu) = true)
    (hrep : x.rep = true → ∀ g ∈ gs, feLaneReady s op x.w h g = true) :
    feBody op d a b m x s =
      let t := if op.isLoad then dropAt s x.w else releaseAt s x.w (if m.pv then .cl else .cu)
      let r := feLanes op d m h gs x t fun g => feData b x t g.lane
      .ok r.1 [] [] (maskOf r.2) := by
  obtain ⟨hwin, hdead, hj⟩ := hin
  have hopen : (!op.isLoad && openReq s x.w) = false := by
    rw [Bool.and_eq_false_imp, Bool.not_eq_true']
    exact fun ho => (hstore ho).1
  have hready : (!op.isLoad && !releaseReady s x.w (if m.pv then .cl else .cu)) = false := by
    rw [Bool.and_eq_false_imp, Bool.not_eq_true']
    exact fun ho => by rw [(hstore ho).2.2, Bool.not_true]
  have hheld : (!op.isLoad && anyHeld s h 4 gs) = false := by
    rw [Bool.and_eq_false_imp, Bool.not_eq_true']
    exact fun ho => (hstore ho).2.1
  have hpark : (x.rep && gs.any fun g => !feLaneReady s op x.w h g) = false := by
    rw [Bool.and_eq_false_imp]
    refine fun hr => List.any_eq_false.mpr fun g hg => ?_
    rw [hrep hr g hg]
    exact Bool.false_ne_true
  rw [feBody, hback, hopen, if_neg (by exact Bool.false_ne_true), hready, if_neg Bool.false_ne_true, hwin]
  show (if (windowDead s x.gid h && op.isLoad) = true then _ else _) = _
  rw [hj, hdead]
  dsimp only
  rw [Bool.false_and, if_neg Bool.false_ne_true, if_neg Bool.false_ne_true, hheld, if_neg Bool.false_ne_true, hpark,
    if_neg Bool.false_ne_true]
  cases hs : x.scalar with
  | false => simp only [feLanes, hs, Bool.false_eq_true, if_false]; rfl
  | true =>
    cases gs with
    | nil => simp only [feLanes, hs, if_true]; rfl
    | cons g gs => simp only [feLanes, hs, if_true]; rfl

end

theorem feData_store (b : Operand) (x : Issue) (s : State) (l : Nat) {w : Warp} (hw : s.warp? x.w = some w) :
    feData (some b) x s l = (srcLane s x w b 1 l).setWidth 32 := by
  simp only [feData, hw, loWord_eq_setWidth]

theorem feData_store_none (b : Operand) (x : Issue) (s : State) (l : Nat) (hw : s.warp? x.w = none) :
    feData (some b) x s l = 0 := by
  simp only [feData, hw]

/-- Setting words full or empty in the lanes that name words of the window. -/
theorem fesetBody_good {v : Bool} {a b : Operand} {m : MemExt} {x : Issue} {s : State} {h : GroupId} {g : Group} {wp : Warp}
    (hback : heldBack s x.w false = false) (hw : s.warp? x.w = some wp) (hwin : windowOf s x.gid m.pv m.peer.toNat = some h)
    (hg : s.group? h = some g) (hdead : windowDead s x.gid h = false)
    (hok : ∀ e ∈ offs s x a m.off, e.2 % 4 = 0 ∧ 1 ≤ ((srcLane s x wp b 1 e.1).setWidth 32).toNat
      ∧ e.2 + 4 * ((srcLane s x wp b 1 e.1).setWidth 32).toNat ≤ g.winSize
      ∧ g.isHeld e.2 (4 * ((srcLane s x wp b 1 e.1).setWidth 32).toNat) = false) :
    fesetBody v a b m x s = .done ((offs s x a m.off).foldl (fun u e =>
      (List.range ((srcLane s x wp b 1 e.1).setWidth 32).toNat).foldl (fun u i => setFull u h (e.2 + 4 * i) v) u) s) := by
  have hos : ((offs s x a m.off).filter fun e => ((srcLane s x wp b 1 e.1).setWidth 32).toNat != 0 || e.2 % 4 != 0 || false)
      = offs s x a m.off := by
    rw [List.filter_eq_self]
    intro e he
    have hone := (hok e he).2.1
    rw [bne_iff_ne.mpr (by omega), Bool.true_or, Bool.true_or]
  have hbad : ((offs s x a m.off).filterMap fun e =>
      if e.2 % 4 != 0 then some (⟨e.1, 0x04, BitVec.ofNat 64 e.2, none⟩ : LFault)
      else if false || decide (g.winSize < e.2 + 4 * ((srcLane s x wp b 1 e.1).setWidth 32).toNat) then
        some ⟨e.1, 0x11, BitVec.ofNat 64 e.2, none⟩ else none) = [] := by
    rw [List.filterMap_eq_nil_iff]
    intro e he
    obtain ⟨h4, -, hsize, -⟩ := hok e he
    rw [if_neg (by simpa using h4), if_neg (by simpa using hsize)]
  have hheld : ((offs s x a m.off).any fun e => g.isHeld e.2 (4 * ((srcLane s x wp b 1 e.1).setWidth 32).toNat)) = false := by
    rw [List.any_eq_false]
    intro e he
    rw [(hok e he).2.2.2]
    exact Bool.false_ne_true
  simp only [fesetBody, hback, hwin, hw, hg, hdead, loWord_eq_setWidth, Option.bind_some, Option.isNone_some, Bool.false_eq_true,
    if_false]
  rw [hos, hbad]
  simp only [List.any_nil, Bool.not_false, List.filter_true, hheld, Bool.false_eq_true, if_false]
  rfl

/-! ### A lane parks (R155 to R157) -/

/-- The warp is there, with a number of lanes. -/
def HasLanes (w : WarpId) (n : Nat) (s : State) : Prop := ∃ y, s.warp? w = some y ∧ y.lanes.length = n

theorem setSt_length (x : Warp) (m : Mask) (t : LaneSt) : (x.setSt m t).lanes.length = x.lanes.length := List.length_mapIdx

theorem wake_length (x : Warp) (l : Nat) : (x.wake l).lanes.length = x.lanes.length := by
  unfold Warp.wake
  split
  · rfl
  · exact setSt_length ..

theorem HasLanes.modWarp {w : WarpId} {n : Nat} {s : State} (h : HasLanes w n s) (v : WarpId) {f : Warp → Warp}
    (hf : ∀ x, (f x).lanes.length = x.lanes.length) : HasLanes w n (s.modWarp v f) := by
  obtain ⟨y, hy, hn⟩ := h
  by_cases hv : v = w
  · subst hv
    exact ⟨f y, by rw [State.warp?_modWarp, if_pos rfl, hy]; rfl, (hf y).trans hn⟩
  · exact ⟨y, by rw [State.warp?_modWarp, if_neg hv, hy], hn⟩

theorem HasLanes.serve {w : WarpId} {n : Nat} {s : State} (h : HasLanes w n s) (g : GroupId) (off : Nat) :
    HasLanes w n (serve s g off) := by
  unfold Machine.serve
  split
  · exact h
  · dsimp only
    split
    · exact h
    · split
      · exact h
      · exact HasLanes.modWarp (s := s.setCu _ _) h _ fun x => wake_length x _

theorem HasLanes.dropWaiters {w : WarpId} {n : Nat} {s : State} (h : HasLanes w n s) (f : Waiter → Bool) :
    HasLanes w n (dropWaiters s f) := by
  refine foldl_keeps s.cus (fun u hu e => ?_) h
  dsimp only
  split
  · exact hu
  · refine foldl_keeps _ (fun v hv q => ?_) hu
    split
    · exact hv.serve ..
    · exact hv

/-- The lane `l` of a warp waits at a full/empty word. -/
def Parked (w : WarpId) (l : Nat) (s : State) : Prop := ∃ y e, s.warp? w = some y ∧ y.lanes[l]? = some e ∧ e.st = .fe

/-- A lane of a warp that is there is put into the waiting state, and its excursion ends. -/
theorem parked_of_hasLanes {s : State} {w : WarpId} {n l : Nat} (h : HasLanes w n s) (hl : l < n) (h64 : l < 64) :
    Parked w l (s.modWarp w fun x =>
      let x := x.setSt ((1 : Mask) <<< l) .fe
      if bit x.exc l then endExcursion x else x) := by
  obtain ⟨y, hy, hn⟩ := h
  have hbit : bit ((1 : Mask) <<< l) l = true := by
    rw [bit, BitVec.getLsbD_shiftLeft, Nat.sub_self]
    simp [h64]
  have hlane : (y.setSt ((1 : Mask) <<< l) .fe).lanes[l]? = some { y.lanes[l]'(hn ▸ hl) with st := .fe } := by
    show (y.lanes.mapIdx _)[l]? = _
    rw [List.getElem?_mapIdx, List.getElem?_eq_getElem (hn ▸ hl), Option.map_some, if_pos hbit]
  refine ⟨_, { y.lanes[l]'(hn ▸ hl) with st := .fe }, by rw [State.warp?_modWarp, if_pos rfl, hy]; rfl, ?_, rfl⟩
  dsimp only
  split
  · exact hlane
  · exact hlane

theorem HasLanes.setCu {w : WarpId} {n : Nat} {s : State} (h : HasLanes w n s) (c : CuId) (u : CU) :
    HasLanes w n (s.setCu c u) := h

/-- A lane that parks waits at its full/empty word. -/
theorem parkFe_parks {s : State} {w : WarpId} {n : Nat} (h : HasLanes w n s) (c : CuId) {l : Nat} (hl : l < n) (h64 : l < 64)
    (key : Nat) (f : Bool) : Parked w l (parkFe s c w l key f) := by
  have hd := h.dropWaiters fun x => x.wid == w && x.lane == l && !(x.word == key && x.full == f)
  refine parked_of_hasLanes ?_ hl h64
  split
  · dsimp only
    split
    · exact hd.setCu ..
    · exact hd.setCu ..
  · exact hd.setCu ..

section

variable {op : FeOp} {s : State} {w : WarpId} {h : GroupId} {g : Group} {d : Option Operand} {e : Good} (at_ : Addr) (v : Word)
  (hg : s.group? h = some g)
include hg

theorem feLane_store (hr : feReady (s.cu (cuOf h)) g w e.lane (wordKey h e.pa) e.pa op.waits = true) (hl : op.isLoad = false) :
    feLane op w h d s e at_ v =
      (setFull (padWrite (leaveQueue s w e.lane (wordKey h e.pa)) h e.pa (bytesOf v.toNat 4)) h e.pa true, false) := by
  have hop : (op != .ldfe) = true := by
    rw [bne_iff_ne]
    rintro rfl
    cases hl
  simp only [feLane, hg, hr, hl, hop, if_true, Bool.false_eq_true, if_false]

theorem feLane_load {o : Operand} (hr : feReady (s.cu (cuOf h)) g w e.lane (wordKey h e.pa) e.pa op.waits = true)
    (hl : op.isLoad = true) (hd : d = some o) (hbad : g.padBad e.pa 4 = false) :
    feLane op w h d s e at_ v =
      (setFull (putLoaded (leaveQueue s w e.lane (wordKey h e.pa)) w o e.lane 4 false (g.bytes e.pa 4)) h e.pa
        (op != .ldfe), false) := by
  simp only [feLane, hg, hr, hl, hd, hbad, if_true, Bool.false_eq_true, if_false]

theorem feLane_parks (hr : feReady (s.cu (cuOf h)) g w e.lane (wordKey h e.pa) e.pa op.waits = false) :
    feLane op w h d s e at_ v = (parkFe s (cuOf h) w e.lane (wordKey h e.pa) ((op.waits).getD true), true) := by
  simp only [feLane, hg, hr, Bool.false_eq_true, if_false]

end

/-- Settles O22: the lanes' fold is the model's, since no lane faults; a lane that is not ready parks. -/
theorem fullEmptyWords : Obligations.FullEmptyWords := by
  refine ⟨⟨fun p d a b m h gs => ?_, fun p v a b m h g wp => ?_⟩, fun s w h g d e at_ v hg => ⟨?_, ?_, ?_⟩⟩
  · intro ok lanes data load store
    have hload (op : FeOp) (hop : op.isLoad = true) (s : State) (x : Issue) (hok : ok op s x) :
        feBody op (some d) a none m x s = .ok (load op s x).1 [] [] (maskOf (load op s x).2) := by
      obtain ⟨hback, hin, hst, hrep⟩ := hok
      rw [feBody_good hback hin hst hrep, hop]
      rfl
    have hstore (op : FeOp) (hop : op.isLoad = false) (s : State) (x : Issue) (hok : ok op s x) :
        feBody op none a (some b) m x s = .ok (store op s x).1 [] [] (maskOf (store op s x).2) := by
      obtain ⟨hback, hin, hst, hrep⟩ := hok
      have hdata : (fun g : Good => feData (some b) x (releaseAt s x.w (if m.pv then .cl else .cu)) g.lane)
          = data (releaseAt s x.w (if m.pv then .cl else .cu)) x := by
        funext g
        cases hw : (releaseAt s x.w (if m.pv then .cl else .cu)).warp? x.w with
        | none => simp only [data, hw, feData_store_none b x _ _ hw]
        | some w => simp only [data, hw, feData_store b x _ _ hw]
      rw [feBody_good hback hin hst hrep, hop]
      simp only [Bool.false_eq_true, if_false, hdata]
      rfl
    exact ⟨completesAt_of_body (fun _ => rfl) fun s x _ hok => hload .ldfe rfl s x hok,
      completesAt_of_body (fun _ => rfl) fun s x _ hok => hload .ldff rfl s x hok,
      completesAt_of_body (fun _ => rfl) fun s x _ hok => hstore .stfe rfl s x hok,
      completesAt_of_body (fun _ => rfl) fun s x _ hok => hstore .stff rfl s x hok⟩
  · exact completes_of_body (fun _ => rfl) fun s x _ ⟨hback, hw, hwin, hg, hdead, hok⟩ =>
      fesetBody_good hback hw hwin hg hdead hok
  · exact fun op hr hl => feLane_store at_ v hg hr hl
  · exact fun op o hr hl hd hbad => feLane_load at_ v hg hr hl hd hbad
  · intro op hr
    rw [feLane_parks at_ v hg hr]
    refine ⟨rfl, fun x hx hw h64 => ?_⟩
    obtain ⟨y, l, hy, hl, hst⟩ := parkFe_parks (n := x.width) ⟨x, hx, rfl⟩ (cuOf h) hw h64 (wordKey h e.pa) ((op.waits).getD true)
    exact ⟨y, l, hy, hl, hst⟩

end Sys2Proof.Machine
end

section
/-! SUPPORT. Range operations, atomics and accumulation. -/

namespace Sys2Proof.Machine

open Sys2Proof Claims

/-! ### Range operations (R162, R163) -/

section

variable {kind : ReqKind} {a b : Operand} {m : MemExt} {x : Issue} {s : State} (hback : heldBack s x.w true = false)
include hback

theorem rangeBody_asks (hr : (rangeOf s x a b m.off).2 ≠ 0) (hroom : tableRoom s x.w 1 = true) :
    rangeBody kind a b m x s =
      .done (rangeReq s x kind (rangeOf s x a b m.off).1 (rangeOf s x a b m.off).2 m.scp) := by
  simp only [rangeBody, hback, beq_eq_false_iff_ne.mpr hr, hroom, Bool.not_true, Bool.false_eq_true, if_false]

theorem rangeBody_empty (hr : (rangeOf s x a b m.off).2 = 0) : rangeBody kind a b m x s = .done s := by
  simp only [rangeBody, hback, hr, beq_self_eq_true, if_true, Bool.false_eq_true, if_false]

end

/-- Settles O23: the five range operations have one body. -/
theorem rangeOperations : Obligations.RangeOperations := by
  intro p a b m range asks
  have hasks {i : Instr} {k : ReqKind} (hexec : ∀ s, exec i s = run i s (rangeBody k a b m)) : asks i k :=
    ⟨completes_of_body hexec fun s x _ ⟨hback, hr, hroom⟩ => rangeBody_asks hback hr hroom,
      completes_of_body hexec fun s x _ ⟨hback, hr⟩ => rangeBody_empty hback hr⟩
  refine ⟨hasks fun _ => rfl, hasks fun _ => rfl, hasks fun _ => rfl, hasks fun _ => rfl, hasks fun _ => rfl,
    completes_of_body (fun _ => rfl) fun s x _ hnone => ?_, fun s x hx ⟨e, he, hw, hk⟩ => exec_of_hold rfl hx ?_⟩
  · refine if_neg (ne_true_of_eq_false (List.any_eq_false.mpr fun e he => ?_))
    rw [Bool.not_eq_true, Bool.and_eq_false_imp, beq_iff_eq, beq_eq_false_iff_ne]
    exact hnone e he
  · exact if_pos (List.any_eq_true.mpr ⟨e, he, by rw [hw, hk, beq_self_eq_true, beq_self_eq_true]; rfl⟩)

/-! ### Atomics in global memory (R168 to R176) -/

section

variable {kind : ReqKind} {d c : Option Operand} {a b : Operand} {m : MemExt} {x : Issue} {s t : State} {gs : List Good}

/-- What an atomic's order asks for has happened (R169). -/
theorem not_releases_blocked {p q : Bool} (h : releases m = true → p = false ∧ q = true) :
    (releases m && p) = false ∧ (releases m && !q) = false := by
  cases hr : releases m with
  | false => exact ⟨rfl, rfl⟩
  | true =>
    obtain ⟨hp, hq⟩ := h hr
    rw [hp, hq]
    exact ⟨rfl, rfl⟩

/-- An atomic whose lanes may all act and whose blocks have room. -/
theorem globalAtom_good (hback : heldBack s x.w true = false)
    (hrel : releases m = true → anyReq s x.w = false ∧ releaseReady s x.w m.scp = true)
    (hj : judge s x.w .rmw m.wid.bytes (kind == .cas) (atomPost s kind m.wid.bytes) (addrs s x a m.off) =
      (⟨gs, [], [], false⟩, t))
    (hroom : tableRoom t x.w (blocksOf gs).length = true) :
    globalAtom kind d a b c m x s = .done ((blocksOf gs).foldl (fun u blk =>
        askBlock u x (atomReq u x kind d m
          ((gs.filter fun g => g.pa / 128 == blk).map fun g => ⟨g.lane, g.va, g.pa, laneBytes u x (some b) m.wid.bytes g.lane,
            laneBytes u x c m.wid.bytes g.lane, m.wid.regs, g.cow⟩) ((gs.filter fun g => g.pa / 128 == blk).any fun g =>
              g.sm) blk))
        (if releases m then releaseAt t x.w m.scp else t)) := by
  obtain ⟨hany, hready⟩ := not_releases_blocked hrel
  simp only [globalAtom, hback, hany, hready, Bool.or_self, Bool.false_eq_true, if_false]
  rw [hj]
  simp only [hroom, Bool.not_true, Bool.or_self, Bool.false_eq_true, if_false]
  rfl

end

/-- Settles O24: the three instructions have one body, which finds every lane ready to act. -/
theorem globalAtomics : Obligations.GlobalAtomics := by
  intro p d a b c m gs t rel ok asked
  exact ⟨completes_of_body (fun _ => rfl) fun s x _ ⟨hback, hrel, hj, hroom⟩ => globalAtom_good hback hrel hj hroom,
    completes_of_body (fun _ => rfl) fun s x _ ⟨hback, hrel, hj, hroom⟩ => globalAtom_good hback hrel hj hroom,
    completes_of_body (fun _ => rfl) fun s x _ ⟨hback, hrel, hj, hroom⟩ => globalAtom_good hback hrel hj hroom⟩

/-! ### Atomics in a scratchpad (R152, R153, R169) -/

/-- What the order of a scratchpad atomic asks for before the lanes act. -/
def padOrdered (m : MemExt) (x : Issue) (s : State) : State :=
  let r := if releases m then releaseAt s x.w (padScope m) else s
  if (m.ord == .acq || m.ord == .ar) && padScope m == .cl then dropAt r x.w else r

/-- The lanes of a scratchpad atomic act in turn; each notes the bytes that it found. -/
def padLanes (kind : ReqKind) (b : Operand) (c : Option Operand) (n : Nat) (x : Issue) (h : GroupId)
    (gs : List Good) (s : State) :
    State × List (Nat × List Byte) :=
  gs.foldl (fun r g => (padAtomLane kind b c n x h r.1 g,
    r.2 ++ [(g.lane, ((r.1.group? h).map fun gr => gr.bytes g.pa n).getD [])])) (s, [])

section

variable {kind : ReqKind} {c : Option Operand} {a b : Operand} {m : MemExt} {x : Issue} {s : State} {h : GroupId}
  {gs : List Good} {g : Group}
  (hback : heldBack s x.w false = false)
  (hrel : releases m = true → openReq s x.w = false ∧ releaseReady s x.w (padScope m) = true)
  (hin : inWindow s x m h m.wid.bytes (offs s x a m.off) gs) (hheld : anyHeld s h m.wid.bytes gs = false)
  (hg : (padOrdered m x s).group? h = some g) (hpoison : g.padPoison = [])
include hback hrel hin hheld hg hpoison

/-- A scratchpad atomic whose lanes all lie in a window without poison marks: they act in turn, and D, where there is
one, receives
what they found. -/
theorem padAtom_good (d : Option Operand) :
    padAtom kind d a b c m x s =
      match d with
      | some o =>
        let r := padLanes kind b c m.wid.bytes x h gs (markBad (padOrdered m x s) x.w o m.wid 0x30 (padOrdered m x s).tick [])
        .done (r.2.foldl (fun u e => putLoaded u x.w o e.1 m.wid.bytes false e.2) r.1)
      | none => .done (padLanes kind b c m.wid.bytes x h gs (padOrdered m x s)).1 := by
  obtain ⟨hwin, hdead, hj⟩ := hin
  obtain ⟨hopen, hready⟩ := not_releases_blocked hrel
  have hmarked (e : Good) : g.padBad e.pa m.wid.bytes = false := by rw [Group.padBad, hpoison, List.any_nil]
  have hord : (if ((m.ord == .acq || m.ord == .ar) && padScope m == .cl) = true then
      dropAt (if releases m = true then releaseAt s x.w (padScope m) else s) x.w
      else if releases m = true then releaseAt s x.w (padScope m) else s) = padOrdered m x s := rfl
  simp only [padAtom, hback, hopen, hready, hwin, hj, hdead, hheld, Bool.or_self, Bool.false_eq_true, if_false]
  rw [hord]
  generalize padOrdered m x s = u at hg ⊢
  rw [hg]
  simp only [hmarked, Bool.not_false, List.filter_true, List.filter_false, List.map_nil, storeRefused, List.foldl_nil]
  cases d with
  | some o =>
    generalize hr : List.foldl _ (markBad u x.w o m.wid 0x30 u.tick [], []) gs = r
    dsimp only
    rw [show padLanes kind b c m.wid.bytes x h gs (markBad u x.w o m.wid 0x30 u.tick []) = r by
      rw [← hr, padLanes]; congr 1; funext r e; cases r.1.group? h <;> rfl]
    rfl
  | none =>
    generalize hr : List.foldl _ (u, []) gs = r
    dsimp only
    rw [show padLanes kind b c m.wid.bytes x h gs u = r by
      rw [← hr, padLanes]; congr 1; funext r e; cases r.1.group? h <;> rfl]
    rfl

end

theorem ofBytes_lt (bs : List Byte) : ofBytes bs < 2 ^ (8 * bs.length) := by
  induction bs with
  | nil => simp [ofBytes]
  | cons b bs ih =>
    have hb : b.toNat < 2 ^ 8 := b.isLt
    have hpow : 2 ^ (8 * (bs.length + 1)) = 256 * 2 ^ (8 * bs.length) := by rw [Nat.mul_add, Nat.pow_add, Nat.mul_comm]
    rw [ofBytes, List.length_cons, hpow]
    omega

theorem toNat_word (g : Group) (off : Nat) : (g.word off).toNat = ofBytes (g.bytes off 4) := by
  have h := ofBytes_lt (g.bytes off 4)
  rw [show (g.bytes off 4).length = 4 by simp [Group.bytes]] at h
  rw [Group.word, BitVec.toNat_ofNat, Nat.mod_eq_of_lt h]

theorem laneBytes_word {s : State} {x : Issue} {w : Warp} (hw : s.warp? x.w = some w) (b : Operand) (l : Nat) :
    ofBytes (laneBytes s x (some b) 4 l) = ((srcLane s x w b 1 l).setWidth 32).toNat := by
  simp only [laneBytes, hw, ofBytes_bytesOf, BitVec.toNat_setWidth]

/-- One lane of a scratchpad atomic on a word, where no flag is raised: the new value is stored, or nothing changes. -/
theorem padAtomLane_eq {s : State} {x : Issue} {h : GroupId} {g : Group} (hg : s.group? h = some g) {e : Good} {b : Operand}
    {kind : ReqKind} {c : Option Operand} {r : Option Nat}
    (h0 : atomNew kind 4 ⟨e.lane, e.va, e.pa, laneBytes s x (some b) 4 e.lane, laneBytes s x c 4 e.lane, 0, false⟩
      (ofBytes (g.bytes e.pa 4)) = (r, 0)) :
    padAtomLane kind b c 4 x h s e = (r.map fun v => padWrite s h e.pa (bytesOf v 4)).getD s := by
  simp only [padAtomLane, hg, h0]
  cases r <;> rfl

/-- Settles O25: the three instructions have one body; on a word, each lane stores what its operation gives. -/
theorem scratchpadAtomics : Obligations.ScratchpadAtomics := by
  refine ⟨fun p d a b c m h gs => ?_, fun s x h g e b c w hg hw => ?_⟩
  · intro rel acq pre ok act ready got
    have hpre (s : State) (x : Issue) : pre s x = padOrdered m x s := by
      simp only [pre, padOrdered, Bool.and_eq_true, beq_iff_eq]
      rfl
    refine ⟨completes_of_body (fun _ => rfl) fun s x _ ⟨hback, hrel, hin, hheld, g, hg, hpoison⟩ => ?_,
      completes_of_body (fun _ => rfl) fun s x _ ⟨hback, hrel, hin, hheld, g, hg, hpoison⟩ => ?_,
      completes_of_body (fun _ => rfl) fun s x _ ⟨hback, hrel, hin, hheld, g, hg, hpoison⟩ => ?_⟩
    · rw [hpre] at hg
      rw [if_pos rfl, padAtom_good hback hrel hin hheld hg hpoison]
      simp only [ready, hpre]
      rfl
    · rw [hpre] at hg
      rw [if_pos rfl, padAtom_good hback hrel hin hheld hg hpoison, hpre]
      rfl
    · rw [hpre] at hg
      rw [if_pos rfl, padAtom_good hback hrel hin hheld hg hpoison]
      simp only [ready, hpre]
      rfl
  · intro old B C
    have hB : ofBytes (laneBytes s x (some b) 4 e.lane) = B.toNat := laneBytes_word hw b e.lane
    have hC : ofBytes (laneBytes s x (some c) 4 e.lane) = C.toNat := laneBytes_word hw c e.lane
    have hold : ofBytes (g.bytes e.pa 4) = old.toNat := (toNat_word g e.pa).symm
    refine ⟨?_, ?_, fun heq => ?_, fun hne => ?_⟩
    · rw [padAtomLane_eq hg (r := some (old + B).toNat)]
      · rfl
      · simp only [atomNew, atomOp, hB, hold, BitVec.toNat_add]
    · rw [padAtomLane_eq hg (r := some B.toNat)]
      · rfl
      · simp only [atomNew, atomOp, hB]
    · rw [padAtomLane_eq hg (r := some C.toNat)]
      · rfl
      · simp only [atomNew, hB, hC, hold, heq, beq_self_eq_true, if_true]
    · rw [padAtomLane_eq hg (r := none)]
      · rfl
      · have : (old.toNat == B.toNat) = false := beq_eq_false_iff_ne.mpr fun h' => hne (BitVec.eq_of_toNat_eq h')
        simp only [atomNew, hB, hold, this, Bool.false_eq_true, if_false]

/-! ### acc (R177) -/

/-- The width of an addend's source, by the low bit of its type. -/
theorem accWidth (k : Nat) : (if k % 4 == 1 || k % 4 == 3 then 2 else 1) = if k % 2 = 1 then 2 else 1 := by
  have h : ((k % 4 == 1 || k % 4 == 3) = true) ↔ k % 2 = 1 := by
    simp only [Bool.or_eq_true, beq_iff_eq]
    omega
  simp only [h]

section

variable {a b : Operand} {m : MemExt} {x : Issue} {s t : State} {g : Good} {w : Warp} {ent : AccEnt}
  (hback : heldBack s x.w true = false)
  (hj : judge s x.w .write 8 false
    (fun pa => if spaceOf s pa == .view then some 0x13 else if (accEnt s pa).isNone then some 0x14 else none)
    (addrs s x a m.off) = (⟨[g], [], [], false⟩, t))
  (hent : accEnt t g.pa = some ent) (hw : t.warp? x.w = some w)
  (hovf : (accAddend (m.opx.toNat % 4) ent.e (srcLane t x w b (if m.opx.toNat % 2 = 1 then 2 else 1) g.lane)).2.2 = false)
  (hfl : (accAddend (m.opx.toNat % 4) ent.e (srcLane t x w b (if m.opx.toNat % 2 = 1 then 2 else 1) g.lane)).2.1 = 0)

include hback hj hent hw hovf hfl

/-- One lane adds to a line that its L1 holds update-only. -/
theorem accBody_held {u : UpdLine} (hu : sFind? (t.cu (cuOf x.gid)).upd (g.pa / 128) = some u) (hctx : u.ctx = tagOf t x.w)
    (hsm : g.sm = false) (hroom : tableRoom t x.w 0 = true) (hbusy : blockBusy t x.w (g.pa / 128) = false) :
    accBody a b m x s = .done (heldAcc t (cuOf x.gid) (g.pa / 128) (g.pa % 128 / 8)
      (accAddend (m.opx.toNat % 4) ent.e (srcLane t x w b (if m.opx.toNat % 2 = 1 then 2 else 1) g.lane)).1
      (relTagOf w .rlx .cu) (groupDepth t x.gid) u) := by
  have hblk : blocksOf [g] = [g.pa / 128] := rfl
  have hclean : updClean t (cuOf x.gid) (tagOf t x.w) (g.pa / 128) = t := by
    simp only [updClean, hu, hctx, beq_self_eq_true, if_true]
  have hjoin : joinLines t (cuOf x.gid) [g] = [] := by
    simp [joinLines, hblk, hu, hsm]
  have hheld : heldBusy t x (cuOf x.gid) [g] = false := by
    simp [heldBusy, hblk, hbusy]
  have hflags : orFstat t x.w (orAll [0]) = t := rfl
  simp only [accBody, hback, Bool.false_eq_true, if_false]
  rw [hj]
  simp only [hblk, List.foldl_cons, List.foldl_nil, hclean, hjoin, List.length_nil, hroom, hheld, Bool.not_true, Bool.or_self,
    Bool.false_eq_true, if_false, List.map_cons, List.map_nil, hw, hent, Option.map_some, Option.getD_some, accWidth, hfl, hflags,
    List.filter_cons, hovf, List.filter_nil, List.filterMap_nil, List.eraseDups_nil, List.contains_nil,
      Bool.not_false, if_true, hu]
  rfl

/-- One lane adds to a line that its L1 does not hold update-only. -/
theorem accBody_asks (hu : sFind? (t.cu (cuOf x.gid)).upd (g.pa / 128) = none) (hroom : tableRoom t x.w 1 = true) :
    accBody a b m x s = .done (addReq t { Req.blank t x.w .acc with
      blk := g.pa / 128, stage := stageOf t (128 * (g.pa / 128)), rel := relTagOf w .rlx .cu, depth :=
        groupDepth t x.gid, sm := g.sm,
      accs := [⟨g.lane, g.va, g.pa, bytesOf (BitVec.ofInt 64
        (accAddend (m.opx.toNat % 4) ent.e (srcLane t x w b (if m.opx.toNat % 2 = 1 then 2 else 1) g.lane)).1).toNat 8,
        [], 0, false⟩] }).2 := by
  have hblk : blocksOf [g] = [g.pa / 128] := rfl
  have hclean : updClean t (cuOf x.gid) (tagOf t x.w) (g.pa / 128) = t := by
    simp only [updClean, hu]
  have hjoin : joinLines t (cuOf x.gid) [g] = [g.pa / 128] := by
    simp [joinLines, hblk, hu]
  have hheld : heldBusy t x (cuOf x.gid) [g] = false := by
    simp [heldBusy, hblk, hjoin]
  have hflags : orFstat t x.w (orAll [0]) = t := rfl
  simp only [accBody, hback, Bool.false_eq_true, if_false]
  rw [hj]
  simp only [hblk, List.foldl_cons, List.foldl_nil, hclean, hjoin, List.length_cons, List.length_nil, Nat.zero_add, hroom, hheld,
    Bool.not_true, Bool.or_self, Bool.false_eq_true, if_false, List.map_cons, List.map_nil, hw, hent, Option.map_some,
    Option.getD_some, accWidth, hfl, hflags, List.filter_cons, hovf, List.filter_nil, List.filterMap_nil, List.eraseDups_nil,
    List.contains_cons, List.contains_nil, Bool.or_false, beq_self_eq_true, if_true, List.any_cons, List.any_nil, Bool.true_and]
  rfl

end

/-- Settles O26: with one lane, the line is held or asked for, and no flag of FSTAT or of the region is raised. -/
theorem accumulate : Obligations.Accumulate := by
  intro p a b m g t w ent n line v ok tag
  have htag : relTagOf w .rlx .cu = tag := by
    simp only [tag, relTagOf]
    cases w.relScope <;> rfl
  refine ⟨fun u => completes_of_body (fun _ => rfl) fun s x _ ⟨⟨hback, hj, hent, hw, hovf, hfl⟩, hu, hctx, hsm,
    hroom, hbusy⟩ => ?_,
    completes_of_body (fun _ => rfl) fun s x _ ⟨⟨hback, hj, hent, hw, hovf, hfl⟩, hu, hroom⟩ => ?_⟩
  · rw [accBody_held hback hj hent hw hovf hfl hu hctx hsm hroom hbusy, htag]
  · rw [accBody_asks hback hj hent hw hovf hfl hu hroom, htag]

end Sys2Proof.Machine
end

section
/-! SUPPORT. Fences, barriers, convergence, publishes and channels. -/

namespace Sys2Proof.Machine

open Sys2Proof Claims

/-! ### Fences (R179) -/

/-- The body of a fence, by whether it acquires, releases and is of kind sc. -/
def fenceBody (acq rel sc : Bool) (scp : Scope) (x : Issue) (s : State) : Res :=
  if (acq && readOpen s x.w) || (rel && anyReq s x.w) then .hold .other s
  else if rel && !releaseReady s x.w scp then .hold .other (releaseBegin s x.w)
  else
    let t := if acq && ((s.warp? x.w).map Warp.sawTag).getD false then dropAt s x.w
      else if sc then dropOld s (cuOf x.gid) else s
    if rel then
      .done ((releaseAt t x.w scp).modWarp x.w fun w =>
        { w with relScope := some (match w.relScope with | some q => wider q scp | none => scp) })
    else .done t

section

variable (p : Pr) (scp : Scope) (s : State)

theorem exec_fence_acq : exec (.fence p scp .acq) s = run (.fence p scp .acq) s (fenceBody true false false scp) := rfl
theorem exec_fence_rel : exec (.fence p scp .rel) s = run (.fence p scp .rel) s (fenceBody false true false scp) := rfl
theorem exec_fence_ar : exec (.fence p scp .ar) s = run (.fence p scp .ar) s (fenceBody true true false scp) := rfl
theorem exec_fence_sc : exec (.fence p scp .sc) s = run (.fence p scp .sc) s (fenceBody true true true scp) := rfl

end

section

variable {acq rel sc : Bool} {scp : Scope} {x : Issue} {s : State}

/-- A fence waits for the warp's reads or accesses. -/
theorem fenceBody_waits (h : ((acq && readOpen s x.w) || (rel && anyReq s x.w)) = true) :
    fenceBody acq rel sc scp x s = .hold .other s := by
  rw [fenceBody, if_pos h]

/-- A fence that releases waits for what its scope has to accept, and sees that it is sent. -/
theorem fenceBody_begins (hread : readOpen s x.w = false) (hany : anyReq s x.w = false)
    (hready : releaseReady s x.w scp = false) :
    fenceBody acq true sc scp x s = .hold .other (releaseBegin s x.w) := by
  simp only [fenceBody, hread, hany, hready, Bool.and_false, Bool.or_self, Bool.not_false, Bool.and_self,
    Bool.false_eq_true, if_false,
    if_true]

end

/-- Settles O27: the four kinds are one body with three switches. -/
theorem fences : Obligations.Fences := by
  intro p scp w wide drop
  refine ⟨completes_of_body (exec_fence_acq p scp) fun s x _ ⟨hw, hread⟩ => ?_,
    completes_of_body (exec_fence_rel p scp) fun s x _ ⟨hany, hready⟩ => ?_,
    completes_of_body (exec_fence_ar p scp) fun s x _ ⟨hw, hread, hany, hready⟩ => ?_,
    completes_of_body (exec_fence_sc p scp) fun s x _ ⟨hw, hread, hany, hready⟩ => ?_,
    waits_of_body (exec_fence_acq p scp) fun s x _ hread => fenceBody_waits (by simp [hread]), fun k hk => ?_,
    waits_of_body (exec_fence_rel p scp) fun s x _ hany => fenceBody_waits (by simp [hany]),
    fun k s x hk hx hread hany hready => ?_⟩
  · rw [here] at hw
    simp only [fenceBody, hread, hw, Bool.and_false, Bool.false_and, Bool.or_self, Bool.false_eq_true, if_false, Option.map_some,
      Option.getD_some, Bool.true_and]
    rfl
  · simp only [fenceBody, hany, hready, Bool.and_false, Bool.false_and, Bool.or_self, Bool.not_true, Bool.false_eq_true, if_false,
      if_true]
    rfl
  · rw [here] at hw
    simp only [fenceBody, hread, hany, hready, hw, Bool.and_false, Bool.or_self, Bool.not_true, Bool.false_eq_true, if_false,
      if_true, Option.map_some, Option.getD_some, Bool.true_and]
    rfl
  · rw [here] at hw
    simp only [fenceBody, hread, hany, hready, hw, Bool.and_false, Bool.or_self, Bool.not_true, Bool.false_eq_true, if_false,
      if_true, Option.map_some, Option.getD_some, Bool.true_and]
    rfl
  · rcases hk with rfl | rfl
    · exact waits_of_body (exec_fence_ar p scp) fun s x _ h => fenceBody_waits (by simpa using h)
    · exact waits_of_body (exec_fence_sc p scp) fun s x _ h => fenceBody_waits (by simpa using h)
  · rcases hk with rfl | rfl | rfl
    · exact exec_of_hold (exec_fence_rel p scp s) hx (fenceBody_begins hread hany hready)
    · exact exec_of_hold (exec_fence_ar p scp s) hx (fenceBody_begins hread hany hready)
    · exact exec_of_hold (exec_fence_sc p scp s) hx (fenceBody_begins hread hany hready)

/-! ### Barriers (R180 to R183) -/

theorem waitsAt_of_here {s : State} {x : Issue} {w : Warp} (hw : here s x w) (k : Nat) : waitsAt s x k =
    (w.barWait == some k) := by
  rw [here] at hw
  rw [waitsAt, hw, Option.bind_some]

theorem loWord_ne_zero (s : State) (x : Issue) (b : Operand) :
    (loWord (scalarOf s x (some ⟨b, 1, true⟩)) != 0) = decide (src32 s x b ≠ 0) := by
  rw [Bool.eq_iff_iff, bne_iff_ne, decide_eq_true_iff, ← BitVec.toNat_inj.ne, loWord_eq_setWidth, BitVec.toNat_setWidth]
  rfl

/-- What a wait may do: its barrier is one that the warp's group is a member of, or at which the warp is held. -/
theorem named_and_allowed {s : State} {x : Issue} {cl : Bool} {a : Operand} {k : Nat} {w : Warp}
    (h : (barNamed s x cl a = some k ∧ barMember s x k = true) ∨ (barNamed s x cl a = some k ∧ here s x w ∧ w.barWait = some k)) :
    barNamed s x cl a = some k ∧ (!barMember s x k && !waitsAt s x k) = false := by
  rcases h with ⟨hn, hm⟩ | ⟨hn, hw, hb⟩
  · exact ⟨hn, by rw [hm]; rfl⟩
  · exact ⟨hn, by rw [waitsAt_of_here hw, hb, beq_self_eq_true, Bool.not_true, Bool.and_false]⟩

/-- Settles O28: each clause's conditions select one branch of the body. -/
theorem barriers : Obligations.Barriers := by
  intro h cl a b k mine held new mark misuse
  refine ⟨completes_of_body (fun _ => rfl) fun s x _ ⟨⟨hn, hm⟩, hany, harr, hready⟩ => ?_,
    waits_of_body (fun _ => rfl) fun s x _ ⟨⟨hn, hm⟩, hor⟩ => ?_,
    fun s x hx ⟨hn, hm⟩ hany harr hready => exec_of_hold rfl hx ?_,
    fun w => completes_of_body (fun _ => rfl) fun s x _ ⟨hor, hwait⟩ => ?_,
    fun w s x hx hor hwait => exec_of_hold rfl hx (t := mark (some k) s x) ?_,
    fun w => completes_of_body (fun _ => rfl) fun s x _ ⟨⟨hn, hw, hb⟩, hwait⟩ => ?_,
    fun w s x hx ⟨hn, hw, hb⟩ hwait => exec_of_hold rfl hx (t := mark (some k) s x) ?_,
    fun w => waits_of_body (fun _ => rfl) fun s x _ ⟨⟨⟨hn, hm⟩, hw, hb⟩, hor⟩ => ?_,
    fun w s x hx ⟨⟨hn, hm⟩, hw, hb⟩ hany harr hready => exec_of_hold rfl hx ?_,
    fun w => completes_of_body (fun _ => rfl) fun s x _ ⟨⟨⟨hn, hm⟩, hw, hb⟩, hany, harr, hready, hwait⟩ => ?_,
    fun w s x hx ⟨⟨hn, hm⟩, hw, hb⟩ hany harr hready hwait =>
      exec_of_hold rfl hx (t := mark (some k) (barArrive s x cl k) x) ?_,
    fun g => completes_of_body (fun _ => rfl) fun s x _ ⟨hn, hg, harr, hb⟩ => ?_,
    fun g => completes_of_body (fun _ => rfl) fun s x _ ⟨hn, hg, harr, hb⟩ => ?_,
    trapsWhole_of_body (fun _ => rfl) fun s x _ hn => ?_, trapsWhole_of_body (fun _ => rfl) fun s x _ hn => ?_,
    trapsWhole_of_body (fun _ => rfl) fun s x _ hn => ?_, trapsWhole_of_body (fun _ => rfl) fun s x _ hn => ?_,
    trapsWhole_of_body (fun _ => rfl) fun s x _ ⟨hn, hm⟩ => ?_,
    fun w => ⟨trapsWhole_of_body (fun _ => rfl) fun s x _ ⟨hn, hm, hw, hb⟩ => ?_,
      trapsWhole_of_body (fun _ => rfl) fun s x _ ⟨hn, hm, hw, hb⟩ => ?_⟩,
    trapsWhole_of_body (fun _ => rfl) fun s x hx ⟨hn, harr⟩ => ?_⟩
  · simp only [hn, hm, hany, harr, hready, Bool.not_true, Bool.or_self, Bool.false_eq_true, if_false]
  · have hblocked : (anyReq s x.w || barArrived s x k) = true := by simpa using hor
    simp only [hn, hm, hblocked, Bool.not_true, Bool.false_eq_true, if_false, if_true]
  · simp only [hn, hm, hany, harr, hready, Bool.not_true, Bool.not_false, Bool.or_self, Bool.false_eq_true, if_false, if_true]
  · obtain ⟨hn, hgo⟩ := named_and_allowed hor
    simp only [hn, hgo, hwait, Bool.false_eq_true, if_false]
    rfl
  · obtain ⟨hn, hgo⟩ := named_and_allowed hor
    simp only [hn, hgo, hwait, Bool.false_eq_true, if_false, if_true]
    rfl
  · simp only [hn, waitsAt_of_here hw, hb, hwait, beq_self_eq_true, Bool.false_eq_true, if_false, if_true]
    rfl
  · simp only [hn, waitsAt_of_here hw, hb, hwait, beq_self_eq_true, if_true]
    rfl
  · have hblocked : (anyReq s x.w || barArrived s x k) = true := by simpa using hor
    simp only [hn, hm, waitsAt_of_here hw, beq_eq_false_iff_ne.mpr hb, hblocked, Bool.not_true,
      Bool.false_eq_true, if_false, if_true]
  · simp only [hn, hm, waitsAt_of_here hw, beq_eq_false_iff_ne.mpr hb, hany, harr, hready, Bool.not_true,
      Bool.not_false, Bool.or_self,
      Bool.false_eq_true, if_false, if_true]
  · simp only [hn, hm, waitsAt_of_here hw, beq_eq_false_iff_ne.mpr hb, hany, harr, hready, hwait, Bool.not_true, Bool.or_self,
      Bool.false_eq_true, if_false]
    rfl
  · simp only [hn, hm, waitsAt_of_here hw, beq_eq_false_iff_ne.mpr hb, hany, harr, hready, hwait, Bool.not_true, Bool.or_self,
      Bool.false_eq_true, if_false, if_true]
    rfl
  · simp only [hn, hg, harr, loWord_ne_zero, hb, not_false_eq_true, ne_eq, decide_true, List.isEmpty_nil, Bool.not_true,
      Bool.false_eq_true, if_false, if_true]
  · simp only [hn, hg, harr, loWord_ne_zero, hb, ne_eq, not_true_eq_false, decide_false, List.isEmpty_nil, Bool.not_true,
      Bool.false_eq_true, if_false]
  · simp only [hn]
  · simp only [hn]
  · simp only [hn]
  · simp only [hn]
  · simp only [hn, hm, Bool.not_false, if_true]
  · simp only [hn, hm, waitsAt_of_here hw, beq_eq_false_iff_ne.mpr hb, Bool.not_false, Bool.and_self, if_true]
  · simp only [hn, hm, waitsAt_of_here hw, beq_eq_false_iff_ne.mpr hb, Bool.not_false, Bool.false_eq_true, if_false, if_true]
  · obtain ⟨-, g, -, hg, -⟩ := issued_here hx
    have hne : (s.bar k).arrived.isEmpty = false := by simpa using harr
    simp only [hn, hg, hne, Bool.not_false, if_true]

/-! ### cvdef, publish and chset (R185, R189, R190) -/

theorem src32_eq (s : State) (x : Issue) (o : Operand) : (loWord (scalarOf s x (some ⟨o, 1, true⟩))).toNat = src32 s x o :=
  sc32_eq s x o

/-- The register of a set that is not open may be defined anew. -/
theorem not_signing {c : Cv} (h : c.signed = 0 ∨ c.signed = c.expected) : (c.signed != 0 && c.signed != c.expected) = false := by
  rcases h with h | h
  · rw [h]; rfl
  · rw [h, bne_self_eq_false, Bool.and_false]

theorem signing {c : Cv} (h0 : c.signed ≠ 0) (h : c.signed ≠ c.expected) : (c.signed != 0 && c.signed != c.expected) = true := by
  rw [bne_iff_ne.mpr h0, bne_iff_ne.mpr h, Bool.and_self]

theorem no_deferred {l : List DefMat} {w : WarpId} {cv : Fin 8} (h : ∀ e ∈ l, e.wid = w → e.cv ≠ cv) :
    (l.any fun e => e.wid == w && e.cv == cv) = false := by
  rw [List.any_eq_false]
  intro e he
  rw [Bool.not_eq_true, Bool.and_eq_false_imp, beq_iff_eq, beq_eq_false_iff_ne]
  exact h e he

/-- Settles O29: each clause's conditions select one branch of the body. -/
theorem convergePublishChannel : Obligations.ConvergePublishChannel := by
  intro h p cv a b o n pk w g set free
  refine ⟨completes_of_body (fun _ => rfl) fun s x _ ⟨hw, hc, hd⟩ => ?_,
    completes_of_body (fun _ => rfl) fun s x _ ⟨hw, hc, hd⟩ => ?_,
    trapsWhole_of_body (fun _ => rfl) fun s x _ ⟨hw, h0, hne⟩ => ?_,
    completes_of_body (fun _ => rfl) fun s x _ ⟨hle, hany, hready⟩ => ?_,
    waits_of_body (fun _ => rfl) fun s x _ ⟨hle, hany⟩ => ?_,
    trapsWhole_of_body (fun _ => rfl) fun s x _ hlt => ?_,
    completes_of_body (fun _ => rfl) fun s x _ ⟨hg, hal, hd, hwin⟩ => ?_,
    trapsWhole_of_body (fun _ => rfl) fun s x _ ⟨hg, hor⟩ => ?_⟩
  · rw [here] at hw
    simp only [hw, not_signing hc, no_deferred hd, Bool.false_eq_true, if_false]
    rfl
  · rw [here] at hw
    simp only [hw, not_signing hc, no_deferred hd, Bool.false_eq_true, if_false]
    rfl
  · rw [here] at hw
    simp only [hw, signing h0 hne, if_true]
  · simp only [src32_eq, Nat.not_lt.mpr hle, hany, hready, Bool.not_true, Bool.false_eq_true, if_false]
  · simp only [src32_eq, Nat.not_lt.mpr hle, hany, if_false, if_true]
  · simp only [src32_eq, hlt, if_true]
  · have hok : (src32 s x a % 4 != 0 || decide (4095 < src32 s x b) || decide
      (g.winSize < src32 s x a + 4 * src32 s x b)) = false := by
      rw [hal, decide_eq_false (Nat.not_lt.mpr hd), decide_eq_false (Nat.not_lt.mpr hwin)]
      rfl
    simp only [src32_eq, hg, hok, Bool.false_eq_true, if_false]
  · have hbad : (src32 s x a % 4 != 0 || decide (4095 < src32 s x b) || decide
      (g.winSize < src32 s x a + 4 * src32 s x b)) = true := by
      simpa [or_assoc] using hor
    simp only [src32_eq, hg, hbad, if_true]

end Sys2Proof.Machine
end

section
/-! SUPPORT. Matrix signing and tiles. -/

namespace Sys2Proof.Machine

open Sys2Proof Claims

/-! ### Signing of matrix operations (R197 to R199) -/

/-- The lanes of an issue may not sign a convergence register for an instruction. -/
def misSigned (c : Cv) (i : Instr) (m : Mask) : Bool :=
  c.expected == 0 || m &&& ~~~c.expected != 0 || m &&& c.signed != 0 || (c.signed != 0 && c.ins.map noPred != some (noPred i))

/-- A convergence register once the lanes of an issue have signed. -/
def signedCv (w : Warp) (va n : Nat) (i : Instr) (m : Mask) (c : Cv) : Cv :=
  { capture w va n m c with signed := c.signed ||| m, ins := if c.signed = 0 then some i else c.ins }

theorem misSigned_eq_false {c : Cv} {i : Instr} {m : Mask} (h0 : c.expected ≠ 0) (hin : m &&& ~~~c.expected = 0)
    (hnew : m &&& c.signed = 0) (hsame : c.signed = 0 ∨ c.ins.map noPred = some (noPred i)) : misSigned c i m = false := by
  have hlast : (c.signed != 0 && c.ins.map noPred != some (noPred i)) = false := by
    rcases hsame with h | h
    · rw [h]; rfl
    · rw [h, bne_self_eq_false, Bool.and_false]
  rw [misSigned, hin, hnew, hlast, beq_eq_false_iff_ne.mpr h0]
  rfl

theorem misSigned_eq_true {c : Cv} {i : Instr} {m : Mask}
    (h : c.expected = 0 ∨ m &&& ~~~c.expected ≠ 0 ∨ m &&& c.signed ≠ 0 ∨ (c.signed ≠ 0 ∧ c.ins.map noPred ≠ some (noPred i))) :
    misSigned c i m = true := by
  simpa [misSigned, or_assoc] using h

/-- The set is complete once no expected lane is missing. -/
theorem signedCv_complete {w : Warp} {va n : Nat} {c : Cv} {i : Instr} {m : Mask}
    (hsame : c.signed = 0 ∨ c.ins.map noPred = some (noPred i)) :
    (signedCv w va n i m c).complete = (c.expected &&& ~~~(c.signed ||| m) == 0) := by
  have hins : (signedCv w va n i m c).ins.isSome = true := by
    show (if c.signed = 0 then some i else c.ins).isSome = true
    split
    · rfl
    · next h =>
      have hmap := hsame.resolve_left h
      cases hc : c.ins with
      | none => rw [hc] at hmap; cases hmap
      | some j => rfl
  rw [Cv.complete, hins, Bool.true_and]
  rfl

section

variable {i : Instr} {x : Issue} {s : State} {w : Warp} {va : Nat} {e : MatExt} {q : Bool} (hargs : matArgs i = some (va, e, q))
  (hw : s.warp? x.w = some w)
include hargs hw

/-- Lanes that may not sign. -/
theorem signBody_misuse (h : misSigned (w.cvReg e.cv.val) i x.exec = true) :
    signBody i x s = .trap 0x16 x.cur.pc 0 false := by
  rw [signBody, hargs, hw]
  exact if_pos h

variable (h : misSigned (w.cvReg e.cv.val) i x.exec = false)
include h

/-- A set that stays incomplete. -/
theorem signBody_records
    (hc : (signedCv w va (matCount i w.width) i x.exec (w.cvReg e.cv.val)).complete = false) :
    signBody i x s = .done (s.modWarp x.w fun y =>
      y.setCv e.cv.val (signedCv w va (matCount i w.width) i x.exec (w.cvReg e.cv.val))) := by
  rw [signedCv] at hc ⊢
  rw [signBody, hargs, hw]
  refine (if_neg (ne_true_of_eq_false h)).trans ?_
  simp only [beq_iff_eq, hc, Bool.not_false, if_true]

variable (hc : (signedCv w va (matCount i w.width) i x.exec (w.cvReg e.cv.val)).complete = true)
include hc

/-- A complete set that may issue. -/
theorem signBody_issues (hgo : matGo s x.w i x.cur.pc = .go) :
    signBody i x s = .done (matIssue (s.modWarp x.w fun y =>
      y.setCv e.cv.val (signedCv w va (matCount i w.width) i x.exec (w.cvReg e.cv.val))) x.w e.cv.val) := by
  rw [signedCv] at hc ⊢
  rw [signBody, hargs, hw]
  refine (if_neg (ne_true_of_eq_false h)).trans ?_
  simp only [beq_iff_eq, hc, Bool.not_true, Bool.false_eq_true, if_false, hgo]

/-- A complete set that waits. -/
theorem signBody_waits (hgo : matGo s x.w i x.cur.pc = .wait) :
    signBody i x s = .hold (if ringShort s x.w i then .chan else .other) s := by
  rw [signedCv] at hc
  rw [signBody, hargs, hw]
  refine (if_neg (ne_true_of_eq_false h)).trans ?_
  simp only [beq_iff_eq, hc, Bool.not_true, Bool.false_eq_true, if_false, hgo]

end

/-- Settles O30: the three instructions have one body; whether the set is complete depends on its missing lanes alone. -/
theorem matrixSigning : Obligations.MatrixSigning := by
  intro p a b e w i hi c legal signed sign
  obtain ⟨q, hargs⟩ : ∃ q, matArgs i = some (a.val, e, q) := by
    rcases hi with rfl | rfl | rfl
    · exact ⟨false, rfl⟩
    · exact ⟨true, rfl⟩
    · exact ⟨false, rfl⟩
  have hexec (s : State) : exec i s = run i s (signBody i) := by
    rcases hi with rfl | rfl | rfl <;> rfl
  have hmay {s : State} {x : Issue} (h : legal s x) : misSigned c i x.exec = false := by
    obtain ⟨-, h0, hin, hnew, hsame⟩ := h
    exact misSigned_eq_false h0 hin hnew hsame
  have hcomplete {s : State} {x : Issue} (h : legal s x) :
      (signedCv w a.val (matCount i w.width) i x.exec c).complete = (c.expected &&& ~~~(c.signed ||| x.exec) == 0) := by
    obtain ⟨-, -, -, -, hsame⟩ := h
    exact signedCv_complete hsame
  refine ⟨completes_of_body hexec fun s x _ ⟨hl, hmiss⟩ => ?_, completes_of_body hexec fun s x _ ⟨hl, hall, hgo⟩ => ?_,
    waits_of_body hexec fun s x _ ⟨hl, hall, hgo, hshort⟩ => ?_, waits_of_body hexec fun s x _ ⟨hl, hall, hgo, hshort⟩ => ?_,
    trapsWhole_of_body hexec fun s x _ ⟨hw, hbad⟩ => signBody_misuse hargs hw (misSigned_eq_true hbad)⟩
  · exact signBody_records hargs hl.1 (hmay hl) ((hcomplete hl).trans (beq_eq_false_iff_ne.mpr hmiss))
  · exact signBody_issues hargs hl.1 (hmay hl) ((hcomplete hl).trans (beq_iff_eq.mpr hall)) hgo
  · rw [signBody_waits hargs hl.1 (hmay hl) ((hcomplete hl).trans (beq_iff_eq.mpr hall)) hgo, hshort, if_pos rfl]
  · rw [signBody_waits hargs hl.1 (hmay hl) ((hcomplete hl).trans (beq_iff_eq.mpr hall)) hgo, hshort, if_neg Bool.false_ne_true]

/-! ### Tiles (R205 to R208) -/

/-- A source that is no channel gives its value in each acting lane. -/
theorem gather_reg {s : State} {x : Issue} {w : Warp} {o : Operand} {n : Nat} {b : Bool} (ho : o.isChan = false)
    (hw : s.warp? x.w = some w) : gather s x (some ⟨o, n, b⟩) = (x.act.map fun l => srcLane s x w o n l, s) := by
  cases o with
  | ch c pk => cases ho
  | v k => simp only [gather, hw]
  | s k => simp only [gather, hw]
  | p k => simp only [gather, hw]
  | sp k => simp only [gather, hw]
  | imm => simp only [gather, hw]

theorem tileHasPoison_of_nil {g : Group} (h : g.poison = []) (t : Nat) : tileHasPoison g t = false := by
  rw [tileHasPoison, h, List.any_nil]

theorem tilePoisoned_of_nil {g : Group} (h : g.poison = []) (t e : Nat) : g.tilePoisoned t e = false := by
  rw [Group.tilePoisoned, h]
  rfl

theorem padBad_of_nil {g : Group} (h : g.padPoison = []) (o n : Nat) : g.padBad o n = false := by
  rw [Group.padBad, h, List.any_nil]

section

variable {s u : State} {x : Issue} {w : Warp} {g : Group} {m : MemExt} {a b : Operand} {t : Nat} {h : GroupId} {gs : List Good}

/-- accld in a window without poison marks. -/
theorem accldBody_pad (hback : heldBack s x.w false = false) (hpend : tilePending s x.gid t = false)
    (hg : (if m.ord = .acq ∧ padScope m = .cl then dropAt s x.w else s).group? h = some g)
    (hin : inWindow s x m h m.wid.bytes (tileOffs s x a b m) gs) (hp : g.padPoison = []) :
    accldBody true t a b m x s = .done (gs.foldl (fun r e => r.modGroup x.gid fun q =>
      q.setTileElem t e.lane (widen m.wid.bytes (m.opx.getLsbD 0) (g.bytes e.pa m.wid.bytes)) false)
      (if m.ord = .acq ∧ padScope m = .cl then dropAt s x.w else s)) := by
  obtain ⟨hwin, hdead, hj⟩ := hin
  have hcond : (if (m.ord == .acq && padScope m == .cl) = true then dropAt s x.w else s)
      = if m.ord = .acq ∧ padScope m = .cl then dropAt s x.w else s := by
    simp only [Bool.and_eq_true, beq_iff_eq]
  simp only [accldBody, Bool.not_true, hback, hpend, hwin, hdead, hj, List.isEmpty_nil, Bool.or_self,
    Bool.false_eq_true, if_false,
    if_true, hcond, hg, padBad_of_nil hp]
  rfl

/-- accld in global memory where every element may be read. -/
theorem accldBody_global (hback : heldBack s x.w true = false) (hpend : tilePending s x.gid t = false)
    (hroom : tableRoom u x.w 1 = true)
    (hj : judge s x.w .read m.wid.bytes false (postPlain s false (m.rt == .unc)) (tileAddrs s x a b m) =
      (⟨gs, [], [], false⟩, u)) :
    accldBody false t a b m x s = .done (askBlock (cleanBlocks u x gs) x (tileReq u x (.tileLd m.rt) t m
      (gs.map fun e => ⟨e.lane, e.va, e.pa, [], [], 0, false⟩) (gs.any fun e => e.sm))) := by
  simp only [accldBody, Bool.not_false, hback, hpend, Bool.or_self, Bool.false_eq_true, if_false]
  rw [hj]
  simp only [hroom, List.isEmpty_nil, Bool.not_true, Bool.false_eq_true, if_false]

section

variable (hpend : tilePending s x.gid t = false)
  (hrel : m.ord = .rel → anyReq s x.w = false ∧ releaseReady s x.w (padScope m) = true) (hg : s.group? x.gid = some g)
  (hp : g.poison = [])
include hpend hrel hg hp

/-- accst in a window. -/
theorem accstBody_pad (hback : heldBack s x.w false = false)
    (hin : inWindow s x m h m.wid.bytes (tileOffs s x a b m) gs) (hheld : anyHeld s h m.wid.bytes gs = false)
    (hdead : windowDead (padReleased s x m) x.gid h = false) :
    accstBody true t a b m x s = .done (orFstat (gs.foldl (fun r e => padWrite r h e.pa
        (narrow m.wid.bytes (m.opx.getLsbD 0) (g.tileElem t e.lane)).1) (padReleased s x m)) x.w
      (orAll ((List.range 4096).map fun n => (narrow m.wid.bytes (m.opx.getLsbD 0) (g.tileElem t n)).2))) := by
  obtain ⟨hwin, -, hj⟩ := hin
  have hany : (m.ord == .rel && anyReq s x.w) = false := by
    rw [Bool.and_eq_false_imp]
    exact fun ho => (hrel (beq_iff_eq.mp ho)).1
  have hready : (m.ord == .rel && !releaseReady s x.w (padScope m)) = false := by
    rw [Bool.and_eq_false_imp]
    exact fun ho => by rw [(hrel (beq_iff_eq.mp ho)).2, Bool.not_true]
  have hpad : (if (m.ord == .rel) = true then releaseAt s x.w (padScope m) else s) = padReleased s x m := by
    simp only [padReleased, beq_iff_eq]
  simp only [accstBody, Bool.not_true, hback, hpend, hany, hready, hg, hwin, hj, List.isEmpty_nil, tileHasPoison_of_nil hp, hheld,
    hpad, hdead, Bool.or_self, Bool.false_eq_true, if_false, if_true]
  rfl

/-- accst in global memory where every element may be written. -/
theorem accstBody_global (hback : heldBack s x.w true = false) (hroom : tableRoom u x.w 1 = true)
    (hj : judge s x.w .write m.wid.bytes false (postPlain s true (m.rt == .unc)) (tileAddrs s x a b m) =
      (⟨gs, [], [], false⟩, u)) :
    accstBody false t a b m x s =
      let low := (lanesOf x.exec).head?.getD 0
      let data := fun n : Nat => narrow m.wid.bytes (m.opx.getLsbD 0) (g.tileElem t n)
      let r := cleanBlocks (released u x m) x gs
      .done (addReq r { tileReq r x (.tileSt m.rt) t m
          (gs.map fun e => ⟨low, e.va, e.pa, (data e.lane).1, [], 0, false⟩) (gs.any fun e => e.sm) with
        vals := [⟨low, 0, [], 0, 0, orAll ((List.range 4096).map fun n => (data n).2)⟩] }).2 := by
  have hany : (m.ord == .rel && anyReq s x.w) = false := by
    rw [Bool.and_eq_false_imp]
    exact fun ho => (hrel (beq_iff_eq.mp ho)).1
  have hready : (m.ord == .rel && !releaseReady s x.w (padScope m)) = false := by
    rw [Bool.and_eq_false_imp]
    exact fun ho => by rw [(hrel (beq_iff_eq.mp ho)).2, Bool.not_true]
  have hpad : (if (m.ord == .rel) = true then releaseAt u x.w m.scp else u) = released u x m := by
    simp only [released, beq_iff_eq]
  simp only [accstBody, Bool.not_false, hback, hpend, hany, hready, hg, Bool.or_self, Bool.false_eq_true, if_false]
  rw [hj]
  simp only [List.isEmpty_nil, tileHasPoison_of_nil hp, hroom, hpad, Bool.not_true, Bool.false_eq_true, if_false]
  rfl

end

end

/-- Settles O31: no tile operation is pending, nothing is poisoned, and every element may be read or written. -/
theorem tiles : Obligations.Tiles := by
  intro h p t ti d a b m w g hg gs u acquired releases
  refine ⟨completes_of_body (fun _ => rfl) fun s x _ _ => rfl,
    fun hd => completes_of_body (fun _ => rfl) fun s x _ ⟨hw, hgr, hpend, hp⟩ => ?_,
    fun ha => completes_of_body (fun _ => rfl) fun s x _ ⟨hw, hgr⟩ => ?_,
    completes_of_body (fun _ => rfl) fun s x _ ⟨hback, hpend, hgr, hin, hp⟩ => accldBody_pad hback hpend hgr hin hp,
    completes_of_body (fun _ => rfl) fun s x _ ⟨hback, hpend, hroom, hj⟩ =>
      accldBody_global hback hpend hroom hj,
    completes_of_body (fun _ => rfl) fun s x _ ⟨hback, hpend, hrel, hgr, hin, hp, hheld, hdead⟩ =>
      accstBody_pad hpend hrel hgr hp hback hin hheld hdead,
    completes_of_body (fun _ => rfl) fun s x _ ⟨hback, hpend, hrel, hgr, hp, hroom, hj⟩ =>
      accstBody_global hpend hrel hgr hp hback hroom hj⟩
  · rw [here] at hw
    simp only [hw, hgr, hpend, tilePoisoned_of_nil hp, Bool.false_eq_true, if_false, List.filter_false, List.map_nil, hd,
      Bool.false_and, Bool.not_false, List.filter_true, List.foldl_map, loWord_eq_setWidth]
    cases d with
    | ch c pk => cases hd
    | v k => rfl
    | s k => rfl
    | p k => rfl
    | sp k => rfl
    | imm => rfl
  · rw [here] at hw
    rw [gather_reg ha hw]
    simp only [hw, loWord_eq_setWidth, List.zip, List.zipWith_map_right, List.zipWith_self, List.map_map, List.foldl_map]
    rfl

end Sys2Proof.Machine
end

section
/-! SUPPORT. Engine operations. -/

namespace Sys2Proof.Machine

open Sys2Proof Claims

/-! ### Engine operations (R209 to R218) -/

section

variable {s : State} {x : Issue} {k : EngKind} {desc : List Byte} {arr : Nat} {arrs : List GroupId}
    {es : List Elem} {first : Bool}
  (hout : outside s es = none)
include hout

theorem startCopy_room (hfull : engFull s x.gid k = false) :
    startCopy s x k desc arr arrs es first = .done (addEng s { EngOp.blank s x k arr with
      arrs := arrs, elems := es, desc := desc, readFirst := first, total := (es.map fun e => e.size).foldl (· + ·) 0 }) := by
  simp only [startCopy, hout, hfull, Bool.false_eq_true, if_false]

theorem startCopy_full (hfull : engFull s x.gid k = true) : startCopy s x k desc arr arrs es first = .hold .other s := by
  simp only [startCopy, hout, hfull, if_true]

end

/-- The address of a copy's descriptor: an offset in the window, or a global address (R212). -/
def descAt (s : State) (x : Issue) (w : Warp) (a : Operand) (m : EngExt) : Addr :=
  if m.dsp then (loWord (srcLane s x w a 1 0) + m.doff).zeroExtend 64 else srcLane s x w a 2 0 + m.doff.signExtend 64

theorem toNat_descAt (s : State) (x : Issue) (w : Warp) (a : Operand) (m : EngExt) :
    (descAt s x w a m).toNat = if m.dsp then ((srcLane s x w a 1 0).setWidth 32 + m.doff).toNat
      else (srcLane s x w a 2 0 + m.doff.signExtend 64).toNat := by
  rw [descAt]
  split
  · rw [loWord_eq_setWidth, BitVec.toNat_setWidth, Nat.mod_eq_of_lt]
    have := ((srcLane s x w a 1 0).setWidth 32 + m.doff).isLt
    omega
  · rfl

section

variable {s u : State} {x : Issue} {w : Warp} {g : Group} {a : Operand} {m : EngExt} {bs : List Byte}
  (hw : s.warp? x.w = some w) (hg : s.group? x.gid = some g) (harr : arrFault s [x.gid] m.arr.toNat = none)
  (hback : heldBack s x.w true = false) (hal : (descAt s x w a m).toNat % 64 = 0)
include hw hg harr hback hal

theorem xcopyBody_waits (hany : anyReq s x.w = true) : xcopyBody a m x s = .hold .other s := by
  rw [descAt] at hal
  simp only [xcopyBody, hw, hg, harr, hback, hany, Bool.false_eq_true, if_false, if_true]
  refine if_neg ?_
  rw [hal]
  exact Bool.false_ne_true

/-- The descriptor of a copy as the body reads it. -/
theorem xcopyBody_read (hany : anyReq s x.w = false)
    (hread : (m.dsp = false ∧ readDesc s x (descAt s x w a m) 256 = (.ok bs, u))
      ∨ (m.dsp = true ∧ (descAt s x w a m).toNat + 256 ≤ g.winSize ∧ g.padBad (descAt s x w a m).toNat 256 = false
        ∧ g.bytes (descAt s x w a m).toNat 256 = bs ∧ u = s))
    (hok : Desc.ok (BitVec.ofNat 2048 (ofBytes bs)) (peerCount u x.gid) = true)
    (hend : endpointOk u (BitVec.ofNat 2048 (ofBytes bs)) = true)
    {arrs : List GroupId}
    (harrs : (if Desc.dstk (BitVec.ofNat 2048 (ofBytes bs)) = 2 then peersOf u x.gid (Desc.dsel (BitVec.ofNat 2048 (ofBytes bs)))
      else [x.gid]) = arrs)
    (harr' : arrFault u arrs m.arr.toNat = none) :
    xcopyBody a m x s = startCopy u x .xcopy bs m.arr.toNat arrs (Desc.elems u (BitVec.ofNat 2048 (ofBytes bs)) x.gid)
      (Desc.meets (BitVec.ofNat 2048 (ofBytes bs))) := by
  have hal' : ((descAt s x w a m).toNat % 64 != 0) = false := by rw [hal]; rfl
  have hrd : (if m.dsp = true then
      (if g.winSize < (descAt s x w a m).toNat + 256 then (.error (0x11, descAt s x w a m), s)
        else if g.padBad (descAt s x w a m).toNat 256 = true then (.error (0x30, descAt s x w a m), s)
        else (.ok (g.bytes (descAt s x w a m).toNat 256), s))
      else readDesc s x (descAt s x w a m) 256 : Except (Nat × Addr) (List Byte) × State) = (.ok bs, u) := by
    rcases hread with ⟨hd, hr⟩ | ⟨hd, hsize, hbad, hbs, rfl⟩
    · rw [hd, if_neg Bool.false_ne_true, hr]
    · rw [hd, if_pos rfl, if_neg (Nat.not_lt.mpr hsize), hbad, if_neg Bool.false_ne_true, hbs]
  rw [xcopyBody, hw, hg]
  dsimp only
  rw [harr]
  dsimp only
  rw [hback, if_neg Bool.false_ne_true, show (if m.dsp = true then _ else _) = descAt s x w a m from rfl, hal',
    if_neg Bool.false_ne_true, hany, if_neg Bool.false_ne_true, hrd]
  dsimp only
  have hlegal : (!Desc.ok (BitVec.ofNat 2048 (ofBytes bs)) (peerCount u x.gid) || !endpointOk u (BitVec.ofNat 2048 (ofBytes bs)))
      = false := by
    rw [hok, hend]
    rfl
  have hto : (if (Desc.dstk (BitVec.ofNat 2048 (ofBytes bs)) == 2) = true then
      peersOf u x.gid (Desc.dsel (BitVec.ofNat 2048 (ofBytes bs))) else [x.gid]) = arrs := by
    simpa only [beq_iff_eq] using harrs
  rw [if_neg (ne_true_of_eq_false hlegal), hto, harr']

end

/-- mcast with a mask and rows that it can take. -/
theorem mcastBody_starts {s : State} {x : Issue} {w : Warp} {a b c : Operand} {m : McExt} (hw : s.warp? x.w = some w)
    (hback : heldBack s x.w true = false) (h0 : srcLane s x w c 2 0 ≠ 0)
    (hlt : (srcLane s x w c 2 0).toNat < 2 ^ peerCount s x.gid)
    (harr : arrFault s (peersOf s x.gid (srcLane s x w c 2 0)) m.arr.toNat = none)
    (hsrc : (srcLane s x w a 2 0).toNat % 16 = 0) (hstr : m.sstr.toNat % 16 = 0)
    (hoff : ((srcLane s x w b 1 0).setWidth 32).toNat % 16 = 0) :
    mcastBody a b c m x s =
      startCopy s x .mcast
        (bytesOf (mcFields (srcLane s x w a 2 0) (srcLane s x w c 2 0) ((srcLane s x w b 1 0).setWidth 32).toNat m) 28)
        m.arr.toNat (peersOf s x.gid (srcLane s x w c 2 0))
        (mcElems s x.gid (srcLane s x w a 2 0) (srcLane s x w c 2 0) ((srcLane s x w b 1 0).setWidth 32).toNat m) false := by
  have hmask : (srcLane s x w c 2 0 == 0 || decide (2 ^ peerCount s x.gid ≤ (srcLane s x w c 2 0).toNat)) = false := by
    rw [beq_eq_false_iff_ne.mpr h0, decide_eq_false (Nat.not_le.mpr hlt)]
    rfl
  have hal : ((srcLane s x w a 2 0).toNat % 16 != 0 || m.sstr.toNat % 16 != 0 ||
    ((srcLane s x w b 1 0).setWidth 32).toNat % 16 != 0)
      = false := by
    rw [hsrc, hstr, hoff]
    rfl
  simp only [mcastBody, hw, hback, hmask, harr, loWord_eq_setWidth, hal, Bool.false_eq_true, if_false]

section

variable {s u : State} {x : Issue} {w : Warp} {g : Group} {a b c : Operand} {m : GatherExt} {bs : List Byte}
  (hw : s.warp? x.w = some w) (hg : s.group? x.gid = some g) (harr : arrFault s [x.gid] m.arr.toNat = none)
  (hback : heldBack s x.w true = false) (hal : (srcLane s x w a 2 0).toNat % 64 = 0)
include hw hg harr hback hal

theorem csrgBody_waits (hany : anyReq s x.w = true) : csrgBody a b c m x s = .hold .other s := by
  simp only [csrgBody, hw, hg, harr, hback, hal, hany, bne_self_eq_false, Bool.false_eq_true, if_false, if_true]

/-- csrg with a descriptor, a row and a place that it can take: it starts, or waits for room. -/
theorem csrgBody_read (hany : anyReq s x.w = false) (hread : readDesc s x (srcLane s x w a 2 0) 64 = (.ok bs, u))
    (hz : field (ofBytes bs) 511 256 = 0) (hk : ((srcLane s x w c 1 0).setWidth 32).toNat % slabDepth m.fmt = 0)
    (ho : ((srcLane s x w b 1 0).setWidth 32).toNat % 128 = 0)
    (hsize : ((srcLane s x w b 1 0).setWidth 32).toNat + (128 + 4096 * slabs m.ns) ≤ g.winSize) :
    csrgBody a b c m x s =
      if engFull u x.gid .csrg = true then .hold .other u
      else .done (addEng u { EngOp.blank u x .csrg m.arr.toNat with
        desc := bs, k0 := ((srcLane s x w c 1 0).setWidth 32).toNat, fmt := m.fmt, ns := slabs m.ns,
        dst := ((srcLane s x w b 1 0).setWidth 32).toNat, total := 128 + 4096 * slabs m.ns }) := by
  simp only [csrgBody, hw, hg, harr, hback, hal, hany, loWord_eq_setWidth, bne_self_eq_false, Bool.false_eq_true, if_false]
  rw [hread]
  simp only [hz, hk, ho, bne_self_eq_false, Bool.or_self, Bool.false_eq_true, if_false, Nat.not_lt.mpr hsize]

end

/-- Settles O32: a copy and a multicast start alike, where their elements lie in their windows. -/
theorem engineOperations : Obligations.EngineOperations := by
  intro p a b c xe me ge w g bs u
  refine ⟨?_, ?_, ?_⟩
  · intro d far near arrs named ok
    have hal {s : State} {x : Issue} (h : (if xe.dsp = true then near s x else (far s x).toNat) % 64 = 0) :
        (descAt s x w a xe).toNat % 64 = 0 := by
      rw [toNat_descAt]
      exact h
    have hbody {s : State} {x : Issue} (h : ok s x) :
        outside u (d.elems u x.gid) = none ∧
          xcopyBody a xe x s = startCopy u x .xcopy bs xe.arr.toNat (arrs x) (d.elems u x.gid) d.meets := by
      obtain ⟨⟨hw, hg, harr, hback, h64⟩, hany, hread, hok, hend, harr', hout⟩ := h
      refine ⟨hout, xcopyBody_read hw hg harr hback (hal h64) hany ?_ hok hend rfl harr'⟩
      rcases hread with ⟨hd, hr⟩ | ⟨hd, hsize, hbad, hbs, hu⟩
      · have hat : descAt s x w a xe = far s x := by rw [descAt, hd]; rfl
        exact .inl ⟨hd, by rw [hat, hr]⟩
      · have hat : (descAt s x w a xe).toNat = near s x := by rw [toNat_descAt, hd]; rfl
        exact .inr ⟨hd, by rw [hat]; exact hsize, by rw [hat]; exact hbad, by rw [hat]; exact hbs, hu⟩
    refine ⟨completes_of_body (fun _ => rfl) fun s x _ ⟨h, hfull⟩ => ?_,
      waits_of_body (fun _ => rfl) fun s x _ ⟨⟨hw, hg, harr, hback, h64⟩, hany⟩ =>
        xcopyBody_waits hw hg harr hback (hal h64) hany,
      fun s x hx h hfull => exec_of_hold rfl hx ?_⟩
    · rw [(hbody h).2, startCopy_room (hbody h).1 hfull]
    · rw [(hbody h).2, startCopy_full (hbody h).1 hfull]
  · intro src off mask ok
    have hbody {s : State} {x : Issue} (h : ok s x) :
        outside s (mcElems s x.gid (src s x) (mask s x) (off s x) me) = none ∧
          mcastBody a b c me x s = startCopy s x .mcast (bytesOf (mcFields (src s x) (mask s x) (off s x) me) 28) me.arr.toNat
            (peersOf s x.gid (mask s x)) (mcElems s x.gid (src s x) (mask s x) (off s x) me) false := by
      obtain ⟨hw, hback, h0, hlt, harr, hsrc, hstr, hoff, hout⟩ := h
      exact ⟨hout, mcastBody_starts hw hback h0 hlt harr hsrc hstr hoff⟩
    refine ⟨completes_of_body (fun _ => rfl) fun s x _ ⟨h, hfull⟩ => ?_, waits_of_body (fun _ => rfl) fun s x _ ⟨h, hfull⟩ => ?_⟩
    · rw [(hbody h).2, startCopy_room (hbody h).1 hfull]
    · rw [(hbody h).2, startCopy_full (hbody h).1 hfull]
  · intro off k0 named ok
    refine ⟨completes_of_body (fun _ => rfl) fun s x _ ⟨⟨⟨hw, hg, harr, hback, hal⟩, hany, hread, hz, hk, ho, hsize⟩,
      hfull⟩ => ?_,
      waits_of_body (fun _ => rfl) fun s x _ ⟨⟨hw, hg, harr, hback, hal⟩, hany⟩ => csrgBody_waits hw hg harr hback hal hany,
      fun s x hx ⟨⟨hw, hg, harr, hback, hal⟩, hany, hread, hz, hk, ho, hsize⟩ hfull => exec_of_hold rfl hx ?_⟩
    · rw [csrgBody_read hw hg harr hback hal hany hread hz hk ho hsize, if_neg (ne_true_of_eq_false hfull)]
    · rw [csrgBody_read hw hg harr hback hal hany hread hz hk ho hsize, if_pos hfull]

/-! ### estat and ecancel (R221, R222) -/

theorem arrOf_eq (s : State) (x : Issue) (a : Option Operand) : arrOf s x a = a.map fun o => src32 s x o := by
  cases a with
  | none => rfl
  | some o => exact congrArg some (sc32_eq s x o)

/-- Settles O33: each clause's conditions select one branch of the body. -/
theorem engineStatus : Obligations.EngineStatus := by
  intro p d a g w word key
  refine ⟨completes_of_body (fun _ => rfl) fun s x _ hg => ?_, completes_of_body (fun _ => rfl) fun s x _ ⟨hw, hc, hnone⟩ => ?_,
    completes_of_body (fun _ => rfl) fun s x _ ⟨hw, hc, hstop⟩ => ?_, fun s x hx hw hc hsome => exec_of_hold rfl hx ?_⟩
  · simp only [arrOf_eq, hg, Option.map_some, Option.getD_some]
    rfl
  · rw [here] at hw
    simp only [word] at hnone
    simp only [arrOf_eq, hw, hc, hnone, Option.map_some, Option.getD_some, Bool.false_eq_true, if_false,
      List.isEmpty_nil, if_true]
  · rw [here] at hw
    have hany : ((engsOf s x.gid (a.map fun o => src32 s x o)).any fun e => e.2.stopping) = false := by
      rw [List.any_eq_false]
      intro e he
      rw [hstop e he]
      exact Bool.false_ne_true
    simp only [arrOf_eq, hw, hc, hany, Option.map_some, Option.getD_some, Bool.false_eq_true, if_false, if_true]
  · rw [here] at hw
    have hne : (engsOf s x.gid (a.map fun o => src32 s x o)).isEmpty = false := by simpa using hsome
    simp only [arrOf_eq, hw, hc, hne, Option.map_some, Option.getD_some, Bool.false_eq_true, if_false]
    rfl

end Sys2Proof.Machine
end

section
/-! SUPPORT. Units of a warp, traps on their way, and replies. -/

namespace Sys2Proof.Machine

open Sys2Proof Claims

/-! ### Units of a warp (R22, R23, R130, R157, R199, R203) -/

section

variable {s : State} {w : WarpId} {x : Warp} {q : QOp} {rest : List QOp} (hw : s.warp? w = some x)
include hw

theorem spinExcursion_starts (hspin : 256 ≤ x.spin) (hrep : x.rep.act = false) :
    execSpinExcursion w s = .next (s.setWarp w (startExcursion x)) := by
  simp only [execSpinExcursion, hw, decide_eq_true hspin, hrep, Bool.not_false, Bool.and_self, if_true]

theorem excursionLimit_ends (hexc : x.exc ≠ 0) (hcount : 1024 ≤ x.excCount) (hrep : x.rep.act = false) :
    execExcursionLimit w s = .next (s.setWarp w (endExcursion x)) := by
  simp only [execExcursionLimit, hw, bne_iff_ne.mpr hexc, decide_eq_true hcount, hrep, Bool.not_false, Bool.and_self, if_true]

/-- The oldest operation of a queue completes: its results are written, and its flags are those of a warp that has not ended. -/
theorem queueCompletion_writes {sf : Bool} (hq : (if sf then x.sfq else x.cvq) = q :: rest) (hb : queueBlocked s w q = false) :
    execQueueCompletion w sf s =
      let t := q.dests.foldl (fun u d => queueWrite u w d)
        (s.setWarp w (if sf then { x with sfq := rest } else { x with cvq := rest }))
      .next (if x.exited then t else orFstat t w q.flags) := by
  simp only [execQueueCompletion, hw, hq, hb, Bool.false_eq_true, if_false]

end

/-- Settles O34: each step finds what its conditions name. -/
theorem warpUnitSteps : Obligations.WarpUnitSteps := by
  intro w x l c wt g q rest m ms cv i
  refine ⟨fun s ⟨hw, hspin, hrep⟩ => spinExcursion_starts hw hspin hrep,
    fun s ⟨hw, hexc, hcount, hrep⟩ => excursionLimit_ends hw hexc hcount hrep,
    fun s ⟨hw, hq, hexit, hb⟩ => ?_, fun s ⟨hw, hq, hexit, hb⟩ => ?_, fun s ⟨hw, hq, hexit, hb⟩ => ?_,
    fun s ⟨hw, hq, hexit, hb⟩ => ?_, fun s ⟨hc, ht, hn, hg, hr⟩ => ?_, fun s ⟨hc, ht, hn, hg, hr⟩ => ?_,
    fun s ⟨hc, hw, hi, hgo⟩ => ?_, fun s ⟨hm, hl⟩ => ?_⟩
  · refine (queueCompletion_writes (sf := true) hw hq hb).trans ?_
    simp only [hexit, Bool.false_eq_true, if_false, if_true]
  · refine (queueCompletion_writes (sf := false) hw hq hb).trans ?_
    simp only [hexit, Bool.false_eq_true, if_false]
  · refine (queueCompletion_writes (sf := true) hw hq hb).trans ?_
    simp only [hexit, if_true]
  · refine (queueCompletion_writes (sf := false) hw hq hb).trans ?_
    simp only [hexit, Bool.false_eq_true, if_false, if_true]
  · show execUntrackedRetest w l s = _
    simp only [execUntrackedRetest, hc, ht, decide_eq_false (Nat.not_lt.mpr hn), hg, hr, Bool.or_self,
      Bool.false_eq_true, if_false,
      if_true]
    rfl
  · show execUntrackedRetest w l s = _
    simp only [execUntrackedRetest, hc, ht, decide_eq_false (Nat.not_lt.mpr hn), hg, hr, Bool.or_self,
      Bool.false_eq_true, if_false]
  · show execDeferredMatrixIssue w cv s = _
    simp only [execDeferredMatrixIssue, hc, hw, hi, hgo, Option.map_some, Bool.not_true, Bool.false_eq_true, if_false]
  · show execMatrixOpComplete c s = _
    simp only [execMatrixOpComplete, hm, hl, Bool.false_eq_true, if_false]

/-! ### Asynchronous traps (R228, R232) -/

theorem sInsert_sInsert_same {α : Type} (m : Store α) (k : Nat) (u v : α) : sInsert (sInsert m k u) k v = sInsert m k v := by
  induction m with
  | nil => simp [sInsert]
  | cons e m ih =>
    obtain ⟨j, w⟩ := e
    by_cases hlt : k < j
    · simp [sInsert, hlt]
    · by_cases heq : k = j
      · simp [sInsert, heq]
      · simp [sInsert, hlt, heq, ih]

/-- Adjusting a warp that has just been set sets the adjusted one. -/
theorem modWarp_setWarp (s : State) (w : WarpId) (y : Warp) (f : Warp → Warp) :
    (s.setWarp w y).modWarp w f = s.setWarp w (f y) := by
  have h : (s.setWarp w y).warp? w = some y := by rw [State.warp?_setWarp, if_pos rfl]
  rw [modWarp_of_here h]
  show ({ s with warps := sInsert (sInsert s.warps w y) w (f y) } : State) = _
  rw [sInsert_sInsert_same]
  rfl

/-- The first of two pending traps to take: the one of the lower cause, and the earlier of one cause. -/
def earlier (m : Option Async) (a : Async) : Option Async :=
  match m with
  | none => some a
  | some b => if a.cause < b.cause then some a else some b

/-- A fold over pending traps ends with the one whose cause is below all others. -/
theorem foldl_earlier {a : Async} (l : List Async) (hlow : ∀ b ∈ l, b = a ∨ a.cause < b.cause) (m : Option Async)
    (h : (a ∈ l ∧ ∀ b, m = some b → b = a ∨ a.cause < b.cause) ∨ m = some a) : l.foldl earlier m = some a := by
  induction l generalizing m with
  | nil =>
    rcases h with ⟨hmem, -⟩ | h
    · cases hmem
    · exact h
  | cons e l ih =>
    have hlow' : ∀ b ∈ l, b = a ∨ a.cause < b.cause := fun b hb => hlow b (by simp [hb])
    rw [List.foldl_cons]
    refine ih hlow' _ ?_
    rcases hlow e (by simp) with rfl | he
    · refine .inr ?_
      cases m with
      | none => rfl
      | some b =>
        rcases h with ⟨-, hm⟩ | h
        · rcases hm b rfl with rfl | hb
          · simp [earlier]
          · simp [earlier, hb]
        · obtain rfl := Option.some.inj h
          simp [earlier]
    · cases m with
      | none =>
        rcases h with ⟨hmem, -⟩ | h
        · have hne : a ≠ e := fun h' => by rw [h'] at he; omega
          refine .inl ⟨(List.mem_cons.mp hmem).resolve_left hne, fun b hb => ?_⟩
          obtain rfl := Option.some.inj hb
          exact .inr he
        · cases h
      | some b =>
        rcases h with ⟨hmem, hm⟩ | h
        · have hne : a ≠ e := fun h' => by rw [h'] at he; omega
          refine .inl ⟨(List.mem_cons.mp hmem).resolve_left hne, fun c hc => ?_⟩
          by_cases hlt : e.cause < b.cause
          · rw [earlier, if_pos hlt] at hc
            obtain rfl := Option.some.inj hc
            exact .inr he
          · rw [earlier, if_neg hlt] at hc
            obtain rfl := Option.some.inj hc
            exact hm b rfl
        · obtain rfl := Option.some.inj h
          exact .inr (by rw [earlier, if_neg (by omega)])

/-- The pending trap of the lowest cause is taken. -/
theorem takeAsync_eq {s : State} {w : WarpId} {x : Warp} {a : Async} (hw : s.warp? w = some x) (hmem : a ∈ x.asyncs)
    (hlow : ∀ b ∈ x.asyncs, b = a ∨ a.cause < b.cause) :
    takeAsync s w = takeTrap (s.setWarp w { x with asyncs := x.asyncs.filter fun b => b.cause != a.cause }) w
      { cause := a.cause, addr := a.addr, code := 0, lanes := a.lanes, async := true, inrep := x.rep.act,
        brk := false, defl := none, data := [], addr0 := 0, next := none, queued := false } := by
  have hfold : x.asyncs.foldl earlier none = some a := foldl_earlier _ hlow none (.inl ⟨hmem, fun b hb => by cases hb⟩)
  rw [takeAsync, hw]
  dsimp only
  generalize hm : List.foldl _ none x.asyncs = r
  obtain rfl : r = some a := hm.symm.trans hfold
  rfl

/-! ### Curator queues and handlers (R229 to R233, R366) -/

theorem not_caught {s : State} {w : WarpId} {x : Warp} {t : Trap}
    (h : ((t.brk = false ∨ s.dbg.tag ≠ some x.tag) ∧ ∀ c ∈ s.dbg.catches, c.2 ≠ (t.cause, x.tag)) ∨ w ∈ s.dbg.letGo) :
    (caught s x t && !s.dbg.letGo.contains w) = false := by
  rcases h with ⟨hb, hc⟩ | hgo
  · have hbrk : (t.brk && s.dbg.tag == some x.tag) = false := by
      rcases hb with hb | hb
      · rw [hb, Bool.false_and]
      · rw [beq_eq_false_iff_ne.mpr hb, Bool.and_false]
    have hcatch : (s.dbg.catches.any fun c => c.2 == (t.cause, x.tag)) = false := by
      rw [List.any_eq_false]
      intro c hc'
      rw [beq_eq_false_iff_ne.mpr (hc c hc')]
      exact Bool.false_ne_true
    rw [caught, hbrk, hcatch]
    rfl
  · rw [List.contains_iff_mem.mpr hgo, Bool.not_true, Bool.and_false]

theorem caught_of {s : State} {w : WarpId} {x : Warp} {t : Trap}
    (h : (t.brk = true ∧ s.dbg.tag = some x.tag) ∨ ∃ c ∈ s.dbg.catches, c.2 = (t.cause, x.tag)) (hgo : w ∉ s.dbg.letGo) :
    (caught s x t && !s.dbg.letGo.contains w) = true := by
  have hcaught : caught s x t = true := by
    rcases h with ⟨hb, ht⟩ | ⟨c, hc, heq⟩
    · rw [caught, hb, ht, beq_self_eq_true]
      rfl
    · have hany : (s.dbg.catches.any fun c => c.2 == (t.cause, x.tag)) = true :=
        List.any_eq_true.mpr ⟨c, hc, beq_iff_eq.mpr heq⟩
      rw [caught, hany, Bool.or_true]
  have hnot : s.dbg.letGo.contains w = false := by
    rw [← Bool.not_eq_true, List.contains_iff_mem]
    exact hgo
  rw [hcaught, hnot]
  rfl

section

variable {s : State} {d i : Nat} {v : WarpId} {rest : List WarpId} {x : Warp} {t : Trap}

/-- A handler of die `d` has begun at place `i` for the trap of warp `v`. -/
def handlerStarted (d i : Nat) (v : WarpId) (rest : List WarpId) (pc : Addr) (s : State) : State :=
  { s with
    tick := s.tick + 1
    sup := { s.sup with traps := sSet [] s.sup.traps d rest }
    warps := sInsert s.warps (16 * (32 * (768 + d)) + i) { Warp.start 64 pc 0 i (i % 4) with serves := some v }
    order := s.order ++ [16 * (32 * (768 + d)) + i] }

variable (hq : sFind? s.sup.traps d = some (v :: rest)) (hon : s.host.off.contains 1 = false)
  (hplace : ((List.range 16).find? fun i => placeFree s (16 * (32 * (768 + d)) + i)) = some i)
  (hv : s.warp? v = some x) (ht : x.halt = some t)
include hq hon hplace hv ht

/-- The oldest trap of a queue gets its handler in the curator's group. -/
theorem execHandlerStart_group {g : Group} (hg : s.group? (32 * (768 + d)) = some g) :
    execHandlerStart d s =
      let pc := sGet 0 s.sup.trapbase d + BitVec.ofNat 64 (64 * t.cause)
      let u := handlerStarted d i v rest pc s
      .next (if legalVa pc then u else supervisorFault u (16 * (32 * (768 + d)) + i) 0x10 pc) := by
  have hv' : State.warp? { s with sup := { s.sup with traps := sSet [] s.sup.traps d rest } } v = some x := hv
  have hg' : (State.draw { s with sup := { s.sup with traps := sSet [] s.sup.traps d rest } }).2.group?
    (32 * (768 + d)) = some g := hg
  simp only [execHandlerStart, hon, hq, Option.getD_some, Bool.false_eq_true, if_false, hplace, hv', Option.bind_some, ht, hg',
    Option.isSome_some, if_true]
  rfl

/-- Where the curator has no group, it is made. -/
theorem execHandlerStart_new (hg : s.group? (32 * (768 + d)) = none) :
    execHandlerStart d s =
      let pc := sGet 0 s.sup.trapbase d + BitVec.ofNat 64 (64 * t.cause)
      let u := { handlerStarted d i v rest pc s with
        groups := sInsert s.groups (32 * (768 + d)) { curatorGroup d with seed := s.tick } }
      .next (if legalVa pc then u else supervisorFault u (16 * (32 * (768 + d)) + i) 0x10 pc) := by
  have hv' : State.warp? { s with sup := { s.sup with traps := sSet [] s.sup.traps d rest } } v = some x := hv
  have hg' : (State.draw { s with sup := { s.sup with traps := sSet [] s.sup.traps d rest } }).2.group?
    (32 * (768 + d)) = none := hg
  simp only [execHandlerStart, hon, hq, Option.getD_some, Bool.false_eq_true, if_false, hplace, hv', Option.bind_some, ht, hg',
    Option.isSome_none]
  rfl

end

/-- A deadline's count has run out (R304). -/
theorem deadline_over {c : DWord} (h63 : c.getLsbD 63 = true) (h0 : c.toNat % 2 ^ 48 = 0) :
    (bit c 63 && bits c 47 0 == 0) = true := by
  have hlow : bits c 47 0 = c.toNat % 2 ^ 48 := by simp [bits, field]
  rw [hlow, h0, bit, h63]
  rfl

/-- Settles O35: each step finds what its conditions name. -/
theorem trapSteps : Obligations.TrapSteps := by
  intro w v x t a d i rest tag cause g entry place taken started
  refine ⟨fun s ⟨hw, hh, hc, he, hs, hmem, hlow⟩ => ?_, fun s ⟨hw, hh, hq, hst, hno, hlen⟩ => ?_,
    fun s ⟨hw, hh, hq, hst, hyes, hgo, hsf, hcv, hd⟩ => ?_, fun s ⟨⟨hq, hon, hp, hv, ht⟩, hg, hva⟩ => ?_,
    fun s ⟨⟨hq, hon, hp, hv, ht⟩, hg, hva⟩ => ?_, fun s ⟨⟨hq, hon, hp, hv, ht⟩, hg, hva⟩ => ?_,
    fun s ⟨⟨hq, hon, hp, hv, ht⟩, hg, hva⟩ => ?_, fun s ⟨h63, h0, hcnt, e, he, htag, hover⟩ => ?_,
    fun s ⟨hc, hh, hr⟩ => ?_⟩
  · show execAsyncTrap w s = _
    have hmay : (x.halt.isNone && x.cow.isNone && !x.exited) = true := by rw [hh, hc, he]; rfl
    simp only [execAsyncTrap, hw, hmay, if_true]
    rw [takeAsync_eq hw hmem hlow, takeTrap, hs, if_neg Bool.false_ne_true, modWarp_setWarp]
    simp only [Hold.trapped, beq_iff_eq]
  · show execTrapEnqueue w s = _
    have hlen' : (t.queued || decide (1024 ≤ ((sFind? s.sup.traps (dieOf (cuOf (gidOf w)))).getD []).length)) = false := by
      rw [hq, decide_eq_false (Nat.not_le.mpr hlen)]
      rfl
    simp only [execTrapEnqueue, hw, hh, hst, hq, not_caught hno, Bool.or_self, Bool.false_eq_true, if_false, queueTrap]
    rw [hq] at hlen'
    simp only [hlen', Bool.false_eq_true, if_false]
  · show execTrapEnqueue w s = _
    have hdone : destsWritten s w x = true := by
      have hnone : (s.reqs.any fun e => e.2.wid == w && e.2.dst.isSome) = false := by
        rw [List.any_eq_false]
        intro e he
        rw [Bool.not_eq_true, Bool.and_eq_false_imp, beq_iff_eq]
        intro hwid
        rw [hd e he hwid]
        rfl
      rw [destsWritten, hsf, hcv, hnone]
      rfl
    simp only [execTrapEnqueue, hw, hh, hst, hq, caught_of hyes hgo, hdone, Bool.or_self, Bool.false_eq_true, if_false, if_true,
      stopWarp, stopLine]
    rfl
  · exact (execHandlerStart_group hq hon hp hv ht hg).trans (congrArg Host.Outcome.next (if_pos hva))
  · exact (execHandlerStart_new hq hon hp hv ht hg).trans (congrArg Host.Outcome.next (if_pos hva))
  · exact (execHandlerStart_group hq hon hp hv ht hg).trans (congrArg Host.Outcome.next (if_neg (ne_true_of_eq_false hva)))
  · exact (execHandlerStart_new hq hon hp hv ht hg).trans (congrArg Host.Outcome.next (if_neg (ne_true_of_eq_false hva)))
  · show execDeadlineOverrun tag s = _
    have hlive : (s.launches.all fun e => e.2.tag != tag || launchOver s e.1 e.2) = false := by
      rw [List.all_eq_false]
      exact ⟨e, he, by rw [htag, bne_self_eq_false, hover]; exact Bool.false_ne_true⟩
    simp only [execDeadlineOverrun, deadline_over h63 h0, hcnt, hlive, Bool.not_false, Bool.and_self, if_true]
  · show execPartitionHalt tag cause s = _
    simp only [execPartitionHalt, bne_iff_ne.mpr hc, hh, beq_self_eq_true, hr, Bool.and_self, if_true]

/-! ### Replies to requests (R143, R150, R151, R320) -/

/-- A request that returns a value is no fetch and no read of a record. -/
theorem not_fetch_of_returns {q : ReqKind} (h : returnsValue q = true) : (q == .fetch || q == .read) = false := by
  cases q with
  | fetch => cases h
  | read => cases h
  | _ => rfl

section

variable {s : State} {k : Nat} {r : Req} {y : ExtReply} (hr : asked s k r) (hv : returnsValue r.kind = true)
include hr hv

theorem execLoadReply_reply (hs : r.stage = .reply) (hp : ∀ rt, r.kind ≠ .tileLd rt) :
    execLoadReply k y s = .next (deliverReply s k r r.vals) := by
  rw [asked] at hr
  simp only [execLoadReply, hr, not_fetch_of_returns hv, hv, hs, Bool.not_true, Bool.false_eq_true, if_false]

theorem execLoadReply_tile (hs : r.stage = .reply) {rt : ReqType} (hk : r.kind = .tileLd rt) :
    execLoadReply k y s = .next (deliverTile s k r r.vals) := by
  rw [asked] at hr
  simp only [execLoadReply, hr, not_fetch_of_returns hv, hv, hs, Bool.not_true, Bool.false_eq_true, if_false]
  rw [hk]

theorem execLoadReply_values {vs : List ExtVal} (hs : r.stage = .ext) (hp : ∀ rt, r.kind ≠ .tileLd rt)
    (ha : farAnswers s r = true) :
    execLoadReply k (.vals vs) s =
      .next (extCascades (deliverReply (farDone (depart s r).2 r) k r (extVals s r vs)) r.wid (.vals vs)) := by
  rw [asked] at hr
  simp only [execLoadReply, hr, not_fetch_of_returns hv, hv, hs, ha, Bool.not_true, Bool.false_eq_true, if_false, if_true]

theorem execLoadReply_error (hs : r.stage = .ext) (hp : ∀ rt, r.kind ≠ .tileLd rt)
    (ha : farAnswers s r = true ∨ farRefused s r = true) :
    execLoadReply k .error s =
      .next (deliverReply (r.accs.foldl (fun u a => violate u 1 0x15 r.ctx a.pa (srcOf r.cu)) s) k r (extErrs r)) := by
  have ha' : (!(farAnswers s r || farRefused s r)) = false := by
    rw [Bool.not_eq_false', Bool.or_eq_true]
    exact ha
  rw [asked] at hr
  simp only [execLoadReply, hr, not_fetch_of_returns hv, hv, hs, ha', Bool.not_true, Bool.false_eq_true, if_false]

end

/-! ### Stores and the like -/

theorem depart_kind (s : State) (r : Req) : (depart s r).1.kind = r.kind := by
  unfold depart
  split
  · split
    · rfl
    · split <;> rfl
  · rfl

/-- An acceptance from another package that carries nothing: the copies here follow, and the flags enter FSTAT. -/
theorem acceptFar_none {r : Req} (h : r.kind ≠ .wback) (s : State) (k : Nat) :
    acceptFar s k r .none = freeReq (orFstat (farDone s r) r.wid (orAll (r.vals.map fun v => v.flags))) k := by
  have hflags (f : Word) : f ||| extFlags .none = f := BitVec.or_zero
  unfold acceptFar
  split
  · next hx => cases hx
  · next hx => cases hx
  · next hx => cases hx
  · next hk => exact absurd hk h
  · rw [hflags]
    rfl

theorem endsAccepted_of {r : Req} (h : r.kind.writes = true ∧ returnsValue r.kind = false ∧ r.accs ≠ []) :
    endsAccepted r = true := by
  obtain ⟨hw, hv, ha⟩ := h
  rw [endsAccepted, hw, hv]
  simpa using ha

/-- Settles O36: each reply finds the request at its stage. -/
theorem requestSteps : Obligations.RequestSteps := by
  intro k r vs op home y plain ends sent refuse flags
  refine ⟨fun s ⟨hr, ⟨hv, hp⟩, hs⟩ => execLoadReply_reply hr hv hs hp,
    fun s ⟨hr, hs, rt, hk⟩ => execLoadReply_tile hr (by rw [hk]; rfl) hs hk,
    fun s ⟨hr, ⟨hv, hp⟩, hs, ha⟩ => execLoadReply_values hr hv hs hp ha,
    fun s ⟨hr, ⟨hv, hp⟩, hs, ha⟩ => execLoadReply_error hr hv hs hp ha,
    fun s ⟨hr, he, hs⟩ => ?_, fun s ⟨hr, he, hk, hs, ha⟩ => ?_, fun s ⟨hr, he, hs⟩ => ?_, fun s ⟨hr, he, hs, ha⟩ => ?_,
    fun s hr => ?_, fun rs s ⟨hr, hk, ho, hrs, hst⟩ => ?_, fun ls u s ⟨hr, hk, ho, hls, hd, hu, hc⟩ => ?_,
    fun s ⟨hr, hk, hf⟩ => ?_⟩
  · rw [asked] at hr
    show execStoreAcceptance ⟨k, y⟩ s = _
    simp only [execStoreAcceptance, hr, endsAccepted_of he, hs, beq_self_eq_true, Bool.not_true,
      Bool.false_eq_true, if_false, if_true]
    rfl
  · rw [asked] at hr
    show execStoreAcceptance ⟨k, .none⟩ s = _
    have hnot : (r.stage == .reply) = false := by rw [hs]; rfl
    simp only [execStoreAcceptance, hr, endsAccepted_of he, hnot, ha, Bool.not_true, Bool.false_eq_true, if_false, if_true]
    rw [acceptFar_none ((depart_kind s r).symm ▸ hk)]
  · rw [asked] at hr
    show execStoreErrorResponse ⟨k, y⟩ s = _
    simp only [execStoreErrorResponse, hr, endsAccepted_of he, hs, beq_self_eq_true, Bool.not_true, Bool.false_eq_true, if_false,
      if_true]
    rfl
  · rw [asked] at hr
    show execStoreErrorResponse ⟨k, y⟩ s = _
    have hnot : (r.stage == .refused) = false := by rw [hs]; rfl
    have ha' : (farAnswers s r || farRefused s r) = true := by simpa using ha
    simp only [execStoreErrorResponse, hr, endsAccepted_of he, hnot, ha', Bool.not_true, Bool.false_eq_true, if_false, if_true]
    rfl
  · have hr' : sFind? s.reqs k = some r := hr
    show execBusyResend k s = _
    simp only [execBusyResend, hr']
    rfl
  · rw [asked] at hr
    show execRangeOpComplete k s = _
    subst hrs
    simp only [execRangeOpComplete, hr, hk, ho, hst, Bool.or_self, Bool.false_eq_true, if_false, beq_iff_eq]
  · rw [asked] at hr
    show execAccdrainComplete k s = _
    have hgo : (r.kind == .drain && !earlierOpen s k r) = true := by rw [hk, ho]; rfl
    have hdr : (ls.any fun l => !farDrained s l) = false := by
      rw [List.any_eq_false]
      intro l hl
      rw [hd l hl]
      exact Bool.false_ne_true
    have hnone : (u.combines.any fun e => ls.contains e.2.line && (r.scp == .gal || r.scp == .sys || decide (e.2.cu < 1024)))
        = false := by
      rw [List.any_eq_false]
      intro e he
      rw [Bool.not_eq_true, Bool.and_eq_false_imp, List.contains_iff_mem]
      intro hl
      obtain ⟨hcu, hgal, hsys⟩ := hc e he hl
      rw [beq_eq_false_iff_ne.mpr hgal, beq_eq_false_iff_ne.mpr hsys, decide_eq_false (Nat.not_lt.mpr hcu)]
      rfl
    subst hls
    simp only [execAccdrainComplete, hr, hgo, if_true, hdr, hu, hnone, Bool.false_eq_true, if_false]
  · rw [asked] at hr
    show execIcinvComplete k s = _
    have hcoming : (s.reqs.any fun e => e.2.kind == .fetch && ((icScope s r.cu r.scp).contains e.2.cu || e.2.cu == r.cu)
        && meets (rangePages s r.ctx r.span.1 r.span.2 fun _ => true) (32 * e.2.blk) 32) = false := by
      rw [List.any_eq_false]
      intro e he
      rw [beq_eq_false_iff_ne.mpr (hf e he), Bool.false_and, Bool.false_and]
      exact Bool.false_ne_true
    have hkind : (r.kind != .icinv) = false := by rw [hk]; rfl
    simp only [execIcinvComplete, hr, hkind, hcoming, Bool.or_self, Bool.false_eq_true, if_false]
    rfl

end Sys2Proof.Machine
end

section
/-! SUPPORT. Bytes at the homes, and what a home does to a word (R315). -/

namespace Sys2Proof.Machine

open Sys2Proof Claims

/-! ### Bytes at their homes -/

/-- A state with the same fabric, registers and bytes of memory, whatever its copies, tags and marks. -/
def SameBytes (s t : State) : Prop :=
  t.fab = s.fab ∧ t.sup = s.sup ∧ t.mem.bytes = s.mem.bytes ∧ t.mem.msc = s.mem.msc ∧ t.mem.l2 = s.mem.l2 ∧ t.mem.dev = s.mem.dev
    ∧ t.mem.prox = s.mem.prox

namespace SameBytes

variable {s t u : State}

theorem refl (s : State) : SameBytes s s := ⟨rfl, rfl, rfl, rfl, rfl, rfl, rfl⟩

theorem trans (h : SameBytes s t) (h' : SameBytes t u) : SameBytes s u := by
  obtain ⟨hf, hs, hb, hm, hl, hd, hp⟩ := h
  obtain ⟨hf', hs', hb', hm', hl', hd', hp'⟩ := h'
  exact ⟨hf'.trans hf, hs'.trans hs, hb'.trans hb, hm'.trans hm, hl'.trans hl, hd'.trans hd, hp'.trans hp⟩

theorem foldl {α : Type} {f : State → α → State} (l : List α) (h : ∀ s a, SameBytes s (f s a)) (s : State) :
    SameBytes s (l.foldl f s) :=
  foldl_keeps (P := SameBytes s) l (fun t ht a => ht.trans (h t a)) (refl s)

end SameBytes

theorem spaceOf_congr {s t : State} (h : t.fab = s.fab) (a : Nat) : spaceOf t a = spaceOf s a := by
  rw [spaceOf, spaceOf, h]

theorem devKey_congr {s t : State} (h : t.fab = s.fab) (a : Nat) : devKey t a = devKey s a := by
  rw [devKey, devKey, decoderOf, decoderOf, h]

theorem poolWay_congr {s t : State} (hf : t.fab = s.fab) (hs : t.sup = s.sup) (a : Nat) : poolWay t a = poolWay s a := by
  have hd : decoderOf t a = decoderOf s a := by rw [decoderOf, decoderOf, hf]
  have hp (n : Nat) : pgActive t n 2 = pgActive s n 2 := by
    simp only [pgActive, pgPers, pgState, pgctl, hf, hs]
  simp only [poolWay, hd, hp, hf]

/-- A byte that is no view's reads alike where the bytes of memory are the same. -/
theorem SameBytes.homeByte {s t : State} (h : SameBytes s t) {a : Nat} (ha : spaceOf s a ≠ .view) :
    homeByte t a = homeByte s a := by
  obtain ⟨hf, hs, hb, hm, hl, hd, hp⟩ := h
  have hslice : sliceByte t a = sliceByte s a := by
    simp only [sliceByte, plinthByte, hl, hm, hb, hd, devKey_congr hf]
  simp only [Machine.homeByte, homeByte?, spaceOf_congr hf, hslice, poolWay_congr hf hs, proxOf, hp]
  cases hsp : spaceOf s a with
  | view => exact absurd hsp ha
  | _ => rfl

theorem setHomeByte_host {s : State} {pa : Nat} (h : spaceOf s pa = .host) (b : Byte) :
    setHomeByte s pa b = { s with mem := { s.mem with bytes := sSet 0 s.mem.bytes pa b } } := by
  rw [setHomeByte, h]

theorem setHomeByte_l2 {s : State} {pa : Nat} (h : spaceOf s pa ≠ .host) (b : Byte) :
    setHomeByte s pa b = { s with mem := { s.mem with l2 := sInsert s.mem.l2 pa b } } := by
  rw [setHomeByte]
  split
  · exact absurd ‹_› h
  · rfl

theorem setHomeByte_fab (s : State) (pa : Nat) (b : Byte) : (setHomeByte s pa b).fab = s.fab := by
  by_cases h : spaceOf s pa = .host
  · rw [setHomeByte_host h]
  · rw [setHomeByte_l2 h]

theorem setHomeByte_sup (s : State) (pa : Nat) (b : Byte) : (setHomeByte s pa b).sup = s.sup := by
  by_cases h : spaceOf s pa = .host
  · rw [setHomeByte_host h]
  · rw [setHomeByte_l2 h]

/-- A byte that is no view's keeps its value when another is written. -/
theorem homeByte_setHomeByte_other {s : State} {pa a : Nat} (b : Byte) (hne : pa ≠ a) (ha : spaceOf s a ≠ .view) :
    homeByte (setHomeByte s pa b) a = homeByte s a := by
  have hf := setHomeByte_fab s pa b
  have hs := setHomeByte_sup s pa b
  have hslice : sliceByte (setHomeByte s pa b) a = sliceByte s a := by
    have hdev : devKey (setHomeByte s pa b) a = devKey s a := devKey_congr hf a
    rw [sliceByte, sliceByte, plinthByte, plinthByte, hdev]
    by_cases h : spaceOf s pa = .host
    · simp only [setHomeByte_host h, sGet_sSet, hne, if_false]
    · simp only [setHomeByte_l2 h, sFind_sInsert, hne, if_false]
  have hprox : proxOf (setHomeByte s pa b) (a / 4) = proxOf s (a / 4) := by
    by_cases h : spaceOf s pa = .host
    · rw [setHomeByte_host h]; rfl
    · rw [setHomeByte_l2 h]; rfl
  simp only [homeByte, homeByte?, spaceOf_congr hf, hslice, poolWay_congr hf hs, hprox]
  cases hsp : spaceOf s a with
  | view => exact absurd hsp ha
  | _ => rfl

/-- A byte of HBM reads as written. -/
theorem homeByte_setHomeByte_same {s : State} {pa : Nat} (b : Byte) (h : spaceOf s pa = .hbm) :
    homeByte (setHomeByte s pa b) pa = b := by
  have hsp : spaceOf (setHomeByte s pa b) pa = .hbm := (spaceOf_congr (setHomeByte_fab s pa b) pa).trans h
  have hl2 : sFind? (setHomeByte s pa b).mem.l2 pa = some b := by
    rw [l2_setHomeByte (by rw [h]; exact Space.noConfusion), if_pos rfl]
  simp only [homeByte, homeByte?, hsp, sliceByte, hl2, Option.getD_some]

/-- Some bytes written at their homes. -/
def writeBytes (s : State) (bs : Bytes) : State := bs.foldl (fun s e => setHomeByte s e.1 e.2) s

theorem writeBytes_fab (s : State) (bs : Bytes) : (writeBytes s bs).fab = s.fab :=
  foldl_keeps (P := fun t : State => t.fab = s.fab) bs (fun t ht e => (setHomeByte_fab t e.1 e.2).trans ht) rfl

theorem homeByte_writeBytes_other {a : Nat} (bs : Bytes) {s : State} (hs : spares bs a) (ha : spaceOf s a ≠ .view) :
    homeByte (writeBytes s bs) a = homeByte s a := by
  induction bs generalizing s with
  | nil => rfl
  | cons e bs ih =>
    have ha' : spaceOf (setHomeByte s e.1 e.2) a ≠ .view := by
      rw [spaceOf_congr (setHomeByte_fab s e.1 e.2)]
      exact ha
    exact (ih (fun q hq => hs q (by simp [hq])) ha').trans (homeByte_setHomeByte_other e.2 (hs e (by simp)) ha)

theorem homeByte_writeBytes_mem (bs : Bytes) {s : State} (hnd : (bs.map Prod.fst).Nodup) {e : Nat × Byte} (he : e ∈ bs)
    (h : spaceOf s e.1 = .hbm) : homeByte (writeBytes s bs) e.1 = e.2 := by
  induction bs generalizing s with
  | nil => cases he
  | cons q bs ih =>
    rw [List.map_cons, List.nodup_cons] at hnd
    obtain ⟨hq, hnd⟩ := hnd
    have h' : spaceOf (setHomeByte s q.1 q.2) e.1 = .hbm := (spaceOf_congr (setHomeByte_fab s q.1 q.2) e.1).trans h
    rcases List.mem_cons.mp he with rfl | he
    · have hsp : spares bs e.1 := fun p hp heq => hq (List.mem_map.mpr ⟨p, hp, heq⟩)
      exact (homeByte_writeBytes_other bs hsp (by rw [h']; exact Space.noConfusion)).trans (homeByte_setHomeByte_same e.2 h)
    · exact ih hnd he h'

/-! ### One commit (R266, R387) -/

theorem setRelTag_sameBytes (s : State) (w : Nat) (t : BitVec 3) : SameBytes s (s.setRelTag w t) := SameBytes.refl s

theorem setPoison_sameBytes (s : State) (k : Nat) (b : Bool) : SameBytes s (s.setPoison k b) := SameBytes.refl s

theorem homeWrite_sameBytes (s : State) (bs : Bytes) (tag : Option (BitVec 3)) : SameBytes (writeBytes s bs)
    (homeWrite s bs tag) := by
  unfold homeWrite
  refine SameBytes.trans ?_ (SameBytes.foldl _ (fun t k => setPoison_sameBytes t k false) _)
  cases tag with
  | none => exact SameBytes.refl _
  | some t => exact SameBytes.foldl _ (fun u w => setRelTag_sameBytes u w t) _

/-- A commit that touches no watched granule raises no trigger. -/
theorem changedGrans_nil {s : State} {bs : Bytes} (h : ∀ e ∈ bs, frameMap s e.1 = none) : changedGrans s bs = [] := by
  have hnil : (bs.filterMap fun e =>
      if homeByte s e.1 == e.2 then none
      else
        match frameMap s e.1 with
        | none => none
        | some (r, page) =>
          match sFind? s.regions r with
          | none => none
          | some g =>
            if !g.live then none
            else
              let off := e.1 % 65536 / g.gran * g.gran
              some (r, g.base + BitVec.ofNat 64 (65536 * page + off), e.1 / 65536 * 65536 + off)) = [] := by
    rw [List.filterMap_eq_nil_iff]
    intro e he
    rw [h e he]
    split <;> rfl
  exact (congrArg List.eraseDups hnil).trans List.eraseDups_nil

/-- Nor does birfdb trace it. -/
theorem traceCommit_unwatched {s t : State} {bs : Bytes} (h : ∀ e ∈ bs, frameMap s e.1 = none) (wr : Writer) :
    traceCommit s bs wr t = t := by
  unfold traceCommit
  split
  · rfl
  · dsimp only
    rw [List.filterMap_eq_nil_iff.mpr]
    · rfl
    · intro e he
      rw [h e he]

theorem commit_unwatched {s : State} {bs : Bytes} (h : ∀ e ∈ bs, frameMap s e.1 = none) (tag : Option (BitVec 3)) (wr : Writer) :
    commit s bs tag wr = homeWrite s bs tag := by
  rw [commit, commitOver, changedGrans_nil h, traceCommit_unwatched h]
  rfl

theorem homeByte_commit_other {s : State} {bs : Bytes} (h : ∀ e ∈ bs, frameMap s e.1 = none) (tag : Option (BitVec 3))
    (wr : Writer)
    {a : Nat} (hs : spares bs a) (ha : spaceOf s a ≠ .view) : homeByte (commit s bs tag wr) a = homeByte s a := by
  rw [commit_unwatched h, (homeWrite_sameBytes s bs tag).homeByte (by rw [spaceOf_congr (writeBytes_fab s bs)]; exact ha),
    homeByte_writeBytes_other bs hs ha]

theorem homeByte_commit_mem {s : State} {bs : Bytes} (h : ∀ e ∈ bs, frameMap s e.1 = none) (tag : Option (BitVec 3)) (wr : Writer)
    (hnd : (bs.map Prod.fst).Nodup) {e : Nat × Byte} (he : e ∈ bs) (hsp : spaceOf s e.1 = .hbm) :
    homeByte (commit s bs tag wr) e.1 = e.2 := by
  rw [commit_unwatched h, (homeWrite_sameBytes s bs tag).homeByte
    (by rw [spaceOf_congr (writeBytes_fab s bs), hsp]; exact Space.noConfusion), homeByte_writeBytes_mem bs hnd he hsp]

/-! ### Copies of a word and its directory entry -/

theorem l1_setL1 (s : State) (c e : CuId) (w v : Nat) (x : L1Word) :
    (s.setL1 c w x).l1 e v = if c = e ∧ w = v then some x else s.l1 e v := by
  simp only [State.l1, State.setL1, State.cu_modCu]
  by_cases hc : c = e
  · subst hc
    simp only [if_true, sFind_sInsert, true_and]
  · simp only [hc, if_false, false_and]

theorem l1_dropL1 (s : State) (c e : CuId) (w v : Nat) :
    (s.dropL1 c w).l1 e v = if c = e ∧ w = v then none else s.l1 e v := by
  simp only [State.l1, State.dropL1, State.cu_modCu]
  by_cases hc : c = e
  · subst hc
    simp only [if_true, sFind_sErase, true_and]
  · simp only [hc, if_false, false_and]

theorem dir_setDir (s : State) (w v : Nat) (d : Dir) : (s.setDir w d).dir v = if w = v then d else s.dir v := sGet_sSet ..

theorem l1_setDir (s : State) (c : CuId) (w v : Nat) (d : Dir) : (s.setDir w d).l1 c v = s.l1 c v := rfl
theorem dir_setL1 (s : State) (c : CuId) (w v : Nat) (x : L1Word) : (s.setL1 c w x).dir v = s.dir v := rfl

/-! ### A word of HBM that nothing watches (R315) -/

section

variable {s : State} {w : Nat}

theorem field_word (w i hi lo : Nat) (hi4 : i < 4) (hlo : 2 ≤ lo) : field (4 * w + i) hi lo = field (4 * w) hi lo := by
  have h : (4 * w + i) / 2 ^ lo = 4 * w / 2 ^ lo := by
    obtain ⟨k, rfl⟩ := Nat.exists_eq_add_of_le hlo
    rw [Nat.pow_add, ← Nat.div_div_eq_div_mul, ← Nat.div_div_eq_div_mul]
    congr 1
    omega
  rw [field, field, h]

theorem spaceOf_word (s : State) (w : Nat) {i : Nat} (hi : i < 4) : spaceOf s (4 * w + i) = spaceOf s (4 * w) := by
  simp only [spaceOf, field_word w i _ _ hi (by omega : 2 ≤ 44), field_word w i _ _ hi (by omega : 2 ≤ 40)]

theorem frameOf_word (w : Nat) {i : Nat} (hi : i < 4) : frameOf (4 * w + i) = frameOf (4 * w) :=
  field_word w i _ _ hi (by omega)

theorem frameMap_word (s : State) (w : Nat) {i : Nat} (hi : i < 4) : frameMap s (4 * w + i) = frameMap s (4 * w) := by
  rw [frameMap, frameMap, spaceOf_word s w hi, frameOf_word w hi]

theorem watched_word (s : State) (a : Nat) : watched s (a / 4) = (frameMap s a).isSome := by
  have ha : 4 * (a / 4) + a % 4 = a := by omega
  rw [watched, ← frameMap_word s (a / 4) (Nat.mod_lt a (by omega : 0 < 4)), ha]

theorem frameMap_of_unwatched {a : Nat} (h : watched s (a / 4) = false) : frameMap s a = none := by
  rw [watched_word] at h
  exact Option.not_isSome_iff_eq_none.mp (by rw [h]; exact Bool.false_ne_true)

end

/-! ### What a write at the homes leaves -/

/-- Two states with the same copies of words and the same directory. -/
def SameCopies (s t : State) : Prop :=
  t.cus = s.cus ∧ t.mem.dir = s.mem.dir ∧ t.mem.wide = s.mem.wide ∧ t.fab = s.fab ∧ t.sup = s.sup

namespace SameCopies

variable {s t u : State}

theorem refl (s : State) : SameCopies s s := ⟨rfl, rfl, rfl, rfl, rfl⟩

theorem trans (h : SameCopies s t) (h' : SameCopies t u) : SameCopies s u := by
  obtain ⟨hc, hd, hw, hf, hs⟩ := h
  obtain ⟨hc', hd', hw', hf', hs'⟩ := h'
  exact ⟨hc'.trans hc, hd'.trans hd, hw'.trans hw, hf'.trans hf, hs'.trans hs⟩

theorem foldl {α : Type} {f : State → α → State} (l : List α) (h : ∀ s a, SameCopies s (f s a)) (s : State) :
    SameCopies s (l.foldl f s) :=
  foldl_keeps (P := SameCopies s) l (fun t ht a => ht.trans (h t a)) (refl s)

theorem l1 (h : SameCopies s t) (c : CuId) (w : Nat) : t.l1 c w = s.l1 c w := by
  rw [State.l1, State.l1, State.cu, State.cu, h.1]

theorem dir (h : SameCopies s t) (w : Nat) : t.dir w = s.dir w := by
  rw [State.dir, State.dir, h.2.1]

end SameCopies

theorem setHomeByte_sameCopies (s : State) (pa : Nat) (b : Byte) : SameCopies s (setHomeByte s pa b) := by
  by_cases h : spaceOf s pa = .host
  · rw [setHomeByte_host h]
    exact ⟨rfl, rfl, rfl, rfl, rfl⟩
  · rw [setHomeByte_l2 h]
    exact ⟨rfl, rfl, rfl, rfl, rfl⟩

theorem setRelTag_sameCopies (s : State) (w : Nat) (t : BitVec 3) : SameCopies s (s.setRelTag w t) := ⟨rfl, rfl, rfl, rfl, rfl⟩

theorem setPoison_sameCopies (s : State) (k : Nat) (b : Bool) : SameCopies s (s.setPoison k b) := ⟨rfl, rfl, rfl, rfl, rfl⟩

theorem homeWrite_sameCopies (s : State) (bs : Bytes) (tag : Option (BitVec 3)) : SameCopies s (homeWrite s bs tag) := by
  have hbytes : SameCopies s (writeBytes s bs) := SameCopies.foldl bs (fun t e => setHomeByte_sameCopies t e.1 e.2) s
  unfold homeWrite
  refine SameCopies.trans ?_ (SameCopies.foldl _ (fun t k => setPoison_sameCopies t k false) _)
  cases tag with
  | none => exact hbytes
  | some t => exact hbytes.trans (SameCopies.foldl _ (fun u w => setRelTag_sameCopies u w t) _)

theorem carryMark_sameCopies (s : State) (c : CuId) (w : Nat) (x : L1Word) : SameCopies s (carryMark s c w x) := by
  unfold carryMark
  split
  · exact setPoison_sameCopies ..
  · split
    · exact setPoison_sameCopies ..
    · exact SameCopies.refl s

/-- A poison mark changes no byte, a view's not either. -/
theorem homeByte_setPoison (s : State) (k : Nat) (b : Bool) (a : Nat) : homeByte (s.setPoison k b) a = homeByte s a := by
  have hview : (viewHeld (s.setPoison k b) a).map (fun b => b.1) = (viewHeld s a).map fun b => b.1 := by
    show (match sFind? s.mem.views a with | some b => some b | none => viewByte (s.setPoison k b) a).map _
      = (match sFind? s.mem.views a with | some b => some b | none => viewByte s a).map _
    cases sFind? s.mem.views a with
    | some v => rfl
    | none =>
      show ((viewSrc s a).map _).map _ = ((viewSrc s a).map _).map _
      cases viewSrc s a with
      | none => rfl
      | some o => cases o <;> rfl
  have hspace : spaceOf (s.setPoison k b) a = spaceOf s a := rfl
  simp only [homeByte, homeByte?, hview, hspace]
  rfl

theorem homeByte_carryMark (s : State) (c : CuId) (w : Nat) (x : L1Word) (a : Nat) : homeByte (carryMark s c w x) a =
    homeByte s a := by
  unfold carryMark
  split
  · exact homeByte_setPoison ..
  · split
    · exact homeByte_setPoison ..
    · rfl

theorem frameMap_congr {s t : State} (hf : t.fab = s.fab) (hs : t.sup = s.sup) (hb : ∀ a, homeByte t a = homeByte s a) (a : Nat) :
    frameMap t a = frameMap s a := by
  rw [frameMap, frameMap, spaceOf_congr hf, watchBase, watchBase, hs]
  simp only [hb]

/-! ### A write-back (R310) -/

/-- A copy whose dirty bytes have gone home. -/
def cleaned (x : L1Word) : L1Word := if x.dirty == 0 then x else { x with dirty := 0, depth := 0 }

theorem mem_dirtyBytes {w : Nat} {x : L1Word} {e : Nat × Byte} (h : e ∈ dirtyBytes w x) :
    ∃ i, i < 4 ∧ bit x.dirty i = true ∧ e = (4 * w + i, byteOf x.data.toNat i) := by
  rw [dirtyBytes, List.mem_map] at h
  obtain ⟨i, hi, rfl⟩ := h
  rw [List.mem_filter, List.mem_range] at hi
  exact ⟨i, hi.1, hi.2, rfl⟩

theorem dirtyBytes_mem {w : Nat} {x : L1Word} {i : Nat} (hi : i < 4) (hd : bit x.dirty i = true) :
    (4 * w + i, byteOf x.data.toNat i) ∈ dirtyBytes w x :=
  List.mem_map.mpr ⟨i, List.mem_filter.mpr ⟨List.mem_range.mpr hi, hd⟩, rfl⟩

theorem dirtyBytes_nodup (w : Nat) (x : L1Word) : ((dirtyBytes w x).map Prod.fst).Nodup := by
  rw [dirtyBytes, List.map_map]
  exact (List.nodup_range.filter _).map_on fun i _ j _ h => by simpa using h

section

variable {s : State} {w : Nat} (hw : watched s w = false)
include hw

theorem dirtyBytes_unwatched (c : CuId) (x : L1Word) : ∀ e ∈ dirtyBytes w x, frameMap (carryMark s c w x) e.1 = none := by
  intro e he
  obtain ⟨i, hi, -, rfl⟩ := mem_dirtyBytes he
  obtain ⟨-, -, -, hf, hs⟩ := carryMark_sameCopies s c w x
  rw [frameMap_congr hf hs (homeByte_carryMark s c w x)]
  refine frameMap_of_unwatched ?_
  rw [show (4 * w + i) / 4 = w by omega, hw]

/-- A write-back leaves the copies and the directory, but for the word that it cleans. -/
theorem writeBackWord_copies (c : CuId) :
    (∀ e v, (writeBackWord s c w).l1 e v = if c = e ∧ w = v then (s.l1 c w).map cleaned else s.l1 e v)
      ∧ (∀ v, (writeBackWord s c w).dir v = s.dir v) ∧ (writeBackWord s c w).mem.wide = s.mem.wide
      ∧ (writeBackWord s c w).fab = s.fab ∧ (writeBackWord s c w).sup = s.sup := by
  rw [writeBackWord]
  cases hx : s.l1 c w with
  | none =>
    refine ⟨fun e v => ?_, fun _ => rfl, rfl, rfl, rfl⟩
    by_cases h : c = e ∧ w = v
    · obtain ⟨rfl, rfl⟩ := h
      rw [if_pos ⟨rfl, rfl⟩, hx]
      rfl
    · rw [if_neg h]
  | some x =>
    by_cases hd : (x.dirty == 0) = true
    · dsimp only
      rw [if_pos hd]
      refine ⟨fun e v => ?_, fun _ => rfl, rfl, rfl, rfl⟩
      by_cases h : c = e ∧ w = v
      · obtain ⟨rfl, rfl⟩ := h
        rw [if_pos ⟨rfl, rfl⟩, hx, Option.map_some, cleaned, if_pos hd]
      · rw [if_neg h]
    · dsimp only
      rw [if_neg hd, commit_unwatched (dirtyBytes_unwatched hw c x)]
      have hsame := (carryMark_sameCopies s c w x).trans (homeWrite_sameCopies (carryMark s c w x) (dirtyBytes w x) (some x.rel))
      refine ⟨fun e v => ?_, fun v => (dir_setL1 ..).trans (hsame.dir v), ?_, ?_, ?_⟩
      · rw [l1_setL1, hsame.l1, Option.map_some, cleaned, if_neg hd]
      · exact hsame.2.2.1
      · exact hsame.2.2.2.1
      · exact hsame.2.2.2.2

/-- A write-back brings the dirty bytes of a word home, and leaves its others. -/
theorem homeByte_writeBackWord (hp : spaceOf s (4 * w) = .hbm) (c : CuId) {i : Nat} (hi : i < 4) :
    homeByte (writeBackWord s c w) (4 * w + i) =
      ((s.l1 c w).map fun y => if y.dirty.getLsbD i then byteOf y.data.toNat i else homeByte s (4 * w + i)).getD
        (homeByte s (4 * w + i)) := by
  rw [writeBackWord]
  cases hx : s.l1 c w with
  | none => rfl
  | some x =>
    rw [Option.map_some, Option.getD_some]
    dsimp only
    by_cases hd : (x.dirty == 0) = true
    · have h0 : x.dirty.getLsbD i = false := by
        rw [beq_iff_eq.mp hd]
        exact BitVec.getLsbD_zero
      rw [if_pos hd, h0, if_neg Bool.false_ne_true]
    · rw [if_neg hd]
      have hun := dirtyBytes_unwatched hw c x
      have hspace : spaceOf (carryMark s c w x) (4 * w + i) = .hbm := by
        obtain ⟨-, -, -, hf, -⟩ := carryMark_sameCopies s c w x
        rw [spaceOf_congr hf, spaceOf_word s w hi, hp]
      show homeByte (commit (carryMark s c w x) (dirtyBytes w x) (some x.rel) ⟨x.depth, none, false, c⟩) (4 * w + i) = _
      by_cases hbit : x.dirty.getLsbD i = true
      · rw [if_pos hbit]
        exact homeByte_commit_mem hun _ _ (dirtyBytes_nodup w x) (dirtyBytes_mem hi hbit) hspace
      · rw [if_neg hbit, homeByte_commit_other hun _ _ ?_ (by rw [hspace]; exact Space.noConfusion), homeByte_carryMark]
        intro e he heq
        obtain ⟨j, -, hj, rfl⟩ := mem_dirtyBytes he
        have : j = i := by simpa using heq
        subst this
        exact hbit hj

end

/-! ### A recall (R315) -/

/-- A copy that its owner keeps, clean, as a sharer. -/
def keptClean (x : L1Word) : L1Word := { cleaned x with st := .wt }

/-- A sharer that is added is in the directory; the sharers' dies, past 8 of them, are told apart from nothing else. -/
theorem addSharer_eq (s : State) (w : Nat) (c : CuId) :
    ∃ m, addSharer s w c = { s.setDir w
      ⟨(s.dir w).owner, if (s.dir w).sharers.contains c then (s.dir w).sharers else (s.dir w).sharers ++ [c]⟩ with
      mem := { (s.setDir w ⟨(s.dir w).owner,
        if (s.dir w).sharers.contains c then (s.dir w).sharers else (s.dir w).sharers ++ [c]⟩).mem with wide := m } } := by
  unfold addSharer
  extract_lets d s1 line all m
  split
  · exact ⟨s1.mem.wide, rfl⟩
  · exact ⟨_, rfl⟩

theorem addSharer_dir (s : State) (w : Nat) (c : CuId) :
    (addSharer s w c).dir w =
      ⟨(s.dir w).owner, if (s.dir w).sharers.contains c then (s.dir w).sharers else (s.dir w).sharers ++ [c]⟩ := by
  obtain ⟨m, hm⟩ := addSharer_eq s w c
  rw [hm]
  exact (dir_setDir s w w _).trans (if_pos rfl)

theorem addSharer_l1 (s : State) (w : Nat) (c e : CuId) (v : Nat) : (addSharer s w c).l1 e v = s.l1 e v := by
  obtain ⟨m, hm⟩ := addSharer_eq s w c
  rw [hm]
  rfl

theorem recallWord_of_none {s : State} {w : Nat} (h : (s.dir w).owner = none) (clean : Bool) : recallWord s w clean = s := by
  rw [recallWord, h]

theorem recallWord_false_of_some {s : State} {w : Nat} {c : CuId} (h : (s.dir w).owner = some c) (hc : c < 2048) :
    recallWord s w false = ((writeBackWord s c w).dropL1 c w).setDir w ⟨none, (s.dir w).sharers⟩ := by
  simp only [recallWord, h, Nat.not_le.mpr hc, if_false, Bool.false_eq_true]

/-- A state whose CU keeps its copy of a word as a sharer's. -/
def demoted (s : State) (c : CuId) (w : Nat) : State :=
  match s.l1 c w with
  | some x => s.setL1 c w { x with st := .wt }
  | none => s

theorem recallWord_true_of_some {s : State} {w : Nat} {c : CuId} (h : (s.dir w).owner = some c) (hc : c < 2048) :
    recallWord s w true =
      addSharer ((demoted (writeBackWord s c w) c w).setDir w ⟨none, (s.dir w).sharers⟩) w c := by
  simp only [recallWord, h, Nat.not_le.mpr hc, if_false, if_true]
  rfl

theorem demoted_l1 (s : State) (c e : CuId) (w v : Nat) :
    (demoted s c w).l1 e v = if c = e ∧ w = v then (s.l1 c w).map fun x => { x with st := .wt } else s.l1 e v := by
  rw [demoted]
  cases hx : s.l1 c w with
  | some x => exact l1_setL1 ..
  | none =>
    show s.l1 e v = _
    by_cases h : c = e ∧ w = v
    · obtain ⟨rfl, rfl⟩ := h
      rw [if_pos ⟨rfl, rfl⟩, hx]
      rfl
    · rw [if_neg h]

theorem demoted_sameBytes (s : State) (c : CuId) (w : Nat) : SameBytes s (demoted s c w) := by
  rw [demoted]
  split
  · exact SameBytes.refl s
  · exact SameBytes.refl s

theorem setDir_sameBytes (s : State) (w : Nat) (d : Dir) : SameBytes s (s.setDir w d) := SameBytes.refl s
theorem setL1_sameBytes (s : State) (c : CuId) (w : Nat) (x : L1Word) : SameBytes s (s.setL1 c w x) := SameBytes.refl s
theorem dropL1_sameBytes (s : State) (c : CuId) (w : Nat) : SameBytes s (s.dropL1 c w) := SameBytes.refl s

theorem addSharer_sameBytes (s : State) (w : Nat) (c : CuId) : SameBytes s (addSharer s w c) := by
  obtain ⟨m, hm⟩ := addSharer_eq s w c
  rw [hm]
  exact SameBytes.refl s

section

variable {s : State} {w : Nat} (hp : plainWord s w)
include hp

/-- A word that is recalled from its owner: the owner's copy goes, and its dirty bytes are at the home. -/
theorem recallWord_drop :
    (recallWord s w false).dir w = ⟨none, (s.dir w).sharers⟩
      ∧ (∀ e, (recallWord s w false).l1 e w = if (s.dir w).owner = some e then none else s.l1 e w)
      ∧ (recallWord s w false).mem.wide = s.mem.wide ∧ (recallWord s w false).fab = s.fab
      ∧ writtenBack s (recallWord s w false) w := by
  obtain ⟨hsp, hw, hlt⟩ := hp
  rw [writtenBack]
  cases ho : (s.dir w).owner with
  | none =>
    rw [recallWord_of_none ho]
    refine ⟨?_, fun e => (if_neg (Option.some_ne_none e).symm).symm, rfl, rfl, fun i _ => rfl⟩
    rw [← ho]
  | some c =>
    obtain ⟨hl1, -, hwide, hfab, -⟩ := writeBackWord_copies hw c
    rw [recallWord_false_of_some ho (hlt c ho)]
    refine ⟨by rw [dir_setDir, if_pos rfl], fun e => ?_, hwide, hfab, fun i hi => ?_⟩
    · rw [l1_setDir, l1_dropL1, hl1]
      by_cases hce : c = e
      · subst hce
        simp only [and_self, if_true]
      · have hne : some c ≠ some e := fun h => hce (Option.some.inj h)
        simp only [hce, hne, false_and, if_false]
    · refine (homeByte_writeBackWord hw hsp c hi).trans ?_
      rw [Option.bind_some]
      cases s.l1 c w <;> rfl

/-- A word that is recalled to clean: the owner keeps a clean copy and becomes a sharer. -/
theorem recallWord_clean :
    (recallWord s w true).dir w = ⟨none, sharing s w⟩
      ∧ (∀ e, (recallWord s w true).l1 e w = if (s.dir w).owner = some e then (s.l1 e w).map keptClean else s.l1 e w)
      ∧ (recallWord s w true).fab = s.fab ∧ writtenBack s (recallWord s w true) w := by
  obtain ⟨hsp, hw, hlt⟩ := hp
  rw [writtenBack, sharing]
  cases ho : (s.dir w).owner with
  | none =>
    rw [recallWord_of_none ho]
    refine ⟨?_, fun e => (if_neg (Option.some_ne_none e).symm).symm, rfl, fun i _ => rfl⟩
    show s.dir w = ⟨none, (s.dir w).sharers⟩
    rw [← ho]
  | some c =>
    obtain ⟨hl1, -, -, hfab, -⟩ := writeBackWord_copies hw c
    rw [recallWord_true_of_some ho (hlt c ho)]
    have hsame := ((demoted_sameBytes (writeBackWord s c w) c w).trans (setDir_sameBytes _ w ⟨none, (s.dir w).sharers⟩)).trans
      (addSharer_sameBytes _ w c)
    refine ⟨?_, fun e => ?_, hsame.1.trans hfab, fun i hi => ?_⟩
    · rw [addSharer_dir, dir_setDir, if_pos rfl]
    · rw [addSharer_l1, l1_setDir, demoted_l1]
      by_cases hce : c = e
      · subst hce
        rw [if_pos ⟨rfl, rfl⟩, if_pos rfl, hl1, if_pos ⟨rfl, rfl⟩, Option.map_map]
        rfl
      · have hne : some c ≠ some e := fun h => hce (Option.some.inj h)
        rw [if_neg (fun h => hce h.1), if_neg hne, hl1, if_neg (fun h => hce h.1)]
    · have hspace : spaceOf (writeBackWord s c w) (4 * w + i) ≠ .view := by
        rw [spaceOf_congr hfab, spaceOf_word s w hi, hsp]
        exact Space.noConfusion
      refine (hsame.homeByte hspace).trans ((homeByte_writeBackWord hw hsp c hi).trans ?_)
      rw [Option.bind_some]
      cases s.l1 c w <;> rfl

end

/-! ### Copies that an invalidation drops (R314) -/

/-- The copies of a word that some CUs drop. -/
theorem l1_foldl_dropL1 (w : Nat) (l : List CuId) (s : State) (e : CuId) :
    (l.foldl (fun s c => s.dropL1 c w) s).l1 e w = if e ∈ l then none else s.l1 e w := by
  induction l generalizing s with
  | nil => simp
  | cons c l ih =>
    rw [List.foldl_cons, ih, l1_dropL1]
    by_cases hl : e ∈ l
    · simp only [hl, if_true, List.mem_cons, or_true]
    · by_cases hc : c = e
      · subst hc
        simp only [hl, if_false, and_self, if_true, List.mem_cons, true_or]
      · simp only [hl, hc, Ne.symm hc, if_false, false_and, List.mem_cons, or_self]

theorem foldl_dropL1_sameBytes (w : Nat) (l : List CuId) (s : State) : SameBytes s (l.foldl (fun s c => s.dropL1 c w) s) :=
  SameBytes.foldl l (fun t c => dropL1_sameBytes t c w) s

section

variable (s : State) (w : Nat) (keep : Option CuId)

theorem invalidateWord_dir :
    (invalidateWord s w keep).dir w = ⟨(s.dir w).owner, (s.dir w).sharers.filter fun c => some c == keep⟩ :=
  (dir_setDir ..).trans (if_pos rfl)

theorem invalidateWord_l1 (e : CuId) :
    (invalidateWord s w keep).l1 e w = if e ∈ sharersOf s w ∧ some e ≠ keep then none else s.l1 e w := by
  rw [invalidateWord]
  refine (l1_foldl_dropL1 w _ s e).trans ?_
  simp only [List.mem_filter, bne_iff_ne]

theorem invalidateWord_sameBytes : SameBytes s (invalidateWord s w keep) :=
  (foldl_dropL1_sameBytes w _ s).trans (setDir_sameBytes ..)

end

theorem dropOwnSi_dir (s : State) (c : CuId) (w v : Nat) : (dropOwnSi s c w).dir v = s.dir v := by
  rw [dropOwnSi]
  split
  · split <;> rfl
  · rfl

theorem dropOwnSi_sameBytes (s : State) (c : CuId) (w : Nat) : SameBytes s (dropOwnSi s c w) := by
  rw [dropOwnSi]
  split
  · split
    · exact dropL1_sameBytes ..
    · exact SameBytes.refl s
  · exact SameBytes.refl s

theorem dropOwnSi_l1_other {s : State} {c e : CuId} (h : e ≠ c) (w : Nat) : (dropOwnSi s c w).l1 e w = s.l1 e w := by
  rw [dropOwnSi]
  split
  · split
    · rw [l1_dropL1, if_neg fun h' => h h'.1.symm]
    · rfl
  · rfl

theorem dropOwnSi_l1_none {s : State} {e : CuId} {w : Nat} (h : s.l1 e w = none) (c : CuId) : (dropOwnSi s c w).l1 e w =
    none := by
  by_cases hc : e = c
  · subst hc
    rw [dropOwnSi, h]
    exact h
  · rw [dropOwnSi_l1_other hc, h]

theorem dropOwnSi_l1_wt {s : State} {e : CuId} {w : Nat} {x : L1Word} (h : s.l1 e w = some x) (hx : x.st = .wt) (c : CuId) :
    (dropOwnSi s c w).l1 e w = some x := by
  by_cases hc : e = c
  · subst hc
    rw [dropOwnSi, h]
    simp only [hx]
    exact h
  · rw [dropOwnSi_l1_other hc, h]

/-! ### A word that a CU is given -/

theorem byteOf_ofBytes (bs : List Byte) {i : Nat} (h : i < bs.length) : byteOf (ofBytes bs) i = bs[i] := by
  induction bs generalizing i with
  | nil => simp at h
  | cons b bs ih =>
    cases i with
    | zero =>
      apply BitVec.eq_of_toNat_eq
      simp only [byteOf, ofBytes, BitVec.toNat_ofNat, List.getElem_cons_zero]
      have := b.isLt
      omega
    | succ i =>
      have h' : byteOf (ofBytes (b :: bs)) (i + 1) = byteOf (ofBytes bs) i := by
        have hb := b.isLt
        have hdiv : (b.toNat + 256 * ofBytes bs) / 256 = ofBytes bs := by omega
        rw [byteOf, byteOf, ofBytes, show 8 * (i + 1) = 8 + 8 * i by omega, Nat.pow_add, ← Nat.div_div_eq_div_mul]
        exact congrArg (fun x => BitVec.ofNat 8 (x / 2 ^ (8 * i))) hdiv
      rw [h', ih (Nat.lt_of_succ_lt_succ h), List.getElem_cons_succ]

/-- The bytes of a word that is filled are those of its home. -/
theorem fillWord_granted (s : State) (c : CuId) (w : Nat) (st : L1St) (ctx : Tag) {t : State}
    (ht : t.l1 c w = (fillWord s c w st false ctx).l1 c w) (hb : ∀ i < 4, homeByte t (4 * w + i) = homeByte s (4 * w + i)) :
    granted t c w st := by
  rw [granted]
  refine ⟨_, ht.trans ((l1_setL1 ..).trans (if_pos ⟨rfl, rfl⟩)), rfl, rfl, rfl, fun i hi => ?_⟩
  rw [hb i hi]
  have hlen : ((List.range 4).map fun i => homeByte s (4 * w + i)).length = 4 := rfl
  have hlt := ofBytes_lt ((List.range 4).map fun i => homeByte s (4 * w + i))
  rw [hlen] at hlt
  dsimp only
  rw [BitVec.toNat_ofNat, Nat.mod_eq_of_lt hlt, byteOf_ofBytes _ (by rw [hlen]; exact hi)]
  simp

theorem fillWord_dir (s : State) (c : CuId) (w v : Nat) (st : L1St) (sm : Bool) (ctx : Tag) :
    (fillWord s c w st sm ctx).dir v = s.dir v := rfl

theorem fillWord_l1_other {s : State} {c e : CuId} (h : e ≠ c) (w : Nat) (st : L1St) (sm : Bool) (ctx : Tag) :
    (fillWord s c w st sm ctx).l1 e w = s.l1 e w :=
  (l1_setL1 ..).trans (if_neg fun h' => h h'.1.symm)

theorem fillWord_sameBytes (s : State) (c : CuId) (w : Nat) (st : L1St) (sm : Bool) (ctx : Tag) :
    SameBytes s (fillWord s c w st sm ctx) := setL1_sameBytes ..

/-! ### R315's table -/

theorem exists_mem_of_sFind {α : Type} {m : Store α} {k : Nat} {v : α} (h : sFind? m k = some v) : ∃ e ∈ m, e.1 = k := by
  induction m with
  | nil => cases h
  | cons e m ih =>
    rw [sFind?] at h
    split at h
    · exact ⟨e, by simp, ‹_›⟩
    · obtain ⟨q, hq, hk⟩ := ih h
      exact ⟨q, List.mem_cons_of_mem e hq, hk⟩

section

variable {s : State} {w : Nat} (hp : plainWord s w)
include hp

theorem plainWord_noView {t : State} (hf : t.fab = s.fab) {i : Nat} (hi : i < 4) : spaceOf t (4 * w + i) ≠ .view := by
  rw [spaceOf_congr hf, spaceOf_word s w hi, hp.1]
  exact Space.noConfusion

/-- What changes no byte of memory keeps a word written back. -/
theorem writtenBack_of_sameBytes {t u : State} (hf : t.fab = s.fab) (ht : writtenBack s t w) (hu : SameBytes t u) :
    writtenBack s u w :=
  fun i hi => (hu.homeByte (plainWord_noView hp hf hi)).trans (ht i hi)

/-- A holder of a word that is no owner is one of those that an invalidation reaches, if its copy is still there. -/
theorem mem_sharersOf_recall {e : CuId} (he : e ∈ sharersOf s w) {x : L1Word} (hx : (recallWord s w false).l1 e w = some x) :
    e ∈ sharersOf (recallWord s w false) w := by
  obtain ⟨hdir, hl1, hwide, -, -⟩ := recallWord_drop hp
  have hs : s.l1 e w = some x := by
    rw [hl1] at hx
    split at hx
    · cases hx
    · exact hx
  have hkey : e ∈ (recallWord s w false).cus.map fun e => e.1 := by
    rw [State.l1, State.cu] at hx
    cases hu : sFind? (recallWord s w false).cus e with
    | none =>
      rw [hu] at hx
      cases hx
    | some u =>
      obtain ⟨q, hq, hqe⟩ := exists_mem_of_sFind hu
      exact List.mem_map.mpr ⟨q, hq, hqe⟩
  simp only [sharersOf, List.mem_append] at he ⊢
  rw [hdir, hwide]
  refine he.imp id fun hall => ?_
  split at hall
  · cases hall
  · rw [List.mem_filter, hs] at hall
    obtain ⟨-, hc⟩ := hall
    rw [if_neg ‹_›, List.mem_filter, hx]
    refine ⟨hkey, ?_⟩
    simp only [Bool.and_eq_true] at hc ⊢
    exact ⟨⟨hc.1.1, rfl⟩, hc.2⟩

/-- A word that is recalled and invalidated leaves no copy but the one it keeps. -/
theorem othersGone_invalidate (keep : Option CuId) : othersGone s (invalidateWord (recallWord s w false) w keep) w keep := by
  intro e he hold
  obtain ⟨-, hl1, -, -, -⟩ := recallWord_drop hp
  rw [invalidateWord_l1]
  by_cases hnone : (recallWord s w false).l1 e w = none
  · rw [hnone, ite_self]
  · obtain ⟨x, hx⟩ := Option.ne_none_iff_exists'.mp hnone
    have hown : (s.dir w).owner ≠ some e := by
      intro ho
      rw [hl1, if_pos ho] at hnone
      exact hnone rfl
    exact if_pos ⟨mem_sharersOf_recall hp (hold.resolve_left hown) hx, he⟩

variable {r : Req}

/-- An own request: the requester owns the word, and no other has a copy. -/
theorem ownWord_table (ho : (s.dir w).owner ≠ some r.cu) :
    (ownWord s r w).dir w = ⟨some r.cu, []⟩ ∧ granted (ownWord s r w) r.cu w .own ∧ othersGone s (ownWord s r w) w (some r.cu)
      ∧ writtenBack s (ownWord s r w) w := by
  obtain ⟨-, -, -, hfab, hback⟩ := recallWord_drop hp
  rw [ownWord, if_neg (by simpa using ho)]
  have hinv := invalidateWord_sameBytes (recallWord s w false) w none
  have hfill := fillWord_sameBytes (invalidateWord (recallWord s w false) w none) r.cu w .own false r.ctx
  have hset := setDir_sameBytes (fillWord (invalidateWord (recallWord s w false) w none) r.cu w .own false r.ctx) w
    ⟨some r.cu, []⟩
  refine ⟨(dir_setDir ..).trans (if_pos rfl), ?_, fun e he hold => ?_,
    writtenBack_of_sameBytes hp hfab hback ((hinv.trans hfill).trans hset)⟩
  · exact fillWord_granted _ _ _ _ _ (l1_setDir ..) fun i hi =>
      (hfill.trans hset).homeByte (plainWord_noView hp (hinv.1.trans hfab) hi)
  · rw [l1_setDir, fillWord_l1_other fun h => he (congrArg some h)]
    exact othersGone_invalidate hp none e (Option.some_ne_none e) hold

/-- The owner of a word that is recalled to clean has a clean copy. -/
theorem ownerClean_recall : ownerClean s (recallWord s w true) w := by
  intro c y ho hy
  obtain ⟨-, hl1, -, -⟩ := recallWord_clean hp
  refine ⟨keptClean y, by rw [hl1, if_pos ho, hy]; rfl, rfl, ?_, ?_⟩
  · rw [keptClean, cleaned]
    split
    · exact beq_iff_eq.mp ‹_›
    · rfl
  · rw [keptClean, cleaned]
    split <;> rfl

theorem othersKept_recall (c : CuId) : othersKept s (recallWord s w true) w c := by
  intro e _ ho
  obtain ⟨-, hl1, -, -⟩ := recallWord_clean hp
  rw [hl1, if_neg ho]

omit hp in
/-- What changes only the requester's copy keeps the others. -/
theorem ownerClean_of_other {t u : State} {c : CuId} (h : ownerClean s t w) (hc : (s.dir w).owner ≠ some c)
    (hu : ∀ e, e ≠ c → u.l1 e w = t.l1 e w) : ownerClean s u w := by
  intro e y ho hy
  obtain ⟨z, hz, hz'⟩ := h e y ho hy
  exact ⟨z, by rw [hu e (fun h => hc (h ▸ ho)), hz], hz'⟩

omit hp in
theorem othersKept_of_other {t u : State} {c : CuId} (h : othersKept s t w c) (hu : ∀ e, e ≠ c → u.l1 e w = t.l1 e w) :
    othersKept s u w c :=
  fun e he ho => (hu e he).trans (h e he ho)

/-- A wt load: the word is recalled to clean, and the requester is one of its sharers. -/
theorem wtWord_table (ho : (s.dir w).owner ≠ some r.cu) :
    (wtWord s r w).dir w = ⟨none, if (sharing s w).contains r.cu then sharing s w else sharing s w ++ [r.cu]⟩
      ∧ granted (wtWord s r w) r.cu w .wt ∧ ownerClean s (wtWord s r w) w ∧ othersKept s (wtWord s r w) w r.cu
      ∧ writtenBack s (wtWord s r w) w := by
  obtain ⟨hdir, -, hfab, hback⟩ := recallWord_clean hp
  rw [wtWord, if_neg (by simpa using ho)]
  have hfill := fillWord_sameBytes (recallWord s w true) r.cu w .wt false r.ctx
  have hadd := addSharer_sameBytes (fillWord (recallWord s w true) r.cu w .wt false r.ctx) w r.cu
  have hother (e : CuId) (he : e ≠ r.cu) :
      (addSharer (fillWord (recallWord s w true) r.cu w .wt false r.ctx) w r.cu).l1 e w = (recallWord s w true).l1 e w := by
    rw [addSharer_l1, fillWord_l1_other he]
  refine ⟨by rw [addSharer_dir, fillWord_dir, hdir], ?_, ownerClean_of_other (ownerClean_recall hp) ho hother,
    othersKept_of_other (othersKept_recall hp r.cu) hother, writtenBack_of_sameBytes hp hfab hback (hfill.trans hadd)⟩
  exact fillWord_granted _ _ _ _ _ (addSharer_l1 ..) fun i hi => (hfill.trans hadd).homeByte (plainWord_noView hp hfab hi)

/-- An si load: the word is recalled to clean, and nothing is recorded of the requester. -/
theorem siWord_table (hsm : r.sm = false) (ho : (s.dir w).owner ≠ some r.cu) :
    (loadWord s r .si w).dir w = ⟨none, sharing s w⟩ ∧ (r.cu ∉ (s.dir w).sharers → granted (loadWord s r .si w) r.cu w .si)
      ∧ ownerClean s (loadWord s r .si w) w ∧ othersKept s (loadWord s r .si w) w r.cu
        ∧ writtenBack s (loadWord s r .si w) w := by
  obtain ⟨hdir, -, hfab, hback⟩ := recallWord_clean hp
  have hmem : r.cu ∈ sharing s w ↔ r.cu ∈ (s.dir w).sharers := by
    rw [sharing]
    split
    · have hne : r.cu ≠ _ := fun h => ho (h ▸ ‹(s.dir w).owner = some _›)
      split
      · exact Iff.rfl
      · simp only [List.mem_append, List.mem_singleton, hne, or_false]
    · exact Iff.rfl
  have hself : ((s.dir w).owner == some r.cu) = false := by simpa using ho
  have heq : loadWord s r .si w = if (sharing s w).contains r.cu then recallWord s w true
      else fillWord (recallWord s w true) r.cu w .si false r.ctx := by
    unfold loadWord
    simp only [hsm, hself, Bool.false_eq_true, if_false, hdir]
  by_cases hc : r.cu ∈ (s.dir w).sharers
  · rw [heq, if_pos (by simpa using hmem.mpr hc)]
    exact ⟨hdir, fun h => absurd hc h, ownerClean_recall hp, othersKept_recall hp r.cu, hback⟩
  · rw [heq, if_neg (by simpa using fun h => hc (hmem.mp h))]
    have hfill := fillWord_sameBytes (recallWord s w true) r.cu w .si false r.ctx
    have hother (e : CuId) (he : e ≠ r.cu) := fillWord_l1_other (s := recallWord s w true) he w .si false r.ctx
    exact ⟨hdir, fun _ => fillWord_granted _ _ _ _ _ rfl fun i hi => hfill.homeByte (plainWord_noView hp hfab hi),
      ownerClean_of_other (ownerClean_recall hp) ho hother, othersKept_of_other (othersKept_recall hp r.cu) hother,
      writtenBack_of_sameBytes hp hfab hback hfill⟩

/-- An unc load: the word is recalled to clean, and the requester keeps no copy of its own making. -/
theorem uncLoad_table (hsm : r.sm = false) :
    (loadWord s r .unc w).dir w = ⟨none, sharing s w⟩ ∧ ownerClean s (loadWord s r .unc w) w
      ∧ othersKept s (loadWord s r .unc w) w r.cu ∧ writtenBack s (loadWord s r .unc w) w := by
  obtain ⟨hdir, -, hfab, hback⟩ := recallWord_clean hp
  have heq : loadWord s r .unc w = dropOwnSi (recallWord s w true) r.cu w := by
    unfold loadWord
    simp only [hsm, Bool.false_eq_true, if_false]
  rw [heq]
  refine ⟨(dropOwnSi_dir ..).trans hdir, fun c y ho hy => ?_,
    othersKept_of_other (othersKept_recall hp r.cu) fun e he => dropOwnSi_l1_other he w,
    writtenBack_of_sameBytes hp hfab hback (dropOwnSi_sameBytes ..)⟩
  obtain ⟨z, hz, hst, hrest⟩ := ownerClean_recall hp c y ho hy
  exact ⟨z, dropOwnSi_l1_wt hz hst r.cu, hst, hrest⟩

/-- A wt or si store: no copy is left but the requester's. -/
theorem wtStore_table {rt : ReqType} (hrt : rt = .wt ∨ rt = .si) (ho : (s.dir w).owner ≠ some r.cu) :
    (storeWord s r rt w).dir w = ⟨none, (s.dir w).sharers.filter fun c => c == r.cu⟩
      ∧ othersGone s (storeWord s r rt w) w (some r.cu)
      ∧ writtenBack s (storeWord s r rt w) w := by
  obtain ⟨hdir, -, -, hfab, hback⟩ := recallWord_drop hp
  have hself : ((s.dir w).owner != some r.cu) = true := by simpa using ho
  have heq : storeWord s r rt w = invalidateWord (recallWord s w false) w (some r.cu) := by
    rcases hrt with rfl | rfl <;> simp only [storeWord, hself, if_true]
  rw [heq]
  refine ⟨?_, othersGone_invalidate hp _, writtenBack_of_sameBytes hp hfab hback (invalidateWord_sameBytes ..)⟩
  rw [invalidateWord_dir, hdir]
  rfl

/-- An unc store or an atomic: no copy is left. -/
theorem uncStore_table :
    (storeWord s r .unc w).dir w = ⟨none, []⟩ ∧ othersGone s (storeWord s r .unc w) w none
      ∧ writtenBack s (storeWord s r .unc w) w := by
  obtain ⟨hdir, -, -, hfab, hback⟩ := recallWord_drop hp
  rw [storeWord]
  refine ⟨?_, fun e he hold => dropOwnSi_l1_none (othersGone_invalidate hp none e he hold) r.cu,
    writtenBack_of_sameBytes hp hfab hback ((invalidateWord_sameBytes ..).trans (dropOwnSi_sameBytes ..))⟩
  rw [dropOwnSi_dir, invalidateWord_dir, hdir]
  simp

end

/-! ### Stores at the homes -/

theorem dropHalf_sameBytes (s : State) (c : CuId) (w : Nat) (ws : List Nat) : SameBytes s (dropHalf s c w ws) := by
  unfold dropHalf
  extract_lets other
  split
  · exact SameBytes.refl s
  · split
    · split
      · exact dropL1_sameBytes ..
      · exact SameBytes.refl s
    · exact SameBytes.refl s

theorem l1Write_sameBytes (s : State) (c : CuId) (bs : Bytes) (dirty : Bool) (tag : BitVec 3) (depth : Nat) :
    SameBytes s (l1Write s c bs dirty tag depth) := by
  unfold l1Write
  refine SameBytes.trans (SameBytes.foldl bs (fun t e => ?_) s) (SameBytes.foldl _ (fun t w => ?_) _)
  · split
    · exact SameBytes.refl t
    · exact setL1_sameBytes ..
  · split
    · split
      · exact setL1_sameBytes ..
      · exact SameBytes.refl t
    · exact SameBytes.refl t

/-- A store that merges at the home commits its bytes; the copies that it writes are no bytes of memory. -/
theorem mergeStore_sameBytes (s : State) (r : Req) (bs : Bytes) (copies : Bool) :
    SameBytes (commit s bs (some r.rel) (r.writer s)) (mergeStore s r bs copies) := by
  unfold mergeStore
  extract_lets t ws
  split
  · exact (l1Write_sameBytes ..).trans (SameBytes.foldl ws (fun u w => dropHalf_sameBytes u r.cu w ws) _)
  · exact SameBytes.refl _

section

variable {s : State} {bs : Bytes} (hbs : ∀ e ∈ bs, spaceOf s e.1 = .hbm ∧ watched s (e.1 / 4) = false)
include hbs

theorem commit_fab_of_unwatched (tag : Option (BitVec 3)) (wr : Writer) : (commit s bs tag wr).fab = s.fab := by
  rw [commit_unwatched fun e he => frameMap_of_unwatched (hbs e he).2]
  exact (homeWrite_sameCopies s bs tag).2.2.2.1

/-- A store's bytes merge at the home. -/
theorem homeByte_mergeStore_mem (hnd : (bs.map fun e => e.1).Nodup) (r : Req) (copies : Bool) {e : Nat × Byte} (he : e ∈ bs) :
    homeByte (mergeStore s r bs copies) e.1 = e.2 := by
  have hun : ∀ e ∈ bs, frameMap s e.1 = none := fun e he => frameMap_of_unwatched (hbs e he).2
  rw [(mergeStore_sameBytes s r bs copies).homeByte, homeByte_commit_mem hun _ _ hnd he (hbs e he).1]
  rw [spaceOf_congr (commit_fab_of_unwatched hbs _ _), (hbs e he).1]
  exact Space.noConfusion

theorem homeByte_mergeStore_other (r : Req) (copies : Bool) {a : Nat} (ha : spaceOf s a ≠ .view) (hs : spares bs a) :
    homeByte (mergeStore s r bs copies) a = homeByte s a := by
  have hun : ∀ e ∈ bs, frameMap s e.1 = none := fun e he => frameMap_of_unwatched (hbs e he).2
  rw [(mergeStore_sameBytes s r bs copies).homeByte, homeByte_commit_other hun _ _ hs ha]
  rw [spaceOf_congr (commit_fab_of_unwatched hbs _ _)]
  exact ha

end

theorem wholeWords_single (a : Nat) (b : Byte) : wholeWords [(a, b)] = [] := by
  rw [wholeWords, List.filter_eq_nil_iff]
  intro w _ h
  have h0 := List.all_eq_true.mp h 0 (by decide)
  have h1 := List.all_eq_true.mp h 1 (by decide)
  simp only [List.any_cons, List.any_nil, Bool.or_false, beq_iff_eq] at h0 h1
  omega

/-- A byte that is written dirty in an L1. -/
theorem l1Write_byte {s : State} {c : CuId} {a : Nat} {x : L1Word} (h : s.l1 c (a / 4) = some x) (b : Byte) (tag : BitVec 3)
    (depth : Nat) : (l1Write s c [(a, b)] true tag depth).l1 c (a / 4) = some { x with
      data := setByteOf x.data (a % 4) b, rel := tag, dirty := x.dirty ||| ((1 : BitVec 4) <<< (a % 4)), st := .own
      depth := max x.depth depth } := by
  rw [l1Write, wholeWords_single]
  simp only [List.foldl_cons, List.foldl_nil, h, if_true]
  exact (l1_setL1 ..).trans (if_pos ⟨rfl, rfl⟩)

/-! ### What a home does with a request, by its kind -/

/-- A line of which nothing is held anywhere goes to its plinth. -/
theorem not_lineHeld {s : State} {l : Nat} (hl2 : ∀ e ∈ s.mem.l2, e.1 / 128 ≠ l) (hdir : ∀ e ∈ s.mem.dir, e.1 / 32 ≠ l)
    (hh : sFind? s.holders l = none) (hu : ∀ e ∈ s.cus, sFind? e.2.upd l = none) : lineHeld s l = false := by
  have h1 : (s.mem.l2.any fun e => e.1 / 128 == l) = false := by simpa [List.any_eq_false] using fun a b h => hl2 (a, b) h
  have h2 : (s.mem.dir.any fun e => e.1 / 32 == l) = false := by simpa [List.any_eq_false] using fun a b h => hdir (a, b) h
  have h3 : (s.cus.any fun e => (sFind? e.2.upd l).isSome) = false := by
    rw [List.any_eq_false]
    intro e he
    rw [hu e he]
    exact Bool.false_ne_true
  rw [lineHeld, h1, h2, h3, hh]
  rfl

section

variable {k : Nat} {r : Req}

theorem homeOwnRequest_load {q : ReqKind} (hq : q = .load .own ∨ q = .tileLd .own) :
    Happens (.homeOwnRequest k) (fun s => served s k r q) (fun s => serveLoad s k r .own) := by
  intro s ⟨hr, hk⟩
  show execHomeOwnRequest k s = _
  rcases hq with rfl | rfl <;> simp only [execHomeOwnRequest, hr, hk]

theorem homeOwnRequest_store {q : ReqKind} (hq : q = .store .own ∨ q = .tileSt .own) :
    Happens (.homeOwnRequest k) (fun s => served s k r q) (fun s => serveStore s k r .own) := by
  intro s ⟨hr, hk⟩
  show execHomeOwnRequest k s = _
  rcases hq with rfl | rfl <;> simp only [execHomeOwnRequest, hr, hk]

theorem homeWtLoad_load {q : ReqKind} (hq : q = .load .wt ∨ q = .tileLd .wt) :
    Happens (.homeWtLoad k) (fun s => served s k r q) (fun s => serveLoad s k r .wt) := by
  intro s ⟨hr, hk⟩
  show execHomeWtLoad k s = _
  rcases hq with rfl | rfl <;> simp only [execHomeWtLoad, hr, hk]

theorem homeWtLoad_pref (msc : Bool) : Happens (.homeWtLoad k) (fun s => served s k r (.pref msc))
    (fun s => servePref s k r msc) := by
  intro s ⟨hr, hk⟩
  show execHomeWtLoad k s = _
  simp only [execHomeWtLoad, hr, hk]

theorem homeSiLoad_load {q : ReqKind} (hq : q = .load .si ∨ q = .tileLd .si) :
    Happens (.homeSiLoad k) (fun s => served s k r q) (fun s => serveLoad s k r .si) := by
  intro s ⟨hr, hk⟩
  show execHomeSiLoad k s = _
  rcases hq with rfl | rfl <;> simp only [execHomeSiLoad, hr, hk] <;> rfl

theorem homeUncLoad_load {q : ReqKind} (hq : q = .load .unc ∨ q = .tileLd .unc) :
    Happens (.homeUncLoad k) (fun s => served s k r q) (fun s => serveLoad s k r .unc) := by
  intro s ⟨hr, hk⟩
  show execHomeUncLoad k s = _
  rcases hq with rfl | rfl <;> simp only [execHomeUncLoad, hr, hk] <;> rfl

theorem homeWtSiStore_wt {q : ReqKind} (hq : q = .store .wt ∨ q = .tileSt .wt) :
    Happens (.homeWtSiStore k) (fun s => served s k r q) (fun s => serveStore s k r .wt) := by
  intro s ⟨hr, hk⟩
  show execHomeWtSiStore k s = _
  rcases hq with rfl | rfl <;> simp only [execHomeWtSiStore, hr, hk]

theorem homeWtSiStore_si {q : ReqKind} (hq : q = .store .si ∨ q = .tileSt .si) :
    Happens (.homeWtSiStore k) (fun s => served s k r q) (fun s => serveStore s k r .si) := by
  intro s ⟨hr, hk⟩
  show execHomeWtSiStore k s = _
  rcases hq with rfl | rfl <;> simp only [execHomeWtSiStore, hr, hk]

theorem homeUncStoreAtomic_store {q : ReqKind} (hq : q = .store .unc ∨ q = .tileSt .unc) :
    Happens (.homeUncStoreAtomic k) (fun s => served s k r q) (fun s => serveStore s k r .unc) := by
  intro s ⟨hr, hk⟩
  show execHomeUncStoreAtomic k s = _
  rcases hq with rfl | rfl <;> simp only [execHomeUncStoreAtomic, hr, hk]

theorem homeUncStoreAtomic_atomic {q : ReqKind} {aop : Nat} (hq : q = .atom aop ∨ q = .red aop ∨ q = .cas) :
    Happens (.homeUncStoreAtomic k) (fun s => served s k r q) (fun s => serveAtomic s k r) := by
  intro s ⟨hr, hk⟩
  show execHomeUncStoreAtomic k s = _
  rcases hq with rfl | rfl | rfl <;> simp only [execHomeUncStoreAtomic, hr, hk]

theorem plinthAt_atomic {q : ReqKind} {aop : Nat} (hq : q = .atom aop ∨ q = .red aop ∨ q = .cas) :
    Happens (.plinthAt k)
      (fun s => served s k r q ∧ (∀ e ∈ s.mem.l2, e.1 / 128 ≠ r.blk) ∧ (∀ e ∈ s.mem.dir, e.1 / 32 ≠ r.blk)
        ∧ sFind? s.holders r.blk = none ∧ ∀ e ∈ s.cus, sFind? e.2.upd r.blk = none)
      (fun s => lineToPlinth (serveAtomic s k r) r.blk) := by
  intro s ⟨⟨hr, hk⟩, hl2, hdir, hh, hu⟩
  have hfree := not_lineHeld hl2 hdir hh hu
  show execPlinthAt k s = _
  rcases hq with rfl | rfl | rfl <;> simp only [execPlinthAt, hr, hk, hfree, Bool.false_eq_true, if_false]

end

/-- An owner's own request leaves the word as it is. -/
theorem loadWord_of_owner {s : State} {r : Req} {w : Nat} (hsm : r.sm = false) (hw : watched s w = false)
    (ho : (s.dir w).owner = some r.cu) {rt : ReqType} (hrt : rt ≠ .unc) : loadWord s r rt w = s := by
  have hself : ((s.dir w).owner == some r.cu) = true := by rw [ho]; exact beq_self_eq_true _
  unfold loadWord
  cases rt with
  | own => simp only [hsm, hw, Bool.false_eq_true, if_false, ownWord, hself, if_true]
  | wt => simp only [hsm, Bool.false_eq_true, if_false, wtWord, hself, if_true]
  | si => simp only [hsm, Bool.false_eq_true, if_false, hself, if_true]
  | unc => exact absurd rfl hrt

/-- An own load and an own store of a word that nothing watches do the same to it. -/
theorem loadWord_own {s : State} {r : Req} {w : Nat} (hsm : r.sm = false) (hw : watched s w = false) :
    loadWord s r .own w = ownWord s r w := by
  unfold loadWord
  simp only [hsm, hw, Bool.false_eq_true, if_false]

theorem loadWord_wt {s : State} {r : Req} {w : Nat} (hsm : r.sm = false) : loadWord s r .wt w = wtWord s r w := by
  unfold loadWord
  simp only [hsm, Bool.false_eq_true, if_false]

/-- Settles O37: R315's table by what a recall, an invalidation and a fill do to one word; then the kinds of request. -/
theorem homeSteps : Obligations.HomeSteps :=
  ⟨fun _ _ _ hsm hp => ⟨fun ho _ hrt => loadWord_of_owner hsm hp.2.1 ho hrt,
      fun ho => ⟨loadWord_own hsm hp.2.1 ▸ ownWord_table hp ho, loadWord_wt hsm ▸ wtWord_table hp ho, siWord_table hp hsm ho,
        ownWord_table hp ho, fun _ hrt => wtStore_table hp hrt ho⟩,
      uncLoad_table hp hsm, uncStore_table hp⟩,
    fun _ r _ copies hnd hbs => ⟨fun _ he => homeByte_mergeStore_mem hbs hnd r copies he,
      fun _ ha hs => homeByte_mergeStore_other hbs r copies ha hs⟩,
    fun _ _ _ b tag depth _ h => l1Write_byte h b tag depth,
    fun _ _ _ => ⟨fun _ => homeOwnRequest_load, fun _ => homeOwnRequest_store, fun _ => homeWtLoad_load, homeWtLoad_pref,
      fun _ => homeSiLoad_load, fun _ => homeUncLoad_load, fun _ => homeWtSiStore_wt, fun _ => homeWtSiStore_si,
      fun _ => homeUncStoreAtomic_store, fun _ hq => ⟨homeUncStoreAtomic_atomic hq, plinthAt_atomic hq⟩⟩⟩

end Sys2Proof.Machine
end

section
/-! SUPPORT. The frames of registers, of scratchpad stores and of commits. -/

namespace Sys2Proof.Machine

open Sys2Proof Claims

/-! ### Flags that a form may set (R83, R102, R117) -/

/-- The flags of a result lie in a mask. -/
abbrev FlagsIn (m f : Word) : Prop := f &&& ~~~m = 0

namespace FlagsIn

variable {m f g : Word}

theorem zero (m : Word) : FlagsIn m 0 := BitVec.zero_and

theorem or (hf : FlagsIn m f) (hg : FlagsIn m g) : FlagsIn m (f ||| g) := by
  rw [FlagsIn, BitVec.and_comm, BitVec.and_or_distrib_left, BitVec.and_comm, hf, BitVec.and_comm, hg]
  rfl

theorem flagIf (hf : FlagsIn m f) (c : Bool) : FlagsIn m (flagIf c f) := by
  cases c
  · exact zero m
  · exact hf

theorem orAll {fs : List Word} (h : ∀ f ∈ fs, FlagsIn m f) : FlagsIn m (orAll fs) := by
  have hgen : ∀ (a : Word), FlagsIn m a → FlagsIn m (fs.foldl (· ||| ·) a) := by
    induction fs with
    | nil => exact fun _ ha => ha
    | cons f fs ih => exact fun a ha => ih (fun g hg => h g (List.mem_cons_of_mem f hg)) _ (ha.or (h f List.mem_cons_self))
  exact hgen 0 (zero m)

/-- Flags that enter FSTAT leave the bits outside the mask. -/
theorem fstat_or (hf : FlagsIn m f) (y : Word) : (y ||| f) &&& ~~~m = y &&& ~~~m := by
  rw [BitVec.and_comm, BitVec.and_or_distrib_left, BitVec.and_comm (~~~m) f, hf]
  exact (BitVec.or_zero).trans (BitVec.and_comm ..)

end FlagsIn

/-- Rounding without saturation sets NV, OF, UF and NX at most. -/
theorem flagsIn_roundF (F : Fmt) (rm : RMode) (v : Ex) : FlagsIn 0x1D (roundF F rm false v).2 := by
  have hnx (c : Bool) : FlagsIn 0x1D (flagIf c fNX) := FlagsIn.flagIf (by decide) c
  cases v with
  | nan => exact FlagsIn.zero _
  | inf n =>
    rw [roundF]
    simp only [Bool.false_eq_true, if_false]
    split
    · exact (by decide : FlagsIn 0x1D fNV)
    · exact FlagsIn.zero _
  | fin n m e d =>
    rw [roundF]
    simp only [Bool.false_eq_true, if_false]
    split
    · exact FlagsIn.zero _
    · split
      all_goals
        split
        · split <;> exact (hnx _).or (by decide : FlagsIn 0x1D fOF)
        · exact (hnx _).or (FlagsIn.flagIf (by decide : FlagsIn 0x1D fUF) _)

theorem flagsIn_roundSum (F : Fmt) (rm : RMode) (ts : List (Ex × Bool)) : FlagsIn 0x1D (roundSum F rm ts).2 :=
  (flagsIn_roundF F rm _).or (FlagsIn.flagIf (by decide : FlagsIn 0x1D fNV) _)

theorem flagsIn_snanFlag {m : Word} (hm : FlagsIn m fNV) (F : Fmt) (xs : List Nat) : FlagsIn m (snanFlag F xs) :=
    FlagsIn.flagIf hm _

/-- A sum that is rounded once, with NV for a signalling operand. -/
theorem flagsIn_rounded (F : Fmt) (rm : RMode) (ts : List (Ex × Bool)) (ps : List Nat) :
    FlagsIn 0x1D ((roundSum F rm ts).2 ||| snanFlag F ps) :=
  (flagsIn_roundSum F rm ts).or (flagsIn_snanFlag (by decide) F ps)

theorem flagsIn_fMinMax (F : Fmt) (mx nanp : Bool) (a b : Nat) : FlagsIn 0x01 (fMinMax F mx nanp a b).2 := by
  have hnv : FlagsIn 0x01 (snanFlag F [a, b]) := flagsIn_snanFlag (by decide) F _
  unfold fMinMax
  extract_lets nv
  split
  · exact hnv
  · split
    · exact hnv
    · split <;> exact hnv

theorem flagsIn_fCmp (F : Fmt) (cc : FCond) (a b : Nat) : FlagsIn 0x01 (fCmp F cc a b).2 := by
  have hnv : FlagsIn 0x01 (snanFlag F [a, b]) := flagsIn_snanFlag (by decide) F _
  cases cc
  case lt | le | gt | ge => exact FlagsIn.flagIf (by decide) _
  case eq | ne | un | ord => exact hnv

theorem flagsIn_fRnd (F : Fmt) (rm : RMode) (ex : Bool) (a : Nat) : FlagsIn (if ex then 0x11 else 0x01) (fRnd F rm ex a).2 := by
  have hnv : FlagsIn (if ex then 0x11 else 0x01) (snanFlag F [a]) := flagsIn_snanFlag (by cases ex <;> decide) F _
  rw [fRnd]
  cases F.value a with
  | nan => exact hnv
  | inf n => exact FlagsIn.zero _
  | fin n m e d =>
    cases ex
    · exact FlagsIn.zero _
    · exact FlagsIn.flagIf (by decide) _

theorem flagsIn_packed {m : Word} {f : Nat → Nat → Nat → Nat × Word} (h : ∀ x y z, FlagsIn m (f x y z).2)
    (ty : FTy) (a b c : DWord) :
    FlagsIn m (packed ty f a b c).2 := by
  cases ty with
  | f32 => exact h _ _ _
  | f16 | bf16 => exact (h _ _ _).or (h _ _ _)

theorem flagsIn_dot2 (ty : FTy) (sm : SMod) (rm : RMode) (a b c : DWord) : FlagsIn 0x1D (dot2 ty sm rm a b c).2 := by
  unfold dot2
  exact ((flagsIn_roundSum ..).or (flagsIn_snanFlag (by decide) ..)).or (flagsIn_snanFlag (by decide) ..)

/-- A result under a mode sets SAT at most, and nothing under wrap. -/
theorem flagsIn_deliver (md : SatMode) (v : Int) (n : Nat) : FlagsIn (if md = .wrap then 0 else 0x40) (deliver md v n).2 := by
  cases md with
  | wrap => exact FlagsIn.zero _
  | sats | satn => exact FlagsIn.flagIf (by decide) _

/-! ### The lane-by-lane forms -/

/-- A lane-by-lane form maps a function over its lanes, whose flags are those that the form names. -/
theorem laneWise_maps {i : Instr} (h : laneWise i = true) :
    ∃ f, (∀ s, exec i s = mapLanes i s f) ∧ ∀ a b c, FlagsIn (flagsOf i) (f a b c).2 := by
  cases i with
  | iadd h m | isub h m | imul h m | imad h m | iabs h m => exact ⟨_, fun _ => rfl, fun _ _ _ => flagsIn_deliver m _ 32⟩
  | add64 h m | sub64 h m => exact ⟨_, fun _ => rfl, fun _ _ _ => flagsIn_deliver m _ 64⟩
  | mul64 h m =>
    cases m with
    | full m => exact ⟨_, fun _ => rfl, fun _ _ _ => flagsIn_deliver m _ 64⟩
    | wideN | wideS => exact ⟨_, fun _ => rfl, fun _ _ _ => FlagsIn.zero _⟩
  | imulh | imin | imax | and | or | xor | andn | shl | shr | sar | rot | popc | clz | brev | bfe | bfi | sel | mov | icmp | plog
  | sext | zext | lea => exact ⟨_, fun _ => rfl, fun _ _ _ => FlagsIn.zero _⟩
  | fadd h sm ty | fsub h sm ty | fmul h sm ty | ffma h sm ty =>
    exact ⟨_, fun _ => rfl, fun _ _ _ => flagsIn_packed (fun _ _ _ => flagsIn_rounded _ _ _ _) ty _ _ _⟩
  | fmin h sm ty | fmax h sm ty =>
    exact ⟨_, fun _ => rfl, fun _ _ _ => flagsIn_packed (fun _ _ _ => flagsIn_fMinMax _ _ _ _ _) ty _ _ _⟩
  | fcmp | dcmp => exact ⟨_, fun _ => rfl, fun _ _ _ => flagsIn_fCmp _ _ _ _⟩
  | fclass h ty =>
    cases ty with
    | none => exact ⟨_, fun _ => rfl, fun _ _ _ => FlagsIn.zero _⟩
    | some ty => exact ⟨_, fun _ => rfl, fun _ _ _ => flagsIn_packed (fun _ _ _ => FlagsIn.zero _) ty _ _ _⟩
  | frnd h x ty => exact ⟨_, fun _ => rfl, fun _ _ _ => flagsIn_packed (fun _ _ _ => flagsIn_fRnd _ _ x _) ty _ _ _⟩
  | fdot2 => exact ⟨_, fun _ => rfl, flagsIn_dot2 _ _ _⟩
  | dadd | dmul | dfma => exact ⟨_, fun _ => rfl, fun _ _ _ => flagsIn_rounded _ _ _ _⟩
  | dmin | dmax => exact ⟨_, fun _ => rfl, fun _ _ _ => flagsIn_fMinMax _ _ _ _ _⟩
  | _ => exact absurd h Bool.false_ne_true

/-- Its destination is a register, a pair or a predicate. -/
theorem laneWise_dest {i : Instr} (h : laneWise i = true) :
    ∃ u, (shape i).d = some u ∧ (u.n = 1 ∨ u.n = 2 ∨ (u.ok = true → u.o.isPred = true)) := by
  cases i with
  | sext h wide | zext h wide =>
    cases wide
    · exact ⟨_, rfl, Or.inl rfl⟩
    · exact ⟨_, rfl, Or.inr (Or.inl rfl)⟩
  | mul64 h m => cases m <;> exact ⟨_, rfl, Or.inr (Or.inl rfl)⟩
  | add64 | sub64 | lea | dadd | dmul | dfma | dmin | dmax => exact ⟨_, rfl, Or.inr (Or.inl rfl)⟩
  | icmp | plog | fcmp | dcmp => exact ⟨_, rfl, Or.inr (Or.inr id)⟩
  | mov h d a =>
    refine ⟨_, rfl, ?_⟩
    cases hp : d.isPred
    · exact Or.inl rfl
    · exact Or.inr (Or.inr fun _ => rfl)
  | iadd | isub | imul | imad | iabs | imulh | imin | imax | and | or | xor | andn | shl | shr | sar | rot |
    popc | clz | brev | bfe
  | bfi | sel | fadd | fsub | fmul | ffma | fmin | fmax | fclass | frnd | fdot2 => exact ⟨_, rfl, Or.inl rfl⟩
  | _ => exact absurd h Bool.false_ne_true

/-! ### What changes one warp -/

/-- Two states that differ in one warp at most, which the relation `R` joins to what it was. -/
def InWarp (w : WarpId) (R : Warp → Warp → Prop) (s t : State) : Prop :=
  t = { s with warps := t.warps } ∧ (∀ v, v ≠ w → t.warp? v = s.warp? v) ∧ ∀ y, s.warp? w = some y → ∃ z,
    t.warp? w = some z ∧ R y z

namespace InWarp

variable {w : WarpId} {R Q : Warp → Warp → Prop} {s t u : State}

theorem refl (h : ∀ y, R y y) (s : State) : InWarp w R s s := ⟨rfl, fun _ _ => rfl, fun y hy => ⟨y, hy, h y⟩⟩

theorem modWarp {f : Warp → Warp} (h : ∀ y, R y (f y)) (s : State) : InWarp w R s (s.modWarp w f) := by
  refine ⟨rfl, fun v hv => ?_, fun y hy => ⟨f y, ?_, h y⟩⟩
  · rw [State.warp?_modWarp, if_neg (Ne.symm hv)]
  · rw [State.warp?_modWarp, if_pos rfl, hy, Option.map_some]

theorem trans (h : InWarp w R s t) (h' : InWarp w Q t u) : InWarp w (fun y z => ∃ m, R y m ∧ Q m z) s u := by
  obtain ⟨ht, hother, hw⟩ := h
  obtain ⟨hu, hother', hw'⟩ := h'
  refine ⟨by rw [hu, ht], fun v hv => (hother' v hv).trans (hother v hv), fun y hy => ?_⟩
  obtain ⟨m, hm, hR⟩ := hw y hy
  obtain ⟨z, hz, hQ⟩ := hw' m hm
  exact ⟨z, hz, m, hR, hQ⟩

end InWarp

/-! ### Moving past an instruction (R18, R76) -/

/-- What moving past an instruction does to its warp. -/
def movedPast (i : Instr) (x : Issue) (m : Mask) (y : Warp) : Warp :=
  let z := { y with hold := y.hold.trapped, heldSet := 0, excCount := if y.exc == 0 then 0 else y.excCount + 1,
                    spin := if resetsSpin i && (x.exec &&& ~~~m) != 0 then 0 else y.spin }
  if x.rep then repDone z 0 x.cur.next else z.setVpc (x.set &&& ~~~m) x.cur.next

theorem placed_eq (i : Instr) (x : Issue) (m : Mask) (t : State) : placed i x m t = t.modWarp x.w (movedPast i x m) := by
  have hset : x.set &&& ~~~(x.set &&& (0 : Mask)) = x.set := by
    rw [show x.set &&& (0 : Mask) = 0 from BitVec.and_zero, and_not_zero]
  simp only [placed, finish, waitBreak, List.map_nil, maskOf_nil, BitVec.or_self, hset, List.isEmpty_nil, Bool.not_true,
    Bool.false_eq_true, if_false, if_true]
  rfl

theorem repDone_none (y : Warp) (next : Addr) :
    repDone y 0 next = if y.rep.done < y.rep.total then { y with rep := { y.rep with done := y.rep.done + 1, only := none } }
      else { y.setVpc y.rep.set next with rep := { y.rep with act := false, only := none } } := if_neg (by decide)

theorem repDone_spin (y : Warp) (rest : Mask) (next : Addr) : (repDone y rest next).spin = y.spin := by
  rw [repDone]
  split
  · rfl
  · split <;> rfl

theorem setVpc_kinds (y : Warp) (m : Mask) (pc : Addr) :
    (y.setVpc m pc).lanes.map (fun l => (l.st, l.wait)) = y.lanes.map fun l => (l.st, l.wait) := by
  apply List.ext_getElem
  · simp [Warp.setVpc, Warp.modLanes]
  · intro k h1 h2
    simp only [Warp.setVpc, Warp.modLanes, List.getElem_map, List.getElem_mapIdx]
    split <;> rfl

theorem setVpc_vpc (y : Warp) (m : Mask) (pc : Addr) {l : Nat} (h : l < y.width) :
    (y.setVpc m pc).vpc l = if m.getLsbD l then pc else y.vpc l := by
  have hl : y.lanes[l]? = some y.lanes[l] := List.getElem?_eq_getElem h
  simp only [Warp.vpc, Warp.setVpc, Warp.modLanes, List.getElem?_mapIdx, hl, Option.map_some, Option.getD_some]
  show Lane.vpc (if bit m l = true then _ else _) = if bit m l = true then _ else _
  split <;> rfl

theorem movedPast_fields (i : Instr) (x : Issue) (m : Mask) (y : Warp) :
    movedPast i x m y = { y with lanes := (movedPast i x m y).lanes, rep := (movedPast i x m y).rep, hold := y.hold.trapped, heldSet := 0
                                 excCount := (movedPast i x m y).excCount, spin := (movedPast i x m y).spin }
      ∧ (movedPast i x m y).lanes.map (fun l => (l.st, l.wait)) = y.lanes.map fun l => (l.st, l.wait) := by
  unfold movedPast
  extract_lets z
  split
  · rw [repDone_none]
    split
    · exact ⟨rfl, rfl⟩
    · exact ⟨rfl, setVpc_kinds ..⟩
  · exact ⟨rfl, setVpc_kinds ..⟩

theorem movedPast_vpc {i : Instr} {x : Issue} (h : x.rep = false) (m : Mask) (y : Warp) :
    (movedPast i x m y).rep = y.rep ∧ ∀ l, l < 64 → l < y.width →
      (movedPast i x m y).vpc l = if (x.set &&& ~~~m).getLsbD l then x.cur.next else y.vpc l := by
  rw [movedPast, h]
  exact ⟨rfl, fun l _ hl => setVpc_vpc _ _ _ hl⟩

theorem movedPast_spin {i : Instr} (h : resetsSpin i = false) (x : Issue) (m : Mask) (y : Warp) :
    (movedPast i x m y).spin = y.spin := by
  unfold movedPast
  simp only [h, Bool.false_and, Bool.false_eq_true, if_false]
  split
  · exact repDone_spin ..
  · rfl

/-! ### Writing a destination lane by lane -/

/-- The register with NUM `k` is one of `n` from the register of an operand on. -/
def inReg (o : Operand) (n k : Nat) : Bool :=
  match regNum o with
  | some b => b ≤ k && k < b + n
  | none => false

/-- Two warps that differ in the registers of a destination at most, and there in some lanes only. -/
structure WritesOnly (o : Operand) (n : Nat) (ls : List Nat) (y z : Warp) : Prop where
  fields : z = { y with vr := z.vr, sr := z.sr, pr := z.pr, latchA := z.latchA }
  vec : ∀ k l, k < 128 → l < 64 → ¬ (inReg o n k = true ∧ l ∈ ls) → z.v k l = y.v k l
  sca : ∀ k, inReg o n (128 + k) = false → z.s k = y.s k
  prd : ∀ k l, ¬ ((∃ q, o = .p q ∧ q.val = k) ∧ l ∈ ls) → z.p k l = y.p k l

namespace WritesOnly

variable {o : Operand} {n : Nat} {ls : List Nat} {y z u : Warp}

theorem refl (y : Warp) : WritesOnly o n ls y y := ⟨rfl, fun _ _ _ _ _ => rfl, fun _ _ => rfl, fun _ _ _ => rfl⟩

theorem trans (h : WritesOnly o n ls y z) (h' : WritesOnly o n ls z u) : WritesOnly o n ls y u :=
  ⟨by rw [h'.fields, h.fields], fun k l hk hl hn => (h'.vec k l hk hl hn).trans (h.vec k l hk hl hn),
    fun k hn => (h'.sca k hn).trans (h.sca k hn), fun k l hn => (h'.prd k l hn).trans (h.prd k l hn)⟩

end WritesOnly

section

variable {n l : Nat} {ls : List Nat} (hl : l ∈ ls) (hl64 : l < 64)
include hl hl64

theorem setV_writesOnly {k : Fin 128} {j : Nat} (hj : k.val ≤ j ∧ j < k.val + n) (y : Warp) (a : Word) :
    WritesOnly (.v k) n ls y (y.setV j l a) := by
  refine ⟨rfl, fun k' l' hk' hl' hn => ?_, fun _ _ => rfl, fun _ _ _ => rfl⟩
  have hne : 64 * j + l ≠ 64 * k' + l' := by
    intro h
    obtain ⟨rfl, rfl⟩ : j = k' ∧ l = l' := by omega
    exact hn ⟨by simp only [inReg, regNum, hj.1, hj.2, decide_true, Bool.and_self], hl⟩
  rw [Warp.v, Warp.v, Warp.setV, sGet_sSet, if_neg hne]

omit hl hl64 in
theorem setS_writesOnly {k : Fin 64} {j : Nat} (hj : k.val ≤ j ∧ j < k.val + n) (y : Warp) (a : Word) :
    WritesOnly (.s k) n ls y (y.setS j a) := by
  refine ⟨rfl, fun _ _ _ _ _ => rfl, fun k' hn => ?_, fun _ _ _ => rfl⟩
  have hne : j ≠ k' := by
    rintro rfl
    have hin : inReg (.s k) n (128 + j) = true := by
      simp only [inReg, regNum, Bool.and_eq_true, decide_eq_true_eq]
      omega
    rw [hin] at hn
    cases hn
  rw [Warp.s, Warp.s, Warp.setS, sGet_sSet, if_neg hne]

omit hl hl64 in
theorem bit_setBit_other (m : Mask) {l l' : Nat} (h : l ≠ l') (b : Bool) : bit (setBit m l b) l' = bit m l' := by
  have hone : ((1 : Mask) <<< l).getLsbD l' = false := by
    rw [BitVec.getLsbD_shiftLeft]
    by_cases hlt : l' < l
    · simp [hlt]
    · have : l' - l ≠ 0 := by omega
      simp [this]
  cases b
  · simp only [setBit, bit, Bool.false_eq_true, if_false, BitVec.getLsbD_and, BitVec.getLsbD_not, hone,
      Bool.not_false, Bool.and_true]
    by_cases hlt : l' < 64
    · simp [hlt]
    · simp [hlt, BitVec.getLsbD_of_ge _ _ (Nat.le_of_not_lt hlt)]
  · simp only [setBit, bit, if_true, BitVec.getLsbD_or, hone, Bool.or_false]

omit hl hl64 in
theorem pMask_setP (y : Warp) (k k' l : Nat) (b : Bool) :
    (y.setP k l b).pMask k' = if k ≠ 7 ∧ k = k' then setBit (y.pMask k) l b else y.pMask k' := by
  rw [Warp.setP]
  by_cases h7 : (k == 7) = true
  · rw [if_pos h7, if_neg (fun h => h.1 (beq_iff_eq.mp h7))]
  · rw [if_neg h7]
    have hk7 : k ≠ 7 := fun h => h7 (beq_iff_eq.mpr h)
    show (if (k' == 7) = true then fullMask y.width else sGet 0 (sSet 0 y.pr k (setBit (y.pMask k) l b)) k') = _
    rw [sGet_sSet]
    by_cases hk : k = k'
    · subst hk
      rw [if_neg h7, if_pos rfl, if_pos ⟨hk7, rfl⟩]
    · have hno : ¬ (k ≠ 7 ∧ k = k') := fun h => hk h.2
      rw [if_neg hk, if_neg hno]
      rfl

omit hl64 in
theorem setP_writesOnly (k : Fin 8) (y : Warp) (b : Bool) : WritesOnly (.p k) n ls y (y.setP k.val l b) := by
  refine ⟨?_, fun k' l' _ _ _ => ?_, fun k' _ => ?_, fun k' l' hn => ?_⟩
  · rw [Warp.setP]
    split <;> rfl
  · rw [Warp.setP]
    split <;> rfl
  · rw [Warp.setP]
    split <;> rfl
  · rw [Warp.p, Warp.p, pMask_setP]
    split
    · rename_i h
      obtain ⟨-, rfl⟩ := h
      have hne : l ≠ l' := by
        rintro rfl
        exact hn ⟨⟨k, rfl, rfl⟩, hl⟩
      exact bit_setBit_other _ hne b
    · rfl

theorem putLane_writesOnly {o : Operand} (hn : n = 1 ∨ n = 2 ∨ o.isPred = true) (y : Warp) (v : DWord) :
    WritesOnly o n ls y (putLane y o n l v) := by
  cases o with
  | v k =>
    rcases hn with rfl | rfl | hp
    · exact setV_writesOnly hl hl64 (by omega) y _
    · exact (setV_writesOnly hl hl64 (by omega) y _).trans (setV_writesOnly hl hl64 (by omega) _ _)
    · cases hp
  | s k =>
    rcases hn with rfl | rfl | hp
    · exact setS_writesOnly (by omega) y _
    · exact (setS_writesOnly (by omega) y _).trans (setS_writesOnly (by omega) _ _)
    · cases hp
  | p k => exact setP_writesOnly hl k y _
  | sp | imm | ch => exact WritesOnly.refl y

end

theorem foldl_putLane_writesOnly {o : Operand} {n : Nat} (hn : n = 1 ∨ n = 2 ∨ o.isPred = true) {ls : List Nat}
    (hls : ∀ l ∈ ls, l < 64) (es : List (Nat × DWord)) (hes : ∀ e ∈ es, e.1 ∈ ls) (y : Warp) :
    WritesOnly o n ls y (es.foldl (fun y e => putLane y o n e.1 e.2) y) := by
  induction es generalizing y with
  | nil => exact WritesOnly.refl y
  | cons e es ih =>
    have he := hes e List.mem_cons_self
    exact (putLane_writesOnly he (hls _ he) hn y e.2).trans (ih (fun q hq => hes q (List.mem_cons_of_mem e hq)) _)

/-! ### A lane-by-lane form -/

theorem ok_of_wellFormed {i : Instr} (h : i.wellFormed = true) {u : Use} (hd : (shape i).d = some u) : u.ok = true := by
  simp only [Instr.wellFormed, Bool.and_eq_true, List.all_eq_true] at h
  refine h.2 u ?_
  rw [Shape.uses, hd]
  exact List.mem_filterMap.mpr ⟨some u, List.mem_cons_self, rfl⟩

theorem resetsSpin_laneWise {i : Instr} (hi : laneWise i = true) :
    resetsSpin i = match (shape i).d with | some u => u.o.isChan | none => false := by
  cases i with
  | iadd | isub | imul | imad | iabs | imulh | imin | imax | and | or | xor | andn | shl | shr | sar | rot |
    popc | clz | brev | bfe
  | bfi | sel | mov | icmp | plog | sext | zext | lea | add64 | sub64 | mul64 | fadd | fsub | fmul | ffma | fmin | fmax | fcmp
  | fclass | frnd | fdot2 | dadd | dmul | dfma | dcmp | dmin | dmax => rfl
  | _ => exact absurd hi Bool.false_ne_true

/-- A form that names no ring in any of its fields. -/
theorem noChan_of_chanFields {i : Instr} (hi : laneWise i = true) (hch : chanFields i = []) :
    (∀ u, (shape i).a = some u ∨ (shape i).b = some u ∨ (shape i).c = some u → u.o.isChan = false)
      ∧ ∀ u, (shape i).d = some u → u.o.isChan = false := by
  unfold chanFields at hch
  split at hch
  · exact absurd hi Bool.false_ne_true
  · rw [List.append_eq_nil_iff, List.filterMap_eq_nil_iff] at hch
    obtain ⟨hsrc, hdst⟩ := hch
    refine ⟨fun u hu => ?_, fun u hu => ?_⟩
    · have hmem : some u ∈ [(shape i).a, (shape i).b, (shape i).c] := by
        rcases hu with hu | hu | hu <;> simp [hu]
      have hnone := hsrc _ hmem
      cases ho : u.o with
      | ch n pk => simp [ho] at hnone
      | _ => rfl
    · rw [hu] at hdst
      cases ho : u.o with
      | ch n pk =>
        obtain ⟨o, n', ok⟩ := u
        subst ho
        cases hdst
      | _ => rfl

section

variable {s : State} {x : Issue} {u : Option Use}

theorem gather_state (hu : ∀ u', u = some u' → u'.o.isChan = false) : (gather s x u).2 = s := by
  cases u with
  | none => rfl
  | some u =>
    have hu' := hu u rfl
    rw [gather]
    split
    · rename_i heq _
      rw [heq] at hu'
      cases hu'
    · rfl
    · rfl

theorem scatter_eq {v : Use} (hv : v.o.isChan = false) (vs : List DWord) :
    scatter s x (some v) vs = s.modWarp x.w fun y => (x.act.zip vs).foldl (fun y e => putLane y v.o v.n e.1 e.2) y := by
  rw [scatter]
  split
  · rename_i heq
    rw [heq] at hv
    cases hv
  · rfl

theorem orFstat_inWarp {m f : Word} (hf : FlagsIn m f) (s : State) (w : WarpId) :
    InWarp w (fun y z => z = { y with fstat := z.fstat } ∧ z.fstat &&& ~~~m = y.fstat &&& ~~~m) s (orFstat s w f) := by
  rw [orFstat]
  split
  · exact InWarp.refl (fun _ => ⟨rfl, rfl⟩) s
  · exact InWarp.modWarp (fun y => ⟨rfl, hf.fstat_or y.fstat⟩) s

theorem mem_act {l : Nat} (h : l ∈ x.act) : l < 64 := by
  have hex : l ∈ lanesOf x.exec := by
    rw [Issue.act] at h
    split at h
    · exact List.mem_of_mem_take h
    · exact h
  exact (mem_lanesOf.mp hex).1

end

/-- What a lane-by-lane form does before its lanes move past it: flags that it names, and the registers of its destination. -/
theorem lanewise_inWarp {i : Instr} {f : DWord → DWord → DWord → DWord × Word} (hi : laneWise i = true) (hch : chanFields i = [])
    (hf : ∀ a b c, FlagsIn (flagsOf i) (f a b c).2) {u : Use} (hd : (shape i).d = some u)
    (hn : u.n = 1 ∨ u.n = 2 ∨ u.o.isPred = true) (x : Issue) (s : State) :
    InWarp x.w (fun y z => ∃ m, (m = { y with fstat := m.fstat } ∧ m.fstat &&& ~~~(flagsOf i) = y.fstat &&& ~~~(flagsOf i))
      ∧ WritesOnly u.o u.n x.act m z) s (lanewise i f x s) := by
  obtain ⟨hsrc, hdst⟩ := noChan_of_chanFields hi hch
  unfold lanewise
  extract_lets v rs
  have hstate : v.2.2.2 = s := by
    show (gather (gather (gather s x (shape i).a).2 x (shape i).b).2 x (shape i).c).2 = s
    rw [gather_state fun u hu => hsrc u (Or.inr (Or.inr hu)), gather_state fun u hu => hsrc u (Or.inr (Or.inl hu)),
      gather_state fun u hu => hsrc u (Or.inl hu)]
  rw [hstate, hd, scatter_eq (hdst u hd)]
  refine (orFstat_inWarp (FlagsIn.orAll fun g hg => ?_) s x.w).trans (InWarp.modWarp (fun y => ?_) _)
  · rw [List.mem_map] at hg
    obtain ⟨r, hr, rfl⟩ := hg
    obtain ⟨e, -, rfl⟩ := List.mem_map.mp hr
    exact hf _ _ _
  · exact foldl_putLane_writesOnly hn (fun _ => mem_act) _ (fun e he => (List.of_mem_zip he).1) y

theorem writesReg_eq {i : Instr} {u : Use} (hd : (shape i).d = some u) (n : Nat) : writesReg i n = inReg u.o u.n n := by
  rw [writesReg, hd]
  rfl

theorem writesPred_iff {i : Instr} {u : Use} (hd : (shape i).d = some u) (n : Nat) :
    writesPred i n = true ↔ ∃ q, u.o = .p q ∧ q.val = n := by
  obtain ⟨o, k, ok⟩ := u
  rw [writesPred, hd]
  cases o with
  | p q => simp
  | _ => simp

/-- Flags, then a destination, then moving past the instruction: the warp's other fields are what they were. -/
theorem sameButRegs_of_writes {i : Instr} {x : Issue} {o : Operand} {n : Nat} {y k m : Warp}
    (hk : k = { y with fstat := k.fstat })
    (hw : WritesOnly o n x.act k m) (hspin : resetsSpin i = false) :
    sameButRegs y (movedPast i x 0 m) ∧ (movedPast i x 0 m).vr = m.vr ∧ (movedPast i x 0 m).sr = m.sr
      ∧ (∀ n l, (movedPast i x 0 m).p n l = m.p n l) ∧ (movedPast i x 0 m).fstat = k.fstat := by
  obtain ⟨hfields, hkinds⟩ := movedPast_fields i x 0 m
  have hs := movedPast_spin hspin x 0 m
  have hm := hw.fields
  have hwidth : (movedPast i x 0 m).width = m.width := by
    have h := congrArg List.length hkinds
    rwa [List.length_map, List.length_map] at h
  generalize movedPast i x 0 m = z at *
  obtain ⟨la, rp, ec, sp, rfl⟩ : ∃ la rp ec sp,
    z = { m with lanes := la, rep := rp, hold := m.hold.trapped, heldSet := 0, excCount := ec, spin := sp } :=
      ⟨_, _, _, _, hfields⟩
  obtain ⟨vr, sr, pr, lt, rfl⟩ : ∃ vr sr pr lt, m = { k with vr := vr, sr := sr, pr := pr, latchA := lt } := ⟨_, _, _, _, hm⟩
  obtain ⟨f, rfl⟩ : ∃ f, k = { y with fstat := f } := ⟨_, hk⟩
  obtain rfl : sp = y.spin := hs
  exact ⟨⟨rfl, hkinds⟩, rfl, rfl, fun n l => by rw [Warp.p, Warp.p, Warp.pMask, Warp.pMask, fullMask, fullMask, hwidth], rfl⟩

/-- Settles O57: a lane-by-lane form maps a function over its lanes, whose results enter its destination; the warp's other
registers and the rest of the state are what they were. Moving past an instruction changes the fields of one warp. -/
theorem registerFrame : Obligations.RegisterFrame := by
  refine ⟨fun i s t x hi hx hch hexec => ?_, fun i x m t => ?_⟩
  · obtain ⟨f, hmap, hf⟩ := laneWise_maps hi
    obtain ⟨u, hd, hn⟩ := laneWise_dest hi
    obtain ⟨hsrc, hdst⟩ := noChan_of_chanFields hi hch
    have hspin : resetsSpin i = false := by
      rw [resetsSpin_laneWise hi, hd]
      exact hdst u hd
    rw [hmap, mapLanes_of_issued hx] at hexec
    have hok : u.ok = true := by
      obtain ⟨_, _, _, -, -, -, hcl, -⟩ := issued_parts hx
      simp only [clear, Bool.and_eq_true] at hcl
      obtain ⟨hwf, -⟩ := legal_parts hcl.1.1.1.1.1.1.1
      exact ok_of_wellFormed hwf hd
    have ht : t = placed i x 0 (lanewise i f x s) := by injection hexec with h; exact h.symm
    have hframe := (lanewise_inWarp hi hch hf hd
      (by tauto) x s).trans (InWarp.modWarp (R := fun y z => z = movedPast i x 0 y) (fun _ => rfl) _)
    rw [← placed_eq, ← ht] at hframe
    obtain ⟨hst, hother, hwarp⟩ := hframe
    refine ⟨hst, hother, fun y hy => ?_⟩
    obtain ⟨z, hz, m, ⟨k, ⟨hk, hfl⟩, hw⟩, rfl⟩ := hwarp y hy
    obtain ⟨hsame, hvr, hsr, hp, hf⟩ := sameButRegs_of_writes hk hw hspin
    obtain ⟨hvr', hsr', hp'⟩ : k.vr = y.vr ∧ k.sr = y.sr ∧ ∀ n l, k.p n l = y.p n l :=
      by rw [hk]; exact ⟨rfl, rfl, fun _ _ => rfl⟩
    refine ⟨_, hz, hsame, fun n l hn hl hno => ?_, fun n hno => ?_, fun n l hno => ?_, by rw [hf, hfl]⟩
    · rw [writesReg_eq hd] at hno
      rw [Warp.v, hvr, ← Warp.v, hw.vec n l hn hl hno, Warp.v, hvr', Warp.v]
    · rw [writesReg_eq hd] at hno
      rw [Warp.s, hsr, ← Warp.s, hw.sca n hno, Warp.s, hsr', Warp.s]
    · rw [writesPred_iff hd] at hno
      rw [hp, hw.prd n l hno, hp']
  · have h := InWarp.modWarp (R := fun y z => z = movedPast i x m y) (w := x.w) (fun _ => rfl) t
    rw [← placed_eq] at h
    obtain ⟨hst, hother, hwarp⟩ := h
    refine ⟨hst, hother, fun y hy => ?_⟩
    obtain ⟨z, hz, rfl⟩ := hwarp y hy
    obtain ⟨hfields, hkinds⟩ := movedPast_fields i x m y
    exact ⟨_, hz, hfields, hkinds, fun hrep => movedPast_vpc hrep m y⟩

/-! ### Bytes of a window (R153) -/

/-- Two groups that differ in the bytes of their windows and the marks of those at most, and there within `p` only. -/
structure BytesOnly (p : Nat → Prop) (g g' : Group) : Prop where
  fields : g' = { g with scr := g'.scr, padPoison := g'.padPoison }
  byte : ∀ o, ¬ p o → g'.byte o = g.byte o

namespace BytesOnly

variable {p : Nat → Prop} {g g' g'' : Group}

theorem refl (g : Group) : BytesOnly p g g := ⟨rfl, fun _ _ => rfl⟩

theorem trans (h : BytesOnly p g g') (h' : BytesOnly p g' g'') : BytesOnly p g g'' :=
  ⟨by rw [h'.fields, h.fields], fun o ho => (h'.byte o ho).trans (h.byte o ho)⟩

end BytesOnly

theorem sFind_foldl_sInsert {α : Type} (es : List (Nat × α)) (m : Store α) {k : Nat} (h : ∀ e ∈ es, e.1 ≠ k) :
    sFind? (es.foldl (fun m e => sInsert m e.1 e.2) m) k = sFind? m k := by
  induction es generalizing m with
  | nil => rfl
  | cons e es ih =>
    rw [List.foldl_cons, ih _ fun q hq => h q (List.mem_cons_of_mem e hq), sFind_sInsert, if_neg (h e List.mem_cons_self)]

/-- Bytes written to a window change no others. -/
theorem setBytes_bytesOnly {p : Nat → Prop} (g : Group) (off : Nat) (bs : List Byte) (hp : ∀ k < bs.length, p (off + k)) :
    BytesOnly p g (g.setBytes off bs) := by
  refine ⟨rfl, fun o ho => ?_⟩
  have hfold : (g.setBytes off bs).scr = (bs.zipIdx.map fun e => (off + e.2, e.1)).foldl (fun m e =>
    sInsert m e.1 e.2) g.scr := by
    rw [List.foldl_map]
    rfl
  rw [Group.byte, Group.byte, hfold, sFind_foldl_sInsert]
  · rfl
  · intro e he heq
    obtain ⟨q, hq, rfl⟩ := List.mem_map.mp he
    obtain ⟨-, hlt, -⟩ := List.mem_zipIdx hq
    rw [← heq] at ho
    exact ho (hp q.2 (by omega))

/-! ### What changes one group -/

/-- Two states that differ in the bytes of one window at most. -/
def InWindow (h : GroupId) (p : Nat → Prop) (s t : State) : Prop :=
  t = { s with groups := t.groups } ∧ (∀ k, k ≠ h → t.group? k = s.group? k)
    ∧ ∀ g, s.group? h = some g → ∃ g', t.group? h = some g' ∧ BytesOnly p g g'

namespace InWindow

variable {h : GroupId} {p : Nat → Prop} {s t u : State}

theorem refl (s : State) : InWindow h p s s := ⟨rfl, fun _ _ => rfl, fun g hg => ⟨g, hg, BytesOnly.refl g⟩⟩

theorem trans (hst : InWindow h p s t) (htu : InWindow h p t u) : InWindow h p s u := by
  obtain ⟨ht, hother, hg⟩ := hst
  obtain ⟨hu, hother', hg'⟩ := htu
  refine ⟨by rw [hu, ht], fun k hk => (hother' k hk).trans (hother k hk), fun g hs => ?_⟩
  obtain ⟨g', ht', hb⟩ := hg g hs
  obtain ⟨g'', hu', hb'⟩ := hg' g' ht'
  exact ⟨g'', hu', hb.trans hb'⟩

theorem foldl {α : Type} {f : State → α → State} (l : List α) (hl : ∀ a ∈ l, ∀ s, InWindow h p s (f s a)) (s : State) :
    InWindow h p s (l.foldl f s) := by
  induction l generalizing s with
  | nil => exact refl s
  | cons a l ih => exact (hl a List.mem_cons_self s).trans (ih (fun b hb => hl b (List.mem_cons_of_mem a hb)) _)

end InWindow

theorem padWrite_inWindow {p : Nat → Prop} (s : State) (h : GroupId) (off : Nat) (bs : List Byte)
    (hp : ∀ k < bs.length, p (off + k)) :
    InWindow h p s (padWrite s h off bs) := by
  refine ⟨rfl, fun k hk => ?_, fun g hg => ⟨g.setBytes off bs, ?_, setBytes_bytesOnly g off bs hp⟩⟩
  · rw [padWrite, State.group?_modGroup, if_neg (Ne.symm hk)]
  · rw [padWrite, State.group?_modGroup, if_pos rfl, hg, Option.map_some]

/-! ### The data of a store -/

theorem length_flatMap_bytesOf (ws : List Word) : (ws.flatMap fun q => bytesOf q.toNat 4).length = 4 * ws.length := by
  induction ws with
  | nil => rfl
  | cons w ws ih =>
    rw [List.flatMap_cons, List.length_append, ih, length_bytesOf, List.length_cons]
    omega

theorem length_srcQuad (y : Warp) (o : Operand) (l : Nat) : (srcQuad y o l).length = 4 := by
  cases o <;> rfl

/-- Data that stand in registers leave the state as it is, and are no longer than the store is wide. -/
theorem storeData_registers {b : Operand} (hb : b.isChan = false) (s : State) (x : Issue) (n : Nat) :
    (storeData s x b n).2 = s ∧ ∀ bs ∈ (storeData s x b n).1, bs.length ≤ n := by
  unfold storeData
  split
  next => exact absurd hb (by simp [Operand.isChan])
  next o y _ _ =>
    refine ⟨rfl, fun bs hbs => ?_⟩
    obtain ⟨l, -, rfl⟩ := List.mem_map.mp hbs
    split
    · rename_i hn
      rw [beq_iff_eq.mp hn, length_flatMap_bytesOf, length_srcQuad]
    · rw [length_bytesOf]
  next => exact ⟨rfl, fun bs hbs => by cases hbs⟩

theorem withData_parts {x : Issue} {gs : List Good} {ds : List (List Byte)} {e : Good × List Byte} (he : e ∈ withData x gs ds) :
    e.1 ∈ gs ∧ e.2 ∈ ds := by
  obtain ⟨q, hq, hfind⟩ := List.mem_filterMap.mp he
  obtain ⟨g, hg, rfl⟩ := Option.map_eq_some_iff.mp hfind
  exact ⟨List.mem_of_find?_eq_some hg, (List.of_mem_zip hq).2⟩

theorem movedPast_registers (i : Instr) (x : Issue) (m : Mask) (y : Warp) :
    (movedPast i x m y).vr = y.vr ∧ (movedPast i x m y).sr = y.sr ∧ (movedPast i x m y).pr = y.pr
      ∧ (movedPast i x m y).fstat = y.fstat ∧ (movedPast i x m y).cv = y.cv ∧ (movedPast i x m y).flm = y.flm := by
  obtain ⟨hfields, -⟩ := movedPast_fields i x m y
  rw [hfields]
  exact ⟨rfl, rfl, rfl, rfl, rfl, rfl⟩

/-- A store without release of registers in a window writes its bytes there, and its lanes move past it. -/
theorem exec_sts_inWindow {p : Pr} {a b : Operand} {m : MemExt} {s t : State} {x : Issue} {h : GroupId} {gs : List Good}
    (hx : issued (.sts p a b m) s = some x) (hback : goes s x false) (hord : m.ord ≠ .rel) (hb : b.isChan = false)
    (hin : inWindow s x m h m.wid.bytes (offs s x a m.off) gs) (hheld : anyHeld s h m.wid.bytes gs = false)
    (ht : exec (.sts p a b m) s = .next t) :
    ∃ u, InWindow h (fun o => ∃ e ∈ gs, e.pa ≤ o ∧ o < e.pa + m.wid.bytes) s u ∧ t =
      u.modWarp x.w (movedPast (.sts p a b m) x 0) := by
  obtain ⟨hdata, hlen⟩ := storeData_registers hb s x m.wid.bytes
  have hpad : padReleased s x m = s := if_neg hord
  have hdead : windowDead (storeData (padReleased s x m) x b m.wid.bytes).2 x.gid h = false := by
    rw [hpad, hdata]
    exact hin.2.1
  have hbody := stsBody_good hback (fun hr => absurd hr hord) hin hheld hdead
  rw [hpad, hdata] at hbody
  rw [exec_of_ok (fs := []) (m := 0) rfl hx hbody] at ht
  refine ⟨(withData x gs (storeData s x b m.wid.bytes).1).foldl (fun u e => padWrite u h e.1.pa e.2) s, ?_, ?_⟩
  · refine InWindow.foldl _ (fun e he u => padWrite_inWindow u h e.1.pa e.2 fun k hk => ?_) s
    obtain ⟨hg, hd⟩ := withData_parts he
    exact ⟨e.1, hg, Nat.le_add_right .., Nat.add_lt_add_left (Nat.lt_of_lt_of_le hk (hlen e.2 hd)) _⟩
  · injection ht with ht
    exact ht.symm.trans (placed_eq ..)

/-- Settles O58: a store in a window is a fold of writes of bytes to one group; a commit that touches no watched granule is a
fold of writes at the homes. -/
theorem storeFrame : Obligations.StoreFrame := by
  refine ⟨fun p a b m s t x h gs g hx hback hord hb hin hheld hg ht => ?_, fun s bs tag wr hun _ => ⟨?_, ?_, ?_⟩⟩
  · obtain ⟨u, ⟨hu, hother, hwin⟩, rfl⟩ := exec_sts_inWindow hx hback hord hb hin hheld ht
    obtain ⟨g', hg', hbytes⟩ := hwin g hg
    refine ⟨by rw [State.modWarp_mem, hu], by rw [State.modWarp_cus, hu], by rw [State.modWarp_reqs, hu], hother,
      ⟨g', hg', hbytes.fields, ?_⟩, ?_⟩
    · intro o ho
      refine hbytes.byte o ?_
      rintro ⟨e, he, hle, hlt⟩
      have := ho e he
      omega
    · intro w y hy
      have hy' : u.warp? w = some y := by rw [hu]; exact hy
      rw [State.warp?_modWarp, hy', Option.map_some]
      split
      · obtain ⟨hvr, hsr, hpr, hf, hcv, hflm⟩ := movedPast_registers (.sts p a b m) x 0 y
        exact ⟨_, rfl, hvr, hsr, hpr, hf, hcv, hflm⟩
      · exact ⟨y, rfl, rfl, rfl, rfl, rfl, rfl, rfl⟩
  · have hmem : MemOnly s (commit s bs tag wr) := by
      rw [commit_unwatched hun]
      exact homeWrite_memOnly s bs tag
    have hcus : (commit s bs tag wr).cus = s.cus := by
      rw [commit_unwatched hun]
      exact (homeWrite_sameCopies s bs tag).1
    rwa [MemOnly, hcus] at hmem
  · exact fun a hs ha => homeByte_commit_other hun tag wr hs ha
  · exact fun e he hnd hsp => homeByte_commit_mem hun tag wr hnd he hsp

end Sys2Proof.Machine
end

section
/-! SUPPORT. Caches and regions at the homes. -/

namespace Sys2Proof.Machine

open Sys2Proof Claims

theorem namesProxy_of_near {s : State} {c : CuId} {pa : Nat} (h : spaceOf s pa ≠ .far) : namesProxy s c pa = false := by
  rw [namesProxy, beq_eq_false_iff_ne.mpr h, Bool.false_and]

theorem namesProxy_of_far {s : State} {c : CuId} {pa : Nat} (h : spaceOf s pa = .far) (hc : c = proxyUnit pa) :
    namesProxy s c pa = true := by
  rw [namesProxy, h, hc, beq_self_eq_true, beq_self_eq_true, Bool.and_self]

/-- The words of a line leave the L1s, and a line of which no proxy holds anything leaves for its plinth. -/
theorem execL2Eviction_near {line : Nat} {s t : State}
    (ht : ((s.mem.dir.map fun e => e.1).filter fun w => w / 32 == line).foldl
      (fun u w => invalidateWord (recallWord u w false) w none) s = t)
    (hp : t.mem.prox = []) (ha : t.mem.accProx = []) (hv : t.mem.views = []) :
    execL2Eviction line s = .next (lineToPlinth { t with mem := { t.mem with wide := sErase t.mem.wide line } } line) := by
  unfold execL2Eviction
  simp only [ht, proxWords, hp, List.map_nil, List.filter_nil, List.foldl_nil, ha, sFind_nil, Option.isSome_none,
    Bool.false_eq_true,
    if_false, hv, List.isEmpty_nil, if_true]

theorem plinthRefuses_iff {pa size : Nat} :
    (!([32, 64, 128, 256].contains size) || pa % size != 0) = true ↔ size ∉ [32, 64, 128, 256] ∨ pa % size ≠ 0 := by
  rw [Bool.or_eq_true, Bool.not_eq_true', bne_iff_ne, ← Bool.not_eq_true, List.contains_iff_mem]

/-- Settles O38: each event has the effect that its own conditions select. -/
theorem cacheSteps : Obligations.CacheSteps := by
  intro c word line pa size clean act u taken answered
  refine ⟨fun s ⟨ho, hn⟩ => ?_, fun s ⟨hf, hc⟩ => ?_, fun s ⟨hm, hn⟩ => ?_, fun s ⟨hf, hc, ho⟩ => ?_, fun s hn => ?_,
    fun s ⟨hf, hc⟩ => ?_,
    fun s hu => ?_, fun s hu => ?_, fun s ⟨hp, ha, hv⟩ => execL2Eviction_near rfl hp ha hv, fun s hbad => ?_,
      fun s ⟨hs, hal⟩ => ?_,
    fun s ⟨hs, hal⟩ => ?_, fun s _ => rfl, fun s _ => rfl⟩
  -- recalls from an L1 and from a proxy
  · show execRecall c word clean s = _
    simp only [execRecall, namesProxy_of_near hn, ho, beq_self_eq_true, Bool.false_eq_true, if_false, if_true]
  · show execRecall c word clean s = _
    simp only [execRecall, namesProxy_of_far hf hc, if_true]
  -- invalidations
  · show execInvalidate c word s = _
    simp only [execInvalidate, namesProxy_of_near hn, List.contains_iff_mem.mpr hm, Bool.false_eq_true, if_false, if_true]
  · show execInvalidate c word s = _
    simp only [execInvalidate, namesProxy_of_far hf hc, beq_eq_false_iff_ne.mpr ho, Bool.false_eq_true, if_false, if_true]
  -- write-backs
  · show execWriteBack c line s = _
    simp only [execWriteBack, namesProxy_of_near hn, Bool.false_eq_true, if_false]
    rfl
  · show execWriteBack c line s = _
    simp only [execWriteBack, namesProxy_of_far hf hc, if_true]
    rfl
  -- evictions from an L1, without and with an update-only line
  · show execL1Eviction c line s = _
    simp only [execL1Eviction, lineWords, hu, Option.isSome_none, Bool.false_eq_true, if_false]
  · show execL1Eviction c line s = _
    simp only [execL1Eviction, lineWords, hu, Option.isSome_some, if_true]
  -- reads of a plinth
  · show execPlinthRd pa size act s = _
    rw [execPlinthRd, if_pos (plinthRefuses_iff.mpr hbad)]
  · show execPlinthRd pa size false s = _
    rw [execPlinthRd, if_neg (fun h => (plinthRefuses_iff.mp h).elim (fun h => h hs) (fun h => h hal))]
    rfl
  · show execPlinthRd pa size true s = _
    rw [execPlinthRd, if_neg (fun h => (plinthRefuses_iff.mp h).elim (fun h => h hs) (fun h => h hal))]
    rfl

/-- No push of a holder is before message `k` where each that was sent before it has arrived (R372). -/
theorem pushBefore_of_inOrder {s : State} {c : CuId} {line k : Nat}
    (h : ∀ f ∈ s.combines, f.1 < k → f.2.cu = c → f.2.line = line → f.2.acked = true) : pushBefore s c line k = false := by
  rw [pushBefore, List.any_eq_false]
  intro f hf hp
  simp only [Bool.and_eq_true, decide_eq_true_eq, beq_iff_eq, Bool.not_eq_true'] at hp
  obtain ⟨⟨⟨hk, hc⟩, hl⟩, ha⟩ := hp
  rw [h f hf hk hc hl] at ha
  cases ha

theorem tauOf_pos {tol : Nat} (h : 0 < tauOf tol) : 0 < tol := by
  rcases Nat.eq_zero_or_pos tol with rfl | hp
  · exact absurd h (by decide)
  · exact hp

theorem farDrained_of_near {s : State} {line : Nat} {h : Holders} (hh : sFind? s.holders line = some h) (hf : h.far = []) :
    farDrained s line = true := by
  rw [farDrained, hh]
  dsimp only
  rw [hf]
  rfl

theorem proxLine_of_none {s : State} {line : Nat} (h : sFind? s.mem.accProx line = none) : proxLine s line = false := by
  rw [proxLine, h]
  rfl

/-- The holders of the package answer at once, where no proxy of another package owes an answer. -/
theorem askDrain_of_near {s : State} {line : Nat} {h : Holders} (hh : sFind? s.holders line = some h)
    (hf : h.far = []) (gone : Bool) :
    askDrain s line gone = drainLine s line gone := by
  unfold askDrain
  simp only [farDrained_of_near hh hf, if_true]

/-- An atomic or a plain unc store at a line's home asks for its recall. -/
theorem wantsRecall_of_req {s : State} {line acv : Nat} {q : ReqKind} (hq : q = .atom acv ∨ q = .red acv ∨ q =
    .cas ∨ q = .store .unc)
    {f : Nat × Req} (hf : f ∈ s.reqs) (hst : f.2.stage = .home) (hb : f.2.blk = line) (hk : f.2.kind = q) :
      wantsRecall s line = true := by
  rw [wantsRecall, Bool.or_eq_true]
  refine Or.inl (List.any_eq_true.mpr ⟨f, hf, ?_⟩)
  rw [hst, hb, hk]
  rcases hq with rfl | rfl | rfl | rfl <;> simp

/-- A CU that joins a line enters its holders, and its L1 holds the line update-only where it did not. -/
theorem joinAt_holder {s t : State} {k : Nat} {r : Req} (hsm : r.sm = false)
    (ht : combineAt s r.blk (r.accs.foldl (fun m a => addDelta m (a.pa % 128 / 8) (BitVec.ofNat 64 (ofBytes a.data)).toInt) [])
      (r.accs.foldl (fun m a => addTag m (a.pa % 128 / 8) r.rel) []) r.depth r.cu = t)
        (hu : sFind? (t.cu r.cu).upd r.blk = none) :
    joinAt s k r =
      let u := { t with holders := sInsert t.holders r.blk (enterHolder (t.holder r.blk) r.cu) }
      putReq (u.modCu r.cu fun x => { x with upd := sInsert x.upd r.blk ⟨[], [], 0, 0, holderLimit u r.blk r.cu, 0, r.ctx⟩ }) k
        { r with stage := .reply } := by
  unfold joinAt
  extract_lets ds ts t' u v w
  obtain rfl : t' = t := ht
  have hnone : (sFind? (u.cu r.cu).upd r.blk).isSome = false := by
    show (sFind? (t'.cu r.cu).upd r.blk).isSome = false
    rw [hu]
    rfl
  have hv : v = u.modCu r.cu fun x =>
    { x with upd := sInsert x.upd r.blk ⟨[], [], 0, 0, holderLimit u r.blk r.cu, 0, r.ctx⟩ } := by
    refine (if_neg (ne_true_of_eq_false hsm)).trans ?_
    exact if_neg (ne_true_of_eq_false hnone)
  rw [hv]
  rfl

theorem joinAt_sm {s : State} {k : Nat} {r : Req} (hsm : r.sm = true) :
    joinAt s k r = putReq (combineAt s r.blk
      (r.accs.foldl (fun m a => addDelta m (a.pa % 128 / 8) (BitVec.ofNat 64 (ofBytes a.data)).toInt) [])
      (r.accs.foldl (fun m a => addTag m (a.pa % 128 / 8) r.rel) []) r.depth r.cu) k { r with stage := .reply } := by
  unfold joinAt
  simp only [if_pos hsm]
  rfl

theorem execJoin_inOrder {s : State} {k : Nat} {r : Req} (hr : servable s k = some r) (hk : r.kind = .acc)
    (h : ∀ f ∈ s.combines, f.1 < k → f.2.cu = r.cu → f.2.line = r.blk → f.2.acked = true) : execJoin k s =
      .next (joinAt s k r) := by
  simp only [execJoin, hr, hk, pushBefore_of_inOrder h, beq_self_eq_true, Bool.not_false, Bool.and_self, if_true]

/-- Settles O39: each event has the effect that its own conditions select. -/
theorem regionSteps : Obligations.RegionSteps := by
  intro k line acv tol lam r c e h u y limitOk joined inOrder
  refine ⟨fun s ⟨⟨hr, hk⟩, hord, hsm, hu⟩ => ?_, fun s ⟨⟨hr, hk⟩, hord, hsm⟩ => ?_, fun s ⟨he, hack, hcu, hord, hj⟩ => ?_,
    fun s ⟨he, hack, hcu, hord⟩ => ?_, fun s ⟨he, hack, hcu⟩ => ?_, fun s ⟨⟨hr, hk⟩, hun, htau, hle⟩ => ?_,
    fun s ⟨⟨hr, hk⟩, htau, hun, hlt, hdiv⟩ => ?_, fun s ⟨⟨hr, hk⟩, htau, hfar⟩ => ?_, fun s ⟨⟨hr, hk⟩, hun, htau, hle⟩ => ?_,
    fun s ⟨hn, hh, hu, hc, hlt⟩ => ?_, fun q s ⟨hf, hc, hq, hlt⟩ => ?_, fun s ⟨hp, hh, hw, hf⟩ => ?_,
    fun q hq s ⟨hp, hh, hf, g, hg, hst, hb, hk⟩ => ?_⟩
  -- a join of a CU, and one of a software-managed page
  · exact (execJoin_inOrder hr hk hord).trans (congrArg Host.Outcome.next (joinAt_holder hsm rfl hu))
  · exact (execJoin_inOrder hr hk hord).trans (congrArg Host.Outcome.next (joinAt_sm hsm))
  -- a push of a holder, and one of a proxy; its acknowledgment
  · show execCombine ⟨k, y⟩ s = _
    simp only [execCombine, he, hack, pushBefore_of_inOrder hord, Nat.not_le.mpr hcu, hj, List.isEmpty_nil, Bool.or_self,
      Bool.not_true, Bool.false_eq_true, if_false]
  · show execCombine ⟨k, y⟩ s = _
    simp only [execCombine, he, hack, pushBefore_of_inOrder hord, hcu, Bool.or_self, Bool.false_eq_true, if_false, if_true]
  · have hmay : (e.acked && (decide (e.cu < 1024) || pushSent s e)) = true := by
      rw [hack, Bool.true_and, Bool.or_eq_true, decide_eq_true_eq]
      exact hcu
    show execCombineAck k s = _
    simp only [execCombineAck, he, hmay, if_true]
  -- loads of a region
  · show execRegionLoad k s = _
    simp only [execRegionLoad, hr, hk, htau, hun, hle, decide_true, Bool.not_false, Bool.and_self, if_true]
  · show execRegionLoad k s = _
    simp only [execRegionLoad, hr, hk, htau, hun, Nat.not_le.mpr hlt, hdiv, decide_true, decide_false,
      Bool.not_false, Bool.and_self,
      Bool.and_false, Bool.false_eq_true, if_false, if_true]
  · show execRegionLoad k s = _
    simp only [execRegionLoad, hr, hk, htau, hfar, Nat.lt_irrefl, decide_false, Bool.false_and, Bool.not_true,
      Bool.false_eq_true, if_false]
  · show execTightenAck k s = _
    simp only [execTightenAck, hr, hk, hun, hle, tauOf_pos htau, decide_true, Bool.not_false, Bool.and_self, if_true]
  -- tightening, by the home and by a remote one
  · show execTighten c ⟨line, lam⟩ s = _
    simp only [execTighten, namesProxy_of_near hn, hh, hu, List.contains_iff_mem.mpr hc, hlt, decide_true, Bool.and_self,
      Bool.false_eq_true, if_false, if_true]
  · show execTighten c ⟨line, lam⟩ s = _
    simp only [execTighten, namesProxy_of_far hf hc, hq, hlt, Option.any_some, decide_true, if_true]
  -- drains and recalls
  · show execFullDrain line s = _
    simp only [execFullDrain, proxLine_of_none hp, hh, hw, askDrain_of_near hh hf, Option.isSome_some, Bool.and_self,
      Bool.false_eq_true,
      if_false, if_true]
  · show execRegionRecall line s = _
    simp only [execRegionRecall, proxLine_of_none hp, hh, wantsRecall_of_req hq hg hst hb hk, askDrain_of_near hh hf,
      Option.isSome_some,
      Bool.and_self, Bool.false_eq_true, if_false, if_true]

end Sys2Proof.Machine
end

section
/-! SUPPORT. Triggers, launches and contexts. -/

namespace Sys2Proof.Machine

open Sys2Proof Claims

section

variable {s : State} {k : Nat} {t : Trigger} {r : Region} {l : Launch}

theorem sendable_of (hr : sFind? s.regions t.region = some r) (hl : sFind? s.launches t.launch = some l) (hq : t.queued = false)
    (hsp : t.spilled = false) (hh : trigHeld s r k = false) (hc : (s.ctx l.tag).halting = 0) : sendable s k t = true := by
  rw [sendable, hr, hl]
  simp only [hq, hsp, hh, hc, Bool.not_false, beq_self_eq_true, Bool.and_self]

variable (ht : sFind? s.trigs k = some t) (hr : sFind? s.regions t.region = some r) (hl : sFind? s.launches t.launch = some l)
  (hs : sendable s k t = true)
include ht hr hl hs

/-- A trigger that may be sent is queued at the CU of its granule where that has room, and else refused there. -/
theorem offer_of_room (hroom : queueRoom s (triggerCu l r t) = true) :
    offer s k =
      let v := { s with launches := sAdjust s.launches t.launch fun l => { l with counter := l.counter + 1 } }
      enqueue { v with trigs := sInsert v.trigs k { t with queued := true, refused := false, index := l.counter } }
        (triggerCu l r t)
        { launch := t.launch, tt := r.tt, args := [], index := l.counter, kind := .trigger k, member := false } := by
  simp only [offer, ht, hr, hl, hs, hroom, Bool.not_true, Bool.false_eq_true, if_false]

theorem offer_of_no_room (hroom : queueRoom s (triggerCu l r t) = false) :
    offer s k = { s with trigs := sInsert s.trigs k { t with refused := true } } := by
  simp only [offer, ht, hr, hl, hs, hroom, Bool.not_true, Bool.not_false, Bool.false_eq_true, if_false, if_true]

end

theorem execTriggerDispatch_offers {s : State} {k : Nat} {t : Trigger} (ht : sFind? s.trigs k = some t) (href : t.refused = false)
    (hb : behindOlder s k t = false) : execTriggerDispatch k s = .next (offer s k) := by
  simp only [execTriggerDispatch, ht, href, hb, Bool.or_self, Bool.false_eq_true, if_false]

theorem execTriggerReoffer_offers {s : State} {k : Nat} {t : Trigger} (ht : sFind? s.trigs k = some t) (href : t.refused = true) :
    execTriggerReoffer k s = .next (offer s k) := by
  simp only [execTriggerReoffer, ht, href, if_true]

/-- One change of the counts arrives: it reaches quiescence where both become zero and were not (R396). -/
theorem applyChange_cons {s : State} {n : Nat} {r : Region} {p q : Int} {rest : List (Int × Int)}
    (hc : r.changes = (p, q) :: rest) :
    applyChange s n r =
      let moved := { r with pend := r.pend + p, run := r.run + q, changes := rest }
      forgetRegion (if moved.pend = 0 ∧ moved.run = 0 ∧ ¬(r.pend = 0 ∧ r.run = 0) then quiesce (putRegion s n moved) n moved
        else putRegion s n moved) n := by
  unfold applyChange
  split
  · rename_i h
    rw [hc] at h
    cases h
  · rename_i h
    rw [hc] at h
    cases h
    extract_lets
    show forgetRegion (if (_ : Bool) = true then _ else _) n = _
    congr 1
    simp only [Bool.and_eq_true, Bool.or_eq_true, beq_iff_eq, bne_iff_ne, and_assoc, ← not_and_or, ne_eq]
    rfl

/-- No request of a group is in the table. -/
theorem any_mark_eq_false {s : State} {m : Nat} : (s.reqs.any fun e => e.2.wid / 16 == m / 16) = false ↔ ∀ e ∈ s.reqs,
    e.2.wid / 16 ≠ m / 16 := by
  simp only [List.any_eq_false, beq_iff_eq, ne_eq]

/-- What a unit does once it has found the next set bit of a region's bitmap (R394). -/
theorem execSpillScan_next {s t : State} {u n i pa : Nat} {va : Addr} {r : Region} {sp : SpillRec}
    (hr : sFind? s.regions n = some r)
    (hsp : sFind? r.spills u = some sp) (hn : sp.count ≠ 0) (hu : unitQueue s u < 64)
      (hscan : scanNext s u r sp.scan = some (i, va, pa))
    (ht : (let v := clearSpillBit s r va u
      let left : SpillRec := ⟨sp.count - 1, if sp.count - 1 = 0 then 0 else sp.depth, i + 1⟩
      { v with regions := sAdjust v.regions n fun g => { g with spills := sInsert g.spills u left } }) = t) :
    (∀ k g, pendingTrig t n va = some (k, g) →
      execSpillScan u n s = .next { t with trigs := sInsert t.trigs k { g with spilled := false, depth := sp.depth } })
    ∧ (pendingTrig t n va = none → execSpillScan u n s = .next (
        let g : Trigger :=
          { region := n, granule := va, gpa := pa, depth := sp.depth, index := 0, launch := r.launch, refused := false, queued := false,
            spilled := false, unit := u }
        addChange { t.fresh.2 with trigs := sInsert t.fresh.2.trigs t.fresh.1 g } n 1 0)) := by
  have hgo : (sp.count == 0 || decide (64 ≤ unitQueue s u)) = false := by
    rw [beq_eq_false_iff_ne.mpr hn, decide_eq_false (Nat.not_le.mpr hu)]
    rfl
  subst ht
  refine ⟨fun k g hp => ?_, fun hp => ?_⟩
  · dsimp only at hp
    simp only [execSpillScan, hr, hsp, hgo, hscan, beq_iff_eq, Bool.false_eq_true, if_false, hp]
  · dsimp only at hp
    simp only [execSpillScan, hr, hsp, hgo, hscan, beq_iff_eq, Bool.false_eq_true, if_false, hp]

/-- Settles O40: a trigger goes out as `offer` says, a spilled bit comes back, one change of the counts arrives, and a group is
counted out where nothing is left to send. -/
theorem triggerSteps : Obligations.TriggerSteps := by
  intro k u n t r l sp p q rest i va pa o cu offered sent refused scanning cleared moved
  refine ⟨fun s ⟨⟨ht, hr, hl, hq, hsp, hh, hc⟩, href, hb, hroom⟩ => ?_, fun s ⟨⟨ht, hr, hl, hq, hsp, hh, hc⟩,
    href, hb, hroom⟩ => ?_,
    fun s ⟨ht, hb⟩ => ?_, fun s ⟨⟨ht, hr, hl, hq, hsp, hh, hc⟩, href, hroom⟩ => ?_,
    fun s ⟨⟨ht, hr, hl, hq, hsp, hh, hc⟩, href, hroom⟩ => ?_, fun s ⟨⟨hr, hsp, hn, hu, hscan⟩, hp⟩ => ?_,
    fun s ⟨⟨hr, hsp, hn, hu, hscan⟩, hp⟩ => ?_, fun s ⟨hf, hc, hno⟩ => ?_, fun s ⟨hf, hc, hp, hr, hno⟩ => ?_,
    fun s ⟨ho, hreq, hcom, htr⟩ => ?_, fun s ⟨ho, hreq, hcom⟩ => ?_, fun s ⟨ho, e, he, hw⟩ => ?_⟩
  -- a trigger that goes out: queued, refused, kept back
  · exact (execTriggerDispatch_offers ht href hb).trans
      (congrArg Host.Outcome.next (offer_of_room ht hr hl (sendable_of hr hl hq hsp hh hc) hroom))
  · exact (execTriggerDispatch_offers ht href hb).trans
      (congrArg Host.Outcome.next (offer_of_no_room ht hr hl (sendable_of hr hl hq hsp hh hc) hroom))
  · show execTriggerDispatch k s = _
    simp only [execTriggerDispatch, ht, hb, Bool.or_true, if_true]
  -- one that is offered again
  · exact (execTriggerReoffer_offers ht href).trans
      (congrArg Host.Outcome.next (offer_of_room ht hr hl (sendable_of hr hl hq hsp hh hc) hroom))
  · exact (execTriggerReoffer_offers ht href).trans
      (congrArg Host.Outcome.next (offer_of_no_room ht hr hl (sendable_of hr hl hq hsp hh hc) hroom))
  -- a spilled bit that comes back, of a trigger that is pending still and of none
  · exact (execSpillScan_next hr hsp hn hu hscan rfl).1 k t hp
  · exact (execSpillScan_next hr hsp hn hu hscan rfl).2 hp
  -- the counts change
  · show execPendRunChange s = _
    simp only [execPendRunChange, hf]
    exact congrArg Host.Outcome.next ((applyChange_cons hc).trans (congrArg (forgetRegion · n)
      (if_neg fun h => hno ⟨h.1, h.2.1⟩)))
  · show execPendRunChange s = _
    simp only [execPendRunChange, hf]
    exact congrArg Host.Outcome.next ((applyChange_cons hc).trans (congrArg (forgetRegion · n) (if_pos ⟨hp, hr, hno⟩)))
  -- a group is counted out
  · show execGroupCountOut k s = _
    simp only [execGroupCountOut, ho, (any_mark_eq_false.mpr hreq), hcom, Bool.not_true, Bool.false_eq_true, if_false]
    refine congrArg Host.Outcome.next (if_neg ?_)
    rw [Option.any_eq_true]
    rintro ⟨g, -, hg⟩
    rw [tracing] at hg
    simp only [addChange, htr, List.any_nil, Bool.false_eq_true] at hg
  · show execGroupCountOut k s = _
    simp only [execGroupCountOut, ho, (any_mark_eq_false.mpr hreq), hcom, Bool.not_false, Bool.false_eq_true, if_false, if_true]
  · have hany : (s.reqs.any fun e => e.2.wid / 16 == o.mark / 16) = true := List.any_eq_true.mpr ⟨e, he, beq_iff_eq.mpr hw⟩
    show execGroupCountOut k s = _
    simp only [execGroupCountOut, ho, hany, if_true]

/-! ### launch and enq (R239, R240) -/

section

variable {s t : State} {x : Issue} {d a b c : Operand}

/-- No record of the warp waits in the command processor's queue. -/
theorem find_cpq_none (h : ∀ q ∈ s.cpq, q.reply ≠ some x.w) : (s.cpq.find? fun q => q.reply == some x.w) = none := by
  rw [List.find?_eq_none]
  exact fun q hq => by simpa using h q hq

theorem any_lt_of {p q r u : Prop} [Decidable p] [Decidable q] [Decidable r] [Decidable u] :
    (decide p || decide q || decide r || decide u) = true ↔ p ∨ q ∨ r ∨ u := by
  simp only [Bool.or_eq_true, decide_eq_true_eq, or_assoc]

end

/-- The CU to which enq sends a task: the one that B names, or its own. -/
def enqAt (s : State) (x : Issue) (b : Operand) : Nat × Nat :=
  if src32 s x b = 0xFFFFFFFF then (cuX (cuOf x.gid), cuY (cuOf x.gid)) else (field (src32 s x b) 25 20,
    field (src32 s x b) 19 16)

/-- enq of a group whose launch is there: its task type, its place and the room there decide. -/
theorem exec_enq {h : Hdr} {d a b c : Operand} {s t : State} {x : Issue} {g : Group} {l : Launch}
    (hx : issued (.enq h d a b c) s = some x)
    (ha : anyReq s x.w = false) (hr : releaseReady s x.w .pkg = true) (ht : releaseAt s x.w .pkg = t)
      (hg : t.group? x.gid = some g)
    (hl : sFind? t.launches g.launch = some l) :
    exec (.enq h d a b c) s = .next (passed (.enq h d a b c) x
      (if l.types.length ≤ src32 t x a then withStatus t x d 0x80000002
      else if (enqAt t x b).1 < l.x0 ∨ l.x0 + l.w ≤ (enqAt t x b).1 ∨ (enqAt t x b).2 < l.y0 ∨ l.y0 + l.h ≤ (enqAt t x b).2 then
        withStatus t x d 0x80000003
      else if queueRoom t (cuAt (enqAt t x b).1 (enqAt t x b).2) = false then withStatus t x d 0x80000001
      else withStatus (enqueue { t with launches := sAdjust t.launches g.launch fun l => { l with counter := l.counter + 1 } }
        (cuAt (enqAt t x b).1 (enqAt t x b).2)
        { launch := g.launch, tt := src32 t x a, args := [loWord (src64 t x c), hiWord (src64 t x c)], index := l.counter,
          kind := .enq, member := false }) x d 0)) := by
  have hx1 : (if src32 t x b = 0xFFFFFFFF then cuX (cuOf x.gid) else field (src32 t x b) 25 20) = (enqAt t x b).1 := by
    rw [enqAt, apply_ite Prod.fst]
  have hx2 : (if src32 t x b = 0xFFFFFFFF then cuY (cuOf x.gid) else field (src32 t x b) 19 16) = (enqAt t x b).2 := by
    rw [enqAt, apply_ite Prod.snd]
  refine exec_of_ok rfl hx ?_
  simp only [ha, hr, ht, hg, hl, sc32_eq, sc64v_eq, status_eq, Option.bind_some, Option.map_some, Bool.not_true,
    Bool.false_eq_true, if_false,
    beq_iff_eq, hx1, hx2, any_lt_of, Bool.not_eq_true']
  split
  · rfl
  · split
    · rfl
    · split <;> rfl

/-! ### The life of a group (R294, R356) -/

theorem foldl_saved {α : Type} {f : State → α → State} (l : List α) (h : ∀ s a, (f s a).saved = s.saved) (s : State) :
    (l.foldl f s).saved = s.saved :=
  foldl_keeps (P := fun t : State => t.saved = s.saved) l (fun t ht a => (h t a).trans ht) rfl

theorem eventOf_saved (s : State) (g : GroupId) : (eventOf s g).saved = s.saved := by
  unfold eventOf
  refine foldl_saved _ ?_ s
  exact fun _ _ => rfl

theorem barAdvance_saved (s : State) (k : Nat) : (barAdvance s k).saved = s.saved := by
  unfold barAdvance
  extract_lets b t
  split
  · refine (foldl_saved _ (fun u m => ?_) _).trans rfl
    split
    · exact eventOf_saved ..
    · rfl
  · rfl

theorem barLeave_saved (s : State) (n : GName) : (barLeave s n).saved = s.saved := by
  unfold barLeave
  refine foldl_saved _ ?_ s
  exact fun t k => barAdvance_saved _ k

theorem freeGroup_saved (s : State) (g : GroupId) (gr : Group) : (freeGroup s g gr).saved = s.saved := by
  unfold freeGroup
  split
  · rfl
  · extract_lets others waits
    split <;> rfl

/-- A retired group of no watched region is gone; where nothing is saved, nothing is restored behind it. -/
theorem execGroupRetire_plain {s : State} {n : Nat} {g : Group} (hg : s.group? n = some g) (hr : retirable s n g = true)
    (ht : g.trig = none) (hs : s.saved = []) :
    execGroupRetire n s = .next (freeGroup (orphan (dropWarps (barLeave s g.gname) n) n g.launch) n g) := by
  have hret : retireGroup s n = freeGroup (orphan (dropWarps (barLeave s g.gname) n) n g.launch) n g := by
    simp only [retireGroup, hg, hr, ht, Bool.not_true, Bool.false_eq_true, if_false]
  have hnone : (freeGroup (orphan (dropWarps (barLeave s g.gname) n) n g.launch) n g).saved = [] := by
    rw [freeGroup_saved]
    exact (barLeave_saved s g.gname).trans hs
  rw [execGroupRetire, hret, restoreSaved, hnone]
  rfl

/-- Settles O41: the instructions by what stands in the command processor's queue and in the task queues, the launch's life by the
functions that its events call. -/
theorem launchSteps : Obligations.LaunchSteps := by
  intro p h d a b c e rest bs v n l g t u cu es w tag at_ outside mine reading
  refine ⟨completes_of_body (fun _ => rfl) fun s x _ ⟨hf, hv⟩ => ?_, completes_of_body (fun _ => rfl) fun s x _
    ⟨⟨hc, ha, hal, hr, hrd⟩, hlt⟩ => ?_,
    fun s x hx ⟨hc, ha, hal, hr, hrd⟩ hle => exec_of_hold rfl hx ?_,
    fun s x hx ⟨⟨ha, hr, ht, hg, hl⟩, htt, hin, hroom⟩ => ?_, fun s x hx ⟨⟨ha, hr, ht, hg, hl⟩, htt⟩ => ?_,
    fun s x hx ⟨⟨ha, hr, ht, hg, hl⟩, htt, hout⟩ => ?_, fun s x hx ⟨⟨ha, hr, ht, hg, hl⟩, htt, hin, hroom⟩ => ?_,
    fun s ⟨hq, hres, hrep, hacc⟩ => ?_, fun s ⟨hq, hres, hrep, hacc⟩ => ?_, fun hbad => ?_, fun hok => ?_,
    fun s ⟨hl, hst, hws⟩ => ?_, fun s hst => ?_, fun s hex => ?_, fun s hex => ?_,
    fun s ⟨hg, hr, ht, hs⟩ => execGroupRetire_plain hg hr ht hs, fun s ⟨hl, ho⟩ => ?_, fun s ⟨hl, ho⟩ => ?_⟩
  -- launch: its answer, a full queue, its record in the queue
  · simp only [hf, hv]
    rfl
  · simp only [find_cpq_none hc, ha, sc64v_eq, hal, hr, hrd, hlt, bne_self_eq_false, Bool.not_true,
      Bool.false_eq_true, if_false, if_true]
    rfl
  · simp only [find_cpq_none hc, ha, sc64v_eq, hal, hr, hrd, Nat.not_lt.mpr hle, bne_self_eq_false, Bool.not_true,
      Bool.false_eq_true,
      if_false]
  -- enq: queued, no such type, a place outside, no room
  · refine (exec_enq hx ha hr ht hg hl).trans (congrArg (fun u => Host.Outcome.next (passed (.enq h d a b c) x u)) ?_)
    exact (if_neg (Nat.not_le.mpr htt)).trans ((if_neg hin).trans (if_neg (ne_false_of_eq_true hroom)))
  · exact (exec_enq hx ha hr ht hg hl).trans (congrArg (fun u => Host.Outcome.next (passed (.enq h d a b c) x u)) (if_pos htt))
  · refine (exec_enq hx ha hr ht hg hl).trans (congrArg (fun u => Host.Outcome.next (passed (.enq h d a b c) x u)) ?_)
    exact (if_neg (Nat.not_le.mpr htt)).trans (if_pos hout)
  · refine (exec_enq hx ha hr ht hg hl).trans (congrArg (fun u => Host.Outcome.next (passed (.enq h d a b c) x u)) ?_)
    exact (if_neg (Nat.not_le.mpr htt)).trans ((if_neg hin).trans (if_pos hroom))
  -- the command processor handles the oldest record, and answers a warp
  · show execLaunchRecord s = _
    simp only [execLaunchRecord, hq, handleSubmit, hres, hrep, hacc, Option.isSome_none, Option.isSome_some,
      Bool.false_eq_true, if_false,
      if_true]
  · show execLaunchRecord s = _
    simp only [execLaunchRecord, hq, handleSubmit, hres, hrep, hacc, Option.isSome_none, Bool.false_eq_true, if_false]
  · rw [acceptLaunch, hbad]
    rfl
  · rw [acceptLaunch, hok]
    show nextLaunch u = _
    simp only [nextLaunch, beq_iff_eq]
  -- staging, starts of groups, balancing
  · show execStagingComplete n [] s = _
    simp only [execStagingComplete, hl, hst, promoteOpen, promoteFar, hws, List.any_nil, Bool.or_self,
      Bool.false_eq_true, if_false,
      List.foldl_nil]
  · show execGroupStart cu s = _
    simp only [execGroupStart, hst, startEntries]
  · show execBalanceExchange s = _
    simp only [execBalanceExchange, hex, beq_self_eq_true, if_true]
  · show execBalanceExchange s = _
    simp only [execBalanceExchange, beq_eq_false_iff_ne.mpr hex, Bool.false_eq_true, if_false]
  -- completion
  · show execLaunchCompletion n s = _
    simp only [execLaunchCompletion, hl, ho, if_true]
  · show execLaunchCompletion n s = _
    simp only [execLaunchCompletion, hl, ho, Bool.false_eq_true, if_false]

/-! ### ctxsave (R247) -/

theorem no_halted_warp {s : State} {g : GroupId} (hfree : ∀ w ∈ s.warpsOf g, ∀ y, s.warp? w = some y → y.halt = none) :
    ((s.warpsOf g).any fun w => ((s.warp? w).map fun y => y.halt.isSome).getD false) = false := by
  rw [List.any_eq_false]
  intro w hw
  cases hy : s.warp? w with
  | none => exact Bool.false_ne_true
  | some y =>
    rw [Option.map_some, hfree w hw y hy]
    exact Bool.false_ne_true

section

variable {p : Pr} {d a b : Operand} {s : State} {x : Issue} {g : GroupId} {gr : Group}
  (hx : issued (.ctxsave p d a b) s = some x) (hgo : heldBack s x.w true = false)
  (hg : handleGroup s (src32 s x b) s.sup.ctxsel = some (g, gr)) (hal : (src64 s x a).toNat % 128 = 0)
include hx hgo hg hal

/-- A group with a halted warp is not saved. -/
theorem exec_ctxsave_halted (hh : ∃ w ∈ s.warpsOf g, ∃ y, s.warp? w = some y ∧ y.halt ≠ none) :
    exec (.ctxsave p d a b) s = .next (passed (.ctxsave p d a b) x
      (withStatus ((clusterOf s g).foldl (fun s h => askStop s h false) s) x d 0x80000001)) := by
  have hany : ((s.warpsOf g).any fun w => ((s.warp? w).map fun y => y.halt.isSome).getD false) = true := by
    obtain ⟨w, hw, y, hy, hn⟩ := hh
    refine List.any_eq_true.mpr ⟨w, hw, ?_⟩
    rw [hy]
    exact Option.isSome_iff_ne_none.mpr hn
  refine exec_of_ok rfl hx ?_
  simp only [hgo, sc32_eq, sc64v_eq, hg, hal, hany, status_eq, bne_self_eq_false, Bool.false_eq_true, if_false, if_true]
  rfl

variable (hfree : ∀ w ∈ s.warpsOf g, ∀ y, s.warp? w = some y → y.halt = none) {t : State}
  (ht : (clusterOf s g).foldl (fun s h => askStop s h true) s = t)
include hfree ht

/-- The warp waits while some member of the cluster does not stand. -/
theorem exec_ctxsave_waits (hst : ∃ h ∈ clusterOf s g, stands t h false = false) :
    exec (.ctxsave p d a b) s = .next (holdAt t x.w .other x.set) := by
  have hall : ((clusterOf s g).all fun h => stands t h false) = false := by
    rw [List.all_eq_false]
    obtain ⟨h, hm, hf⟩ := hst
    exact ⟨h, hm, by rw [hf]; exact Bool.false_ne_true⟩
  refine exec_of_hold rfl hx ?_
  simp only [hgo, sc32_eq, sc64v_eq, hg, hal, no_halted_warp hfree, ht, hall, bne_self_eq_false, Bool.not_false,
    Bool.false_eq_true, if_false, if_true]

/-- Once every member stands, the group is written out and is gone. -/
theorem exec_ctxsave_saves {u v : State} {ps : List Nat} (hst : ∀ h ∈ clusterOf s g, stands t h false = true)
    (hu : (clusterOf s g).foldl stopGroup t = u)
    (hv : virtPas u (cuOf x.gid) (tagOf u x.w) (isSup x.w) (src64 s x a)
      (saveBytes u (snapshot u g ((u.group? g).getD gr))).length = (.ok ps, v)) :
    exec (.ctxsave p d a b) s = .next (passed (.ctxsave p d a b) x
      (withStatus (saveDone (writePas v ps (saveBytes u (snapshot u g ((u.group? g).getD gr)))) g gr) x d 0)) := by
  have hall : ((clusterOf s g).all fun h => stands t h false) = true := List.all_eq_true.mpr hst
  refine exec_of_ok rfl hx ?_
  simp only [hgo, sc32_eq, sc64v_eq, hg, hal, no_halted_warp hfree, ht, hall, hu, hv, status_eq, bne_self_eq_false,
    Bool.not_true, Bool.false_eq_true, if_false]
  rfl

end

/-! ### ctxload (R248) -/

section

variable {p : Pr} {d a b : Operand} {s u : State} {x : Issue} {bs : List Byte} {r : Record}
  (hx : issued (.ctxload p d a b) s = some x) (hgo : heldBack s x.w true = false) (hal : (src64 s x a).toNat % 128 = 0)
  (hs : savedBytes s (.warp x.w) (tagOf s x.w) (isSup x.w) (src64 s x a) = (.ok (some bs), u)) (hr : readSaved bs = some r)
include hx hgo hal hs hr

theorem exec_ctxload_unfit (hf : recordFits u r = false) :
    exec (.ctxload p d a b) s = .next (passed (.ctxload p d a b) x (withStatus u x d 0x80000003)) := by
  refine exec_of_ok rfl hx ?_
  simp only [hgo, sc64v_eq, hal, hs, hr, Option.filter, hf, status_eq, bne_self_eq_false, Bool.false_eq_true, if_false]
  rfl

/-- A place outside the rectangle of CUs. -/
theorem exec_ctxload_nowhere (hf : recordFits u r = true) (hc : 48 ≤ field (src32 s x b) 25 20) :
    exec (.ctxload p d a b) s = .next (passed (.ctxload p d a b) x (withStatus u x d 0x80000004)) := by
  have hnone : handleCu (src32 s x b) = none := if_neg (Nat.not_lt.mpr hc)
  refine exec_of_ok rfl hx ?_
  simp only [hgo, sc32_eq, sc64v_eq, hal, hs, hr, Option.filter, hf, hnone, Option.bind_none, status_eq, bne_self_eq_false,
    Bool.false_eq_true, if_false, if_true]
  rfl

variable {cu : CuId} {l : Launch} (hf : recordFits u r = true) (hc : handleCu (src32 s x b) = some cu)
  (hl : sFind? u.launches r.saved.group.launch = some l)
include hf hc hl

theorem exec_ctxload_noRoom (hroom : savedRoom u r.saved cu l.spl = none) :
    exec (.ctxload p d a b) s = .next (passed (.ctxload p d a b) x (withStatus u x d 0x80000004)) := by
  refine exec_of_ok rfl hx ?_
  simp only [hgo, sc32_eq, sc64v_eq, hal, hs, hr, Option.filter, hf, hc, hl, hroom, Option.bind_some,
    Option.map_some, Option.getD_some,
    Option.map_none, status_eq, bne_self_eq_false, Bool.false_eq_true, if_false, if_true]
  rfl

/-- The group is placed where its slot is free and its cluster suits the place. -/
theorem exec_ctxload_room {room : Room} (hroom : savedRoom u r.saved cu l.spl = some room) :
    exec (.ctxload p d a b) s = .next (passed (.ctxload p d a b) x
      (if u.group? (32 * cu + field (src32 s x b) 15 11) ≠ none ∨ suits u r cu = false then withStatus u x d 0x80000004
      else
        let drop : Launch → Launch := fun l => { l with savedOut := l.savedOut.filter fun o => o.1 != r.saved.group.index }
        withStatus (placeSaved { u with launches := sAdjust u.launches r.saved.group.launch drop } r.saved cu l.spl
          { room with slot := field (src32 s x b) 15 11 }) x d 0)) := by
  refine exec_of_ok rfl hx ?_
  simp only [hgo, sc32_eq, sc64v_eq, hal, hs, hr, Option.filter, hf, hc, hl, hroom, Option.bind_some,
    Option.map_some, Option.getD_some,
    status_eq, bne_self_eq_false, Bool.false_eq_true, if_false, if_true, Bool.or_eq_true, Option.isSome_iff_ne_none,
      Bool.not_eq_true']
  split <;> rfl

end

/-! ### Pre-emption, turns and flushes (R306, R360, R363) -/

/-- A cluster that was asked to stop for a switch, and stands, is saved. -/
theorem execPreemption_saves {s : State} {g : GroupId} {gr : Group} {q : Tag} (hg : s.group? g = some gr)
    (hsw : s.sup.switching = some (gr.tag, q))
    (hall : ∀ h ∈ clusterOf s g, stands s h false = true ∧ ∀ w ∈ s.warpsOf h, ∀ y, s.warp? w = some y → y.preempt = true) :
    execPreemption g s = .next (saveCluster s (clusterOf s g)) := by
  have hasked : ((clusterOf s g).all fun h => (s.warpsOf h).all fun w => ((s.warp? w).map Warp.preempt).getD true) = true := by
    rw [List.all_eq_true]
    intro h hh
    rw [List.all_eq_true]
    intro w hw
    cases hy : s.warp? w with
    | none => rfl
    | some y => exact (hall h hh).2 w hw y hy
  have hstands : ((clusterOf s g).all fun h => stands s h false) = true := List.all_eq_true.mpr fun h hh => (hall h hh).1
  simp only [execPreemption, hg, hasked, hstands, hsw, Option.any_some, beq_self_eq_true, Bool.not_true, Bool.or_self,
    Bool.false_eq_true,
    if_false, if_true]

/-- Settles O42: the instructions by the state that they find, the moves of contexts by the conditions of each event. -/
theorem contextSteps : Obligations.ContextSteps := by
  intro p d a b g gr u v ps bs r room tag other cu asked stopped bytes named free slot launch good placed
  refine ⟨waits_of_body (fun _ => rfl) fun s x _ hb => ?_, waits_of_body (fun _ => rfl) fun s x _ hb => ?_,
    completes_of_body (fun _ => rfl) fun s x _ ⟨hgo, hg⟩ => ?_, fun s x hx ⟨⟨hgo, hg, hal⟩, hh⟩ =>
      exec_ctxsave_halted hx hgo hg hal hh,
    fun s x hx ⟨⟨hgo, hg, hal⟩, hfree, hst, hv⟩ => exec_ctxsave_saves hx hgo hg hal hfree rfl hst rfl hv,
    fun s x hx ⟨hgo, hg, hal⟩ hfree hst => exec_ctxsave_waits hx hgo hg hal hfree rfl hst,
    fun l s x hx ⟨⟨⟨hgo, hal, hs, hr⟩, hf, hc⟩, hl, hroom, hslot, hsuits⟩ => ?_,
    fun l s x hx ⟨⟨⟨hgo, hal, hs, hr⟩, hf, hc⟩, hl, hno⟩ => ?_,
    fun s x hx ⟨⟨hgo, hal, hs, hr⟩, hf, hc⟩ => exec_ctxload_nowhere hx hgo hal hs hr hf hc,
    fun s x hx ⟨⟨hgo, hal, hs, hr⟩, hf⟩ => exec_ctxload_unfit hx hgo hal hs hr hf,
    fun s ⟨hg, ⟨q, hsw⟩, hall⟩ => execPreemption_saves hg hsw hall, fun s ⟨hd, hne⟩ => ?_,
    fun s ⟨hd, hnil⟩ => ?_, fun s hno => ?_⟩
  -- a warp whose accesses are held back waits; a group that is not there
  · simp only [hb, if_true]
  · simp only [hb, if_true]
  · have hback : heldBack s x.w true = false := hgo
    simp only [hback, sc32_eq, hg, Bool.false_eq_true, if_false, status_eq]
  -- ctxload with a place in the rectangle: with room, and without
  · refine (exec_ctxload_room hx hgo hal hs hr hf hc hl hroom).trans
      (congrArg (fun u => Host.Outcome.next (passed (.ctxload p d a b) x u)) (if_neg ?_))
    rintro (h | h)
    · exact h hslot
    · rw [hsuits] at h
      cases h
  · by_cases hroom : savedRoom u r.saved cu l.spl = none
    · exact exec_ctxload_noRoom hx hgo hal hs hr hf hc hl hroom
    · obtain ⟨room', hroom'⟩ := Option.ne_none_iff_exists'.mp hroom
      exact (exec_ctxload_room hx hgo hal hs hr hf hc hl hroom').trans
        (congrArg (fun u => Host.Outcome.next (passed (.ctxload p d a b) x u)) (if_pos (hno.resolve_left hroom)))
  -- groups that are asked to stop, and the next context's turn
  · show execContextSwitch tag other s = _
    cases hgs : groupsOf s tag with
    | nil => exact absurd hgs hne
    | cons g gs => simp only [execContextSwitch, hd, hgs, Bool.not_true, Bool.false_eq_true, if_false]
  · show execContextSwitch tag other s = _
    simp only [execContextSwitch, hd, hnil, Bool.not_true, Bool.false_eq_true, if_false]
  -- a flush that no group waits for
  · have hnil : ((movedFlush (flushTag s cu tag) cu tag).groups.filter fun e => e.2.tag == tag && e.2.home == cu) = [] := by
      rw [List.filter_eq_nil_iff]
      intro e he
      simpa using hno e he
    show execFlushByTag cu tag s = _
    simp only [execFlushByTag, hnil, List.foldl_nil]

end Sys2Proof.Machine
end

section
/-! SUPPORT. Translations, engines and port groups. -/

namespace Sys2Proof.Machine

open Sys2Proof Claims

/-! ### The copy-on-write break of a warp (R348, R349) -/

/-- What the break of a page leaves of a state and the warp that waits for it. -/
def afterBreak (s : State) (w : WarpId) (c : Cow) (p : CowPage) : BreakRes → State
  | .wait => s
  | .done t => t.modWarp w fun y => { y with cow := some (c.ended p true) }
  | .noFrame => s.modWarp w fun y => { y with cow := some (c.ended p false) }

section

variable {w : WarpId} {x : Warp} {c : Cow} {s : State} (hx : s.warp? w = some x) (hc : x.cow = some c)
include hx hc

/-- The break of the first page that the warp still waits for decides the step. -/
theorem exec_copyOnWriteBreak {p : CowPage} {o : BreakRes} (hp : (c.pages.find? fun p => p.ends.isNone) = some p)
    (ho : breakPage s x.tag p.va none (some p.pte) = o) :
    exec (.copyOnWriteBreak w) s = .next (afterBreak s w c p o) := by
  have hb : (x.cow.bind fun c => (c.pages.find? fun p => p.ends.isNone).map fun p => (c, p)) = some (c, p) := by
    rw [hc, Option.bind_some, hp, Option.map_some]
  show execCopyOnWriteBreak w s = _
  unfold execCopyOnWriteBreak
  simp only [hx, hb, ho]
  cases o <;> rfl

/-- The warp's lanes execute their instruction again where no page failed them, or some page was broken. -/
theorem exec_cowReplay_again (hall : (c.pages.any fun p => p.ends.isNone) = false) (hst : c.stuck = false) :
    exec (.cowReplay w) s = .next (s.setWarp w { x with cow := none, hold := .none, heldSet := 0 }) := by
  show execCowReplay w s = _
  unfold execCowReplay
  simp only [hx, hc]
  rw [hall, hst]
  rfl

/-- They trap with cause 0x12 where no page could be broken, and no trap of other lanes stands in the way. -/
theorem exec_cowReplay_traps (hall : (c.pages.any fun p => p.ends.isNone) = false) (hst : c.stuck = true) (hh : x.halt = none) :
    exec (.cowReplay w) s = .next (takeTrap (s.setWarp w { x with cow := none, hold := .none, heldSet := 0 }) w
      { cause := 0x12, addr := (c.pages.head?.map CowPage.va).getD 0, code := 0, lanes := c.lanes, async := false,
        inrep := x.rep.act, brk := false, defl := none, data := [], addr0 := c.pc, next := some c.next, queued := false }) := by
  have hhalt : x.halt.isSome = false := by rw [hh]; rfl
  show execCowReplay w s = _
  unfold execCowReplay
  simp only [hx, hc]
  rw [hall, hst, hhalt]
  rfl

end

theorem Cow.no_page_waits {c : Cow} (h : ∀ p ∈ c.pages, p.ends ≠ none) : (c.pages.any fun p => p.ends.isNone) = false :=
  List.any_eq_false.mpr fun p hp => by rw [Option.isNone_iff_eq_none]; exact h p hp

theorem Cow.not_stuck {c : Cow} (h : c.pages = [] ∨ ∃ p ∈ c.pages, p.ends = some true) : c.stuck = false := by
  unfold Cow.stuck
  obtain h | ⟨p, hp, he⟩ := h
  · rw [h]
    rfl
  · have hf : (c.pages.all fun p => p.ends == some false) = false :=
      List.all_eq_false.mpr ⟨p, hp, by rw [he]; decide⟩
    rw [hf, Bool.and_false]

theorem Cow.stuck_of_head {c : Cow} {p : CowPage} (hh : c.pages.head? = some p) (h : ∀ p ∈ c.pages, p.ends = some false) :
    c.stuck = true := by
  have hne : c.pages.isEmpty = false := by
    cases hp : c.pages with
    | nil => rw [hp] at hh; exact nomatch hh
    | cons _ _ => rfl
  have ha : (c.pages.all fun p => p.ends == some false) = true :=
    List.all_eq_true.mpr fun p hp => by rw [h p hp]; rfl
  rw [Cow.stuck, hne, ha]
  rfl

/-! ### Migrations (R344, R355) -/

section

variable {k arr : Nat} {m : Mig} {h : WarpId} {s : State} (hm : sFind? s.migs k = some m) (ha : m.arr = some (h, arr))
  (hf : arrHeld s (gidOf h) arr = false)

include ha in
/-- A move that is dropped leaves its page unmarked, and its bytes are credited with ERR. -/
theorem dropMig_of_arr (s : State) : dropMig s m = credit (markMov s m false) (gidOf h) arr m.size true := by
  unfold dropMig
  simp only [ha]

include ha hf in
theorem Mig.not_waits : m.waits s = false := by
  unfold Mig.waits
  simp only [ha]
  exact hf

include hm ha hf

theorem exec_migrationError : exec (.migrationError k) s = .next (credit
    (markMov (violate { s with migs := sErase s.migs k } 6 0x15 m.tag m.va.toNat noSrc) m false) (gidOf h) arr m.size true) := by
  show execMigrationError k s = _
  unfold execMigrationError
  simp only [hm]
  rw [Mig.not_waits ha hf]
  exact congrArg Host.Outcome.next (dropMig_of_arr ha _)

variable {bs : List Byte} {e : BitVec 64} {addr lv : Nat}
  (hw : walk { s with migs := sErase s.migs k } m.tag m.va = .leaf e addr lv)
include hw

theorem exec_migrationComplete (he : e.toNat = setField m.oldPte.toNat 53 52 3) :
    exec (.migrationComplete k bs) s = .next (credit
      (settleFrames (installMig (moveBytes { s with migs := sErase s.migs k } m bs) m addr) m) (gidOf h) arr m.size false) := by
  have hb : (e.toNat != setField m.oldPte.toNat 53 52 3) = false := bne_eq_false_iff_eq.mpr he
  show execMigrationComplete k bs s = _
  unfold execMigrationComplete
  simp only [hm]
  rw [Mig.not_waits ha hf]
  simp only [hw, hb, ha, Bool.false_eq_true, if_false]

theorem exec_migrationComplete_abandoned (he : e.toNat ≠ setField m.oldPte.toNat 53 52 3) :
    exec (.migrationComplete k bs) s = .next
      (credit (markMov { s with migs := sErase s.migs k } m false) (gidOf h) arr m.size true) := by
  have hb : (e.toNat != setField m.oldPte.toNat 53 52 3) = true := bne_iff_ne.mpr he
  show execMigrationComplete k bs s = _
  unfold execMigrationComplete
  simp only [hm]
  rw [Mig.not_waits ha hf]
  simp only [hw, hb, Bool.false_eq_true, if_false, if_true]
  exact congrArg Host.Outcome.next (dropMig_of_arr ha _)

end

/-! ### Publishes and removals of translations (R353) -/

/-- None of the requests stands at a stage that `p` names. -/
theorem no_request_at {s : State} {ks : List Nat} {p : Req → Bool} (h : ∀ i ∈ ks, ∀ f, sFind? s.reqs i = some f → p f = false) :
    (ks.any fun i => match sFind? s.reqs i with | some f => p f | none => false) = false := by
  rw [List.any_eq_false]
  intro i hi
  cases hf : sFind? s.reqs i with
  | none => exact Bool.false_ne_true
  | some f => exact ne_true_of_eq_false (h i hi f hf)

theorem exec_publishFlip {s : State} {q : Publish} {rest : List Publish} (hp : s.pubs = q :: rest)
    (hr : ∀ i ∈ q.reqs, ∀ f, sFind? s.reqs i = some f → f.stage ≠ .home) :
    exec .publishFlip s = .next { flipSet s q.tag q.set with pubs := rest } := by
  show execPublishFlip s = _
  unfold execPublishFlip
  simp only [hp]
  exact if_neg (ne_true_of_eq_false (no_request_at (p := fun r => r.stage == .home) fun i hi f hf =>
    beq_false_of_ne (hr i hi f hf)))

section

variable {k : Nat} {r : Tlbi} {s : State} (hr : sFind? s.tlbis k = some r)
include hr

/-- A removal takes effect, and notes the accesses that used what it removed. -/
theorem exec_tlbiComplete_drops (hd : r.done = false) :
    exec (.tlbiComplete k) s = .next
      (let u := tlbDrop s r.kind.names
       { u with tlbis := sInsert u.tlbis k { r with done := true, reqs := tlbiReqs u r.kind } }) := by
  have hn : (!r.done) = true := by rw [hd]; rfl
  show execTlbiComplete k s = _
  unfold execTlbiComplete
  simp only [hr]
  exact if_pos hn

/-- It ends once none of them is on its way. -/
theorem exec_tlbiComplete_ends (hd : r.done = true)
    (hq : ∀ i ∈ r.reqs, ∀ f, sFind? s.reqs i = some f → f.stage ≠ .home ∧ f.stage ≠ .ext) :
    exec (.tlbiComplete k) s = .next { s with tlbis := sErase s.tlbis k } := by
  have hn : ¬ (!r.done) = true := by rw [hd]; exact Bool.false_ne_true
  have hq := no_request_at (p := fun f => f.stage == .home || f.stage == .ext) fun i hi f hf => by
    obtain ⟨hh, he⟩ := hq i hi f hf
    rw [beq_false_of_ne hh, beq_false_of_ne he]
    rfl
  show execTlbiComplete k s = _
  unfold execTlbiComplete
  simp only [hr]
  exact (if_neg hn).trans (if_neg (ne_true_of_eq_false hq))

end

/-- Settles O43: every event follows the outcome of the break, the record of the move, and the requests that the event
waits for. -/
theorem translationSteps : Obligations.TranslationSteps := by
  intro w x c p t k m bs e addr lv arr h q rest r gone waiting next ended broken
  refine ⟨fun s ⟨⟨⟨hx, hc⟩, hp⟩, ho⟩ => exec_copyOnWriteBreak hx hc hp ho, fun s ⟨⟨⟨hx, hc⟩, hp⟩, ho⟩ =>
    exec_copyOnWriteBreak hx hc hp ho,
    fun s ⟨⟨⟨hx, hc⟩, hp⟩, ho⟩ => exec_copyOnWriteBreak hx hc hp ho, fun s ⟨⟨⟨hx, hc⟩, hall⟩, hst⟩ => ?_,
    fun s ⟨⟨hx, hc⟩, hhd, hno, hh⟩ => ?_, fun s ⟨hm, hw, he, ha, hf⟩ => exec_migrationComplete hm ha hf hw he,
    fun s ⟨hm, ha, hf⟩ => exec_migrationError hm ha hf, fun s ⟨hm, hw, he, ha, hf⟩ =>
      exec_migrationComplete_abandoned hm ha hf hw he,
    fun s ⟨hp, hr⟩ => exec_publishFlip hp hr, fun s ⟨hr, hd⟩ => exec_tlbiComplete_drops hr hd,
    fun s ⟨hr, hd, hq⟩ => exec_tlbiComplete_ends hr hd hq⟩
  · exact exec_cowReplay_again hx hc (Cow.no_page_waits hall) (Cow.not_stuck hst)
  · have hall : ∀ p ∈ c.pages, p.ends ≠ none := fun p hp => by rw [hno p hp]; exact Option.some_ne_none false
    refine (exec_cowReplay_traps hx hc (Cow.no_page_waits hall) (Cow.stuck_of_head hhd hno) hh).trans ?_
    rw [hhd]
    rfl

/-! ### One step of an engine operation (R213 to R216, R222) -/

/-- A failed operation whose arrival words are free is over: its word is marked, and what it has not moved is credited
with ERR. -/
theorem endErr_of_free {s : State} {k : Nat} {e : EngOp} (hf : ∀ g ∈ e.arrs, arrHeld s g e.arr = false) :
    endErr s k e = e.arrs.foldl (fun u g => credit u g e.arr (e.left g) true)
      (noteErr { s with engs := sErase s.engs k } e.gid e.arr) := by
  have hno : (e.arrs.any fun g => arrHeld s g e.arr) = false :=
    List.any_eq_false.mpr fun g hg => ne_true_of_eq_false (hf g hg)
  exact if_neg (ne_true_of_eq_false hno)

section

variable {k : Nat} {e : EngOp} {s : State} (he : sFind? s.engs k = some e)
include he

theorem exec_engineElementDelivery_ends {y : ExtReply} (hst : e.stopping = true ∨ e.ended = true) :
    exec (.engineElementDelivery k y) s = .next (endErr s k e) := by
  have h : (e.stopping || e.ended) = true := (Bool.or_eq_true ..).mpr hst
  show execEngineElementDelivery k y s = _
  unfold execEngineElementDelivery
  simp only [he]
  exact if_pos h

variable (hs : e.stopping = false) (hd : e.ended = false) (hr : ∀ r ∈ e.after, sFind? s.reqs r = none)
include hs hd hr

/-- An operation under way, with its earlier requests complete, makes a step of a gather or of a copy. -/
theorem exec_engineElementDelivery {y : ExtReply} : exec (.engineElementDelivery k y) s =
    .next (if e.kind = .csrg then gatherStep s k e y else copyStep s k e y) := by
  have hready : engReady s e = true := List.all_eq_true.mpr fun r hm => by rw [hr r hm]; rfl
  show execEngineElementDelivery k y s = _
  unfold execEngineElementDelivery
  simp only [he]
  rw [hs, hd, hready]
  simp only [Bool.or_self, Bool.not_true, Bool.false_eq_true, if_false, beq_iff_eq]
  split <;> rfl

end

section

variable {k : Nat} {e : EngOp} {q : Elem} {p : EPlace} {y : ExtReply} {s t : State}
  (hrf : e.readFirst = false) (hel : e.elems = [q]) (hv : q.val = none) (hdst : dstHeld s q q.size = false)
include hrf hel hv hdst

/-- A copy that may read as it writes reads its element, and then delivers it, waits or fails. -/
theorem copyStep_data {bs : List Byte} {po : Bool} (hread : engRead s e q.src q.size y = (.data bs po, t)) :
    copyStep s k e y = deliverElem t k e { q with poison := po } [] bs y q.dst := by
  unfold copyStep
  simp only [hrf, hel, hv, hdst, hread, Bool.false_and, Bool.false_eq_true, if_false]

theorem copyStep_absent (hread : engRead s e q.src q.size y = (.absent, t)) : copyStep s k e y = t := by
  unfold copyStep
  simp only [hrf, hel, hv, hdst, hread, Bool.false_and, Bool.false_eq_true, if_false]

theorem copyStep_fail {n a : Nat} (hread : engRead s e q.src q.size y = (.fail n a, t)) : copyStep s k e y =
    failEng t k e n a := by
  unfold copyStep
  simp only [hrf, hel, hv, hdst, hread, Bool.false_and, Bool.false_eq_true, if_false]

end

/-- The last element, written to its only destination, is credited and ends its operation. -/
theorem deliverElem_last {t u : State} {k : Nat} {e : EngOp} {q : Elem} {bs d : List Byte} {y : ExtReply} {p : EPlace}
    (ha : arrHeld t (creditGroup e p) e.arr = false) (hw : engWrite t e p bs q.poison y = (.data d false, u)) :
    deliverElem t k e q [] bs y [p] = endEng (credit u (creditGroup e p) e.arr q.size false) k
      { e with overran := e.overran || overruns u (creditGroup e p) e.arr q.size } := by
  unfold deliverElem
  simp only [ha, hw, Bool.false_eq_true, if_false]
  unfold deliverElem
  rfl

/-! ### Staging of pages (R213) -/

/-- A page is staged for an operation, which fails with cause 0x15 where its flash read fails. -/
def stagedFor (s : State) (k : Nat) (e : EngOp) (va : Addr) (bs : List Byte) : State :=
  let r := stagePage s e.tag va (dieOf e.cu) (some bs)
  if r.2 then failEng r.1 k e 0x15 va.toNat else r.1

section

variable {k : Nat} {e : EngOp} {bs : List Byte} {va : Addr} {s : State} (he : sFind? s.engs k = some e)
include he

theorem exec_enginePageStage_copy (hk : e.kind ≠ .csrg)
    (hva : (engNext e).find? (fun v => (stageable s e.tag v).isSome) = some va) :
    exec (.enginePageStage k bs) s = .next (stagedFor s k e va bs) := by
  have hb : (e.kind == EngKind.csrg) = false := beq_false_of_ne hk
  show execEnginePageStage k bs s = _
  unfold execEnginePageStage
  simp only [he, hb, hva, Bool.false_eq_true, if_false]
  rfl

theorem exec_enginePageStage_gather (hk : e.kind = .csrg)
    (hva : (csrgAbsent s e).find? (fun v => (stageable s e.tag v).isSome) = some va) :
    exec (.enginePageStage k bs) s = .next (stagedFor s k e va bs) := by
  have hb : (e.kind == EngKind.csrg) = true := beq_iff_eq.mpr hk
  show execEnginePageStage k bs s = _
  unfold execEnginePageStage
  simp only [he, hb, hva, if_true]
  rfl

end

/-- Settles O44: a step ends a cancelled operation, moves a copy's element or a gather's row, or stages the page it waits for. -/
theorem engineSteps : Obligations.EngineSteps := by
  intro k e y q bs po p t u va n a d ready staged one
  refine ⟨fun s ⟨he, hst, hf⟩ => (exec_engineElementDelivery_ends he hst).trans (congrArg _ (endErr_of_free hf)),
    fun s ⟨⟨⟨he, hs, hd, hr⟩, hk, hrf, hel, hv, hdst, hh⟩, hread, ha, hw⟩ => ?_,
    fun s ⟨⟨⟨he, hs, hd, hr⟩, hk, hrf, hel, hv, hdst, hh⟩, hread⟩ => ?_,
    fun s ⟨⟨⟨he, hs, hd, hr⟩, hk, hrf, hel, hv, hdst, hh⟩, hread⟩ => ?_,
    fun s ⟨⟨he, hs, hd, hr⟩, hk⟩ => (exec_engineElementDelivery he hs hd hr).trans (congrArg _ (if_pos hk)),
    fun s ⟨he, hk, hva⟩ => exec_enginePageStage_copy he hk hva, fun s ⟨he, hk, hva⟩ => exec_enginePageStage_gather he hk hva⟩
  · refine (exec_engineElementDelivery he hs hd hr).trans (congrArg _ ((if_neg hk).trans ?_))
    rw [copyStep_data hrf hel hv hh hread, hdst]
    exact deliverElem_last ha hw
  · exact (exec_engineElementDelivery he hs hd hr).trans (congrArg _ ((if_neg hk).trans (copyStep_absent hrf hel hv hh hread)))
  · exact (exec_engineElementDelivery he hs hd hr).trans (congrArg _ ((if_neg hk).trans (copyStep_fail hrf hel hv hh hread)))

/-! ### The switch of a port group (R403, R405, R406, R412) -/

/-- What a write of PGCTL puts in the register before its group switches. -/
def pgWritten (a : Operand) (i : BitVec 8) (s : State) (x : Issue) : State :=
  let u := setPgAll { s with fab := { s.fab with switched := true } } 51 16 (bits (src64 s x a) 51 16)
  setPg (setPg u i.toNat 63 62 (bits (src64 s x a) 63 62)) i.toNat 15 12 (bits (src64 s x a) 15 12)

theorem waits_pgctlWrite (p : Pr) (a : Operand) (i : BitVec 8) :
    Waits (.pgctlWrite p a i) (fun s _ => 2 ≤ pgState s i.toNat) .other := by
  refine waits_of_body (fun _ => rfl) fun s x _ hst => ?_
  exact if_pos hst

/-- An idle group is mapped at once, and an active one begins to switch. -/
theorem completes_pgctlWrite (p : Pr) (a : Operand) (i : BitVec 8) : Completes (.pgctlWrite p a i)
    (fun s _ => pgState s i.toNat < 2)
    fun s x => if pgState (pgWritten a i s x) i.toNat = 0 then remap (pgWritten a i s x) i.toNat
      else setPgState (pgWritten a i s x) i.toNat 2 := by
  refine completes_of_body (fun _ => rfl) fun s x _ hst => ?_
  simp only [if_neg (Nat.not_le.mpr hst), sc64v_eq, beq_iff_eq]
  rfl

section

variable {g : Fin 16} {s : State}

theorem exec_switchDrainDone_idle (h : pgState s g.val ≠ 3 ∨ planeBusy s g.val = true) : exec (.switchDrainDone g) s =
    .next s := by
  have hc : (pgState s g.val != 3 || planeBusy s g.val) = true := by
    rw [Bool.or_eq_true, bne_iff_ne]
    exact h
  exact if_pos hc

variable (h3 : pgState s g.val = 3) (hb : planeBusy s g.val = false)
include h3 hb

theorem exec_switchDrainDone_maps (hp : pgPers s g.val ≠ 2) : exec (.switchDrainDone g) s = .next (remap s g.val) := by
  show execSwitchDrainDone g s = _
  unfold execSwitchDrainDone
  simp only [h3, hb, beq_false_of_ne hp, bne_self_eq_false, Bool.or_self, Bool.false_and, Bool.false_eq_true, if_false]

/-- The pool of a group that was one is drained first, once no proxy of another package owns a line of it. -/
theorem exec_switchDrainDone_pool (hp : pgPers s g.val = 2) (hr : ∀ r ∈ hdmRanges s g.val, farHolds s r.1 r.2 = false) :
    exec (.switchDrainDone g) s = .next (remap ((hdmRanges s g.val).foldl (fun s r => drainRange s r.1 r.2) s) g.val) := by
  have hno : ((hdmRanges s g.val).any fun r => farHolds s r.1 r.2) = false :=
    List.any_eq_false.mpr fun r hm => ne_true_of_eq_false (hr r hm)
  show execSwitchDrainDone g s = _
  unfold execSwitchDrainDone
  simp only [h3, hb, hp, hno, bne_self_eq_false, Bool.or_self, Bool.and_false, beq_self_eq_true,
    Bool.false_eq_true, if_false, if_true]

end

/-! ### Failures of a link, a wavelength and a drain (R413 to R416) -/

section

variable {g : Fin 16} {s : State}

theorem exec_linkLoss_switching (h : pgState s g.val = 2 ∨ pgState s g.val = 3) : exec (.linkLoss g) s =
    .next { s with fab := { s.fab with dark := sSet false s.fab.dark g.val true } } := by
  have h1 : (pgState s g.val == 1) = false := beq_false_of_ne (by omega)
  have h2 : (pgState s g.val == 2 || pgState s g.val == 3) = true := by
    rw [Bool.or_eq_true, beq_iff_eq, beq_iff_eq]
    exact h
  exact (if_neg (ne_true_of_eq_false h1)).trans (if_pos h2)

theorem exec_retrainLock_locks (h5 : pgState s g.val = 5) (hu : 3 ∉ s.host.off) (hl : linksLit s g.val = true) :
    exec (.retrainLock g) s = .next (setPgState s g.val 6) := by
  have hc : s.host.off.contains 3 = false := by
    rw [Bool.eq_false_iff, ne_eq, List.contains_iff_mem]
    exact hu
  have hcond : (pgState s g.val == 5 && linksLit s g.val && !s.host.off.contains 3) = true := by rw [h5, hl, hc]; rfl
  exact if_pos hcond

theorem exec_retrainLock_dark (hl : linksLit s g.val = false) : exec (.retrainLock g) s = .next s := by
  have hcond : ¬ (pgState s g.val == 5 && linksLit s g.val && !s.host.off.contains 3) = true := by
    rw [hl, Bool.and_false, Bool.false_and]
    exact Bool.false_ne_true
  exact if_neg hcond

/-- A band is dark where every wavelength of it has been retired. -/
theorem bandLit_not (s : State) (n pair first count : Nat) : (!bandLit s n pair first count) =
    (List.range count).all fun i => s.fab.retired.contains (n, pair, first + i) := by
  rw [bandLit, List.not_any_eq_all_not]
  simp only [Bool.not_not]

/-- A wavelength that may be retired is noted, and its group loses its link where nothing of the band is left. -/
theorem exec_wavelengthRetire {pair wave : Nat} {t : State} (hp : pair < 4) (hw : wave < 64)
    (hst : pgState s g.val = 1 ∨ pgState s g.val = 5) (hn : (g.val, pair, wave) ∉ s.fab.retired)
    (ht : raiseSvc { s with fab := { s.fab with retired := s.fab.retired ++ [(g.val, pair, wave)] } } 8 = t) :
    exec (.wavelengthRetire g pair wave) s =
      .next (if !bandLit t g.val pair (linkBand t g.val wave).1 (linkBand t g.val wave).2 && pgState t g.val == 1
        then loseLink t g.val else t) := by
  have hmay : (decide (4 ≤ pair) || decide (64 ≤ wave) || (pgState s g.val != 1 && pgState s g.val != 5)
      || s.fab.retired.contains (g.val, pair, wave)) = false := by
    have hc : s.fab.retired.contains (g.val, pair, wave) = false := by
      rw [Bool.eq_false_iff, ne_eq, List.contains_iff_mem]
      exact hn
    rw [hc, decide_eq_false (Nat.not_le.mpr hp), decide_eq_false (Nat.not_le.mpr hw)]
    obtain h | h := hst <;> rw [h] <;> rfl
  show execWavelengthRetire g pair wave s = _
  unfold execWavelengthRetire
  extract_lets n t' b
  subst ht
  exact if_neg (ne_true_of_eq_false hmay)

/-- The first dirty line of a pool that cannot drain is lost, and the switch ends with cause 5. -/
theorem exec_drainFailure_pool {line : Nat} (h3 : pgState s g.val = 3) (hp : pgPers s g.val = 2)
    (hl : ((hdmRanges s g.val).flatMap fun r => dirtyLines s r.1 r.2) = [line]) :
    exec (.drainFailure g) s = .next (switchOff (dropLine s line) g.val 5) := by
  show execDrainFailure g s = _
  unfold execDrainFailure
  simp only [h3, hp, hl, bne_self_eq_false, beq_self_eq_true, Bool.false_eq_true, if_false, if_true, List.foldl_nil]

end

/-- Settles O45: each event of a switch acts in its own state of PGCTL, and a failure ends the switch with its cause. -/
theorem portGroupSteps : Obligations.PortGroupSteps := by
  intro p a i g code pair wave line n written lost retired dead may
  refine ⟨waits_pgctlWrite p a i, fun s x hx ⟨hst, h0⟩ => ?_, fun s x hx ⟨hst, h0⟩ => ?_, fun s h => if_pos (beq_iff_eq.mpr h),
    fun s ⟨h3, hb, hp⟩ => exec_switchDrainDone_maps h3 hb hp, fun s ⟨h3, hb, hp, hr⟩ => exec_switchDrainDone_pool h3 hb hp hr,
    fun s h => exec_switchDrainDone_idle h, fun s ⟨h5, hu, hl⟩ => exec_retrainLock_locks h5 hu hl,
    fun s hl => exec_retrainLock_dark hl, fun s h => if_pos (beq_iff_eq.mpr h), fun s h => if_pos (beq_iff_eq.mpr h),
    fun s h => if_pos (beq_iff_eq.mpr h), fun s h => if_pos (beq_iff_eq.mpr h), fun s h => exec_linkLoss_switching h,
    fun s h => if_pos (beq_iff_eq.mpr h), fun s ⟨⟨hp, hw, hst, hn⟩, hd⟩ => ?_, fun s ⟨⟨hp, hw, hst, hn⟩, hd, h1⟩ => ?_,
    fun s ⟨h3, hp, hl⟩ => exec_drainFailure_pool h3 hp hl⟩
  · exact (completes_pgctlWrite p a i s x hx hst).trans (congrArg (fun u => Host.Outcome.next (passed _ x u)) (if_pos h0))
  · exact (completes_pgctlWrite p a i s x hx hst).trans (congrArg (fun u => Host.Outcome.next (passed _ x u)) (if_neg h0))
  · refine (exec_wavelengthRetire hp hw hst hn rfl).trans (congrArg _ (if_neg ?_))
    rw [bandLit_not]
    exact fun hc => ne_true_of_eq_false hd ((Bool.and_eq_true ..).mp hc).1
  · refine (exec_wavelengthRetire hp hw hst hn rfl).trans (congrArg _ (if_pos ?_))
    rw [bandLit_not]
    exact (Bool.and_eq_true ..).mpr ⟨hd, beq_iff_eq.mpr h1⟩

end Sys2Proof.Machine
end

section
/-! SUPPORT. Requests of other packages, and the host. -/

namespace Sys2Proof.Machine

open Sys2Proof Claims

/-! ### A request of another package arrives (R419 to R424, R428) -/

theorem ualOpen_of_group {s : State} (h : ∃ n < 16, pgPers s n = 1 ∧ 1 ≤ pgState s n ∧ pgState s n ≤ 3) : ualOpen s = true := by
  obtain ⟨n, hn, hp, hlo, hhi⟩ := h
  refine List.any_eq_true.mpr ⟨n, List.mem_range.mpr hn, ?_⟩
  simp only [hp, hlo, hhi, beq_self_eq_true, decide_true, Bool.and_self]

/-- A request's turn has come in its stream: no earlier one keeps it back, the stream is not frozen before it, and no
atomic of the
stream waits. -/
def ualTurn (s : State) (q : UalReq) : Bool :=
  let t := s.stream (ualKey q)
  t.may q && (!t.frozen || t.held.head? == some q) && t.waits.all fun a => a == q

section

variable {q : UalReq} {s : State}

theorem ualTurn_of (hm : (s.stream (ualKey q)).may q = true)
    (hf : (s.stream (ualKey q)).frozen = false ∨ (s.stream (ualKey q)).held.head? = some q)
    (hw : ∀ x, (s.stream (ualKey q)).waits = some x → x = q) : ualTurn s q = true := by
  have hfree : (!(s.stream (ualKey q)).frozen || (s.stream (ualKey q)).held.head? == some q) = true := by
    obtain h | h := hf <;> rw [h]
    · rfl
    · rw [beq_self_eq_true, Bool.or_true]
  have hwait : ((s.stream (ualKey q)).waits.all fun a => a == q) = true := by
    cases h : (s.stream (ualKey q)).waits with
    | none => rfl
    | some x => exact beq_iff_eq.mpr (hw x h)
  simp only [ualTurn, hm, hfree, hwait, Bool.and_self]

theorem not_ualTurn_of (h : (s.stream (ualKey q)).may q = false
    ∨ ((s.stream (ualKey q)).frozen = true ∧ (s.stream (ualKey q)).held.head? ≠ some q)
    ∨ ∃ x, (s.stream (ualKey q)).waits = some x ∧ x ≠ q) : ualTurn s q = false := by
  simp only [ualTurn]
  obtain h | ⟨hf, hh⟩ | ⟨x, hw, hx⟩ := h
  · rw [h, Bool.false_and, Bool.false_and]
  · rw [hf, beq_false_of_ne hh, Bool.not_true, Bool.or_self, Bool.and_false, Bool.false_and]
  · rw [hw]
    exact (congrArg _ (beq_false_of_ne hx)).trans (Bool.and_false _)

variable (ho : ∃ n < 16, pgPers s n = 1 ∧ 1 ≤ pgState s n ∧ pgState s n ≤ 3) (hfit : ualFits q = true)
include ho hfit

theorem exec_ualRequest_again (hh : (s.stream (ualKey q)).has q = true) : exec (.ualRequest q) s = .next (ualAgain s q) := by
  show execUalRequest q s = _
  unfold execUalRequest
  simp only [ualOpen_of_group ho, hfit, hh, Bool.not_true, Bool.or_self, Bool.false_eq_true, if_false, if_true]

variable (hh : (s.stream (ualKey q)).has q = false) (ha : (s.stream (ualKey q)).ahead q < 1024)
include hh ha

/-- A new request within its stream's window is held, asks for what it needs, or is served. -/
theorem exec_ualRequest : exec (.ualRequest q) s = .next (
    if ualTurn s q = false then s.setStream (ualKey q) ((s.stream (ualKey q)).hold q)
    else if ualWaits s q = true then (ualAsk s q).setStream (ualKey q)
      ((if 2 ≤ q.kind && q.kind ≤ 4 then { s.stream (ualKey q) with waits := some q } else s.stream (ualKey q)).hold q)
    else ualServe s q) := by
  have hno : ¬ 1024 ≤ (s.stream (ualKey q)).ahead q := Nat.not_le.mpr ha
  show execUalRequest q s = _
  unfold execUalRequest
  simp only [ualOpen_of_group ho, hfit, hh, if_neg hno, Bool.not_true, Bool.or_self, Bool.false_eq_true, if_false]
  have ht : ((s.stream (ualKey q)).may q && (!(s.stream (ualKey q)).frozen || (s.stream (ualKey q)).held.head? == some q)
      && (s.stream (ualKey q)).waits.all fun a => a == q) = ualTurn s q := rfl
  rw [ht]
  cases ualTurn s q <;> cases ualWaits s q <;> rfl

theorem exec_ualRequest_held (ht : ualTurn s q = false) :
    exec (.ualRequest q) s = .next (s.setStream (ualKey q) ((s.stream (ualKey q)).hold q)) :=
  (exec_ualRequest ho hfit hh ha).trans (congrArg _ (if_pos ht))

variable (ht : ualTurn s q = true)
include ht

/-- A request that must wait keeps its place in its stream, an atomic ahead of all of it. -/
theorem exec_ualRequest_waits (hw : ualWaits s q = true) : exec (.ualRequest q) s = .next ((ualAsk s q).setStream (ualKey q)
    ((if 2 ≤ q.kind && q.kind ≤ 4 then { s.stream (ualKey q) with waits := some q } else s.stream (ualKey q)).hold q)) :=
  (exec_ualRequest ho hfit hh ha).trans (congrArg _ ((if_neg (ne_false_of_eq_true ht)).trans (if_pos hw)))

theorem exec_ualRequest_served (hw : ualWaits s q = false) : exec (.ualRequest q) s = .next (ualServe s q) :=
  (exec_ualRequest ho hfit hh ha).trans (congrArg _ ((if_neg (ne_false_of_eq_true ht)).trans (if_neg (ne_true_of_eq_false hw))))

end

/-! ### A request at its home (R422 to R424) -/

/-- A request is marked in its stream, and its response is sent. -/
def ualEnds (q : UalReq) (u : State) (r : Stream) (y : UalReply) : State := respond (u.setStream (ualKey q) (r.mark q y.bytes)) y

/-- The response to a refused request. -/
def ualRefusal (s : State) (q : UalReq) : UalReply :=
    ualPlain q (if spaceOf s q.pa == .view && 0 < q.kind then .view else .refused)

section

variable {s : State} {q : UalReq}

theorem ualServe_refused (hr : ualRefused s q = true) : ualServe s q = ualEnds q
    (if isCombine q then refuseCombine s (ualBlock q) else violate s 1 0x15 0 q.pa noSrc)
    { s.stream (ualKey q) with frozen := false } (ualRefusal s q) := by
  unfold ualServe
  simp only [hr, if_true]
  rfl

variable (hr : ualRefused s q = false)
include hr

theorem ualServe_applied (hm : ualMoves s q = false) : ualServe s q = ualEnds q (ualApply (ualReady s q) q)
    { s.stream (ualKey q) with frozen := false } (ualAnswer (ualReady s q) q) := by
  unfold ualServe
  simp only [hr, hm, Bool.not_false, Bool.false_eq_true, if_false, if_true]
  rfl

variable (hm : ualMoves s q = true)
include hm

/-- A request to a frame that moves freezes its stream, where the package keeps no log or the request combines. -/
theorem ualServe_frozen (hc : s.fab.gallery.length ≤ 32 ∨ isCombine q = true) : ualServe s q = s.setStream (ualKey q)
    { s.stream (ualKey q) with
      frozen := true
      held := if (s.stream (ualKey q)).held.contains q then (s.stream (ualKey q)).held else q ::
        (s.stream (ualKey q)).held } := by
  have hb : (!galleryBig s || isCombine q) = true := by
    obtain h | h := hc
    · rw [galleryBig, decide_eq_false (Nat.not_lt.mpr h), Bool.not_false, Bool.true_or]
    · rw [h, Bool.or_true]
  unfold ualServe
  simp only [hr, hm, hb, Bool.not_true, Bool.false_eq_true, if_false, if_true]

variable (hg : 32 < s.fab.gallery.length)
include hg

/-- A store, a red or a write-back enters the log where it has room. -/
theorem ualServe_logs (hk : q.kind = 1 ∨ q.kind = 2 ∨ q.kind = 8) : ualServe s q =
    if logFull s q then respond s (ualPlain q .busy)
    else ualEnds q (if q.kind == 8 then ualDisown (logStore s q) q else logStore s q)
      { s.stream (ualKey q) with logged := (s.stream (ualKey q)).logged ++ [q] } (ualPlain q .done) := by
  have hbig : galleryBig s = true := decide_eq_true hg
  have hc : isCombine q = false := by
    rw [isCombine]
    obtain h | h | h := hk <;> rw [h] <;> rfl
  have hlog : (q.kind == 1 || q.kind == 2 || q.kind == 8) = true := by
    obtain h | h | h := hk <;> rw [h] <;> rfl
  unfold ualServe
  simp only [hr, hm, hbig, hc, hlog, Bool.not_true, Bool.or_self, Bool.false_eq_true, if_false, if_true]
  rfl

/-- A read or an atomic that returns its value is refused. -/
theorem ualServe_unlogged (hk : q.kind = 0 ∨ q.kind = 3 ∨ q.kind = 4) :
    ualServe s q = ualEnds q s (s.stream (ualKey q)) (ualPlain q .refused) := by
  have hbig : galleryBig s = true := decide_eq_true hg
  have hc : isCombine q = false := by
    rw [isCombine]
    obtain h | h | h := hk <;> rw [h] <;> rfl
  have hlog : (q.kind == 1 || q.kind == 2 || q.kind == 8) = false := by
    obtain h | h | h := hk <;> rw [h] <;> rfl
  unfold ualServe
  simp only [hr, hm, hbig, hc, hlog, Bool.not_true, Bool.or_self, Bool.false_eq_true, if_false]
  rfl

end

theorem not_ualMoves_of {s : State} {q : UalReq}
    (h : ∀ b ∈ ualBlocks q, spaceOf s (128 * b) = .hbm → frameFlag s (128 * b) 30 = false) : ualMoves s q = false := by
  refine List.any_eq_false.mpr fun b hb => ?_
  rw [Bool.and_eq_true, beq_iff_eq]
  exact fun ⟨hs, hf⟩ => ne_true_of_eq_false (h b hb hs) hf

theorem ualMoves_of {s : State} {q : UalReq}
    (h : ∃ b ∈ ualBlocks q, spaceOf s (128 * b) = .hbm ∧ frameFlag s (128 * b) 30 = true) : ualMoves s q = true := by
  obtain ⟨b, hb, hs, hf⟩ := h
  exact List.any_eq_true.mpr ⟨b, hb, (Bool.and_eq_true ..).mpr ⟨beq_iff_eq.mpr hs, hf⟩⟩

theorem logFull_of_room {s : State} {q : UalReq} (h : (logPut s + 2 ^ 32 - logGet s) % 2 ^ 32 + (ualBlocks q).length ≤ 63) :
    logFull s q = false := decide_eq_false (Nat.not_lt.mpr h)

theorem logFull_of_no_room {s : State} {q : UalReq} (h : ¬ (logPut s + 2 ^ 32 - logGet s) % 2 ^ 32 + (ualBlocks q).length ≤ 63) :
    logFull s q = true := decide_eq_true (Nat.lt_of_not_le h)

/-! ### The store log is replayed (R424) -/

theorem exec_storeLogReplay_idle {s : State} (h : logGet s = logPut s ∨ s.fab.notices = 0) : exec .storeLogReplay s =
    .next s := by
  have hc : (logGet s == logPut s || s.fab.notices == 0) = true := by
    rw [Bool.or_eq_true, beq_iff_eq, beq_iff_eq]
    exact h
  exact if_pos hc

/-- Entry `k` of the store log, as the curator reads it. -/
def logEntry (s : State) (k : Nat) : BitVec 2048 := BitVec.ofNat 2048 (coherentNat s (logAddr s k) 256)

/-- The bytes that an entry holds for the block at `pa`. -/
def entryBytes (e : BitVec 2048) (pa : Nat) : Bytes :=
  ((List.range 128).filter fun i => bit e (896 + i)).map fun i => (pa + i, e.extractLsb' (1024 + 8 * i) 8)

/-- GET moves past entry `k`, and its notice is taken. -/
def logTaken (s : State) (k : Nat) : State :=
  rawWriteNat { s with fab := { s.fab with notices := s.fab.notices - 1 } } (logBase s + 4) ((k + 1) % 2 ^ 32) 4

/-- An entry of a frame that stands is applied for the request that it came from, which is done with its last block. -/
theorem exec_storeLogReplay {s : State} {q : UalReq} {e : BitVec 2048} {k pa : Nat} (hk : logGet s = k) (hne : k ≠ logPut s)
    (hn : s.fab.notices ≠ 0) (he : logEntry s k = e) (hpa : bits e 63 0 = pa) (hsp : spaceOf s pa = .hbm)
    (h30 : frameFlag s pa 30 = false) (h31 : frameFlag s pa 31 = false) (hl : (s.stream (bits e 103 72)).logged = [q])
    (hq : q.seq.toNat = bits e 127 104) (hb : ualBlocks q = [pa / 128]) :
    exec .storeLogReplay s = .next ((replayEntry (logTaken s k) q (entryBytes e pa)).setStream (bits e 103 72)
      { s.stream (bits e 103 72) with logged := [] }) := by
  have hgo : (k == logPut s || s.fab.notices == 0) = false := by rw [beq_false_of_ne hne, beq_false_of_ne hn]; rfl
  have hst : (spaceOf s pa == .hbm && frameFlag s pa 30) = false := by rw [h30, Bool.and_false]
  have hok : (spaceOf s pa == .hbm && !frameFlag s pa 31) = true := by rw [hsp, h31]; rfl
  have hfind : ([q].find? fun q => q.seq.toNat == bits e 127 104) = some q :=
    List.find?_cons_of_pos (p := fun q : UalReq => q.seq.toNat == bits e 127 104) (beq_iff_eq.mpr hq)
  have hlast : ((ualBlocks q).getLast? == some (pa / 128)) = true := by rw [hb]; exact beq_iff_eq.mpr rfl
  have herase : ([q] : List UalReq).erase q = [] := List.erase_cons_head q []
  show execStoreLogReplay s = _
  unfold execStoreLogReplay
  unfold logEntry at he
  simp only [hk, hgo, he, hpa, hst, hok, hl, hfind, hlast, herase, Bool.false_eq_true, if_false, if_true]
  rfl

/-! ### Relays and pools (R335, R336, R404, R419) -/

section

variable {g : Fin 16} {dst : BitVec 8} {q : UalReq} {s : State} {e : Nat} (hd : dst.toNat ≠ s.fab.pkg)
  (he : sGet 0 ((sFind? s.fab.tabs g.val).getD PgTab.empty).relay dst.toNat = e)
include hd he

theorem exec_relayForward {c : Nat} (ha : pgActive s g.val 1 = true) (hv : 128 ≤ e)
    (hc : sGet 0 ((sFind? s.fab.tabs g.val).getD PgTab.empty).circ (field e 5 0) = c) (h15 : 2 ^ 15 ≤ c)
    (h7 : field c 7 0 = dst.toNat) : exec (.relayForward g dst q) s = .next s := by
  have hcond : (pgActive s g.val 1 && decide (128 ≤ e) && decide (2 ^ 15 ≤ c) && field c 7 0 == dst.toNat) = true := by
    rw [ha, decide_eq_true hv, decide_eq_true h15, beq_iff_eq.mpr h7]
    rfl
  show execRelayForward g dst q s = _
  unfold execRelayForward
  simp only [beq_false_of_ne hd, he, hc, Bool.false_eq_true, if_false]
  exact if_pos hcond

theorem exec_relayForward_refused (h : pgActive s g.val 1 = false ∨ e < 128) :
    exec (.relayForward g dst q) s = .next (respond (violate s 5 0x15 0 q.pa noSrc) (ualPlain q .refused)) := by
  have hcond : (pgActive s g.val 1 && decide (128 ≤ e)) = false := by
    obtain h | h := h
    · rw [h, Bool.false_and]
    · rw [decide_eq_false (Nat.not_le.mpr h), Bool.and_false]
  show execRelayForward g dst q s = _
  unfold execRelayForward
  simp only [beq_false_of_ne hd, he, hcond, Bool.false_and, Bool.false_eq_true, if_false]

end

/-- The lines of a range that some L1, L2, side cache or directory holds. -/
def heldLines (s : State) (base len : Nat) : List Nat :=
  let held : List Nat := (s.cus.flatMap fun f => f.2.l1.map fun w => w.1 / 32)
    ++ ((s.mem.l2 ++ s.mem.msc).map fun f => f.1 / 128) ++ s.mem.dir.map fun f => f.1 / 32
  held.eraseDups.filter fun l => base ≤ 128 * l && 128 * l < base + len

section

variable {s : State}

theorem exec_backInvalidate_drains {line : Nat} (hp : spaceOf s (128 * line) = .pool) (hf : farHolds s (128 * line) 128 = false) :
    exec (.backInvalidate line) s = .next (drainRange s (128 * line) 128) := by
  show execBackInvalidate line s = _
  unfold execBackInvalidate
  simp only [hp, hf, bne_self_eq_false, Bool.false_eq_true, if_false]

theorem exec_backInvalidate_asks {line : Nat} (hp : spaceOf s (128 * line) = .pool) (hf : farHolds s (128 * line) 128 = true) :
    exec (.backInvalidate line) s = .next (farAsk s (128 * line) 128) := by
  show execBackInvalidate line s = _
  unfold execBackInvalidate
  simp only [hp, hf, bne_self_eq_false, Bool.false_eq_true, if_false, if_true]

variable {base len : Nat} (hp : inPool s base len = true)
include hp

theorem exec_dynamicCapacityRelease_drains (hf : farHolds s base len = false) :
    exec (.dynamicCapacityRelease base len) s = .next (loseExtent (drainRange s base len) base len) := by
  show execDynamicCapacityRelease base len s = _
  unfold execDynamicCapacityRelease
  simp only [hp, hf, Bool.not_true, Bool.false_eq_true, if_false]

theorem exec_dynamicCapacityRelease_asks (hf : farHolds s base len = true) {u : State} (hu : farAsk s base len = u)
    (hn : (base, len) ∉ u.fab.releasing) : exec (.dynamicCapacityRelease base len) s =
      .next { u with fab := { u.fab with releasing := u.fab.releasing ++ [(base, len)] } } := by
  have hc : u.fab.releasing.contains (base, len) = false := by
    rw [Bool.eq_false_iff, ne_eq, List.contains_iff_mem]
    exact hn
  show execDynamicCapacityRelease base len s = _
  unfold execDynamicCapacityRelease
  simp only [hp, hf, hu, hc, Bool.not_true, Bool.false_eq_true, if_false, if_true]

theorem exec_forcedRevocation :
    exec (.forcedRevocation base len) s = .next (loseExtent ((heldLines s base len).foldl dropLine s) base len) := by
  show execForcedRevocation base len s = _
  unfold execForcedRevocation
  exact if_pos hp

end

/-- Settles O46: a request is held, asks, or is served by its home, as its stream and its home's state decide; the log,
the relays and
the pools follow their own conditions. -/
theorem remoteSteps : Obligations.RemoteSteps := by
  intro q g dst pkg die agent line base len t turn first goes faults room thawed ended refusal queued lines e revoked
  have served : ∀ s, goes s → exec (.ualRequest q) s = .next (ualServe s q) := by
    intro s ⟨⟨⟨ho, hfit, hh, ha⟩, hm, hf, hw⟩, hg⟩
    exact exec_ualRequest_served ho hfit hh ha (ualTurn_of hm hf hw) hg
  refine ⟨fun s ⟨hg, hr, hn⟩ => (served s hg).trans (congrArg _ (ualServe_applied hr (not_ualMoves_of hn))),
    fun s ⟨hg, hr, hc⟩ => (served s hg).trans (congrArg _ ((ualServe_refused hr).trans ?_)),
    fun s ⟨hg, hr, hc⟩ => (served s hg).trans (congrArg _ ((ualServe_refused hr).trans ?_)),
    fun s ⟨⟨hg, hr, hm⟩, hc⟩ => (served s hg).trans (congrArg _ (ualServe_frozen hr (ualMoves_of hm) hc)),
    fun s ⟨⟨hg, hr, hm⟩, hb, hk, hroom⟩ => (served s hg).trans (congrArg _
      ((ualServe_logs hr (ualMoves_of hm) hb (hk.imp_right .inl)).trans
        ((if_neg (ne_true_of_eq_false (logFull_of_room hroom))).trans ?_))),
    fun s ⟨⟨hg, hr, hm⟩, hb, hk, hroom⟩ => (served s hg).trans (congrArg _
      ((ualServe_logs hr (ualMoves_of hm) hb (.inr (.inr hk))).trans
        ((if_neg (ne_true_of_eq_false (logFull_of_room hroom))).trans ?_))),
    fun s ⟨⟨hg, hr, hm⟩, hb, hk, hroom⟩ => (served s hg).trans (congrArg _
      ((ualServe_logs hr (ualMoves_of hm) hb hk).trans (if_pos (logFull_of_no_room hroom)))),
    fun s ⟨⟨hg, hr, hm⟩, hb, hk⟩ => (served s hg).trans (congrArg _ (ualServe_unlogged hr (ualMoves_of hm) hb hk)),
    fun s ⟨⟨ho, hfit, hh, ha⟩, hn⟩ => exec_ualRequest_held ho hfit hh ha (not_ualTurn_of hn),
    fun s ⟨⟨⟨ho, hfit, hh, ha⟩, hm, hf, hw⟩, hg, hlo, hhi⟩ =>
      (exec_ualRequest_waits ho hfit hh ha (ualTurn_of hm hf hw) hg).trans ?_,
    fun s ⟨⟨⟨ho, hfit, hh, ha⟩, hm, hf, hw⟩, hg, hk⟩ =>
      (exec_ualRequest_waits ho hfit hh ha (ualTurn_of hm hf hw) hg).trans ?_,
    fun s ⟨ho, hfit, hh⟩ => exec_ualRequest_again ho hfit hh, fun s h => exec_storeLogReplay_idle h,
    fun s k pa u ⟨hus, hk, hne, hn, hpa, hsp, h30, h31, hl, hq, hb⟩ => ?_, fun s _ => rfl, fun s _ => rfl,
    fun s ⟨hd, ha, hv, c, hc, h15, h7⟩ => exec_relayForward hd rfl ha hv hc h15 h7,
    fun s ⟨hd, h⟩ => exec_relayForward_refused hd rfl h, fun s _ => rfl, fun s ⟨hp, hf⟩ => exec_backInvalidate_drains hp hf,
    fun s ⟨hp, hf⟩ => exec_backInvalidate_asks hp hf, fun s ⟨hp, hf⟩ => exec_dynamicCapacityRelease_drains hp hf,
    fun s ⟨hp, hf, hn⟩ => exec_dynamicCapacityRelease_asks hp hf rfl hn, fun s hp => exec_forcedRevocation hp⟩
  · rw [if_pos hc]; rfl
  · rw [if_neg (ne_true_of_eq_false hc)]; rfl
  · rw [if_neg (by rw [beq_iff_eq]; omega)]
    rfl
  · rw [if_pos (beq_iff_eq.mpr hk)]
    rfl
  · rw [if_pos (by rw [decide_eq_true hlo, decide_eq_true hhi]; rfl)]
    rfl
  · rw [if_neg (by rw [Bool.and_eq_true, decide_eq_true_iff, decide_eq_true_iff]; exact hk)]
    rfl
  · subst hus
    exact exec_storeLogReplay hk hne hn rfl hpa hsp h30 h31 hl hq hb

/-! ### The registers of the host's queues (R430, R431) -/

section

variable {s : State} {q : Fin 64} {v : Word} (hv : s.host.verified = true)
include hv

theorem exec_qtail (hb : v.toNat < (s.hostq q.val).size) :
    exec (.qtail q v) s = .next (s.setHostq q.val { s.hostq q.val with tail := v.toNat }) := by
  show Host.Outcome.next (writeQtail s q.val v) = _
  unfold writeQtail
  rw [hv]
  exact congrArg _ (if_neg (Nat.not_le.mpr hb))

/-- A tail beyond the queue is a violation at the register's place in BAR0. -/
theorem exec_qtail_beyond (hb : (s.hostq q.val).size ≤ v.toNat) : exec (.qtail q v) s =
    .next (violate s 7 0 (s.hostq q.val).tag (0x1000 + 32 * q.val + 0x10) noSrc) := by
  show Host.Outcome.next (writeQtail s q.val v) = _
  unfold writeQtail
  rw [hv]
  exact congrArg _ (if_pos hb)

theorem exec_qcfg (hoff : bit (s.hostq q.val).cfg 31 = false) (h12 : bits v 27 24 ≤ 12) : exec (.qcfg q v) s =
    .next (s.setHostq q.val { s.hostq q.val with
      cfg := BitVec.ofNat 64 (bits v 31 31 * 2 ^ 31 + bits v 27 24 * 2 ^ 24 + bits v 15 0) }) := by
  have hon : (s.hostq q.val).on = false := hoff
  show Host.Outcome.next (writeQcfg s q.val v) = _
  unfold writeQcfg
  rw [hv]
  exact congrArg _ ((if_neg (ne_true_of_eq_false hon)).trans (if_neg (Nat.not_lt.mpr h12)))

end

/-! ### An entry of a queue (R432 to R435) -/

/-- What the record of an entry comes to, once it has been read: the entry waits, ends in error, or ends with the
launch's answer. -/
def entryRead (q : Fin 64) (hq : HostQ) : Except (Nat × Addr) (List Byte) × State → State
  | (.error (0, _), s) => { s with host := { s.host with busy := some (q.val, hq) } }
  | (.error _, s) => endEntry s q.val hq 0x80000003
  | (.ok bs, s) => endEntry (acceptLaunch s hq.tag bs).2 q.val hq (acceptLaunch s hq.tag bs).1

section

variable {s : State} {q : Fin 64} {hq : HostQ} {a : Addr} (ht : queueTurn s = some q.val)
  (hw : (s.host.busy = none ∧ s.hostq q.val = hq) ∨ s.host.busy = some (q.val, hq))
  (ha : BitVec.ofNat 64 (coherentNat s (hq.base.toNat + 16 * hq.head) 8) = a)
include ht hw ha

/-- The queue whose turn it is reads the record that its head names, where its context has pages and the address is aligned. -/
theorem exec_queueEntry : exec (.queueEntry q) s =
    if bit (s.ctx hq.tag).ptbase 0 = false then .next (endEntry s q.val hq 0x80000004)
    else if a.toNat % 64 ≠ 0 then .next (endEntry s q.val hq 0x80000003)
    else .next (entryRead q hq (readRecord s (.unit 768) hq.tag false a)) := by
  have hturn : (queueTurn s != some q.val) = false := by rw [ht]; exact bne_self_eq_false _
  show execQueueEntry q s = _
  unfold execQueueEntry
  obtain ⟨hb, rfl⟩ | hb := hw <;>
    simp only [hturn, hb, ha, bne_iff_ne, Bool.not_eq_eq_eq_not, Bool.not_true, Bool.false_eq_true, if_false] <;>
    obtain ⟨⟨_ | n, _⟩ | bs, u⟩ := readRecord s (.unit 768) _ false a <;> rfl

theorem exec_queueEntry_no_context (hc : bit (s.ctx hq.tag).ptbase 0 = false) :
    exec (.queueEntry q) s = .next (endEntry s q.val hq 0x80000004) :=
  (exec_queueEntry ht hw ha).trans (if_pos hc)

variable (hc : bit (s.ctx hq.tag).ptbase 0 = true)
include hc

theorem exec_queueEntry_unaligned (h64 : a.toNat % 64 ≠ 0) :
    exec (.queueEntry q) s = .next (endEntry s q.val hq 0x80000003) :=
  (exec_queueEntry ht hw ha).trans ((if_neg (ne_false_of_eq_true hc)).trans (if_pos h64))

variable (h64 : a.toNat % 64 = 0) {u : State}
include h64

theorem exec_queueEntry_waits {k : Addr} (hr : readRecord s (.unit 768) hq.tag false a = (.error (0, k), u)) :
    exec (.queueEntry q) s = .next { u with host := { u.host with busy := some (q.val, hq) } } := by
  refine (exec_queueEntry ht hw ha).trans ((if_neg (ne_false_of_eq_true hc)).trans ((if_neg (not_not_intro h64)).trans ?_))
  rw [hr]
  rfl

theorem exec_queueEntry_unreadable {n : Nat} {k : Addr} (hr : readRecord s (.unit 768) hq.tag false a = (.error (n + 1, k), u)) :
    exec (.queueEntry q) s = .next (endEntry u q.val hq 0x80000003) := by
  refine (exec_queueEntry ht hw ha).trans ((if_neg (ne_false_of_eq_true hc)).trans ((if_neg (not_not_intro h64)).trans ?_))
  rw [hr]
  rfl

theorem exec_queueEntry_answered {n : Nat} {bs : List Byte} {z : State}
    (hr : readRecord s (.unit 768) hq.tag false a = (.ok bs, u))
    (hl : acceptLaunch u hq.tag bs = (n, z)) : exec (.queueEntry q) s = .next (endEntry z q.val hq n) := by
  refine (exec_queueEntry ht hw ha).trans ((if_neg (ne_false_of_eq_true hc)).trans ((if_neg (not_not_intro h64)).trans ?_))
  rw [hr, entryRead, hl]

end

/-! ### Mailbox commands (R436, R438, R440) -/

section

variable {i : Instr} {s : State} {code : Nat} {args : List (Nat × Nat)} {ok : Bool} {f : State → State}
  (hexec : exec i s = mailbox s code args ok f)
include hexec

/-- A command that the mailbox does not take, for it is busy with another, does nothing. -/
theorem exec_of_not_taken (ht : mbTakes s code args = false) : exec i s = .next s := by
  rw [hexec, mailbox, ht]
  rfl

variable (ht : mbTakes s code args = true)
include ht

theorem mailed_of_mailbox (hf : mbFits s args = true) (hok : ok = true) : exec i s = .next (mailed code f s) := by
  rw [hexec]
  unfold mailbox
  simp only [ht, hf, hok, Bool.not_true, Bool.false_eq_true, if_false, Bool.and_self, if_true]
  rfl

theorem mailRefused_of_mailbox (hok : ok = false) : exec i s = .next (mailRefused code s) := by
  rw [hexec]
  unfold mailbox
  simp only [ht, hok, Bool.not_true, Bool.false_and, Bool.false_eq_true, if_false]
  rfl

end

/-- A number is within its range, or is not. -/
theorem within_true {lo hi n : Nat} (hlo : lo ≤ n) (hhi : n ≤ hi) : (decide (lo ≤ n) && decide (n ≤ hi)) = true := by
  rw [decide_eq_true hlo, decide_eq_true hhi]
  rfl

theorem within_false {lo hi n : Nat} (h : n < lo ∨ hi < n) : (decide (lo ≤ n) && decide (n ≤ hi)) = false := by
  obtain h | h := h
  · rw [decide_eq_false (Nat.not_le.mpr h), Bool.false_and]
  · rw [decide_eq_false (Nat.not_le.mpr h), Bool.and_false]

theorem exec_pkgset (n : Nat) (s : State) : exec (.pkgset n) s = mailbox s 1 [(n, 64)] (decide (n ≤ 255) && !s.fab.switched)
    fun s => setPgAll { s with fab := { s.fab with pkg := n } } 7 0 n := rfl

theorem exec_quantum (us : Nat) (s : State) : exec (.quantum us) s =
    mailbox s 2 [(us, 64)] (decide (100 ≤ us) && decide (us ≤ 100000))
      fun s => { s with host := { s.host with quantum := us } } := rfl

theorem exec_dumpset (t : Tag) (base size : Nat) (s : State) : exec (.dumpset t base size) s =
    mailbox s 3 [(t.toNat, 16), (base, 64), (size, 64)] (base % 4096 == 0)
      fun s => s.setCtx t { s.ctx t with dumpBase := base, dumpSize := size } := rfl

theorem exec_vlogset (base : Nat) (s : State) : exec (.vlogset base) s = mailbox s 4 [(base, 64)] (base % 131072 == 0)
    fun s => { s with sup := { s.sup with vlogBase := some base, vmir := s.sup.vput - s.sup.vlog.length } } := rfl

theorem exec_powercap (watts : Nat) (s : State) : exec (.powercap watts) s =
    mailbox s 8 [(watts, 64)] (decide (1500 ≤ watts) && decide (watts ≤ 3600))
      fun s => { s with host := { s.host with power := watts } } := rfl

section

variable {s : State} {nonce : List Byte}

/-- A free mailbox takes a nonce of 48 bytes. -/
theorem exec_prove (hv : s.host.verified = true) (hb : mbBusy s = false) (hn : nonce.length = 48) : exec (.prove nonce) s =
    .next (mailed 5 (fun s => mbRes { s with host := { s.host with report := provenance s nonce } }
      [Config.reportAddr.toNat % 2 ^ 32, Config.reportAddr.toNat / 2 ^ 32]) s) := by
  have ht : ∀ args, mbTakes s 5 args = true := fun args => by rw [mbTakes, hv, hb]; rfl
  have hf : ∀ args, mbFits s args = true := fun args => by rw [mbFits, hb]; rfl
  exact mailed_of_mailbox rfl (ht _) (hf _) (beq_iff_eq.mpr hn)

/-! ### Recording (R444 to R446) -/

variable {t : Tag}

/-- What RECSTOP leaves: the end of the list where there is room for it, and the context no longer recorded. -/
def recStopped (t : Tag) (s : State) (p : Snap) : State :=
  let c := s.ctx t
  let u := if p.ok && c.recPut + 8 ≤ p.top then physWrite p.s (c.recBase + c.recPut) (bytesOf 0 8) else p.s
  let u := u.modCtx t fun c => { c with armed := false, recording := false, recPut := 0, recSize := p.top }
  { u with host := { u.host with mbcmd := 7 } }

/-- A context with nothing to stop is refused. -/
theorem exec_recstop_idle (ht : mbTakes s 7 [(t.toNat, 16)] = true) (ha : (s.ctx t).armed = false)
    (hr : (s.ctx t).recording = false)
    (hp : (s.ctx t).recPut ≤ (s.ctx t).recSize) : exec (.recstop t) s = .next (mailRefused 7 s) := by
  refine mailRefused_of_mailbox (f := id) (ok := false) ?_ ht rfl
  show execRecstop t s = _
  unfold execRecstop
  simp only [ht, ha, hr, decide_eq_false (Nat.not_lt.mpr hp), Bool.not_true, Bool.not_false, Bool.and_false, Bool.or_self,
    Bool.true_or, Bool.false_eq_true, if_false, if_true]

variable (ht : mbTakes s 7 [(t.toNat, 16)] = true) (hf : mbFits s [(t.toNat, 16)] = true)
include ht hf

/-- A context whose snapshot has not been taken has nothing to give out. -/
theorem exec_recstop_armed (ha : (s.ctx t).armed = true) : exec (.recstop t) s =
    .next (mbStat (recStopped t s ⟨s, (s.ctx t).recPut, (s.ctx t).recSize, true⟩) 2) := by
  show execRecstop t s = _
  unfold execRecstop
  simp only [ht, hf, ha, Bool.not_true, Bool.false_and, Bool.true_or, Bool.or_self, Bool.not_false, Bool.false_eq_true, if_false,
    if_true, List.foldl_nil]
  rfl

/-- A recording's pages are exported, in the order of its list. -/
theorem exec_recstop_recording {p : Snap} (ha : (s.ctx t).armed = false) (hr : (s.ctx t).recording = true)
    (hp : (s.ctx t).recPut ≤ (s.ctx t).recSize)
    (hx : (readItems s (s.ctx t).recBase ((s.ctx t).recSize / 32) 0).foldl (exportItem (s.ctx t).recBase)
      ⟨s, (s.ctx t).recPut, (s.ctx t).recSize, true⟩ = p) :
    exec (.recstop t) s = .next (mbStat (recStopped t s p) (if p.ok then 2 else 0x80000003)) := by
  have hne : ((s.ctx t).recPut == (s.ctx t).recSize + 2) = false := beq_false_of_ne (by omega)
  show execRecstop t s = _
  unfold execRecstop
  simp only [ht, hf, ha, hr, hne, hx, Bool.not_true, Bool.not_false, Bool.and_false, Bool.false_and, Bool.or_true, Bool.true_or,
    Bool.or_self, Bool.false_eq_true, if_false]
  rfl

end

section

variable {s : State} {t : Tag} (hd : snapshotDue s t = true) (hl : snapLacks s t = []) (hh : snapHeld s t = [])
include hd hl hh

theorem exec_recordSnapshot_taken (hok : (takeSnapshot s t).ok = true) : exec (.recordSnapshot t) s =
    .next (dropBytes ((takeSnapshot s t).s.modCtx t fun c =>
      { c with armed := false, recording := true, recPut := (takeSnapshot s t).put, recSize := (takeSnapshot s t).top }) 35) := by
  show execRecordSnapshot t s = _
  unfold execRecordSnapshot
  simp only [hd, hl, hh, Bool.not_true, List.isEmpty_nil, Bool.false_eq_true, if_false]
  exact if_pos hok

/-- A snapshot without room leaves what it wrote unused. -/
theorem exec_recordSnapshot_fails (hok : (takeSnapshot s t).ok = false) : exec (.recordSnapshot t) s =
    .next (dropBytes (s.modCtx t fun c => { c with armed := false, recording := false, recPut := c.recSize + 2 }) 35) := by
  show execRecordSnapshot t s = _
  unfold execRecordSnapshot
  simp only [hd, hl, hh, Bool.not_true, List.isEmpty_nil, Bool.false_eq_true, if_false]
  exact if_neg (ne_true_of_eq_false hok)

end

section

variable {s : State} {area : Nat × Nat} {dst : Tag} {frame : Nat}

theorem exec_rerunImport {x : Import} {u : State} (hx : readImport s area.1 area.2 frame = x) (hf : x.fits s dst frame = true)
    (hc : x.context s dst frame = some u) : exec (.rerunImport area dst frame) s =
      .next { u with cpq := u.cpq ++ x.records.map fun bs => ⟨dst, bs, none, none⟩ } := by
  show execRerunImport area dst frame s = _
  unfold execRerunImport
  simp only [hx, hf, hc, if_true]

/-- A context that has pages takes no recording. -/
theorem exec_rerunImport_context_there (hb : bit (s.ctx dst).ptbase 0 = true) : exec (.rerunImport area dst frame) s =
    .next s := by
  have hf : (readImport s area.1 area.2 frame).fits s dst frame = false := by
    unfold Import.fits
    rw [hb]
    rfl
  show execRerunImport area dst frame s = _
  unfold execRerunImport
  simp only [hf, Bool.false_eq_true, if_false]

end

/-! ### A dump is run again (R440) -/

section

variable {s : State} {t : Tag} {base : Nat} {remain : BitVec 48}
  (ht : mbTakes s 10 [(t.toNat, 16), (base, 64), (remain.toNat, 48)] = true)
include ht

theorem exec_dumprun_done {ids : List Nat} {u : State} (hf : mbFits s [(t.toNat, 16), (base, 64), (remain.toNat, 48)] = true)
    (hd : dumpRun s t base remain = some (ids, u)) : exec (.dumprun t base remain) s =
      .next (mailed 10 (fun r => mbRes { u with host := { u.host with mbcmd := r.host.mbcmd } } ids) s) := by
  refine mailed_of_mailbox (ok := true) ?_ ht hf rfl
  show execDumprun t base remain s = _
  unfold execDumprun
  rw [hd]
  rfl

theorem exec_dumprun_refused (hd : dumpRun s t base remain = none) :
    exec (.dumprun t base remain) s = .next (mailRefused 10 s) := by
  refine mailRefused_of_mailbox (ok := false) (f := id) ?_ ht rfl
  show execDumprun t base remain s = _
  unfold execDumprun
  rw [hd]
  rfl

end

/-! ### The image of the management processor (R438) -/

section

variable {s : State} {im : Firmware}

theorem exec_newManagementImage (hb : mbBusy s = false ∨ s.host.mbcmd = 0x10) : exec (.newManagementImage im) s =
    .next (if s.host.verified then mbStat { s with host := { s.host with mbcmd := 0x10 } } 0x80000001
      else if imageOk 0 im then
        let r := takeImage { s with host := { s.host with mbcmd := 0x10 } } 0 im
        mbStat (bootRest { r with host := { r.host with verified := true } }) 2
      else mailRefused 0x10 s) := by
  have hgo : (mbBusy s && s.host.mbcmd != 0x10) = false := by
    obtain h | h := hb
    · rw [h, Bool.false_and]
    · rw [h, bne_self_eq_false, Bool.and_false]
  show execNewManagementImage im s = _
  unfold execNewManagementImage
  rw [hgo]
  refine (if_neg Bool.false_ne_true).trans ?_
  by_cases hv : s.host.verified = true
  · exact (if_pos hv).trans (congrArg _ (if_pos hv).symm)
  · by_cases hi : imageOk 0 im = true
    · exact (if_neg hv).trans ((if_pos hi).trans (congrArg _ ((if_neg hv).trans (if_pos hi)).symm))
    · exact (if_neg hv).trans ((if_neg hi).trans (congrArg _ ((if_neg hv).trans (if_neg hi)).symm))

end

/-- Settles O47: queue registers and entries, the mailbox by what a command's answer is, and the recording's events. -/
theorem hostSteps : Obligations.HostSteps := by
  intro q v mask n us base size watts frame k t dst nonce bs image remain ids u z a hq area x p up takes turn
    reads due whole stopped
  refine ⟨fun s ⟨hv, hb⟩ => exec_qtail hv hb, fun s ⟨hv, hb⟩ => exec_qtail_beyond hv hb, fun s ⟨hv, ho, hb⟩ => exec_qcfg hv ho hb,
    fun s ⟨⟨ht, hw, ha⟩, hc⟩ => exec_queueEntry_no_context ht hw ha hc,
    fun s ⟨⟨ht, hw, ha⟩, hc, h64⟩ => exec_queueEntry_unaligned ht hw ha hc h64,
    fun s ⟨⟨⟨ht, hw, ha⟩, hc, h64⟩, hr⟩ => exec_queueEntry_waits ht hw ha hc h64 hr,
    fun s ⟨⟨⟨ht, hw, ha⟩, hc, h64⟩, hr⟩ => exec_queueEntry_unreadable ht hw ha hc h64 hr,
    fun s ⟨⟨⟨ht, hw, ha⟩, hc, h64⟩, hr, hl⟩ => exec_queueEntry_answered ht hw ha hc h64 hr hl,
    fun s ⟨⟨ht, hf⟩, hn, hs⟩ => mailed_of_mailbox (exec_pkgset n s) ht hf ?_,
    fun s ⟨⟨ht, hf⟩, hn⟩ => mailRefused_of_mailbox (exec_pkgset n s) ht ?_,
    fun s ht => exec_of_not_taken (exec_pkgset n s) ht,
    fun s ⟨⟨ht, hf⟩, hlo, hhi⟩ => mailed_of_mailbox (exec_quantum us s) ht hf (within_true hlo hhi),
    fun s ⟨⟨ht, hf⟩, hn⟩ => mailRefused_of_mailbox (exec_quantum us s) ht (within_false hn),
    fun s ⟨⟨ht, hf⟩, hb⟩ => mailed_of_mailbox (exec_dumpset t base size s) ht hf (beq_iff_eq.mpr hb),
    fun s ⟨⟨ht, hf⟩, hb⟩ => mailRefused_of_mailbox (exec_dumpset t base size s) ht (beq_false_of_ne hb),
    fun s ⟨⟨ht, hf⟩, hb⟩ => mailed_of_mailbox (exec_vlogset base s) ht hf (beq_iff_eq.mpr hb),
    fun s ⟨⟨ht, hf⟩, hb⟩ => mailRefused_of_mailbox (exec_vlogset base s) ht (beq_false_of_ne hb),
    fun s ⟨hv, hb, hn⟩ => exec_prove hv hb hn, fun s ⟨⟨ht, hf⟩, ha, hr⟩ => mailed_of_mailbox rfl ht hf ?_,
    fun s ⟨⟨ht, hf⟩, ha, hr, hp⟩ => exec_recstop_idle ht ha hr hp, fun s ⟨⟨ht, hf⟩, ha⟩ => exec_recstop_armed ht hf ha,
    fun s ⟨⟨ht, hf⟩, ha, hr, hp, hx⟩ => exec_recstop_recording ht hf ha hr hp hx,
    fun s ⟨⟨ht, hf⟩, hlo, hhi⟩ => mailed_of_mailbox (exec_powercap watts s) ht hf (within_true hlo hhi),
    fun s ⟨⟨ht, hf⟩, hn⟩ => mailRefused_of_mailbox (exec_powercap watts s) ht (within_false hn),
    fun s ⟨ht, hf⟩ => mailed_of_mailbox rfl ht hf rfl, fun s ⟨⟨ht, hf⟩, hd⟩ => exec_dumprun_done ht hf hd,
    fun s ⟨⟨ht, hf⟩, hd⟩ => exec_dumprun_refused ht hd, fun s ⟨hv, hb, hi⟩ => ?_, fun s ⟨hv, hb, hi⟩ => ?_,
    fun s ⟨hv, hb⟩ => (exec_newManagementImage (.inl hb)).trans (congrArg _ (if_pos hv)),
    fun s ⟨⟨hd, hl, hh⟩, hok⟩ => exec_recordSnapshot_taken hd hl hh hok, fun s ⟨⟨hd, hl, hh⟩, hok⟩ =>
      exec_recordSnapshot_fails hd hl hh hok,
    fun s ⟨hx, hf, hc⟩ => exec_rerunImport hx hf hc, fun s hb => exec_rerunImport_context_there hb⟩
  · rw [hs, decide_eq_true hn]
    rfl
  · obtain h | h := hn
    · rw [decide_eq_false (Nat.not_le.mpr h), Bool.false_and]
    · rw [h, Bool.not_true, Bool.and_false]
  · rw [ha, hr]
    rfl
  · exact (exec_newManagementImage hb).trans
      (congrArg _ ((if_neg (ne_true_of_eq_false hv)).trans (if_neg (ne_true_of_eq_false hi))))
  · exact (exec_newManagementImage hb).trans (congrArg _ ((if_neg (ne_true_of_eq_false hv)).trans (if_pos hi)))

end Sys2Proof.Machine
end

section
/-! SUPPORT. The service processor and the debugger. -/

namespace Sys2Proof.Machine

open Sys2Proof Claims

/-! ### Reset and errors (R333, R437, R438, R441) -/

/-- The state at reset, before the image of the management processor is verified. -/
def unbooted (s : State) : State :=
  { State.reset with
    agenda := s.agenda, tick := s.tick,
    host := { State.reset.host with images := [], measures := [], verified := false } }

theorem exec_reset (s : State) : exec .reset s = .next (if imageOk 0 (Config.bootImage 0) then
    let r := takeImage (unbooted s) 0 (Config.bootImage 0)
    bootRest { r with host := { r.host with verified := true } } else unbooted s) := by
  show execReset s = _
  unfold execReset
  split <;> rfl

theorem poisonMemory_unowned {s : State} {pa : Nat} (h : (s.dir (pa / 4)).owner = none) : poisonMemory s pa =
    { s with mem := { s.mem with poison := sSet false s.mem.poison (pa / 32) true } } := by
  unfold poisonMemory
  rw [h]
  rfl

/-- The mark of a word that an L1 owns stands in that copy. -/
theorem poisonMemory_owned {s : State} {pa : Nat} {c : CuId} {x : L1Word} (h : (s.dir (pa / 4)).owner = some c)
    (hx : s.l1 c (pa / 4) = some x) : poisonMemory s pa = s.setL1 c (pa / 4) { x with poison := true } := by
  unfold poisonMemory
  rw [h, Option.bind_some, hx]
  rfl

theorem exec_uncorrectableError_copy {s : State} {c : CuId} {n : Nat} {x : L1Word} (hx : s.l1 c n = some x) :
    exec (.uncorrectableError (.copy c n)) s = .next (s.setL1 c n { x with poison := true }) := by
  show execUncorrectableError (.copy c n) s = _
  unfold execUncorrectableError
  simp only [hx]

/-! ### Sparing and retired frames (R331, R334, R429) -/

theorem exec_spareCu_dead {s : State} {die : Nat} (h : die ∉ s.host.dead) : exec (.spareCu die false) s =
    .next (raiseSvc { s with host := { s.host with dead := s.host.dead ++ [die] } } 0x40) := by
  have hc : ¬ s.host.dead.contains die = true := by
    rw [List.contains_iff_mem]
    exact h
  show execSpareCu die false s = _
  unfold execSpareCu
  simp only [Bool.false_eq_true, if_false, if_neg hc]

/-- With no context nothing maps a frame, so that none is evacuated. -/
theorem evacuate_of_no_context {s : State} (h : s.ctxs = []) (f : Nat) : evacuate s f = s := by
  have hm : mappersOf s f = [] := by rw [mappersOf, h, List.flatMap_nil]
  unfold evacuate
  extract_lets ms
  exact if_pos (by rw [show ms = [] from hm]; rfl)

theorem evacuate_all_of_no_context {s : State} (h : s.ctxs = []) (fs : List Nat) :
    fs.foldl (fun u i => evacuate u (framePa u i)) s = s := by
  induction fs with
  | nil => rfl
  | cons f fs ih => rw [List.foldl_cons, evacuate_of_no_context h, ih]

/-- With no context there is no event queue to post in. -/
theorem raiseSvc_of_no_context {s : State} (h : s.ctxs = []) (mask : Word) : raiseSvc s mask =
    { s with sup := { s.sup with svcreq := s.sup.svcreq ||| mask ||| 0x80000000 } } := by
  unfold raiseSvc
  simp only [h, List.foldl_nil, ite_self]

theorem exec_pseudoChannelRetire {s u : State} {frames : List Nat} (hc : s.ctxs = []) (hft : ftOn s = false)
    (hnew : frames = [] ∨ ∃ f ∈ frames, f ∉ s.host.retiredFrames)
    (hu : raiseSvc { s with host := { s.host with retiredFrames := (s.host.retiredFrames ++ frames).eraseDups } } 0x10 = u) :
    exec (.pseudoChannelRetire frames) s = .next u := by
  have hold : (!frames.isEmpty && frames.all s.host.retiredFrames.contains) = false := by
    obtain h | ⟨f, hf, hn⟩ := hnew
    · rw [h]
      rfl
    · have hall : frames.all s.host.retiredFrames.contains = false :=
        List.all_eq_false.mpr ⟨f, hf, by rw [List.contains_iff_mem]; exact hn⟩
      rw [hall, Bool.and_false]
  have hr := Eq.trans (Eq.symm (raiseSvc_of_no_context (by exact hc) _)) hu
  have hcu : u.ctxs = [] := by
    rw [← hr]
    exact hc
  have hfu : ftOn u = false := by
    rw [← hr]
    exact hft
  show execPseudoChannelRetire frames s = _
  unfold execPseudoChannelRetire
  simp only [hold, Bool.false_eq_true, if_false, hu, hfu]
  exact congrArg Host.Outcome.next (evacuate_all_of_no_context hcu _)

/-! ### Decode windows and the host's registers (R436, R443) -/

/-- Where no view is kept there is none to drop. -/
theorem dropViews_of_none {s : State} (h : s.mem.views.isEmpty = true) (f : Nat → Bool) : dropViews s f = s := by
  have hv : s.mem.views = [] := List.isEmpty_iff.mp h
  have hs : sFilter s.mem.views (fun a _ => !f a) = s.mem.views := by rw [hv]; rfl
  unfold dropViews
  rw [hs]

theorem exec_decodeWindow (p i : Fin 16) (win : BitVec 512) (s : State) : exec (.decodeWindow p i win) s = .next
    ((dropViews s fun a => winClaims (sGet 0 (s.plinth p.val).windows i.val) a || winClaims win a).modPlinth p.val fun x =>
      { x with windows := sSet 0 x.windows i.val win }) := by
  show Host.Outcome.next (setWindow s p.val i.val win) = _
  unfold setWindow
  extract_lets old u
  have hu : u = dropViews s fun a => winClaims old a || winClaims win a := by
    unfold u
    split
    · next h => exact (dropViews_of_none h _).symm
    · rfl
  rw [hu]

section

variable {s : State} {v : DWord} {n : Nat}

theorem exec_registerWrite_busy (hb : mbBusy s = true) : exec (.registerWrite 0 v) s = .next s := by
  refine congrArg Host.Outcome.next ?_
  unfold writeMbcmd
  exact if_pos hb

/-- A free mailbox takes a command that it knows, and answers another with an error. -/
theorem exec_registerWrite_mbcmd (hv : s.host.verified = true) (hb : mbBusy s = false) : exec (.registerWrite 0 v) s =
    .next (mbStat { s with host := { s.host with mbcmd := BitVec.ofNat 64 (bits v 31 0) } }
      (if 1 ≤ bits v 31 0 ∧ bits v 31 0 ≤ 10 then 1 else 0x80000001)) := by
  refine congrArg Host.Outcome.next ?_
  unfold writeMbcmd
  simp only [hb, hv, Bool.not_true, Bool.false_eq_true, if_false, Bool.and_eq_true, decide_eq_true_eq]
  split <;> rfl

variable (hv : s.host.verified = true)
include hv

theorem exec_registerWrite_mbarg (hn : n < 8) : exec (.registerWrite (0x40 + 8 * n) v) s =
    .next { s with host := { s.host with mbarg := sSet 0 s.host.mbarg n v } } := by
  have h0 : ((0x40 + 8 * n == 0) = true) = False := by simp
  have hr : (decide (0x40 ≤ 0x40 + 8 * n) && decide (0x40 + 8 * n < 0x80) && (0x40 + 8 * n) % 8 == 0) = true := by
    simp; omega
  have hi : (0x40 + 8 * n - 0x40) / 8 = n := by omega
  show execRegisterWrite _ v s = _
  unfold execRegisterWrite
  simp only [h0, hv, hr, hi, Bool.not_true, Bool.false_eq_true, if_false, if_true]

theorem exec_registerWrite_qbase (hn : n < 64) (ho : bit (s.hostq n).cfg 31 = false) :
    exec (.registerWrite (0x1000 + 32 * n) v) s =
    .next (s.setHostq n { s.hostq n with base := BitVec.ofNat 64 (bits v 63 12 * 4096) }) := by
  have h0 : ((0x1000 + 32 * n == 0) = true) = False := by simp
  have hr : (decide (0x40 ≤ 0x1000 + 32 * n) && decide (0x1000 + 32 * n < 0x80) && (0x1000 + 32 * n) % 8 == 0) = false := by
    simp; omega
  have hq : (decide (0x1000 ≤ 0x1000 + 32 * n) && decide (0x1000 + 32 * n < 0x1800)) = true := by
    simp; omega
  have hi : (0x1000 + 32 * n - 0x1000) / 32 = n := by omega
  have hm : (0x1000 + 32 * n) % 32 = 0 := by omega
  have hon : (s.hostq n).on = false := ho
  show execRegisterWrite _ v s = _
  unfold execRegisterWrite
  simp only [h0, hv, hr, hq, hi, hm, Bool.not_true, Bool.false_eq_true, if_false, if_true, beq_self_eq_true]
  unfold writeQbase
  rw [hv, hon]
  rfl

end

/-- Settles O48: every event of the service processor by what it writes, with no frame left to move where no context is there. -/
theorem serviceSteps : Obligations.ServiceSteps := by
  intro pa tile e off n l die g w c x frames p i win v
  refine ⟨fun s h => (exec_reset s).trans (congrArg _ (if_neg (ne_true_of_eq_false h))), fun s h =>
    (exec_reset s).trans (congrArg _ (if_pos h)),
    fun s h => congrArg Host.Outcome.next (poisonMemory_unowned h), fun s ⟨h, hx⟩ =>
      congrArg Host.Outcome.next (poisonMemory_owned h hx),
    fun s hx => exec_uncorrectableError_copy hx, fun s _ => rfl, fun s _ => rfl, fun s _ => rfl, fun s _ => rfl, fun s _ => rfl,
    fun s _ => rfl, fun s _ => rfl, fun s h => exec_spareCu_dead h, fun s ⟨hc, hft, hnew⟩ =>
      exec_pseudoChannelRetire hc hft hnew rfl,
    fun s _ => rfl, fun s _ => rfl, fun s _ => exec_decodeWindow p i win s, fun s _ => rfl,
    fun s ⟨hv, hb, hlo, hhi⟩ => (exec_registerWrite_mbcmd hv hb).trans ?_, fun s ⟨hv, hb, hn⟩ =>
      (exec_registerWrite_mbcmd hv hb).trans ?_,
    fun s hb => exec_registerWrite_busy hb, fun s ⟨hv, hn⟩ => exec_registerWrite_mbarg hv hn,
    fun s ⟨hv, hn, ho⟩ => exec_registerWrite_qbase hv hn ho⟩
  · rw [if_pos ⟨hlo, hhi⟩]
  · rw [if_neg (by omega)]

/-- A command of birfdb that is allowed at its prompt acts. -/
theorem exec_of_session {i : Instr} {s u : State} {ok : Bool} (hexec : exec i s = session s ok fun _ => u)
    (hp : atPrompt s = true) (hok : ok = true) : exec i s = .next u := by
  rw [hexec, session, hp, hok]
  rfl

/-! ### Stops and steps (R282, R366) -/

theorem exec_dbgBreakpointStop_break {s : State} {w : WarpId} {x : Warp} (hx : s.warp? w = some x) (hst : s.dbg.stepping = [])
    (hs : x.stopped = false) (hb : atBreak s w x.atTurn = true) : exec (.dbgBreakpointStop w) s =
      .next (stopWarp s w x.atTurn) := by
  have hc : ¬ s.dbg.stepping.contains (w, 0) = true := by
    rw [hst]
    exact Bool.false_ne_true
  have hgo : (!x.stopped && atBreak s w x.atTurn) = true := by rw [hs, hb]; rfl
  show execDbgBreakpointStop w s = _
  unfold execDbgBreakpointStop
  simp only [hx]
  exact (if_neg hc).trans (congrArg _ (if_pos hgo))

theorem exec_dbgBreakpointStop_step {s : State} {w : WarpId} {x : Warp} (hx : s.warp? w = some x) (hst : (w, 0) ∈ s.dbg.stepping)
    (hd : destsWritten s w x = true) (hh : x.hold ≠ .idle) : exec (.dbgBreakpointStop w) s = .next (stopWarp s w x) := by
  have hc : s.dbg.stepping.contains (w, 0) = true := List.contains_iff_mem.mpr hst
  have hgo : (destsWritten s w x && x.hold != .idle) = true := by rw [hd, bne_iff_ne.mpr hh]; rfl
  show execDbgBreakpointStop w s = _
  unfold execDbgBreakpointStop
  simp only [hx]
  exact (if_pos hc).trans (congrArg _ (if_pos hgo))

/-- The selected warp, where it is stopped, goes on for `n` instructions. -/
theorem exec_dbgStep {s : State} {n : Nat} {w : WarpId} (hp : atPrompt s = true) (hn : n ≠ 0) (hsel : s.dbg.selected = some w)
    (hw : w ∈ stoppedOn s none) : exec (.dbgStep n none) s =
      .next (let u := goOn s w
        { u with dbg := { u.dbg with
            selected := some w, stepping := (w, n) :: u.dbg.stepping.filter fun q => q.1 != w, stop := false } }) := by
  have hany : s.dbg.selected.any (stoppedOn s none).contains = true := by
    rw [hsel]
    exact List.contains_iff_mem.mpr hw
  refine exec_of_session (ok := n != 0) ?_ hp (bne_iff_ne.mpr hn)
  show execDbgStep n none s = _
  unfold execDbgStep
  rw [hsel] at hany
  simp only [hsel, hany, if_true]
  rfl

theorem exec_dbgPromptReturn_over {s : State} {n : Nat} (hp : atPrompt s = true) (hl : s.dbg.launched = some n)
    (hn : sFind? s.launches n = none) : exec .dbgPromptReturn s =
      .next { s with dbg := { s.dbg with stop := false, launched := none } } := by
  have hdone : (s.dbg.launched.any fun l => (sFind? s.launches l).isNone) = true := by
    rw [hl, Option.any_some, hn]
    rfl
  refine exec_of_session (ok := true) ?_ hp rfl
  show execDbgPromptReturn s = _
  unfold execDbgPromptReturn
  rw [hdone]
  rfl

/-- The prompt returns 1,400,000 fc after the last stop, too. -/
theorem exec_dbgPromptReturn_late {s : State} (hp : atPrompt s = true) (hl : s.dbg.launched = none) (hs : s.dbg.stop = true)
    (hlate : s.dbg.lastEvt + 1400000 ≤ s.fc) : exec .dbgPromptReturn s =
      .next { s with dbg := { s.dbg with stop := false } } := by
  have hdone : (s.dbg.launched.any fun l => (sFind? s.launches l).isNone) = false := by rw [hl]; rfl
  have hok : (false || (s.dbg.stop && decide (s.dbg.lastEvt + 1400000 ≤ s.fc))) = true := by
    rw [hs, decide_eq_true hlate]
    rfl
  refine exec_of_session ?_ hp hok
  show execDbgPromptReturn s = _
  unfold execDbgPromptReturn
  rw [hdone]
  rfl

/-! ### Loading and launching (R281, R283) -/

theorem exec_dbgLoad {s t : State} {im : Image} {entries : List Nat} (hp : atPrompt s = true)
    (hl : hasLaunch s (dbgTag s) = false) (hf : imageFits im = true)
    (ht : placeImage ((s.dbg.images.filter fun q => q.1 == dbgTag s && q.2.1.file == im.file).foldl
      (fun u q => unloadImage u (dbgTag s) q.2.1 q.2.2) s) (dbgTag s) im = some (t, entries)) :
    exec (.dbgLoad im) s = .next (note { t with dbg := { t.dbg with
        images := (dbgTag s, im, entries) :: s.dbg.images.filter fun q => !(q.1 == dbgTag s && q.2.1.file == im.file) } }
      [7, im.textVa.toNat, im.dataVa.toNat, im.data.length]) := by
  have hok : (!hasLaunch s (dbgTag s) && imageFits im) = true := by rw [hl, hf]; rfl
  show execDbgLoad im s = _
  unfold execDbgLoad
  simp only [ht, session, hp, hok, Bool.and_self, if_true]

theorem exec_dbgLaunch {s : State} {rx ry rw rh side dl k : Nat} {sides dlc : Option Nat} {im : Image} {hq : HostQ}
    (hp : atPrompt s = true) (hsd : sides.getD 1 = side) (hdl : dlc.getD 14000000 = dl) (hw : 1 ≤ rw ∧ rw ≤ 48)
    (hh : 1 ≤ rh ∧ rh ≤ 16) (hx : rx < 48) (hy : ry < 16) (hs : side = 1 ∨ side = 2 ∨ side = 4 ∨ side = 8) (hd : dl < 2 ^ 48)
    (him : dbgImage s = some im) (hqu : dbgQueue s (dbgTag s) = some (k, hq)) :
    exec (.dbgLaunch rx ry rw rh sides dlc) s = .next (
      let va := dbgPage + 1024
      let u := ringEntry (virtWrite s (dbgTag s) va (dbgRecord s im rx ry rw rh side dl)) k hq va
      { u with dbg := { u.dbg with submitted := some (k, hq.tail), stop := false } }) := by
  have hside : [1, 2, 4, 8].contains side = true := by
    obtain h | h | h | h := hs <;> rw [h] <;> rfl
  have hok : (decide (1 ≤ rw) && decide (rw ≤ 48) && decide (1 ≤ rh) && decide (rh ≤ 16) && decide (rx < 48) && decide (ry < 16)
      && [1, 2, 4, 8].contains side && decide (dl < 2 ^ 48)) = true := by
    rw [decide_eq_true hw.1, decide_eq_true hw.2, decide_eq_true hh.1, decide_eq_true hh.2, decide_eq_true hx, decide_eq_true hy,
      decide_eq_true hd, hside]
    rfl
  show execDbgLaunch rx ry rw rh sides dlc s = _
  unfold execDbgLaunch
  simp only [him, hqu, hsd, hdl, session, hp, hok, Bool.and_self, if_true]

/-! ### Holds and traces (R337, R338, R400, R456) -/

theorem exec_dbgDelete {s : State} {ns : List Nat} (hp : atPrompt s = true)
    (hk : ∀ m ∈ ns, (∃ b ∈ s.dbg.breaks, b.1 = m) ∨ ∃ c ∈ s.dbg.catches, c.1 = m) : exec (.dbgDelete ns) s =
      .next { s with dbg := { s.dbg with
        breaks := s.dbg.breaks.filter fun b => !ns.contains b.1, catches := s.dbg.catches.filter fun c =>
          !ns.contains c.1 } } := by
  have hall : ns.all ((s.dbg.breaks.map fun b => b.1) ++ s.dbg.catches.map fun c => c.1).contains = true := by
    refine List.all_eq_true.mpr fun m hm => List.contains_iff_mem.mpr (List.mem_append.mpr ?_)
    exact (hk m hm).imp (fun ⟨b, hb, h⟩ => List.mem_map.mpr ⟨b, hb, h⟩) fun ⟨c, hc, h⟩ => List.mem_map.mpr ⟨c, hc, h⟩
  exact exec_of_session (ok := ns.all ((s.dbg.breaks.map fun b => b.1) ++ s.dbg.catches.map fun c => c.1).contains) rfl hp hall

/-- Some entry of a numbered list has the number. -/
theorem any_numbered {α : Type} {l : List (Nat × α)} {n : Nat} (h : ∃ q ∈ l, q.1 = n) : (l.any fun q => q.1 == n) = true := by
  obtain ⟨q, hq, hn⟩ := h
  exact List.any_eq_true.mpr ⟨q, hq, beq_iff_eq.mpr hn⟩

theorem exec_dbgUnhold_trigger {s : State} {n : Nat} (hp : atPrompt s = true) (hn : ∃ h ∈ s.dbg.trigHolds, h.1 = n) :
    exec (.dbgUnhold n) s =
      .next { s with dbg := { s.dbg with trigHolds := s.dbg.trigHolds.filter fun h => h.1 != n } } := by
  refine exec_of_session (ok := true) ?_ hp rfl
  show execDbgUnhold n s = _
  unfold execDbgUnhold
  rw [any_numbered hn]
  rfl

theorem exec_dbgUnhold_store {s : State} {n : Nat} (hp : atPrompt s = true) (hno : ∀ h ∈ s.dbg.trigHolds, h.1 ≠ n)
    (hn : ∃ h ∈ s.dbg.holds, h.1 = n) : exec (.dbgUnhold n) s =
      .next (let u := { s with dbg := { s.dbg with
          holds := s.dbg.holds.filter (fun h => h.1 != n), told := s.dbg.told.filter fun q => q.2 != n } }
        { u with reqs := u.reqs.map fun f => if f.2.dbgHold then (f.1, heldStore u f.2) else f }) := by
  have hnone : (s.dbg.trigHolds.any fun h => h.1 == n) = false :=
    List.any_eq_false.mpr fun h hm => by rw [beq_iff_eq]; exact hno h hm
  refine exec_of_session (ok := s.dbg.holds.any fun h => h.1 == n) ?_ hp (any_numbered hn)
  show execDbgUnhold n s = _
  unfold execDbgUnhold
  rw [hnone]
  rfl

/-- A held trigger is let go, out of its spill where it is spilled. -/
theorem exec_dbgRelease {s : State} {addr : Addr} {k : Nat} {tr : Trigger} {g : Region} (hp : atPrompt s = true)
    (ht : trigAt s (dbgTag s) addr = some (k, tr, g)) : exec (.dbgRelease addr) s =
      .next (let u := if tr.spilled then unspill s k tr g else s
        offer { u with dbg := { u.dbg with
          released := (k, g.tag) :: u.dbg.released, awaits := some (k, tr.region, (tr.granule - g.base).toNat) } } k) := by
  refine exec_of_session (ok := true) ?_ hp rfl
  show execDbgRelease addr s = _
  unfold execDbgRelease
  simp only [ht]
  rfl

/-! ### Pages and pre-emption (R380, R382, R383) -/

section

variable {s : State} {addr : Addr} {on : Bool} {e : BitVec 64} {a lv : Nat} (hp : atPrompt s = true)
  (hl : hasLaunch s (dbgTag s) = false) (hal : addr.toNat % 65536 = 0) (hw : walk s (dbgTag s) addr = .leaf e a lv)

/-- The entry of one page with its bit SM set or cleared, and the page gone from the translations. -/
def smWritten (s : State) (addr : Addr) (e : BitVec 64) (a : Nat) (on : Bool) : State :=
  tlbDropPage (putPte s a (setField e.toNat 5 5 (if on then 1 else 0))) (dbgTag s) addr

include hp hl hal hw

/-- The pages of another package that the command would purge. -/
def smFar (s : State) (addr : Addr) (e : BitVec 64) (lv : Nat) : List Nat :=
  if pteTier e < 2 && spaceOf s (leafPa s e lv addr false / 65536 * 65536) == .far
    then [leafPa s e lv addr false / 65536 * 65536] else []

theorem exec_dbgPteSm : exec (.dbgPteSm addr 1 on) s = .next (
    if ((smFar s addr e lv).any fun pa => farDirtyIn s pa 65536) = true then
      (smFar s addr e lv).foldl (fun s pa => sendFar s pa 65536) s
    else if pteTier e < 2 then
      purgeRange (smWritten s addr e a on) (leafPa (smWritten s addr e a on) e lv addr false / 65536 * 65536) 65536
    else smWritten s addr e a on) := by
  have hpages : ((List.range 1).map fun k => addr + BitVec.ofNat 64 (65536 * k)) = [addr] := by
    rw [show List.range 1 = [0] from rfl, List.map_singleton, Nat.mul_zero]
    exact congrArg (· :: []) (BitVec.add_zero addr)
  show execDbgPteSm addr 1 on s = _
  unfold execDbgPteSm smFar session
  rw [hpages]
  cases hb : pteTier e < 2 && spaceOf s (leafPa s e lv addr false / 65536 * 65536) == .far <;>
    simp only [hp, hl, hal, hw, List.all_cons, List.all_nil, List.filterMap_cons, List.filterMap_nil, hb, List.foldl_cons,
      List.foldl_nil, Bool.not_false, beq_self_eq_true, Bool.false_eq_true, if_false, if_true, Bool.and_true] <;> rfl

/-- A page that is not in this package's or another's frames is written only. -/
theorem exec_dbgPteSm_untiered (h2 : 2 ≤ pteTier e) : exec (.dbgPteSm addr 1 on) s = .next (smWritten s addr e a on) := by
  have hno : ¬ pteTier e < 2 := Nat.not_lt.mpr h2
  have hfar : smFar s addr e lv = [] := by
    unfold smFar
    rw [decide_eq_false hno]
    rfl
  refine (exec_dbgPteSm hp hl hal hw).trans (congrArg _ ?_)
  rw [hfar]
  exact if_neg hno

/-- A page's copies leave the caches with its entry. -/
theorem exec_dbgPteSm_purges (h2 : pteTier e < 2) (hf : spaceOf s (leafPa s e lv addr false / 65536 * 65536) ≠ .far
      ∨ farDirtyIn s (leafPa s e lv addr false / 65536 * 65536) 65536 = false) : exec (.dbgPteSm addr 1 on) s =
    .next (purgeRange (smWritten s addr e a on) (leafPa (smWritten s addr e a on) e lv addr false / 65536 * 65536) 65536) := by
  have hno : ((smFar s addr e lv).any fun pa => farDirtyIn s pa 65536) = false := by
    unfold smFar
    obtain h | h := hf
    · rw [beq_false_of_ne h, Bool.and_false]
      rfl
    · split
      · rw [List.any_cons, h]
        rfl
      · rfl
  refine (exec_dbgPteSm hp hl hal hw).trans (congrArg _ ?_)
  rw [hno]
  exact if_pos h2

/-- Bytes that another package's home lacks are sent first. -/
theorem exec_dbgPteSm_sends (h2 : pteTier e < 2) (hf : spaceOf s (leafPa s e lv addr false / 65536 * 65536) = .far)
    (hd : farDirtyIn s (leafPa s e lv addr false / 65536 * 65536) 65536 = true) : exec (.dbgPteSm addr 1 on) s =
    .next (sendFar s (leafPa s e lv addr false / 65536 * 65536) 65536) := by
  have hfar : smFar s addr e lv = [leafPa s e lv addr false / 65536 * 65536] := by
    unfold smFar
    rw [decide_eq_true h2, hf]
    rfl
  refine (exec_dbgPteSm hp hl hal hw).trans (congrArg _ ?_)
  rw [hfar, List.any_cons, hd]
  rfl

end

section

variable {s : State} {cu : CuId} {gid : GroupId} {gr : Group} (hp : atPrompt s = true)
  (hg : (s.groups.find? fun f => cuOf f.1 == cu && f.2.tag == dbgTag s && !f.2.retired && !isCurator cu) = some (gid, gr))

include hp in
theorem not_moving_at_prompt : s.dbg.moving.isNone = true := by
  unfold atPrompt at hp
  simp only [Bool.and_eq_true] at hp
  exact hp.1.2

include hp hg

/-- A group is asked to stop with its cluster, for a place where it fits. -/
theorem exec_dbgPreempt {dest : Option CuId} (hc : (dest.getD cu == cu
      || (movedRooms s ((clusterOf s gid).filterMap fun h =>
        (s.group? h).map fun x => snapshot s h x) gid (dest.getD cu)).isSome) = true) :
    exec (.dbgPreempt cu dest) s = .next (
      let u := (clusterOf s gid).foldl (fun s h => askStop s h true) s
      { u with dbg := { u.dbg with moving := some ⟨gid, dest.getD cu, gr.tag, none⟩ } }) := by
  have hok := (Bool.and_eq_true ..).mpr ⟨hc, not_moving_at_prompt hp⟩
  refine exec_of_session ?_ hp hok
  show execDbgPreempt cu dest s = _
  unfold execDbgPreempt
  simp only [hg]
  rfl

end

/-- Settles O49: every command acts on the session at the prompt, by `exec_of_session`, and a stop on the warp that it names. -/
theorem debugSteps : Obligations.DebugSteps := by
  intro w x tag im ws rx ry rw' rh n k sides dlc cu addr ns entries t tr g gid gr e a lv hq on number side dl mine
    under pages fits mates
  refine ⟨fun s ⟨hx, hst, hs, hb⟩ => exec_dbgBreakpointStop_break hx hst hs hb,
    fun s ⟨hx, hst, hd, hh⟩ => exec_dbgBreakpointStop_step hx hst hd hh, fun s h => congrArg Host.Outcome.next (if_pos h),
    fun s ⟨hp, hl, hf, ht⟩ => exec_dbgLoad hp hl hf ht, fun s ⟨hp, h8, hw⟩ => ?_,
    fun s ⟨hp, h1, h48, hh1, hh16, hx, hy, hs, hd, him, hqu⟩ =>
      exec_dbgLaunch hp rfl rfl ⟨h1, h48⟩ ⟨hh1, hh16⟩ hx hy hs hd him hqu,
    fun s ⟨hp, hn, hsel, hw⟩ => exec_dbgStep hp hn hsel hw, fun c s hp => exec_of_session (ok := true) rfl hp rfl,
    fun s ⟨hp, hl, hn⟩ => exec_dbgPromptReturn_over hp hl hn, fun s ⟨hp, hl, hs, hlate⟩ =>
      exec_dbgPromptReturn_late hp hl hs hlate,
    fun s ⟨hp, hc⟩ => exec_of_session (ok := decide (cu < 768)) rfl hp (decide_eq_true hc),
    fun s ⟨hp, hc⟩ => exec_of_session (ok := decide (n < 256)) rfl hp (decide_eq_true hc), fun s ⟨hp, hk⟩ => exec_dbgDelete hp hk,
    fun s ⟨hp, hc, hal⟩ => exec_of_session (ok := decide (cu < 768) && addr.toNat % 4 == 0) rfl hp ?_,
    fun s ⟨hp, hn⟩ => exec_dbgUnhold_trigger hp hn, fun s ⟨hp, hno, hn⟩ => exec_dbgUnhold_store hp hno hn,
    fun s hp => exec_of_session (ok := true) rfl hp rfl, fun s ⟨hp, ht, hs⟩ => (exec_dbgRelease hp ht).trans ?_,
    fun s ⟨hp, ht, hs⟩ => (exec_dbgRelease hp ht).trans ?_, fun s hp => exec_of_session (ok := true) rfl hp rfl,
    fun s ⟨hp, hn⟩ => exec_of_session (ok := s.dbg.traces.any fun q => q.1 == n) rfl hp (any_numbered hn),
    fun b s ⟨hp, hl, hal, hw, h2⟩ => exec_dbgPteSm_untiered hp hl hal hw h2,
    fun b s ⟨hp, hl, hal, hw, h2, hf⟩ => exec_dbgPteSm_purges hp hl hal hw h2 hf,
    fun b s ⟨hp, hl, hal, hw, h2, hf, hd⟩ => exec_dbgPteSm_sends hp hl hal hw h2 hf hd,
    fun s ⟨hp, hg⟩ => exec_dbgPreempt (dest := none) hp hg ?_, fun c s ⟨hp, hg, hc⟩ => exec_dbgPreempt (dest := some c) hp hg ?_⟩
  · refine exec_of_session (ok := decide ((argWords ws).length ≤ 8) && ws.all fun w =>
      w.2 || decide (w.1.toNat < 2 ^ 32)) rfl hp ?_
    rw [decide_eq_true h8, Bool.true_and, List.all_eq_true]
    intro q hq
    rw [Bool.or_eq_true, decide_eq_true_iff]
    exact hw q hq
  · rw [decide_eq_true hc, hal]
    rfl
  · rw [if_neg (ne_true_of_eq_false hs)]
  · rw [if_pos hs]
  · rw [Option.getD_none, beq_self_eq_true, Bool.true_or]
  · rw [Option.getD_some, Bool.or_eq_true, beq_iff_eq]
    exact hc

theorem all_word_aligned {as : List Addr} (h : ∀ a ∈ as, a.toNat % 4 = 0) : (as.all fun a => a.toNat % 4 == 0) = true :=
  List.all_eq_true.mpr fun a ha => beq_iff_eq.mpr (h a ha)

section

variable {s : State} (hp : atPrompt s = true)
include hp

/-- The registers of the selected warp are printed while it is stopped. -/
theorem exec_dbgPrint {w : WarpId} {x : Warp} {g : Group} {rs : List DbgReg} (hsel : s.dbg.selected = some w)
    (hx : s.warp? w = some x) (hst : x.stopped = true) (hg : s.group? (gidOf w) = some g)
    (hk : ∀ q ∈ rs, DbgReg.known g x q = true) : exec (.dbgPrint rs) s = .next (note s (11 :: rs.flatMap (regValues w x))) := by
  have hb : (s.dbg.selected.bind fun w => (s.warp? w).map fun x => (w, x)) = some (w, x) := by
    rw [hsel, Option.bind_some, hx, Option.map_some]
  have hok : (x.stopped && (s.group? (gidOf w)).any fun g => rs.all (DbgReg.known g x)) = true := by
    rw [hst, hg, Option.any_some, List.all_eq_true.mpr hk]
    rfl
  refine exec_of_session ?_ hp hok
  show execDbgPrint rs s = _
  unfold execDbgPrint
  simp only [hb]
  rfl

/-- Words that this package can answer for are printed at once. -/
theorem exec_dbgXW_prints {as : List Addr} (hal : ∀ a ∈ as, a.toNat % 4 = 0) (hf : farWords s (dbgTag s) as = []) :
    exec (.dbgXW as) s = .next (note s (12 :: as.flatMap (wordLine s (dbgTag s)))) := by
  show execDbgXW as s = _
  unfold execDbgXW
  simp only [session, hp, all_word_aligned hal, hf, Bool.and_self, if_true, List.filter_nil, List.isEmpty_nil]

/-- A word of another package is asked for first. -/
theorem exec_dbgXW_asks {as : List Addr} {pa : Nat} (hal : ∀ a ∈ as, a.toNat % 4 = 0) (hf : farWords s (dbgTag s) as = [pa])
    (hn : askedBytes s 34 pa = none) : exec (.dbgXW as) s = .next (askBytes s 34 pa) := by
  have hl : ([pa].filter fun pa => (askedBytes s 34 pa).isNone) = [pa] := by
    rw [List.filter_cons_of_pos (by rw [hn]; rfl), List.filter_nil]
  show execDbgXW as s = _
  unfold execDbgXW
  simp only [session, hp, all_word_aligned hal, hf, hl, Bool.and_self, if_true, List.isEmpty_cons, Bool.false_eq_true, if_false,
    List.foldl_cons, List.foldl_nil]

theorem exec_dbgFrame {t : Option Tag} {va : Addr} {pa i : Nat} (hpa : physOf s (t.getD (dbgTag s)) va = some pa)
    (hi : frameIdx s (pa / 65536 * 65536) = some i) : exec (.dbgFrame t va) s = .next (note s [15, framePa s i, ftGet s i]) := by
  have hb : ((physOf s (t.getD (dbgTag s)) va).bind fun pa => frameIdx s (pa / 65536 * 65536)) = some i := by
    rw [hpa, Option.bind_some, hi]
  show execDbgFrame t va s = _
  unfold execDbgFrame
  simp only [session, hp, hb, Bool.and_self, if_true]

/-- An element of a region is printed with its limit, where no CU holds its line. -/
theorem exec_dbgAcc {va : Addr} {pa : Nat} (hpa : physOf s (dbgTag s) va = some pa) (he : (accEnt s pa).isSome = true)
    (h8 : pa % 8 = 0) (hh : (s.holder (pa / 128)).list = []) : exec (.dbgAcc va) s =
      .next (note s [17, va.toNat, (BitVec.ofInt 64 (elemAt s pa)).toNat, 0, (s.holder (pa / 128)).limit,
        if (s.holder (pa / 128)).unbounded then 1 else 0]) := by
  show execDbgAcc va s = _
  unfold execDbgAcc
  simp only [hpa, session, hp, he, h8, hh, beq_self_eq_true, Bool.and_self, if_true, List.flatMap_nil, List.append_nil,
    List.length_nil]

/-- A region without pending triggers has one line. -/
theorem exec_dbgPending {r : Nat} {g : Region} (hr : sFind? s.regions r = some g) (hn : ∀ e ∈ s.trigs, e.2.region ≠ r) :
    exec (.dbgPending r) s = .next (note s [18, r, g.pend.toNat, g.run.toNat]) := by
  have hf : (s.trigs.filter fun e => e.2.region == r) = [] :=
    List.filter_eq_nil_iff.mpr fun e he => ne_true_of_eq_false (beq_false_of_ne (hn e he))
  show execDbgPending r s = _
  unfold execDbgPending
  simp only [hr, session, hp, hf, Bool.and_self, if_true, List.flatMap_nil, List.append_nil]

end

/-- Settles O50: every command prints by `note`, but for a word of another package, which is asked for. -/
theorem debugPrints : Obligations.DebugPrints := by
  intro w x rs as cu tag va d i r pa g on mine
  exact ⟨fun s ⟨hp, hsel, hx, hst, h, hg, hk⟩ => exec_dbgPrint hp hsel hx hst hg hk, fun s ⟨hp, hal, hf⟩ =>
    exec_dbgXW_prints hp hal hf,
    fun s ⟨hp, hal, hf, hn⟩ => exec_dbgXW_asks hp hal hf hn,
    fun s ⟨hp, hal⟩ => exec_of_session (ok := as.all fun a => a.toNat % 4 == 0) rfl hp (all_word_aligned hal),
    fun s hp => exec_of_session (ok := true) rfl hp rfl, fun s ⟨hp, hpa, hi⟩ => exec_dbgFrame hp hpa hi,
    fun s ⟨hp, hd⟩ => exec_of_session (ok := decide (d < 8)) rfl hp (decide_eq_true hd),
    fun s ⟨hp, hpa, he, h8, hh⟩ => exec_dbgAcc hp hpa he h8 hh, fun s ⟨hp, hr, hn⟩ => exec_dbgPending hp hr hn⟩

end Sys2Proof.Machine
end

section
/-! SUPPORT. Memory stays in canonical form: operations on memory and at the homes. -/

namespace Sys2Proof.Machine

open Sys2Proof Claims

/-! ### The invariant, in terms of the memory alone -/

/-- A memory in canonical form: what `State.memWf` says of a state. -/
def Canon (m : Mem) : Prop := Memory.wf m = true

theorem canon_iff {m : Mem} : Canon m ↔
    sWf (0 : Byte) m.bytes = true ∧ sSortedFrom 0 m.msc = true ∧ sSortedFrom 0 m.l2 = true ∧ sWf (0 : BitVec 3) m.rel = true
      ∧ sWf false m.poison = true ∧ sWf (0 : Byte) m.dev = true := by
  simp [Canon, Memory.wf, and_assoc]

/-- The other tables of memory are free. -/
theorem canon_otherTables {m : Mem} {dir : Store Dir} {wide : Store (BitVec 8)} {views : Store (Byte × Bool)}
    {prox : Store ProxyWord}
    {accProx : Store ProxyLine} (h : Canon m) :
    Canon { m with dir := dir, wide := wide, views := views, prox := prox, accProx := accProx } := h

/-! ### How the shapes of the model's functions keep it -/

theorem canon_ite {c : Prop} [Decidable c] {a b : State} (ha : Canon a.mem) (hb : Canon b.mem) :
    Canon (if c then a else b).mem := by
  split
  · exact ha
  · exact hb

theorem canon_foldl {α : Type} {f : State → α → State} {l : List α} {s : State}
    (hf : ∀ {s : State} {a : α}, Canon s.mem → Canon (f s a).mem) (h : Canon s.mem) : Canon (l.foldl f s).mem :=
  foldl_keeps (P := fun s : State => Canon s.mem) l (fun _ hs _ => hf hs) h

/-- The state that a function answers beside a value, named. -/
theorem canon_of_snd {α : Type} {p : α × State} {a : α} {t : State} (hp : p = (a, t)) (h : Canon p.2.mem) : Canon t.mem := by
  subst hp
  exact h

/-- An instruction's effect leaves memory in canonical form. -/
def Res.Canon : Res → Prop
  | .ok t _ _ _ => Machine.Canon t.mem
  | .hold _ t => Machine.Canon t.mem
  | .trap .. => True

/-- A step answers a next state, whose memory is in canonical form where the memory before the step was. -/
def Lands (s : State) (o : Host.Outcome State Fault Refusal) : Prop := ∃ t, o = .next t ∧ (Canon s.mem → Canon t.mem)

theorem lands_next {s t : State} (h : Canon s.mem → Canon t.mem) : Lands s (.next t) := ⟨t, rfl, h⟩

theorem lands_ite {c : Prop} [Decidable c] {s : State} {a b : Host.Outcome State Fault Refusal}
    (ha : Lands s a) (hb : Lands s b) :
    Lands s (if c then a else b) := by
  split
  · exact ha
  · exact hb

theorem canon_noteEvt {s : State} {ws : List Nat} (h : Canon s.mem) : Canon (noteEvt s ws).mem := h

theorem canon_noteTag {s : State} {w : WarpId} {num : Nat} {tag : BitVec 3} (h : Canon s.mem) :
    Canon (noteTag s w num tag).mem := by
  unfold noteTag
  split <;> exact h

theorem mem_violate {s : State} {kind cause : Nat} {tag : Tag} {addr src : Nat} :
    (violate s kind cause tag addr src).mem = s.mem := by
  rw [violate]

theorem canon_violate {s : State} {kind cause : Nat} {tag : Tag} {addr src : Nat} (h : Canon s.mem) :
    Canon (violate s kind cause tag addr src).mem := by
  rw [mem_violate]
  exact h

theorem canon_logMerged {s : State} {w : WarpId} {a : Async} (h : Canon s.mem) : Canon (logMerged s w a).mem := by
  unfold logMerged
  split
  · exact h
  · split
    · exact h
    · split
      · exact canon_violate h
      · exact h

theorem canon_addAsync {s : State} {w : WarpId} {a : Async} (h : Canon s.mem) : Canon (addAsync s w a).mem :=
  canon_logMerged h

theorem canon_leaveDie {s : State} {die pkg : Nat} (h : Canon s.mem) : Canon (leaveDie s die pkg).2.mem := by
  unfold leaveDie
  split <;> exact h

theorem canon_sendOut {s : State} {key pkg die : Nat} (h : Canon s.mem) : Canon (sendOut s key pkg die).2.mem := by
  unfold sendOut
  split
  · exact h
  · split
    · next e =>
      have ht := canon_of_snd e (canon_leaveDie h)
      exact ht
    · next e => exact canon_of_snd e (canon_leaveDie h)

theorem canon_setStoreByte {s : State} {pa : Nat} {b : Byte} (h : Canon s.mem) : Canon (setStoreByte s pa b).mem :=
  setStoreByte_memWf h pa b

theorem canon_keepView {s : State} {pa n : Nat} (h : Canon s.mem) : Canon (keepView s pa n).mem := by
  unfold keepView
  split <;> exact h

theorem canon_dropViews {s : State} {f : Nat → Bool} (h : Canon s.mem) : Canon (dropViews s f).mem := h

theorem canon_setHomeByte {s : State} {pa : Nat} {b : Byte} (h : Canon s.mem) : Canon (setHomeByte s pa b).mem :=
  setHomeByte_memWf h pa b

theorem canon_setDir {s : State} {word : Nat} {d : Dir} (h : Canon s.mem) : Canon (State.setDir s word d).mem := h

theorem canon_setRelTag {s : State} {word : Nat} {t : BitVec 3} (h : Canon s.mem) : Canon (State.setRelTag s word t).mem :=
  setRelTag_memWf h word t

theorem canon_setPoison {s : State} {sector : Nat} {b : Bool} (h : Canon s.mem) : Canon (State.setPoison s sector b).mem :=
  setPoison_memWf h sector b

theorem canon_setL1 {s : State} {c : CuId} {word : Nat} {x : L1Word} (h : Canon s.mem) : Canon (State.setL1 s c word x).mem :=
  h

theorem canon_dropL1 {s : State} {c : CuId} {word : Nat} (h : Canon s.mem) : Canon (State.dropL1 s c word).mem := h

theorem canon_rawRecall {s : State} {w : Nat} (h : Canon s.mem) : Canon (rawRecall s w).mem := by
  unfold rawRecall
  extract_lets d u t
  have hu : Canon u.mem := by
    unfold u
    split
    · exact canon_dropL1 (canon_foldl (fun hs => canon_ite (canon_setHomeByte hs) hs) h)
    · exact h
  have ht : Canon t.mem := canon_foldl canon_dropL1 hu
  exact canon_ite ht (canon_setDir ht)

theorem canon_rawWrite {s : State} {pa : Nat} {bs : List Byte} (h : Canon s.mem) : Canon (rawWrite s pa bs).mem :=
  canon_foldl (fun hs => canon_setRelTag (canon_setHomeByte (canon_rawRecall hs))) h

theorem canon_rawWriteNat {s : State} {pa x n : Nat} (h : Canon s.mem) : Canon (rawWriteNat s pa x n).mem := canon_rawWrite h

theorem canon_addChange {s : State} {r : Nat} {p q : Int} (h : Canon s.mem) : Canon (addChange s r p q).mem := h

theorem canon_setSpillBit {s : State} {r : Region} {gran : Addr} {unit : Nat} {b : Bool} (h : Canon s.mem) :
    Canon (setSpillBit s r gran unit b).mem := by
  unfold setSpillBit
  split
  · exact h
  · exact canon_setHomeByte (canon_rawRecall h)

theorem canon_cascadeLog {s : State} {gran : Addr} {depth : Nat} {notrap : Bool} (h : Canon s.mem) :
    Canon (cascadeLog s gran depth notrap).mem := canon_rawWriteNat (canon_rawWriteNat h)

theorem canon_changed {s : State} {r : Nat} {g : Region} {gran : Addr} {gpa : Nat} {wr : Writer} (h : Canon s.mem) :
    Canon (changed s r g gran gpa wr).mem := by
  unfold changed
  split
  · extract_lets notrap u
    have hu : Canon u.mem := canon_cascadeLog h
    split
    · exact canon_addAsync hu
    · exact hu
  · extract_lets u sp
    split
    · split <;> exact h
    · split
      next k v e =>
      have hv : Canon v.mem := canon_of_snd e h
      refine canon_ite (canon_setSpillBit ?_) (canon_addChange ?_) <;> exact hv

theorem canon_homeWrite {s : State} {bs : Bytes} {tag : Option (BitVec 3)} (h : Canon s.mem) : Canon (homeWrite s bs tag).mem :=
  homeWrite_memWf h bs tag

theorem canon_note {s : State} {ws : List Nat} (h : Canon s.mem) : Canon (note s ws).mem := h

theorem canon_traceCommit {s t : State} {bs : Bytes} {wr : Writer} (h : Canon t.mem) : Canon (traceCommit s bs wr t).mem := by
  unfold traceCommit
  split
  · exact h
  · refine canon_foldl (fun hs => ?_) h
    dsimp only
    split
    · exact hs
    · exact canon_note hs

theorem canon_commitOver {fuel : Nat} {old s : State} {bs : Bytes} {wr : Writer} (h : Canon s.mem) :
    Canon (commitOver fuel old s bs wr).mem := by
  induction fuel generalizing old s bs wr with
  | zero => exact h
  | succ fuel ih =>
    refine canon_traceCommit (canon_foldl (fun {s} {e} hs => ?_) h)
    split
    · refine canon_ite ?_ (canon_changed hs)
      split
      · exact ih (canon_changed hs)
      · exact canon_changed hs
    · exact hs

theorem canon_commit {s : State} {bs : Bytes} {tag : Option (BitVec 3)} {wr : Writer} (h : Canon s.mem) :
    Canon (commit s bs tag wr).mem := canon_commitOver (canon_homeWrite h)

theorem canon_clearSpillBit {s : State} {r : Region} {gran : Addr} {unit : Nat} (h : Canon s.mem) :
    Canon (clearSpillBit s r gran unit).mem := by
  unfold clearSpillBit
  split
  · exact canon_commitOver (canon_setSpillBit h)
  · exact canon_setSpillBit h

theorem canon_carryMark {s : State} {c : CuId} {word : Nat} {x : L1Word} (h : Canon s.mem) : Canon (carryMark s c word x).mem :=
  canon_ite (canon_setPoison h) (canon_ite (canon_setPoison h) h)

theorem canon_writeBackWord {s : State} {c : CuId} {word : Nat} (h : Canon s.mem) : Canon (writeBackWord s c word).mem := by
  unfold writeBackWord
  split
  · exact h
  · exact canon_ite h (canon_setL1 (canon_commit (canon_carryMark h)))

theorem canon_addSharer {s : State} {word : Nat} {c : CuId} (h : Canon s.mem) : Canon (addSharer s word c).mem := by
  unfold addSharer
  exact canon_ite h h

theorem canon_recallWord {s : State} {word : Nat} {clean : Bool} (h : Canon s.mem) : Canon (recallWord s word clean).mem := by
  unfold recallWord
  extract_lets d
  split
  · exact h
  · refine canon_ite h (canon_ite (canon_addSharer (canon_setDir ?_)) (canon_setDir (canon_dropL1 (canon_writeBackWord h))))
    split
    · exact canon_setL1 (canon_writeBackWord h)
    · exact canon_writeBackWord h

theorem canon_invalidateWord {s : State} {word : Nat} {keep : Option CuId} (h : Canon s.mem) :
    Canon (invalidateWord s word keep).mem := canon_setDir (canon_foldl canon_dropL1 h)

theorem canon_dropWord {s : State} {c : CuId} {word : Nat} (h : Canon s.mem) : Canon (dropWord s c word).mem :=
  canon_setDir (canon_dropL1 h)

theorem canon_flushWord {s : State} {c : CuId} {word : Nat} (h : Canon s.mem) : Canon (flushWord s c word).mem :=
  canon_dropWord (canon_writeBackWord h)

theorem canon_flushDirty {s : State} {c : CuId} (h : Canon s.mem) : Canon (flushDirty s c).mem := by
  refine canon_foldl (fun hs => ?_) h
  split
  · exact canon_ite hs (canon_writeBackWord hs)
  · exact hs

theorem canon_flushAll {s : State} {c : CuId} (h : Canon s.mem) : Canon (flushAll s c).mem :=
  canon_foldl canon_writeBackWord h

theorem canon_purgeWord {s : State} {word : Nat} (h : Canon s.mem) : Canon (purgeWord s word).mem :=
  canon_foldl (fun hs => canon_ite (canon_flushWord hs) hs) h

theorem canon_setOvf {s : State} {idx : Nat} (h : Canon s.mem) : Canon (setOvf s idx).mem := canon_ite h (canon_rawWrite h)

theorem canon_pushProxy {s : State} {line : Nat} {more : Store Int} {depth : Nat} (h : Canon s.mem) :
    Canon (pushProxy s line more depth).mem := by
  unfold pushProxy
  refine canon_ite h ?_
  split
  next k u e =>
  have hu : Canon u.mem := canon_of_snd e h
  extract_lets c
  split
  next q v e' =>
  exact canon_otherTables (canon_of_snd e' (canon_sendOut hu))

theorem canon_mergeProxy {s : State} {line : Nat} {deltas : Store Int} {depth : Nat} (h : Canon s.mem) :
    Canon (mergeProxy s line deltas depth).mem := by
  unfold mergeProxy
  extract_lets mag
  split
  · exact canon_pushProxy h
  · exact canon_ite (canon_otherTables h) (canon_pushProxy h)

theorem canon_combineAt {s : State} {line : Nat} {deltas : Store Int} {tags : Store (BitVec 3)} {depth : Nat}
    {cu : CuId} (h : Canon s.mem) :
    Canon (combineAt s line deltas tags depth cu).mem := by
  unfold combineAt
  split
  · exact canon_violate h
  · refine canon_ite (canon_mergeProxy h) ?_
    extract_lets r bs u v
    have hv : Canon v.mem := canon_foldl (fun hs => canon_setRelTag (canon_setRelTag hs)) (canon_commit h)
    exact canon_ite (canon_setOvf hv) hv

theorem canon_pushLine {s : State} {c : CuId} {line : Nat} {drop : Bool} (h : Canon s.mem) :
    Canon (pushLine s c line drop).mem := by
  unfold pushLine
  split
  · exact h
  · exact canon_ite h (canon_combineAt h)

theorem canon_lowerTracker {s : State} {c : CuId} {line mag : Nat} (h : Canon s.mem) : Canon (lowerTracker s c line mag).mem :=
  canon_ite h h

theorem canon_joinAt {s : State} {k : Nat} {r : Req} (h : Canon s.mem) : Canon (joinAt s k r).mem := by
  unfold joinAt
  refine canon_ite ?_ (canon_ite ?_ ?_) <;> exact canon_combineAt h

theorem canon_joinFirst {s : State} {line : Nat} {c : CuId} {k : Nat} (h : Canon s.mem) : Canon (joinFirst s line c k).mem :=
  canon_foldl canon_joinAt h

theorem canon_settle {s : State} {line : Nat} (h : Canon s.mem) : Canon (settle s line).mem :=
  canon_foldl (fun hs => canon_lowerTracker (canon_ite hs (canon_combineAt (canon_joinFirst hs)))) h

end Sys2Proof.Machine
end

section
/-! SUPPORT. Memory stays in canonical form: proxies, traps, channels, and the checks before an issue. -/

namespace Sys2Proof.Machine

open Sys2Proof Claims

theorem canon_drainLine {s : State} {line : Nat} {gone : Bool} (h : Canon s.mem) : Canon (drainLine s line gone).mem :=
  canon_foldl canon_pushLine (canon_foldl canon_joinFirst (canon_settle h))

theorem canon_leaveLine {s : State} {c : CuId} {line : Nat} (h : Canon s.mem) : Canon (leaveLine s c line).mem :=
  canon_pushLine (canon_joinFirst (canon_settle h))

theorem canon_proxLeave {s : State} {line : Nat} (h : Canon s.mem) : Canon (proxLeave s line).mem :=
  canon_otherTables (canon_pushProxy (canon_drainLine h))

theorem canon_proxDrain {s : State} {line l : Nat} (h : Canon s.mem) : Canon (proxDrain s line l).mem :=
  canon_pushProxy (canon_drainLine (canon_otherTables h))

theorem canon_tightenLine {s : State} {c : CuId} {line limit : Nat} (h : Canon s.mem) :
    Canon (tightenLine s c line limit).mem := by
  unfold tightenLine
  split
  · exact h
  · exact canon_ite (canon_pushLine (canon_settle h)) h

theorem canon_proxTighten {s : State} {line limit : Nat} (h : Canon s.mem) : Canon (proxTighten s line limit).mem := by
  unfold proxTighten
  extract_lets _ s1 hd units s2
  have h2 : Canon s2.mem := canon_foldl (fun hs => canon_tightenLine (canon_settle hs)) (canon_otherTables h)
  split
  · exact canon_ite (canon_pushProxy h2) h2
  · exact h2

theorem canon_proxClean {s : State} {word : Nat} (h : Canon s.mem) : Canon (proxClean s word).mem := by
  refine canon_foldl (fun {s} {i} hs => ?_) h
  split
  · obtain ⟨hb, hm, hl, hr⟩ := canon_iff.mp hs
    exact canon_iff.mpr ⟨sWf_sSet hb, hm, sSortedFrom_sErase _ hl, hr⟩
  · exact hs

theorem canon_proxDrop {s : State} {word : Nat} (h : Canon s.mem) : Canon (proxDrop s word).mem := by
  unfold proxDrop
  refine canon_ite h ?_
  dsimp only
  obtain ⟨hb, hm, hl, hr, hp, hd⟩ := canon_iff.mp (canon_invalidateWord (word := word) (keep := none)
    (canon_recallWord (word := word) (clean := false) h))
  refine canon_iff.mpr ?_
  dsimp only
  refine ⟨sWf_sFilter hb, hm, sSortedFrom_filter (fun a _ => a / 4 != word) hl, sWf_sErase hr, ?_, hd⟩
  split
  · exact hp
  · exact sWf_sErase hp

theorem canon_dropSi {s : State} {c : CuId} (h : Canon s.mem) : Canon (dropSi s c).mem := canon_foldl canon_proxDrop h

theorem canon_proxRecall {s : State} {word : Nat} {clean : Bool} (h : Canon s.mem) : Canon (proxRecall s word clean).mem := by
  unfold proxRecall
  exact canon_ite h (canon_ite (canon_proxDrop h) (canon_otherTables (canon_proxClean (canon_recallWord h))))

theorem canon_proxFill {s : State} {word : Nat} {st : L1St} {ctx : Tag} {x : ExtWord} (h : Canon s.mem) :
    Canon (proxFill s word st ctx x).mem := by
  unfold proxFill
  extract_lets s1 _ s2 s3
  have h2 : Canon s2.mem := by
    obtain ⟨hb, hm⟩ := canon_iff.mp (canon_proxDrop (word := word) h)
    exact canon_iff.mpr ⟨foldl_keeps (P := fun m : Store Byte => sWf (0 : Byte) m = true) _ (fun _ hm _ => sWf_sSet hm) hb, hm⟩
  exact canon_ite (canon_setPoison (canon_setRelTag h2)) (canon_setRelTag h2)

theorem canon_proxHalf {s : State} {word : Nat} {ws : List Nat} (h : Canon s.mem) : Canon (proxHalf s word ws).mem :=
  canon_ite h (canon_proxDrop h)

theorem canon_farAsk {s : State} {pa n : Nat} (h : Canon s.mem) : Canon (farAsk s pa n).mem := canon_foldl (fun hs => hs) h

theorem canon_purgeRange {s : State} {pa n : Nat} (h : Canon s.mem) : Canon (purgeRange s pa n).mem :=
  canon_foldl canon_proxLeave (canon_foldl canon_drainLine (canon_foldl canon_proxDrop (canon_foldl canon_invalidateWord
    (canon_foldl canon_purgeWord h))))

theorem canon_icDrop {s : State} {c : CuId} {f : Nat → Bool} (h : Canon s.mem) : Canon (icDrop s c f).mem := canon_ite h h

theorem canon_icForget {s : State} {pa n : Nat} (h : Canon s.mem) : Canon (icForget s pa n).mem := canon_foldl canon_icDrop h

theorem canon_flushTag {s : State} {c : CuId} {t : Tag} (h : Canon s.mem) : Canon (flushTag s c t).mem :=
  canon_foldl canon_leaveLine (canon_foldl canon_flushWord h)

theorem canon_emptyL1 {s : State} {c : CuId} (h : Canon s.mem) : Canon (emptyL1 s c).mem :=
  canon_foldl canon_leaveLine (canon_foldl canon_flushWord h)

theorem canon_postEvent {s : State} {q : DWord} {tag : Tag} {code word : Word} (h : Canon s.mem) :
    Canon (postEvent s q tag code word).mem := by
  simp only [postEvent]
  exact canon_ite h (canon_ite (canon_rawWriteNat h) (canon_setRelTag (canon_rawWriteNat (canon_rawWriteNat h))))

theorem canon_raiseSvc {s : State} {mask : Word} (h : Canon s.mem) : Canon (raiseSvc s mask).mem := by
  simp only [raiseSvc]
  exact canon_ite h (canon_foldl canon_postEvent h)

theorem canon_startHalt {s : State} {t : Tag} {cause : Nat} (h : Canon s.mem) : Canon (startHalt s t cause).mem :=
  canon_ite h h

theorem canon_dropReply {s : State} {w : WarpId} (h : Canon s.mem) : Canon (dropReply s w).mem := h

theorem canon_supervisorFault {s : State} {w : WarpId} {cause : Nat} {addr : Addr} (h : Canon s.mem) :
    Canon (supervisorFault s w cause addr).mem :=
  canon_foldl canon_startHalt (canon_dropReply (canon_raiseSvc (canon_violate h)))

theorem canon_takeTrap {s : State} {w : WarpId} {t : Trap} (h : Canon s.mem) : Canon (takeTrap s w t).mem :=
  canon_ite (canon_supervisorFault h) h

theorem canon_takeAsync {s : State} {w : WarpId} (h : Canon s.mem) : Canon (takeAsync s w).mem := by
  unfold takeAsync
  split
  · exact h
  · split
    · exact h
    · exact canon_takeTrap h

theorem canon_serve {s : State} {g : GroupId} {off : Nat} (h : Canon s.mem) : Canon (serve s g off).mem := by
  unfold serve
  split
  · exact h
  · refine canon_ite h ?_
    split <;> exact h

theorem canon_dropWaiters {s : State} {f : Waiter → Bool} (h : Canon s.mem) : Canon (dropWaiters s f).mem :=
  canon_foldl (fun hs => canon_ite hs (canon_foldl (fun ht => canon_ite (canon_serve ht) ht) hs)) h

theorem canon_eventOf {s : State} {g : GroupId} (h : Canon s.mem) : Canon (eventOf s g).mem := canon_foldl (fun hs => hs) h

theorem canon_setFull {s : State} {g : GroupId} {off : Nat} {b : Bool} (h : Canon s.mem) : Canon (setFull s g off b).mem := by
  unfold setFull
  split
  · exact h
  · exact canon_serve (canon_ite (canon_eventOf h) h)

theorem canon_padWrite {s : State} {g : GroupId} {off : Nat} {bs : List Byte} (h : Canon s.mem) :
    Canon (padWrite s g off bs).mem := h

theorem canon_popN {s : State} {g : GroupId} {ch n : Nat} (h : Canon s.mem) : Canon (popN s g ch n).2.mem := by
  induction n generalizing s with
  | zero => exact h
  | succ n ih =>
    unfold popN
    split
    · exact h
    · exact ih (canon_setFull h)

theorem canon_pushOne {s : State} {g : GroupId} {ch : Nat} {x : Word} (h : Canon s.mem) : Canon (pushOne s g ch x).mem := by
  unfold pushOne
  split
  · exact h
  · exact canon_setFull h

theorem canon_pushMarked {s : State} {g : GroupId} {ch : Nat} {x : Word} {bad : Bool} (h : Canon s.mem) :
    Canon (pushMarked s g ch x bad).mem := canon_ite (canon_pushOne h) (canon_pushOne h)

theorem canon_reserveOne {s : State} {g : GroupId} {ch : Nat} (h : Canon s.mem) : Canon (reserveOne s g ch).2.mem := by
  unfold reserveOne
  split <;> exact h

theorem canon_fillSlot {s : State} {g : GroupId} {off : Nat} {x : Word} (h : Canon s.mem) : Canon (fillSlot s g off x).mem := by
  unfold fillSlot
  split
  · exact h
  · exact canon_setFull h

theorem canon_gather {s : State} {x : Issue} {u : Option Use} (h : Canon s.mem) : Canon (gather s x u).2.mem := by
  unfold gather
  split
  · exact h
  · split
    · split
      · exact canon_dropSi h
      · exact canon_popN (canon_dropSi h)
    · exact h
    · exact h

theorem canon_gather3 {s : State} {x : Issue} {u : Shape} (h : Canon s.mem) : Canon (gather3 s x u).2.2.2.mem :=
  canon_gather (canon_gather (canon_gather h))

theorem canon_scatter {s : State} {x : Issue} {u : Option Use} {vs : List DWord} (h : Canon s.mem) :
    Canon (scatter s x u vs).mem := by
  unfold scatter
  split
  · exact h
  · split
    · exact canon_foldl canon_pushOne h
    · exact h

theorem canon_holdWarp {s : State} {w : WarpId} {h : Hold} (hc : Canon s.mem) : Canon (holdWarp s w h).mem := hc

theorem canon_holdAt {s : State} {w : WarpId} {h : Hold} {set : Mask} (hc : Canon s.mem) : Canon (holdAt s w h set).mem := hc

theorem canon_parkLoad {s : State} {w : WarpId} {m : Mask} {regs : Nat → List Nat} (h : Canon s.mem) :
    Canon (parkLoad s w m regs).mem := h

/-- The shared checks leave memory in canonical form. -/
def Front.Canon : Front → Prop
  | .stop t => Machine.Canon t.mem
  | .go _ _ _ t => Machine.Canon t.mem

theorem frontCanon_ite {c : Prop} [Decidable c] {a b : Front} (ha : a.Canon) (hb : b.Canon) : (if c then a else b).Canon := by
  split
  · exact ha
  · exact hb

theorem canon_front {i : Instr} {s : State} {c : Cur} (h : Canon s.mem) : (front i s c).Canon := by
  unfold front
  split
  · refine frontCanon_ite (canon_takeTrap h) (frontCanon_ite (canon_takeTrap h) (frontCanon_ite (canon_takeTrap h)
      (frontCanon_ite (canon_holdAt h) (frontCanon_ite h (frontCanon_ite (canon_holdAt h) (frontCanon_ite (canon_takeTrap h)
        (frontCanon_ite (canon_holdAt h) (frontCanon_ite (canon_holdWarp h) (frontCanon_ite (canon_holdAt h)
          (frontCanon_ite (canon_holdAt h) (frontCanon_ite (canon_takeTrap h) ?_)))))))))))
    exact canon_ite h (canon_parkLoad h)
  · exact h

theorem canon_waitBreak {s : State} {c : Cur} {cows : List (Nat × Addr)} {trapped : Bool} (h : Canon s.mem) :
    Canon (waitBreak s c cows trapped).mem := canon_ite h h

theorem canon_finish {i : Instr} {x : Issue} {stay : Mask} {pre : List LFault} {s : State} {faults : List LFault}
    {cows : List (Nat × Addr)} {keep : Mask} (h : Canon s.mem) :
    Canon (finish i x stay pre s faults cows keep).mem :=
  canon_ite (canon_waitBreak (canon_takeTrap h)) (canon_ite (canon_waitBreak (canon_takeTrap h)) (canon_waitBreak h))

theorem canon_close {i : Instr} {x : Issue} {stay : Mask} {pre : List LFault} {s : State} {r : Res} (h : Canon s.mem)
    (hr : r.Canon) : Canon (close i x stay pre s r).mem := by
  cases r with
  | ok t fs cs keep => exact canon_finish hr
  | hold hd t => exact canon_holdAt hr
  | trap cause addr code brk => exact canon_takeTrap h

/-- An instruction that a warp issues lands where its own effect keeps memory in canonical form. -/
theorem lands_run {i : Instr} {s : State} {body : Issue → State → Res} (hcur : s.cur ≠ none)
    (hb : ∀ {x : Issue} {t : State}, Canon t.mem → (body x t).Canon) : Lands s (run i s body) := by
  unfold run
  split
  · next hc => exact absurd hc hcur
  · next c _ =>
    have hfront : Canon s.mem → (front i s c).Canon := canon_front
    split
    · next t hf =>
      rw [hf] at hfront
      exact lands_next hfront
    · next x stay pre t hf =>
      rw [hf] at hfront
      refine lands_next fun h => canon_close (hfront h) ?_
      split
      · exact hfront h
      · exact hb (hfront h)

theorem canon_orFstat {s : State} {w : WarpId} {f : Word} (h : Canon s.mem) : Canon (orFstat s w f).mem := canon_ite h h

theorem canon_mapBody {i : Instr} {f : DWord → DWord → DWord → DWord × Word} {x : Issue} {s : State} (h : Canon s.mem) :
    Res.Canon (mapBody i f x s) := canon_scatter (canon_orFstat (canon_gather3 h))

theorem lands_mapLanes {i : Instr} {s : State} {f : DWord → DWord → DWord → DWord × Word} (hcur : s.cur ≠ none) :
    Lands s (mapLanes i s f) := lands_run hcur canon_mapBody

theorem canon_matIssue {s : State} {w : WarpId} {cv : Nat} (h : Canon s.mem) : Canon (matIssue s w cv).mem := by
  unfold matIssue
  split
  · extract_lets c
    split
    · exact h
    · extract_lets n a
      split
      next k t e =>
      have ht : Canon t.mem := canon_of_snd e h
      split
      next bs u e' =>
      have hu : Canon u.mem := by
        refine canon_of_snd e' ?_
        split
        · exact canon_popN (canon_dropSi ht)
        · exact ht
      exact hu
  · exact h

end Sys2Proof.Machine
end

section
/-! SUPPORT. Memory stays in canonical form: matrix signing, exits, translations, loads and stores. -/

namespace Sys2Proof.Machine

open Sys2Proof Claims

/-- The shapes of an effect. -/
theorem resCanon_ite {c : Prop} [Decidable c] {a b : Res} (ha : a.Canon) (hb : b.Canon) : (if c then a else b).Canon := by
  split
  · exact ha
  · exact hb

theorem resCanon_ok {s : State} {fs : List LFault} {cows : List (Nat × Addr)} {keep : Mask} (h : Canon s.mem) :
    (Res.ok s fs cows keep).Canon := h

theorem resCanon_hold {s : State} {hd : Hold} (h : Canon s.mem) : (Res.hold hd s).Canon := h

theorem resCanon_trap {cause : Nat} {addr : Addr} {code : Word} {brk : Bool} : (Res.trap cause addr code brk).Canon := trivial

/-- Folds that carry a list beside the state. -/
theorem canon_foldl_fst {α β : Type} {f : State × β → α → State × β} {l : List α} {r : State × β}
    (hf : ∀ {r : State × β} {a : α}, Canon r.1.mem → Canon (f r a).1.mem) (h : Canon r.1.mem) : Canon (l.foldl f r).1.mem :=
  foldl_keeps (P := fun r : State × β => Canon r.1.mem) l (fun _ hr _ => hf hr) h

theorem canon_foldl_snd {α β : Type} {f : β × State → α → β × State} {l : List α} {r : β × State}
    (hf : ∀ {r : β × State} {a : α}, Canon r.2.mem → Canon (f r a).2.mem) (h : Canon r.2.mem) : Canon (l.foldl f r).2.mem :=
  foldl_keeps (P := fun r : β × State => Canon r.2.mem) l (fun _ hr _ => hf hr) h

theorem canon_signBody {i : Instr} {x : Issue} {s : State} (h : Canon s.mem) : Res.Canon (signBody i x s) := by
  unfold signBody
  split
  · refine resCanon_ite trivial (resCanon_ite (resCanon_ok h) ?_)
    split
    · exact resCanon_ok h
    · exact resCanon_hold h
    · exact resCanon_ok (canon_matIssue h)
  · exact resCanon_ok h

theorem canon_exitSets {s : State} {w : WarpId} {m : Mask} {pc : Addr} (h : Canon s.mem) : Canon (exitSets s w m pc).mem := by
  refine canon_foldl (fun {s} {k} hs => ?_) h
  split
  · exact hs
  · refine canon_ite hs (canon_ite hs ?_)
    split
    · exact canon_matIssue hs
    · exact hs
    · exact canon_ite (canon_violate hs) (canon_addAsync hs)
    · exact hs

theorem canon_setBar {s : State} {k : Nat} {b : Barrier} (h : Canon s.mem) : Canon (State.setBar s k b).mem := h

theorem canon_barAdvance {s : State} {k : Nat} (h : Canon s.mem) : Canon (barAdvance s k).mem := by
  unfold barAdvance
  refine canon_ite (canon_foldl (fun {s} {k} hs => ?_) h) h
  split
  · exact canon_eventOf hs
  · exact hs

theorem canon_barAdvanceOf {s : State} {n : GName} (h : Canon s.mem) : Canon (barAdvanceOf s n).mem :=
  canon_foldl canon_barAdvance h

theorem canon_barLeave {s : State} {n : GName} (h : Canon s.mem) : Canon (barLeave s n).mem :=
  canon_foldl (fun hs => canon_barAdvance (canon_setBar hs)) h

theorem canon_noteExit {s : State} {w : WarpId} {x : Warp} (h : Canon s.mem) : Canon (noteExit s w x).mem :=
  canon_ite h (canon_ite (canon_note h) h)

theorem canon_exitLanes {s : State} {w : WarpId} {m : Mask} {pc : Addr} (h : Canon s.mem) : Canon (exitLanes s w m pc).mem := by
  unfold exitLanes
  extract_lets s1 s2
  have h2 : Canon s2.mem := canon_dropWaiters (canon_exitSets h)
  split
  · exact canon_ite (canon_noteExit (canon_barAdvanceOf h2)) h2
  · exact h2

theorem canon_releaseWaiters {s : State} {g : GroupId} (h : Canon s.mem) : Canon (releaseWaiters s g).mem :=
  canon_foldl (fun hs => hs) h

theorem canon_fatalFault {s : State} {g : GroupId} (h : Canon s.mem) : Canon (fatalFault s g).mem := by
  unfold fatalFault
  split
  · exact h
  · refine canon_ite h ?_
    extract_lets s1 s2 s3
    have h3 : Canon s3.mem := canon_barAdvanceOf (canon_foldl (fun hs => hs) h)
    split
    · exact h3
    · refine canon_ite h3 (canon_foldl (fun {s} {g} hs => ?_) (canon_releaseWaiters h3))
      split
      · exact hs
      · exact canon_ite hs (canon_foldl canon_addAsync hs)

theorem canon_tlbAdd {s : State} {e : Tlb} {n : Nat} (h : Canon s.mem) : Canon (tlbAdd s e n).mem := h

theorem canon_heldLeaf {s : State} {c : CuId} {t : Tag} {sup : Bool} {k : AccKind} {e : Tlb} {va : Addr} {shadow : Bool}
    (h : Canon s.mem) :
    Canon (heldLeaf s c t sup k e va shadow).2.mem := by
  unfold heldLeaf
  split
  · exact canon_violate h
  · exact h

theorem canon_translateTo {shadow : Bool} {s : State} {c : CuId} {t : Tag} {sup : Bool} {k : AccKind} {va : Addr}
    (h : Canon s.mem) :
    Canon (translateTo shadow s c t sup k va).2.mem := by
  unfold translateTo
  split
  · exact h
  · split
    · exact canon_heldLeaf h
    · split
      · exact canon_tlbAdd (canon_heldLeaf h)
      · split
        · exact h
        · exact canon_violate h
        · split
          · exact h
          · exact canon_ite h (canon_tlbAdd (canon_tlbAdd h))

theorem canon_translate {s : State} {c : CuId} {t : Tag} {sup : Bool} {k : AccKind} {va : Addr} (h : Canon s.mem) :
    Canon (translate s c t sup k va).2.mem := canon_translateTo h

theorem canon_tlbDrop {s : State} {f : Tlb → Bool} (h : Canon s.mem) : Canon (tlbDrop s f).mem := h

theorem canon_tlbDropPage {s : State} {t : Tag} {va : Addr} (h : Canon s.mem) : Canon (tlbDropPage s t va).mem := h

theorem canon_ftPut {s : State} {i x : Nat} (h : Canon s.mem) : Canon (ftPut s i x).mem := canon_rawWriteNat h

theorem canon_setFreeList {s : State} {d count head : Nat} (h : Canon s.mem) : Canon (setFreeList s d count head).mem := by
  rw [setFreeList]
  exact h

theorem canon_takeFrame {s t : State} {d i : Nat} (ht : takeFrame s d = some (i, t)) (h : Canon s.mem) : Canon t.mem := by
  unfold takeFrame at ht
  split at ht
  · exact nomatch ht
  · cases ht
    exact canon_ftPut (canon_setFreeList h)

theorem canon_pushFrame {s : State} {i : Nat} (h : Canon s.mem) : Canon (pushFrame s i).mem :=
  canon_ite h (canon_setFreeList (canon_ftPut h))

theorem canon_copyPage {s : State} {src dst : Nat} (h : Canon s.mem) : Canon (copyPage s src dst).mem := by
  unfold copyPage
  refine movedFrame_memWf (canon_foldl canon_setHomeByte
    (canon_purgeRange (canon_icForget (canon_foldl (fun hs => canon_foldl canon_writeBackWord hs)
      (canon_foldl canon_recallWord h))))) src dst

/-- Tags and marks that leave memory. -/
theorem canon_filtered {m : Mem} {p q : Nat → Bool} (h : Canon m) :
    Canon { m with rel := sFilter m.rel fun k _ => p k, poison := sFilter m.poison fun k _ => q k } := by
  obtain ⟨hb, hm, hl, hr, hp, hd⟩ := canon_iff.mp h
  have hr' : sWf (0 : BitVec 3) (sFilter m.rel fun k _ => p k) = true := sWf_sFilter hr
  have hp' : sWf false (sFilter m.poison fun k _ => q k) = true := sWf_sFilter hp
  exact canon_iff.mpr ⟨hb, hm, hl, hr', hp', hd⟩

theorem canon_modWarp {s : State} {w : WarpId} {f : Warp → Warp} (h : Canon s.mem) : Canon (s.modWarp w f).mem := h

theorem canon_fillPage {s : State} {dst : Nat} {bs : List Byte} (h : Canon s.mem) : Canon (fillPage s dst bs).mem := by
  unfold fillPage
  extract_lets s1 s2 s3
  have h3 : Canon s3.mem := canon_foldl canon_setHomeByte (canon_foldl canon_setHomeByte (canon_purgeRange (canon_icForget h)))
  clear_value s3
  exact canon_filtered h3

theorem canon_clearRange {s : State} {pa n : Nat} (h : Canon s.mem) : Canon (clearRange s pa n).mem := by
  unfold clearRange
  extract_lets s1 s2
  have h2 : Canon s2.mem := canon_foldl canon_setHomeByte (canon_purgeRange (canon_icForget h))
  clear_value s2
  exact canon_filtered h2

theorem canon_putPte {s : State} {addr e : Nat} (h : Canon s.mem) : Canon (putPte s addr e).mem := canon_rawWriteNat h

theorem canon_breakPage {s t : State} {tag : Tag} {va : Addr} {skip : Option Nat} {seen : Option (BitVec 64)}
    (ht : breakPage s tag va skip seen = .done t) (h : Canon s.mem) : Canon t.mem := by
  unfold breakPage at ht
  split at ht
  · split at ht
    · cases ht
      exact h
    · split at ht
      · exact nomatch ht
      · dsimp only at ht
        split at ht
        · exact nomatch ht
        · split at ht
          · exact nomatch ht
          · split at ht
            · cases ht
              exact canon_tlbDropPage (canon_putPte h)
            · split at ht
              · exact nomatch ht
              · next i u hu =>
                cases ht
                exact canon_tlbDropPage (canon_putPte (canon_ftPut (canon_ftPut (canon_copyPage (canon_takeFrame hu h)))))
  · cases ht
    exact h

theorem canon_ftFlag {s : State} {pa b : Nat} {on : Bool} (h : Canon s.mem) : Canon (ftFlag s pa b on).mem := by
  unfold ftFlag
  split
  · exact canon_ftPut h
  · exact h

theorem canon_twinPut {s : State} {i x : Nat} (h : Canon s.mem) : Canon (twinPut s i x).mem := canon_rawWriteNat h

theorem canon_markShadow {s : State} {e : Nat} (h : Canon s.mem) : Canon (markShadow s e).mem :=
  canon_ite (canon_ftFlag (canon_ftFlag h)) (canon_ftFlag (canon_ftFlag h))

theorem canon_flipSet {s : State} {t : Tag} {set : Nat} (h : Canon s.mem) : Canon (flipSet s t set).mem :=
  canon_foldl (fun hs => canon_tlbDropPage (canon_markShadow (canon_setRelTag (canon_twinPut hs)))) h

theorem canon_judgeOne {s : State} {w : WarpId} {k : AccKind} {align : Nat} {cas : Bool} {post : Nat → Option Nat}
    {l : Nat} {va : Addr} {j : Judged} (h : Canon s.mem) :
    Canon (judgeOne s w k align cas post l va j).2.mem := by
  unfold judgeOne
  split
  · exact h
  · split
    · next e => exact canon_of_snd e (canon_translate h)
    · next e => exact canon_of_snd e (canon_translate h)
    · next e =>
      split
      · exact canon_of_snd e (canon_translate h)
      · exact canon_of_snd e (canon_translate h)
    · next e => exact canon_of_snd e (canon_translate h)

theorem canon_judge {s : State} {w : WarpId} {k : AccKind} {align : Nat} {cas : Bool} {post : Nat → Option Nat}
    {vas : List (Nat × Addr)} (h : Canon s.mem) :
    Canon (judge s w k align cas post vas).2.mem :=
  foldl_keeps (P := fun p : Judged × State => Canon p.2.mem) _ (fun _ hp _ => canon_judgeOne hp) h

theorem canon_logRegion {s : State} {w : WarpId} {fs : List LFault} (h : Canon s.mem) : Canon (logRegion s w fs).mem :=
  canon_foldl canon_violate h

theorem canon_deadPeer {s : State} {w : WarpId} {m : MemExt} {gs : List Good} (h : Canon s.mem) :
    Canon (deadPeer s w m gs).mem := canon_foldl canon_violate h

theorem canon_markBad {s : State} {w : WarpId} {d : Operand} {wid : Wid} {cause load : Nat} {gs : List (Nat × Addr)}
    (h : Canon s.mem) :
    Canon (markBad s w d wid cause load gs).mem := by
  unfold markBad
  split <;> exact h

theorem canon_erased {m : Mem} {k : Nat} (h : Canon m) : Canon { m with l2 := sErase m.l2 k, msc := sErase m.msc k } := by
  obtain ⟨hb, hm, hl, hr⟩ := canon_iff.mp h
  exact canon_iff.mpr ⟨hb, sSortedFrom_sErase _ hm, sSortedFrom_sErase _ hl, hr⟩

theorem canon_poolOut {s : State} (h : Canon s.mem) : Canon (poolOut s).mem :=
  canon_foldl (fun hs => canon_erased (canon_setStoreByte hs)) h

theorem canon_releaseAt {s : State} {w : WarpId} {scp : Scope} (h : Canon s.mem) : Canon (releaseAt s w scp).mem :=
  canon_ite h (canon_poolOut (canon_flushDirty h))

theorem canon_dropAt {s : State} {w : WarpId} (h : Canon s.mem) : Canon (dropAt s w).mem := canon_dropSi h

theorem canon_depart {s : State} {r : Req} (h : Canon s.mem) : Canon (depart s r).2.mem := by
  unfold depart
  split
  · split
    · exact h
    · split
      · next e => exact canon_of_snd e (canon_sendOut h)
      · next e => exact canon_of_snd e (canon_sendOut h)
  · exact h

theorem canon_sendReq {s : State} {r : Req} (h : Canon s.mem) : Canon (sendReq s r).2.mem := by
  unfold sendReq
  split
  · exact h
  · split
    · exact h
    · exact canon_depart h

theorem canon_addReq {s : State} {r : Req} (h : Canon s.mem) : Canon (addReq s r).2.mem := canon_sendReq h

theorem canon_sendBlock {s : State} {w : WarpId} {c : CuId} {b : Nat} (h : Canon s.mem) : Canon (sendBlock s w c b).mem :=
  canon_addReq h

theorem canon_releaseBy {s : State} {w : WarpId} {c : CuId} (h : Canon s.mem) : Canon (releaseBy s w c).mem :=
  canon_foldl canon_sendBlock (canon_poolOut (canon_flushDirty h))

theorem canon_releaseBegin {s : State} {w : WarpId} (h : Canon s.mem) : Canon (releaseBegin s w).mem := canon_releaseBy h

theorem canon_ctxClean {s : State} {c : CuId} {t : Tag} {blk : Nat} (h : Canon s.mem) : Canon (ctxClean s c t blk).mem :=
  canon_foldl canon_flushWord h

theorem canon_l1Write {s : State} {c : CuId} {bs : Bytes} {dirty : Bool} {tag : BitVec 3} {depth : Nat} (h : Canon s.mem) :
    Canon (l1Write s c bs dirty tag depth).mem := by
  unfold l1Write
  refine canon_foldl (fun {s} {w} hs => ?_) (canon_foldl (fun {s} {w} hs => ?_) h)
  · split
    · exact canon_ite hs hs
    · exact hs
  · split <;> exact hs

theorem canon_dropHalf {s : State} {c : CuId} {word : Nat} {ws : List Nat} (h : Canon s.mem) :
    Canon (dropHalf s c word ws).mem := by
  unfold dropHalf
  refine canon_ite h ?_
  split
  · exact canon_ite h h
  · exact h

theorem canon_putLoaded {s : State} {w : WarpId} {d : Operand} {l n : Nat} {sx : Bool} {bs : List Byte} (h : Canon s.mem) :
    Canon (putLoaded s w d l n sx bs).mem := h

theorem canon_sawValue {s : State} {w : WarpId} {tagged acq : Bool} (h : Canon s.mem) : Canon (sawValue s w tagged acq).mem :=
  canon_ite h (canon_ite (canon_dropAt h) h)

theorem canon_answerHit {s : State} {x : Issue} {m : MemExt} {sx : Bool} {d : Operand} {gs : List Good} {blk : Nat}
    (h : Canon s.mem) :
    Canon (answerHit s x m sx d gs blk).mem := by
  unfold answerHit
  refine canon_foldl (fun {s} {g} hs => canon_ite (canon_markBad hs) (canon_noteTag ?_)) h
  exact canon_modWarp (canon_putLoaded hs)

theorem canon_askBlock {s : State} {x : Issue} {r : Req} (h : Canon s.mem) : Canon (askBlock s x r).mem :=
  canon_ite (canon_addReq h) (canon_addReq h)

theorem canon_cleanBlocks {s : State} {x : Issue} {gs : List Good} (h : Canon s.mem) : Canon (cleanBlocks s x gs).mem :=
  canon_foldl canon_ctxClean h

theorem canon_loadGood {s : State} {x : Issue} {kind : ReqKind} {m : MemExt} {sx : Bool} {d : Operand} {gs : List Good}
    (h : Canon s.mem) :
    Canon (loadGood s x kind m sx d gs).mem := by
  unfold loadGood
  extract_lets s1
  have h1 : Canon s1.mem := canon_foldl (fun hs => canon_ite (canon_answerHit hs) (canon_askBlock hs)) h
  exact canon_ite (canon_dropAt h1) h1

theorem canon_advance {s : State} {x : Issue} {a : Operand} {off : Word} {gs : List Good} (h : Canon s.mem) :
    Canon (advance s x a off gs).mem := h

theorem canon_loadBody {upd : Bool} {sx : Bool} {d a : Operand} {m : MemExt} {x : Issue} {s : State} (h : Canon s.mem) :
    Res.Canon (loadBody upd sx d a m x s) := by
  unfold loadBody
  refine resCanon_ite (resCanon_hold h) ?_
  extract_lets +onlyGivenNames acv post
  generalize hj : judge s _ _ _ _ _ _ = p
  obtain ⟨j, t⟩ := p
  dsimp only
  have ht : Canon (cleanBlocks t x j.good).mem := canon_cleanBlocks (canon_of_snd hj (canon_judge h))
  exact resCanon_ite (resCanon_hold ht)
    (resCanon_ok (canon_logRegion (canon_ite (canon_advance (canon_loadGood ht)) (canon_loadGood ht))))

theorem lands_ld {p : Pr} {sx : Bool} {d a : Operand} {x : MemExt} {s : State} (hcur : s.cur ≠ none) :
    Lands s (execLd p sx d a x s) := lands_run hcur canon_loadBody

theorem lands_ldu {p : Pr} {sx : Bool} {d a : Operand} {x : MemExt} {s : State} (hcur : s.cur ≠ none) :
    Lands s (execLdu p sx d a x s) := lands_run hcur canon_loadBody

theorem canon_storeData {s : State} {x : Issue} {b : Operand} {n : Nat} (h : Canon s.mem) : Canon (storeData s x b n).2.mem := by
  unfold storeData
  split
  · exact canon_gather h
  · exact h
  · exact h

theorem canon_storeGood {s : State} {x : Issue} {m : MemExt} {gs : List (Good × List Byte)} (h : Canon s.mem) :
    Canon (storeGood s x m gs).mem := canon_foldl (fun hs => canon_ite (canon_l1Write hs) (canon_addReq hs)) h

theorem canon_storeBody {upd : Bool} {a b : Operand} {m : MemExt} {x : Issue} {s : State} (h : Canon s.mem) :
    Res.Canon (storeBody upd a b m x s) := by
  unfold storeBody
  refine resCanon_ite (resCanon_hold h) (resCanon_ite (resCanon_hold (canon_releaseBegin h)) ?_)
  split
  next j t e =>
  have ht : Canon (cleanBlocks t x j.good).mem := canon_cleanBlocks (canon_of_snd e (canon_judge h))
  refine resCanon_ite (resCanon_hold ht) (resCanon_ite (resCanon_ok (canon_logRegion ht)) (resCanon_ite (resCanon_ok ht)
    (resCanon_ite (resCanon_hold ht) ?_)))
  extract_lets +onlyGivenNames s1
  have h1 : Canon s1.mem := canon_ite (canon_releaseAt ht) ht
  clear_value s1
  split
  next ds u eu =>
  have hu : Canon u.mem := canon_of_snd eu (canon_storeData h1)
  exact resCanon_ok (canon_logRegion (canon_ite (canon_advance (canon_storeGood hu)) (canon_storeGood hu)))

theorem lands_st {p : Pr} {a b : Operand} {x : MemExt} {s : State} (hcur : s.cur ≠ none) : Lands s (execSt p a b x s) :=
  lands_run hcur canon_storeBody

theorem lands_stu {p : Pr} {a b : Operand} {x : MemExt} {s : State} (hcur : s.cur ≠ none) : Lands s (execStu p a b x s) :=
  lands_run hcur canon_storeBody

theorem canon_ldsBody {sx : Bool} {d a : Operand} {m : MemExt} {x : Issue} {s : State} (h : Canon s.mem) :
    Res.Canon (ldsBody sx d a m x s) := by
  unfold ldsBody
  refine resCanon_ite (resCanon_hold h) ?_
  extract_lets +onlyGivenNames tgt j
  clear_value j tgt
  split
  · exact resCanon_ok h
  · refine resCanon_ite (resCanon_ok h) (resCanon_ite (resCanon_ok (canon_markBad (canon_deadPeer h))) (resCanon_ok ?_))
    refine canon_foldl (fun {s} {g} hs => ?_) (canon_ite (canon_dropAt h) h)
    split
    · exact hs
    · dsimp only
      split
      · exact canon_pushMarked hs
      · exact canon_ite (canon_markBad hs) (canon_putLoaded hs)

theorem lands_lds {p : Pr} {sx : Bool} {d a : Operand} {x : MemExt} {s : State} (hcur : s.cur ≠ none) :
    Lands s (execLds p sx d a x s) := lands_run hcur canon_ldsBody

theorem canon_storeRefused {s : State} {w : WarpId} {cause : Nat} {gs : List (Nat × Addr)} (h : Canon s.mem) :
    Canon (storeRefused s w cause gs).mem := canon_foldl canon_addAsync h

theorem canon_stsBody {a b : Operand} {m : MemExt} {x : Issue} {s : State} (h : Canon s.mem) : Res.Canon (stsBody a b m x s) := by
  unfold stsBody
  refine resCanon_ite (resCanon_hold h) (resCanon_ite (resCanon_hold (canon_releaseBegin h)) ?_)
  extract_lets +onlyGivenNames tgt j
  clear_value j tgt
  split
  · exact resCanon_ok h
  · refine resCanon_ite (resCanon_ok h) (resCanon_ite (resCanon_hold h) ?_)
    extract_lets +onlyGivenNames s1
    have h1 : Canon s1.mem := canon_ite (canon_releaseAt h) h
    clear_value s1
    split
    next ds t e =>
    have ht : Canon t.mem := canon_of_snd e (canon_storeData h1)
    exact resCanon_ite (resCanon_ok (canon_storeRefused (canon_deadPeer ht))) (resCanon_ok (canon_foldl canon_padWrite ht))

theorem lands_sts {p : Pr} {a b : Operand} {x : MemExt} {s : State} (hcur : s.cur ≠ none) : Lands s (execSts p a b x s) :=
  lands_run hcur canon_stsBody

theorem canon_leaveQueue {s : State} {w : WarpId} {l key : Nat} (h : Canon s.mem) : Canon (leaveQueue s w l key).mem :=
  canon_dropWaiters h

theorem canon_parkFe {s : State} {c : CuId} {w : WarpId} {l key : Nat} {f : Bool} (h : Canon s.mem) :
    Canon (parkFe s c w l key f).mem := by
  unfold parkFe
  extract_lets +onlyGivenNames s1 u room s2
  have h1 : Canon s1.mem := canon_dropWaiters h
  have h2 : Canon s2.mem := by
    unfold s2
    split
    · exact canon_ite h1 h1
    · exact h1
  exact h2

theorem canon_feLane {op : FeOp} {w : WarpId} {h : GroupId} {d : Option Operand} {s : State} {g : Good} {at_ : Addr}
    {data : Word} (hc : Canon s.mem) :
    Canon (feLane op w h d s g at_ data).1.mem := by
  unfold feLane
  split
  · exact hc
  · extract_lets +onlyGivenNames c key
    split
    · have hl : Canon (leaveQueue s w g.lane key).mem := canon_leaveQueue hc
      refine canon_setFull (canon_ite ?_ (canon_padWrite hl))
      split
      · exact canon_ite (canon_markBad hl) (canon_putLoaded hl)
      · exact hl
    · exact canon_parkFe hc

theorem canon_feScalar {op : FeOp} {w : WarpId} {h : GroupId} {d : Option Operand} {s : State} {gs : List Good}
    {at_ : Addr} {data : Word} (hc : Canon s.mem) :
    Canon (feScalar op w h d s gs at_ data).1.mem := by
  unfold feScalar
  refine canon_foldl_fst (fun {r} {g} hr => canon_parkFe hr) ?_
  split
  · exact hc
  · exact canon_feLane (canon_foldl canon_leaveQueue hc)

end Sys2Proof.Machine
end

section
/-! SUPPORT. Memory stays in canonical form: full/empty words and serving at the homes. -/

namespace Sys2Proof.Machine

open Sys2Proof Claims

/-- A step that leaves its state as it is. -/
theorem lands_same {s : State} : Lands s (.next s) := lands_next id

theorem canon_feBody {op : FeOp} {d : Option Operand} {a : Operand} {b : Option Operand} {m : MemExt} {x : Issue}
    {s : State} (h : Canon s.mem) :
    Res.Canon (feBody op d a b m x s) := by
  unfold feBody
  refine resCanon_ite (resCanon_hold h) (resCanon_ite (resCanon_hold (canon_releaseBegin h)) ?_)
  extract_lets +onlyGivenNames tgt j
  clear_value j tgt
  split
  · exact resCanon_ok h
  · extract_lets +onlyGivenNames dead errs
    refine resCanon_ite (resCanon_ok (canon_markBad (canon_deadPeer h))) (resCanon_ite
      (resCanon_ok (canon_storeRefused (canon_deadPeer h))) (resCanon_ite (resCanon_hold h) (resCanon_ite (resCanon_hold h) ?_)))
    extract_lets +onlyGivenNames s1 data vals r
    have h1 : Canon s1.mem := canon_ite (canon_dropAt h) (canon_releaseAt h)
    clear_value s1
    have hr : Canon r.1.mem := by
      unfold r
      clear_value vals
      split
      · split
        · exact h1
        · exact canon_feScalar h1
      · exact canon_foldl_fst (fun {r} {e} hr => canon_feLane hr) h1
    exact resCanon_ok hr

theorem lands_ldfe {p : Pr} {d a : Operand} {x : MemExt} {s : State} (hcur : s.cur ≠ none) : Lands s (execLdfe p d a x s) :=
  lands_run hcur canon_feBody

theorem lands_ldff {p : Pr} {d a : Operand} {x : MemExt} {s : State} (hcur : s.cur ≠ none) : Lands s (execLdff p d a x s) :=
  lands_run hcur canon_feBody

theorem lands_stfe {p : Pr} {a b : Operand} {x : MemExt} {s : State} (hcur : s.cur ≠ none) : Lands s (execStfe p a b x s) :=
  lands_run hcur canon_feBody

theorem lands_stff {p : Pr} {a b : Operand} {x : MemExt} {s : State} (hcur : s.cur ≠ none) : Lands s (execStff p a b x s) :=
  lands_run hcur canon_feBody

theorem lands_untrackedRetest {w : WarpId} {lane : Nat} {s : State} : Lands s (execUntrackedRetest w lane s) := by
  unfold execUntrackedRetest
  split
  · exact lands_same
  · refine lands_ite lands_same ?_
    split
    · exact lands_same
    · exact lands_ite (lands_next id) (lands_next id)

theorem canon_fesetBody {v : Bool} {a b : Operand} {m : MemExt} {x : Issue} {s : State} (h : Canon s.mem) :
    Res.Canon (fesetBody v a b m x s) := by
  unfold fesetBody
  refine resCanon_ite (resCanon_hold h) ?_
  extract_lets +onlyGivenNames tgt
  clear_value tgt
  dsimp only
  split
  · exact resCanon_ok h
  · refine resCanon_ite (resCanon_ok (canon_storeRefused (canon_deadPeer h))) (resCanon_ite (resCanon_hold h) (resCanon_ok ?_))
    exact canon_foldl (fun hs => canon_foldl canon_setFull hs) h

theorem lands_feset {p : Pr} {v : Bool} {a b : Operand} {x : MemExt} {s : State} (hcur : s.cur ≠ none) :
    Lands s (execFeset p v a b x s) := lands_run hcur canon_fesetBody

theorem canon_prefBlock {s : State} {w : WarpId} {va : Addr} (h : Canon s.mem) : Canon (prefBlock s w va).2.mem := by
  unfold prefBlock
  split
  · next e => exact canon_of_snd e (canon_translate h)
  · next e => exact canon_of_snd e (canon_translate h)

theorem canon_prefBody {a : Operand} {m : MemExt} {x : Issue} {s : State} (h : Canon s.mem) : Res.Canon (prefBody a m x s) := by
  unfold prefBody
  extract_lets +onlyGivenNames r
  have hr : Canon r.2.mem := by
    refine canon_foldl_snd (fun {r} {e} hr => ?_) h
    dsimp only
    split
    · exact canon_prefBlock hr
    · exact canon_prefBlock hr
  clear_value r
  exact resCanon_ite (resCanon_ok hr) (resCanon_ok (canon_foldl canon_addReq hr))

theorem lands_pref {p : Pr} {a : Operand} {x : MemExt} {s : State} (hcur : s.cur ≠ none) : Lands s (execPref p a x s) :=
  lands_run hcur canon_prefBody

theorem canon_modPlinth {s : State} {p : Nat} {f : Plinth → Plinth} (h : Canon s.mem) : Canon (State.modPlinth s p f).mem :=
  h

theorem canon_setWindow {s : State} {p n : Nat} {v : BitVec 512} (h : Canon s.mem) : Canon (setWindow s p n v).mem :=
  canon_modPlinth (canon_ite h (canon_dropViews h))

theorem canon_setNrctl {s : State} {p : Nat} {v : DWord} (h : Canon s.mem) : Canon (setNrctl s p v).mem := canon_modPlinth h

theorem canon_ctlWrite {s : State} {pa v : Nat} (h : Canon s.mem) : Canon (ctlWrite s pa v).mem :=
  canon_ite (canon_setWindow h) (canon_ite (canon_setNrctl h) h)

theorem canon_errVals {s : State} {r : Req} {write : Bool} (h : Canon s.mem) : Canon (errVals s r write).2.mem := by
  refine canon_foldl_snd (fun {r} {e} hr => ?_) h
  split
  · exact canon_violate hr
  · exact hr

theorem canon_fillWord {s : State} {c : CuId} {word : Nat} {st : L1St} {sm : Bool} {ctx : Tag} (h : Canon s.mem) :
    Canon (fillWord s c word st sm ctx).mem := canon_setL1 h

theorem canon_wtWord {s : State} {r : Req} {word : Nat} (h : Canon s.mem) : Canon (wtWord s r word).mem :=
  canon_ite h (canon_addSharer (canon_fillWord (canon_recallWord h)))

theorem canon_ownWord {s : State} {r : Req} {word : Nat} (h : Canon s.mem) : Canon (ownWord s r word).mem :=
  canon_ite h (canon_setDir (canon_fillWord (canon_invalidateWord (canon_recallWord h))))

theorem canon_dropOwnSi {s : State} {c : CuId} {word : Nat} (h : Canon s.mem) : Canon (dropOwnSi s c word).mem := by
  unfold dropOwnSi
  split
  · exact canon_ite (canon_dropL1 h) h
  · exact h

theorem canon_dropFarSi {s : State} {word : Nat} (h : Canon s.mem) : Canon (dropFarSi s word).mem :=
  canon_ite (canon_proxDrop h) h

theorem canon_loadWord {s : State} {r : Req} {rt : ReqType} {word : Nat} (h : Canon s.mem) :
    Canon (loadWord s r rt word).mem := by
  unfold loadWord
  refine canon_ite (canon_ite h (canon_fillWord h)) ?_
  split
  · exact canon_ite (canon_wtWord h) (canon_ownWord h)
  · exact canon_wtWord h
  · exact canon_ite h (canon_ite (canon_recallWord h) (canon_fillWord (canon_recallWord h)))
  · exact canon_dropOwnSi (canon_recallWord h)

theorem canon_putReq {s : State} {k : Nat} {r : Req} (h : Canon s.mem) : Canon (putReq s k r).mem := h

theorem canon_serveLoad {s : State} {k : Nat} {r : Req} {rt : ReqType} (h : Canon s.mem) : Canon (serveLoad s k r rt).mem := by
  unfold serveLoad
  split
  next bad t e =>
  have ht : Canon t.mem := canon_of_snd e (canon_errVals h)
  exact canon_putReq (canon_foldl (fun hs => canon_dropHalf (canon_loadWord hs))
    (canon_foldl canon_keepView (canon_foldl canon_drainLine ht)))

theorem canon_servePref {s : State} {k : Nat} {r : Req} {msc : Bool} (h : Canon s.mem) : Canon (servePref s k r msc).mem :=
  canon_putReq (canon_ite h (canon_foldl (fun hs => canon_dropHalf (canon_wtWord hs)) h))

theorem canon_ask {s : State} {r : Reader} {t : Tag} {blk : Nat} (h : Canon s.mem) : Canon (Reader.ask s r t blk).mem :=
  canon_addReq h

theorem canon_askBytes {s : State} {place : Nat} {pa : Nat} (h : Canon s.mem) : Canon (askBytes s place pa).mem :=
  canon_ite h (canon_addReq h)

theorem canon_dropBytes {s : State} {place : Nat} (h : Canon s.mem) : Canon (dropBytes s place).mem := h

theorem canon_saw {s : State} {r : Reader} {tagged : Bool} (h : Canon s.mem) : Canon (Reader.saw s r tagged).mem := by
  unfold Reader.saw
  split
  · exact canon_sawValue h
  · exact h

theorem canon_readerFinish {s : State} {r : Reader} (h : Canon s.mem) : Canon (r.finish s).mem := by
  cases r
  · exact h
  · exact h

theorem canon_keepNone {s : State} {r : Reader} {word : Nat} (h : Canon s.mem) : Canon (Reader.keepNone s r word).mem := by
  unfold Reader.keepNone
  split
  · exact canon_dropOwnSi h
  · exact h

theorem canon_readByte {s : State} {r : Reader} {t : Tag} {sup : Bool} {va : Addr} (h : Canon s.mem) :
    Canon (readByte s r t sup va).2.mem := by
  unfold readByte
  split
  · next e => exact canon_of_snd e (canon_translate h)
  · next e => exact canon_of_snd e (canon_translate h)
  · next e => exact canon_of_snd e (canon_translate h)
  · next t e =>
    have ht : Canon t.mem := canon_of_snd e (canon_translate h)
    split
    · exact ht
    · split
      · split
        · split
          · exact ht
          · exact canon_saw (canon_dropFarSi (canon_keepNone ht))
        · exact canon_ask ht
      · split
        · exact ht
        · split
          · exact canon_violate ht
          · split
            · exact ht
            · exact canon_keepView (canon_saw (canon_keepNone (canon_ite (canon_drainLine ht) ht)))

theorem canon_virtBytes {s : State} {r : Reader} {tag : Tag} {sup : Bool} {va : Addr} {n : Nat} (h : Canon s.mem) :
    Canon (virtBytes s r tag sup va n).2.mem := by
  induction n generalizing s va with
  | zero => exact h
  | succ n ih =>
    unfold virtBytes
    split
    · next e => exact canon_of_snd e (canon_readByte h)
    · next b u e =>
      have hu : Canon u.mem := canon_of_snd e (canon_readByte h)
      split
      · next e2 => exact canon_of_snd e2 (ih hu)
      · exact ih hu

theorem canon_readEnds {α : Type} {r : Reader} {p : Except (Nat × Addr) α × State} (h : Canon p.2.mem) :
    Canon (readEnds r p).2.mem := by
  unfold readEnds
  split
  · exact h
  · exact canon_readerFinish h

theorem canon_readVirt {s : State} {r : Reader} {t : Tag} {sup : Bool} {va : Addr} {n : Nat} (h : Canon s.mem) :
    Canon (readVirt s r t sup va n).2.mem := canon_readEnds (canon_virtBytes h)

theorem canon_mergeStore {s : State} {r : Req} {bs : Bytes} {copies : Bool} (h : Canon s.mem) :
    Canon (mergeStore s r bs copies).mem :=
  canon_ite (canon_foldl canon_dropHalf (canon_l1Write (canon_commit h))) (canon_commit h)

theorem canon_storeWord {s : State} {r : Req} {rt : ReqType} {word : Nat} (h : Canon s.mem) :
    Canon (storeWord s r rt word).mem := by
  unfold storeWord
  split
  · exact canon_ownWord h
  · exact canon_invalidateWord (canon_ite (canon_recallWord h) (canon_ite (canon_recallWord h) h))
  · exact canon_invalidateWord (canon_ite (canon_recallWord h) (canon_ite (canon_recallWord h) h))
  · exact canon_dropOwnSi (canon_invalidateWord (canon_recallWord h))

theorem canon_serveStore {s : State} {k : Nat} {r : Req} {rt : ReqType} (h : Canon s.mem) : Canon (serveStore s k r rt).mem := by
  unfold serveStore
  split
  next bad t e =>
  have ht : Canon t.mem := canon_of_snd e (canon_errVals h)
  extract_lets +onlyGivenNames good bs words s1 lines s2
  have h2 : Canon s2.mem := canon_foldl canon_drainLine (canon_foldl canon_ctlWrite ht)
  clear_value s2
  refine canon_putReq (canon_ite ?_ ?_)
  · split
    · exact canon_l1Write (canon_foldl canon_loadWord h2)
    · exact canon_mergeStore h2
    · exact canon_mergeStore h2
    · exact canon_mergeStore h2
  · split
    · exact canon_ite (canon_mergeStore (canon_foldl (fun hs => canon_invalidateWord (canon_recallWord hs)) h2))
        (canon_l1Write (canon_foldl (fun hs => canon_dropHalf (canon_storeWord hs)) h2))
    · exact canon_mergeStore (canon_foldl canon_storeWord h2)
    · exact canon_mergeStore (canon_foldl canon_storeWord h2)
    · exact canon_mergeStore (canon_foldl canon_storeWord h2)

theorem canon_atomPrep {s : State} {r : Req} {pa n : Nat} (h : Canon s.mem) : Canon (atomPrep s r pa n).mem := by
  unfold atomPrep
  extract_lets s1
  have h1 : Canon s1.mem := canon_ite (canon_drainLine h) h
  exact canon_ite h1 (canon_foldl (fun hs => canon_dropOwnSi (canon_invalidateWord (canon_recallWord hs))) h1)

theorem canon_atomAct {s : State} {r : Req} {a : Acc} {pa : Nat} (h : Canon s.mem) : Canon (atomAct s r a pa).st.mem := by
  unfold atomAct
  extract_lets
  split
  · exact h
  · exact homeWrite_memWf h _ _

theorem canon_atomLane {s : State} {k : Nat} {r : Req} {a : Acc} {v : AtomRes} (hv : atomLane s k r a = some v)
    (h : Canon s.mem) :
    Canon v.st.mem := by
  unfold atomLane at hv
  split at hv
  · cases hv
    exact canon_violate h
  · extract_lets +onlyGivenNames n p s1 at hv
    have h1 : Canon s1.mem := canon_atomPrep h
    clear_value s1
    split at hv
    · dsimp only at hv
      split at hv
      · cases hv
        exact h1
      · split at hv
        · cases hv
          exact h1
        · split at hv
          · exact nomatch hv
          · cases hv
            exact h1
          · next hb =>
            cases hv
            exact canon_atomAct (canon_atomPrep (canon_breakPage hb h1))
    · cases hv
      exact canon_atomAct h1

theorem canon_atomLanes {s t : State} {k : Nat} {r : Req} {as : List Acc} {vs : List RepVal} {bs : Bytes}
    (ht : atomLanes s k r as = some (vs, bs, t)) (h : Canon s.mem) : Canon t.mem := by
  induction as generalizing s t vs bs with
  | nil =>
    cases ht
    exact h
  | cons a as ih =>
    unfold atomLanes at ht
    split at ht
    · exact nomatch ht
    · next v hv =>
      split at ht
      · exact nomatch ht
      · next e =>
        cases ht
        exact ih e (canon_atomLane hv h)

theorem canon_atomReady {s : State} {r : Req} (h : Canon s.mem) : Canon (atomReady s r).mem := canon_foldl canon_atomPrep h

theorem canon_serveAtomic {s : State} {k : Nat} {r : Req} (h : Canon s.mem) : Canon (serveAtomic s k r).mem := by
  unfold serveAtomic
  extract_lets old
  split
  · exact h
  · next e => exact canon_putReq (canon_commitOver (canon_atomLanes e (canon_atomReady h)))

theorem lands_homeOwnRequest {k : Nat} {s : State} : Lands s (execHomeOwnRequest k s) := by
  unfold execHomeOwnRequest
  split
  · split
    · exact lands_next canon_serveLoad
    · exact lands_next canon_serveLoad
    · exact lands_next canon_serveStore
    · exact lands_next canon_serveStore
    · exact lands_same
  · exact lands_same

theorem lands_homeWtLoad {k : Nat} {s : State} : Lands s (execHomeWtLoad k s) := by
  unfold execHomeWtLoad
  split
  · split
    · exact lands_next canon_serveLoad
    · exact lands_next canon_serveLoad
    · exact lands_next canon_servePref
    · exact lands_same
  · exact lands_same

theorem lands_homeSiLoad {k : Nat} {s : State} : Lands s (execHomeSiLoad k s) := by
  unfold execHomeSiLoad
  split
  · exact lands_ite (lands_next canon_serveLoad) lands_same
  · exact lands_same

theorem lands_homeWtSiStore {k : Nat} {s : State} : Lands s (execHomeWtSiStore k s) := by
  unfold execHomeWtSiStore
  split
  · split
    · exact lands_next canon_serveStore
    · exact lands_next canon_serveStore
    · exact lands_next canon_serveStore
    · exact lands_next canon_serveStore
    · exact lands_same
  · exact lands_same

theorem lands_homeUncLoad {k : Nat} {s : State} : Lands s (execHomeUncLoad k s) := by
  unfold execHomeUncLoad
  split
  · exact lands_ite (lands_next canon_serveLoad) lands_same
  · exact lands_same

theorem lands_homeUncStoreAtomic {k : Nat} {s : State} : Lands s (execHomeUncStoreAtomic k s) := by
  unfold execHomeUncStoreAtomic
  split
  · split
    · exact lands_next canon_serveStore
    · exact lands_next canon_serveStore
    · exact lands_next canon_serveAtomic
    · exact lands_next canon_serveAtomic
    · exact lands_next canon_serveAtomic
    · exact lands_same
  · exact lands_same

theorem lands_recall {c : CuId} {word : Nat} {clean : Bool} {s : State} : Lands s (execRecall c word clean s) :=
  lands_ite (lands_next canon_proxRecall) (lands_ite (lands_next canon_recallWord) lands_same)

theorem lands_invalidate {c : CuId} {word : Nat} {s : State} : Lands s (execInvalidate c word s) :=
  lands_ite (lands_next fun h => canon_ite h (canon_proxDrop h)) (lands_ite (lands_next canon_dropWord) lands_same)

theorem lands_writeBack {c : CuId} {line : Nat} {s : State} : Lands s (execWriteBack c line s) :=
  lands_ite (lands_next (canon_foldl canon_proxClean)) (lands_next (canon_foldl canon_writeBackWord))

theorem lands_l1Eviction {c : CuId} {line : Nat} {s : State} : Lands s (execL1Eviction c line s) :=
  lands_ite (lands_next fun h => canon_leaveLine (canon_foldl canon_flushWord h)) (lands_next (canon_foldl canon_flushWord))

theorem canon_lineToPlinth {s : State} {line : Nat} (h : Canon s.mem) : Canon (lineToPlinth s line).mem :=
  lineToPlinth_memWf h line

theorem canon_lineToStore {s : State} {line : Nat} (h : Canon s.mem) : Canon (lineToStore s line).mem :=
  lineToStore_memWf h line

end Sys2Proof.Machine
end

section
/-! SUPPORT. Memory stays in canonical form: plinths, replies and accumulation. -/

namespace Sys2Proof.Machine

open Sys2Proof Claims

/-- A byte that a line took over, and what stood dirty in L2 for it. -/
theorem canon_byteSet {m : Mem} {k j : Nat} {v : Byte} (h : Canon m) :
    Canon { m with bytes := sSet 0 m.bytes k v, l2 := sErase m.l2 j } := by
  obtain ⟨hb, hm, hl, hr⟩ := canon_iff.mp h
  exact canon_iff.mpr ⟨sWf_sSet hb, hm, sSortedFrom_sErase _ hl, hr⟩

theorem lands_l2Eviction {line : Nat} {s : State} : Lands s (execL2Eviction line s) := by
  unfold execL2Eviction
  extract_lets ws s1 s2 s3 s4
  refine lands_next fun h => ?_
  have h3 : Canon s3.mem := by
    have h2 : Canon s2.mem :=
      canon_foldl canon_proxDrop (canon_foldl (fun hs => canon_invalidateWord (canon_recallWord hs)) h)
    exact canon_ite (canon_proxLeave h2) h2
  have h4 : Canon s4.mem := canon_ite h3 (canon_dropViews h3)
  exact canon_lineToPlinth (canon_otherTables h4)

theorem canon_activate {s : State} {p : Nat} (h : Canon s.mem) : Canon (activate s p).mem := by
  unfold activate
  exact canon_ite (canon_modPlinth h) (canon_ite (canon_modPlinth h) h)

theorem lands_plinthRd {pa size : Nat} {activates : Bool} {s : State} : Lands s (execPlinthRd pa size activates s) :=
  lands_ite lands_same (lands_next fun h => canon_ite (canon_activate (canon_modPlinth h)) (canon_modPlinth h))

theorem lands_plinthWr {line : Nat} {activates : Bool} {s : State} : Lands s (execPlinthWr line activates s) :=
  lands_ite (lands_next fun h => canon_activate (canon_lineToStore (canon_lineToPlinth h))) (lands_next canon_lineToPlinth)

theorem lands_plinthAt {k : Nat} {s : State} : Lands s (execPlinthAt k s) := by
  unfold execPlinthAt
  split
  · split
    · exact lands_ite lands_same (lands_next fun h => canon_lineToPlinth (canon_serveAtomic h))
    · exact lands_ite lands_same (lands_next fun h => canon_lineToPlinth (canon_serveAtomic h))
    · exact lands_ite lands_same (lands_next fun h => canon_lineToPlinth (canon_serveAtomic h))
    · exact lands_same
  · exact lands_same

theorem canon_unpark {s : State} {w : WarpId} (h : Canon s.mem) : Canon (unpark s w).mem := h

theorem canon_freeReq {s : State} {k : Nat} (h : Canon s.mem) : Canon (freeReq s k).mem := h

theorem canon_deliverVal {s : State} {r : Req} {v : RepVal} (h : Canon s.mem) : Canon (deliverVal s r v).mem := by
  unfold deliverVal
  split
  · have ho := canon_orFstat (w := r.wid) (f := v.flags) h
    exact canon_ite ho (canon_ite (canon_storeRefused ho) (canon_ite (canon_markBad ho) (canon_putLoaded ho)))
  · exact h

theorem canon_deliverReply {s : State} {k : Nat} {r : Req} {vals : List RepVal} (h : Canon s.mem) :
    Canon (deliverReply s k r vals).mem := by
  unfold deliverReply
  extract_lets +onlyGivenNames s1 s2 s3
  have h2 : Canon s2.mem := canon_freeReq (canon_foldl canon_deliverVal h)
  clear_value s2
  have h3 : Canon s3.mem := by
    unfold s3
    split
    · exact canon_noteTag h2
    · exact canon_noteTag h2
    · exact h2
  exact canon_unpark (canon_modWarp (canon_sawValue h3))

theorem canon_farDone {s : State} {r : Req} (h : Canon s.mem) : Canon (farDone s r).mem := by
  unfold farDone
  refine canon_ite h ?_
  split
  · exact canon_foldl (fun hs => canon_dropOwnSi (canon_proxDrop (canon_invalidateWord hs))) h
  · exact canon_foldl (fun hs => canon_dropOwnSi (canon_proxDrop (canon_invalidateWord hs))) h
  · exact canon_foldl (fun hs => canon_dropOwnSi (canon_proxDrop (canon_invalidateWord hs))) h
  · exact canon_foldl (fun hs => canon_dropOwnSi (canon_proxDrop (canon_invalidateWord hs))) h
  · exact canon_foldl (fun hs => canon_dropOwnSi (canon_proxDrop (canon_invalidateWord hs))) h
  · refine canon_foldl canon_dropHalf (canon_l1Write (canon_foldl (fun {s} {w} hs => ?_) h))
    exact canon_foldl canon_byteSet (canon_invalidateWord (canon_ite hs (canon_recallWord hs)))
  · refine canon_foldl canon_dropHalf (canon_l1Write (canon_foldl (fun {s} {w} hs => ?_) h))
    exact canon_foldl canon_byteSet (canon_invalidateWord (canon_ite hs (canon_recallWord hs)))
  · exact canon_foldl (fun hs => canon_dropFarSi (canon_dropOwnSi (canon_proxRecall hs))) h
  · exact canon_foldl (fun hs => canon_dropFarSi (canon_dropOwnSi (canon_proxRecall hs))) h
  · exact h

theorem canon_grantWords {s : State} {r : Req} {g : ReqType} {ws : List ExtWord} (h : Canon s.mem) :
    Canon (grantWords s r g ws).mem := by
  unfold grantWords
  split
  · exact h
  · exact canon_foldl (fun hs => canon_proxHalf (canon_proxFill hs)) h

theorem canon_wbackDone {s : State} {r : Req} (h : Canon s.mem) : Canon (wbackDone s r).mem := by
  refine canon_foldl (fun {s} {a} hs => ?_) h
  split
  · exact canon_ite (canon_byteSet hs) hs
  · exact hs

theorem canon_extCascades {s : State} {w : WarpId} {x : ExtReply} (h : Canon s.mem) : Canon (extCascades s w x).mem := by
  unfold extCascades
  split
  · exact canon_foldl canon_addAsync h
  · exact h

theorem canon_acceptFar {s : State} {k : Nat} {r : Req} {x : ExtReply} (h : Canon s.mem) : Canon (acceptFar s k r x).mem := by
  unfold acceptFar
  split
  · exact canon_serveStore (canon_grantWords h)
  · exact canon_serveStore (canon_grantWords h)
  · exact canon_putReq (canon_otherTables h)
  · exact canon_freeReq (canon_wbackDone h)
  · exact canon_freeReq (canon_orFstat (canon_extCascades (canon_farDone h)))

theorem canon_refuseFar {s : State} {k : Nat} {r : Req} {x : ExtReply} (h : Canon s.mem) : Canon (refuseFar s k r x).mem := by
  unfold refuseFar
  extract_lets +onlyGivenNames vals bad s1
  have h1 : Canon s1.mem := canon_foldl canon_violate h
  clear_value s1
  split
  · exact canon_freeReq (canon_wbackDone h1)
  · exact canon_freeReq (canon_orFstat (canon_extCascades (canon_foldl canon_storeRefused
      (canon_farDone (canon_ite (canon_foldl canon_setOvf h1) h1)))))

theorem lands_storeAcceptance {a : Answer} {s : State} : Lands s (execStoreAcceptance a s) := by
  unfold execStoreAcceptance
  extract_lets k x
  split
  · exact lands_ite lands_same (lands_ite (lands_next fun h => canon_freeReq (canon_orFstat h))
      (lands_ite (lands_next fun h => canon_acceptFar (canon_depart h)) lands_same))
  · exact lands_same

theorem lands_storeErrorResponse {a : Answer} {s : State} : Lands s (execStoreErrorResponse a s) := by
  unfold execStoreErrorResponse
  extract_lets +onlyGivenNames k x
  split
  · exact lands_ite lands_same
      (lands_ite (lands_next fun h => canon_freeReq (canon_orFstat (canon_foldl canon_storeRefused h)))
        (lands_ite (lands_next fun h => canon_refuseFar (canon_depart h)) lands_same))
  · exact lands_same

theorem canon_heldAcc {s : State} {c : CuId} {line i : Nat} {n : Int} {tag : BitVec 3} {depth : Nat} {u : UpdLine}
    (h : Canon s.mem) :
    Canon (heldAcc s c line i n tag depth u).mem := canon_ite h h

theorem canon_updClean {s : State} {c : CuId} {t : Tag} {line : Nat} (h : Canon s.mem) : Canon (updClean s c t line).mem := by
  unfold updClean
  split
  · exact canon_ite h (canon_leaveLine h)
  · exact h

theorem canon_accBody {a b : Operand} {m : MemExt} {x : Issue} {s : State} (h : Canon s.mem) : Res.Canon (accBody a b m x s) := by
  unfold accBody
  refine resCanon_ite (resCanon_hold h) ?_
  extract_lets +onlyGivenNames post
  generalize hj : judge s _ _ _ _ _ _ = p
  obtain ⟨j, t⟩ := p
  have ht : Canon t.mem := canon_of_snd hj (canon_judge h)
  refine resCanon_ite (resCanon_hold ht) ?_
  have h1 : Canon ((blocksOf j.good).foldl (fun s l => updClean s (cuOf x.gid) (tagOf s x.w) l) t).mem :=
    canon_foldl canon_updClean ht
  refine resCanon_ite (resCanon_hold h1) (resCanon_ok (canon_logRegion (canon_foldl canon_addReq
    (canon_foldl (fun {s} {v} hs => ?_) (canon_foldl canon_setOvf (canon_orFstat h1))))))
  split
  · exact canon_heldAcc hs
  · exact hs

theorem lands_acc {p : Pr} {a b : Operand} {x : MemExt} {s : State} (hcur : s.cur ≠ none) : Lands s (execAcc p a b x s) :=
  lands_run hcur canon_accBody

theorem lands_join {k : Nat} {s : State} : Lands s (execJoin k s) := by
  unfold execJoin
  split
  · exact lands_ite (lands_next canon_joinAt) lands_same
  · exact lands_same

theorem canon_refuseCombine {s : State} {line : Nat} (h : Canon s.mem) : Canon (refuseCombine s line).mem := by
  unfold refuseCombine
  extract_lets s1
  split
  · exact canon_setOvf (canon_violate h)
  · exact canon_violate h

theorem canon_departPush {s : State} {c : Combine} (h : Canon s.mem) : Canon (departPush s c).2.mem := by
  unfold departPush
  split
  · exact h
  · split
    · next e => exact canon_of_snd e (canon_sendOut h)
    · next e => exact canon_of_snd e (canon_sendOut h)

theorem canon_farCombine {s : State} {k : Nat} {c : Combine} {x : ExtReply} (h : Canon s.mem) :
    Canon (farCombine s k c x).mem := by
  unfold farCombine
  split
  next c' t e =>
  have ht : Canon t.mem := canon_of_snd e (canon_departPush h)
  refine canon_ite (canon_lowerTracker (canon_refuseCombine ?_)) ?_
  · exact ht
  · exact ht

theorem lands_combine {a : Answer} {s : State} : Lands s (execCombine a s) := by
  unfold execCombine
  extract_lets +onlyGivenNames k x
  split
  · refine lands_ite lands_same (lands_ite (lands_next canon_farCombine) (lands_ite lands_same (lands_next fun h => ?_)))
    exact canon_combineAt h
  · exact lands_same

theorem lands_combineAck {k : Nat} {s : State} : Lands s (execCombineAck k s) := by
  unfold execCombineAck
  split
  · exact lands_ite (lands_next fun h => canon_lowerTracker h) lands_same
  · exact lands_same

theorem canon_answerRegion {s : State} {k : Nat} {r : Req} {acv : Nat} (h : Canon s.mem) : Canon (answerRegion s k r acv).mem :=
  canon_putReq h

theorem lands_regionLoad {k : Nat} {s : State} : Lands s (execRegionLoad k s) := by
  unfold execRegionLoad
  split
  · split
    · exact lands_ite (lands_next fun h => canon_answerRegion (canon_settle h)) (lands_ite (lands_next id)
        (lands_ite lands_same (lands_next fun h => canon_answerRegion (canon_drainLine h))))
    · exact lands_same
  · exact lands_same

theorem lands_tighten {c : CuId} {l : LineLimit} {s : State} : Lands s (execTighten c l s) := by
  unfold execTighten
  extract_lets line limit
  refine lands_ite (lands_next fun h => canon_ite (canon_proxTighten h) h) ?_
  split
  · exact lands_ite (lands_next fun h => canon_tightenLine (canon_settle h)) lands_same
  · exact lands_same

theorem lands_tightenAck {k : Nat} {s : State} : Lands s (execTightenAck k s) := by
  unfold execTightenAck
  split
  · split
    · exact lands_ite (lands_next fun h => canon_answerRegion (canon_settle h)) lands_same
    · exact lands_same
  · exact lands_same

theorem canon_askDrain {s : State} {line : Nat} {gone : Bool} (h : Canon s.mem) : Canon (askDrain s line gone).mem := by
  unfold askDrain
  refine canon_ite (canon_drainLine h) (canon_ite h ?_)
  exact canon_drainLine h

theorem lands_fullDrain {line : Nat} {s : State} : Lands s (execFullDrain line s) :=
  lands_ite (lands_next canon_proxDrain) (lands_ite (lands_next canon_askDrain) lands_same)

theorem lands_regionRecall {line : Nat} {s : State} : Lands s (execRegionRecall line s) :=
  lands_ite (lands_next canon_proxLeave) (lands_ite (lands_next canon_askDrain) lands_same)

theorem canon_rangeReq {s : State} {x : Issue} {kind : ReqKind} {va len : Nat} {scp : Scope} (h : Canon s.mem) :
    Canon (rangeReq s x kind va len scp).mem := canon_addReq h

theorem canon_rangeBody {kind : ReqKind} {a b : Operand} {m : MemExt} {x : Issue} {s : State} (h : Canon s.mem) :
    Res.Canon (rangeBody kind a b m x s) :=
  resCanon_ite (resCanon_hold h) (resCanon_ite (resCanon_ok h) (resCanon_ite (resCanon_hold h) (resCanon_ok (canon_rangeReq h))))

theorem lands_accdrain {p : Pr} {a b : Operand} {x : MemExt} {s : State} (hcur : s.cur ≠ none) :
    Lands s (execAccdrain p a b x s) := lands_run hcur canon_rangeBody

theorem canon_drainLines {s : State} {ls : List Nat} {far : Bool} (h : Canon s.mem) : Canon (drainLines s ls far).mem :=
  canon_foldl (fun hs => canon_ite (canon_pushProxy (canon_drainLine hs)) (canon_drainLine hs)) h

theorem lands_accdrainComplete {k : Nat} {s : State} : Lands s (execAccdrainComplete k s) := by
  unfold execAccdrainComplete
  split
  · exact lands_ite (lands_ite lands_same (lands_next fun h => canon_ite (canon_drainLines h)
      (canon_freeReq (canon_drainLines h)))) lands_same
  · exact lands_same

theorem canon_readRegions {s : State} {v : DWord} (h : Canon s.mem) : Canon (readRegions s v).2.mem := by
  unfold readRegions
  split
  · exact h
  · refine canon_foldl_snd (fun {r} {i} hr => ?_) h
    dsimp only
    split
    · exact hr
    · split
      · exact hr
      · exact canon_violate hr

theorem canon_writeAcctab {s : State} {v : DWord} (h : Canon s.mem) : Canon (writeAcctab s v).mem := by
  unfold writeAcctab
  extract_lets s1
  have h1 : Canon s1.mem := canon_foldl (fun hs => canon_ite (canon_proxLeave hs) (canon_drainLine hs)) h
  split
  next es t e =>
  have ht : Canon t.mem := canon_of_snd e (canon_readRegions h1)
  exact ht

theorem canon_recallRegions {s : State} (h : Canon s.mem) : Canon (recallRegions s).mem :=
  canon_foldl (fun hs => canon_ite (canon_proxLeave hs) (canon_askDrain hs)) h

end Sys2Proof.Machine
end

section
/-! SUPPORT. Memory stays in canonical form: atomics, fetches, control, queues, cross-lane and tiles. -/

namespace Sys2Proof.Machine

open Sys2Proof Claims

theorem canon_globalAtom {kind : ReqKind} {d : Option Operand} {a b : Operand} {c : Option Operand} {m : MemExt}
    {x : Issue} {s : State} (h : Canon s.mem) :
    Res.Canon (globalAtom kind d a b c m x s) := by
  unfold globalAtom
  refine resCanon_ite (resCanon_hold h) (resCanon_ite (resCanon_hold (canon_releaseBegin h)) ?_)
  extract_lets +onlyGivenNames n
  generalize hj : judge s _ _ _ _ _ _ = p
  obtain ⟨j, t⟩ := p
  have ht : Canon t.mem := canon_of_snd hj (canon_judge h)
  exact resCanon_ite (resCanon_hold ht)
    (resCanon_ok (canon_logRegion (canon_foldl canon_askBlock (canon_ite (canon_releaseAt ht) ht))))

theorem canon_padAtomLane {kind : ReqKind} {b : Operand} {c : Option Operand} {n : Nat} {x : Issue} {h : GroupId}
    {s : State} {g : Good} (hc : Canon s.mem) :
    Canon (padAtomLane kind b c n x h s g).mem := by
  unfold padAtomLane
  split
  · exact hc
  · extract_lets +onlyGivenNames old acc r
    clear_value r
    refine canon_orFstat ?_
    split
    · exact canon_padWrite hc
    · exact hc

theorem canon_padAtom {kind : ReqKind} {d : Option Operand} {a b : Operand} {c : Option Operand} {m : MemExt} {x : Issue}
    {s : State} (h : Canon s.mem) :
    Res.Canon (padAtom kind d a b c m x s) := by
  unfold padAtom
  refine resCanon_ite (resCanon_hold h) (resCanon_ite (resCanon_hold (canon_releaseBegin h)) ?_)
  extract_lets +onlyGivenNames n tgt j
  clear_value j tgt
  split
  · exact resCanon_ok h
  · extract_lets +onlyGivenNames errs
    refine resCanon_ite ?_ (resCanon_ite (resCanon_hold h) ?_)
    · split
      · exact resCanon_ok (canon_markBad (canon_deadPeer h))
      · exact resCanon_ok (canon_storeRefused (canon_deadPeer h))
    · extract_lets +onlyGivenNames s1 s2 marked poison s3 r s4
      have h2 : Canon s2.mem := canon_ite (canon_dropAt (canon_ite (canon_releaseAt h) h)) (canon_ite (canon_releaseAt h) h)
      have h3 : Canon s3.mem := by
        unfold s3
        split
        · exact canon_markBad h2
        · exact canon_storeRefused h2
      have hr : Canon r.1.mem := canon_foldl_fst (fun hr => canon_padAtomLane hr) h3
      have h4 : Canon s4.mem := by
        unfold s4
        split
        · exact canon_foldl canon_putLoaded hr
        · exact hr
      exact resCanon_ok h4

theorem lands_atom {p : Pr} {sp : Bool} {d a b : Operand} {x : MemExt} {s : State} (hcur : s.cur ≠ none) :
    Lands s (execAtom p sp d a b x s) := by
  refine lands_run hcur fun h => ?_
  split
  · exact canon_padAtom h
  · exact canon_globalAtom h

theorem lands_red {p : Pr} {sp : Bool} {a b : Operand} {x : MemExt} {s : State} (hcur : s.cur ≠ none) :
    Lands s (execRed p sp a b x s) := by
  refine lands_run hcur fun h => ?_
  split
  · exact canon_padAtom h
  · exact canon_globalAtom h

theorem lands_cas {p : Pr} {sp : Bool} {d a b c : Operand} {x : MemExt} {s : State} (hcur : s.cur ≠ none) :
    Lands s (execCas p sp d a b c x s) := by
  refine lands_run hcur fun h => ?_
  split
  · exact canon_padAtom h
  · exact canon_globalAtom h

theorem canon_farFetch {s : State} {w : WarpId} {blk : Nat} (h : Canon s.mem) : Canon (farFetch s w blk).mem :=
  canon_ite h (canon_addReq h)

theorem canon_fetched {s : State} {w : WarpId} {pa : Nat} {bs : List Byte} (h : Canon s.mem) :
    Canon (fetched s w pa bs).2.mem := h

theorem canon_fetchPa {s : State} {w : WarpId} {pa : Nat} (h : Canon s.mem) : Canon (fetchPa s w pa).2.mem := by
  unfold fetchPa
  extract_lets c blk
  split
  · exact h
  · split
    · exact h
    · split
      · exact canon_fetched h
      · split
        · exact canon_farFetch h
        · split
          · exact canon_fetched (canon_keepView h)
          · exact canon_ite (canon_violate h) h
          · exact h

theorem canon_fetchAt {s : State} {w : WarpId} {pc : Addr} (h : Canon s.mem) : Canon (fetchAt s w pc).2.mem := by
  unfold fetchAt
  split
  · next e => exact canon_fetchPa (canon_of_snd e (canon_translate h))
  · next e => exact canon_of_snd e (canon_translate h)
  · next e => exact canon_of_snd e (canon_translate h)
  · next e => exact canon_of_snd e (canon_translate h)

theorem canon_fetchArrives {s : State} {r : Req} {bs : Except Nat (List Byte)} (h : Canon s.mem) :
    Canon (fetchArrives s r bs).mem := by
  unfold fetchArrives
  split
  · exact h
  · exact h

theorem canon_transfer {x : Issue} {s : State} {link : Option Operand} {ts : List (Nat × Addr)} (h : Canon s.mem) :
    (transfer x s link ts).Canon := resCanon_ok (canon_modWarp h)

theorem lands_nop {h : Hdr} {s : State} (hcur : s.cur ≠ none) : Lands s (execNop h s) :=
  lands_run hcur fun h => resCanon_ok h

theorem lands_bra {p : Pr} {disp : Word} {s : State} (hcur : s.cur ≠ none) : Lands s (execBra p disp s) :=
  lands_run hcur canon_transfer

theorem lands_brx {p : Pr} {a : Operand} {s : State} (hcur : s.cur ≠ none) : Lands s (execBrx p a s) :=
  lands_run hcur canon_transfer

theorem lands_call {p : Pr} {ind : Bool} {d a : Operand} {disp : Word} {s : State} (hcur : s.cur ≠ none) :
    Lands s (execCall p ind d a disp s) := lands_run hcur canon_transfer

theorem lands_ret {p : Pr} {a : Operand} {s : State} (hcur : s.cur ≠ none) : Lands s (execRet p a s) :=
  lands_run hcur canon_transfer

theorem canon_handlerEnds {s : State} {w : WarpId} (h : Canon s.mem) : Canon (handlerEnds s w).mem := by
  unfold handlerEnds
  split
  · split
    · refine canon_ite (canon_fatalFault (canon_exitLanes (canon_modWarp (canon_dropReply ?_)))) h
      exact h
    · refine canon_ite (canon_dropReply ?_) h
      exact h
  · exact h

theorem lands_exit {p : Pr} {s : State} (hcur : s.cur ≠ none) : Lands s (execExit p s) :=
  lands_run hcur fun h => resCanon_ok (canon_handlerEnds (canon_exitLanes h))

theorem lands_rpt {cnt : Fin 64} {sd sa sb sc : BitVec 2} {s : State} (hcur : s.cur ≠ none) :
    Lands s (execRpt cnt sd sa sb sc s) := by
  refine lands_run hcur (fun {x} {t} h => ?_)
  have hf : Canon (fetchAt t x.w x.cur.next).2.mem := canon_fetchAt h
  split
  · next e =>
    have hu := canon_of_snd e hf
    split
    · exact resCanon_ite (resCanon_ok hu) trivial
    · trivial
  · next e => exact resCanon_hold (canon_of_snd e hf)
  · trivial

theorem lands_yield {p : Pr} {s : State} (hcur : s.cur ≠ none) : Lands s (execYield p s) :=
  lands_run hcur fun h => resCanon_ok h

theorem lands_idle {p : Pr} {s : State} (hcur : s.cur ≠ none) : Lands s (execIdle p s) :=
  lands_run hcur fun h => resCanon_ok h

theorem lands_spinExcursion {w : WarpId} {s : State} : Lands s (execSpinExcursion w s) := by
  unfold execSpinExcursion
  split
  · exact lands_ite (lands_next id) lands_same
  · exact lands_same

theorem lands_excursionLimit {w : WarpId} {s : State} : Lands s (execExcursionLimit w s) := by
  unfold execExcursionLimit
  split
  · exact lands_ite (lands_next id) lands_same
  · exact lands_same

theorem canon_reserveAll {s : State} {g : GroupId} {ch : Nat} {vs : List DWord} (h : Canon s.mem) :
    Canon (reserveAll s g ch vs).2.mem := by
  induction vs generalizing s with
  | nil => exact h
  | cons v vs ih =>
    have h1 : Canon (reserveOne s g ch).2.mem := canon_reserveOne h
    exact ih h1

theorem canon_postQueue {s : State} {w : WarpId} {sf : Bool} {q : QOp} (h : Canon s.mem) : Canon (postQueue s w sf q).mem :=
  h

theorem canon_queueBody {sf : Bool} {i : Instr} {f : DWord → DWord → DWord → DWord → DWord × Word} {x : Issue} {s : State}
    (h : Canon s.mem) :
    Res.Canon (queueBody sf i f x s) := by
  unfold queueBody
  split
  · exact resCanon_ok h
  · refine resCanon_ite (resCanon_hold h) ?_
    extract_lets +onlyGivenNames sh old
    clear_value sh
    have hg : Canon (gather3 s x sh).2.2.2.mem := canon_gather3 h
    generalize gather3 s x sh = g at hg ⊢
    obtain ⟨a, b, c, t⟩ := g
    dsimp only
    split
    · exact resCanon_ok (canon_postQueue hg)
    · split
      · exact resCanon_ok (canon_postQueue (canon_reserveAll hg))
      · exact resCanon_ok (canon_postQueue hg)

theorem canon_queueWrite {s : State} {w : WarpId} {d : QDest} (h : Canon s.mem) : Canon (queueWrite s w d).mem := by
  unfold queueWrite
  split
  · exact h
  · exact h
  · exact canon_fillSlot h

theorem lands_queueCompletion {w : WarpId} {sf : Bool} {s : State} : Lands s (execQueueCompletion w sf s) := by
  unfold execQueueCompletion
  split
  · exact lands_same
  · next x _ =>
    split
    · exact lands_same
    · next q rest _ =>
      refine lands_ite lands_same (lands_next fun h => ?_)
      have hq : ∀ {t : State}, Canon t.mem → Canon (q.dests.foldl (fun s d => queueWrite s w d) t).mem :=
        fun ht => canon_foldl canon_queueWrite ht
      exact canon_ite (hq h) (canon_orFstat (hq h))

theorem lands_special {i : Instr} {f : SfFun} {ty : FTy} {rm : RMode} {s : State} (hcur : s.cur ≠ none) :
    Lands s (special1 i f ty rm s) := lands_run hcur canon_queueBody

theorem canon_laneVals {s : State} {x : Issue} {u : Option Use} (h : Canon s.mem) : Canon (laneVals s x u).2.mem := by
  have hg : Canon (gather s { x with scalar := false } u).2.mem := canon_gather h
  exact hg

theorem canon_putLanes {s : State} {x : Issue} {u : Option Use} {vs : List DWord} (h : Canon s.mem) :
    Canon (putLanes s x u vs).mem := canon_scatter h

theorem canon_putAll {s : State} {x : Issue} {u : Option Use} {v : DWord} (h : Canon s.mem) : Canon (putAll s x u v).mem := by
  unfold putAll
  split
  · exact canon_scatter h
  · exact canon_scatter h
  · exact canon_putLanes h

theorem lands_shfl {h : Hdr} {seg : Seg} {mode : ShflMode} {d a b : Operand} {s : State} (hcur : s.cur ≠ none) :
    Lands s (execShfl h seg mode d a b s) := by
  refine lands_run hcur (fun {x} {t} h => ?_)
  extract_lets +onlyGivenNames sh w
  clear_value sh
  generalize hl : laneVals t x sh.a = p
  obtain ⟨as, u⟩ := p
  have hu : Canon u.mem := canon_of_snd hl (canon_laneVals h)
  exact resCanon_ok (canon_putLanes (canon_laneVals hu))

theorem lands_vote {h : Hdr} {vm : VoteMode} {d a : Operand} {s : State} (hcur : s.cur ≠ none) :
    Lands s (execVote h vm d a s) := by
  refine lands_run hcur (fun {x} {t} h => ?_)
  extract_lets +onlyGivenNames sh
  clear_value sh
  generalize hl : laneVals t x sh.a = p
  obtain ⟨as, u⟩ := p
  have hu : Canon u.mem := canon_of_snd hl (canon_laneVals h)
  exact resCanon_ok (canon_putAll hu)

theorem lands_bcast {h : Hdr} {d a : Operand} {b : Option Operand} {s : State} (hcur : s.cur ≠ none) :
    Lands s (execBcast h d a b s) := by
  refine lands_run hcur (fun {x} {t} h => ?_)
  extract_lets +onlyGivenNames sh
  clear_value sh
  generalize hl : laneVals t x sh.a = p
  obtain ⟨as, u⟩ := p
  have hu : Canon u.mem := canon_of_snd hl (canon_laneVals h)
  exact resCanon_ok (canon_putAll hu)

theorem lands_redux {h : Hdr} {rm : RMode} {o : ReduxOp} {d a : Operand} {s : State} (hcur : s.cur ≠ none) :
    Lands s (execRedux h rm o d a s) := by
  refine lands_run hcur (fun {x} {t} h => ?_)
  extract_lets +onlyGivenNames sh
  clear_value sh
  generalize hl : laneVals t x sh.a = p
  obtain ⟨as, u⟩ := p
  have hu : Canon u.mem := canon_of_snd hl (canon_laneVals h)
  exact resCanon_ok (canon_putAll (canon_orFstat hu))

theorem lands_scan {h : Hdr} {excl : Bool} {o : ReduxOp} {d a : Operand} {s : State} (hcur : s.cur ≠ none) :
    Lands s (execScan h excl o d a s) := by
  refine lands_run hcur (fun {x} {t} h => ?_)
  extract_lets +onlyGivenNames sh
  clear_value sh
  generalize hl : laneVals t x sh.a = p
  obtain ⟨as, u⟩ := p
  have hu : Canon u.mem := canon_of_snd hl (canon_laneVals h)
  exact resCanon_ok (canon_putLanes (canon_orFstat hu))

theorem canon_applyTileOp {s : State} {q : MatOp} (h : Canon s.mem) : Canon (applyTileOp s q).mem := by
  unfold applyTileOp
  split
  · exact h
  · split
    · exact h
    · exact h
    · split
      · refine canon_orFstat ?_
        exact h
      · exact h

theorem lands_matrixOpComplete {c : CuId} {s : State} : Lands s (execMatrixOpComplete c s) := by
  unfold execMatrixOpComplete
  split
  · exact lands_same
  · exact lands_ite lands_same (lands_next fun h => canon_applyTileOp h)

theorem lands_deferredMatrixIssue {w : WarpId} {cv : Fin 8} {s : State} : Lands s (execDeferredMatrixIssue w cv s) := by
  unfold execDeferredMatrixIssue
  extract_lets c
  refine lands_ite lands_same ?_
  split
  · exact lands_same
  · extract_lets r s'
    split
    · exact lands_next fun h => canon_matIssue h
    · exact lands_same
    · exact lands_next fun h => canon_ite (canon_violate h) (canon_addAsync h)
    · exact lands_next id

theorem lands_mma {p : Pr} {a b : Operand} {x : MatExt} {s : State} (hcur : s.cur ≠ none) : Lands s (execMma p a b x s) :=
  lands_run hcur canon_signBody

theorem lands_mmaq {p : Pr} {a b : Operand} {x : MatExt} {s : State} (hcur : s.cur ≠ none) : Lands s (execMmaq p a b x s) :=
  lands_run hcur canon_signBody

theorem lands_mmas {p : Pr} {a b : Operand} {x : MatExt} {s : State} (hcur : s.cur ≠ none) : Lands s (execMmas p a b x s) :=
  lands_run hcur canon_signBody

theorem canon_tileOp {s : State} {x : Issue} {i : Instr} {t : Nat} {a : Store Word} (h : Canon s.mem) :
    Canon (tileOp s x i t a).mem := canon_ite h (canon_applyTileOp h)

theorem lands_accz {p : Pr} {t : Fin 8} {s : State} (hcur : s.cur ≠ none) : Lands s (execAccz p t s) :=
  lands_run hcur fun h => resCanon_ok (canon_tileOp h)

theorem lands_accrd {h : Hdr} {t : TileIdx} {d a : Operand} {s : State} (hcur : s.cur ≠ none) :
    Lands s (execAccrd h t d a s) := by
  refine lands_run hcur (fun {x} {s} h => ?_)
  dsimp only
  split
  · refine resCanon_ite (resCanon_hold h) (resCanon_ite (resCanon_ok h) (resCanon_ok ?_))
    refine canon_foldl (fun {s} {e} hs => ?_) h
    split
    · exact canon_pushOne hs
    · exact canon_modWarp hs
  · exact resCanon_ok h

theorem lands_accwr {h : Hdr} {t : TileIdx} {a b : Operand} {s : State} (hcur : s.cur ≠ none) :
    Lands s (execAccwr h t a b s) := by
  refine lands_run hcur (fun {x} {t} h => ?_)
  generalize hg : gather t x (some ⟨a, 1, true⟩) = p
  obtain ⟨ds, u⟩ := p
  have hu : Canon u.mem := canon_of_snd hg (canon_gather h)
  dsimp only
  split
  · exact resCanon_ok (canon_tileOp hu)
  · exact resCanon_ok hu

theorem canon_putTile {s : State} {g : GroupId} {t n : Nat} {wid : Wid} {f16 : Bool} {cause : Nat} {bs : List Byte}
    (h : Canon s.mem) :
    Canon (putTile s g t n wid f16 cause bs).mem := h

theorem canon_accldBody {sp : Bool} {t : Nat} {a b : Operand} {m : MemExt} {x : Issue} {s : State} (h : Canon s.mem) :
    Res.Canon (accldBody sp t a b m x s) := by
  unfold accldBody
  refine resCanon_ite (resCanon_hold h) (resCanon_ite ?_ ?_)
  · extract_lets +onlyGivenNames tgt j
    clear_value j tgt
    split
    · exact resCanon_ok h
    · refine resCanon_ite (resCanon_ok h) (resCanon_ok (canon_foldl canon_putTile ?_))
      exact canon_ite (canon_dropAt (canon_ite (canon_deadPeer h) h)) (canon_ite (canon_deadPeer h) h)
  · split
    next j t e =>
    have ht : Canon t.mem := canon_of_snd e (canon_judge h)
    exact resCanon_ite (resCanon_hold ht) (resCanon_ite (resCanon_ok (canon_logRegion ht)) (resCanon_ite (resCanon_hold ht)
      (resCanon_ok (canon_askBlock (canon_cleanBlocks ht)))))

theorem lands_accld {p : Pr} {sp : Bool} {t : Fin 8} {a b : Operand} {x : MemExt} {s : State} (hcur : s.cur ≠ none) :
    Lands s (execAccld p sp t a b x s) := lands_run hcur canon_accldBody

theorem canon_accstBody {sp : Bool} {t : Nat} {a b : Operand} {m : MemExt} {x : Issue} {s : State} (h : Canon s.mem) :
    Res.Canon (accstBody sp t a b m x s) := by
  unfold accstBody
  refine resCanon_ite (resCanon_hold h) (resCanon_ite (resCanon_hold (canon_releaseBegin h)) ?_)
  split
  · exact resCanon_ok h
  · extract_lets +onlyGivenNames low poison data flags
    refine resCanon_ite ?_ ?_
    · extract_lets +onlyGivenNames tgt j
      clear_value j tgt
      split
      · exact resCanon_ok h
      · have hr {c : Prop} [Decidable c] {scp : Scope} : Canon (if c then releaseAt s x.w scp else s).mem :=
          canon_ite (canon_releaseAt h) h
        exact resCanon_ite (resCanon_ok h) (resCanon_ite (resCanon_ok h) (resCanon_ite (resCanon_hold h) (resCanon_ite
          (resCanon_ok (canon_storeRefused (canon_deadPeer hr))) (resCanon_ok (canon_orFstat (canon_foldl canon_padWrite hr))))))
    · split
      next j t e =>
      have ht : Canon t.mem := canon_of_snd e (canon_judge h)
      refine resCanon_ite (resCanon_hold ht) (resCanon_ite (resCanon_ok (canon_logRegion ht)) ?_)
      split
      · exact resCanon_ok ht
      · exact resCanon_ite (resCanon_ok ht) (resCanon_ite (resCanon_hold ht)
          (resCanon_ok (canon_addReq (canon_cleanBlocks (canon_ite (canon_releaseAt ht) ht)))))

theorem lands_accst {p : Pr} {sp : Bool} {t : Fin 8} {a b : Operand} {x : MemExt} {s : State} (hcur : s.cur ≠ none) :
    Lands s (execAccst p sp t a b x s) := lands_run hcur canon_accstBody

theorem canon_deliverTile {s : State} {k : Nat} {r : Req} {vals : List RepVal} (h : Canon s.mem) :
    Canon (deliverTile s k r vals).mem := canon_deliverReply (canon_foldl canon_putTile h)

theorem canon_fillFar {s : State} {k : Nat} {r : Req} {g : ReqType} {ws : List ExtWord} (h : Canon s.mem) :
    Canon (fillFar s k r g ws).mem := by
  unfold fillFar
  split
  · exact h
  · exact canon_ite (canon_grantWords h) (canon_serveLoad (canon_grantWords h))
  · exact canon_ite (canon_grantWords h) (canon_serveLoad (canon_grantWords h))
  · exact h

theorem canon_blockArrives {s : State} {k : Nat} {r : Req} {x : ExtReply} (h : Canon s.mem) :
    Canon (blockArrives s k r x).mem := by
  unfold blockArrives
  extract_lets v cause s1 s2 b1 b2 b3 s3
  have h2 : Canon s2.mem := canon_ite (canon_violate (canon_freeReq h)) (canon_freeReq h)
  have h3 : Canon s3.mem := canon_foldl canon_proxRecall h2
  clear_value s3
  refine canon_ite (canon_fetchArrives h2) (canon_ite ?_ (canon_ite ?_ ?_))
  · exact h2
  · exact h3
  · exact h3

theorem canon_prefArrives {s : State} {k : Nat} {r : Req} {msc : Bool} {x : ExtReply} (h : Canon s.mem) :
    Canon (prefArrives s k r msc x).mem := by
  unfold prefArrives
  split
  · exact canon_freeReq h
  · exact canon_ite (canon_freeReq (canon_servePref (canon_grantWords (canon_depart h)))) h
  · exact canon_ite (canon_freeReq (canon_depart h)) h
  · exact h

end Sys2Proof.Machine
end

section
/-! SUPPORT. Memory stays in canonical form: replies of loads, watched regions and engines. -/

namespace Sys2Proof.Machine

open Sys2Proof Claims

theorem canon_modGroup {s : State} {g : GroupId} {f : Group → Group} (h : Canon s.mem) : Canon (s.modGroup g f).mem := h

theorem lands_loadReply {k : Nat} {x : ExtReply} {s : State} : Lands s (execLoadReply k x s) := by
  unfold execLoadReply
  split
  · exact lands_same
  · next r _ =>
    extract_lets +onlyGivenNames give
    have hg : ∀ {t : State} {vals : List RepVal}, Canon t.mem → Canon (give t vals).mem := by
      intro t vals ht
      unfold give
      split
      · exact canon_deliverTile ht
      · exact canon_deliverReply ht
    clear_value give
    refine lands_ite (lands_ite (lands_next fun h => canon_blockArrives (canon_depart h)) lands_same) (lands_ite ?_ ?_)
    · split
      · exact lands_next canon_prefArrives
      · exact lands_same
    · split
      · exact lands_next hg
      · exact lands_ite (lands_next fun h => canon_extCascades (hg (canon_farDone (canon_depart h)))) lands_same
      · exact lands_ite (lands_next fun h => canon_fillFar (canon_depart h)) lands_same
      · exact lands_ite lands_same (lands_next fun h => hg (canon_foldl canon_violate h))
      · exact lands_same

theorem canon_recallAll {s : State} {ws : List Nat} (h : Canon s.mem) : Canon (recallAll s ws).mem :=
  canon_foldl (fun hs => canon_invalidateWord (canon_recallWord hs)) h

theorem canon_homeStore {s : State} {pa : Nat} {bs : List Byte} {tag : BitVec 3} {wr : Writer} (h : Canon s.mem) :
    Canon (homeStore s pa bs tag wr).mem := canon_commit (canon_recallAll h)

theorem canon_putRegion {s : State} {r : Nat} {g : Region} (h : Canon s.mem) : Canon (putRegion s r g).mem :=
  canon_rawWriteNat h

theorem canon_putFrameMap {s : State} {frame x : Nat} (h : Canon s.mem) : Canon (putFrameMap s frame x).mem :=
  canon_rawWriteNat h

theorem canon_mapRegion {s : State} {r : Nat} {g : Region} (h : Canon s.mem) : Canon (mapRegion s r g).mem := by
  refine canon_foldl (fun {s} {e} hs => ?_) h
  split
  · exact canon_putFrameMap hs
  · exact hs

theorem canon_unmapRegion {s : State} {r : Nat} (h : Canon s.mem) : Canon (unmapRegion s r).mem :=
  canon_foldl canon_rawWriteNat h

theorem canon_quiesce {s : State} {r : Nat} {g : Region} (h : Canon s.mem) : Canon (quiesce s r g).mem := by
  unfold quiesce
  extract_lets s1 s2
  have h1 : Canon s1.mem := by
    unfold s1
    split
    · exact canon_homeStore h
    · exact h
  have h2 : Canon s2.mem := canon_ite (canon_note h1) h1
  exact canon_ite (canon_postEvent h2) h2

theorem canon_forgetRegion {s : State} {r : Nat} (h : Canon s.mem) : Canon (forgetRegion s r).mem := by
  unfold forgetRegion
  split
  · exact canon_ite h h
  · exact h

theorem canon_applyChange {s : State} {r : Nat} {g : Region} (h : Canon s.mem) : Canon (applyChange s r g).mem := by
  unfold applyChange
  split
  · exact h
  · exact canon_forgetRegion (canon_ite (canon_quiesce (canon_putRegion h)) (canon_putRegion h))

theorem lands_pendRunChange {s : State} : Lands s (execPendRunChange s) := by
  unfold execPendRunChange
  split
  · exact lands_next canon_applyChange
  · exact lands_same

theorem canon_dropTask {s : State} {k : Nat} (h : Canon s.mem) : Canon (dropTask s k).mem :=
  canon_foldl (fun hs => canon_ite hs hs) h

theorem canon_dropTrigger {s : State} {g : Region} {k : Nat} {t : Trigger} (h : Canon s.mem) :
    Canon (dropTrigger s g k t).mem := by
  have h1 : Canon (if t.spilled then clearSpillBit s g t.granule t.unit else s).mem := canon_ite (canon_clearSpillBit h) h
  refine canon_addChange ?_
  exact canon_ite (canon_dropTask h1) h1

theorem canon_unwatchRegion {s : State} {r : Nat} (h : Canon s.mem) : Canon (unwatchRegion s r).mem := by
  unfold unwatchRegion
  split
  · exact h
  · exact canon_ite h (canon_forgetRegion (canon_foldl canon_dropTrigger (canon_putRegion (canon_unmapRegion h))))

theorem lands_unwatch {p : Pr} {d a : Operand} {s : State} (hcur : s.cur ≠ none) : Lands s (execUnwatch p d a s) :=
  lands_run hcur fun h => resCanon_ok (canon_scatter (canon_ite (canon_unwatchRegion h) h))

theorem canon_installRegion {s : State} {r : Nat} {g : Region} (h : Canon s.mem) : Canon (installRegion s r g).mem := by
  unfold installRegion
  extract_lets s1 frames owned s2
  have h1 : Canon s1.mem := by
    unfold s1
    split
    · exact canon_homeStore h
    · exact h
  exact canon_mapRegion (canon_putRegion (canon_foldl canon_recallWord h1))

theorem canon_watchInstall {s : State} {d : BitVec 512} {tag : Tag} {launch : Nat} (h : Canon s.mem) :
    Canon (watchInstall s d tag launch).2.mem := by
  unfold watchInstall
  extract_lets +onlyGivenNames g c
  split
  · exact h
  · have hi := canon_installRegion (r := freeRegion s) (g := g) h
    exact hi

theorem lands_watch {p : Pr} {d a : Operand} {s : State} (hcur : s.cur ≠ none) : Lands s (execWatch p d a s) := by
  refine lands_run hcur (fun {x} {t} h => ?_)
  extract_lets +onlyGivenNames va low bad
  have hb : ∀ {c : Nat} {u : State}, Canon u.mem → (bad c u).Canon := fun hu => resCanon_ok hu
  clear_value bad
  refine resCanon_ite (resCanon_hold h) (resCanon_ite (hb h) ?_)
  have hr : Canon (readVirt t (.warp x.w) (tagOf t x.w) (isSup x.w) va 64).2.mem := canon_readVirt h
  split
  · next e => exact resCanon_hold (canon_of_snd e hr)
  · next e => exact hb (canon_of_snd e hr)
  · next e =>
    have hu := canon_of_snd e hr
    exact resCanon_ite (resCanon_hold hu) (resCanon_ok (canon_scatter (canon_watchInstall hu)))

theorem canon_writeWatchtab {s : State} {v : DWord} (h : Canon s.mem) : Canon (writeWatchtab s v).mem := by
  unfold writeWatchtab
  extract_lets s1
  have h1 : Canon s1.mem := canon_foldl canon_unwatchRegion h
  clear_value s1
  exact h1

theorem canon_noteErr {s : State} {g : GroupId} {arr : Nat} (h : Canon s.mem) : Canon (noteErr s g arr).mem :=
  canon_modGroup h

theorem canon_credit {s : State} {g : GroupId} {arr c : Nat} {err : Bool} (h : Canon s.mem) :
    Canon (credit s g arr c err).mem := by
  unfold credit
  split
  · exact h
  · extract_lets x rem past rem' fills phase e s1
    have h1 : Canon s1.mem := canon_padWrite h
    clear_value s1
    exact canon_ite (canon_setFull h1) h1

theorem canon_addEng {s : State} {e : EngOp} (h : Canon s.mem) : Canon (addEng s e).mem := h

theorem canon_readDesc {s : State} {x : Issue} {va : Addr} {n : Nat} (h : Canon s.mem) : Canon (readDesc s x va n).2.mem :=
  canon_readVirt h

theorem canon_startCopy {s : State} {x : Issue} {k : EngKind} {desc : List Byte} {arr : Nat} {arrs : List GroupId}
    {es : List Elem} {first : Bool} (h : Canon s.mem) :
    Res.Canon (startCopy s x k desc arr arrs es first) := by
  unfold startCopy
  split
  · exact resCanon_ok h
  · exact resCanon_ite (resCanon_hold h) (resCanon_ok (canon_addEng h))

theorem canon_xcopyBody {a : Operand} {m : EngExt} {x : Issue} {s : State} (h : Canon s.mem) : Res.Canon (xcopyBody a m x s) := by
  unfold xcopyBody
  split
  · next wp gr _ _ =>
    extract_lets +onlyGivenNames arr
    split
    · exact resCanon_ok h
    · extract_lets +onlyGivenNames at_
      clear_value at_
      refine resCanon_ite (resCanon_hold h) (resCanon_ite (resCanon_ok h) (resCanon_ite (resCanon_hold h) ?_))
      generalize hp : (ite (m.dsp = true) _ _ : Except (Nat × Addr) (List Byte) × State) = p
      have ht : Canon p.2.mem := by
        subst hp
        split
        · split
          · exact h
          · split
            · exact h
            · exact h
        · exact canon_readDesc h
      obtain ⟨r, t⟩ := p
      dsimp only
      split
      · exact resCanon_hold ht
      · exact resCanon_ok ht
      · refine resCanon_ite trivial ?_
        split
        · exact resCanon_ok ht
        · exact canon_startCopy ht
  · exact resCanon_ok h

theorem lands_xcopy {p : Pr} {a : Operand} {x : EngExt} {s : State} (hcur : s.cur ≠ none) : Lands s (execXcopy p a x s) :=
  lands_run hcur canon_xcopyBody

theorem canon_mcastBody {a b c : Operand} {m : McExt} {x : Issue} {s : State} (h : Canon s.mem) :
    Res.Canon (mcastBody a b c m x s) := by
  unfold mcastBody
  split
  · exact resCanon_ok h
  · extract_lets +onlyGivenNames arr mask src off
    refine resCanon_ite (resCanon_hold h) (resCanon_ite trivial ?_)
    extract_lets +onlyGivenNames peers
    split
    · exact resCanon_ok h
    · exact resCanon_ite trivial (canon_startCopy h)

theorem lands_mcast {p : Pr} {a b c : Operand} {x : McExt} {s : State} (hcur : s.cur ≠ none) :
    Lands s (execMcast p a b c x s) := lands_run hcur canon_mcastBody

theorem canon_csrgBody {a b c : Operand} {m : GatherExt} {x : Issue} {s : State} (h : Canon s.mem) :
    Res.Canon (csrgBody a b c m x s) := by
  unfold csrgBody
  split
  · extract_lets +onlyGivenNames arr
    split
    · exact resCanon_ok h
    · extract_lets +onlyGivenNames at_ off k0 size
      clear_value at_ off
      refine resCanon_ite (resCanon_hold h) (resCanon_ite (resCanon_ok h) (resCanon_ite (resCanon_hold h) ?_))
      have hr : Canon (readDesc s x at_ 64).2.mem := canon_readDesc h
      split
      · next e => exact resCanon_hold (canon_of_snd e hr)
      · next e => exact resCanon_ok (canon_of_snd e hr)
      · next e =>
        have ht := canon_of_snd e hr
        exact resCanon_ite trivial (resCanon_ite (resCanon_ok ht) (resCanon_ite (resCanon_hold ht)
          (resCanon_ok (canon_addEng ht))))
  · exact resCanon_ok h

theorem lands_csrg {p : Pr} {a b c : Operand} {x : GatherExt} {s : State} (hcur : s.cur ≠ none) :
    Lands s (execCsrg p a b c x s) := lands_run hcur canon_csrgBody

theorem canon_endErr {s : State} {k : Nat} {e : EngOp} (h : Canon s.mem) : Canon (endErr s k e).mem := by
  unfold endErr
  refine canon_ite h (canon_foldl canon_credit (canon_noteErr ?_))
  exact h

theorem canon_failEng {s : State} {k : Nat} {e : EngOp} {cause addr : Nat} (h : Canon s.mem) :
    Canon (failEng s k e cause addr).mem := canon_endErr (canon_violate h)

theorem canon_farAccess {s : State} {e : EngOp} {pkg : Nat} {x : ExtReply} {addr n : Nat} {write : Bool} (h : Canon s.mem) :
    Canon (farAccess s e pkg x addr n write).2.mem := by
  unfold farAccess
  extract_lets +onlyGivenNames r
  split
  · exact h
  · split
    · next e => exact canon_of_snd e (canon_sendOut h)
    · next e =>
      have ht := canon_of_snd e (canon_sendOut h)
      split
      · exact canon_extCascades ht
      · exact ht

theorem canon_engLoad {s : State} {e : EngOp} {va : Addr} {n : Nat} {x : ExtReply} (h : Canon s.mem) :
    Canon (engLoad s e va n x).2.mem := by
  unfold engLoad
  have ht : Canon (translate s e.cu e.tag (isCurator e.cu) .read va).2.mem := canon_translate h
  split
  · next eq =>
    have hu := canon_of_snd eq ht
    split
    · exact canon_farAccess hu
    · split
      · exact hu
      · split
        · exact hu
        · split
          · exact hu
          · exact canon_keepView hu
  · next eq => exact canon_of_snd eq ht
  · next eq => exact canon_of_snd eq ht

theorem canon_engRead {s : State} {e : EngOp} {p : EPlace} {n : Nat} {x : ExtReply} (h : Canon s.mem) :
    Canon (engRead s e p n x).2.mem := by
  unfold engRead
  split
  · exact canon_engLoad h
  · split
    · split
      · exact h
      · split
        · exact h
        · exact h
    · exact h
  · split
    · split
      · exact h
      · split
        · exact h
        · exact h
    · exact h
  · exact canon_farAccess h
  · exact h

theorem canon_poisonBytes {s : State} {pa n : Nat} (h : Canon s.mem) : Canon (poisonBytes s pa n).mem :=
  poisonBytes_memWf h pa n

theorem canon_engStore {s : State} {e : EngOp} {va : Addr} {bs : List Byte} {poison : Bool} {x : ExtReply}
    (h : Canon s.mem) :
    Canon (engStore s e va bs poison x).2.mem := by
  unfold engStore
  have ht : Canon (translateTo true s e.cu e.tag (isCurator e.cu) .write va).2.mem := canon_translateTo h
  split
  · next eq =>
    have hu := canon_of_snd eq ht
    split
    · exact hu
    · split
      · exact canon_farAccess hu
      · split
        · exact hu
        · split
          · exact hu
          · split
            · exact hu
            · extract_lets +onlyGivenNames wr s1
              have h1 : Canon s1.mem := canon_ite (canon_commit hu) (canon_homeStore hu)
              exact canon_ite (canon_poisonBytes h1) h1
  · next eq =>
    have hu := canon_of_snd eq ht
    split
    · next hb => exact canon_breakPage hb hu
    · exact hu
    · exact hu
  · next eq => exact canon_of_snd eq ht
  · next eq => exact canon_of_snd eq ht

theorem canon_engPad {s : State} {g : GroupId} {o : Nat} {bs : List Byte} {poison : Bool} (h : Canon s.mem) :
    Canon (engPad s g o bs poison).mem := canon_ite (canon_modGroup (canon_padWrite h)) (canon_padWrite h)

theorem canon_engWrite {s : State} {e : EngOp} {p : EPlace} {bs : List Byte} {poison : Bool} {x : ExtReply}
    (h : Canon s.mem) :
    Canon (engWrite s e p bs poison x).2.mem := by
  unfold engWrite
  split
  · exact canon_engStore h
  · split
    · split
      · exact h
      · split
        · exact h
        · exact canon_engPad h
    · exact h
  · split
    · extract_lets +onlyGivenNames ws
      split
      · exact h
      · split
        · exact h
        · exact canon_foldl canon_setFull (canon_engPad h)
    · exact h
  · exact canon_farAccess h
  · exact h

theorem canon_endEng {s : State} {k : Nat} {e : EngOp} (h : Canon s.mem) : Canon (endEng s k e).mem :=
  canon_ite (canon_noteErr h) h

theorem canon_deliverElem {s : State} {k : Nat} {e : EngOp} {el : Elem} {rest : List Elem} {bs : List Byte} {x : ExtReply}
    {ps : List EPlace} (h : Canon s.mem) : Canon (deliverElem s k e el rest bs x ps).mem := by
  induction ps generalizing s e with
  | nil => exact canon_ite (canon_endEng h) h
  | cons p ps ih =>
    unfold deliverElem
    extract_lets +onlyGivenNames e'
    refine canon_ite h ?_
    have hw : Canon (engWrite s e p bs el.poison x).2.mem := canon_engWrite h
    split
    · next eq => exact ih (canon_credit (canon_of_snd eq hw))
    · next eq =>
      have ht := canon_of_snd eq hw
      exact ht
    · next eq => exact canon_failEng (canon_of_snd eq hw)

theorem canon_readNext {s : State} {k : Nat} {e : EngOp} {x : ExtReply} (h : Canon s.mem) : Canon (readNext s k e x).mem := by
  unfold readNext
  split
  · exact h
  · split
    · exact h
    · next q _ =>
      have hr : Canon (engRead s e q.src q.size x).2.mem := canon_engRead h
      split
      · next eq =>
        have ht := canon_of_snd eq hr
        exact ht
      · next eq => exact canon_of_snd eq hr
      · next eq => exact canon_failEng (canon_of_snd eq hr)

theorem canon_copyStep {s : State} {k : Nat} {e : EngOp} {x : ExtReply} (h : Canon s.mem) : Canon (copyStep s k e x).mem := by
  unfold copyStep
  refine canon_ite (canon_readNext h) ?_
  split
  · exact canon_endEng h
  · next q _ _ =>
    split
    · exact canon_ite h (canon_deliverElem h)
    · refine canon_ite h ?_
      have hr : Canon (engRead s e q.src q.size x).2.mem := canon_engRead h
      split
      · next eq => exact canon_deliverElem (canon_of_snd eq hr)
      · next eq => exact canon_of_snd eq hr
      · next eq => exact canon_failEng (canon_of_snd eq hr)

theorem canon_loadAll {s : State} {e : EngOp} {n : Nat} {x : ExtReply} {as : List Addr} (h : Canon s.mem) :
    Canon (loadAll s e n x as).2.mem := by
  induction as generalizing s x with
  | nil => exact h
  | cons a as ih =>
    unfold loadAll
    have hl : Canon (engLoad s e a n x).2.mem := canon_engLoad h
    split
    · next eq => exact ih (canon_of_snd eq hl)
    · next eq => exact canon_of_snd eq hl

theorem canon_stopEng {s : State} {k : Nat} {e : EngOp} {r : EStep} (h : Canon s.mem) : Canon (stopEng s k e r).mem := by
  cases r
  case fail => exact canon_failEng h
  all_goals exact h

theorem canon_gatherRow {s : State} {k : Nat} {e : EngOp} {x : ExtReply} (h : Canon s.mem) : Canon (gatherRow s k e x).mem := by
  unfold gatherRow
  extract_lets +onlyGivenNames d rowptr colidx vals n kr t kk
  refine canon_ite h ?_
  split
  next ptrs t1 e1 =>
  have h1 : Canon t1.mem := canon_of_snd e1 (canon_loadAll h)
  split
  · exact canon_stopEng h1
  · extract_lets +onlyGivenNames lo hi is
    split
    next cols t2 e2 =>
    have h2 : Canon t2.mem := canon_of_snd e2 (canon_loadAll h1)
    split
    · exact canon_stopEng h2
    · extract_lets +onlyGivenNames c0 mine
      split
      next vs t3 e3 =>
      have h3 : Canon t3.mem := canon_of_snd e3 (canon_loadAll h2)
      split
      · exact canon_stopEng h3
      · exact h3

theorem canon_gatherEnd {s : State} {k : Nat} {e : EngOp} (h : Canon s.mem) : Canon (gatherEnd s k e).mem := by
  unfold gatherEnd
  split
  · exact h
  · refine canon_ite (canon_failEng h) (canon_ite h (canon_credit (canon_endEng ?_)))
    exact canon_foldl (fun hs => canon_modGroup (canon_padWrite hs)) (canon_padWrite h)

theorem canon_gatherStep {s : State} {k : Nat} {e : EngOp} {x : ExtReply} (h : Canon s.mem) : Canon (gatherStep s k e x).mem :=
  canon_ite (canon_gatherRow h) (canon_gatherEnd h)

theorem lands_engineElementDelivery {k : Nat} {x : ExtReply} {s : State} : Lands s (execEngineElementDelivery k x s) := by
  unfold execEngineElementDelivery
  split
  · exact lands_same
  · exact lands_ite (lands_next canon_endErr) (lands_ite lands_same
      (lands_ite (lands_next canon_gatherStep) (lands_next canon_copyStep)))

theorem canon_flushFrame {s : State} {pa : Nat} (h : Canon s.mem) : Canon (flushFrame s pa).mem :=
  canon_foldl canon_lineToPlinth (canon_purgeRange h)

theorem canon_stagePage {s : State} {t : Tag} {va : Addr} {d : Nat} {bytes : Option (List Byte)} (h : Canon s.mem) :
    Canon (stagePage s t va d bytes).1.mem := by
  unfold stagePage
  split
  · exact h
  · split
    · exact h
    · split
      · exact canon_violate (canon_tlbDropPage (canon_putPte h))
      · split
        · exact h
        · next ht => exact canon_tlbDropPage (canon_putPte (canon_ftPut (canon_fillPage (canon_takeFrame ht h))))

theorem lands_enginePageStage {k : Nat} {bytes : List Byte} {s : State} : Lands s (execEnginePageStage k bytes s) := by
  unfold execEnginePageStage
  split
  · exact lands_same
  · split
    · exact lands_next fun h => canon_ite (canon_failEng (canon_stagePage h)) (canon_stagePage h)
    · exact lands_same

theorem lands_estat {p : Pr} {d : Operand} {a : Option Operand} {s : State} (hcur : s.cur ≠ none) :
    Lands s (execEstat p d a s) := lands_run hcur fun h => resCanon_ok (canon_scatter (canon_modGroup h))

theorem lands_ecancel {p : Pr} {a : Option Operand} {s : State} (hcur : s.cur ≠ none) : Lands s (execEcancel p a s) := by
  refine lands_run hcur (fun {x} {t} h => ?_)
  refine resCanon_ite (resCanon_ite (resCanon_hold h) (resCanon_ok h)) (resCanon_ite (resCanon_ok h) (resCanon_hold ?_))
  exact canon_modWarp (canon_foldl id h)

theorem lands_wbr {p : Pr} {a b : Operand} {x : MemExt} {s : State} (hcur : s.cur ≠ none) : Lands s (execWbr p a b x s) :=
  lands_run hcur canon_rangeBody

theorem lands_invr {p : Pr} {a b : Operand} {x : MemExt} {s : State} (hcur : s.cur ≠ none) : Lands s (execInvr p a b x s) :=
  lands_run hcur canon_rangeBody

theorem lands_flr {p : Pr} {a b : Operand} {x : MemExt} {s : State} (hcur : s.cur ≠ none) : Lands s (execFlr p a b x s) :=
  lands_run hcur canon_rangeBody

end Sys2Proof.Machine
end

section
/-! SUPPORT. Memory stays in canonical form: range operations, system instructions, frames and a turn. -/

namespace Sys2Proof.Machine

open Sys2Proof Claims

theorem lands_icinv {p : Pr} {a b : Operand} {x : MemExt} {s : State} (hcur : s.cur ≠ none) : Lands s (execIcinv p a b x s) :=
  lands_run hcur canon_rangeBody

theorem lands_fetchb {x : MemExt} {s : State} (hcur : s.cur ≠ none) : Lands s (execFetchb x s) :=
  lands_run hcur fun h => resCanon_ite (resCanon_hold h) (resCanon_ok h)

theorem canon_keepOutside {s : State} {c : CuId} {word : Nat} {rs : List (Nat × Nat)} (h : Canon s.mem) :
    Canon (keepOutside s c word rs).mem := by
  unfold keepOutside
  split
  · exact h
  · exact canon_ite h (canon_commit h)

theorem canon_rangeWord {s : State} {c : CuId} {op : Nat} {rs : List (Nat × Nat)} {word : Nat} (h : Canon s.mem) :
    Canon (rangeWord s c op rs word).mem := by
  unfold rangeWord
  split
  · exact h
  · exact canon_ite (canon_writeBackWord h) (canon_ite (canon_dropWord (canon_keepOutside h)) (canon_flushWord h))

theorem canon_rangeProxy {s : State} {op : Nat} {rs : List (Nat × Nat)} (h : Canon s.mem) : Canon (rangeProxy s op rs).mem :=
  canon_foldl (fun hs => canon_ite (canon_proxClean hs) (canon_proxDrop hs)) h

theorem lands_rangeOpComplete {k : Nat} {s : State} : Lands s (execRangeOpComplete k s) := by
  unfold execRangeOpComplete
  split
  · split
    · next r _ op home _ =>
      extract_lets +onlyGivenNames rs
      refine lands_ite lands_same ?_
      extract_lets +onlyGivenNames ws s1 pools s2
      refine lands_next fun h => ?_
      have h1 : Canon s1.mem := canon_rangeProxy (canon_foldl canon_rangeWord h)
      have h2 : Canon s2.mem := canon_ite (canon_foldl canon_lineToPlinth h1) h1
      exact canon_freeReq (canon_foldl (fun hs => canon_lineToStore (canon_lineToPlinth hs)) h2)
    · exact lands_same
  · exact lands_same

theorem lands_icinvComplete {k : Nat} {s : State} : Lands s (execIcinvComplete k s) := by
  unfold execIcinvComplete
  split
  · exact lands_ite lands_same (lands_next fun h => canon_freeReq (canon_foldl canon_icDrop h))
  · exact lands_same

theorem canon_status {s : State} {x : Issue} {d : Operand} {v : Nat} (h : Canon s.mem) : Canon (status s x d v).mem :=
  canon_scatter h

theorem canon_laneFaults {x : Issue} {s : State} {c : Nat} {va : Addr} (h : Canon s.mem) : (laneFaults x s c va).Canon := h

theorem lands_trap {h : Hdr} {a : Operand} {s : State} (hcur : s.cur ≠ none) : Lands s (execTrap h a s) :=
  lands_run hcur fun _ => resCanon_trap

theorem lands_brk {p : Pr} {s : State} (hcur : s.cur ≠ none) : Lands s (execBrk p s) := lands_run hcur fun _ => resCanon_trap

theorem canon_pastTrap {s : State} {w : WarpId} {y : Warp} {m : EretMode} {t : Trap} (h : Canon s.mem) :
    Canon (pastTrap s w y m t).2.mem := by
  unfold pastTrap
  split
  · exact h
  · have hf : Canon (fetchAt s w t.addr0).2.mem := canon_fetchAt h
    split
    · next eq =>
      have ht := canon_of_snd eq hf
      dsimp only
      split
      · exact ht
      · exact ht
    · next eq => exact canon_of_snd eq hf
    · next eq => exact canon_of_snd eq hf

theorem canon_endHandler {s : State} {w : WarpId} (h : Canon s.mem) : Canon (endHandler s w).mem := h

theorem canon_eretBody {m : EretMode} {x : Issue} {s : State} (h : Canon s.mem) : Res.Canon (eretBody m x s) := by
  unfold eretBody
  split
  · exact resCanon_ite (resCanon_ok (canon_endHandler h)) (resCanon_hold h)
  · next w y t _ =>
    refine resCanon_ite trivial (resCanon_ite (resCanon_hold h) (resCanon_ite (resCanon_hold (canon_releaseBegin h)) ?_))
    have hp : Canon (pastTrap (dropSi s (cuOf (gidOf w))) w y m t).2.mem := canon_pastTrap (canon_dropSi h)
    split
    · next eq => exact resCanon_hold (canon_of_snd eq hp)
    · next eq =>
      extract_lets +onlyGivenNames s1 y' s2
      have h1 : Canon s1.mem := canon_endHandler (canon_releaseAt (canon_of_snd eq hp))
      clear_value s1
      have h2 : Canon s2.mem := by
        unfold s2
        split
        · exact h1
        · exact h1
        · exact h1
        · exact canon_startHalt h1
      exact resCanon_ok h2

theorem lands_eretReplay {p : Pr} {s : State} (hcur : s.cur ≠ none) : Lands s (execEretReplay p s) :=
  lands_run hcur canon_eretBody

theorem lands_eretSkip {p : Pr} {s : State} (hcur : s.cur ≠ none) : Lands s (execEretSkip p s) :=
  lands_run hcur canon_eretBody

theorem lands_eretFill {p : Pr} {s : State} (hcur : s.cur ≠ none) : Lands s (execEretFill p s) :=
  lands_run hcur canon_eretBody

theorem lands_eretAbort {p : Pr} {s : State} (hcur : s.cur ≠ none) : Lands s (execEretAbort p s) :=
  lands_run hcur canon_eretBody

theorem lands_mfs {p : Pr} {d : Operand} {num : BitVec 12} {idx : BitVec 8} {s : State} (hcur : s.cur ≠ none) :
    Lands s (execMfs p d num idx s) := by
  refine lands_run hcur (fun {x} {t} h => ?_)
  split
  · exact resCanon_ok h
  · exact resCanon_ite (resCanon_hold h) (resCanon_ok (canon_scatter h))

theorem canon_sysWrite {s : State} {x : Issue} {num idx : Nat} {v : DWord} (h : Canon s.mem) :
    Canon (sysWrite s x num idx v).mem := by
  unfold sysWrite
  extract_lets t
  split
  case h_4 =>
    split
    · exact h
    · exact h
  all_goals exact h

theorem canon_trapDataWrite {s : State} {x : Issue} {idx l : Nat} {v : Word} (h : Canon s.mem) :
    Canon (trapDataWrite s x idx l v).mem := by
  unfold trapDataWrite
  split
  · exact h
  · exact h

theorem lands_mts {p : Pr} {a : Operand} {num : BitVec 12} {idx : BitVec 8} {s : State} (hcur : s.cur ≠ none) :
    Lands s (execMts p a num idx s) := by
  refine lands_run hcur (fun {x} {t} h => ?_)
  split
  · exact resCanon_ok h
  · exact resCanon_ite (resCanon_ok (canon_foldl canon_trapDataWrite h)) (resCanon_ok (canon_sysWrite h))

theorem lands_acctabWrite {p : Pr} {a : Operand} {idx : BitVec 8} {s : State} (hcur : s.cur ≠ none) :
    Lands s (execAcctabWrite p a idx s) :=
  lands_run hcur fun h => resCanon_ite (resCanon_hold h) (resCanon_ite (resCanon_hold (canon_recallRegions h))
    (resCanon_ok (canon_writeAcctab (canon_recallRegions h))))

theorem lands_watchtabWrite {p : Pr} {a : Operand} {idx : BitVec 8} {s : State} (hcur : s.cur ≠ none) :
    Lands s (execWatchtabWrite p a idx s) := lands_run hcur fun h => resCanon_ok (canon_writeWatchtab h)

theorem canon_postTlbi {s : State} {x : Issue} {k : TlbiKind} (h : Canon s.mem) : Canon (postTlbi s x k).mem := h

theorem lands_tlbiVa {h : Hdr} {a c : Operand} {s : State} (hcur : s.cur ≠ none) : Lands s (execTlbiVa h a c s) :=
  lands_run hcur fun h => resCanon_ok (canon_postTlbi h)

theorem lands_tlbiRange {h : Hdr} {a b c : Operand} {s : State} (hcur : s.cur ≠ none) : Lands s (execTlbiRange h a b c s) :=
  lands_run hcur fun h => resCanon_ok (canon_postTlbi h)

theorem lands_tlbiCtx {h : Hdr} {c : Operand} {s : State} (hcur : s.cur ≠ none) : Lands s (execTlbiCtx h c s) :=
  lands_run hcur fun h => resCanon_ok (canon_postTlbi h)

theorem lands_tlbiAll {h : Hdr} {s : State} (hcur : s.cur ≠ none) : Lands s (execTlbiAll h s) :=
  lands_run hcur fun h => resCanon_ok (canon_postTlbi h)

theorem lands_tlbiComplete {k : Nat} {s : State} : Lands s (execTlbiComplete k s) := by
  unfold execTlbiComplete
  split
  · exact lands_same
  · next t _ => exact lands_ite (lands_next fun h => canon_tlbDrop (f := t.kind.names) h) (lands_ite lands_same (lands_next id))

theorem lands_tlbsync {p : Pr} {s : State} (hcur : s.cur ≠ none) : Lands s (execTlbsync p s) :=
  lands_run hcur fun h => resCanon_ite (resCanon_hold h) (resCanon_ok h)

theorem lands_evt {h : Hdr} {a b : Operand} {s : State} (hcur : s.cur ≠ none) : Lands s (execEvt h a b s) :=
  lands_run hcur fun h => resCanon_ite (resCanon_hold h) (resCanon_ite (resCanon_hold (canon_releaseBegin h))
    (resCanon_ok (canon_postEvent (canon_releaseAt h))))

theorem canon_freeStatus {s : State} {x : Issue} {d : Operand} (h : Canon s.mem) : Res.Canon (freeStatus s x d) :=
  resCanon_ok (canon_status h)

theorem lands_pgref {p : Pr} {free : Bool} {d a b : Operand} {s : State} (hcur : s.cur ≠ none) :
    Lands s (execPgref p free d a b s) := by
  refine lands_run hcur (fun {x} {t} h => ?_)
  extract_lets pa
  split
  · exact resCanon_ok (canon_status h)
  · exact resCanon_ite (resCanon_ok (canon_status h)) (resCanon_ite (resCanon_ok (canon_status h))
      (resCanon_ok (canon_status (canon_ite (canon_pushFrame (canon_ftPut h)) (canon_ftPut h)))))

theorem canon_markCow {s : State} {t : Tag} {fuel : Nat} {va : Addr} {left done : Nat} (h : Canon s.mem) :
    Canon (markCow s t fuel va left done).2.2.mem := by
  induction fuel generalizing s va left done with
  | zero => exact h
  | succ fuel ih =>
    unfold markCow
    split
    · exact h
    · split
      · dsimp only
        split
        · exact h
        · exact ih (canon_tlbDropPage (canon_putPte h))
      · exact h

theorem lands_pgcow {p : Pr} {d a b c : Operand} {s : State} (hcur : s.cur ≠ none) : Lands s (execPgcow p d a b c s) := by
  refine lands_run hcur (fun {x} {u} h => ?_)
  extract_lets va n t
  exact resCanon_ite (resCanon_hold h) (resCanon_ok (canon_status (canon_markCow h)))

theorem canon_makeTwin {s : State} {t : Tag} {va : Addr} {e : BitVec 64} {addr i set shadow : Nat} (h : Canon s.mem) :
    Canon (makeTwin s t va e addr i set shadow).mem := canon_tlbDropPage (canon_putPte (canon_ftFlag (canon_twinPut h)))

theorem canon_dropTwin {s : State} {t : Tag} {va : Addr} {e : BitVec 64} {addr : Nat} (h : Canon s.mem) :
    Canon (dropTwin s t va e addr).mem := canon_tlbDropPage (canon_twinPut (canon_ftFlag (canon_putPte h)))

theorem lands_pgtwin {p : Pr} {d a b c : Operand} {s : State} (hcur : s.cur ≠ none) : Lands s (execPgtwin p d a b c s) := by
  refine lands_run hcur (fun {x} {u} h => ?_)
  extract_lets va shadow set t
  have hs : ∀ {v : Nat}, (Res.done (status u x d v)).Canon := resCanon_ok (canon_status h)
  refine resCanon_ite hs ?_
  split
  · refine resCanon_ite hs (resCanon_ite hs (resCanon_ite (canon_freeStatus h) (resCanon_ite
      (resCanon_ite (resCanon_ok (canon_status (canon_dropTwin h))) (canon_freeStatus h))
        (resCanon_ite (canon_freeStatus h) ?_))))
    split
    · exact hs
    · exact resCanon_ite hs (resCanon_ok (canon_status (canon_makeTwin h)))
  · exact canon_freeStatus h

theorem canon_takeFrames {s t : State} {d n : Nat} {fs : List Nat} (ht : takeFrames s d n = some (fs, t)) (h : Canon s.mem) :
    Canon t.mem := by
  induction n generalizing s t fs with
  | zero =>
    cases ht
    exact h
  | succ n ih =>
    unfold takeFrames at ht
    split at ht
    · exact nomatch ht
    · next hf =>
      obtain ⟨⟨gs, u⟩, hg, he⟩ := Option.map_eq_some_iff.mp ht
      cases he
      exact ih hg (canon_takeFrame hf h)

theorem canon_markMov {s : State} {m : Mig} {on : Bool} (h : Canon s.mem) : Canon (markMov s m on).mem :=
  canon_foldl (fun hs => canon_ite (canon_ftFlag hs) hs) h

theorem canon_startMig {s : State} {m : Mig} {addr : Nat} (h : Canon s.mem) : Canon (startMig s m addr).mem := by
  unfold startMig
  extract_lets s1 s2 s3 s4
  have h2 : Canon s2.mem := canon_tlbDropPage (canon_markMov (canon_putPte h))
  have h3 : Canon s3.mem := canon_ite (canon_flushFrame h2) h2
  have h4 : Canon s4.mem := canon_ite (canon_flushFrame h3) h3
  exact h4

theorem lands_pgmig {p : Pr} {d a : Operand} {s : State} (hcur : s.cur ≠ none) : Lands s (execPgmig p d a s) := by
  refine lands_run hcur (fun {x} {t} h => ?_)
  refine resCanon_ite (resCanon_hold h) ?_
  have hr : Canon (readVirt t (.warp x.w) (tagOf t x.w) (isSup x.w) (sc64v t x a) 64).2.mem := canon_readVirt h
  split
  · next eq => exact resCanon_hold (canon_of_snd eq hr)
  · next eq => exact canon_laneFaults (canon_of_snd eq hr)
  · next u eq =>
    have hu : Canon u.mem := canon_of_snd eq hr
    have hs : ∀ {v : Nat}, (Res.done (status u x d v)).Canon := resCanon_ok (canon_status hu)
    extract_lets +onlyGivenNames g
    split
    · exact canon_laneFaults hu
    · refine resCanon_ite hs (resCanon_ite hs ?_)
      split
      · extract_lets +onlyGivenNames twin src srcShadow die counted
        refine resCanon_ite hs (resCanon_ite hs (resCanon_ite hs (resCanon_ite (canon_freeStatus hu)
          (resCanon_ite (resCanon_hold hu)
          (resCanon_ite (resCanon_hold (canon_farAsk (canon_farAsk hu))) ?_)))))
        extract_lets +onlyGivenNames first second
        split
        · exact hs
        · next hf => exact resCanon_ok (canon_status (canon_startMig (canon_takeFrames hf hu)))
      · exact hs

theorem canon_moveBytes {s : State} {m : Mig} {bytes : List Byte} (h : Canon s.mem) : Canon (moveBytes s m bytes).mem := by
  unfold moveBytes
  exact canon_ite h (canon_ite (canon_ite (canon_fillPage (canon_fillPage h)) (canon_fillPage h)) (canon_ite (canon_fillPage h)
    (canon_ite (canon_copyPage (canon_copyPage h)) (canon_copyPage h))))

theorem canon_installMig {s : State} {m : Mig} {addr : Nat} (h : Canon s.mem) : Canon (installMig s m addr).mem := by
  unfold installMig
  split
  · exact canon_putPte (canon_ftFlag (canon_twinPut h))
  · exact canon_putPte h

theorem canon_settleFrames {s : State} {m : Mig} (h : Canon s.mem) : Canon (settleFrames s m).mem := by
  unfold settleFrames
  refine canon_foldl (fun {s} {f} hs => ?_) (canon_foldl (fun {s} {f} hs => ?_) h)
  · split
    · exact canon_pushFrame (canon_ftPut hs)
    · exact hs
  · split
    · exact canon_ftPut hs
    · exact hs

theorem canon_dropMig {s : State} {m : Mig} (h : Canon s.mem) : Canon (dropMig s m).mem := by
  unfold dropMig
  extract_lets s1
  have h1 : Canon s1.mem := canon_markMov h
  split
  · exact canon_credit h1
  · exact h1

theorem lands_migrationComplete {k : Nat} {bytes : List Byte} {s : State} : Lands s (execMigrationComplete k bytes s) := by
  unfold execMigrationComplete
  split
  · exact lands_same
  · refine lands_ite lands_same ?_
    extract_lets +onlyGivenNames s1
    split
    · refine lands_ite (lands_next fun h => canon_dropMig h) (lands_next fun h => ?_)
      split
      · exact canon_credit (canon_settleFrames (canon_installMig (canon_moveBytes h)))
      · exact canon_settleFrames (canon_installMig (canon_moveBytes h))
    · exact lands_next fun h => canon_dropMig h

theorem lands_migrationError {k : Nat} {s : State} : Lands s (execMigrationError k s) := by
  unfold execMigrationError
  split
  · exact lands_same
  · exact lands_ite lands_same (lands_next fun h => canon_dropMig (canon_violate h))

theorem lands_copyOnWriteBreak {w : WarpId} {s : State} : Lands s (execCopyOnWriteBreak w s) := by
  unfold execCopyOnWriteBreak
  split
  · exact lands_same
  · split
    · exact lands_same
    · split
      · exact lands_same
      · next hb => exact lands_next fun h => canon_modWarp (canon_breakPage hb h)
      · exact lands_next id

theorem lands_cowReplay {w : WarpId} {s : State} : Lands s (execCowReplay w s) := by
  unfold execCowReplay
  split
  · exact lands_same
  · split
    · exact lands_same
    · exact lands_ite lands_same (lands_ite (lands_next id) (lands_next fun h => canon_takeTrap h))

theorem canon_turnOver {s : State} {w : WarpId} (h : Canon s.mem) : Canon (turnOver s w).mem := canon_ite h h

/-- What stands before an issue leaves memory in canonical form, and an instruction that then runs is under issue. -/
def Prep.Canon : Prep → Prop
  | .over t => Machine.Canon t.mem
  | .run _ t => Machine.Canon t.mem

theorem canon_trapAt {s : State} {c : Cur} {cause : Nat} {inrep : Bool} (h : Canon s.mem) : (trapAt s c cause inrep).Canon :=
  canon_takeTrap h

theorem canon_decoded {s : State} {c : Cur} {r : Raw} {inrep : Bool} (h : Canon s.mem) : (decoded s c r inrep).Canon := by
  unfold decoded
  split
  · exact h
  · exact canon_trapAt h

theorem canon_fetchHold {s : State} {w : WarpId} (h : Canon s.mem) : Canon (fetchHold s w).mem := h

theorem canon_issueAt {s : State} {w : WarpId} {pc : Addr} {set : Mask} (h : Canon s.mem) : (issueAt s w pc set).Canon := by
  unfold issueAt
  have hf : Canon (fetchAt s w pc).2.mem := canon_fetchAt h
  split
  · next eq =>
    have ht := canon_of_snd eq hf
    exact canon_fetchHold ht
  · next eq => exact canon_trapAt (canon_of_snd eq hf)
  · next eq =>
    have ht := canon_of_snd eq hf
    split
    · exact canon_trapAt ht
    · split
      · exact canon_trapAt ht
      · exact canon_decoded ht

theorem canon_issueRep {s : State} {w : WarpId} {x : Warp} (h : Canon s.mem) : (issueRep s w x).Canon := by
  unfold issueRep
  extract_lets +onlyGivenNames set ra ta
  have hf : Canon (fetchAt s w ra).2.mem := canon_fetchAt h
  split
  · next eq =>
    have ht := canon_of_snd eq hf
    exact canon_fetchHold ht
  · next eq => exact canon_trapAt (canon_of_snd eq hf)
  · next eq =>
    have ht := canon_of_snd eq hf
    split
    · dsimp only
      split
      · exact canon_decoded ht
      · exact canon_trapAt ht
    · exact canon_trapAt ht

theorem canon_leaveStop {s : State} {w : WarpId} {x : Warp} (h : Canon s.mem) : Canon (leaveStop s w x).mem := canon_ite h h

theorem prepCanon_ite {c : Prop} [Decidable c] {a b : Prep} (ha : a.Canon) (hb : b.Canon) : (if c then a else b).Canon := by
  split
  · exact ha
  · exact hb

theorem canon_prepare {s : State} {w : WarpId} (h : Canon s.mem) : (prepare s w).Canon := by
  unfold prepare
  split
  · exact h
  · next x _ =>
    extract_lets +onlyGivenNames s1
    have h1 : Canon s1.mem := canon_leaveStop h
    clear_value s1
    refine prepCanon_ite h1 ?_
    extract_lets +onlyGivenNames held y
    have hx : Canon (exitLanes (s1.modWarp w fun x => { x with exitNow := false, halt := none }) w x.alive 0).mem :=
      canon_exitLanes h1
    refine prepCanon_ite hx (prepCanon_ite h1 (prepCanon_ite h1 (prepCanon_ite (canon_issueRep h1)
      (prepCanon_ite (canon_issueAt h1) ?_))))
    have h2 : Canon (if y == x then s1 else s1.setWarp w y).mem := canon_ite h1 h1
    dsimp only
    split
    · exact h2
    · exact canon_issueAt h2

theorem canon_countDown {s : State} {n : Nat} (h : Canon s.mem) : Canon (countDown s n).mem :=
  canon_foldl (fun hs => canon_ite hs (canon_ite hs hs)) h

theorem canon_mirrorLog {s : State} (h : Canon s.mem) : Canon (mirrorLog s).mem := by
  unfold mirrorLog
  split
  · exact h
  · refine canon_ite h ?_
    extract_lets first s1 s2
    have h1 : Canon s1.mem := canon_foldl (fun hs => canon_ite (canon_rawWriteNat hs) hs) h
    have h2 : Canon s2.mem := canon_rawWriteNat h1
    exact h2

theorem canon_dueExchanges {s : State} {k : Nat} (h : Canon s.mem) : Canon (dueExchanges k s).mem := by
  induction k generalizing s with
  | zero => exact h
  | succ k ih => exact ih h

end Sys2Proof.Machine
end

section
/-! SUPPORT. Memory stays in canonical form: launches and groups. -/

namespace Sys2Proof.Machine

open Sys2Proof Claims

theorem canon_setCtx {s : State} {t : Tag} {c : Ctx} (h : Canon s.mem) : Canon (s.setCtx t c).mem := h

theorem canon_modCu {s : State} {c : CuId} {f : CU → CU} (h : Canon s.mem) : Canon (s.modCu c f).mem := h

theorem canon_passTime {s : State} (h : Canon s.mem) : Canon (passTime s).mem := by
  unfold passTime
  extract_lets n s'
  have h' : Canon s'.mem := canon_countDown (canon_mirrorLog h)
  exact canon_ite h' (canon_dueExchanges h')

theorem canon_hostStore {s : State} {pa : Nat} {bs : List Byte} (h : Canon s.mem) : Canon (hostStore s pa bs).mem :=
  canon_commit (canon_purgeRange h)

theorem canon_addDeadline {s : State} {t : Tag} {n : Nat} (h : Canon s.mem) : Canon (addDeadline s t n).mem := h

theorem canon_allotBars {s : State} {t : Tag} {l : Nat} {req : BitVec 64} (h : Canon s.mem) : Canon (allotBars s t l req).mem :=
  canon_foldl canon_setBar h

theorem canon_joinBar {s : State} {n : GName} {k : Nat} (h : Canon s.mem) : Canon (joinBar s n k).mem :=
  canon_ite h (canon_setBar h)

theorem canon_addCluster {s : State} {l side x y : Nat} (h : Canon s.mem) : Canon (addCluster s l side x y).2.mem := h

theorem canon_clusterTasks {s : State} {l : Nat} {h : RecHdr} {x y : Nat} (hc : Canon s.mem) :
    Canon (clusterTasks s l h x y).2.mem :=
  canon_foldl (fun hs => canon_foldl canon_joinBar (canon_foldl canon_joinBar hs)) hc

theorem canon_initialTasks {s : State} {l : Nat} {h : RecHdr} (hc : Canon s.mem) : Canon (initialTasks s l h).2.mem :=
  canon_foldl_snd (fun hr => canon_clusterTasks hr) hc

theorem canon_beginTurn {s : State} {t : Tag} (h : Canon s.mem) : Canon (beginTurn s t).mem := by
  unfold beginTurn
  extract_lets busy
  exact h

theorem canon_recordLaunch {s : State} {t : Tag} {bs : List Byte} (h : Canon s.mem) : Canon (recordLaunch s t bs).mem := by
  unfold recordLaunch
  extract_lets c
  refine canon_ite h (canon_ite h ?_)
  exact canon_setCtx (canon_rawWrite h)

/-- The deadline and the barriers that a launch asks for. -/
theorem canon_allotted {s : State} {tag : Tag} {l : Nat} {hd : RecHdr} (h : Canon s.mem) :
    Canon (addDeadline (allotBars { s with launchId := l } tag l hd.barreq) tag hd.dlcyc).mem :=
  canon_addDeadline (canon_allotBars h)

theorem canon_acceptLaunch {s : State} {tag : Tag} {bs : List Byte} (h : Canon s.mem) : Canon (acceptLaunch s tag bs).2.mem := by
  unfold acceptLaunch
  split
  · exact h
  · dsimp only
    have ht := canon_initialTasks (l := nextLaunch s) (h := hdrOf bs) (canon_allotted (l := nextLaunch s)
      (hd := hdrOf bs) (tag := tag) h)
    exact canon_recordLaunch (canon_ite (canon_beginTurn ht) ht)

theorem canon_handleSubmit {s : State} {q : List Submit} (h : Canon s.mem) : Canon (handleSubmit s q).2.mem := by
  induction q generalizing s with
  | nil => exact h
  | cons e rest ih =>
    unfold handleSubmit
    split
    · exact ih h
    · dsimp only
      split
      · exact canon_acceptLaunch h
      · exact canon_acceptLaunch h

theorem canon_readRecord {s : State} {r : Reader} {t : Tag} {sup : Bool} {va : Addr} (h : Canon s.mem) :
    Canon (readRecord s r t sup va).2.mem := by
  refine canon_readEnds ?_
  have hv : Canon (virtBytes s r t sup va 128).2.mem := canon_virtBytes h
  split
  · next eq => exact canon_of_snd eq hv
  · next bs u eq =>
    have hu := canon_of_snd eq hv
    have hw : Canon (virtBytes u r t sup (va + 128) ((hdrOf bs).len - 128)).2.mem := canon_virtBytes hu
    split
    · next eq2 => exact canon_of_snd eq2 hw
    · next eq2 => exact canon_of_snd eq2 hw

theorem lands_launch {p : Pr} {d a : Operand} {s : State} (hcur : s.cur ≠ none) : Lands s (execLaunch p d a s) := by
  refine lands_run hcur (fun {x} {u} h => ?_)
  split
  · split
    · exact resCanon_hold h
    · exact resCanon_ok (canon_status h)
  · extract_lets +onlyGivenNames va t
    refine resCanon_ite (resCanon_hold h) (resCanon_ite (canon_laneFaults h)
      (resCanon_ite (resCanon_hold (canon_releaseBegin h)) ?_))
    have hr : Canon (readRecord (releaseAt u x.w .pkg) (.warp x.w) t (isSup x.w) va).2.mem := canon_readRecord (canon_releaseAt h)
    split
    · next eq => exact resCanon_hold (canon_of_snd eq hr)
    · next eq => exact canon_laneFaults (canon_of_snd eq hr)
    · next eq =>
      have hv := canon_of_snd eq hr
      exact resCanon_ite (resCanon_ok (canon_status hv)) (resCanon_hold hv)

theorem canon_enqueue {s : State} {c : CuId} {t : Task} (h : Canon s.mem) : Canon (enqueue s c t).mem := h

theorem canon_fillFrom {s : State} {q : List (List (CuId × Task))} (h : Canon s.mem) : Canon (fillFrom s q).2.mem := by
  induction q generalizing s with
  | nil => exact h
  | cons e rest ih =>
    unfold fillFrom
    split
    · exact ih (canon_foldl canon_enqueue h)
    · exact h

theorem canon_fillLaunch {s : State} {l : Nat} (h : Canon s.mem) : Canon (fillLaunch s l).mem := by
  unfold fillLaunch
  split
  · exact h
  · exact canon_ite h (canon_fillFrom h)

theorem canon_fillAll {s : State} (h : Canon s.mem) : Canon (fillAll s).mem := canon_foldl canon_fillLaunch h

theorem lands_launchRecord {s : State} : Lands s (execLaunchRecord s) :=
  lands_next fun h => canon_fillAll (canon_handleSubmit h)

theorem lands_enq {h : Hdr} {d a b c : Operand} {s : State} (hcur : s.cur ≠ none) : Lands s (execEnq h d a b c s) := by
  refine lands_run hcur (fun {x} {u} h => ?_)
  refine resCanon_ite (resCanon_hold h) (resCanon_ite (resCanon_hold (canon_releaseBegin h)) ?_)
  extract_lets +onlyGivenNames s1 tt k v
  have h1 : Canon s1.mem := canon_releaseAt h
  clear_value s1
  have hs : ∀ {v : Nat}, (Res.done (status s1 x d v)).Canon := resCanon_ok (canon_status h1)
  split
  · exact hs
  · exact resCanon_ite hs (resCanon_ite hs (resCanon_ite hs (resCanon_ok (canon_status (canon_enqueue h1)))))

theorem canon_promotePage {s : State} {t : Tag} {va : Addr} {d : Nat} (h : Canon s.mem) : Canon (promotePage s t va d).mem := by
  unfold promotePage
  split
  · split
    · exact h
    · split
      · exact h
      · next ht => exact canon_tlbDropPage (canon_putPte (canon_ftPut (canon_copyPage (canon_flushFrame (canon_takeFrame ht h)))))
  · exact h

theorem canon_stageOne {s : State} {l : Launch} {va : Addr} {promote : Bool} {flash : List (Addr × List Byte)}
    (h : Canon s.mem) :
    Canon (stageOne s l va promote flash).mem := by
  unfold stageOne
  split
  · exact canon_ite h (canon_stagePage h)
  · exact canon_ite (canon_promotePage h) h

theorem lands_stagingComplete {k : Nat} {flash : List (Addr × List Byte)} {s : State} :
    Lands s (execStagingComplete k flash s) := by
  unfold execStagingComplete
  split
  · exact lands_same
  · refine lands_ite lands_same ?_
    extract_lets +onlyGivenNames s1
    refine lands_next fun h => canon_fillLaunch ?_
    have h1 : Canon s1.mem := canon_foldl (fun hs => canon_foldl canon_stageOne hs) h
    exact h1

theorem canon_startWarps {s : State} {g : GroupId} {t : TaskType} {tag : Tag} {args : List Word} {i : Nat} {ps : List Nat}
    (h : Canon s.mem) : Canon (startWarps s g t tag args i ps).mem := by
  induction ps generalizing s i with
  | nil => exact h
  | cons p ps ih => exact ih h

theorem canon_takeTrigger {s : State} {k : Nat} (h : Canon s.mem) : Canon (takeTrigger s k).2.2.mem := by
  unfold takeTrigger
  split
  · exact h
  · exact canon_addChange h

theorem canon_startTask {s : State} {c : CuId} {t : Task} {r : Room} (h : Canon s.mem) : Canon (startTask s c t r).mem := by
  unfold startTask
  split
  · exact h
  · next x _ =>
    split
    · exact h
    · next ty _ =>
      extract_lets +onlyGivenNames g
      generalize t.kind = kd
      cases kd
      case trigger k =>
        have hk : Canon (takeTrigger s k).2.2.mem := canon_takeTrigger h
        dsimp only
        generalize takeTrigger s k = p at hk ⊢
        obtain ⟨args, trig, u⟩ := p
        cases trig
        · exact canon_startWarps (canon_dropSi hk)
        · exact canon_startWarps (canon_dropSi (canon_ite (canon_note hk) hk))
      all_goals exact canon_startWarps (canon_dropSi h)

theorem canon_setSplit {s : State} {c : CuId} {spl : Nat} (h : Canon s.mem) : Canon (setSplit s c spl).mem :=
  canon_ite h (canon_modCu (canon_emptyL1 h))

theorem canon_popTask {s : State} {c : CuId} (h : Canon s.mem) : Canon (popTask s c).mem := canon_modCu h

theorem canon_startEntries {s : State} {es : List (CuId × Task × Launch × Room)} (h : Canon s.mem) :
    Canon (startEntries s es).mem := canon_foldl (fun hs => canon_startTask (canon_popTask (canon_setSplit hs))) h

theorem lands_groupStart {c : CuId} {s : State} : Lands s (execGroupStart c s) := by
  unfold execGroupStart
  split
  · exact lands_same
  · exact lands_next fun h => canon_fillAll (canon_startEntries h)

theorem canon_startHeads {s : State} {done cs : List CuId} (h : Canon s.mem) : Canon (startHeads s done cs).mem := by
  induction cs generalizing s done with
  | nil => exact h
  | cons c cs ih =>
    unfold startHeads
    split
    · exact canon_ite (ih h) (ih (canon_startEntries h))
    · exact ih h

theorem canon_exchange {s : State} (h : Canon s.mem) : Canon (exchange s).mem :=
  canon_foldl canon_modCu (canon_foldl canon_modCu h)

theorem lands_balanceExchange {s : State} : Lands s (execBalanceExchange s) :=
  lands_ite lands_same (lands_next fun h => canon_fillAll (canon_exchange (canon_startHeads h)))

theorem canon_orphan {s : State} {g : GroupId} {l : Nat} (h : Canon s.mem) : Canon (orphan s g l).mem := h

theorem canon_dropWarps {s : State} {g : GroupId} (h : Canon s.mem) : Canon (dropWarps s g).mem := h

theorem canon_freeGroup {s : State} {g : GroupId} {gr : Group} (h : Canon s.mem) : Canon (freeGroup s g gr).mem := by
  unfold freeGroup
  split
  · exact h
  · exact canon_ite h h

theorem canon_retireGroup {s : State} {g : GroupId} (h : Canon s.mem) : Canon (retireGroup s g).mem := by
  unfold retireGroup
  split
  · exact h
  · refine canon_ite h ?_
    extract_lets +onlyGivenNames s1 s2 s3
    have h2 : Canon s2.mem := canon_orphan (canon_dropWarps (canon_barLeave h))
    clear_value s2
    have h3 : Canon s3.mem := by
      unfold s3
      split
      · exact h2
      · exact h2
    exact canon_freeGroup h3

theorem canon_sendAll {s : State} {c : CuId} {mark : WarpId} (h : Canon s.mem) : Canon (sendAll s c mark).mem :=
  canon_foldl canon_pushProxy (canon_foldl (fun hs => canon_pushLine (canon_settle hs)) (canon_releaseBy (canon_flushAll h)))

theorem lands_groupCountOut {k : Nat} {s : State} : Lands s (execGroupCountOut k s) := by
  unfold execGroupCountOut
  split
  · exact lands_same
  · next o _ =>
    refine lands_ite lands_same (lands_ite (lands_next canon_sendAll) (lands_next fun h => ?_))
    have h1 := canon_addChange (s := { s with outs := sErase s.outs k }) (r := o.region) (p := 0) (q := -1) h
    exact canon_ite (canon_note h1) h1

theorem canon_freeBars {s : State} {l : Nat} (h : Canon s.mem) : Canon (freeBars s l).mem := by
  refine canon_foldl (fun {s} {b} hs => ?_) h
  exact canon_ite hs (canon_ite (canon_setBar hs) (canon_setBar hs))

theorem canon_completionWord {s t : State} {l : Nat} {x : Launch} (ht : completionWord s l x = some t) (h : Canon s.mem) :
    Canon t.mem := by
  unfold completionWord at ht
  split at ht
  · cases ht
    exact h
  · extract_lets +onlyGivenNames word fail go at ht
    have hfail : ∀ {u v : State} {c : Nat}, fail u c = some v → Canon u.mem → Canon v.mem := by
      intro u v c e hu
      cases e
      exact canon_violate hu
    have hgo : ∀ {u v : State}, go u = some v → Canon u.mem → Canon v.mem := by
      intro u v e hu
      unfold go at e
      have hw : Canon (translate u 768 x.tag false .write x.cwaddr).2.mem := canon_translate hu
      split at e
      · next eq =>
        have hu' := canon_of_snd eq hw
        split at e
        · exact hfail e hu'
        · split at e
          · exact hfail e hu'
          · split at e
            · split at e
              · exact hfail e hu'
              · cases e
                exact canon_addReq hu'
            · split at e
              · exact hfail e hu'
              · cases e
                exact canon_homeStore hu'
      · next eq => exact hfail e (canon_of_snd eq hw)
      · exact nomatch e
    clear_value go fail
    have hw : Canon (translate s 768 x.tag false .write x.cwaddr).2.mem := canon_translate h
    split at ht
    · next eq =>
      have hu := canon_of_snd eq hw
      split at ht
      · next hb => exact hgo ht (canon_breakPage hb hu)
      · exact hfail ht hu
      · exact nomatch ht
    · exact hgo ht h

theorem canon_endLaunch {s : State} {l : Nat} {x : Launch} (h : Canon s.mem) : Canon (endLaunch s l x).mem := by
  unfold endLaunch
  extract_lets +onlyGivenNames cs
  refine canon_ite h (canon_ite (canon_foldl canon_releaseBy h) ?_)
  extract_lets +onlyGivenNames s1 s2
  have h1 : Canon s1.mem := by
    refine canon_foldl (fun {s} {r} hs => ?_) h
    split
    · exact canon_ite (canon_unwatchRegion hs) hs
    · exact hs
  have h2 : Canon s2.mem := canon_poolOut (canon_foldl canon_flushDirty (canon_freeBars h1))
  clear_value s2
  split
  · next eq =>
    have ht := canon_completionWord eq h2
    exact canon_ite (canon_noteEvt ht) ht
  · exact h

theorem canon_tellHolds {s : State} {l : Nat} {x : Launch} (h : Canon s.mem) : Canon (tellHolds s l x).mem :=
  canon_foldl (fun hs => canon_ite hs (canon_note hs)) h

theorem lands_launchCompletion {l : Nat} {s : State} : Lands s (execLaunchCompletion l s) := by
  unfold execLaunchCompletion
  split
  · exact lands_same
  · exact lands_ite (lands_next canon_endLaunch) (lands_next canon_tellHolds)

theorem canon_offer {s : State} {k : Nat} (h : Canon s.mem) : Canon (offer s k).mem := by
  unfold offer
  split
  · exact h
  · split
    · exact canon_ite h (canon_ite h (canon_enqueue h))
    · exact h

theorem lands_triggerDispatch {k : Nat} {s : State} : Lands s (execTriggerDispatch k s) := by
  unfold execTriggerDispatch
  split
  · exact lands_ite lands_same (lands_next canon_offer)
  · exact lands_same

theorem lands_triggerReoffer {k : Nat} {s : State} : Lands s (execTriggerReoffer k s) := by
  unfold execTriggerReoffer
  split
  · exact lands_ite (lands_next canon_offer) lands_same
  · exact lands_same

theorem lands_spillScan {u r : Nat} {s : State} : Lands s (execSpillScan u r s) := by
  unfold execSpillScan
  split
  · exact lands_same
  · split
    · exact lands_same
    · refine lands_ite lands_same ?_
      split
      · exact lands_same
      · dsimp only
        split
        · exact lands_next fun h => canon_clearSpillBit h
        · exact lands_next fun h => canon_addChange (canon_clearSpillBit h)

theorem lands_asyncTrap {w : WarpId} {s : State} : Lands s (execAsyncTrap w s) := by
  unfold execAsyncTrap
  split
  · exact lands_ite (lands_next canon_takeAsync) lands_same
  · exact lands_same

theorem canon_queueTrap {s : State} {w : WarpId} {x : Warp} {t : Trap} (h : Canon s.mem) : Canon (queueTrap s w x t).mem :=
  canon_ite h h

theorem canon_stopWarp {s : State} {w : WarpId} {x : Warp} (h : Canon s.mem) : Canon (stopWarp s w x).mem := canon_noteEvt h

theorem lands_trapEnqueue {w : WarpId} {s : State} : Lands s (execTrapEnqueue w s) := by
  unfold execTrapEnqueue
  split
  · exact lands_same
  · split
    · exact lands_same
    · exact lands_ite lands_same (lands_ite (lands_next fun h => canon_ite (canon_stopWarp h) h) (lands_next canon_queueTrap))

theorem lands_handlerStart {d : Nat} {s : State} : Lands s (execHandlerStart d s) := by
  unfold execHandlerStart
  extract_lets +onlyGivenNames g
  split
  · extract_lets +onlyGivenNames sup s1
    split
    · exact lands_next id
    · refine lands_next fun h => ?_
      have h2 : ∀ {gr : Group}, Canon (if (s1.draw.2.group? g).isSome then s1.draw.2 else s1.draw.2.setGroup g gr).mem :=
        canon_ite h h
      exact canon_ite h2 (canon_supervisorFault h2)
  · exact lands_same

theorem lands_deadlineOverrun {t : Tag} {s : State} : Lands s (execDeadlineOverrun t s) :=
  lands_ite (lands_next fun h => canon_startHalt h) lands_same

theorem canon_askStop {s : State} {g : GroupId} {on : Bool} (h : Canon s.mem) : Canon (askStop s g on).mem :=
  canon_foldl (fun hs => hs) h

theorem canon_stopGroup {s : State} {g : GroupId} (h : Canon s.mem) : Canon (stopGroup s g).mem := by
  unfold stopGroup
  extract_lets +onlyGivenNames s1
  have h1 : Canon s1.mem := canon_dropWaiters h
  clear_value s1
  split
  · exact h1
  · exact canon_foldl (fun hs => hs) (canon_modCu h1)

theorem canon_removeGroup {s : State} {g : GroupId} (h : Canon s.mem) : Canon (removeGroup s g).mem := h

theorem canon_takeEng {s : State} {g : GroupId} {gr : Group} {p : Prog} (h : Canon s.mem) : Canon (takeEng s g gr p).mem := by
  unfold takeEng
  extract_lets +onlyGivenNames base size
  split
  · exact canon_addEng h
  · exact canon_addEng h
  · exact canon_addEng h

theorem canon_takeMat {s : State} {g : GroupId} {gr : Group} {p : Prog} (h : Canon s.mem) : Canon (takeMat s g gr p).mem := by
  unfold takeMat
  split
  · exact h
  · exact canon_modCu (canon_ite h (canon_modGroup h))

theorem canon_takeUp {s : State} {g : GroupId} (h : Canon s.mem) : Canon (takeUp s g).mem := by
  unfold takeUp
  split
  · exact h
  · exact canon_foldl (fun hs => canon_ite (canon_takeMat hs) (canon_takeEng hs)) h

theorem canon_startLoaded {s : State} {k : Nat} (h : Canon s.mem) : Canon (startLoaded s k).mem := by
  unfold startLoaded
  split
  · exact canon_ite h (canon_foldl canon_takeUp h)
  · exact h

theorem canon_renameDbg {s : State} {old new : GroupId} (h : Canon s.mem) : Canon (renameDbg s old new).mem := canon_ite h h

theorem canon_placeSaved {s : State} {sv : Saved} {c : CuId} {spl : Nat} {r : Room} (h : Canon s.mem) :
    Canon (placeSaved s sv c spl r).mem := by
  unfold placeSaved
  extract_lets +onlyGivenNames s1 g moved sv' gr s2 s3 s4 s5
  have h1 : Canon s1.mem := canon_dropSi (canon_setSplit h)
  have h2 : Canon s2.mem := canon_renameDbg h1
  have h3 : Canon s3.mem := canon_foldl (fun hs => hs) h2
  have h5 : Canon s5.mem := canon_ite h3 h3
  clear_value s5
  split
  · exact canon_takeUp h5
  · exact canon_startLoaded h5

end Sys2Proof.Machine
end

section
/-! SUPPORT. Memory stays in canonical form: contexts, halts, port groups and other packages. -/

namespace Sys2Proof.Machine

open Sys2Proof Claims

theorem canon_restoreCluster {s : State} {k : Option Nat} (h : Canon s.mem) : Canon (restoreCluster s k).mem := by
  unfold restoreCluster
  extract_lets +onlyGivenNames ms
  clear_value ms
  split
  · exact h
  · split
    · exact h
    · dsimp only
      split
      · exact h
      · exact canon_foldl canon_placeSaved h

theorem canon_restoreSaved {s : State} (h : Canon s.mem) : Canon (restoreSaved s).mem := canon_foldl canon_restoreCluster h

theorem canon_virtPas {s : State} {c : CuId} {t : Tag} {sup : Bool} {va : Addr} {n : Nat} (h : Canon s.mem) :
    Canon (virtPas s c t sup va n).2.mem := by
  induction n generalizing s va with
  | zero => exact h
  | succ n ih =>
    unfold virtPas
    have ht : Canon (translate s c t sup .write va).2.mem := canon_translate h
    split
    · next e => exact canon_of_snd e ht
    · next e => exact canon_of_snd e ht
    · next e =>
      have hu := canon_of_snd e ht
      split
      · exact hu
      · next hb => exact canon_breakPage hb hu
      · exact hu
    · next e =>
      have hu := canon_of_snd e ht
      split
      · exact hu
      · split
        · exact hu
        · split
          · exact hu
          · split
            · next e2 => exact canon_of_snd e2 (ih hu)
            · exact ih hu

theorem canon_writePas {s : State} {ps : List Nat} {bs : List Byte} (h : Canon s.mem) : Canon (writePas s ps bs).mem :=
  canon_foldl canon_homeStore h

theorem canon_saveDone {s : State} {g : GroupId} {gr : Group} (h : Canon s.mem) : Canon (saveDone s g gr).mem := by
  unfold saveDone
  extract_lets +onlyGivenNames s1 live s2 all
  have h2 : Canon s2.mem := h
  exact canon_ite (canon_foldl canon_removeGroup h2) h2

theorem lands_ctxsave {p : Pr} {d a b : Operand} {s : State} (hcur : s.cur ≠ none) : Lands s (execCtxsave p d a b s) := by
  refine lands_run hcur (fun {x} {u} h => ?_)
  extract_lets +onlyGivenNames va
  refine resCanon_ite (resCanon_hold h) ?_
  split
  · exact resCanon_ok (canon_status h)
  · next g gr _ =>
    extract_lets +onlyGivenNames all
    refine resCanon_ite (canon_laneFaults h) (resCanon_ite (resCanon_ok (canon_status (canon_foldl canon_askStop h))) ?_)
    extract_lets +onlyGivenNames s1
    have h1 : Canon s1.mem := canon_foldl canon_askStop h
    clear_value s1
    refine resCanon_ite (resCanon_hold h1) ?_
    extract_lets +onlyGivenNames s2 bs
    have h2 : Canon s2.mem := canon_foldl canon_stopGroup h1
    clear_value s2 bs
    have hv : Canon (virtPas s2 (cuOf x.gid) (tagOf s2 x.w) (isSup x.w) va bs.length).2.mem := canon_virtPas h2
    split
    · next e => exact resCanon_hold (canon_of_snd e hv)
    · next e => exact canon_laneFaults (canon_of_snd e hv)
    · next e => exact resCanon_ok (canon_status (canon_saveDone (canon_writePas (canon_of_snd e hv))))

theorem canon_savedBytes {s : State} {r : Reader} {t : Tag} {sup : Bool} {va : Addr} (h : Canon s.mem) :
    Canon (savedBytes s r t sup va).2.mem := by
  refine canon_readEnds ?_
  have hv : Canon (virtBytes s r t sup va 128).2.mem := canon_virtBytes h
  split
  · next e => exact canon_of_snd e hv
  · next bs u e =>
    have hu := canon_of_snd e hv
    extract_lets n
    have hw : Canon (virtBytes u r t sup (va + 128) (n - 128)).2.mem := canon_virtBytes hu
    split
    · exact hu
    · split
      · next e2 => exact canon_of_snd e2 hw
      · next e2 => exact canon_of_snd e2 hw

theorem lands_ctxload {p : Pr} {d a b : Operand} {s : State} (hcur : s.cur ≠ none) : Lands s (execCtxload p d a b s) := by
  refine lands_run hcur (fun {x} {u} h => ?_)
  extract_lets +onlyGivenNames va k t
  refine resCanon_ite (resCanon_hold h) (resCanon_ite (canon_laneFaults h) ?_)
  have hv : Canon (savedBytes u (.warp x.w) t (isSup x.w) va).2.mem := canon_savedBytes h
  split
  · next e => exact resCanon_hold (canon_of_snd e hv)
  · next e => exact canon_laneFaults (canon_of_snd e hv)
  · next e => exact resCanon_ok (canon_status (canon_of_snd e hv))
  · next e =>
    have hw := canon_of_snd e hv
    split
    · exact resCanon_ok (canon_status hw)
    · dsimp only
      split
      · exact resCanon_ok (canon_status hw)
      · exact resCanon_ite (resCanon_ok (canon_status hw)) (resCanon_ok (canon_status (canon_placeSaved hw)))

theorem canon_movedFlush {s : State} {c : CuId} {t : Tag} (h : Canon s.mem) : Canon (movedFlush s c t).mem := by
  unfold movedFlush
  split
  · split
    · exact canon_ite h h
    · exact h
  · exact h

theorem lands_flushByTag {c : CuId} {t : Tag} {s : State} : Lands s (execFlushByTag c t s) :=
  lands_next fun h => canon_foldl (fun hs => canon_foldl canon_modWarp hs) (canon_movedFlush (canon_flushTag h))

theorem lands_groupRetire {g : GroupId} {s : State} : Lands s (execGroupRetire g s) :=
  lands_next fun h => canon_restoreSaved (canon_retireGroup h)

theorem canon_saveCluster {s : State} {all : List GroupId} (h : Canon s.mem) : Canon (saveCluster s all).mem := by
  unfold saveCluster
  extract_lets s1 svs
  have h1 : Canon s1.mem := canon_foldl canon_stopGroup h
  refine canon_foldl canon_removeGroup ?_
  exact h1

theorem canon_reload {s : State} {k : Option Nat} {g : GroupId} {c : CuId} (h : Canon s.mem) : Canon (reload s k g c).mem := by
  unfold reload
  split
  · exact canon_foldl canon_placeSaved h
  · exact canon_restoreCluster h

theorem canon_awaitFlush {s : State} {m : Moving} {k : Option Nat} {from_ : List CuId} (h : Canon s.mem) :
    Canon (awaitFlush s m k from_).mem := h

theorem lands_preemption {g : GroupId} {s : State} : Lands s (execPreemption g s) := by
  unfold execPreemption
  split
  · exact lands_same
  · extract_lets +onlyGivenNames all asked
    refine lands_ite lands_same (lands_ite (lands_next canon_saveCluster) ?_)
    split
    · exact lands_ite (lands_next fun h => canon_awaitFlush (canon_reload (canon_saveCluster h))) lands_same
    · exact lands_same

theorem canon_setAside {s : State} {t : Tag} (h : Canon s.mem) : Canon (setAside s t).mem := canon_foldl canon_modCu h

theorem canon_bringBack {s : State} {t : Tag} (h : Canon s.mem) : Canon (bringBack s t).mem := canon_foldl canon_modCu h

theorem canon_beginsTurn {s : State} {u : Tag} (h : Canon s.mem) : Canon (beginsTurn s u).mem := canon_bringBack h

theorem canon_admitWaiting {s : State} (h : Canon s.mem) : Canon (admitWaiting s).mem :=
  canon_foldl (fun hs => canon_ite (canon_beginsTurn hs) hs) h

theorem lands_contextSwitch {t u : Tag} {s : State} : Lands s (execContextSwitch t u s) := by
  unfold execContextSwitch
  refine lands_ite lands_same ?_
  split
  · extract_lets +onlyGivenNames s1 s2
    refine lands_next fun h => ?_
    have h1 : Canon s1.mem := canon_setAside h
    have h2 : Canon s2.mem := canon_admitWaiting (canon_ite h1 h1)
    exact canon_fillAll (canon_restoreSaved h2)
  · refine lands_next fun h => ?_
    have h1 : Canon ((groupsOf s t).foldl (fun s g => askStop s g true) s).mem := canon_foldl canon_askStop h
    simp_all

theorem canon_physWrite {s : State} {pa : Nat} {bs : List Byte} (h : Canon s.mem) : Canon (physWrite s pa bs).mem :=
  canon_writePas h

theorem canon_dropTraps {s : State} {t : Tag} (h : Canon s.mem) : Canon (dropTraps s t).mem := h

theorem canon_clearPartition {s : State} {t : Tag} (h : Canon s.mem) : Canon (clearPartition s t).mem := by
  unfold clearPartition
  extract_lets +onlyGivenNames ls gone ks s1 s2
  have h2 : Canon s2.mem := canon_foldl canon_modCu (canon_foldl canon_removeGroup h)
  exact h2

theorem canon_leaveRegions {s : State} {t : Tag} (h : Canon s.mem) : Canon (leaveRegions s t).mem :=
  canon_foldl canon_unwatchRegion h

theorem canon_endLaunches {s : State} {t : Tag} (h : Canon s.mem) : Canon (endLaunches s t).mem := by
  refine canon_foldl (fun {s} {l} hs => ?_) h
  split
  · exact canon_endLaunch hs
  · exact hs

theorem canon_haltPartition {s : State} {t : Tag} (h : Canon s.mem) : Canon (haltPartition s t).mem := by
  unfold haltPartition
  extract_lets +onlyGivenNames c low s1 here svs s2 s3 s4
  have h1 : Canon s1.mem := canon_foldl canon_stopGroup h
  have h2 : Canon s2.mem := canon_ite h1 (canon_physWrite h1)
  clear_value svs s1
  have h3 : Canon s3.mem := canon_endLaunches (canon_leaveRegions (canon_clearPartition (canon_dropTraps h2)))
  clear_value s3
  have h4 : Canon s4.mem := canon_fillAll h3
  clear_value s4
  exact canon_postEvent h4

theorem lands_partitionHalt {t : Tag} {cause : Nat} {s : State} : Lands s (execPartitionHalt t cause s) :=
  lands_ite (lands_next canon_haltPartition) lands_same

theorem canon_rerunLaunch {t : Tag} {r : Rerun} {e : Nat × List Byte} {counter : Nat} (h : Canon r.s.mem) :
    Canon (rerunLaunch t r e counter).s.mem := by
  have ha {l : Nat} {q : BitVec 64} : Canon (allotBars { r.s with launchId := l } t l q).mem := canon_allotBars h
  exact ha

theorem canon_rerunRegion {t : Tag} {svs : List Record} {r : Rerun} {old : Nat} (h : Canon r.s.mem) :
    Canon (rerunRegion t svs r old).s.mem := by
  have ha {n : Nat} {g : Region} : Canon (mapRegion (putRegion r.s n g) n g).mem := canon_mapRegion (canon_putRegion h)
  exact ha

theorem canon_rerunCluster {r : Rerun} {l key side x y : Nat} (h : Canon r.s.mem) :
    Canon (rerunCluster r l key side x y).2.s.mem := by
  unfold rerunCluster
  split
  · exact h
  · exact canon_addCluster h

theorem canon_rerunGroup {r : Rerun} {v : Record} (h : Canon r.s.mem) : Canon (rerunGroup r v).s.mem := by
  unfold rerunGroup
  extract_lets +onlyGivenNames g home n
  clear_value g home n
  generalize hq : rerunCluster r _ _ _ _ _ = q
  have hc : Canon q.2.s.mem := hq ▸ canon_rerunCluster h
  obtain ⟨k, r'⟩ := q
  exact canon_foldl canon_setBar (canon_foldl canon_joinBar hc)

theorem canon_rerunTrigger {r : Rerun} {bs : List Byte} (h : Canon r.s.mem) : Canon (rerunTrigger r bs).s.mem := by
  unfold rerunTrigger
  extract_lets n va
  split
  · exact h
  · split
    · exact h
    · exact canon_changed h

theorem canon_rerunTriggered {r : Rerun} {l c x : Nat} {va : Addr} (h : Canon r.s.mem) :
    Canon (rerunTriggered r l c x va).s.mem := by
  unfold rerunTriggered
  split
  · exact h
  · split
    · exact h
    · exact canon_enqueue h

/-- A group joins the barriers that its launch asks for and those of its cluster. -/
theorem canon_joined {s : State} {n : GName} {l m : List Nat} {f : Nat → Nat} (h : Canon s.mem) :
    Canon (m.foldl (fun s b => joinBar s n (f b)) (l.foldl (fun s b => joinBar s n b) s)).mem :=
  canon_foldl canon_joinBar (canon_foldl canon_joinBar h)

theorem canon_rerunEntry {r : Rerun} {bs : List Byte} (h : Canon r.s.mem) : Canon (rerunEntry r bs).s.mem := by
  unfold rerunEntry
  extract_lets +onlyGivenNames x old c kind l
  split
  · exact h
  · next la _ =>
    split
    · exact canon_rerunTriggered h
    · extract_lets +onlyGivenNames n ox oy
      clear_value n ox oy kind x
      generalize hq : (ite (kind == 0) _ _ : Nat × Rerun) = q
      have hc : Canon q.2.s.mem := by
        subst hq
        split
        · exact h
        · exact canon_rerunCluster h
      obtain ⟨k, r'⟩ := q
      dsimp only
      split
      · split
        · exact canon_enqueue hc
        · exact hc
      · split
        · exact canon_enqueue (canon_joined hc)
        · dsimp only
          exact canon_joined hc

theorem canon_queueTraps {s : State} {t : Tag} (h : Canon s.mem) : Canon (queueTraps s t).mem := by
  refine canon_foldl (fun {s} {e} hs => ?_) h
  split
  · exact canon_ite hs hs
  · exact hs

/-- Folds over a rerun keep its state's memory canonical. -/
theorem canon_foldl_rerun {α : Type} {f : Rerun → α → Rerun} {l : List α} {r : Rerun}
    (hf : ∀ {r : Rerun} {a : α}, Canon r.s.mem → Canon (f r a).s.mem) (h : Canon r.s.mem) : Canon (l.foldl f r).s.mem :=
  foldl_keeps (P := fun r : Rerun => Canon r.s.mem) l (fun _ hr _ => hf hr) h

theorem canon_dumpRun {s t : State} {tag : Tag} {base : Nat} {remain : BitVec 48} {ls : List Nat}
    (ht : dumpRun s tag base remain = some (ls, t)) (h : Canon s.mem) : Canon t.mem := by
  unfold dumpRun at ht
  extract_lets +onlyGivenNames hd at ht
  split at ht
  · exact nomatch ht
  · extract_lets +onlyGivenNames recs areas o2 o3 svs r1 r2 r3 r4 r5 s1 s2 at ht
    have h3 : Canon r3.s.mem := canon_foldl_rerun canon_rerunGroup (canon_foldl_rerun canon_rerunRegion
      (canon_foldl_rerun canon_rerunLaunch h))
    have h5 : Canon r5.s.mem := canon_foldl_rerun canon_rerunEntry (canon_foldl_rerun canon_rerunTrigger h3)
    clear_value r5
    have h2 : Canon s2.mem := canon_queueTraps (canon_fillAll (canon_restoreSaved (canon_beginTurn h5)))
    clear_value s2
    cases ht
    exact h2

theorem canon_setPg {s : State} {n hi lo v : Nat} (h : Canon s.mem) : Canon (setPg s n hi lo v).mem := h

theorem canon_setPgAll {s : State} {hi lo v : Nat} (h : Canon s.mem) : Canon (setPgAll s hi lo v).mem := by
  refine canon_foldl (fun {s} {n} hs => ?_) h
  exact canon_setPg hs

theorem canon_setPgState {s : State} {n st : Nat} (h : Canon s.mem) : Canon (setPgState s n st).mem := canon_setPg h

theorem canon_setTab {s : State} {n : Nat} {t : PgTab} (h : Canon s.mem) : Canon (setTab s n t).mem := h

theorem canon_switchOff {s : State} {n cause : Nat} (h : Canon s.mem) : Canon (switchOff s n cause).mem := by
  unfold switchOff
  extract_lets +onlyGivenNames s1
  have h1 : Canon s1.mem := canon_setPg (canon_setPgState (canon_setTab h))
  clear_value s1
  exact canon_ite h1 (canon_violate h1)

theorem canon_loadMap {s : State} {base : Nat} (h : Canon s.mem) : Canon (loadMap s base).mem := h

theorem canon_remap {s : State} {n : Nat} (h : Canon s.mem) : Canon (remap s n).mem := by
  unfold remap
  extract_lets +onlyGivenNames base s1
  have h1 : Canon s1.mem := canon_setTab (canon_loadMap h)
  clear_value s1
  exact canon_ite (canon_switchOff (canon_ite (canon_loadMap h) h)) (canon_ite (canon_switchOff h)
    (canon_ite (canon_switchOff (canon_loadMap h)) (canon_setPgState h1)))

theorem lands_pgctlWrite {p : Pr} {a : Operand} {idx : BitVec 8} {s : State} (hcur : s.cur ≠ none) :
    Lands s (execPgctlWrite p a idx s) := by
  refine lands_run hcur (fun {x} {u} h => ?_)
  extract_lets +onlyGivenNames n v
  refine resCanon_ite (resCanon_hold h) (resCanon_ok ?_)
  have h1 {v w z : Nat} :
    Canon (setPg (setPg (setPgAll { u with fab := { u.fab with switched := true } } 51 16 v) n 63 62 w) n 15 12 z).mem :=
    canon_setPg (canon_setPg (canon_setPgAll h))
  exact canon_ite (canon_remap h1) (canon_setPgState h1)

theorem lands_switchQuiesceDone {g : Fin 16} {s : State} : Lands s (execSwitchQuiesceDone g s) :=
  lands_ite (lands_next canon_setPgState) lands_same

theorem canon_drainRange {s : State} {base len : Nat} (h : Canon s.mem) : Canon (drainRange s base len).mem :=
  canon_foldl (fun hs => canon_lineToStore (canon_lineToPlinth hs)) (canon_purgeRange h)

theorem lands_switchDrainDone {g : Fin 16} {s : State} : Lands s (execSwitchDrainDone g s) :=
  lands_ite lands_same (lands_ite (lands_next (canon_foldl canon_farAsk))
    (lands_next fun h => canon_remap (canon_ite (canon_foldl canon_drainRange h) h)))

/-- A line that is lost: what L2 and the plinths' cache held of it leaves. -/
theorem canon_lineGone {m : Mem} {line : Nat} {dir : Store Dir} {wide : Store (BitVec 8)} (h : Canon m) :
    Canon { m with l2 := sFilter m.l2 fun a _ => a / 128 != line, msc := sFilter m.msc fun a _ => a / 128 != line, dir := dir, wide := wide } := by
  obtain ⟨hb, hm, hl, hr⟩ := canon_iff.mp h
  exact canon_iff.mpr ⟨hb, sSortedFrom_filter (fun a _ => a / 128 != line) hm, sSortedFrom_filter (fun a _ =>
    a / 128 != line) hl, hr⟩

theorem canon_dropLine {s : State} {line : Nat} (h : Canon s.mem) : Canon (dropLine s line).mem := by
  unfold dropLine
  extract_lets +onlyGivenNames dirty s1
  have h1 : Canon s1.mem := canon_foldl canon_modCu h
  clear_value s1
  exact canon_ite (canon_violate (canon_lineGone h1)) (canon_lineGone h1)

theorem lands_drainFailure {g : Fin 16} {s : State} : Lands s (execDrainFailure g s) := by
  unfold execDrainFailure
  extract_lets +onlyGivenNames n
  refine lands_ite lands_same
    (lands_ite ?_ (lands_ite (lands_next fun h => canon_foldl canon_failEng (canon_switchOff h)) lands_same))
  refine lands_next fun h => canon_switchOff ?_
  generalize (hdmRanges s n).flatMap _ = ls
  split
  · exact h
  · exact canon_dropLine h

theorem lands_retrainLock {g : Fin 16} {s : State} : Lands s (execRetrainLock g s) :=
  lands_ite (lands_next canon_setPgState) lands_same

theorem lands_retrainTimeout {g : Fin 16} {s : State} : Lands s (execRetrainTimeout g s) :=
  lands_ite (lands_next canon_switchOff) lands_same

theorem lands_announceDone {g : Fin 16} {s : State} : Lands s (execAnnounceDone g s) :=
  lands_ite (lands_next fun h => canon_setPgState (canon_setPg h)) lands_same

theorem lands_announceFailure {g : Fin 16} {code : Fin 2} {s : State} : Lands s (execAnnounceFailure g code s) :=
  lands_ite (lands_next canon_switchOff) lands_same

theorem canon_loseLink {s : State} {n : Nat} (h : Canon s.mem) : Canon (loseLink s n).mem :=
  canon_raiseSvc (canon_setPgState h)

theorem lands_linkLoss {g : Fin 16} {s : State} : Lands s (execLinkLoss g s) :=
  lands_ite (lands_next canon_loseLink) (lands_ite (lands_next id) lands_same)

theorem lands_wavelengthRetire {g : Fin 16} {pair wave : Nat} {s : State} : Lands s (execWavelengthRetire g pair wave s) :=
  lands_ite lands_same (lands_next fun h => canon_ite (canon_loseLink (canon_raiseSvc h)) (canon_raiseSvc h))

theorem lands_farEndQuiesce {g : Fin 16} {s : State} : Lands s (execFarEndQuiesce g s) :=
  lands_ite (lands_next id) lands_same

theorem canon_ualGrant {s : State} {q : UalReq} {word : Nat} (h : Canon s.mem) : Canon (ualGrant s q word).mem := by
  unfold ualGrant
  split
  · exact canon_ite (canon_addSharer (canon_recallWord h)) (canon_setDir (canon_invalidateWord (canon_recallWord h)))
  · exact canon_addSharer (canon_recallWord h)
  · exact canon_recallWord h

theorem canon_ualCombine {s : State} {q : UalReq} (h : Canon s.mem) : Canon (ualCombine s q).mem := by
  unfold ualCombine
  extract_lets +onlyGivenNames line ds ts s1
  have h1 : Canon s1.mem := canon_ite h (canon_combineAt h)
  clear_value s1
  exact canon_ite h1 (canon_ite h1 h1)

theorem canon_ualPut {s : State} {q : UalReq} {bs : Bytes} {tag : Nat → Option (BitVec 3)} (h : Canon s.mem) :
    Canon (ualPut s q bs tag).mem := by
  refine canon_foldl (fun {s} {b} hs => canon_foldl (fun {s} {w} hs => ?_) (canon_commit hs)) h
  split
  · exact canon_setRelTag hs
  · exact hs

theorem canon_ualDisown {s : State} {q : UalReq} (h : Canon s.mem) : Canon (ualDisown s q).mem := canon_foldl canon_setDir h

theorem canon_ualGiveUp {s : State} {q : UalReq} (h : Canon s.mem) : Canon (ualGiveUp s q).mem :=
  canon_ualDisown (canon_ualPut h)

theorem canon_ualAsk {s : State} {q : UalReq} (h : Canon s.mem) : Canon (ualAsk s q).mem := canon_ite h h

theorem canon_ualReady {s : State} {q : UalReq} (h : Canon s.mem) : Canon (ualReady s q).mem :=
  canon_ite (canon_foldl (fun hs => canon_ite (canon_settle hs) (canon_drainLine hs)) h)
    (canon_ite h (canon_recallAll (canon_foldl canon_drainLine h)))

theorem canon_ualApply {s : State} {q : UalReq} (h : Canon s.mem) : Canon (ualApply s q).mem := by
  unfold ualApply
  refine canon_ite (canon_foldl canon_ualGrant h) (canon_ite (canon_ualPut h) (canon_ite (canon_ualCombine h)
    (canon_ite (canon_ualGiveUp h) (canon_ite h ?_))))
  split
  · exact canon_ualPut h
  · exact h

theorem canon_respond {s : State} {r : UalReply} (h : Canon s.mem) : Canon (respond s r).mem := h

theorem canon_logBlock {s : State} {q : UalReq} {bs : Bytes} {b : Nat} (h : Canon s.mem) : Canon (logBlock s q bs b).mem := by
  unfold logBlock
  extract_lets +onlyGivenNames k at_ entry s1
  have h1 : Canon s1.mem := canon_rawWriteNat (canon_rawWriteNat h)
  clear_value s1
  exact h1

theorem canon_logStore {s : State} {q : UalReq} (h : Canon s.mem) : Canon (logStore s q).mem := canon_foldl canon_logBlock h

end Sys2Proof.Machine
end

section
/-! SUPPORT. Memory stays in canonical form: the host, the service processor and snapshots. -/

namespace Sys2Proof.Machine

open Sys2Proof Claims

theorem canon_ualServe {s : State} {q : UalReq} (h : Canon s.mem) : Canon (ualServe s q).mem := by
  unfold ualServe
  extract_lets +onlyGivenNames t mark
  have hm : ∀ {u : State} {t : Stream} {r : UalReply}, Canon u.mem → Canon (mark u t r).mem := fun hu => hu
  clear_value mark
  refine canon_ite (hm (canon_ite (canon_refuseCombine h) (canon_violate h))) (canon_ite (hm (canon_ualApply (canon_ualReady h)))
    (canon_ite h (canon_ite (canon_ite h (hm (canon_ite (canon_ualDisown (canon_logStore h)) (canon_logStore h)))) (hm h))))

theorem canon_ualAgain {s : State} {q : UalReq} (h : Canon s.mem) : Canon (ualAgain s q).mem := h

theorem lands_ualRequest {q : UalReq} {s : State} : Lands s (execUalRequest q s) := by
  unfold execUalRequest
  extract_lets +onlyGivenNames t hold
  have hh : ∀ {u : State} {t : Stream}, Canon u.mem → Canon (hold u t).mem := fun hu => hu
  clear_value hold
  exact lands_ite lands_same (lands_ite (lands_next canon_ualAgain) (lands_ite lands_same (lands_ite (lands_next hh)
    (lands_ite (lands_next fun h => hh (canon_ualAsk h)) (lands_next canon_ualServe)))))

theorem canon_replayEntry {s : State} {q : UalReq} {bs : Bytes} (h : Canon s.mem) : Canon (replayEntry s q bs).mem := by
  unfold replayEntry
  extract_lets s1 q1
  have h1 : Canon s1.mem := canon_recallAll h
  exact canon_ite (canon_ite h1 (canon_ualPut h1)) (canon_ualPut h1)

theorem lands_storeLogReplay {s : State} : Lands s (execStoreLogReplay s) := by
  unfold execStoreLogReplay
  extract_lets +onlyGivenNames k
  refine lands_ite lands_same ?_
  extract_lets +onlyGivenNames e pa key
  clear_value e pa key
  refine lands_ite lands_same ?_
  extract_lets +onlyGivenNames ok bs t fab s1
  have h1 : Canon s.mem → Canon s1.mem := fun h => by
    unfold s1
    exact canon_rawWriteNat h
  clear_value s1 bs ok
  split
  · exact lands_next fun h => canon_ite (canon_commit (canon_recallAll (h1 h))) (canon_violate (h1 h))
  · extract_lets +onlyGivenNames s2 done
    have h2 : Canon s.mem → Canon s2.mem := fun h => canon_ite (canon_replayEntry (h1 h)) (canon_respond (canon_violate (h1 h)))
    clear_value s2
    exact lands_next fun h => canon_ite (h2 h) (h2 h)

theorem lands_freeze {pkg : BitVec 8} {die : BitVec 3} {agent : BitVec 21} {s : State} : Lands s (execFreeze pkg die agent s) :=
  lands_next id

theorem lands_resume {pkg : BitVec 8} {die : BitVec 3} {agent : BitVec 21} {s : State} : Lands s (execResume pkg die agent s) :=
  lands_next id

theorem lands_busyResend {k : Nat} {s : State} : Lands s (execBusyResend k s) := by
  unfold execBusyResend
  split
  · exact lands_next canon_putReq
  · exact lands_same

theorem lands_relayForward {g : Fin 16} {dst : BitVec 8} {q : UalReq} {s : State} : Lands s (execRelayForward g dst q s) := by
  unfold execRelayForward
  extract_lets t e c
  exact lands_ite lands_same (lands_ite lands_same (lands_next fun h => canon_respond (canon_violate h)))

theorem lands_inboundRmaRequest {s : State} : Lands s (execInboundRmaRequest s) := lands_same

theorem lands_backInvalidate {line : Nat} {s : State} : Lands s (execBackInvalidate line s) :=
  lands_ite lands_same (lands_ite (lands_next canon_farAsk) (lands_next canon_drainRange))

theorem canon_loseExtent {s : State} {base len : Nat} (h : Canon s.mem) : Canon (loseExtent s base len).mem := h

theorem lands_dynamicCapacityRelease {base len : Nat} {s : State} : Lands s (execDynamicCapacityRelease base len s) :=
  lands_ite lands_same (lands_ite (lands_next fun h => canon_ite (canon_farAsk h) (canon_farAsk h))
    (lands_next fun h => canon_loseExtent (canon_drainRange h)))

theorem lands_forcedRevocation {base len : Nat} {s : State} : Lands s (execForcedRevocation base len s) :=
  lands_ite (lands_next fun h => canon_loseExtent (canon_foldl canon_dropLine h)) lands_same

theorem canon_badQueueWrite {s : State} {k off : Nat} (h : Canon s.mem) : Canon (badQueueWrite s k off).mem :=
  canon_violate h

theorem canon_writeQtail {s : State} {k : Nat} {v : Word} (h : Canon s.mem) : Canon (writeQtail s k v).mem :=
  canon_ite h (canon_ite (canon_badQueueWrite h) h)

theorem canon_writeQcfg {s : State} {k : Nat} {v : Word} (h : Canon s.mem) : Canon (writeQcfg s k v).mem :=
  canon_ite h (canon_ite h (canon_ite (canon_badQueueWrite h) h))

theorem canon_writeQbase {s : State} {k : Nat} {v : DWord} (h : Canon s.mem) : Canon (writeQbase s k v).mem := canon_ite h h

theorem lands_qtail {q : Fin 64} {v : Word} {s : State} : Lands s (execQtail q v s) := lands_next canon_writeQtail

theorem lands_qcfg {q : Fin 64} {v : Word} {s : State} : Lands s (execQcfg q v s) := lands_next canon_writeQcfg

theorem canon_tellLaunch {s : State} {k head st : Nat} (h : Canon s.mem) : Canon (tellLaunch s k head st).mem :=
  canon_ite h (canon_note h)

theorem canon_endEntry {s : State} {k : Nat} {q : HostQ} {st : Nat} (h : Canon s.mem) : Canon (endEntry s k q st).mem := by
  unfold endEntry
  extract_lets s1 s2
  have h1 : Canon s1.mem := canon_homeStore h
  clear_value s1
  exact canon_tellLaunch h1

theorem lands_queueEntry {q : Fin 64} {s : State} : Lands s (execQueueEntry q s) := by
  unfold execQueueEntry
  refine lands_ite lands_same ?_
  extract_lets +onlyGivenNames hq va
  clear_value va
  refine lands_ite (lands_next canon_endEntry) (lands_ite (lands_next canon_endEntry) ?_)
  have hr : Canon s.mem → Canon (readRecord s (.unit 768) hq.tag false va).2.mem := canon_readRecord
  split
  · next u e =>
    have hu : Canon s.mem → Canon u.mem := fun h => canon_of_snd e (hr h)
    exact lands_next hu
  · next e => exact lands_next fun h => canon_endEntry (canon_of_snd e (hr h))
  · next e => exact lands_next fun h => canon_endEntry (canon_acceptLaunch (canon_of_snd e (hr h)))

theorem canon_mbStat {s : State} {n : Nat} (h : Canon s.mem) : Canon (mbStat s n).mem := h

/-- A mailbox command answers a next state. -/
theorem lands_mailbox {s : State} {code : Nat} {args : List (Nat × Nat)} {ok : Bool} {f : State → State}
    (hf : ∀ {t : State}, Canon s.mem → Canon t.mem → Canon (f t).mem) : Lands s (mailbox s code args ok f) := by
  unfold mailbox
  refine lands_ite lands_same ?_
  extract_lets +onlyGivenNames fits s1
  exact lands_next fun h => canon_ite (hf h h) h

theorem lands_pkgset {n : Nat} {s : State} : Lands s (execPkgset n s) := lands_mailbox fun _ ht => canon_setPgAll ht

theorem lands_quantum {us : Nat} {s : State} : Lands s (execQuantum us s) := lands_mailbox fun _ ht => ht

theorem lands_dumpset {t : Tag} {base size : Nat} {s : State} : Lands s (execDumpset t base size s) :=
  lands_mailbox fun _ ht => ht

theorem lands_vlogset {base : Nat} {s : State} : Lands s (execVlogset base s) := lands_mailbox fun _ ht => ht

theorem lands_powercap {watts : Nat} {s : State} : Lands s (execPowercap watts s) := lands_mailbox fun _ ht => ht

theorem lands_svcclr {mask : Word} {s : State} : Lands s (execSvcclr mask s) := lands_mailbox fun _ ht => ht

theorem lands_dumprun {t : Tag} {base : Nat} {remain : BitVec 48} {s : State} : Lands s (execDumprun t base remain s) := by
  unfold execDumprun
  extract_lets r
  have hr : ∀ {ids : List Nat} {u : State}, r = some (ids, u) → Canon s.mem → Canon u.mem := canon_dumpRun
  clear_value r
  refine lands_mailbox fun h ht => ?_
  split
  · exact ht
  · have hu := hr rfl h
    exact hu

theorem lands_prove {nonce : List Byte} {s : State} : Lands s (execProve nonce s) := lands_mailbox fun _ ht => ht

theorem canon_takeImage {s : State} {k : Nat} {im : Firmware} (h : Canon s.mem) : Canon (takeImage s k im).mem := h

theorem canon_bootRest {s : State} (h : Canon s.mem) : Canon (bootRest s).mem :=
  canon_foldl (fun hs => canon_ite (canon_takeImage hs) (canon_raiseSvc hs)) h

theorem lands_reset {s : State} : Lands s (execReset s) := by
  unfold execReset
  extract_lets +onlyGivenNames z1 h1 z2 z3
  exact lands_ite (lands_next fun _ => canon_bootRest reset_memWf) (lands_next fun _ => reset_memWf)

theorem lands_newManagementImage {im : Firmware} {s : State} : Lands s (execNewManagementImage im s) :=
  lands_ite lands_same (lands_ite (lands_next fun h => h) (lands_ite (lands_next fun h => canon_mbStat (canon_bootRest h))
    (lands_next fun h => h)))

theorem canon_controlError {s : State} {d : Nat} (h : Canon s.mem) : Canon (controlError s d).mem :=
  canon_foldl canon_startHalt (canon_raiseSvc (canon_violate h))

theorem canon_poisonMemory {s : State} {pa : Nat} (h : Canon s.mem) : Canon (poisonMemory s pa).mem := poisonMemory_memWf h pa

theorem lands_uncorrectableError {site : ErrSite} {s : State} : Lands s (execUncorrectableError site s) := by
  cases site
  case memory => exact lands_next canon_poisonMemory
  case copy =>
    refine lands_next fun h => ?_
    split
    · exact canon_setL1 h
    · exact h
  case tile => exact lands_next canon_modGroup
  case scratch => exact lands_next canon_modGroup
  case register => exact lands_next canon_modWarp
  case control => exact lands_next canon_controlError

theorem lands_correctableError {above : Bool} {s : State} : Lands s (execCorrectableError above s) :=
  lands_next fun h => canon_ite (canon_raiseSvc h) h

theorem lands_spareCu {die : Nat} {available : Bool} {s : State} : Lands s (execSpareCu die available s) :=
  lands_ite (lands_next fun h => canon_raiseSvc h) (lands_next fun h => canon_raiseSvc h)

theorem canon_splitLeaf {s : State} {t : Tag} {va : Addr} {fuel next : Nat} (h : Canon s.mem) :
    Canon (splitLeaf s t va fuel next).mem := by
  induction fuel generalizing s next with
  | zero => exact h
  | succ fuel ih =>
    unfold splitLeaf
    split
    · exact canon_ite h (ih (canon_tlbDropPage (canon_putPte (canon_foldl canon_putPte (canon_clearRange h)))))
    · exact h

theorem canon_moves {m : Mapper} {va : Addr} {n : Nat} {s : State} (h : Canon s.mem) : Canon (Mapper.moves m va n s).mem := by
  unfold Mapper.moves
  split
  · exact canon_tlbDropPage (canon_ite (canon_twinPut h) (canon_putPte h))
  · exact h

theorem canon_moveMarks {s : State} {f n : Nat} (h : Canon s.mem) : Canon (moveMarks s f n).mem := by
  unfold moveMarks
  extract_lets +onlyGivenNames s1
  have h1 : Canon s1.mem := by
    unfold s1
    split
    · exact canon_ftPut (canon_ftPut h)
    · exact h
  clear_value s1
  split
  · exact h1
  · exact canon_putFrameMap (canon_putFrameMap h1)

theorem canon_evacuate {s : State} {f : Nat} (h : Canon s.mem) : Canon (evacuate s f).mem := by
  unfold evacuate
  extract_lets +onlyGivenNames ms vas large
  refine canon_ite h (canon_ite (canon_ite (canon_farAsk h) h) ?_)
  split
  · exact h
  · next ht =>
    refine canon_foldl canon_moves (canon_moveMarks (canon_copyPage (canon_flushFrame (canon_foldl (fun {s} {p} hs => ?_)
      (canon_foldl canon_splitLeaf (canon_takeFrames ht h))))))
    split
    · exact canon_ftPut hs
    · exact hs

theorem canon_pruneList {s : State} {d : Nat} (h : Canon s.mem) : Canon (pruneList s d).mem :=
  canon_ite h (canon_foldl canon_pushFrame (canon_foldl canon_ftPut (canon_setFreeList h)))

theorem lands_pseudoChannelRetire {frames : List Nat} {s : State} : Lands s (execPseudoChannelRetire frames s) := by
  unfold execPseudoChannelRetire
  extract_lets +onlyGivenNames old host s1 s2
  refine lands_next fun h => canon_foldl canon_evacuate ?_
  have h1 : Canon s1.mem := canon_ite h (canon_raiseSvc h)
  exact canon_ite (canon_foldl canon_pruneList h1) h1

theorem lands_powerCap {engaged : Bool} {s : State} : Lands s (execPowerCap engaged s) :=
  lands_next fun h => canon_ite (canon_raiseSvc h) h

theorem lands_decodeWindow {p n : Fin 16} {v : BitVec 512} {s : State} : Lands s (execDecodeWindow p n v s) :=
  lands_next canon_setWindow

theorem lands_nrctl {p : Fin 16} {v : DWord} {s : State} : Lands s (execNrctl p v s) := lands_next canon_setNrctl

theorem canon_writeMbcmd {s : State} {c : Nat} (h : Canon s.mem) : Canon (writeMbcmd s c).mem :=
  canon_ite h (canon_ite (canon_ite h h) (canon_ite h h))

theorem lands_registerWrite {off : Nat} {v : DWord} {s : State} : Lands s (execRegisterWrite off v s) :=
  lands_ite (lands_next canon_writeMbcmd) (lands_ite lands_same (lands_ite (lands_next id) (lands_ite
    (lands_next fun h => canon_ite (canon_writeQbase h) (canon_ite (canon_writeQcfg h)
      (canon_ite (canon_writeQtail h) h))) lands_same)))

theorem canon_poisonFar {s : State} {src dst : Nat} (h : Canon s.mem) : Canon (poisonFar s src dst).mem :=
  canon_foldl (fun hs => canon_ite (canon_foldl canon_setPoison hs) hs) h

theorem canon_snapItem {p : Snap} {base : Nat} {bs : List Byte} (h : Canon p.s.mem) : Canon (p.item base bs).s.mem := by
  unfold Snap.item
  split
  · exact canon_physWrite h
  · exact h

theorem canon_snapFrame {p : Snap} {base : Nat} (h : Canon p.s.mem) : Canon (p.frame base).2.s.mem := by
  unfold Snap.frame
  extract_lets f
  split
  · exact h
  · exact h

theorem canon_snapCopy {p : Snap} {base kind num va pte src : Nat} (h : Canon p.s.mem) :
    Canon (p.copy base kind num va pte src).s.mem := by
  unfold Snap.copy
  have hf : Canon (p.frame base).2.s.mem := canon_snapFrame h
  generalize p.frame base = q at hf ⊢
  obtain ⟨f, q⟩ := q
  dsimp only at hf ⊢
  split
  · exact hf
  · exact canon_snapItem (canon_copyPage hf)

theorem canon_snapCopyFar {p : Snap} {base va pte src : Nat} (h : Canon p.s.mem) : Canon (p.copyFar base va pte src).s.mem := by
  unfold Snap.copyFar
  have hf : Canon (p.frame base).2.s.mem := canon_snapFrame h
  generalize p.frame base = q at hf ⊢
  obtain ⟨f, q⟩ := q
  dsimp only at hf ⊢
  split
  · exact hf
  · have h1 : Canon (poisonFar (fillPage q.s f (farPage q.s src)) src f).mem := canon_poisonFar (canon_fillPage hf)
    exact canon_snapItem h1

/-- Folds over a snapshot keep its state's memory canonical. -/
theorem canon_foldl_snap {α : Type} {f : Snap → α → Snap} {l : List α} {p : Snap}
    (hf : ∀ {p : Snap} {a : α}, Canon p.s.mem → Canon (f p a).s.mem) (h : Canon p.s.mem) : Canon (l.foldl f p).s.mem :=
  foldl_keeps (P := fun p : Snap => Canon p.s.mem) l (fun _ hp _ => hf hp) h

theorem canon_snapShare {p : Snap} {base : Nat} {t : Tag} {f : Leaf} (h : Canon p.s.mem) : Canon (p.share base t f).s.mem := by
  unfold Snap.share
  extract_lets +onlyGivenNames q
  have hq : Canon q.s.mem := by
    refine canon_foldl_snap (fun {p} {e} hp => ?_) h
    have hi {bs : List Byte} : Canon (p.item base bs).s.mem := canon_snapItem hp
    dsimp only
    split
    · split
      · exact canon_ftPut hi
      · exact hi
    · exact hi
  clear_value q
  exact canon_tlbDropPage (canon_putPte hq)

theorem canon_recallRange {s : State} {pa n : Nat} (h : Canon s.mem) : Canon (recallRange s pa n).mem :=
  canon_foldl canon_drainLine h

theorem canon_snapLeaf {base : Nat} {t : Tag} {p : Snap} {f : Leaf} (h : Canon p.s.mem) : Canon (Snap.leaf base t p f).s.mem := by
  unfold Snap.leaf
  extract_lets +onlyGivenNames s e pa
  split
  · exact canon_snapItem h
  · split
    · exact canon_foldl_snap canon_snapCopyFar h
    · split
      · exact canon_foldl_snap canon_snapItem h
      · split
        · exact canon_snapCopy (canon_snapCopy h)
        · split
          · exact canon_snapShare h
          · exact canon_foldl_snap canon_snapCopy (canon_recallRange h)

theorem canon_takeSnapshot {s : State} {t : Tag} (h : Canon s.mem) : Canon (takeSnapshot s t).s.mem :=
  canon_snapItem (canon_foldl_snap canon_snapItem (canon_foldl_snap canon_snapItem (canon_foldl_snap canon_snapLeaf h)))

theorem lands_record {t : Tag} {base size : Nat} {s : State} : Lands s (execRecord t base size s) :=
  lands_mailbox fun _ ht => ht

theorem lands_recordSnapshot {t : Tag} {s : State} : Lands s (execRecordSnapshot t s) := by
  unfold execRecordSnapshot
  refine lands_ite lands_same (lands_ite (lands_next (canon_foldl canon_askBytes))
    (lands_ite (lands_next (canon_foldl canon_farAsk)) ?_))
  extract_lets +onlyGivenNames p
  have hp : Canon s.mem → Canon p.s.mem := canon_takeSnapshot
  clear_value p
  exact lands_ite (lands_next fun h => canon_dropBytes (hp h)) (lands_next fun h => canon_dropBytes h)

theorem canon_dropRef {s : State} {pa : Nat} (h : Canon s.mem) : Canon (dropRef s pa).mem := by
  unfold dropRef
  split
  · exact h
  · exact canon_ite (canon_pushFrame (canon_ftPut h)) (canon_ftPut h)

theorem canon_exportItem {base : Nat} {p : Snap} {e : Nat × List Byte} (h : Canon p.s.mem) :
    Canon (exportItem base p e).s.mem := by
  unfold exportItem
  split
  · exact h
  · have hf : Canon (p.frame base).2.s.mem := canon_snapFrame h
    generalize p.frame base = q at hf ⊢
    obtain ⟨f, q⟩ := q
    refine canon_dropRef ?_
    split
    · exact canon_physWrite (canon_copyPage hf)
    · exact hf

theorem lands_recstop {t : Tag} {s : State} : Lands s (execRecstop t s) := by
  unfold execRecstop
  extract_lets +onlyGivenNames c failed args
  refine lands_ite lands_same (lands_ite (lands_mailbox fun _ ht => ht) ?_)
  extract_lets +onlyGivenNames items p s1 s2 s3
  have hp : Canon s.mem → Canon p.s.mem := fun h => canon_foldl_snap canon_exportItem h
  clear_value p
  have h1 : Canon s.mem → Canon s1.mem := fun h => canon_ite (canon_physWrite (hp h)) (hp h)
  clear_value s1
  exact lands_next fun h => h1 h

theorem canon_mapPage {s : State} {va : Addr} {pte last fuel level table next : Nat} (h : Canon s.mem) :
    Canon (mapPage s va pte last fuel level table next).2.mem := by
  induction fuel generalizing s level table next with
  | zero => exact h
  | succ fuel ih =>
    unfold mapPage
    dsimp only
    split
    · exact canon_putPte h
    · split
      · exact ih h
      · exact ih (canon_putPte (canon_clearRange h))

theorem canon_placeWindow {s t : State} {w : BitVec 512} (ht : placeWindow s w = some t) (h : Canon s.mem) : Canon t.mem := by
  unfold placeWindow at ht
  obtain ⟨n, _, rfl⟩ := Option.map_eq_some_iff.mp ht
  exact canon_setWindow (canon_setWindow h)

theorem canon_placeRegion {s t : State} {m : List (Nat × Nat)} {d : BitVec 256} (ht : placeRegion s m d = some t)
    (h : Canon s.mem) :
    Canon t.mem := by
  unfold placeRegion at ht
  obtain ⟨n, _, rfl⟩ := Option.map_eq_some_iff.mp ht
  exact canon_rawWriteNat h

theorem canon_importPte {s : State} {t : Tag} {m : List (Nat × Nat)} {shadows : List (Nat × Nat × Nat)} {q : RecPage}
    (h : Canon s.mem) :
    Canon (importPte s t m shadows q).2.mem := by
  unfold importPte
  extract_lets +onlyGivenNames e plain
  clear_value e plain
  split
  · exact canon_ftFlag (canon_twinPut h)
  · exact h

end Sys2Proof.Machine
end

section
/-! SUPPORT. Memory stays in canonical form: reruns, the debugger, fences and barriers. -/

namespace Sys2Proof.Machine

open Sys2Proof Claims

theorem canon_modCtx {s : State} {t : Tag} {f : Ctx → Ctx} (h : Canon s.mem) : Canon (s.modCtx t f).mem := h

theorem canon_pagesIn {x : Import} {s : State} {dst : Tag} {frame : Nat} (h : Canon s.mem) :
    Canon (Import.pagesIn x s dst frame).mem := by
  unfold Import.pagesIn
  extract_lets +onlyGivenNames m stop s1 s2 s3 s4 s5 tw put p1 p2 p3
  clear_value m stop tw
  have h3 : Canon s3.mem := by
    refine canon_foldl (fun {s} {e} hs => ?_) (canon_foldl canon_copyPage (canon_foldl canon_copyPage h))
    split
    · exact canon_ftPut hs
    · exact hs
  clear_value s3
  have h5 : Canon s5.mem := canon_modCtx (canon_clearRange h3)
  clear_value s5
  have hput : ∀ {p : Nat × State} {va pte last : Nat}, Canon p.2.mem → Canon (put p va pte last).2.mem :=
    fun hp => canon_mapPage hp
  clear_value put
  have h1 : Canon p1.2.mem := canon_foldl_snd (fun hp => hput (canon_importPte hp)) h5
  clear_value p1
  have h2 : Canon p2.2.mem := canon_foldl_snd (fun hp => hput hp) h1
  clear_value p2
  exact canon_foldl_snd (fun hp => hput hp) h2

/-- Folds that may fail keep memory canonical where they do not. -/
theorem canon_foldl_bind {α : Type} {f : State → α → Option State} {l : List α} {o : Option State} {t : State}
    (hf : ∀ {s t : State} {a : α}, f s a = some t → Canon s.mem → Canon t.mem)
    (ht : l.foldl (fun (o : Option State) a => o.bind fun s => f s a) o = some t) (h : ∀ {s : State}, o = some s → Canon s.mem) :
    Canon t.mem := by
  induction l generalizing o with
  | nil => exact h ht
  | cons a l ih =>
    refine ih ht fun {s} hs => ?_
    obtain ⟨u, hu, hs⟩ := Option.bind_eq_some_iff.mp hs
    exact hf hs (h hu)

theorem canon_importContext {x : Import} {s t : State} {dst : Tag} {frame : Nat} (ht : x.context s dst frame = some t)
    (h : Canon s.mem) : Canon t.mem := by
  unfold Import.context at ht
  obtain ⟨u, hu, ht⟩ := Option.bind_eq_some_iff.mp ht
  have h1 : Canon u.mem := canon_foldl_bind canon_placeRegion hu fun e => by
    cases e
    exact canon_pagesIn h
  refine canon_foldl_bind canon_placeWindow ht fun e => ?_
  cases e
  exact canon_ite h1 (canon_writeAcctab h1)

theorem lands_rerunImport {area : Nat × Nat} {dst : Tag} {frame : Nat} {s : State} :
    Lands s (execRerunImport area dst frame s) := by
  unfold execRerunImport
  extract_lets x
  split
  · exact lands_same
  · next t e =>
    have ht : Canon s.mem → Canon t.mem := by
      split at e
      · exact canon_importContext e
      · exact nomatch e
    exact lands_next ht

/-- A command of the debugger answers a next state. -/
theorem lands_session {s : State} {ok : Bool} {f : State → State} (hf : Canon s.mem → Canon (f s).mem) :
    Lands s (session s ok f) :=
  lands_ite (lands_next hf) lands_same

theorem canon_takeRun {s t : State} {tag : Tag} {d n i : Nat} (ht : takeRun s tag d n = some (i, t))
    (h : Canon s.mem) : Canon t.mem := by
  unfold takeRun at ht
  split at ht
  · exact nomatch ht
  · extract_lets +onlyGivenNames all at ht
    split at ht
    · exact nomatch ht
    · cases ht
      exact canon_foldl canon_ftPut (canon_foldl canon_pushFrame (canon_setFreeList h))

theorem canon_takeRunAny {s t : State} {tag : Tag} {n i : Nat} (ht : takeRunAny s tag n = some (i, t)) (h : Canon s.mem) :
    Canon t.mem := by
  obtain ⟨d, _, hd⟩ := List.exists_of_findSome?_eq_some ht
  exact canon_takeRun hd h

theorem canon_giveFrame {s : State} {pa : Nat} (h : Canon s.mem) : Canon (giveFrame s pa).mem := canon_dropRef h

theorem canon_mapRun {s t : State} {tag : Tag} {va : Addr} {n perms : Nat} {bs : List Byte}
    (ht : mapRun s tag va n perms bs = some t)
    (h : Canon s.mem) : Canon t.mem := by
  unfold mapRun at ht
  split at ht
  · cases ht
    exact h
  · split at ht
    · exact nomatch ht
    · next hi =>
      split at ht
      · exact nomatch ht
      · next hj =>
        cases ht
        exact canon_foldl_snd (fun hp => canon_mapPage (canon_fillPage hp)) (canon_takeRunAny hj (canon_takeRunAny hi h))

theorem canon_virtWrite {s : State} {t : Tag} {va : Addr} {bs : List Byte} (h : Canon s.mem) :
    Canon (virtWrite s t va bs).mem := by
  refine canon_foldl (fun {s} {e} hs => ?_) h
  split
  · exact canon_homeStore hs
  · exact hs

theorem canon_unmapRun {s : State} {t : Tag} {va : Addr} {n : Nat} (h : Canon s.mem) : Canon (unmapRun s t va n).mem := by
  refine canon_foldl (fun {s} {k} hs => ?_) h
  dsimp only
  split
  · exact canon_foldl (fun hs => canon_giveFrame (canon_purgeRange hs))
      (canon_tlbDropPage (canon_putPte (canon_ite (canon_dropTwin hs) hs)))
  · exact hs

theorem lands_dbgAttach {t : Option Tag} {s : State} : Lands s (execDbgAttach t s) := by
  unfold execDbgAttach
  extract_lets +onlyGivenNames bind
  have hb : ∀ {u : State} {t : Tag}, Canon u.mem → Canon (bind u t).mem := fun hu => canon_note hu
  clear_value bind
  split
  · exact lands_next fun h => canon_ite (hb h) h
  · split
    · exact lands_same
    · dsimp only
      split
      · exact lands_same
      · next ht => exact lands_next fun h => hb (canon_modCtx (canon_clearRange (canon_takeRunAny ht h)))

theorem canon_unloadImage {s : State} {t : Tag} {im : Image} {entries : List Nat} (h : Canon s.mem) :
    Canon (unloadImage s t im entries).mem := by
  unfold unloadImage
  extract_lets +onlyGivenNames base s1 s2
  have h1 : Canon s1.mem := canon_foldl canon_rawWriteNat h
  have h2 : Canon s2.mem := canon_ite h1 (canon_writeAcctab h1)
  exact canon_unmapRun (canon_unmapRun h2)

theorem canon_loadRegion {t : Tag} {p : State × List Nat} {r : Addr × Nat × Int × Nat} (h : Canon p.1.mem) :
    Canon (loadRegion t p r).1.mem := by
  unfold loadRegion
  split
  · exact canon_rawWriteNat h
  · exact h

theorem canon_placeImage {s t : State} {tag : Tag} {im : Image} {entries : List Nat}
    (ht : placeImage s tag im = some (t, entries))
    (h : Canon s.mem) : Canon t.mem := by
  unfold placeImage at ht
  extract_lets +onlyGivenNames x d at ht
  split at ht
  · exact nomatch ht
  · obtain ⟨s1, h1, ht⟩ := Option.bind_eq_some_iff.mp ht
    obtain ⟨s2, h2, ht⟩ := Option.bind_eq_some_iff.mp ht
    have hc2 : Canon s2.mem := canon_mapRun h2 (canon_mapRun h1 h)
    extract_lets +onlyGivenNames jp at ht
    have hj : ∀ {u : State}, jp u = some (t, entries) → Canon u.mem → Canon t.mem := by
      intro u e hu
      have hr : Canon (im.regions.foldl (loadRegion tag) (u, [])).1.mem := canon_foldl_fst canon_loadRegion hu
      obtain ⟨rfl, _⟩ := Prod.mk.inj (Option.some.inj e)
      exact canon_ite hr (canon_writeAcctab hr)
    clear_value jp
    split at ht
    · obtain ⟨s3, h3, ht⟩ := Option.bind_eq_some_iff.mp ht
      exact hj ht (canon_mapRun h3 hc2)
    · obtain ⟨s3, h3, ht⟩ := Option.bind_eq_some_iff.mp ht
      cases h3
      exact hj ht hc2

theorem lands_dbgLoad {im : Image} {s : State} : Lands s (execDbgLoad im s) := by
  unfold execDbgLoad
  extract_lets +onlyGivenNames t mine s1
  have h1 : Canon s.mem → Canon s1.mem := fun h => canon_foldl canon_unloadImage h
  clear_value s1
  refine lands_session fun h => ?_
  split
  · exact h
  · next t2 _ e =>
    have h2 : Canon t2.mem := canon_placeImage e (h1 h)
    exact canon_note h2

theorem lands_dbgArgs {ws : List (DWord × Bool)} {s : State} : Lands s (execDbgArgs ws s) := lands_session fun h => h

theorem canon_ringEntry {s : State} {k : Nat} {q : HostQ} {va : Addr} (h : Canon s.mem) : Canon (ringEntry s k q va).mem :=
  canon_homeStore h

theorem lands_dbgLaunch {x y w h : Nat} {side? dl? : Option Nat} {s : State} : Lands s (execDbgLaunch x y w h side? dl? s) := by
  unfold execDbgLaunch
  extract_lets side dl ok
  split
  · next k q _ _ => exact lands_session fun h => canon_ringEntry (k := k) (q := q) (canon_virtWrite h)
  · exact lands_same

theorem lands_dbgBreakpointStop {w : WarpId} {s : State} : Lands s (execDbgBreakpointStop w s) := by
  unfold execDbgBreakpointStop
  split
  · exact lands_same
  · exact lands_ite (lands_next fun h => canon_ite (canon_stopWarp h) h) (lands_next fun h => canon_ite (canon_stopWarp h) h)

theorem canon_afterIssue {w : WarpId} {i : Instr} {s : State} (h : Canon s.mem) : Canon (afterIssue w i s).mem := by
  unfold afterIssue
  split
  · extract_lets +onlyGivenNames rpt
    clear_value rpt
    exact canon_ite h (canon_ite h h)
  · exact h

theorem canon_goOn {s : State} {w : WarpId} (h : Canon s.mem) : Canon (goOn s w).mem := by
  unfold goOn
  split
  · exact h
  · dsimp only
    split
    · refine canon_ite ?_ ?_
      · exact canon_queueTrap h
      · exact canon_queueTrap h
    · split
      · exact h
      · exact h

theorem lands_dbgStep {n : Nat} {cu : Option CuId} {s : State} : Lands s (execDbgStep n cu s) := by
  unfold execDbgStep
  extract_lets +onlyGivenNames ws w
  clear_value w
  split
  · exact lands_same
  · exact lands_session fun h => canon_goOn h

theorem lands_dbgContinue {cu : Option CuId} {s : State} : Lands s (execDbgContinue cu s) :=
  lands_session fun h => canon_foldl canon_goOn h

theorem lands_dbgPromptReturn {s : State} : Lands s (execDbgPromptReturn s) := by
  unfold execDbgPromptReturn
  extract_lets ended
  exact lands_session fun h => h

theorem lands_dbgBreak {addr : Addr} {cu : CuId} {s : State} : Lands s (execDbgBreak addr cu s) := lands_session fun h => h

theorem lands_dbgCatch {cause : Nat} {s : State} : Lands s (execDbgCatch cause s) := lands_session fun h => h

theorem lands_dbgDelete {ns : List Nat} {s : State} : Lands s (execDbgDelete ns s) := by
  unfold execDbgDelete
  extract_lets known
  exact lands_session fun h => h

theorem lands_dbgHoldStore {cu : CuId} {addr : Addr} {s : State} : Lands s (execDbgHoldStore cu addr s) :=
  lands_session fun h => h

theorem lands_dbgUnhold {n : Nat} {s : State} : Lands s (execDbgUnhold n s) :=
  lands_ite (lands_session fun h => h) (lands_session fun h => h)

theorem lands_dbgHoldTriggers {s : State} : Lands s (execDbgHoldTriggers s) := lands_session fun h => h

theorem canon_unspill {s : State} {k : Nat} {t : Trigger} {g : Region} (h : Canon s.mem) : Canon (unspill s k t g).mem :=
  canon_clearSpillBit h

theorem lands_dbgRelease {addr : Addr} {s : State} : Lands s (execDbgRelease addr s) := by
  unfold execDbgRelease
  split
  · exact lands_same
  · refine lands_session fun h => canon_offer ?_
    exact canon_ite (canon_unspill h) h

theorem lands_dbgTraceTriggers {s : State} : Lands s (execDbgTraceTriggers s) := lands_session fun h => h

theorem lands_dbgUntrace {n : Nat} {s : State} : Lands s (execDbgUntrace n s) := lands_session fun h => h

theorem lands_dbgPrint {rs : List DbgReg} {s : State} : Lands s (execDbgPrint rs s) := by
  unfold execDbgPrint
  split
  · exact lands_session canon_note
  · exact lands_same

theorem lands_dbgXW {addrs : List Addr} {s : State} : Lands s (execDbgXW addrs s) := by
  refine lands_session fun h => ?_
  exact canon_ite (canon_note (canon_ite h (canon_dropBytes h))) (canon_foldl canon_askBytes h)

theorem lands_dbgCache {cu : CuId} {addrs : List Addr} {s : State} : Lands s (execDbgCache cu addrs s) :=
  lands_session canon_note

theorem lands_dbgPte {t : Option Tag} {va : Addr} {s : State} : Lands s (execDbgPte t va s) := lands_session canon_note

theorem lands_dbgFrame {t : Option Tag} {va : Addr} {s : State} : Lands s (execDbgFrame t va s) := by
  refine lands_session fun h => ?_
  split
  · exact canon_note h
  · exact canon_note h

theorem lands_dbgFreelist {d : Nat} {s : State} : Lands s (execDbgFreelist d s) := lands_session canon_note

theorem lands_dbgAcc {addr : Addr} {s : State} : Lands s (execDbgAcc addr s) := by
  unfold execDbgAcc
  split
  · exact lands_same
  · exact lands_session canon_note

theorem lands_dbgPending {r : Nat} {s : State} : Lands s (execDbgPending r s) := by
  unfold execDbgPending
  split
  · exact lands_same
  · exact lands_session canon_note

theorem canon_sendFar {s : State} {pa n : Nat} (h : Canon s.mem) : Canon (sendFar s pa n).mem :=
  canon_foldl canon_sendBlock (canon_foldl canon_purgeWord h)

theorem lands_dbgPteSm {addr : Addr} {n : Nat} {v : Bool} {s : State} : Lands s (execDbgPteSm addr n v s) := by
  unfold execDbgPteSm
  extract_lets +onlyGivenNames t pages mapped far
  clear_value far mapped
  refine lands_session fun h => canon_ite (canon_foldl canon_sendFar h) (canon_foldl (fun {s} {a} hs => ?_) h)
  split
  · exact canon_ite (canon_purgeRange (canon_tlbDropPage (canon_putPte hs))) (canon_tlbDropPage (canon_putPte hs))
  · exact hs

theorem lands_dbgPreempt {cu : CuId} {dest : Option CuId} {s : State} : Lands s (execDbgPreempt cu dest s) := by
  unfold execDbgPreempt
  split
  · exact lands_same
  · refine lands_session fun h => ?_
    have h1 {g : GroupId} : Canon ((clusterOf s g).foldl (fun s h => askStop s h true) s).mem := canon_foldl canon_askStop h
    exact h1

theorem canon_dropOld {s : State} {c : CuId} (h : Canon s.mem) : Canon (dropOld s c).mem :=
  canon_foldl canon_proxDrop (canon_modCu h)

theorem lands_fence {p : Pr} {scp : Scope} {kind : FenceKind} {s : State} (hcur : s.cur ≠ none) :
    Lands s (execFence p scp kind s) := by
  refine lands_run hcur (fun {x} {t} h => ?_)
  extract_lets +onlyGivenNames acq rel
  refine resCanon_ite (resCanon_hold h) (resCanon_ite (resCanon_hold (canon_releaseBegin h)) ?_)
  extract_lets +onlyGivenNames s1
  have h1 : Canon s1.mem := canon_ite (canon_dropAt h) (canon_ite (canon_dropOld h) h)
  exact resCanon_ite (resCanon_ok (canon_modWarp (canon_releaseAt h1))) (resCanon_ok h1)

theorem canon_barArrive {s : State} {x : Issue} {cl : Bool} {k : Nat} (h : Canon s.mem) : Canon (barArrive s x cl k).mem := by
  unfold barArrive
  split
  · exact h
  · exact canon_barAdvance (canon_setBar (canon_releaseAt h))

theorem canon_barWaited {s : State} {x : Issue} {k : Nat} (h : Canon s.mem) : Canon (barWaited s x k).mem := by
  unfold barWaited
  split
  · exact h
  · exact canon_dropAt (canon_setBar h)

theorem canon_barHold {s : State} {x : Issue} {k : Nat} (h : Canon s.mem) : Res.Canon (barHold s x k) :=
  resCanon_hold (canon_modWarp h)

theorem canon_barDone {s : State} {x : Issue} {k : Nat} (h : Canon s.mem) : Res.Canon (barDone s x k) :=
  resCanon_ok (canon_modWarp (canon_barWaited h))

theorem lands_arrive {h : Hdr} {cl : Bool} {a : Operand} {s : State} (hcur : s.cur ≠ none) : Lands s (execArrive h cl a s) := by
  refine lands_run hcur (fun {x} {t} h => ?_)
  split
  · exact resCanon_trap
  · exact resCanon_ite resCanon_trap (resCanon_ite (resCanon_hold h) (resCanon_ite (resCanon_hold (canon_releaseBegin h))
      (resCanon_ok (canon_barArrive h))))

theorem lands_wait {h : Hdr} {cl : Bool} {a : Operand} {s : State} (hcur : s.cur ≠ none) : Lands s (execWait h cl a s) := by
  refine lands_run hcur (fun {x} {t} h => ?_)
  split
  · exact resCanon_trap
  · exact resCanon_ite resCanon_trap (resCanon_ite (canon_barHold h) (canon_barDone h))

theorem lands_bar {h : Hdr} {cl : Bool} {a : Operand} {s : State} (hcur : s.cur ≠ none) : Lands s (execBar h cl a s) := by
  refine lands_run hcur (fun {x} {t} h => ?_)
  split
  · exact resCanon_trap
  · exact resCanon_ite (resCanon_ite (canon_barHold h) (canon_barDone h))
      (resCanon_ite resCanon_trap (resCanon_ite (resCanon_hold h)
      (resCanon_ite (resCanon_hold (canon_releaseBegin h))
        (resCanon_ite (canon_barHold (canon_barArrive h)) (canon_barDone (canon_barArrive h))))))

theorem lands_bmask {h : Hdr} {cl : Bool} {a b : Operand} {s : State} (hcur : s.cur ≠ none) : Lands s (execBmask h cl a b s) := by
  refine lands_run hcur (fun {x} {t} h => ?_)
  split
  · exact resCanon_ite resCanon_trap (resCanon_ok (canon_setBar h))
  · exact resCanon_trap

theorem lands_cvdef {p : Pr} {cv : Fin 8} {a : Option Operand} {s : State} (hcur : s.cur ≠ none) :
    Lands s (execCvdef p cv a s) := by
  refine lands_run hcur (fun {x} {t} h => ?_)
  split
  · exact resCanon_ok h
  · exact resCanon_ite resCanon_trap (resCanon_ite (resCanon_hold h) (resCanon_ok (canon_modWarp h)))

theorem lands_publish {h : Hdr} {a : Operand} {s : State} (hcur : s.cur ≠ none) : Lands s (execPublish h a s) := by
  refine lands_run hcur (fun {x} {t} h => ?_)
  exact resCanon_ite resCanon_trap (resCanon_ite (resCanon_hold h) (resCanon_ite (resCanon_hold (canon_releaseBegin h))
    (resCanon_ok (canon_releaseAt h))))

theorem lands_publishFlip {s : State} : Lands s (execPublishFlip s) := by
  unfold execPublishFlip
  split
  · exact lands_same
  · exact lands_ite lands_same (lands_next fun h => canon_flipSet h)

theorem lands_chset {h : Hdr} {d a b : Operand} {s : State} (hcur : s.cur ≠ none) : Lands s (execChset h d a b s) := by
  refine lands_run hcur (fun {x} {t} h => ?_)
  extract_lets +onlyGivenNames base depth
  split
  · exact resCanon_ite resCanon_trap (resCanon_ok (canon_modGroup h))
  · exact resCanon_ok h

end Sys2Proof.Machine
end

section
/-! SUPPORT. Every step answers a next state and keeps memory in canonical form. -/

namespace Sys2Proof.Machine

open Sys2Proof Claims

/-! ### What stands before an issue -/

/-- An instruction that a turn runs is under issue. -/
def Prep.UnderIssue : Prep → Prop
  | .over _ => True
  | .run _ t => t.cur ≠ none

theorem underIssue_ite {c : Prop} [Decidable c] {a b : Prep} (ha : a.UnderIssue) (hb : b.UnderIssue) :
    (if c then a else b).UnderIssue := by
  split
  · exact ha
  · exact hb

theorem underIssue_trapAt {s : State} {c : Cur} {cause : Nat} {inrep : Bool} : (trapAt s c cause inrep).UnderIssue := trivial

theorem underIssue_decoded {s : State} {c : Cur} {r : Raw} {inrep : Bool} : (decoded s c r inrep).UnderIssue := by
  unfold decoded
  split
  · exact fun h => nomatch h
  · exact underIssue_trapAt

theorem underIssue_issueAt {s : State} {w : WarpId} {pc : Addr} {set : Mask} : (issueAt s w pc set).UnderIssue := by
  unfold issueAt
  split
  · trivial
  · exact underIssue_trapAt
  · split
    · exact underIssue_trapAt
    · split
      · exact underIssue_trapAt
      · exact underIssue_decoded

theorem underIssue_issueRep {s : State} {w : WarpId} {x : Warp} : (issueRep s w x).UnderIssue := by
  unfold issueRep
  extract_lets +onlyGivenNames set ra ta
  split
  · trivial
  · exact underIssue_trapAt
  · split
    · dsimp only
      split
      · exact underIssue_decoded
      · exact underIssue_trapAt
    · exact underIssue_trapAt

theorem underIssue_prepare {s : State} {w : WarpId} : (prepare s w).UnderIssue := by
  unfold prepare
  split
  · trivial
  · refine underIssue_ite trivial (underIssue_ite trivial (underIssue_ite trivial (underIssue_ite trivial
      (underIssue_ite underIssue_issueRep (underIssue_ite underIssue_issueAt ?_)))))
    dsimp only
    split
    · trivial
    · exact underIssue_issueAt

/-! ### Every instruction and every event -/

/-- Every step of the table answers a next state and keeps memory in canonical form. -/
theorem lands_exec {i : Instr} {s : State} (hcur : i.isIsa = true → s.cur ≠ none) : Lands s (exec i s) := by
  cases i
  case iadd | isub | imul | imulh | imad | iabs | imin | imax | and | or | xor | andn | shl | shr | sar | rot | popc |
    clz | brev | bfe | bfi | sel | mov | icmp | plog | sext | zext | lea | add64 | sub64 | fadd | fsub | fmul | ffma |
    fmin | fmax | fcmp | fclass | frnd | fdot2 | dadd | dmul | dfma | dcmp | dmin | dmax => exact lands_mapLanes (hcur rfl)
  case mul64 m _ _ _ => exact lands_mapLanes (hcur (by cases m <;> rfl))
  case rcp | rsqrt | sqrt | exp2 | log2 | sin | cos | tanh => exact lands_special (hcur rfl)
  case cvt | pack | unpack | qpack | qunpack => exact lands_run (hcur rfl) canon_queueBody
  case nop => exact lands_nop (hcur rfl)
  case bra => exact lands_bra (hcur rfl)
  case brx => exact lands_brx (hcur rfl)
  case call => exact lands_call (hcur rfl)
  case ret => exact lands_ret (hcur rfl)
  case exit => exact lands_exit (hcur rfl)
  case rpt => exact lands_rpt (hcur rfl)
  case yield => exact lands_yield (hcur rfl)
  case idle => exact lands_idle (hcur rfl)
  case trap => exact lands_trap (hcur rfl)
  case brk => exact lands_brk (hcur rfl)
  case eretReplay => exact lands_eretReplay (hcur rfl)
  case eretSkip => exact lands_eretSkip (hcur rfl)
  case eretFill => exact lands_eretFill (hcur rfl)
  case eretAbort => exact lands_eretAbort (hcur rfl)
  case mfs => exact lands_mfs (hcur rfl)
  case mts => exact lands_mts (hcur rfl)
  case pgctlWrite => exact lands_pgctlWrite (hcur rfl)
  case acctabWrite => exact lands_acctabWrite (hcur rfl)
  case watchtabWrite => exact lands_watchtabWrite (hcur rfl)
  case launch => exact lands_launch (hcur rfl)
  case enq => exact lands_enq (hcur rfl)
  case tlbiVa => exact lands_tlbiVa (hcur rfl)
  case tlbiRange => exact lands_tlbiRange (hcur rfl)
  case tlbiCtx => exact lands_tlbiCtx (hcur rfl)
  case tlbiAll => exact lands_tlbiAll (hcur rfl)
  case tlbsync => exact lands_tlbsync (hcur rfl)
  case pgref => exact lands_pgref (hcur rfl)
  case pgcow => exact lands_pgcow (hcur rfl)
  case pgtwin => exact lands_pgtwin (hcur rfl)
  case pgmig => exact lands_pgmig (hcur rfl)
  case ctxsave => exact lands_ctxsave (hcur rfl)
  case ctxload => exact lands_ctxload (hcur rfl)
  case evt => exact lands_evt (hcur rfl)
  case shfl => exact lands_shfl (hcur rfl)
  case vote => exact lands_vote (hcur rfl)
  case bcast => exact lands_bcast (hcur rfl)
  case redux => exact lands_redux (hcur rfl)
  case scan => exact lands_scan (hcur rfl)
  case ld => exact lands_ld (hcur rfl)
  case st => exact lands_st (hcur rfl)
  case ldu => exact lands_ldu (hcur rfl)
  case stu => exact lands_stu (hcur rfl)
  case lds => exact lands_lds (hcur rfl)
  case sts => exact lands_sts (hcur rfl)
  case ldfe => exact lands_ldfe (hcur rfl)
  case ldff => exact lands_ldff (hcur rfl)
  case stfe => exact lands_stfe (hcur rfl)
  case stff => exact lands_stff (hcur rfl)
  case feset => exact lands_feset (hcur rfl)
  case pref => exact lands_pref (hcur rfl)
  case wbr => exact lands_wbr (hcur rfl)
  case invr => exact lands_invr (hcur rfl)
  case flr => exact lands_flr (hcur rfl)
  case icinv => exact lands_icinv (hcur rfl)
  case fetchb => exact lands_fetchb (hcur rfl)
  case atom => exact lands_atom (hcur rfl)
  case red => exact lands_red (hcur rfl)
  case cas => exact lands_cas (hcur rfl)
  case acc => exact lands_acc (hcur rfl)
  case accdrain => exact lands_accdrain (hcur rfl)
  case fence => exact lands_fence (hcur rfl)
  case arrive => exact lands_arrive (hcur rfl)
  case wait => exact lands_wait (hcur rfl)
  case bar => exact lands_bar (hcur rfl)
  case bmask => exact lands_bmask (hcur rfl)
  case cvdef => exact lands_cvdef (hcur rfl)
  case watch => exact lands_watch (hcur rfl)
  case unwatch => exact lands_unwatch (hcur rfl)
  case publish => exact lands_publish (hcur rfl)
  case chset => exact lands_chset (hcur rfl)
  case mma => exact lands_mma (hcur rfl)
  case mmaq => exact lands_mmaq (hcur rfl)
  case mmas => exact lands_mmas (hcur rfl)
  case accz => exact lands_accz (hcur rfl)
  case accld => exact lands_accld (hcur rfl)
  case accst => exact lands_accst (hcur rfl)
  case accrd => exact lands_accrd (hcur rfl)
  case accwr => exact lands_accwr (hcur rfl)
  case xcopy => exact lands_xcopy (hcur rfl)
  case mcast => exact lands_mcast (hcur rfl)
  case csrg => exact lands_csrg (hcur rfl)
  case estat => exact lands_estat (hcur rfl)
  case ecancel => exact lands_ecancel (hcur rfl)
  case spinExcursion => exact lands_spinExcursion
  case excursionLimit => exact lands_excursionLimit
  case loadReply => exact lands_loadReply
  case storeAcceptance => exact lands_storeAcceptance
  case storeErrorResponse => exact lands_storeErrorResponse
  case queueCompletion => exact lands_queueCompletion
  case rangeOpComplete => exact lands_rangeOpComplete
  case accdrainComplete => exact lands_accdrainComplete
  case untrackedRetest => exact lands_untrackedRetest
  case deferredMatrixIssue => exact lands_deferredMatrixIssue
  case matrixOpComplete => exact lands_matrixOpComplete
  case engineElementDelivery => exact lands_engineElementDelivery
  case enginePageStage => exact lands_enginePageStage
  case asyncTrap => exact lands_asyncTrap
  case trapEnqueue => exact lands_trapEnqueue
  case handlerStart => exact lands_handlerStart
  case preemption => exact lands_preemption
  case contextSwitch => exact lands_contextSwitch
  case deadlineOverrun => exact lands_deadlineOverrun
  case partitionHalt => exact lands_partitionHalt
  case launchRecord => exact lands_launchRecord
  case stagingComplete => exact lands_stagingComplete
  case groupStart => exact lands_groupStart
  case balanceExchange => exact lands_balanceExchange
  case groupRetire => exact lands_groupRetire
  case launchCompletion => exact lands_launchCompletion
  case flushByTag => exact lands_flushByTag
  case homeOwnRequest => exact lands_homeOwnRequest
  case homeWtLoad => exact lands_homeWtLoad
  case homeSiLoad => exact lands_homeSiLoad
  case homeWtSiStore => exact lands_homeWtSiStore
  case homeUncLoad => exact lands_homeUncLoad
  case homeUncStoreAtomic => exact lands_homeUncStoreAtomic
  case invalidate => exact lands_invalidate
  case writeBack => exact lands_writeBack
  case l1Eviction => exact lands_l1Eviction
  case l2Eviction => exact lands_l2Eviction
  case plinthRd => exact lands_plinthRd
  case plinthWr => exact lands_plinthWr
  case plinthAt => exact lands_plinthAt
  case join => exact lands_join
  case combine => exact lands_combine
  case combineAck => exact lands_combineAck
  case regionLoad => exact lands_regionLoad
  case tighten => exact lands_tighten
  case tightenAck => exact lands_tightenAck
  case fullDrain => exact lands_fullDrain
  case regionRecall => exact lands_regionRecall
  case triggerDispatch => exact lands_triggerDispatch
  case triggerReoffer => exact lands_triggerReoffer
  case spillScan => exact lands_spillScan
  case pendRunChange => exact lands_pendRunChange
  case groupCountOut => exact lands_groupCountOut
  case copyOnWriteBreak => exact lands_copyOnWriteBreak
  case cowReplay => exact lands_cowReplay
  case migrationComplete => exact lands_migrationComplete
  case migrationError => exact lands_migrationError
  case publishFlip => exact lands_publishFlip
  case switchQuiesceDone => exact lands_switchQuiesceDone
  case switchDrainDone => exact lands_switchDrainDone
  case retrainLock => exact lands_retrainLock
  case retrainTimeout => exact lands_retrainTimeout
  case announceDone => exact lands_announceDone
  case linkLoss => exact lands_linkLoss
  case wavelengthRetire => exact lands_wavelengthRetire
  case ualRequest => exact lands_ualRequest
  case relayForward => exact lands_relayForward
  case freeze => exact lands_freeze
  case resume => exact lands_resume
  case storeLogReplay => exact lands_storeLogReplay
  case busyResend => exact lands_busyResend
  case backInvalidate => exact lands_backInvalidate
  case dynamicCapacityRelease => exact lands_dynamicCapacityRelease
  case forcedRevocation => exact lands_forcedRevocation
  case tlbiComplete => exact lands_tlbiComplete
  case icinvComplete => exact lands_icinvComplete
  case farEndQuiesce => exact lands_farEndQuiesce
  case announceFailure => exact lands_announceFailure
  case drainFailure => exact lands_drainFailure
  case inboundRmaRequest => exact lands_inboundRmaRequest
  case dbgBreakpointStop => exact lands_dbgBreakpointStop
  case qtail => exact lands_qtail
  case qcfg => exact lands_qcfg
  case queueEntry => exact lands_queueEntry
  case pkgset => exact lands_pkgset
  case quantum => exact lands_quantum
  case dumpset => exact lands_dumpset
  case vlogset => exact lands_vlogset
  case prove => exact lands_prove
  case record => exact lands_record
  case recordSnapshot => exact lands_recordSnapshot
  case recstop => exact lands_recstop
  case powercap => exact lands_powercap
  case svcclr => exact lands_svcclr
  case dumprun => exact lands_dumprun
  case newManagementImage => exact lands_newManagementImage
  case rerunImport => exact lands_rerunImport
  case reset => exact lands_reset
  case uncorrectableError => exact lands_uncorrectableError
  case correctableError => exact lands_correctableError
  case spareCu => exact lands_spareCu
  case pseudoChannelRetire => exact lands_pseudoChannelRetire
  case powerCap => exact lands_powerCap
  case decodeWindow => exact lands_decodeWindow
  case nrctl => exact lands_nrctl
  case registerWrite => exact lands_registerWrite
  case dbgAttach => exact lands_dbgAttach
  case dbgLoad => exact lands_dbgLoad
  case dbgArgs => exact lands_dbgArgs
  case dbgLaunch => exact lands_dbgLaunch
  case dbgPrint => exact lands_dbgPrint
  case dbgDelete => exact lands_dbgDelete
  case dbgHoldStore => exact lands_dbgHoldStore
  case dbgUnhold => exact lands_dbgUnhold
  case dbgBreak => exact lands_dbgBreak
  case dbgStep => exact lands_dbgStep
  case dbgContinue => exact lands_dbgContinue
  case dbgPromptReturn => exact lands_dbgPromptReturn
  case dbgXW => exact lands_dbgXW
  case dbgCache => exact lands_dbgCache
  case dbgPteSm => exact lands_dbgPteSm
  case dbgPte => exact lands_dbgPte
  case dbgFrame => exact lands_dbgFrame
  case dbgFreelist => exact lands_dbgFreelist
  case dbgCatch => exact lands_dbgCatch
  case dbgAcc => exact lands_dbgAcc
  case dbgPreempt => exact lands_dbgPreempt
  case dbgHoldTriggers => exact lands_dbgHoldTriggers
  case dbgRelease => exact lands_dbgRelease
  case dbgTraceTriggers => exact lands_dbgTraceTriggers
  case dbgUntrace => exact lands_dbgUntrace
  case dbgPending => exact lands_dbgPending
  -- What is left is the constructor `recall`, whose name is a keyword that `case` cannot take.
  · exact lands_recall

/-! ### A warp's turn and a move -/

theorem lands_turnOf {s : State} {w : WarpId} : Lands s (turnOf s w) := by
  have hp : Canon s.mem → (prepare s w).Canon := canon_prepare
  have hu : (prepare s w).UnderIssue := underIssue_prepare
  unfold turnOf
  split
  · next t e =>
    rw [e] at hp
    exact lands_next hp
  · next i t e =>
    rw [e] at hp hu
    obtain ⟨v, hv, hc⟩ := lands_exec (i := i) (s := t) fun _ => hu
    rw [hv]
    exact lands_next fun h => canon_turnOver (canon_afterIssue (hc (hp h)))

theorem lands_doMove {m : Move} {s : State} : Lands s (doMove m s) := by
  unfold doMove
  refine lands_ite lands_same ?_
  split
  · exact lands_ite lands_turnOf lands_same
  · next i =>
    split
    · exact lands_same
    · next hi => exact lands_exec fun h => absurd h hi
  · exact lands_next canon_hostStore

theorem canon_nextMove {s : State} (h : Canon s.mem) : Canon (nextMove s).2.mem := by
  unfold nextMove
  split
  · exact h
  · split
    · split
      · exact h
      · exact h
    · split
      · exact h
      · split
        · exact h
        · exact h

theorem lands_step {s : State} : Lands s (step s) := by
  have hn : Canon s.mem → Canon (nextMove (passTime s)).2.mem := fun h => canon_nextMove (canon_passTime h)
  unfold step
  split
  · next m t e =>
    obtain ⟨v, hv, hc⟩ := lands_doMove (m := m) (s := t)
    exact ⟨v, hv, fun h => hc (canon_of_snd e (hn h))⟩
  · next e => exact lands_next fun h => canon_of_snd e (hn h)

/-- Settles O60: the step of every state lands, by the case split over the schedule's moves and the table of instructions
and events. -/
theorem stepAnswers : Obligations.StepAnswers := by
  intro s
  obtain ⟨t, ht, _⟩ := lands_step (s := s)
  exact ⟨t, ht⟩

/-- Settles O59: the state that a step lands in keeps the canonical form of memory. -/
theorem stepKeepsMemory : Obligations.StepKeepsMemory := by
  intro s t h ht
  obtain ⟨u, hu, hc⟩ := lands_step (s := s)
  rw [hu] at ht
  cases ht
  exact hc h

end Sys2Proof.Machine
end
